-- ==== Sys2Proof/Word.lean ====
section
/-! DEFINITION. The word types of the P96 and nothing else: bytes, words, pairs, lane masks (spec/00_scope.md R6, R7;
spec/02_execution_model.md R27). -/

namespace Sys2Proof

/-- One byte of any memory (R7). -/
abbrev Byte := BitVec 8

/-- A 32-bit register, uniform register or memory word (R10). -/
abbrev Word := BitVec 32

/-- A 64-bit value: a register pair, an address before its range check, a page-table entry (R7). -/
abbrev DWord := BitVec 64

/-- One bit for each lane, lane l at bit l (R27, R29). -/
abbrev Mask := BitVec 32

/-- The lanes of a warp (R27). -/
abbrev Lane := Fin 32

/-- A per-lane register: one word for each lane (R29). -/
abbrev Row := Vector Word 32

end Sys2Proof
end

