-- ==== Sys2Proof/Syntax.lean ====
section
/-! DEFINITION. The instructions of the Turrel set (spec/06_encoding.md R133-R151) and the device steps of
spec/opcode_table.json (spec/95_what_each_step_holds.md), one constructor of `Instr` for each row. -/

namespace Sys2Proof

/-! ## Operand codes -/

/-- A 7-bit per-lane register code (R140). -/
inductive VOp where
  | v (n : Fin 120)
  | aq (n : Fin 4)
  | sq
  | lane
  | zero
  | lit
  deriving DecidableEq, Repr

/-- A 6-bit uniform register code (R141). -/
inductive SOp where
  | s (n : Fin 63)
  | lit
  deriving DecidableEq, Repr

/-- The five address spaces (R80). -/
inductive Space where
  | p | s | c | d | g
  deriving DecidableEq, Repr

/-- The access sizes of form M (R151). -/
inductive Size where
  | b | h | w | d | q16 | sb | sh
  deriving DecidableEq, Repr

/-- The condition codes 0 to 9 of `icmp`, `bcc` and `waitw` (R148). -/
inductive Cond where
  | eq | ne | lt | le | gt | ge | ltu | leu | gtu | geu
  deriving DecidableEq, Repr

/-- The condition codes 0 to 7 of `fcmp` (R148). -/
inductive FCond where
  | eq | ne | lt | le | gt | ge | ord | uno
  deriving DecidableEq, Repr

/-- The reduction operations of `lfold` and `bar` (R149). -/
inductive FoldOp where
  | add | min | max | minu | maxu | and | or | xor | fadd | fmin | fmax
  deriving DecidableEq, Repr

/-- The modes of `vote` (R149). -/
inductive VoteMode where
  | ballot | all | any
  deriving DecidableEq, Repr

/-- The modes of `xlane` (R181). -/
inductive XMode where
  | from | rot | rev | xor
  deriving DecidableEq, Repr

/-- The scopes (R107, R150). -/
inductive Scope where
  | warp | core | clu | mod | sys
  deriving DecidableEq, Repr

/-- The four rounding modes (R60). -/
inductive RMode where
  | rne | rtz | rdn | rup
  deriving DecidableEq, Repr

/-- The type codes 0 to 13 (R56). -/
inductive Ty where
  | t8 | t6 | bf16 | fp16 | fp32 | fp64 | s8 | u8 | s16 | u16 | s32 | u32 | s64 | u64
  deriving DecidableEq, Repr

/-- The types of `fx` (R177). -/
inductive FxTy where
  | bf16x2 | f16x2 | f32 | f64
  deriving DecidableEq, Repr

/-- The operations of `fx` (R177). -/
inductive FxOp where
  | add | sub | mul | fma | min | max | div | sqrt
  deriving DecidableEq, Repr

/-- The operations of `atom` (R190). -/
inductive AtomOp where
  | add | min | max | minu | maxu | and | or | xor | fadd | fmin | fmax | exch
  deriving DecidableEq, Repr

/-- The order field of an atomic (R189): ord 0 has no scope, the others carry one. -/
inductive Ord where
  | relaxed
  | acq (sc : Scope)
  | rel (sc : Scope)
  | ar (sc : Scope)
  deriving DecidableEq, Repr

/-- The cache level of `pref` (R204). -/
inductive PrefLvl where
  | l1 | l2 | msc
  deriving DecidableEq, Repr

/-! ## Operand records, one for each word form. `k` is the literal word, zero when no source names it (R142). -/

/-- Form A with two sources (R135). -/
structure FormA where
  q : Fin 8
  d : VOp
  a : VOp
  b : VOp
  k : Word
  deriving DecidableEq, Repr

/-- Form A with b zero (R135, R146). -/
structure FormA1 where
  q : Fin 8
  d : VOp
  a : VOp
  k : Word
  deriving DecidableEq, Repr

/-- Form A with a third source in the extension word (R137). -/
structure FormA3 where
  q : Fin 8
  d : VOp
  a : VOp
  b : VOp
  c : VOp
  k : Word
  deriving DecidableEq, Repr

/-- Form L (R136). -/
structure FormL where
  q : Fin 8
  qd : Fin 8
  na : Bool
  nb : Bool
  qa : Fin 8
  qb : Fin 8
  deriving DecidableEq, Repr

/-- Form M (R136): `order` is the order bit of R108. -/
structure FormM where
  q : Fin 8
  d : VOp
  a : VOp
  size : Size
  space : Space
  order : Bool
  k : Word
  deriving DecidableEq, Repr

/-- Layout GA with destination, two sources and no function bits (R138). -/
structure FormG where
  d : SOp
  a : SOp
  b : SOp
  k : Word
  deriving DecidableEq, Repr

/-- `qld` and `qst` operands (R195). -/
structure FormQ where
  a : SOp
  b : SOp
  space : Space
  size : Size
  k : Word
  deriving DecidableEq, Repr

/-- `tld` and `tst` operands (R201). -/
structure FormT where
  t : Fin 8
  a : SOp
  b : SOp
  space : Space
  k : Word
  deriving DecidableEq, Repr

/-- A host command as it is submitted: the window whose word 14 is written, and that word's tag and slot fields (R314). -/
structure HostCmd where
  win : Fin 16
  tag : BitVec 16
  rsv : BitVec 4
  slot : BitVec 4
  deriving DecidableEq, Repr

/-- What a peer module's request asks of this module's memory (R123, R336). -/
inductive PeerOp where
  | read
  | write (data : List Byte)
  | atom (op : AtomOp) (y : DWord)
  | cas (cmp new : DWord)
  deriving DecidableEq, Repr

/-- A request from a peer module (R336): the sender's module number, its context key, size and address. -/
structure PeerReq where
  src : Fin 16384
  key : BitVec 8
  addr : Nat
  size : Nat
  op : PeerOp
  deriving DecidableEq, Repr

/-- The four neighbours of a core (R426). -/
inductive Dir where
  | n | e | s | w
  deriving DecidableEq, Repr

/-- What an operating-point change names (R346). -/
inductive PointOf where
  | die (n : Fin 8) (p : BitVec 3)
  | stack (n : Fin 32) (p : BitVec 2)
  | capAlert
  deriving DecidableEq, Repr

/-- The rows of spec/opcode_table.json, in its order. The constructors from `loadComplete` on are device steps: they have
no word, and the agenda of the state names them. -/
inductive Instr where
  -- P-set: integer, logic and bit fields
  | iadd (o : FormA) | isub (o : FormA) | imul (o : FormA) | imulh (o : FormA) | imulhU (o : FormA)
  | imad (o : FormA3)
  | idiv (o : FormA) | idivU (o : FormA) | irem (o : FormA) | iremU (o : FormA)
  | imin (o : FormA) | iminU (o : FormA) | imax (o : FormA) | imaxU (o : FormA)
  | iabs (o : FormA1)
  | and (o : FormA) | or (o : FormA) | xor (o : FormA)
  | bmix (o : FormA3) (fn : BitVec 8)
  | shl (o : FormA) | shr (o : FormA) | shrA (o : FormA)
  | popc (o : FormA1) | clz (o : FormA1) | brev (o : FormA1)
  | bfe (o : FormA1) (sx : Bool) (len : BitVec 6) (pos : BitVec 5)
  | bfi (o : FormA) (len : BitVec 6) (pos : BitVec 5)
  -- P-set: compares, predicates and selection
  | icmp (q qd : Fin 8) (cc : Cond) (a b : VOp) (k : Word)
  | fcmp (q qd : Fin 8) (cc : FCond) (a b : VOp) (k : Word)
  | qand (o : FormL) | qor (o : FormL) | qxor (o : FormL)
  | sel (qs : Fin 8) (d a b : VOp) (k : Word)
  | movqRead (q : Fin 8) (d : VOp)
  | movqWrite (q : Fin 8) (a : VOp) (k : Word)
  -- P-set: floating point
  | fadd (o : FormA) | fsub (o : FormA) | fmul (o : FormA) | fmin (o : FormA) | fmax (o : FormA)
  | ffma (o : FormA3) (np nc : Bool) (rm : RMode)
  | fx (o : FormA3) (ty : FxTy) (op : FxOp) (na nb nc : Bool) (rm : RMode)
  | fdiv (o : FormA) (rm : RMode)
  | fsqrt (o : FormA1) | frcp (o : FormA1) | frsq (o : FormA1) | fexp2 (o : FormA1) | flog2 (o : FormA1)
  | fsin (o : FormA1) | fcos (o : FormA1)
  | cvt (o : FormA1) (st dt : Ty) (sat : Bool) (rm : RMode) (se de : BitVec 2)
  -- P-set: moves and lane exchange
  | mov (o : FormA1)
  | movs (q : Fin 8) (d : VOp) (a : SOp) (k : Word)
  | xlane (o : FormA) (g : Fin 6) (mode : XMode)
  | vote (q : Fin 8) (d : SOp) (p : Fin 8) (mode : VoteMode)
  | lfold (q : Fin 8) (d : SOp) (a : VOp) (op : FoldOp) (k : Word)
  -- P-set: memory, spawn, matrix
  | ld (o : FormM) | st (o : FormM)
  | ldx (o : FormM) (off : Word) | stx (o : FormM) (off : Word)
  | atom (o : FormM) (c : VOp) (op : AtomOp) (ord : Ord)
  | cas (o : FormM) (c e : VOp) (ord : Ord)
  | spawn (q : Fin 8) (a b : VOp) (k : Word)
  | mma (q : Fin 8) (fw : VOp) (cn : Fin 4) (ta tb : Fin 8) (k : Word)
  | unassignedOpcode (w : Word)
  -- G-set: uniform arithmetic
  | sadd (o : FormG) | ssub (o : FormG) | smul (o : FormG) | sand (o : FormG) | sor (o : FormG) | sxor (o : FormG)
  | sshl (o : FormG) | sshr (o : FormG) | sshrA (o : FormG)
  | smin (o : FormG) | sminU (o : FormG) | smax (o : FormG) | smaxU (o : FormG)
  | smov (d a : SOp) (k : Word)
  | sfadd (o : FormG) (rm : RMode) | sfmul (o : FormG) (rm : RMode)
  -- G-set: control
  | bra (off : BitVec 20)
  | bcc (cc : Cond) (off : BitVec 20) (a b : SOp) (k : Word)
  | bq (inv : Bool) (p : Fin 8) (off : BitVec 20)
  | rcv (off : BitVec 20)
  | join
  | call (off : BitVec 20)
  | ret (a : SOp)
  | loop (c : Fin 16) (off : BitVec 20)
  | exit
  | split (off : BitVec 20)
  | qld (n : Fin 4) (o : FormQ) | qst (o : FormQ)
  -- G-set: barriers, fences and waits
  | bar (d a : SOp) (op : Option FoldOp) (k : Word)
  | barc
  | pbarr (cl : Bool) (o : FormG)
  | pbwait (cl : Bool) (a b : SOp) (k : Word)
  | fence (sc : Scope)
  | waitc (l s c t : BitVec 6)
  | waitw (d a b : SOp) (cc : Cond)
  | sleept (a : SOp) (k : Word)
  | nop
  -- G-set: copies, tiles, accumulators
  | copy (d a : SOp) (dsp ssp : Space)
  | tld (o : FormT) | tst (o : FormT)
  | czero (m : BitVec 4)
  | cst (cn : Fin 4) (space : Space) (d a b : SOp) (k : Word)
  -- G-set: array launches, sample groups, weight chains
  | dlaunch (d a : SOp)
  | dsigTok (a b : SOp) (k : Word)
  | dsigAbort (a : SOp) (k : Word)
  | dstat (o : FormG)
  | sgfork (d a : SOp)
  | sgreward (d b : SOp) (k : Word)
  | sgcancel (d a b : SOp) (k : Word)
  | sgwait (d a : SOp)
  | wdrun (o : FormG)
  -- G-set: system
  | movcRead (d : SOp) (n : BitVec 11)
  | movcWrite (a : SOp) (n : BitVec 11) (k : Word)
  | trap (a : SOp) (code : BitVec 6) (k : Word)
  | eret
  | brk
  | cflush (a b : SOp) (k : Word) | cflushAll
  | cinv (a b : SOp) (k : Word) | cinvAll
  | pref (a : SOp) (lvl : PrefLvl)
  | stestHold (o : FormG) | stestChunk (o : FormG) | stestAppeal (o : FormG) | stestFree (o : FormG)
  -- device steps: completions and wake-ups
  | loadComplete (wid op : Nat)
  | storeComplete (wid op : Nat)
  | tileOpComplete (wid op : Nat)
  | matrixOpEnd (core part : Nat)
  | copyChunkDone (copy chunk : Nat)
  | waitcEnd (wid : Nat)
  | waitwWake (wid : Nat)
  | waitwRemotePoll (wid : Nat)
  | pbwaitWake (wid : Nat)
  | sgwaitWake (wid : Nat)
  | sleeptWake (wid : Nat)
  | exitDrainEnd (wid : Nat)
  | weightBlockFetched (wid : Nat)
  | stestChunkEnd (wid : Nat)
  | spawnBinTimer (core bin : Nat)
  | spawnWarpPlace (die : Nat)
  -- device steps: scheduling
  | nodeStart (node : Nat)
  | blockPlace (node : Nat)
  | nodeComplete (node : Nat)
  | timeSliceExpiry (node : Nat)
  | parkedBlockSwap (block : Nat)
  | swappedBlockReturn (block : Nat)
  | groupDeadline (group : Nat)
  | workStopComplete (node : Nat)
  | gangSwitch
  | switchOverrun
  -- device steps: host commands
  | create (c : HostCmd)
  | destroy (c : HostCmd)
  | quiesce (c : HostCmd)
  | quiesceResume (c : HostCmd)
  | submit (c : HostCmd)
  | teardownDrain (c : HostCmd)
  | teardownKill (c : HostCmd)
  | arm (c : HostCmd)
  | disarm (c : HostCmd)
  | querySlots (c : HostCmd)
  | queryNode (c : HostCmd)
  | invalidate (c : HostCmd)
  | invalidateComplete
  | config (c : HostCmd)
  | badcmd (c : HostCmd) (op : BitVec 8)
  -- device steps: host window, mailbox, boot
  | registerWrite (off : Nat) (value : Word)
  | memoryWindowRead (off len : Nat)
  | memoryWindowWrite (off : Nat) (data : List Byte)
  | unsupportedRequest (off : Nat)
  | attest
  | access
  | power
  | record
  | counters
  | links
  | mailboxBadarg
  | moduleReset
  -- device steps: peers, ports, migration
  | peerRequest (r : PeerReq)
  | peerTimeout (wid op : Nat)
  | cxlTimeout (wid op : Nat)
  | cxlLinkDown (port : Fin 8)
  | migration (slot : Fin 8) (va : Nat) (pa : Nat)
  -- device steps: Decoft arrays
  | decoftInstanceStart (inst : Nat)
  | fuFire (inst unit : Nat)
  | tokenTransit (inst route : Nat)
  | streamPortAccess (inst port : Nat)
  | streamDataReturn (inst port : Nat)
  | scatterAddBatch (inst port : Nat)
  | bankAccess (inst bank : Nat)
  | instanceComplete (inst : Nat)
  -- device steps: collectives
  | collectiveChunkReceive (key : BitVec 8) (src : Fin 16384) (addr : Nat) (data : List Byte)
  | collectiveChunkAck (node chunk : Nat) (refused : Bool)
  | chunkResend (node chunk : Nat)
  | collectiveGiveUp (node chunk : Nat)
  -- device steps: fencing
  | heartbeatSend (core : Fin 1536)
  | heartbeatReceive (core : Fin 1536) (dir : Dir) (packet : BitVec 128)
  | heartbeatMiss (core : Fin 1536) (dir : Dir)
  | votePeriod (core : Fin 1536)
  | routerReset (core : Fin 1536)
  | solitarySuspect (core : Fin 1536)
  | appealTimeout (core : Fin 1536)
  -- device steps: links and power
  | loamLinkDown (port : Fin 24)
  | loamLinkUp (port : Fin 24) (peer : Fin 16384)
  | operatingPointChange (p : PointOf)
  deriving DecidableEq, Repr

end Sys2Proof
end

