-- ==== Sys2Proof/WellFormed.lean ====
section
/-! DEFINITION. Which instruction terms have words: the literal rule of R142, the points that R146 and R147 leave
unassigned, and the fields of `bar` that R147 ties together. What an instruction with words may not name (R184, R205, R241,
R264) is decided at issue, in Sys2Proof/Machine/Legal.lean. -/

namespace Sys2Proof

/-- The per-lane source is the literal. -/
def VOp.isLit : VOp → Bool
  | .lit => true
  | _ => false

/-- The uniform source is the literal. -/
def SOp.isLit : SOp → Bool
  | .lit => true
  | _ => false

def FormA.namesLit (o : FormA) : Bool := o.a.isLit || o.b.isLit
def FormA1.namesLit (o : FormA1) : Bool := o.a.isLit
def FormA3.namesLit (o : FormA3) : Bool := o.a.isLit || o.b.isLit || o.c.isLit
def FormG.namesLit (o : FormG) : Bool := o.a.isLit || o.b.isLit
def FormQ.namesLit (o : FormQ) : Bool := o.a.isLit || o.b.isLit
def FormT.namesLit (o : FormT) : Bool := o.a.isLit || o.b.isLit

/-- A source field of the instruction holds the literal code, so a literal word follows (R133, R142). -/
def Instr.namesLit : Instr → Bool
  | .iadd o | .isub o | .imul o | .imulh o | .imulhU o | .idiv o | .idivU o | .irem o | .iremU o | .imin o | .iminU o
  | .imax o | .imaxU o | .and o | .or o | .xor o | .shl o | .shr o | .shrA o | .fadd o | .fsub o | .fmul o | .fmin o
  | .fmax o | .bfi o _ _ | .fdiv o _ | .xlane o _ _ => o.namesLit
  | .iabs o | .popc o | .clz o | .brev o | .bfe o _ _ _ | .fsqrt o | .frcp o | .frsq o | .fexp2 o | .flog2 o | .fsin o
  | .fcos o | .cvt o _ _ _ _ _ _ | .mov o => o.namesLit
  | .imad o | .bmix o _ | .ffma o _ _ _ => o.namesLit
  | .fx o _ op _ _ _ _ => o.a.isLit || (op != .sqrt && o.b.isLit) || (op == .fma && o.c.isLit)
  | .icmp _ _ _ a b _ | .fcmp _ _ _ a b _ | .sel _ _ a b _ | .spawn _ a b _ => a.isLit || b.isLit
  | .movqWrite _ a _ | .lfold _ _ a _ _ => a.isLit
  | .movs _ _ a _ => a.isLit
  | .ld o | .ldx o _ => o.a.isLit
  | .st o | .stx o _ => o.d.isLit || o.a.isLit
  | .atom o c _ _ => o.a.isLit || c.isLit
  | .cas o c e _ => o.a.isLit || c.isLit || e.isLit
  | .mma _ fw _ _ _ _ => fw.isLit
  | .sadd o | .ssub o | .smul o | .sand o | .sor o | .sxor o | .sshl o | .sshr o | .sshrA o | .smin o | .sminU o | .smax o
  | .smaxU o | .sfadd o _ | .sfmul o _ | .pbarr _ o | .dstat o | .wdrun o | .stestHold o | .stestChunk o | .stestAppeal o
  | .stestFree o => o.namesLit
  | .smov _ a _ | .sleept a _ | .dsigAbort a _ | .movcWrite a _ _ | .trap a _ _ | .bar _ a _ _ => a.isLit
  | .bcc _ _ a b _ | .pbwait _ a b _ | .dsigTok a b _ | .sgcancel _ a b _ | .cflush a b _ | .cinv a b _ => a.isLit || b.isLit
  | .sgreward _ b _ => b.isLit
  | .qld _ o | .qst o => o.namesLit
  | .tld o | .tst o => o.namesLit
  | .cst _ _ d a b _ => d.isLit || a.isLit || b.isLit
  | .ret a | .pref a _ | .copy _ a _ _ | .dlaunch _ a | .sgfork _ a | .sgwait _ a => a.isLit
  | .waitw _ a b _ => a.isLit || b.isLit
  | _ => false

/-- The literal word that the term carries. -/
def Instr.lit : Instr → Word
  | .iadd o | .isub o | .imul o | .imulh o | .imulhU o | .idiv o | .idivU o | .irem o | .iremU o | .imin o | .iminU o
  | .imax o | .imaxU o | .and o | .or o | .xor o | .shl o | .shr o | .shrA o | .fadd o | .fsub o | .fmul o | .fmin o
  | .fmax o | .bfi o _ _ | .fdiv o _ | .xlane o _ _ => o.k
  | .iabs o | .popc o | .clz o | .brev o | .bfe o _ _ _ | .fsqrt o | .frcp o | .frsq o | .fexp2 o | .flog2 o | .fsin o
  | .fcos o | .cvt o _ _ _ _ _ _ | .mov o => o.k
  | .imad o | .bmix o _ | .ffma o _ _ _ | .fx o _ _ _ _ _ _ => o.k
  | .icmp _ _ _ _ _ k | .fcmp _ _ _ _ _ k | .sel _ _ _ _ k | .spawn _ _ _ k => k
  | .movqWrite _ _ k | .lfold _ _ _ _ k | .movs _ _ _ k => k
  | .ld o | .ldx o _ | .st o | .stx o _ | .atom o _ _ _ | .cas o _ _ _ => o.k
  | .mma _ _ _ _ _ k => k
  | .sadd o | .ssub o | .smul o | .sand o | .sor o | .sxor o | .sshl o | .sshr o | .sshrA o | .smin o | .sminU o | .smax o
  | .smaxU o | .sfadd o _ | .sfmul o _ | .pbarr _ o | .dstat o | .wdrun o | .stestHold o | .stestChunk o | .stestAppeal o
  | .stestFree o => o.k
  | .smov _ _ k | .sleept _ k | .dsigAbort _ k | .movcWrite _ _ k | .trap _ _ k | .bar _ _ _ k => k
  | .bcc _ _ _ _ k | .pbwait _ _ _ k | .dsigTok _ _ k | .sgcancel _ _ _ k | .cflush _ _ k | .cinv _ _ k => k
  | .sgreward _ _ k => k
  | .qld _ o | .qst o => o.k
  | .tld o | .tst o => o.k
  | .cst _ _ _ _ _ k => k
  | _ => 0

/-- The opcode points that R146 and R147 assign, with the set bit as bit 7. -/
def assignedPoint (p : Nat) : Bool :=
  p ≤ 0x09 || (0x0B ≤ p && p ≤ 0x1B) || (0x20 ≤ p && p ≤ 0x26) || (0x30 ≤ p && p ≤ 0x44) || (0x50 ≤ p && p ≤ 0x55)
  || p == 0x60 || p == 0x61
  || (0x80 ≤ p && p ≤ 0x8C) || (0x90 ≤ p && p ≤ 0x99) || p == 0xA0 || p == 0xA1 || (0xB0 ≤ p && p ≤ 0xB8)
  || (0xC0 ≤ p && p ≤ 0xC4) || (0xC8 ≤ p && p ≤ 0xCA) || (0xD0 ≤ p && p ≤ 0xD3) || p == 0xD8 || (0xE0 ≤ p && p ≤ 0xE7)

/-- The term is a device step: it has no word (spec/95_what_each_step_holds.md). -/
def Instr.isDevice : Instr → Bool
  | .loadComplete _ _ | .storeComplete _ _ | .tileOpComplete _ _ | .matrixOpEnd _ _ | .copyChunkDone _ _ | .waitcEnd _
  | .waitwWake _ | .waitwRemotePoll _ | .pbwaitWake _ | .sgwaitWake _ | .sleeptWake _ | .exitDrainEnd _
  | .weightBlockFetched _ | .stestChunkEnd _ | .spawnBinTimer _ _ | .spawnWarpPlace _ | .nodeStart _ | .blockPlace _
  | .nodeComplete _ | .timeSliceExpiry _ | .parkedBlockSwap _ | .swappedBlockReturn _ | .groupDeadline _
  | .workStopComplete _ | .gangSwitch | .switchOverrun | .create _ | .destroy _ | .quiesce _ | .quiesceResume _ | .submit _
  | .teardownDrain _ | .teardownKill _ | .arm _ | .disarm _ | .querySlots _ | .queryNode _ | .invalidate _
  | .invalidateComplete | .config _ | .badcmd _ _ | .registerWrite _ _ | .memoryWindowRead _ _ | .memoryWindowWrite _ _
  | .unsupportedRequest _ | .attest | .access | .power | .record | .counters | .links | .mailboxBadarg | .moduleReset
  | .peerRequest _ | .peerTimeout _ _ | .cxlTimeout _ _ | .cxlLinkDown _ | .migration _ _ _ | .decoftInstanceStart _
  | .fuFire _ _ | .tokenTransit _ _ | .streamPortAccess _ _ | .streamDataReturn _ _ | .scatterAddBatch _ _
  | .bankAccess _ _ | .instanceComplete _ | .collectiveChunkReceive _ _ _ _ | .collectiveChunkAck _ _ _ | .chunkResend _ _
  | .collectiveGiveUp _ _ | .heartbeatSend _ | .heartbeatReceive _ _ _ | .heartbeatMiss _ _ | .votePeriod _
  | .routerReset _ | .solitarySuspect _ | .appealTimeout _ | .loamLinkDown _ | .loamLinkUp _ _ | .operatingPointChange _ =>
    true
  | _ => false

/-- The checks of this file, each by itself. -/
def Instr.wf (i : Instr) : Bool :=
  (i.lit == 0 || i.namesLit) &&
  match i with
  | .unassignedOpcode w => !assignedPoint (w.toNat / 0x1000000)
  | .bar d a none _ => d == .s 0 && a == .s 0
  | _ => true

/-- The instruction term has words, and they say all of it. -/
abbrev WellFormed (i : Instr) : Prop := i.wf = true

end Sys2Proof
end

