-- ==== Sys2Proof/Decode.lean ====
section
/-! DEFINITION. The decoder of instruction words and the encoder, from the encoding tables of spec/06_encoding.md (R133-R151)
and of the chapters that lay out extension words (R166-R181, R189, R195-R204, R207-R240, R246-R252). -/

namespace Sys2Proof

/-- Why a word is no instruction of the set: a field that is to be zero, or a reserved code (R5, R134). Trap 0x01 follows. -/
inductive DecodeError where
  | reservedBits
  | conditionCode
  | modeCode
  | operationCode
  | sizeCode
  | spaceCode
  | scopeCode
  | orderCode
  | typeCode
  | levelCode
  | groupCode
  | uniformCode
  | wordMissing
  deriving DecidableEq, Repr

/-! ## Codes -/

/-- Bits hi..lo of a word, as (w / 2^lo) mod 2^len. -/
def bits (w lo len : Nat) : Nat := w / 2 ^ lo % 2 ^ len

/-- R140. -/
def VOp.code : VOp → Nat
  | .v n => n.val
  | .aq n => 120 + n.val
  | .sq => 124
  | .lane => 125
  | .zero => 126
  | .lit => 127

/-- R140. -/
def VOp.ofCode (n : Nat) : VOp :=
  if h : n < 120 then .v ⟨n, h⟩
  else if n < 124 then .aq (Fin.ofNat 4 (n - 120))
  else if n = 124 then .sq
  else if n = 125 then .lane
  else if n = 126 then .zero
  else .lit

/-- R141. -/
def SOp.code : SOp → Nat
  | .s n => n.val
  | .lit => 63

/-- R141. -/
def SOp.ofCode (n : Nat) : SOp := if h : n < 63 then .s ⟨n, h⟩ else .lit

/-- R80. -/
def Space.code : Space → Nat
  | .p => 0 | .s => 1 | .c => 2 | .d => 3 | .g => 4
/-- R80. -/
def Space.ofCode : Nat → Option Space
  | 0 => some .p | 1 => some .s | 2 => some .c | 3 => some .d | 4 => some .g | _ => none

/-- R151. -/
def Size.code : Size → Nat
  | .b => 0 | .h => 1 | .w => 2 | .d => 3 | .q16 => 4 | .sb => 5 | .sh => 6
/-- R151. -/
def Size.ofCode : Nat → Option Size
  | 0 => some .b | 1 => some .h | 2 => some .w | 3 => some .d | 4 => some .q16 | 5 => some .sb | 6 => some .sh | _ => none

/-- R148. -/
def Cond.code : Cond → Nat
  | .eq => 0 | .ne => 1 | .lt => 2 | .le => 3 | .gt => 4 | .ge => 5 | .ltu => 6 | .leu => 7 | .gtu => 8 | .geu => 9
/-- R148. -/
def Cond.ofCode : Nat → Option Cond
  | 0 => some .eq | 1 => some .ne | 2 => some .lt | 3 => some .le | 4 => some .gt | 5 => some .ge | 6 => some .ltu
  | 7 => some .leu | 8 => some .gtu | 9 => some .geu | _ => none

/-- R148. -/
def FCond.code : FCond → Nat
  | .eq => 0 | .ne => 1 | .lt => 2 | .le => 3 | .gt => 4 | .ge => 5 | .ord => 6 | .uno => 7
/-- R148. -/
def FCond.ofCode : Nat → Option FCond
  | 0 => some .eq | 1 => some .ne | 2 => some .lt | 3 => some .le | 4 => some .gt | 5 => some .ge | 6 => some .ord
  | 7 => some .uno | _ => none

/-- R149. -/
def FoldOp.code : FoldOp → Nat
  | .add => 0 | .min => 1 | .max => 2 | .minu => 3 | .maxu => 4 | .and => 5 | .or => 6 | .xor => 7 | .fadd => 8
  | .fmin => 9 | .fmax => 10
/-- R149. -/
def FoldOp.ofCode : Nat → Option FoldOp
  | 0 => some .add | 1 => some .min | 2 => some .max | 3 => some .minu | 4 => some .maxu | 5 => some .and | 6 => some .or
  | 7 => some .xor | 8 => some .fadd | 9 => some .fmin | 10 => some .fmax | _ => none

/-- R149. -/
def VoteMode.code : VoteMode → Nat
  | .ballot => 0 | .all => 1 | .any => 2
/-- R149. -/
def VoteMode.ofCode : Nat → Option VoteMode
  | 0 => some .ballot | 1 => some .all | 2 => some .any | _ => none

/-- R181. -/
def XMode.code : XMode → Nat
  | .from => 0 | .rot => 1 | .rev => 2 | .xor => 3
/-- R181. -/
def XMode.ofCode : Nat → XMode
  | 0 => .from | 1 => .rot | 2 => .rev | _ => .xor

/-- R150. -/
def Scope.code : Scope → Nat
  | .warp => 0 | .core => 1 | .clu => 2 | .mod => 3 | .sys => 4
/-- R150. -/
def Scope.ofCode : Nat → Option Scope
  | 0 => some .warp | 1 => some .core | 2 => some .clu | 3 => some .mod | 4 => some .sys | _ => none

/-- R60. -/
def RMode.code : RMode → Nat
  | .rne => 0 | .rtz => 1 | .rdn => 2 | .rup => 3
/-- R60. -/
def RMode.ofCode : Nat → RMode
  | 0 => .rne | 1 => .rtz | 2 => .rdn | _ => .rup

/-- R56. -/
def Ty.code : Ty → Nat
  | .t8 => 0 | .t6 => 1 | .bf16 => 2 | .fp16 => 3 | .fp32 => 4 | .fp64 => 5 | .s8 => 6 | .u8 => 7 | .s16 => 8 | .u16 => 9
  | .s32 => 10 | .u32 => 11 | .s64 => 12 | .u64 => 13
/-- R56. -/
def Ty.ofCode : Nat → Option Ty
  | 0 => some .t8 | 1 => some .t6 | 2 => some .bf16 | 3 => some .fp16 | 4 => some .fp32 | 5 => some .fp64 | 6 => some .s8
  | 7 => some .u8 | 8 => some .s16 | 9 => some .u16 | 10 => some .s32 | 11 => some .u32 | 12 => some .s64 | 13 => some .u64
  | _ => none

/-- R177. -/
def FxTy.code : FxTy → Nat
  | .bf16x2 => 2 | .f16x2 => 3 | .f32 => 4 | .f64 => 5
/-- R177. -/
def FxTy.ofCode : Nat → Option FxTy
  | 2 => some .bf16x2 | 3 => some .f16x2 | 4 => some .f32 | 5 => some .f64 | _ => none

/-- R177. -/
def FxOp.code : FxOp → Nat
  | .add => 0 | .sub => 1 | .mul => 2 | .fma => 3 | .min => 4 | .max => 5 | .div => 6 | .sqrt => 7
/-- R177. -/
def FxOp.ofCode : Nat → Option FxOp
  | 0 => some .add | 1 => some .sub | 2 => some .mul | 3 => some .fma | 4 => some .min | 5 => some .max | 6 => some .div
  | 7 => some .sqrt | _ => none

/-- R190. -/
def AtomOp.code : AtomOp → Nat
  | .add => 0 | .min => 1 | .max => 2 | .minu => 3 | .maxu => 4 | .and => 5 | .or => 6 | .xor => 7 | .fadd => 8
  | .fmin => 9 | .fmax => 10 | .exch => 11
/-- R190. -/
def AtomOp.ofCode : Nat → Option AtomOp
  | 0 => some .add | 1 => some .min | 2 => some .max | 3 => some .minu | 4 => some .maxu | 5 => some .and | 6 => some .or
  | 7 => some .xor | 8 => some .fadd | 9 => some .fmin | 10 => some .fmax | 11 => some .exch | _ => none

/-- The order field in bits [4:3] and the scope above it, in units of bit 3 (R189). -/
def Ord.code : Ord → Nat
  | .relaxed => 0 | .acq sc => 1 + 4 * sc.code | .rel sc => 2 + 4 * sc.code | .ar sc => 3 + 4 * sc.code
/-- R189. -/
def Ord.ofCode (n : Nat) : Option Ord :=
  match n % 4, Scope.ofCode (n / 4) with
  | 0, some .warp => some .relaxed
  | 1, some sc => some (.acq sc)
  | 2, some sc => some (.rel sc)
  | 3, some sc => some (.ar sc)
  | _, _ => none

/-- R204. -/
def PrefLvl.code : PrefLvl → Nat
  | .l1 => 0 | .l2 => 1 | .msc => 2
/-- R204. -/
def PrefLvl.ofCode : Nat → Option PrefLvl
  | 0 => some .l1 | 1 => some .l2 | 2 => some .msc | _ => none

/-! ## Lengths -/

/-- The opcode at the point has an extension word (R146, R147). -/
def hasExt (p : Nat) : Bool :=
  p == 0x04 || p == 0x13 || p == 0x19 || p == 0x1A || (0x35 ≤ p && p ≤ 0x37) || p == 0x3F || p == 0x42
  || (0x52 ≤ p && p ≤ 0x55) || p == 0x91

/-- A source field of the words holds the literal code (R133). In a word with a reserved selector or operation (`movq` with b of 2 or
more, `bar` with f of 11 to 62, `fx` with an operation of 8 to 15) the fields are those of the other codes of the point
(DESIGN CHOICE, log 51: the manual does not say whether they are source fields). -/
def hasLit (w e : Nat) : Bool :=
  let p := w / 0x1000000
  let a := bits w 7 7 == 127
  let b := bits w 0 7 == 127
  let c := bits e 25 7 == 127
  let d := bits w 14 7 == 127
  let ga := bits w 12 6 == 63
  let gb := bits w 6 6 == 63
  if !assignedPoint p then false
  else if p ≤ 0x03 then a || b
  else if p = 0x04 then a || b || c
  else if p = 0x09 then a
  else if p ≤ 0x12 then a || b
  else if p = 0x13 then a || b || c
  else if p = 0x14 || p = 0x15 then a || b
  else if p ≤ 0x19 then a
  else if p ≤ 0x21 then a || b
  else if p ≤ 0x24 then false
  else if p = 0x25 then a || b
  else if p = 0x26 then bits w 0 7 != 0 && a
  else if p ≤ 0x34 then a || b
  else if p = 0x35 then a || b || c
  else if p = 0x36 then a || (bits e 8 4 != 7 && b) || (bits e 8 4 == 3 && c)
  else if p = 0x37 then a || b
  else if p ≤ 0x40 then a
  else if p = 0x41 then bits w 7 6 == 63
  else if p = 0x42 then a || b
  else if p = 0x43 then false
  else if p = 0x44 then a
  else if p = 0x50 || p = 0x52 then a
  else if p = 0x51 || p = 0x53 then d || a
  else if p = 0x54 then a || c
  else if p = 0x55 then a || c || bits e 18 7 == 127
  else if p = 0x60 then a || b
  else if p = 0x61 then d
  else if p < 0x80 then false
  else if p ≤ 0x89 then ga || gb
  else if p = 0x8A then ga
  else if p ≤ 0x8C then ga || gb
  else if p = 0x91 then bits e 6 6 == 63 || bits e 0 6 == 63
  else if p = 0x96 then ga
  else if p < 0xA0 then false
  else if p ≤ 0xA1 then ga || gb
  else if p = 0xB0 then bits w 0 6 != 63 && ga
  else if p = 0xB2 || p = 0xB3 || p = 0xB6 then ga || gb
  else if p = 0xB7 then ga
  else if p < 0xC0 then false
  else if p = 0xC0 then ga
  else if p = 0xC1 || p = 0xC2 then ga || gb
  else if p = 0xC4 then bits w 18 6 == 63 || ga || gb
  else if p = 0xC8 then ga
  else if p = 0xC9 then ga || (bits w 0 1 == 0 && gb)
  else if p = 0xCA then ga || gb
  else if p = 0xD0 then ga
  else if p = 0xD1 then gb
  else if p = 0xD2 then ga || gb
  else if p = 0xD3 then ga
  else if p = 0xD8 then ga || gb
  else if p = 0xE0 then bits w 11 1 == 1 && ga
  else if p = 0xE1 then ga
  else if p = 0xE4 || p = 0xE5 then bits w 0 1 == 0 && (ga || gb)
  else if p = 0xE6 then ga
  else if p = 0xE7 then ga || gb
  else false

/-! ## Fields of the words -/

def q3 (w lo : Nat) : Fin 8 := Fin.ofNat 8 (w / 2 ^ lo)
def vD (w : Nat) : VOp := VOp.ofCode (bits w 14 7)
def vA (w : Nat) : VOp := VOp.ofCode (bits w 7 7)
def vB (w : Nat) : VOp := VOp.ofCode (bits w 0 7)
def vC (e : Nat) : VOp := VOp.ofCode (bits e 25 7)
def sD (w : Nat) : SOp := SOp.ofCode (bits w 18 6)
def sA (w : Nat) : SOp := SOp.ofCode (bits w 12 6)
def sB (w : Nat) : SOp := SOp.ofCode (bits w 6 6)
def offs (w : Nat) : BitVec 20 := BitVec.ofNat 20 w
def fA (w k : Nat) : FormA := ⟨q3 w 21, vD w, vA w, vB w, BitVec.ofNat 32 k⟩
def fA1 (w k : Nat) : FormA1 := ⟨q3 w 21, vD w, vA w, BitVec.ofNat 32 k⟩
def fA3 (w e k : Nat) : FormA3 := ⟨q3 w 21, vD w, vA w, vB w, vC e, BitVec.ofNat 32 k⟩
def fL (w : Nat) : FormL := ⟨q3 w 21, q3 w 18, bits w 17 1 == 1, bits w 16 1 == 1, q3 w 7, q3 w 0⟩
def fG (w k : Nat) : FormG := ⟨sD w, sA w, sB w, BitVec.ofNat 32 k⟩

/-! ## The decoder -/

/-- The value, where the condition holds. -/
def okIf (c : Bool) (i : Instr) : Except DecodeError Instr := if c then .ok i else .error .reservedBits

/-- Continue with the code's meaning, or stop at a reserved code. -/
def code {α : Type} (o : Option α) (err : DecodeError) (f : α → Except DecodeError Instr) : Except DecodeError Instr :=
  match o with
  | some x => f x
  | none => .error err

/-- A form-M word (R136). -/
def withM (w k : Nat) (f : FormM → Except DecodeError Instr) : Except DecodeError Instr :=
  code (Size.ofCode (bits w 4 3)) .sizeCode fun z => code (Space.ofCode (bits w 1 3)) .spaceCode fun sp =>
    f ⟨q3 w 21, vD w, vA w, z, sp, bits w 0 1 == 1, BitVec.ofNat 32 k⟩

/-- A `tld` or `tst` word (R201). -/
def withT (w k : Nat) (f : FormT → Instr) : Except DecodeError Instr :=
  code (Space.ofCode (bits w 3 3)) .spaceCode fun sp =>
    okIf (bits w 21 3 == 0 && bits w 0 3 == 0) (f ⟨q3 w 18, sA w, sB w, sp, BitVec.ofNat 32 k⟩)

/-- A `qld` or `qst` word (R195). -/
def withQ (w k : Nat) (f : FormQ → Instr) : Except DecodeError Instr :=
  code (Size.ofCode (bits w 0 3)) .sizeCode fun z => code (Space.ofCode (bits w 3 3)) .spaceCode fun sp =>
    okIf (bits w 20 4 == 0) (f ⟨sA w, sB w, sp, z, BitVec.ofNat 32 k⟩)

/-- The sub-layout of `bfe` and `bfi` extension words is kept (R170). -/
def bfExt (e : Nat) : Bool := bits e 15 17 == 0 && bits e 5 3 == 0

/-- The instruction of a P-set word `w`, its extension word `e` and its literal word `k`, each 0 where it is absent. -/
def decodeP (w e k : Nat) : Except DecodeError Instr :=
  match w / 0x1000000 with
  | 0x00 => .ok (.iadd (fA w k))
  | 0x01 => .ok (.isub (fA w k))
  | 0x02 => .ok (.imul (fA w k))
  | 0x03 => .ok (.imulh (fA w k))
  | 0x0B => .ok (.imulhU (fA w k))
  | 0x04 => okIf (bits e 0 25 == 0) (.imad (fA3 w e k))
  | 0x05 => .ok (.idiv (fA w k))
  | 0x0C => .ok (.idivU (fA w k))
  | 0x06 => .ok (.irem (fA w k))
  | 0x0D => .ok (.iremU (fA w k))
  | 0x07 => .ok (.imin (fA w k))
  | 0x0E => .ok (.iminU (fA w k))
  | 0x08 => .ok (.imax (fA w k))
  | 0x0F => .ok (.imaxU (fA w k))
  | 0x09 => okIf (bits w 0 7 == 0) (.iabs (fA1 w k))
  | 0x10 => .ok (.and (fA w k))
  | 0x11 => .ok (.or (fA w k))
  | 0x12 => .ok (.xor (fA w k))
  | 0x13 => okIf (bits e 8 17 == 0) (.bmix (fA3 w e k) (BitVec.ofNat 8 e))
  | 0x14 => .ok (.shl (fA w k))
  | 0x15 => .ok (.shr (fA w k))
  | 0x1B => .ok (.shrA (fA w k))
  | 0x16 => okIf (bits w 0 7 == 0) (.popc (fA1 w k))
  | 0x17 => okIf (bits w 0 7 == 0) (.clz (fA1 w k))
  | 0x18 => okIf (bits w 0 7 == 0) (.brev (fA1 w k))
  | 0x19 => okIf (bits w 0 7 == 0 && bfExt e)
      (.bfe (fA1 w k) (bits e 14 1 == 1) (BitVec.ofNat 6 (e / 256)) (BitVec.ofNat 5 e))
  | 0x1A => okIf (bfExt e && bits e 14 1 == 0) (.bfi (fA w k) (BitVec.ofNat 6 (e / 256)) (BitVec.ofNat 5 e))
  | 0x20 => code (Cond.ofCode (bits w 14 4)) .conditionCode fun cc =>
      .ok (.icmp (q3 w 21) (q3 w 18) cc (vA w) (vB w) (BitVec.ofNat 32 k))
  | 0x21 => code (FCond.ofCode (bits w 14 4)) .conditionCode fun cc =>
      .ok (.fcmp (q3 w 21) (q3 w 18) cc (vA w) (vB w) (BitVec.ofNat 32 k))
  | 0x22 => okIf (bits w 10 6 == 0 && bits w 3 4 == 0) (.qand (fL w))
  | 0x23 => okIf (bits w 10 6 == 0 && bits w 3 4 == 0) (.qor (fL w))
  | 0x24 => okIf (bits w 10 6 == 0 && bits w 3 4 == 0) (.qxor (fL w))
  | 0x25 => .ok (.sel (q3 w 21) (vD w) (vA w) (vB w) (BitVec.ofNat 32 k))
  | 0x26 => match bits w 0 7 with
      | 0 => okIf (bits w 7 7 == 0) (.movqRead (q3 w 21) (vD w))
      | 1 => okIf (bits w 14 7 == 0) (.movqWrite (q3 w 21) (vA w) (BitVec.ofNat 32 k))
      | _ => .error .modeCode
  | 0x30 => .ok (.fadd (fA w k))
  | 0x31 => .ok (.fsub (fA w k))
  | 0x32 => .ok (.fmul (fA w k))
  | 0x33 => .ok (.fmin (fA w k))
  | 0x34 => .ok (.fmax (fA w k))
  | 0x35 => okIf (bits e 4 21 == 0) (.ffma (fA3 w e k) (bits e 3 1 == 1) (bits e 2 1 == 1) (RMode.ofCode (bits e 0 2)))
  | 0x36 => code (FxTy.ofCode (bits e 12 4)) .typeCode fun ty => code (FxOp.ofCode (bits e 8 4)) .operationCode fun op =>
      okIf (bits e 16 9 == 0 && bits e 2 3 == 0)
        (.fx (fA3 w e k) ty op (bits e 7 1 == 1) (bits e 6 1 == 1) (bits e 5 1 == 1) (RMode.ofCode (bits e 0 2)))
  | 0x37 => okIf (bits e 2 30 == 0) (.fdiv (fA w k) (RMode.ofCode (bits e 0 2)))
  | 0x38 => okIf (bits w 0 7 == 0) (.fsqrt (fA1 w k))
  | 0x39 => okIf (bits w 0 7 == 0) (.frcp (fA1 w k))
  | 0x3A => okIf (bits w 0 7 == 0) (.frsq (fA1 w k))
  | 0x3B => okIf (bits w 0 7 == 0) (.fexp2 (fA1 w k))
  | 0x3C => okIf (bits w 0 7 == 0) (.flog2 (fA1 w k))
  | 0x3D => okIf (bits w 0 7 == 0) (.fsin (fA1 w k))
  | 0x3E => okIf (bits w 0 7 == 0) (.fcos (fA1 w k))
  | 0x3F => code (Ty.ofCode (bits e 28 4)) .typeCode fun st => code (Ty.ofCode (bits e 24 4)) .typeCode fun dt =>
      okIf (bits w 0 7 == 0 && bits e 16 5 == 0 && bits e 0 12 == 0)
        (.cvt (fA1 w k) st dt (bits e 23 1 == 1) (RMode.ofCode (bits e 21 2)) (BitVec.ofNat 2 (e / 16384))
          (BitVec.ofNat 2 (e / 4096)))
  | 0x40 => okIf (bits w 0 7 == 0) (.mov (fA1 w k))
  | 0x41 => okIf (bits w 13 1 == 0 && bits w 0 7 == 0)
      (.movs (q3 w 21) (vD w) (SOp.ofCode (bits w 7 6)) (BitVec.ofNat 32 k))
  | 0x42 => if bits e 5 27 != 0 then .error .reservedBits
      else if h : bits e 2 3 < 6 then .ok (.xlane (fA w k) ⟨bits e 2 3, h⟩ (XMode.ofCode (bits e 0 2)))
      else .error .groupCode
  | 0x43 => code (VoteMode.ofCode (bits w 0 7)) .modeCode fun m =>
      if bits w 20 1 != 0 then .error .uniformCode
      else okIf (bits w 10 4 == 0) (.vote (q3 w 21) (SOp.ofCode (bits w 14 6)) (q3 w 7) m)
  | 0x44 => code (FoldOp.ofCode (bits w 0 7)) .operationCode fun op =>
      if bits w 20 1 != 0 then .error .uniformCode
      else .ok (.lfold (q3 w 21) (SOp.ofCode (bits w 14 6)) (vA w) op (BitVec.ofNat 32 k))
  | 0x50 => withM w k fun o => .ok (.ld o)
  | 0x51 => withM w k fun o => .ok (.st o)
  | 0x52 => withM w k fun o => .ok (.ldx o (BitVec.ofNat 32 e))
  | 0x53 => withM w k fun o => .ok (.stx o (BitVec.ofNat 32 e))
  | 0x54 => withM w k fun o => code (AtomOp.ofCode (bits e 8 4)) .operationCode fun op =>
      code (Ord.ofCode (bits e 3 5)) .orderCode fun od =>
        okIf (bits e 12 13 == 0 && bits e 0 3 == 0) (.atom o (vC e) op od)
  | 0x55 => withM w k fun o => code (Ord.ofCode (bits e 3 5)) .orderCode fun od =>
      okIf (bits e 8 10 == 0 && bits e 0 3 == 0) (.cas o (vC e) (VOp.ofCode (bits e 18 7)) od)
  | 0x60 => okIf (bits w 14 7 == 0) (.spawn (q3 w 21) (vA w) (vB w) (BitVec.ofNat 32 k))
  | 0x61 => okIf (bits w 10 2 == 0 && bits w 3 4 == 0)
      (.mma (q3 w 21) (vD w) (Fin.ofNat 4 (w / 4096)) (q3 w 7) (q3 w 0) (BitVec.ofNat 32 k))
  | _ => .ok (.unassignedOpcode (BitVec.ofNat 32 w))

/-- The same for a G-set word. -/
def decodeG (w e k : Nat) : Except DecodeError Instr :=
  let f := bits w 0 6
  let kw := BitVec.ofNat 32 k
  match w / 0x1000000 with
  | 0x80 => okIf (f == 0) (.sadd (fG w k))
  | 0x81 => okIf (f == 0) (.ssub (fG w k))
  | 0x82 => okIf (f == 0) (.smul (fG w k))
  | 0x83 => okIf (f == 0) (.sand (fG w k))
  | 0x84 => okIf (f == 0) (.sor (fG w k))
  | 0x85 => okIf (f == 0) (.sxor (fG w k))
  | 0x86 => okIf (f == 0) (.sshl (fG w k))
  | 0x87 => match f with
      | 0 => .ok (.sshr (fG w k))
      | 1 => .ok (.sshrA (fG w k))
      | _ => .error .reservedBits
  | 0x88 => match f with
      | 0 => .ok (.smin (fG w k))
      | 1 => .ok (.sminU (fG w k))
      | _ => .error .reservedBits
  | 0x89 => match f with
      | 0 => .ok (.smax (fG w k))
      | 1 => .ok (.smaxU (fG w k))
      | _ => .error .reservedBits
  | 0x8A => okIf (bits w 0 12 == 0) (.smov (sD w) (sA w) kw)
  | 0x8B => okIf (bits w 2 4 == 0) (.sfadd (fG w k) (RMode.ofCode (bits w 0 2)))
  | 0x8C => okIf (bits w 2 4 == 0) (.sfmul (fG w k) (RMode.ofCode (bits w 0 2)))
  | 0x90 => okIf (bits w 20 4 == 0) (.bra (offs w))
  | 0x91 => code (Cond.ofCode (bits w 20 4)) .conditionCode fun cc =>
      okIf (bits e 12 20 == 0) (.bcc cc (offs w) (SOp.ofCode (bits e 6 6)) (SOp.ofCode (bits e 0 6)) kw)
  | 0x92 => .ok (.bq (bits w 23 1 == 1) (q3 w 20) (offs w))
  | 0x93 => okIf (bits w 20 4 == 0) (.rcv (offs w))
  | 0x94 => okIf (bits w 0 24 == 0) .join
  | 0x95 => okIf (bits w 20 4 == 0) (.call (offs w))
  | 0x96 => okIf (bits w 18 6 == 0 && bits w 0 12 == 0) (.ret (sA w))
  | 0x97 => .ok (.loop (Fin.ofNat 16 (w / 0x100000)) (offs w))
  | 0x98 => okIf (bits w 0 24 == 0) .exit
  | 0x99 => okIf (bits w 20 4 == 0) (.split (offs w))
  | 0xA0 => withQ w k fun o => .qld (Fin.ofNat 4 (w / 0x40000)) o
  | 0xA1 => if bits w 18 2 != 0 then .error .reservedBits else withQ w k fun o => .qst o
  | 0xB0 => if bits w 6 6 != 0 then .error .reservedBits
      else if f == 63 then okIf (bits w 12 12 == 0) (.bar (.s 0) (.s 0) none 0)
      else code (FoldOp.ofCode f) .operationCode fun op => .ok (.bar (sD w) (sA w) (some op) kw)
  | 0xB1 => okIf (bits w 0 24 == 0) .barc
  | 0xB2 => okIf (bits w 1 5 == 0) (.pbarr (bits w 0 1 == 1) (fG w k))
  | 0xB3 => okIf (bits w 1 5 == 0 && bits w 18 6 == 0) (.pbwait (bits w 0 1 == 1) (sA w) (sB w) kw)
  | 0xB4 => code (Scope.ofCode f) .scopeCode fun sc => okIf (bits w 6 18 == 0) (.fence sc)
  | 0xB5 => .ok (.waitc (BitVec.ofNat 6 (w / 0x40000)) (BitVec.ofNat 6 (w / 0x1000)) (BitVec.ofNat 6 (w / 0x40))
      (BitVec.ofNat 6 w))
  | 0xB6 => code (Cond.ofCode f) .conditionCode fun cc => .ok (.waitw (sD w) (sA w) (sB w) cc)
  | 0xB7 => okIf (bits w 18 6 == 0 && bits w 0 12 == 0) (.sleept (sA w) kw)
  | 0xB8 => okIf (bits w 0 24 == 0) .nop
  | 0xC0 => code (Space.ofCode (bits w 3 3)) .spaceCode fun dsp => code (Space.ofCode (bits w 0 3)) .spaceCode fun ssp =>
      okIf (bits w 6 6 == 0) (.copy (sD w) (sA w) dsp ssp)
  | 0xC1 => withT w k fun o => .tld o
  | 0xC2 => withT w k fun o => .tst o
  | 0xC3 => okIf (bits w 4 20 == 0) (.czero (BitVec.ofNat 4 w))
  | 0xC4 => code (Space.ofCode (bits w 3 3)) .spaceCode fun sp =>
      okIf (bits w 2 1 == 0) (.cst (Fin.ofNat 4 w) sp (sD w) (sA w) (sB w) kw)
  | 0xC8 => okIf (bits w 0 12 == 0) (.dlaunch (sD w) (sA w))
  | 0xC9 => if bits w 18 6 != 0 || bits w 1 5 != 0 then .error .reservedBits
      else if bits w 0 1 == 0 then .ok (.dsigTok (sA w) (sB w) kw)
      else okIf (bits w 6 6 == 0) (.dsigAbort (sA w) kw)
  | 0xCA => okIf (f == 0) (.dstat (fG w k))
  | 0xD0 => okIf (bits w 0 12 == 0) (.sgfork (sD w) (sA w))
  | 0xD1 => okIf (bits w 12 6 == 0 && f == 0) (.sgreward (sD w) (sB w) kw)
  | 0xD2 => okIf (f == 0) (.sgcancel (sD w) (sA w) (sB w) kw)
  | 0xD3 => okIf (bits w 0 12 == 0) (.sgwait (sD w) (sA w))
  | 0xD8 => okIf (f == 0) (.wdrun (fG w k))
  | 0xE0 => if bits w 11 1 == 0 then okIf (bits w 12 6 == 0) (.movcRead (sD w) (BitVec.ofNat 11 w))
      else okIf (bits w 18 6 == 0) (.movcWrite (sA w) (BitVec.ofNat 11 w) kw)
  | 0xE1 => okIf (bits w 18 6 == 0 && bits w 6 6 == 0) (.trap (sA w) (BitVec.ofNat 6 w) kw)
  | 0xE2 => okIf (bits w 0 24 == 0) .eret
  | 0xE3 => okIf (bits w 0 24 == 0) .brk
  | 0xE4 => if bits w 18 6 != 0 || bits w 1 5 != 0 then .error .reservedBits
      else if bits w 0 1 == 0 then .ok (.cflush (sA w) (sB w) kw) else okIf (bits w 6 12 == 0) .cflushAll
  | 0xE5 => if bits w 18 6 != 0 || bits w 1 5 != 0 then .error .reservedBits
      else if bits w 0 1 == 0 then .ok (.cinv (sA w) (sB w) kw) else okIf (bits w 6 12 == 0) .cinvAll
  | 0xE6 => code (PrefLvl.ofCode (bits w 0 2)) .levelCode fun lv =>
      okIf (bits w 18 6 == 0 && bits w 2 10 == 0) (.pref (sA w) lv)
  | 0xE7 => match f with
      | 0 => .ok (.stestHold (fG w k))
      | 1 => .ok (.stestChunk (fG w k))
      | 2 => .ok (.stestAppeal (fG w k))
      | 3 => .ok (.stestFree (fG w k))
      | _ => .error .reservedBits
  | _ => .ok (.unassignedOpcode (BitVec.ofNat 32 w))

/-- The instruction of a first word, its extension word and its literal word, each 0 where the instruction has none (R134). -/
def decodeWords (w e k : Nat) : Except DecodeError Instr := if w < 0x80000000 then decodeP w e k else decodeG w e k

/-! ## The registers that words name (R369, R378) -/

/-- The fields of the first word and of the extension word at a point, reserved bits left out. -/
def fieldMask (p w : Nat) : Nat × Nat :=
  let all := 0xFFFFFFFF
  if p = 0x04 then (all, 0xFE000000)
  else if p = 0x13 then (all, 0xFE0000FF)
  else if p = 0x19 then (0xFFFFFF80, 0x7F1F)
  else if p = 0x1A then (all, 0x3F1F)
  else if p = 0x09 || (0x16 ≤ p && p ≤ 0x18) || (0x38 ≤ p && p ≤ 0x3E) || p = 0x40 then (0xFFFFFF80, all)
  else if 0x22 ≤ p && p ≤ 0x24 then (0xFFFF0387, all)
  else if p = 0x26 then (if bits w 0 7 = 0 then 0xFFFFC07F else 0xFFE03FFF, all)
  else if p = 0x35 then (all, 0xFE00000F)
  else if p = 0x36 then (all, 0xFE00FFE3)
  else if p = 0x37 then (all, 3)
  else if p = 0x3F then (0xFFFFFF80, 0xFFE0F000)
  else if p = 0x41 then (0xFFFFDF80, all)
  else if p = 0x42 then (all, 0x1F)
  else if p = 0x43 then (0xFFEFC3FF, all)
  else if p = 0x44 then (0xFFEFFFFF, all)
  else if p = 0x54 then (all, 0xFE000FF8)
  else if p = 0x55 then (all, 0xFFFC00F8)
  else if p = 0x60 then (0xFFE03FFF, all)
  else if p = 0x61 then (0xFFFFF387, all)
  else if p = 0xB0 then (if bits w 0 6 = 63 then 0xFF00003F else 0xFFFFF03F, all)
  else if p = 0xB1 then (0xFF000000, all)
  else if p = 0xB2 then (0xFFFFFFC1, all)
  else if p = 0xB4 then (0xFF00003F, all)
  else if p = 0xB7 then (0xFF03F000, all)
  else if p = 0xC0 then (0xFFFFF03F, all)
  else if p = 0xC1 || p = 0xC2 then (0xFF1FFFF8, all)
  else if p = 0xC8 || p = 0xD0 then (0xFFFFF000, all)
  else if p = 0xD1 then (0xFFFC0FC0, all)
  else (all, all)

/-- A field of a word with another code in it unless its own is one that `ok` takes. -/
def fixBits (lo len v : Nat) (ok : Nat → Bool) (w : Nat) : Nat :=
  if ok (bits w lo len) then w else w - bits w lo len * 2 ^ lo + v * 2 ^ lo

/-- A first word with its reserved codes replaced, which leaves its register fields as they are. -/
def fixFirst (p w : Nat) : Nat :=
  let size := fixBits 4 3 2 fun x => (Size.ofCode x).isSome
  let space (lo : Nat) := fixBits lo 3 1 fun x => (Space.ofCode x).isSome
  if p = 0x20 then fixBits 14 4 0 (fun x => (Cond.ofCode x).isSome) w
  else if p = 0x21 then fixBits 14 4 0 (fun x => (FCond.ofCode x).isSome) w
  else if p = 0x26 then fixBits 0 7 1 (· < 2) w
  else if p = 0x44 then fixBits 0 7 0 (fun x => (FoldOp.ofCode x).isSome) w
  else if 0x50 ≤ p && p ≤ 0x55 then size (space 1 w)
  else if p = 0xB0 then fixBits 0 6 0 (fun x => x = 63 || (FoldOp.ofCode x).isSome) w
  else if p = 0xC0 then space 3 (space 0 w)
  else if p = 0xC1 || p = 0xC2 then space 3 w
  else w

/-- The same for an extension word. -/
def fixExt (p e : Nat) : Nat :=
  let ty (lo : Nat) := fixBits lo 4 4 fun x => (Ty.ofCode x).isSome
  let ord := fixBits 3 5 0 fun x => (Ord.ofCode x).isSome
  if p = 0x36 then fixBits 12 4 4 (fun x => (FxTy.ofCode x).isSome) (fixBits 8 4 0 (fun x => (FxOp.ofCode x).isSome) e)
  else if p = 0x3F then ty 28 (ty 24 e)
  else if p = 0x42 then fixBits 2 3 0 (· < 6) e
  else if p = 0x54 then ord (fixBits 8 4 0 (fun x => (AtomOp.ofCode x).isSome) e)
  else if p = 0x55 then ord e
  else e

/-- An instruction that names the registers, tiles and counters that the words name: the one they encode, or, where a reserved field or
code makes them none, the one with those fields and no reserved bit (R369, R378; log 26). -/
def namedInstr (w e : Nat) : Option Instr :=
  match decodeWords w e 0 with
  | .ok i => some i
  | .error _ =>
    let p := w / 0x1000000
    let m := fieldMask p w
    (decodeWords (fixFirst p (w &&& m.1)) (fixExt p (e &&& m.2)) 0).toOption

/-- The instruction that a list of words begins with, and how many words it has (R133). Total on any words. -/
def decode (ws : List Word) : Except DecodeError (Instr × Nat) :=
  match ws with
  | [] => .error .wordMissing
  | w :: r =>
    let ext := hasExt (w.toNat / 0x1000000)
    match (if ext then r.head? else some 0) with
    | none => .error .wordMissing
    | some e =>
      let r2 := if ext then r.drop 1 else r
      if hasLit w.toNat e.toNat then
        match r2 with
        | [] => .error .wordMissing
        | k :: _ => (decodeWords w.toNat e.toNat k.toNat).map fun i => (i, if ext then 3 else 2)
      else (decodeWords w.toNat e.toNat 0).map fun i => (i, if ext then 2 else 1)

/-- Little-endian words of a list of bytes, a last partial word left off (R7). -/
def wordsOfBytes : List Byte → List Word
  | a :: b :: c :: d :: r => (d ++ c ++ b ++ a : BitVec 32) :: wordsOfBytes r
  | _ => []

/-- The instruction that a list of bytes begins with, and how many bytes it has. -/
def decodeBytes (bs : List Byte) : Except DecodeError (Instr × Nat) :=
  (decode (wordsOfBytes bs)).map fun r => (r.1, 4 * r.2)

/-- Bytes of a word, least significant first (R7). -/
def bytesOfWord (w : Word) : List Byte := [w.extractLsb' 0 8, w.extractLsb' 8 8, w.extractLsb' 16 8, w.extractLsb' 24 8]

/-- The three words that an instruction whose bits are `w` may have, the bits at and above `nbits` zero. -/
def tableWords (nbits w : Nat) : List Word :=
  let v := w % 2 ^ nbits
  [BitVec.ofNat 32 v, BitVec.ofNat 32 (v / 2 ^ 32), BitVec.ofNat 32 (v / 2 ^ 64)]

/-- The instruction that the decoder reads from the bits `w`, as spec/opcode_table.json numbers them. -/
def decodeTableWord (nbits w : Nat) : Option Instr :=
  match decodeBytes ((tableWords nbits w).flatMap bytesOfWord) with
  | .ok r => some r.1
  | .error _ => none

/-! ## The encoder -/

def encA (op q d a b : Nat) : Nat := op * 0x1000000 + q * 0x200000 + d * 0x4000 + a * 0x80 + b
def encG (op d a b f : Nat) : Nat := op * 0x1000000 + d * 0x40000 + a * 0x1000 + b * 0x40 + f
def encB (op cond : Nat) (off : BitVec 20) : Nat := op * 0x1000000 + cond * 0x100000 + off.toNat

def FormA.enc (o : FormA) (op : Nat) : Nat := encA op o.q.val o.d.code o.a.code o.b.code
def FormA1.enc (o : FormA1) (op : Nat) : Nat := encA op o.q.val o.d.code o.a.code 0
def FormA3.enc (o : FormA3) (op : Nat) : Nat := encA op o.q.val o.d.code o.a.code o.b.code
def FormL.enc (o : FormL) (op : Nat) : Nat :=
  op * 0x1000000 + o.q.val * 0x200000 + o.qd.val * 0x40000 + o.na.toNat * 0x20000 + o.nb.toNat * 0x10000 + o.qa.val * 0x80
    + o.qb.val
def FormM.enc (o : FormM) (op : Nat) : Nat :=
  encA op o.q.val o.d.code o.a.code (o.size.code * 16 + o.space.code * 2 + o.order.toNat)
def FormG.enc (o : FormG) (op f : Nat) : Nat := encG op o.d.code o.a.code o.b.code f
def FormQ.enc (o : FormQ) (op n : Nat) : Nat := encG op n o.a.code o.b.code (o.space.code * 8 + o.size.code)
def FormT.enc (o : FormT) (op : Nat) : Nat := encG op o.t.val o.a.code o.b.code (o.space.code * 8)

/-- First word and, for an opcode that has one, extension word; none for a device step. -/
def encodeHead : Instr → Option (Nat × Option Nat)
  | .iadd o => some (o.enc 0x00, none)
  | .isub o => some (o.enc 0x01, none)
  | .imul o => some (o.enc 0x02, none)
  | .imulh o => some (o.enc 0x03, none)
  | .imulhU o => some (o.enc 0x0B, none)
  | .imad o => some (o.enc 0x04, some (o.c.code * 0x2000000))
  | .idiv o => some (o.enc 0x05, none)
  | .idivU o => some (o.enc 0x0C, none)
  | .irem o => some (o.enc 0x06, none)
  | .iremU o => some (o.enc 0x0D, none)
  | .imin o => some (o.enc 0x07, none)
  | .iminU o => some (o.enc 0x0E, none)
  | .imax o => some (o.enc 0x08, none)
  | .imaxU o => some (o.enc 0x0F, none)
  | .iabs o => some (o.enc 0x09, none)
  | .and o => some (o.enc 0x10, none)
  | .or o => some (o.enc 0x11, none)
  | .xor o => some (o.enc 0x12, none)
  | .bmix o fn => some (o.enc 0x13, some (o.c.code * 0x2000000 + fn.toNat))
  | .shl o => some (o.enc 0x14, none)
  | .shr o => some (o.enc 0x15, none)
  | .shrA o => some (o.enc 0x1B, none)
  | .popc o => some (o.enc 0x16, none)
  | .clz o => some (o.enc 0x17, none)
  | .brev o => some (o.enc 0x18, none)
  | .bfe o sx len pos => some (o.enc 0x19, some (sx.toNat * 0x4000 + len.toNat * 0x100 + pos.toNat))
  | .bfi o len pos => some (o.enc 0x1A, some (len.toNat * 0x100 + pos.toNat))
  | .icmp q qd cc a b _ => some (encA 0x20 q.val (qd.val * 16 + cc.code) a.code b.code, none)
  | .fcmp q qd cc a b _ => some (encA 0x21 q.val (qd.val * 16 + cc.code) a.code b.code, none)
  | .qand o => some (o.enc 0x22, none)
  | .qor o => some (o.enc 0x23, none)
  | .qxor o => some (o.enc 0x24, none)
  | .sel qs d a b _ => some (encA 0x25 qs.val d.code a.code b.code, none)
  | .movqRead q d => some (encA 0x26 q.val d.code 0 0, none)
  | .movqWrite q a _ => some (encA 0x26 q.val 0 a.code 1, none)
  | .fadd o => some (o.enc 0x30, none)
  | .fsub o => some (o.enc 0x31, none)
  | .fmul o => some (o.enc 0x32, none)
  | .fmin o => some (o.enc 0x33, none)
  | .fmax o => some (o.enc 0x34, none)
  | .ffma o np nc rm => some (o.enc 0x35, some (o.c.code * 0x2000000 + np.toNat * 8 + nc.toNat * 4 + rm.code))
  | .fx o ty op na nb nc rm => some (o.enc 0x36, some (o.c.code * 0x2000000 + ty.code * 0x1000 + op.code * 0x100
      + na.toNat * 128 + nb.toNat * 64 + nc.toNat * 32 + rm.code))
  | .fdiv o rm => some (o.enc 0x37, some rm.code)
  | .fsqrt o => some (o.enc 0x38, none)
  | .frcp o => some (o.enc 0x39, none)
  | .frsq o => some (o.enc 0x3A, none)
  | .fexp2 o => some (o.enc 0x3B, none)
  | .flog2 o => some (o.enc 0x3C, none)
  | .fsin o => some (o.enc 0x3D, none)
  | .fcos o => some (o.enc 0x3E, none)
  | .cvt o st dt sat rm se de => some (o.enc 0x3F, some (st.code * 0x10000000 + dt.code * 0x1000000 + sat.toNat * 0x800000
      + rm.code * 0x200000 + se.toNat * 0x4000 + de.toNat * 0x1000))
  | .mov o => some (o.enc 0x40, none)
  | .movs q d a _ => some (encA 0x41 q.val d.code a.code 0, none)
  | .xlane o g m => some (o.enc 0x42, some (g.val * 4 + m.code))
  | .vote q d p m => some (encA 0x43 q.val d.code p.val m.code, none)
  | .lfold q d a op _ => some (encA 0x44 q.val d.code a.code op.code, none)
  | .ld o => some (o.enc 0x50, none)
  | .st o => some (o.enc 0x51, none)
  | .ldx o off => some (o.enc 0x52, some off.toNat)
  | .stx o off => some (o.enc 0x53, some off.toNat)
  | .atom o c op od => some (o.enc 0x54, some (c.code * 0x2000000 + op.code * 0x100 + od.code * 8))
  | .cas o c e od => some (o.enc 0x55, some (c.code * 0x2000000 + e.code * 0x40000 + od.code * 8))
  | .spawn q a b _ => some (encA 0x60 q.val 0 a.code b.code, none)
  | .mma q fw cn ta tb _ => some (encA 0x61 q.val fw.code (cn.val * 32 + ta.val) tb.val, none)
  | .unassignedOpcode w => some (w.toNat, none)
  | .sadd o => some (o.enc 0x80 0, none)
  | .ssub o => some (o.enc 0x81 0, none)
  | .smul o => some (o.enc 0x82 0, none)
  | .sand o => some (o.enc 0x83 0, none)
  | .sor o => some (o.enc 0x84 0, none)
  | .sxor o => some (o.enc 0x85 0, none)
  | .sshl o => some (o.enc 0x86 0, none)
  | .sshr o => some (o.enc 0x87 0, none)
  | .sshrA o => some (o.enc 0x87 1, none)
  | .smin o => some (o.enc 0x88 0, none)
  | .sminU o => some (o.enc 0x88 1, none)
  | .smax o => some (o.enc 0x89 0, none)
  | .smaxU o => some (o.enc 0x89 1, none)
  | .smov d a _ => some (encG 0x8A d.code a.code 0 0, none)
  | .sfadd o rm => some (o.enc 0x8B rm.code, none)
  | .sfmul o rm => some (o.enc 0x8C rm.code, none)
  | .bra off => some (encB 0x90 0 off, none)
  | .bcc cc off a b _ => some (encB 0x91 cc.code off, some (a.code * 64 + b.code))
  | .bq inv p off => some (encB 0x92 (inv.toNat * 8 + p.val) off, none)
  | .rcv off => some (encB 0x93 0 off, none)
  | .join => some (0x94000000, none)
  | .call off => some (encB 0x95 0 off, none)
  | .ret a => some (encG 0x96 0 a.code 0 0, none)
  | .loop c off => some (encB 0x97 c.val off, none)
  | .exit => some (0x98000000, none)
  | .split off => some (encB 0x99 0 off, none)
  | .qld n o => some (o.enc 0xA0 n.val, none)
  | .qst o => some (o.enc 0xA1 0, none)
  | .bar d a op _ => some (encG 0xB0 d.code a.code 0 (op.elim 63 FoldOp.code), none)
  | .barc => some (0xB1000000, none)
  | .pbarr cl o => some (o.enc 0xB2 cl.toNat, none)
  | .pbwait cl a b _ => some (encG 0xB3 0 a.code b.code cl.toNat, none)
  | .fence sc => some (encG 0xB4 0 0 0 sc.code, none)
  | .waitc l s c t => some (encG 0xB5 l.toNat s.toNat c.toNat t.toNat, none)
  | .waitw d a b cc => some (encG 0xB6 d.code a.code b.code cc.code, none)
  | .sleept a _ => some (encG 0xB7 0 a.code 0 0, none)
  | .nop => some (0xB8000000, none)
  | .copy d a dsp ssp => some (encG 0xC0 d.code a.code 0 (dsp.code * 8 + ssp.code), none)
  | .tld o => some (o.enc 0xC1, none)
  | .tst o => some (o.enc 0xC2, none)
  | .czero m => some (encG 0xC3 0 0 0 m.toNat, none)
  | .cst cn sp d a b _ => some (encG 0xC4 d.code a.code b.code (sp.code * 8 + cn.val), none)
  | .dlaunch d a => some (encG 0xC8 d.code a.code 0 0, none)
  | .dsigTok a b _ => some (encG 0xC9 0 a.code b.code 0, none)
  | .dsigAbort a _ => some (encG 0xC9 0 a.code 0 1, none)
  | .dstat o => some (o.enc 0xCA 0, none)
  | .sgfork d a => some (encG 0xD0 d.code a.code 0 0, none)
  | .sgreward d b _ => some (encG 0xD1 d.code 0 b.code 0, none)
  | .sgcancel d a b _ => some (encG 0xD2 d.code a.code b.code 0, none)
  | .sgwait d a => some (encG 0xD3 d.code a.code 0 0, none)
  | .wdrun o => some (o.enc 0xD8 0, none)
  | .movcRead d n => some (0xE0000000 + d.code * 0x40000 + n.toNat, none)
  | .movcWrite a n _ => some (0xE0000800 + a.code * 0x1000 + n.toNat, none)
  | .trap a c _ => some (encG 0xE1 0 a.code 0 c.toNat, none)
  | .eret => some (0xE2000000, none)
  | .brk => some (0xE3000000, none)
  | .cflush a b _ => some (encG 0xE4 0 a.code b.code 0, none)
  | .cflushAll => some (0xE4000001, none)
  | .cinv a b _ => some (encG 0xE5 0 a.code b.code 0, none)
  | .cinvAll => some (0xE5000001, none)
  | .pref a lv => some (encG 0xE6 0 a.code 0 lv.code, none)
  | .stestHold o => some (o.enc 0xE7 0, none)
  | .stestChunk o => some (o.enc 0xE7 1, none)
  | .stestAppeal o => some (o.enc 0xE7 2, none)
  | .stestFree o => some (o.enc 0xE7 3, none)
  | _ => none

/-- The words of an instruction, first word first; none for a device step (R133). -/
def encode (i : Instr) : List Word :=
  match encodeHead i with
  | none => []
  | some (w, e) =>
    BitVec.ofNat 32 w :: (e.map (BitVec.ofNat 32)).toList ++ (if i.namesLit then [i.lit] else [])

/-- The first word of an instruction, 0 for a device step. -/
def firstWord (i : Instr) : Word := (encode i).headD 0

/-- The bytes that an instruction occupies (R133). -/
def Instr.length (i : Instr) : Nat := 4 * (encode i).length

end Sys2Proof
end

