-- ==== Sys2Proof/Config.lean ====
section
/-! DEFINITION. What an implementation or a signed record fixes, and the free values of the manual: opaque constants with
no body, so no statement can rest on a value of one (spec/00_scope.md R4). -/

namespace Sys2Proof

/-- A combined delta that another module has for one element of a row that this module is home to: the module, the row's physical
address and width class, the element's number, and the delta in FP32 (R77, R276). -/
structure Delta where
  source : Fin 16384
  row : Nat
  wc : Nat
  el : Nat
  value : Word
  deriving DecidableEq, Repr, Inhabited

/-- What the next step of the module is: a warp's next instruction, the next instruction of a warp's access slice, one access of an
outstanding operation, one unit of a copy's running chunk, or one unit of a collective's chunk in flight ahead of the others (R105,
R115), a host read of a BAR0 register (R333), the arrival of another module's delta, the barrier of a training step (R77), one device
step, or the passing of some nanoseconds of gtime (log 2). -/
inductive Turn where
  | issue (wid : Nat)
  | slice (wid : Nat)
  | access (wid op : Nat)
  | unit (copy place : Nat)
  | part (node place : Nat)
  | register (off : Nat)
  | delta (d : Delta)
  | barrier
  | device (i : Instr)
  | tick (ns : Nat)
  deriving DecidableEq, Repr, Inhabited

namespace Config

/-! ## Free values, each applied to the counter `State.choices` (log 2, 6, 7, 8, 18) -/

/-- The next turn when the agenda is empty (log 2). -/
opaque turn : Nat → Turn

/-- A choice between two permitted outcomes (R4). -/
opaque bit : Nat → Bool

/-- A choice for element `i` of one operation (R106, R394). -/
opaque bitAt : Nat → Nat → Bool

/-- A sort key that orders the lanes of one instruction where the manual leaves their order open (R106). -/
opaque laneKey : Nat → Nat → Nat

/-- A word the manual gives no value for. -/
opaque word : Nat → Word

/-- A byte at place `i` of an output whose contents the manual does not give. -/
opaque byteAt : Nat → Nat → Byte

/-- How many tokens beyond the first a channel holds before it is full: of an instance on a stack, from a slab on, with the image at an
address, the channel of a number (R268, R306; log 16). -/
opaque chanRoom : Nat → Nat → BitVec 64 → Nat → Nat

/-! ## Values of the module record and of the boot images (R342, R343; log 17) -/

/-- The module number (R335). -/
opaque moduleNumber : Fin 16384

/-- Physical address of the journal's mirror ring (R317, R333). -/
opaque mirror : Nat

/-- The power cap at reset, in W (R346). -/
opaque capAtReset : BitVec 14

/-- The initial access-table entries of the module record (R341), each keyed by target and master. -/
opaque initialAccess : List (Nat × Word)

/-- The expected signature of a scan chunk of a core (R240, R343). -/
opaque expectedSig : Nat → Nat → Word

/-- The signature that a core's silicon produces for a chunk, at a given choice (R447). -/
opaque producedSig : Nat → Nat → Nat → Word

/-- Whether the images of the boot sequence verify (R342). -/
opaque imagesVerify : Nat → Bool

/-- The security version of an image that the boot sequence finds (R342). -/
opaque imageVersion : Nat → Nat

/-- The security-version floors of the factory record, one for each image (R342, R343). -/
opaque factoryFloors : Vector Nat 5

/-- The digest of the factory record (R344). -/
opaque factoryDigest : BitVec 512

/-- What the factory record holds beside the floors and the logical core map, as one number: the module number, the routing table, the
signatures of R240, the power limits and the initial access-table entries (R343). -/
opaque factoryRest : Nat

/-- The digest of image `m` (R344). -/
opaque imageDigest : Nat → BitVec 512

/-- Whether a signed record's signature verifies under the key that signs it (R343). -/
opaque recordVerifies : List Byte → Bool

/-- The cores that a signed record leaves out of the logical core map, its floors, and all else that it holds (R343). -/
opaque recordDrops : List Byte → List (Fin 1536)
opaque recordFloors : List Byte → Vector Nat 5
opaque recordRest : List Byte → Nat

/-- The digest of the field record that the management processor writes when it removes a core, for the map's cores left out and the
floors (R343, R437). -/
opaque fieldRecord : List Nat → Vector Nat 5 → BitVec 512

/-- How the attestation report lays out the nonce, the module number, the eight measurement registers, the digests of the records in
force and gtime (R344). -/
opaque attestReport : List Byte → Nat → List (BitVec 512) → List (BitVec 512) → Nat → List Byte

/-- The attestation report's signature (R344). -/
opaque reportSignature : List Byte → List Byte

/-- The buffer that LINKS writes: each port's state, peer module and count of retried flits (R335). -/
opaque linksReport : List (BitVec 2 × Fin 16384 × Nat) → List Byte

/-- Installed capacity of each CXL port in bytes, 0 for an empty port (R338). -/
opaque capPort : Fin 8 → Nat

/-- The Loam port on which this module sends to a peer, none when the routing table has no route (R335). -/
opaque route : Fin 16384 → Option (Fin 24)

/-- Whether the peer module refuses a request that carries a context key: the peer's own access table decides it (R336). -/
opaque peerRefuses : BitVec 8 → Nat → Bool

end Config
end Sys2Proof
end

