-- ==== Sys2Proof/Machine/State.lean ====
section
/-! DEFINITION. The state of the module as plain data: every piece of state that spec/ gives it (INVENTORY.md, "State"),
the reasons a step can stop, and the state after reset. -/

namespace Sys2Proof.Machine

/-- Byte memory as a list of cells in one canonical form: addresses strictly rising, no cell equal to `Memory.unlisted`. -/
structure Memory where
  cells : List Host.Cell
  deriving DecidableEq, Repr

/-- What an address that is not listed reads as (log 1). DESIGN CHOICE, unsafe: the manual gives DRAM no reset contents. -/
def Memory.unlisted : Byte := 0

/-- A finite table keyed by a number, in order of insertion. -/
abbrev Tab (α : Type) := List (Nat × α)

/-! ## Warps -/

/-- An entry of the divergence stack (R211). `names` is `Warp.paths` as it stood at the push (R110). -/
inductive DivEntry where
  | reconv (addr : DWord) (mask : Mask) (names : List Nat)
  | path (addr : DWord) (mask : Mask) (names : List Nat)
  deriving DecidableEq, Repr

/-- An entry of a queue (R44). `full` is false for a slot that a `qld` has reserved and not yet filled (R196). -/
structure QEntry where
  ticket : Nat
  full : Bool
  row : Row
  mask : Mask
  deriving DecidableEq, Repr

/-- A trap to be delivered (R371): its cause, the value for cr.eval, and the lane that decided it (32 for none). -/
structure Trap where
  code : BitVec 8
  value : DWord
  lane : BitVec 6 := 32
  swcode : BitVec 6 := 0
  deriving DecidableEq, Repr

/-- An access slice (R43). `fault` is a trap of the slice not yet delivered to the warp (R371). -/
structure Slice where
  pc : DWord
  sregs : Vector Word 63
  /-- Uniform registers of the slice whose words cannot be corrected (R378 step 7, R388). -/
  badSregs : List Nat
  fault : Option Trap
  stopped : Bool
  deriving DecidableEq, Repr

/-- The four outstanding-operation counters (R192). -/
inductive Ctr where
  | loads | stores | copies | tiles
  deriving DecidableEq, Repr

/-- Where an access goes: its storage address, its physical (or peer) address, its tier (0 stack, 1 capacity, 2 peer, 3 on-chip),
the peer module, the ce and mig bits of its leaf (R99), the context key that a request to a peer carries (R336), whether its
request is one that gets no answer (R394, R396), and whether it is refused because its link has failed (R336). -/
structure Place where
  loc : Nat
  pa : Nat
  tier : Nat
  module : Nat
  ce : Bool
  mig : Bool
  key : BitVec 8 := 0
  lost : Bool := false
  refused : Bool := false
  deriving DecidableEq, Repr

/-- One access of an outstanding operation: the lane that makes it (or the piece of a tile operation), the offset of its bytes in
the lane's value, its address (a virtual address for .p and .g), where it goes, how many bytes, and the data it writes. -/
structure Acc where
  lane : Nat
  off : Nat
  addr : Nat
  place : Place
  n : Nat
  data : Nat
  new : Nat
  deriving DecidableEq, Repr

/-- What an outstanding operation does when it completes (R187-R191, R196, R202, R254). -/
inductive OpKind where
  | load (size : Size) (d : VOp)
  | store
  | atom (op : AtomOp) (size : Size) (d : VOp)
  | cas (size : Size) (d : VOp)
  | qld (n : Fin 4) (ticket : Nat) (size : Size)
  | tld (tile : Nat)
  | tst (tile : Nat)
  | cst
  | flush (lo len : Nat) (inv : Bool)
  deriving DecidableEq, Repr

/-- An operation that has issued and not completed (R192). -/
structure OutOp where
  id : Nat
  ctr : Ctr
  seq : Nat
  kind : OpKind
  space : Space
  accs : List Acc
  mask : Mask
  acq : Option Scope
  rel : Option Scope
  /-- The path on which it issued, innermost divergence first (R110). -/
  paths : List Nat
  slice : Bool
  /-- Of the accesses that have been performed before the others (R105, R115): the values read, each with its lane, the lanes that
  die, and the first error. `accs` holds those that are left. -/
  vals : List (Nat × Nat)
  dead : Mask
  err : Option Trap
  /-- Lanes of which an access has been performed (R432). -/
  begun : Mask := 0
  deriving DecidableEq, Repr

/-- An error left pending in a warp (R368). -/
structure PendErr where
  trap : Trap
  /-- Counter of the failed operation and its number among that counter's operations; none for a write-back. -/
  op : Option (Ctr × Nat)
  /-- Destination registers of the failed operation. -/
  regs : List Nat
  /-- Tile named by a failed `tld`. -/
  tile : Option Nat
  copy : Option Nat
  deriving DecidableEq, Repr

/-- What a warp is waiting for (R33, R55, R225). The program counter stays at the waiting instruction. -/
inductive WaitKind where
  /-- `issued` is `Warp.issued` at the issue of the `waitc` (R368). -/
  | waitc (l s c t : Nat) (issued : Vector Nat 4)
  | waitw (d : Fin 63) (addr : DWord) (value : DWord) (cc : Cond)
  | pbwait (loc : Nat) (space : Space) (addr : DWord) (bit : Bool)
  | bar
  | barc
  | sgwait (d : Fin 63) (record : DWord)
  | sleept (p : Word)
  | exitDrain
  | chain (next : DWord) (n : Word) (lim : Word) (d : Fin 63)
  | chunk (target : Nat) (index : Nat) (d : Fin 63) (until_ : Nat)
  deriving DecidableEq, Repr

/-- A wait: what for, the bytes of the waiting instruction, and the gtime at which it began. -/
structure Waiting where
  kind : WaitKind
  len : Nat
  since : Nat
  deriving DecidableEq, Repr

/-- A warp (R29, R370). -/
structure Warp where
  slot : Fin 8
  block : Nat
  part : Nat
  pc : DWord
  vregs : Vector Row 120
  sregs : Vector Word 63
  /-- Uniform registers whose words cannot be corrected (R378 step 7, R388). -/
  badSregs : List Nat
  preds : Vector Mask 8
  path : Mask
  stack : List DivEntry
  ops : List OutOp
  nextOp : Nat
  /-- Operations issued on each counter: loads, stores, copies, tile operations (R368). -/
  issued : Vector Nat 4
  /-- Names of the paths that lead to the executing one, innermost divergence first (R109 (e), R110). -/
  paths : List Nat
  slice : Option Slice
  aq : Vector (List QEntry) 4
  sq : List QEntry
  nextTicket : Nat
  laneok : Mask
  spawned : Bool
  index : BitVec 6
  wslot : BitVec 6
  role : BitVec 2
  rprio : BitVec 2
  rbase : BitVec 20
  rcount : BitVec 7
  pbase : Word
  plimit : BitVec 17
  status : BitVec 5
  cause : Word
  epc : DWord
  eval : DWord
  tvec : DWord
  fflags : BitVec 7
  errs : List PendErr
  wait : Option Waiting
  lastPromise : Option Nat
  /-- The gtime of the last re-reading by its `waitw` of a word of the capacity tier or of a peer (R223). -/
  polled : Nat
  ended : Bool
  stopped : Bool
  deriving DecidableEq, Repr

/-! ## Parts, blocks, nodes and contexts -/

/-- A line of a part's L1 (R90, R94), `line` its virtual address over 128. `owner` is the warp of a private line. Lines stand most recently used first. -/
structure L1Line where
  line : Nat
  data : List Byte
  /-- The bytes that the line's home held when the line was last filled or written back (R91). -/
  home : List Byte
  /-- Words of the line whose check bits are bad (R387), and those of them that have been reported (R390). -/
  badWords : List Nat
  told : List Nat
  dirty : Bool
  owner : Option Nat
  /-- Cause of a held line and its place in the order of becoming held (R398). -/
  held : Option (BitVec 8 × Nat)
  deriving DecidableEq, Repr

/-- An arrival at a `bar` (R216). -/
structure Arrival where
  wid : Nat
  op : Option FoldOp
  payload : Word
  d : Option (Fin 63)
  word0 : Word
  deriving DecidableEq, Repr

/-- A role of a launch record (R38, R322). -/
structure Role where
  entry : DWord
  prio : BitVec 2
  regs : BitVec 8
  warps : BitVec 8
  deriving DecidableEq, Repr

/-- A launch record as read (R322). -/
structure Launch where
  claim : Bool
  spawnrole : BitVec 2
  parts : Nat
  threads : Nat
  scratch : Nat
  priv : Nat
  gx : Nat
  gy : Nat
  gz : Nat
  roles : List Role
  deriving DecidableEq, Repr

/-- A part of a block (R34, R40, R84, R85, R90). -/
structure Part where
  block : Nat
  num : Nat
  core : Nat
  threads : Nat
  scratch : Nat
  sbase : BitVec 20
  claimBytes : Nat
  region : List Nat
  sets : Nat
  priv : Nat
  claim : Bool
  spawnRegs : BitVec 8
  spawnPrio : BitVec 2
  spawnRole : BitVec 2
  l1 : List L1Line
  heldCount : Nat
  bar : List Arrival
  deriving DecidableEq, Repr

/-- A block or cluster block (R34-R37, R55). `parts` names its parts in ascending part number. -/
structure Block where
  slot : Fin 8
  node : Nat
  index : Nat
  x : Word
  y : Word
  z : Word
  member : Option (Nat × Nat)
  parts : List Nat
  resident : Bool
  /-- The gtime at which it was last swapped out as a parked block (R55). -/
  out : Nat
  /-- A gang switch has left it out, with every other sibling of its group (R52). -/
  together : Bool
  barc : List (Nat × Word)
  stopping : Bool
  ended : Bool
  deriving DecidableEq, Repr

/-- The kinds of node (R48, R320). -/
inductive NodeKind where
  | region | launch | array | group | collective | selftest
  deriving DecidableEq, Repr

/-- A final status of a node (R320). -/
inductive Status where
  | completed | abandoned | launcherr
  deriving DecidableEq, Repr

/-- The inheritable fields (R49). -/
structure Inherit where
  prio : Nat
  cores : Nat
  store : Nat
  slabs : Nat
  slice : Nat
  domain : BitVec 16
  deriving DecidableEq, Repr

/-- A node of the work tree (R48, R320-R325). A sample-group node has the address of its group record. -/
structure Node where
  slot : Fin 8
  addr : DWord
  kind : NodeKind
  parent : Option Nat
  root : Nat
  eff : Inherit
  deps : List Nat
  body : DWord
  kp0 : Word
  kp1 : Word
  kp2 : DWord
  kp3 : DWord
  launch : Option Launch
  started : Bool
  status : Option Status
  nextBlock : Nat
  totalBlocks : Nat
  nextDie : Nat
  /-- Its own work was abandoned or left unstarted (R325, R416). -/
  spoiled : Bool
  draining : Bool
  killing : Bool
  /-- Since when it has been ready and not started (R325). -/
  readySince : Option Nat
  /-- Nanoseconds for which it has held resources in its present turn (R50). -/
  used : Nat
  /-- By how many places its children are rotated (R50). -/
  turn : Nat
  /-- A root is running from the acceptance of its tree on, also while its own start is still to come (R321; log 49). -/
  running : Bool := false
  deriving DecidableEq, Repr

/-- A context (R323, R324). -/
structure Context where
  key : BitVec 8
  ptRoot : Nat
  save : Nat
  defaults : Inherit
  bintimer : BitVec 16
  portWeight : BitVec 4
  coreWeight : BitVec 4
  quiesced : Bool
  time : Nat
  nextLaunch : Nat
  deriving DecidableEq, Repr

/-! ## Copies, spawn bins, sample groups, collectives -/

/-- A copy (R197-R200, R392). -/
structure Copy where
  slot : Fin 8
  wid : Nat
  core : Nat
  seq : Nat
  dsp : Space
  ssp : Space
  src : DWord
  dst : DWord
  len : Nat
  rows : Nat
  spitch : Int
  dpitch : Int
  promise : Word
  /-- The byte ranges that its two range-lock entries hold, as key ranges of the lock table (R118). -/
  srcKeys : List (Nat × Nat)
  dstKeys : List (Nat × Nat)
  /-- The 8-byte units of the destination, by number, that running chunks have written before their end, and the words that they have
  read, by their place in the copy's row-major order (R115). -/
  moved : List Nat
  fetched : Tab (List Byte)
  /-- The requests of running chunks, by number, that get no answer, each with its tier (R394, R396). -/
  lost : List (Nat × Nat)
  next : Nat
  running : List Nat
  error : Option (Nat × Trap)
  finished : Bool
  delivered : Bool
  deriving DecidableEq, Repr

/-- A spawn bin of a core (R46). Pairs stand in order of arrival. -/
structure Bin where
  core : Nat
  index : Nat
  part : Nat
  entry : DWord
  args : List Word
  since : Nat
  deriving DecidableEq, Repr

/-- A released warp that waits for a slot (R46, R47). -/
structure Released where
  slot : Fin 8
  die : Nat
  core : Nat
  index : Nat
  part : Nat
  entry : DWord
  args : List Word
  deriving DecidableEq, Repr

/-- The state of a group member (R228). -/
inductive MemberState where
  | running | reported | cancelled | timedOut
  deriving DecidableEq, Repr

/-- A sample group that is running (R228-R232). -/
structure Group where
  slot : Fin 8
  record : DWord
  node : Nat
  die : Nat
  n : Nat
  eps : Word
  deadline : Option Nat
  members : List (MemberState × Word)
  killed : Bool
  done : Bool
  deriving DecidableEq, Repr

/-- A chunk of a collective: its number, and the context times of its first sending and of its last sending or refusal. -/
structure Chunk where
  num : Nat
  first : Nat
  last : Nat
  deriving DecidableEq, Repr

/-- A collective node in progress (R330, R331, R423). -/
structure Collective where
  node : Nat
  /-- Which of the 16 engines serves it (R17). -/
  engine : Nat
  /-- The choice from which the contributions of the other ranks are drawn (log 29). -/
  choice : Nat
  op : BitVec 4
  ty : BitVec 4
  size : Nat
  rank : Nat
  count : Nat
  src : DWord
  dst : DWord
  ranks : DWord
  next : Nat
  inflight : List Chunk
  unacked : List Chunk
  /-- Chunks that a pause recorded and that are sent again before any new one (R331). -/
  again : List Chunk
  givenUp : Bool
  /-- What the chunks in flight have read of this module's source, and the units that they have written to its destination, before they
  are acknowledged: each by its chunk, the time of its sending, and its address (R115). -/
  fetched : Tab (List Byte)
  moved : List Nat
  deriving DecidableEq, Repr

/-! ## Decoft arrays -/

/-- A token (R267). -/
structure Token where
  kind : BitVec 2
  lev : BitVec 4
  fill : Nat
  route : BitVec 6
  residue : BitVec 16
  payload : BitVec 256
  deriving DecidableEq, Repr

/-- A data route (R306). -/
structure Route where
  rid : BitVec 6
  w : BitVec 2
  su : Nat
  sp : Nat
  du : Nat
  dp : Nat
  deriving DecidableEq, Repr

/-- A control route (R307). -/
structure CtlRoute where
  kind : BitVec 2
  su : Nat
  so : Nat
  du : Nat
  di : Nat
  deriving DecidableEq, Repr

/-- An FU record (R310): entries, constants with their kinds, FU index and entry count. -/
structure FuRec where
  entries : List DWord
  consts : List Word
  kinds : List Nat
  fu : Nat
  rep : Nat
  count : Nat
  deriving DecidableEq, Repr

/-- An access-pattern record (R308). -/
structure Apr where
  word0 : Word
  mw : Word
  base : DWord
  stride : Word
  limit : Word
  dir : DWord
  levels : List DWord
  deriving DecidableEq, Repr

/-- A counter record (R302): levels of start, step and count, and the mask. -/
structure CounterRec where
  levels : List (Word × Word × Nat)
  mask : BitVec 4
  deriving DecidableEq, Repr

/-- A bank event record (R311). -/
structure BankEvent where
  bank : Nat
  kind : BitVec 2
  tag : BitVec 8
  unit : Nat
  lev : Nat
  deriving DecidableEq, Repr

/-- One context of an image (R309). -/
structure ImgCtx where
  fus : List FuRec
  routes : List Route
  ctls : List CtlRoute
  aprs : List Apr
  counters : List CounterRec
  events : List BankEvent
  deriving DecidableEq, Repr

/-- A configuration image as loaded (R309). -/
structure Image where
  slabs : Nat
  result : BitVec 16
  banks : DWord
  ctxs : List ImgCtx
  deriving DecidableEq, Repr

/-- What one receiver of a channel holds: its tokens, how many it has consumed since the last acknowledged round marker, how many resent
tokens it still discards, and the last round marker that it has consumed (R268, R404, R405). -/
structure Intake where
  queue : List Token
  consumed : Nat
  skip : Nat
  marker : Nat
  deriving DecidableEq, Repr

/-- A data channel: tokens in transit, those sent since the last acknowledged round marker, whether they are more than the sender's
buffer keeps, the copy to which the first of these went and the one to which the next arrival goes, the receivers, which are the
copies of the operator at its end, and, of the operator at its start, the results that each copy has delivered to the collector, with
the copy from which the next is taken (R268, R271, R404, R405). -/
structure Chan where
  transit : List Token
  retained : List Token
  unprotected : Bool
  phase : Nat
  deal : Nat
  ins : List Intake
  results : List (List (List Token))
  next : Nat
  deriving DecidableEq, Repr

/-- What operators keep from one token to the next: the partials and token count of `red`, elements packed by `cvt` and `cxch`, the
places of `cxch` in its head tokens, and the iteration that `cnt` has reached (R76, R283, R299, R301, R302, R412). -/
structure OpState where
  partials : List (List (Option Word))
  count : Nat
  pending : List Nat
  posA : Nat
  posB : Nat
  deriving DecidableEq, Repr

/-- A unit of an instance, an FU or a stream port: its running context, entry, whether it awaits a branch token after a firing, its
pending select, whether it has faulted, whether the arithmetic of its next firing errs, which the residue checks of its operator
find, the pins on which the final marker has been consumed and sent, the data tokens that it has originated on each pin, and the
last round marker that it forwarded (R266, R272, R291, R297, R401, R403). -/
structure UnitSt where
  ctx : Nat
  entry : Nat
  branch : Bool
  select : Option Nat
  faulted : Bool
  upset : Bool
  finalIn : List Nat
  finalOut : List Nat
  sent : Tab Nat
  forwarded : Nat
  /-- What each entry's operator keeps. -/
  ops : Tab OpState
  deriving DecidableEq, Repr

/-- What a stream port has in hand, in stream order: a read of `n` elements of `size` bytes with its data, a row of a width class
and length, the reads of whose 8-byte units follow it, the end of a row, an element that fails, and an end marker to be sent
(R115, R273-R276, R407). -/
inductive PItem where
  | read (addr n size : Nat) (data : Option (List Byte))
  | row (wc len units : Nat)
  | rowEnd
  | bad (cause : BitVec 8)
  | mark (lev : BitVec 4)
  deriving DecidableEq, Repr

/-- A stream port's progress through its APR: the next iteration, the chase address and whether a record is being read, accesses in
hand, elements packed or still to be written, the iteration of the last marker, the batch of a scatter-add, and whether the APR
has ended (R273-R278, R412). -/
structure PortSt where
  iter : Nat
  addr : DWord
  chasing : Bool
  items : List PItem
  buf : List Nat
  marked : Nat
  batchIdx : List Word
  batchVal : List Word
  ended : Bool
  deriving DecidableEq, Repr

/-- What an element asks of a bank tile (R304). -/
inductive BankOp where
  | read | write | fadd | sadd
  deriving DecidableEq, Repr

/-- A request for a word of a bank, by its number in the region (R279, R304). -/
structure BankReq where
  bank : Nat
  word : Nat
  op : BankOp
  data : Word
  deriving DecidableEq, Repr

/-- The requests of one token of a bank operator, in stream order, each with the word that it has returned, and where the answer goes
(R279). -/
structure BankWork where
  reqs : List (BankReq × Option Word)
  omask : Nat
  deriving DecidableEq, Repr

/-- The state of an instance (R236, R288). -/
inductive InstState where
  | queued | running | ended
  deriving DecidableEq, Repr

/-- An instance of a Decoft launch (R234, R288, R412). -/
structure Inst where
  slot : Fin 8
  /-- The launch number of a `dlaunch`, counted from the context's creation. -/
  handle : Option Nat
  node : Nat
  die : Nat
  stack : Nat
  image : DWord
  barrier : DWord
  param : DWord
  arg : Word
  state : InstState
  cause : BitVec 8
  aborted : Bool
  faulted : Bool
  base : Nat
  img : Option Image
  units : Tab UnitSt
  ports : Tab PortSt
  chans : Tab Chan
  ctl : Tab (List Nat)
  /-- The inputs at which the data tokens that an unordered merge holds arrived, in order of arrival (R285). -/
  arrivals : Tab (List Nat)
  early : List Word
  /-- The tokens of each unit whose requests are in the bank network, in stream order (R279). -/
  bankWork : Tab (List BankWork)
  /-- The unit that each bank of the region served last (R279). -/
  bankLast : Tab Nat
  /-- Banks of the region whose tokens the instance holds, with the bank tiles of the array that they are. -/
  banksHeld : List (Nat × Nat)
  /-- Banks of the region that it waits for, with their tags. -/
  banksWait : List (Nat × BitVec 8)
  round : Nat
  replays : Nat
  startClk : Nat
  clocks : Nat
  tokens : Nat
  result : Option Token
  deriving DecidableEq, Repr

/-- A bank token handed over and not yet taken (R281). -/
structure HandOver where
  slot : Fin 8
  stack : Nat
  bank : Nat
  tag : BitVec 8
  deriving DecidableEq, Repr

/-! ## The module -/

/-- A TLB: of a core, of a compute die, or of a base die (R102). -/
inductive TlbAt where
  | core (c : Nat)
  | die (d : Nat)
  | base (stack : Nat)
  deriving DecidableEq, Repr

/-- A cached translation (R102): the TLB that holds it, the key, the first page number and the page count of the leaf, and its entry
and level. -/
structure TlbEntry where
  holder : TlbAt
  key : BitVec 8
  page : Nat
  pages : Nat
  level : Nat
  entry : DWord
  deriving DecidableEq, Repr

/-- A journal entry (R317). -/
structure JEntry where
  seq : Nat
  time : Nat
  cmd : Word
  detail : BitVec 24
  result : BitVec 8
  arg : DWord
  deriving DecidableEq, Repr

/-- An armed gang switch (R328): the target time, the incoming slot (8 for none), and whether an overrun was marked (R422). -/
structure Armed where
  time : Nat
  incoming : Nat
  late : Bool
  deriving DecidableEq, Repr

/-- A command accepted during a gang switch whose effect is still to come: its code, its word 14, and its window's words (R315,
R329). -/
structure Deferred where
  op : Nat
  cmd : HostCmd
  words : Vector Word 16
  deriving DecidableEq, Repr

/-- An INVALIDATE whose purge has not completed (R316, R318). -/
structure Purge where
  word14 : Word
  arg : DWord
  key : BitVec 8
  images : Bool
  base : Nat
  len : Nat
  win : Fin 16
  deriving DecidableEq, Repr

/-- Who has made a stalled request (R124): a warp by a write-back, the module's own schedulers, group units and arrays by the records
that they write, the host, or a peer module. -/
inductive Requester where
  | warp (wid : Nat)
  | module
  | host
  | peer (m : Nat)
  deriving DecidableEq, Repr

/-- A stalled request: who made it, its address and size, what it does, and the places in its data of words that cannot be corrected,
of a line that is written back (R387). A host write behind a stalled one waits with it, wherever it goes (R122). -/
structure Stalled where
  who : Requester
  addr : Nat
  size : Nat
  op : PeerOp
  badWords : List Nat := []
  deriving DecidableEq, Repr

/-- A migration in progress (R104): its context's slot and key, the virtual address that it was asked for, the address and level of
its leaf, the old and the new physical address of its page, the next 512-byte block to copy, and the write-backs, stores and
atomics that reached its page meanwhile and are no outstanding operation of a warp, in order of arrival. -/
structure Migration where
  slot : Fin 8
  key : BitVec 8
  va : Nat
  entry : Nat
  level : Nat
  old : Nat
  new : Nat
  next : Nat
  stalled : List Stalled
  deriving DecidableEq, Repr

/-- The state of a core as its neighbours hold it (R438). -/
inductive CoreState where
  | inService | fenced | appealing | removed
  deriving DecidableEq, Repr

/-- Why a vote stands (R429, R438). -/
inductive VoteKind where
  | none | silent | babble
  deriving DecidableEq, Repr

/-- What a core holds about one neighbour (R428, R429, R436). -/
structure Watch where
  miss : Nat
  lastSeq : Option (BitVec 16)
  lastClk : Option Nat
  /-- Core clocks of the die when the present count of misses began. -/
  since : Nat
  vote : VoteKind
  left : Nat
  good : Nat
  accepts : Bool
  digest : DWord
  /-- Periods for which the vote has stood (R431). -/
  soleFor : Nat
  deriving DecidableEq, Repr

/-- The fencing state of a core (R426-R438, R446). -/
structure CoreFence where
  state : CoreState
  fences : List Nat
  watch : Vector Watch 4
  seq : BitVec 16
  issuedSince : Nat
  /-- Core clocks of the die at the last beat, and at the last period of the beat clock (R427, R429). -/
  beatAt : Nat
  periodAt : Nat
  changed : Nat
  /-- The block that holds the core for a scan test (R446). -/
  holder : Option Nat
  matched : BitVec 20
  appealLeft : Nat
  routerOff : Bool
  /-- Beats that the neighbour in each direction has sent and that have not arrived, oldest first (R427). -/
  inbox : Vector (List (BitVec 128)) 4
  deriving DecidableEq, Repr

/-- A Loam port (R335): 0 down, 1 training, 2 up. -/
structure LoamPort where
  state : BitVec 2
  peer : Fin 16384
  retried : Nat
  deriving DecidableEq, Repr

/-- A CXL port (R337, R338, R395). -/
structure CxlPort where
  down : Bool
  unavailable : Bool
  pages : List Nat
  deriving DecidableEq, Repr

/-- An entry of a base die's configuration cache (R287), with the image it holds. -/
structure CacheEntry where
  stack : Nat
  key : BitVec 8
  addr : DWord
  bytes : List Byte
  deriving DecidableEq, Repr

/-- The host's view of its last BAR2 or BAR0 read (R333): the bytes, or how it failed. -/
inductive HostReply where
  | none
  | data (bytes : List Byte) (poisoned : Bool)
  | unsupported
  | completerAbort
  deriving DecidableEq, Repr

/-- Which instruction stream is executing. -/
inductive Agent where
  | none
  | warp (wid : Nat)
  | slice (wid : Nat)
  deriving DecidableEq, Repr

/-- The state of the module. -/
structure State where
  agenda : List Turn
  agent : Agent
  choices : Nat
  nextId : Nat
  gtime : DWord
  mem : Memory
  /-- Words whose check bits are bad (R387): of on-chip memories, and of dirty lines of the MSCs. -/
  bad : List Nat
  /-- DRAM blocks whose poison bit is set (R97). -/
  poison : List Nat
  /-- Wrong bits of DRAM blocks, by their place among the 4,306 bits of the code word (R97). -/
  flips : Tab (List Nat)
  /-- The bytes that writes have supplied to a block with wrong bits or poison and the MSC has not written back (R96, R389). -/
  merging : Tab (BitVec 512)
  reported : List Nat
  tlb : List TlbEntry
  access : Tab Word
  /-- An entry that ACCESS is writing, with its key in the table (R341). -/
  accessNew : Option (Nat × Word)
  /-- The table of access counters, once CONFIG has given one (R103). -/
  counterTable : Option DWord
  counterThreshold : BitVec 16
  /-- Entries of the counter-threshold ring that the host has not read, and whether one was passed (R334). -/
  ringUnread : List Nat
  ringLost : Bool
  windows : Vector (Vector Word 16) 16
  /-- Commands submitted and not yet accepted, oldest first (R314, R315). -/
  queue : List (HostCmd × Nat)
  /-- Commands whose effects follow the gang switch, in journal order (R329). -/
  deferred : List Deferred
  journal : List JEntry
  nextSeq : Nat
  wbase : BitVec 20
  msix : List Nat
  reply : HostReply
  booted : Bool
  measure : Vector (BitVec 512) 8
  /-- The security-version floors in force, and the digest of the field record in force (R343, R344). -/
  floors : Vector Nat 5
  fieldDigest : Option (BitVec 512)
  outOfMap : List Nat
  mapEpoch : Nat
  counters : Tab DWord
  /-- Counter selects; a counter not listed has the reset select, event 0 with filter 8 (R345). -/
  selects : Tab Word
  cap : BitVec 14
  ceilings : Vector (BitVec 3) 8
  corePoints : Vector (BitVec 3) 8
  stackPoints : Vector (BitVec 2) 32
  dieClk : Vector Nat 8
  stackClk : Vector Nat 32
  loam : Vector LoamPort 24
  cxl : Vector CxlPort 8
  ctxs : Vector (Option Context) 8
  running : Option (Fin 8)
  armed : Option Armed
  purges : List Purge
  migration : Option Migration
  cores : Tab CoreFence
  newestFirst : Vector Bool 8
  cache : List CacheEntry
  nodes : Tab Node
  blocks : Tab Block
  parts : Tab Part
  warps : Tab Warp
  copies : Tab Copy
  bins : List Bin
  released : List Released
  groups : Tab Group
  collectives : Tab Collective
  insts : Tab Inst
  handOvers : List HandOver
  /-- Deltas of other modules that this module, their rows' home, has yet to apply, in ascending source-module number (R77). -/
  deltas : List Delta
  /-- cr.tshape0-7, keyed by (claiming part, partition, tile); a key not listed reads its reset value (R243). -/
  tshape : Tab Word
  /-- Matrix engines occupied by an operation (R250), keyed by (claiming part, partition), with the tiles that it reads. -/
  engine : Tab (List Nat)
  deriving DecidableEq, Repr

/-! ## Reasons to stop -/

/-- Why a step stops with a fault. -/
inductive Fault where
  /-- An instruction is executed while no warp or access slice is issuing it: the manual has no such event. Raised by the
  meanings of instructions, never by `step`. Safe: nothing of the manual is cut short. -/
  | noIssuer
  deriving DecidableEq, Repr

/-- Why an instruction has no meaning. -/
inductive Refusal where
  /-- An instruction whose meaning has not been written. Raised by `exec` alone. Safe. -/
  | notModelled (mnemonic : String)
  deriving DecidableEq, Repr

/-- The outcome of a step. -/
abbrev Out := Host.Outcome State Fault Refusal

/-! ## Reset -/

/-- What a core holds about a neighbour after reset (R428). -/
def Watch.fresh : Watch :=
  { miss := 0, lastSeq := none, lastClk := none, since := 0, vote := .none, left := 0, good := 0, accepts := false, digest := 0, soleFor := 0 }

/-- A core in service that no vote concerns (R438). -/
def CoreFence.fresh : CoreFence :=
  { state := .inService, fences := [], watch := Vector.replicate 4 Watch.fresh, seq := 0, issuedSince := 0, beatAt := 0, periodAt := 0, changed := 0,
    holder := none, matched := 0, appealLeft := 0, routerOff := false, inbox := Vector.replicate 4 [] }

/-- The module right after reset (R8, R324, R340, R346; log 10 for the values the manual does not give): no context is resident,
no slot runs, nothing is listed in memory, and the security root has not yet run its boot sequence (R342). -/
def State.reset : State :=
  { agenda := [], agent := .none, choices := 0, nextId := 0, gtime := 0, mem := ⟨[]⟩, bad := [], poison := [], flips := [],
    merging := [], reported := [],
    tlb := [], access := [], accessNew := none, counterTable := none, counterThreshold := 0, ringUnread := [], ringLost := false,
    windows := Vector.replicate 16 (Vector.replicate 16 0), queue := [], deferred := [], journal := [], nextSeq := 0, wbase := 0, msix := [], reply := .none,
    booted := false, measure := Vector.replicate 8 0, floors := Config.factoryFloors, fieldDigest := none, outOfMap := [], mapEpoch := 0, counters := [], selects := [],
    cap := Config.capAtReset, ceilings := Vector.replicate 8 7, corePoints := Vector.replicate 8 0,
    stackPoints := Vector.replicate 32 0, dieClk := Vector.replicate 8 0, stackClk := Vector.replicate 32 0,
    loam := Vector.replicate 24 ⟨0, 0, 0⟩, cxl := Vector.replicate 8 ⟨false, false, []⟩, ctxs := Vector.replicate 8 none,
    running := none, armed := none, purges := [], migration := none, cores := [], newestFirst := Vector.replicate 8 false, cache := [],
    nodes := [], blocks := [], parts := [], warps := [], copies := [], bins := [], released := [], groups := [],
    collectives := [], insts := [], handOvers := [], deltas := [], tshape := [], engine := [] }

end Sys2Proof.Machine
end

