-- ==== Sys2Proof/Machine/Store.lean ====
section
/-! DEFINITION. Tables, bytes, the byte memory and its canonical form, the storage addresses of every memory of the module,
and the updates of one entry of a table. -/

namespace Sys2Proof.Machine

/-! ## Tables -/

/-- The entry of key `k`. -/
def tget {α : Type} : Tab α → Nat → Option α
  | [], _ => none
  | (j, v) :: r, k => if j = k then some v else tget r k

/-- The table with `v` at key `k`: in its place, or last. -/
def tset {α : Type} : Tab α → Nat → α → Tab α
  | [], k, v => [(k, v)]
  | (j, u) :: r, k, v => if j = k then (j, v) :: r else (j, u) :: tset r k v

/-- The table without key `k`. -/
def tdel {α : Type} (t : Tab α) (k : Nat) : Tab α := t.filter fun p => p.1 != k

/-- The table with `f` applied to the entry of key `k`. -/
def tmod {α : Type} : Tab α → Nat → (α → α) → Tab α
  | [], _, _ => []
  | (j, u) :: r, k, f => if j = k then (j, f u) :: r else (j, u) :: tmod r k f

/-- The table with `f` applied to every entry. -/
def tmap {α : Type} (t : Tab α) (f : α → α) : Tab α := t.map fun p => (p.1, f p.2)

/-! ## Bytes -/

/-- The value of bytes, least significant first (R7). -/
def leNat : List Byte → Nat
  | [] => 0
  | b :: r => b.toNat + 256 * leNat r

/-- The `n` low bytes of a number, least significant first (R7). -/
def leBytes : Nat → Nat → List Byte
  | 0, _ => []
  | n + 1, x => BitVec.ofNat 8 x :: leBytes n (x / 256)

/-! ## The byte memory -/

/-- The byte that the cells give address `a`. -/
def cellGet : List Host.Cell → Nat → Byte
  | [], _ => Memory.unlisted
  | (j, b) :: r, a => if j = a then b else cellGet r a

/-- The cells with byte `b` at address `a`, in canonical form when they were. -/
def cellSet : List Host.Cell → Nat → Byte → List Host.Cell
  | [], a, b => if b = Memory.unlisted then [] else [(a, b)]
  | (j, c) :: r, a, b =>
    if a < j then (if b = Memory.unlisted then (j, c) :: r else (a, b) :: (j, c) :: r)
    else if a = j then (if b = Memory.unlisted then r else (a, b) :: r)
    else (j, c) :: cellSet r a b

/-- Addresses rise strictly from `lo` on, and no cell equals the unlisted byte. -/
def cellsWf : Nat → List Host.Cell → Bool
  | _, [] => true
  | lo, (j, b) :: r => lo ≤ j && b != Memory.unlisted && cellsWf (j + 1) r

/-- The canonical form of memory. -/
def Memory.wf (m : Memory) : Bool := cellsWf 0 m.cells

/-- One byte of memory. -/
def Memory.get (m : Memory) (a : Nat) : Byte := cellGet m.cells a

/-- Memory with one byte written. -/
def Memory.set (m : Memory) (a : Nat) (b : Byte) : Memory := ⟨cellSet m.cells a b⟩

/-- `n` bytes from address `a` on. -/
def Memory.read (m : Memory) (a : Nat) : Nat → List Byte
  | 0 => []
  | n + 1 => m.get a :: m.read (a + 1) n

/-- Memory with the bytes written from address `a` on. -/
def Memory.write (m : Memory) (a : Nat) : List Byte → Memory
  | [] => m
  | b :: r => (m.set a b).write (a + 1) r

/-! ## Storage addresses (log 5)

Every memory of the module lies in the one flat store: physical addresses as R22 lays them out, and behind them one window
of 2^44 bytes for each scratchpad, matrix state, bank tile set, peer and warp. -/

/-- Size of the physical address space (R22). -/
def physTop : Nat := 2 ^ 47

/-- Storage address of byte `off` of window `id` of a kind. -/
def onchip (kind id off : Nat) : Nat := physTop + (id * 8 + kind) * 2 ^ 44 + off

/-- The scratchpad of a part (R85). -/
def scratchLoc (part off : Nat) : Nat := onchip 0 part off
/-- The scratchpad of die `die` in a context slot (R93). -/
def dieLoc (slot die off : Nat) : Nat := onchip 1 (slot * 8 + die) off
/-- The matrix state of partition `pt` that a claiming part owns: tiles at 4,096 t, accumulators behind them (R242). A part
placed anew has a new number, so its matrix state reads zero. -/
def matrixLoc (part pt off : Nat) : Nat := onchip 2 part (pt * 0x100000 + off)
/-- Bank tile `bank` of the array of a stack in a context slot (R279). -/
def bankLoc (slot stack bank off : Nat) : Nat := onchip 3 (slot * 32 + stack) (bank * 0x20000 + off)
/-- The stack tier of a peer module (R336). -/
def peerLoc (module addr : Nat) : Nat := onchip 4 module addr
/-- Register `n`, lane `l` of a warp (R84). -/
def regLoc (wid n l : Nat) : Nat := onchip 5 wid (n * 128 + 4 * l)

/-- Uniform register `n` of a warp or of its slice: the key under which its bad check bits are reported. -/
def uniLoc (wid : Nat) (slice : Bool) (n : Nat) : Nat := onchip 6 wid ((if slice then 4096 else 0) + 4 * n)

/-- Which window a storage address lies in: its kind, its number and the offset; none for a physical address. -/
def locWindow (loc : Nat) : Option (Nat × Nat × Nat) :=
  if loc < physTop then none
  else
    let x := loc - physTop
    some (x / 2 ^ 44 % 8, x / 2 ^ 47, x % 2 ^ 44)

/-- The warp whose register rows hold the storage address, with the offset among them. -/
def locReg (loc : Nat) : Option (Nat × Nat) :=
  match locWindow loc with
  | some (5, wid, off) => some (wid, off)
  | _ => none

/-- A physical address of the stack tier (R22). -/
def isStack (pa : Nat) : Bool := pa < 2 ^ 42
/-- A physical address of the capacity tier's whole range (R22). -/
def isCapRange (pa : Nat) : Bool := 2 ^ 46 ≤ pa && pa < 2 ^ 47
/-- The management area M (R334). -/
def mgmtBase : Nat := 0x3FFFFF00000
def isMgmt (pa : Nat) : Bool := mgmtBase ≤ pa && pa < mgmtBase + 0x100000

/-- Rounded capacities of the CXL ports (R338). -/
def capOf (p : Fin 8) : Nat := Config.capPort p / 65536 * 65536
def capPorts : List (Fin 8) := (List.finRange 8).filter fun p => capOf p != 0
/-- Size of the populated capacity tier (R338). -/
def capTotal : Nat := (capPorts.map capOf).foldl (· + ·) 0

/-- The port of a byte of the capacity tier when the ports follow one another (R338). -/
def capSeq : List (Fin 8) → Nat → Option (Fin 8)
  | [], _ => none
  | p :: r, off => if off < capOf p then some p else capSeq r (off - capOf p)

/-- The port that serves a physical address of the capacity tier (R338). -/
def capPortOf (pa : Nat) : Option (Fin 8) :=
  let off := pa - 2 ^ 46
  if !isCapRange pa || capTotal ≤ off then none
  else
    let n := capPorts.length
    let same := match capPorts with
      | [] => false
      | p :: r => r.all fun x => capOf x == capOf p
    if same && (n == 1 || n == 2 || n == 4 || n == 8) then capPorts[off / 65536 % n]? else capSeq capPorts off

/-- The address is populated (R22). -/
def populated (pa : Nat) : Bool := isStack pa || (capPortOf pa).isSome

/-! ## Reading and writing the store -/

/-- Byte `off` of a warp's register rows. -/
def regByte (w : Warp) (off : Nat) : Byte :=
  match w.vregs[off / 128]? with
  | some row => match row[off % 128 / 4]? with
    | some x => BitVec.ofNat 8 (x.toNat / 256 ^ (off % 4))
    | none => 0
  | none => 0

/-- A word with byte `i` replaced. -/
def setByte (x : Word) (i : Nat) (b : Byte) : Word :=
  BitVec.ofNat 32 (x.toNat - x.toNat / 256 ^ i % 256 * 256 ^ i + b.toNat * 256 ^ i)

/-- A warp with byte `off` of its register rows replaced. -/
def setRegByte (w : Warp) (off : Nat) (b : Byte) : Warp :=
  if h : off / 128 < 120 then
    let row := w.vregs[off / 128]
    let row' := row.set (off % 128 / 4) (setByte row[off % 128 / 4] (off % 4) b)
    { w with vregs := w.vregs.set (off / 128) row' }
  else w

/-- One byte of the store at a storage address. -/
def State.byteAt (s : State) (loc : Nat) : Byte :=
  match locReg loc with
  | some (wid, off) => match tget s.warps wid with
    | some w => regByte w off
    | none => 0
  | none => s.mem.get loc

/-- `n` bytes of the store. -/
def State.bytesAt (s : State) (loc : Nat) : Nat → List Byte
  | 0 => []
  | n + 1 => s.byteAt loc :: s.bytesAt (loc + 1) n

/-- The store with one byte written. -/
def State.putByte (s : State) (loc : Nat) (b : Byte) : State :=
  match locReg loc with
  | some (wid, off) => { s with warps := tmod s.warps wid fun w => setRegByte w off b }
  | none => { s with mem := s.mem.set loc b }

/-- The store with bytes written. -/
def State.putBytes (s : State) (loc : Nat) : List Byte → State
  | [] => s
  | b :: r => (s.putByte loc b).putBytes (loc + 1) r

/-- A word of the range, on-chip or of a dirty MSC line, carries bad check bits (R387, R388). -/
def State.badIn (s : State) (loc n : Nat) : Bool := s.bad.any fun a => a < loc + n && loc < a + 4

/-- The range meets a poisoned block (R389). -/
def State.poisonIn (s : State) (loc n : Nat) : Bool :=
  loc < physTop && s.poison.any fun b => b * 512 < loc + n && loc < b * 512 + 512

/-- The range cannot be read without error. -/
def State.unreadable (s : State) (loc n : Nat) : Bool := s.badIn loc n || s.poisonIn loc n

/-- The marks that remain once `n` bytes from `loc` on are written: a word written whole has good check bits (R390). -/
def State.clearMarks (s : State) (loc n : Nat) : State :=
  { s with
    bad := s.bad.filter fun a => !(loc ≤ a && a + 4 ≤ loc + n)
    reported := s.reported.filter fun a => !(loc ≤ a && a + 4 ≤ loc + n) }

/-! ## DRAM blocks (R96, R97, R389) -/

/-- The bytes of block `b` that lie among the `n` from `loc` on, one bit each. -/
def byteMask (b loc n : Nat) : BitVec 512 :=
  let lo := max loc (b * 512)
  let hi := min (loc + n) (b * 512 + 512)
  if hi ≤ lo then 0 else BitVec.ofNat 512 ((2 ^ (hi - lo) - 1) * 2 ^ (lo - b * 512))

/-- The block is poisoned or has wrong bits. -/
def State.marked (s : State) (b : Nat) : Bool := s.poison.contains b || (tget s.flips b).isSome

/-- The MSC merges a write into block `b`, of which it keeps what has been supplied; once that is all 512 bytes, the block is written
with good check bits and poison clear (R96, R389). -/
def State.mergeBlock (s : State) (loc n b : Nat) : State :=
  if !s.marked b then s
  else
    let m := (tget s.merging b).getD 0 ||| byteMask b loc n
    if m = BitVec.allOnes 512 then
      { s with poison := s.poison.filter (· != b), flips := tdel s.flips b, merging := tdel s.merging b }
    else { s with merging := tset s.merging b m }

/-- The marked blocks that a write of `n` bytes at `loc` merges into. -/
def State.markedBlocks (s : State) (loc n : Nat) : List Nat :=
  if loc < physTop then (s.poison ++ s.flips.map (·.1)).dedup.filter fun b => b * 512 < loc + n && loc < b * 512 + 512 else []

/-- The MSC merges a write into every marked block that it meets. -/
def State.mergeMarks (s : State) (loc n : Nat) : State := (s.markedBlocks loc n).foldl (fun t b => t.mergeBlock loc n b) s

/-- A write of bytes to the store. A write of part of an uncorrectable on-chip word writes nothing to it (R388). -/
def State.store (s : State) (loc : Nat) (bs : List Byte) : State :=
  if bs.length < 4 && physTop ≤ loc && s.badIn loc bs.length then s
  else ((s.putBytes loc bs).clearMarks loc bs.length).mergeMarks loc bs.length

/-- The value of `n` bytes of the store. -/
def State.load (s : State) (loc n : Nat) : Nat := leNat (s.bytesAt loc n)

/-! ## Updates of one entry -/

def State.modWarp (s : State) (wid : Nat) (f : Warp → Warp) : State := { s with warps := tmod s.warps wid f }
def State.modPart (s : State) (p : Nat) (f : Part → Part) : State := { s with parts := tmod s.parts p f }
def State.modBlock (s : State) (b : Nat) (f : Block → Block) : State := { s with blocks := tmod s.blocks b f }
def State.modNode (s : State) (n : Nat) (f : Node → Node) : State := { s with nodes := tmod s.nodes n f }
def State.modInst (s : State) (i : Nat) (f : Inst → Inst) : State := { s with insts := tmod s.insts i f }
def State.modGroup (s : State) (g : Nat) (f : Group → Group) : State := { s with groups := tmod s.groups g f }
def State.modCopy (s : State) (c : Nat) (f : Copy → Copy) : State := { s with copies := tmod s.copies c f }

/-- One choice between two permitted outcomes (R4). -/
def State.flip (s : State) : Bool × State := (Config.bit s.choices, { s with choices := s.choices + 1 })

/-- The die of a core (R16). -/
def dieOfCore (c : Nat) : Nat := c / 192
/-- The cluster of a core (R16). -/
def clusterOf (c : Nat) : Nat := 12 * (c / 192) + 4 * (c % 192 / 16 / 4) + c % 16 / 4
/-- The index of a core within its cluster (R16). -/
def clusterIndex (c : Nat) : Nat := 4 * (c % 192 / 16 % 4) + c % 16 % 4
/-- The core of a cluster at an index (R16). -/
def coreAt (cl ix : Nat) : Nat := 192 * (cl / 12) + 16 * (4 * (cl % 12 / 4) + ix / 4) + 4 * (cl % 4) + ix % 4

/-- A gang switch is under way: its target time has come, and the SWITCHED entry has not (R329). -/
def State.switching (s : State) : Bool := s.armed.elim false fun a => a.time ≤ s.gtime.toNat

/-- The slot runs, and no gang switch is under way (R329). -/
def State.onTurn (s : State) (slot : Fin 8) : Bool := s.running == some slot && !s.switching

/-- The part that a warp runs in. -/
def State.partOf (s : State) (w : Warp) : Option Part := tget s.parts w.part
/-- The core that a warp runs on. -/
def State.coreOf (s : State) (w : Warp) : Nat := (s.partOf w).elim 0 (·.core)

end Sys2Proof.Machine
end

