-- ==== Sys2Proof/Machine/Flags.lean ====
section
/-! DEFINITION. The accrued flags of R62 and R63, and the integer conditions of R148. -/

namespace Sys2Proof.Machine

/-! ## Flags (R62) -/

abbrev Flags := BitVec 7
def flNx : Flags := 1
def flUnf : Flags := 2
def flOvf : Flags := 4
def flDz : Flags := 8
def flNv : Flags := 16
def flDead : Flags := 32
def flNav : Flags := 64

/-- The flag where the condition holds. -/
def flag (c : Bool) (f : Flags) : Flags := if c then f else 0

/-- The warp with the flags accrued; hardware never clears one (R63). -/
def accrue (w : Warp) (f : Flags) : Warp := { w with fflags := w.fflags ||| f }

/-! ## Conditions (R148) -/

/-- The condition between two values of one width. -/
def icond {n : Nat} (cc : Cond) (a b : BitVec n) : Bool :=
  match cc with
  | .eq => a == b
  | .ne => a != b
  | .lt => a.slt b
  | .le => a.sle b
  | .gt => b.slt a
  | .ge => b.sle a
  | .ltu => a.ult b
  | .leu => a.ule b
  | .gtu => b.ult a
  | .geu => b.ule a

end Sys2Proof.Machine
end

