-- ==== Sys2Proof/Machine/Float.lean ====
section
/-! DEFINITION. The number formats and their operations (spec/03_numbers.md R56-R79): each result is an exact value rounded once,
with the flags of R62. -/

namespace Sys2Proof.Machine

/-! ## Formats and values -/

/-- A binary format: exponent bits and fraction bits (R59). -/
structure Fmt where
  eb : Nat
  mb : Nat
  deriving DecidableEq, Repr

def fp16 : Fmt := ⟨5, 10⟩
def bf16 : Fmt := ⟨8, 7⟩
def fp32 : Fmt := ⟨8, 23⟩
def fp64 : Fmt := ⟨11, 52⟩

def Fmt.bias (f : Fmt) : Nat := 2 ^ (f.eb - 1) - 1
/-- The bits of +∞. -/
def Fmt.inf (f : Fmt) : Nat := (2 ^ f.eb - 1) * 2 ^ f.mb
/-- The sign bit. -/
def Fmt.sign (f : Fmt) (s : Bool) : Nat := if s then 2 ^ (f.eb + f.mb) else 0
/-- The canonical NaN (R61). -/
def Fmt.nan (f : Fmt) : Nat := f.inf + 2 ^ (f.mb - 1)

/-- What a pattern stands for: a NaN, an infinity, or (-1)^s * m * 2^e. -/
inductive FVal where
  | nan (signalling : Bool)
  | inf (s : Bool)
  | fin (s : Bool) (m : Nat) (e : Int)
  deriving DecidableEq, Repr

/-- The value of a bit pattern (R59). -/
def decodeF (f : Fmt) (x : Nat) : FVal :=
  let s := x / 2 ^ (f.eb + f.mb) % 2 == 1
  let ex := x / 2 ^ f.mb % 2 ^ f.eb
  let m := x % 2 ^ f.mb
  if ex = 2 ^ f.eb - 1 then (if m = 0 then .inf s else .nan (m / 2 ^ (f.mb - 1) % 2 == 0))
  else if ex = 0 then .fin s m (1 - (f.bias : Int) - f.mb)
  else .fin s (m + 2 ^ f.mb) ((ex : Int) - f.bias - f.mb)

def FVal.isSNan : FVal → Bool
  | .nan s => s
  | _ => false

def FVal.isNan : FVal → Bool
  | .nan _ => true
  | _ => false

/-- The value with its sign changed. -/
def FVal.neg : FVal → FVal
  | .nan s => .nan s
  | .inf s => .inf !s
  | .fin s m e => .fin (!s) m e

def FVal.negIf (c : Bool) (x : FVal) : FVal := if c then x.neg else x

/-! ## Rounding -/

/-- Whether rounding moves the truncated significand away from zero (R60): `r` and `h` are the discarded part and half a unit,
`st` whether more lies below, `odd` the truncated significand's last bit. -/
def roundsUp (rm : RMode) (s st odd : Bool) (r h : Nat) : Bool :=
  match rm with
  | .rne => h < r || (h == r && (st || odd))
  | .rtz => false
  | .rdn => s && (r != 0 || st)
  | .rup => !s && (r != 0 || st)

/-- The result of a magnitude beyond the largest finite value (R60, R70). -/
def overflowTo (f : Fmt) (s : Bool) (rm : RMode) : Nat :=
  let toInf := match rm with
    | .rne => true
    | .rtz => false
    | .rdn => s
    | .rup => !s
  f.sign s + (if toInf then f.inf else f.inf - 1)

/-- The magnitude m * 2^e, plus something strictly below one unit of m where `st`, rounded once to the format (R60, R62). Where
`st`, m has more bits than the significand. -/
def roundMag (f : Fmt) (s : Bool) (m : Nat) (e : Int) (st : Bool) (rm : RMode) : Nat × Flags :=
  if m = 0 && !st then (f.sign s, 0)
  else
    let emin : Int := 1 - (f.bias : Int)
    let top : Int := (Nat.log2 m : Int) + e
    let q : Int := max top emin - f.mb
    let d := (q - e).toNat
    let up := (e - q).toNat
    let m1 := m * 2 ^ up / 2 ^ d
    let r := m * 2 ^ up % 2 ^ d
    let h := 2 ^ d / 2
    let inexact := r != 0 || st
    let m2 := if roundsUp rm s st (m1 % 2 == 1) (if d = 0 then 0 else r) h && d != 0 then m1 + 1 else m1
    let be := (q + f.mb + f.bias).toNat
    let packed := (be - 1) * 2 ^ f.mb + m2
    if f.inf ≤ packed then (overflowTo f s rm, flOvf ||| flNx)
    else (f.sign s + packed, flag inexact flNx ||| flag (inexact && packed < 2 ^ f.mb) flUnf)

/-- An exact signed value v * 2^e rounded; an exact zero takes the sign `zs`. -/
def roundInt (f : Fmt) (v : Int) (e : Int) (zs : Bool) (rm : RMode) : Nat × Flags :=
  if v = 0 then (f.sign zs, 0) else roundMag f (v < 0) v.natAbs e false rm

/-! ## Arithmetic -/

/-- The signed significand at exponent `e`, which is at most the value's own. -/
def alignTo (s : Bool) (m : Nat) (e0 e : Int) : Int :=
  let v : Int := m * 2 ^ (e0 - e).toNat
  if s then -v else v

/-- x + y rounded once (R79: sign of an exact zero sum). -/
def addV (f : Fmt) (rm : RMode) (x y : FVal) : Nat × Flags :=
  let sn := flag (x.isSNan || y.isSNan) flNv
  match x, y with
  | .nan _, _ | _, .nan _ => (f.nan, sn)
  | .inf s, .inf t => if s == t then (f.sign s + f.inf, 0) else (f.nan, flNv)
  | .inf s, _ | _, .inf s => (f.sign s + f.inf, 0)
  | .fin s m e, .fin t n g =>
    let lo := min e g
    let zs := if m = 0 && n = 0 && s == t then s else rm == .rdn
    roundInt f (alignTo s m e lo + alignTo t n g lo) lo zs rm

/-- The exact product of two values, with nv for an invalid one. -/
def mulX (x y : FVal) : FVal × Flags :=
  let sn := flag (x.isSNan || y.isSNan) flNv
  match x, y with
  | .nan _, _ | _, .nan _ => (.nan false, sn)
  | .inf s, .inf t => (.inf (s != t), 0)
  | .inf s, .fin t n _ | .fin t n _, .inf s => if n = 0 then (.nan false, flNv) else (.inf (s != t), 0)
  | .fin s m e, .fin t n g => (.fin (s != t) (m * n) (e + g), 0)

/-- A value rounded to a format. -/
def roundV (f : Fmt) (rm : RMode) : FVal → Nat × Flags
  | .nan s => (f.nan, flag s flNv)
  | .inf s => (f.sign s + f.inf, 0)
  | .fin s m e => roundMag f s m e false rm

def mulV (f : Fmt) (rm : RMode) (x y : FVal) : Nat × Flags :=
  let p := mulX x y
  let r := roundV f rm p.1
  (r.1, p.2 ||| r.2)

/-- x * y + z rounded once; np negates the product (R176). -/
def fmaV (f : Fmt) (rm : RMode) (np : Bool) (x y z : FVal) : Nat × Flags :=
  let p := mulX x y
  let r := addV f rm (p.1.negIf np) z
  (r.1, p.2 ||| r.2)

/-- x / y rounded once (R78). -/
def divV (f : Fmt) (rm : RMode) (x y : FVal) : Nat × Flags :=
  let sn := flag (x.isSNan || y.isSNan) flNv
  match x, y with
  | .nan _, _ | _, .nan _ => (f.nan, sn)
  | .inf _, .inf _ => (f.nan, flNv)
  | .inf s, .fin t _ _ => (f.sign (s != t) + f.inf, 0)
  | .fin s _ _, .inf t => (f.sign (s != t), 0)
  | .fin s m e, .fin t n g =>
    if n = 0 then (if m = 0 then (f.nan, flNv) else (f.sign (s != t) + f.inf, flDz))
    else if m = 0 then (f.sign (s != t), 0)
    else
      let k := f.mb + 4 + Nat.log2 n
      roundMag f (s != t) (m * 2 ^ k / n) (e - g - k) (m * 2 ^ k % n != 0) rm

/-- The integer square root of a number below 4^(k+1), bit by bit. -/
def isqrt (n : Nat) : Nat → Nat → Nat
  | 0, r => if (r + 1) * (r + 1) ≤ n then r + 1 else r
  | k + 1, r => isqrt n k (if (r + 2 ^ (k + 1)) * (r + 2 ^ (k + 1)) ≤ n then r + 2 ^ (k + 1) else r)

/-- The integer square root. -/
def natSqrt (n : Nat) : Nat := isqrt n (Nat.log2 n / 2 + 1) 0

/-- The square root rounded once (R78). -/
def sqrtV (f : Fmt) (rm : RMode) (x : FVal) : Nat × Flags :=
  match x with
  | .nan s => (f.nan, flag s flNv)
  | .inf s => if s then (f.nan, flNv) else (f.inf, 0)
  | .fin s m e =>
    if m = 0 then (f.sign s, 0)
    else if s then (f.nan, flNv)
    else
      let k := 2 * f.mb + 6 + (if (e - (2 * f.mb + 6 : Nat)) % 2 = 0 then 0 else 1)
      let n := m * 2 ^ k
      let r := natSqrt n
      roundMag f false r ((e - k) / 2) (r * r != n) rm

/-- 1 / x rounded once (R78). -/
def rcpV (f : Fmt) (rm : RMode) (x : FVal) : Nat × Flags := divV f rm (.fin false 1 0) x

/-- 1 / sqrt(x) rounded once (R78). -/
def rsqV (f : Fmt) (rm : RMode) (x : FVal) : Nat × Flags :=
  match x with
  | .nan s => (f.nan, flag s flNv)
  | .inf s => if s then (f.nan, flNv) else (0, 0)
  | .fin s m e =>
    if m = 0 then (f.sign s + f.inf, flDz)
    else if s then (f.nan, flNv)
    else
      -- 1/sqrt(m 2^e) = sqrt(2^(2k) / m) * 2^(-(e + 2k)/2) with e made even
      let odd := e % 2 != 0
      let m' := if odd then m * 2 else m
      let e' := if odd then e - 1 else e
      let k := f.mb + 6 + Nat.log2 m'
      let r := natSqrt (2 ^ (2 * k) / m')
      roundMag f false r (-(e' / 2) - k) (r * r * m' != 2 ^ (2 * k)) rm

/-! ## Order (R79, R148) -/

/-- Compare two finite or infinite values; none when a NaN is among them. Zeros of both signs are equal. -/
def cmpV (x y : FVal) : Option Ordering :=
  match x, y with
  | .nan _, _ | _, .nan _ => none
  | .inf s, .inf t => some (if s == t then .eq else if s then .lt else .gt)
  | .inf s, _ => some (if s then .lt else .gt)
  | _, .inf t => some (if t then .gt else .lt)
  | .fin s m e, .fin t n g =>
    let lo := min e g
    some (compare (alignTo s m e lo) (alignTo t n g lo))

/-- The sign of a value that is no NaN. -/
def FVal.neg? : FVal → Bool
  | .nan _ => false
  | .inf s => s
  | .fin s _ _ => s

/-- The condition of `fcmp` (R148). -/
def fcond (cc : FCond) (x y : FVal) : Bool :=
  let c := cmpV x y
  match cc with
  | .eq => c == some .eq
  | .ne => c != some .eq
  | .lt => c == some .lt
  | .le => c == some .lt || c == some .eq
  | .gt => c == some .gt
  | .ge => c == some .gt || c == some .eq
  | .ord => c.isSome
  | .uno => c.isNone

/-- The smaller (or, with `mx`, larger) of two patterns, −0 below +0 (R79). -/
def minmax (f : Fmt) (mx : Bool) (a b : Nat) : Nat × Flags :=
  let x := decodeF f a
  let y := decodeF f b
  let sn := flag (x.isSNan || y.isSNan) flNv
  match x.isNan, y.isNan with
  | true, true => (f.nan, sn)
  | true, false => (b, sn)
  | false, true => (a, sn)
  | false, false =>
    let aFirst := match cmpV x y with
      | some .lt => true
      | some .gt => false
      | _ => x.neg?
    (if aFirst != mx then a else b, 0)

/-! ## 32-bit forms -/

/-- A 32-bit result from a computed pattern. -/
def pack32 (r : Nat × Flags) : Word × Flags := (BitVec.ofNat 32 r.1, r.2)
def dec32 (x : Word) : FVal := decodeF fp32 x.toNat

def fadd32 (rm : RMode) (x y : Word) : Word × Flags := pack32 (addV fp32 rm (dec32 x) (dec32 y))
def fsub32 (rm : RMode) (x y : Word) : Word × Flags := pack32 (addV fp32 rm (dec32 x) (dec32 y).neg)
def fmul32 (rm : RMode) (x y : Word) : Word × Flags := pack32 (mulV fp32 rm (dec32 x) (dec32 y))
def fmin32 (x y : Word) : Word × Flags := pack32 (minmax fp32 false x.toNat y.toNat)
def fmax32 (x y : Word) : Word × Flags := pack32 (minmax fp32 true x.toNat y.toNat)

/-! ## The tapered formats (R64-R69) -/

/-- Leading bits of the `w` low bits of m that equal `b`. -/
def runLen (m : Nat) (b : Bool) : Nat → Nat
  | 0 => 0
  | w + 1 => if (m / 2 ^ w % 2 == 1) == b then runLen m b w + 1 else 0

/-- The magnitude of a nonzero tapered code as a multiple of 2^-12 (R64). -/
def taperedMag (w m : Nat) : Nat :=
  let b := m / 2 ^ (w - 1) % 2 == 1
  let l := runLen m b w
  let k : Int := if b then (l : Int) - 1 else -(l : Int)
  let rest := w - l - 1
  let e := if rest ≥ 1 then m / 2 ^ (rest - 1) % 2 else 0
  let nf := rest - 1
  let f := m % 2 ^ nf
  -- 2^(2k+e) * (2^nf + f) / 2^nf, times 2^12
  (2 ^ nf + f) * 2 ^ (12 + 2 * k + e).toNat / 2 ^ nf

/-- The value of a tapered code; none for NaV. -/
def decodeT (w code : Nat) : Option FVal :=
  let s := code / 2 ^ w % 2 == 1
  let m := code % 2 ^ w
  if m = 0 then (if s then none else some (.fin false 0 0))
  else some (.fin s (taperedMag w m) (-12))

/-- Compare m * 2^e with n / 2^13. -/
def cmpMid (m : Nat) (e : Int) (n : Nat) : Ordering :=
  compare (m * 2 ^ (e + 13).toNat) (n * 2 ^ (-(e + 13)).toNat)

/-- How many codes below the largest lie at or beyond whose upper midpoint the magnitude m * 2^e lies (R68). -/
def taperedCount (w m : Nat) (e : Int) : Nat → Nat
  | 0 => 0
  | c + 1 =>
    let below := if c = 0 then 0 else taperedMag w c
    let past := match cmpMid m e (below + taperedMag w (c + 1)) with
      | .gt => true
      | .eq => c % 2 == 1
      | .lt => false
    (if past then 1 else 0) + taperedCount w m e c

/-- Conversion of a value to a tapered code (R68). -/
def encodeT (w : Nat) : FVal → Nat × Flags
  | .nan _ => (2 ^ w, flNv ||| flNav)
  | .inf s => ((if s then 2 ^ w else 0) + (2 ^ w - 1), flOvf)
  | .fin s m e =>
    if m = 0 then (0, 0)
    else
      let big := 2 ^ w - 1
      let c := taperedCount w m e big
      let code := if c = 0 then 0 else (if s then 2 ^ w else 0) + c
      let exact := c != 0 && cmpMid m e (2 * taperedMag w c) == .eq
      let above := cmpMid m e (2 * taperedMag w big) == .gt
      let below := cmpMid m e (2 * taperedMag w 1) == .lt
      (code, flag (!exact) flNx ||| flag above flOvf ||| flag below flUnf)

/-! ## Conversions (R56, R57, R70, R179) -/

/-- Width of a type in bits (R56). -/
def tyWidth : Ty → Nat
  | .t8 | .s8 | .u8 => 8
  | .t6 => 6
  | .bf16 | .fp16 | .s16 | .u16 => 16
  | .fp32 | .s32 | .u32 => 32
  | .fp64 | .s64 | .u64 => 64

/-- A signed integer type. -/
def tySigned : Ty → Bool
  | .s8 | .s16 | .s32 | .s64 => true
  | _ => false

/-- The kinds of types. -/
inductive TyKind where
  | tapered (w : Nat)
  | ieee (f : Fmt)
  | int
  deriving DecidableEq, Repr

def tyKind : Ty → TyKind
  | .t8 => .tapered 7
  | .t6 => .tapered 5
  | .bf16 => .ieee bf16
  | .fp16 => .ieee fp16
  | .fp32 => .ieee fp32
  | .fp64 => .ieee fp64
  | _ => .int

/-- The integer that a pattern of the type stands for (R57). -/
def intOf (t : Ty) (x : Nat) : Int :=
  let v := x % 2 ^ tyWidth t
  if tySigned t && 2 ^ (tyWidth t - 1) ≤ v then (v : Int) - 2 ^ tyWidth t else v

def intMin (t : Ty) : Int := if tySigned t then -(2 ^ (tyWidth t - 1) : Int) else 0
def intMax (t : Ty) : Int := if tySigned t then 2 ^ (tyWidth t - 1) - 1 else 2 ^ tyWidth t - 1
/-- The pattern of an integer (R57). -/
def intPat (t : Ty) (v : Int) : Nat := (v % 2 ^ tyWidth t).toNat

/-- The exact value of a pattern of a float or tapered type; none for NaV. -/
def valueOf (t : Ty) (x : Nat) : Option FVal :=
  match tyKind t with
  | .tapered w => decodeT w (x % 2 ^ (w + 1))
  | .ieee f => some (decodeF f (x % 2 ^ tyWidth t))
  | .int => some (let v := intOf t x; .fin (v < 0) v.natAbs 0)

/-- The integer nearest to (-1)^s * m * 2^e under the mode, and whether it is inexact. -/
def roundToInt (s : Bool) (m : Nat) (e : Int) (rm : RMode) : Int × Bool :=
  let d := (-e).toNat
  let m1 := m * 2 ^ e.toNat / 2 ^ d
  let r := m * 2 ^ e.toNat % 2 ^ d
  let m2 := if d != 0 && roundsUp rm s false (m1 % 2 == 1) r (2 ^ d / 2) then m1 + 1 else m1
  (if s then -(m2 : Int) else m2, r != 0)

/-- An IEEE result with the saturation bit: an infinity becomes the largest finite value (R70). -/
def saturate (f : Fmt) (sat : Bool) (r : Nat × Flags) : Nat × Flags :=
  if sat && r.1 % 2 ^ (f.eb + f.mb) = f.inf then (r.1 - 1, r.2 ||| flOvf) else r

/-- `convert(x, dt, rm, sat)` of R179 for a pattern of type `st`. -/
def convert (st dt : Ty) (sat : Bool) (rm : RMode) (x : Nat) : Nat × Flags :=
  match valueOf st x with
  | none =>
    match tyKind dt with
    | .tapered w => (2 ^ w, flNav)
    | .ieee f => (f.nan, flNav)
    | .int => (0, flNav ||| flNv)
  | some v =>
    match tyKind dt, tyKind st with
    | .tapered w, .tapered _ => if st = dt then (x % 2 ^ (w + 1), 0) else encodeT w v
    | .tapered w, _ => let r := encodeT w v; (r.1, r.2 ||| flag v.isSNan flNv)
    | .ieee f, _ => saturate f sat (roundV f rm v)
    | .int, .int =>
      let n := intOf st x
      if sat && n < intMin dt then (intPat dt (intMin dt), flOvf)
      else if sat && intMax dt < n then (intPat dt (intMax dt), flOvf)
      else (intPat dt n, 0)
    | .int, _ =>
      match v with
      | .nan _ => (0, flNv)
      | .inf s => (intPat dt (if s then intMin dt else intMax dt), flNv)
      | .fin s m e =>
        -- beyond every integer type, the significand alone decides
        if (Nat.log2 m : Int) + e > 80 then (intPat dt (if s then intMin dt else intMax dt), flNv)
        else
          let r := roundToInt s m (max e (-300)) rm
          if r.1 < intMin dt then (intPat dt (intMin dt), flNv)
          else if intMax dt < r.1 then (intPat dt (intMax dt), flNv)
          else (intPat dt r.1, flag r.2 flNx)

end Sys2Proof.Machine
end

