-- ==== Sys2Proof/Machine/Fold.lean ====
section
/-! DEFINITION. The pairwise tree of R74 and the reductions of R149 over it (R75, R183). -/

namespace Sys2Proof.Machine

/-- The two-operand operation of a reduction (R149). -/
def fold2 (op : FoldOp) (x y : Word) : Word × Flags :=
  match op with
  | .add => (x + y, 0)
  | .min => (if x.slt y then x else y, 0)
  | .max => (if x.slt y then y else x, 0)
  | .minu => (if x.ult y then x else y, 0)
  | .maxu => (if x.ult y then y else x, 0)
  | .and => (x &&& y, 0)
  | .or => (x ||| y, 0)
  | .xor => (x ^^^ y, 0)
  | .fadd => fadd32 .rne x y
  | .fmin => fmin32 x y
  | .fmax => fmax32 x y

/-- The identity of a reduction (R183). -/
def foldId : FoldOp → Word
  | .add | .maxu | .or | .xor => 0
  | .min => 0x7FFFFFFF
  | .max => 0x80000000
  | .minu | .and => 0xFFFFFFFF
  | .fadd => 0
  | .fmin => 0x7F800000
  | .fmax => 0xFF800000

/-- A floating-point reduction. -/
def foldIsFloat : FoldOp → Bool
  | .fadd | .fmin | .fmax => true
  | _ => false

/-- One level of the tree of R74 over leaves that are present or absent; the mark says a value has been passed to op. -/
def treeLevel (op : Word → Word → Word × Flags) : List (Option (Word × Bool)) → List (Option (Word × Bool)) × Flags
  | some x :: some y :: r =>
    let v := op x.1 y.1
    let t := treeLevel op r
    (some (v.1, true) :: t.1, v.2 ||| t.2)
  | some x :: none :: r => let t := treeLevel op r; (some x :: t.1, t.2)
  | none :: y :: r => let t := treeLevel op r; (y :: t.1, t.2)
  | [x] => ([x], 0)
  | [] => ([], 0)

/-- The tree of R74 with 2^k leaves. -/
def tree (op : Word → Word → Word × Flags) : Nat → List (Option (Word × Bool)) → Option (Word × Bool) × Flags
  | 0, xs => (xs.headD none, 0)
  | k + 1, xs =>
    let l := treeLevel op xs
    let t := tree op k l.1
    (t.1, l.2 ||| t.2)

/-- A value that the tree never passed to op: a NaN becomes canonical (R74). -/
def throughTree (x : Word) : Word × Flags :=
  match dec32 x with
  | .nan s => (0x7FC00000, flag s flNv)
  | _ => (x, 0)

/-- The reduction of 2^k leaves (R74, R75, R183). -/
def foldTree (op : FoldOp) (k : Nat) (xs : List (Option Word)) : Word × Flags :=
  match tree (fold2 op) k (xs.map fun x => x.map fun v => (v, false)) with
  | (none, f) => (foldId op, f)
  | (some (x, true), f) => (x, f)
  | (some (x, false), f) =>
    if foldIsFloat op then
      let t := throughTree x
      (t.1, f ||| t.2)
    else (x, f)

end Sys2Proof.Machine
end

