-- ==== Sys2Proof/Machine/Translate.lean ====
section
/-! DEFINITION. The command journal, event counters, page-table walks, access tables and translation
(spec/04_memory.md R98-R103, spec/13_scheduling.md R317-R318, spec/14_fabric_and_system.md R339-R345,
spec/21_memory_faults.md R388-R391). -/

namespace Sys2Proof.Machine

/-! ## The journal -/

/-- The 32 bytes of a journal entry (R317). -/
def JEntry.bytes (e : JEntry) : List Byte :=
  leBytes 8 e.seq ++ leBytes 8 e.time ++ leBytes 4 e.cmd.toNat ++ leBytes 4 (e.detail.toNat * 256 + e.result.toNat)
    ++ leBytes 8 e.arg.toNat

/-- Append an entry to the journal and its mirror, and raise vector 0 (R317, R318, R332). -/
def State.journalAdd (s : State) (cmd : Word) (detail : BitVec 24) (result : BitVec 8) (arg : DWord) : State :=
  let e : JEntry := ⟨s.nextSeq, s.gtime.toNat, cmd, detail, result, arg⟩
  { s with
    journal := (e :: s.journal).take 2048
    nextSeq := s.nextSeq + 1
    msix := s.msix ++ [0]
    mem := s.mem.write (Config.mirror % 2 ^ 42 + 32 * (s.nextSeq % 2048)) e.bytes }

/-- Append a MEMERR entry (R390). -/
def State.memerr (s : State) (kind arg : Nat) : State := s.journalAdd 0x82 (BitVec.ofNat 24 kind) 0 (BitVec.ofNat 64 arg)

/-- Raw store address of lane 0's byte 0 of register `n` of a warp, and bytes on (R84). -/
def rawOfReg (w : Warp) (off : Nat) : Nat := w.rbase.toNat + off / 512 * 8192 + off % 512

/-- The arg of a MEMERR entry of kind 3 for an on-chip storage address (R390). For a word of a bank tile, which has no core number and no
raw address, it is a free value (log 33). -/
def State.onchipArg (s : State) (loc : Nat) : Nat :=
  match locWindow loc with
  | some (0, p, off) => (tget s.parts p).elim 0 fun q => q.core * 2 ^ 32 + q.sbase.toNat + off
  | some (1, id, off) => (2048 + id % 8) * 2 ^ 32 + off
  | some (2, p, _) => (tget s.parts p).elim 0 fun q => q.core * 2 ^ 32 + (Config.word s.choices).toNat % 2 ^ 25
  | some (5, wid, off) => (tget s.warps wid).elim 0 fun w => s.coreOf w * 2 ^ 32 + rawOfReg w off
  | some (6, wid, _) => (tget s.warps wid).elim 0 fun w => s.coreOf w * 2 ^ 32 + (Config.word s.choices).toNat % 2 ^ 25
  | _ => (Config.word s.choices).toNat % 2 ^ 25 + (Config.word s.choices).toNat / 2 ^ 20 * 2 ^ 32

/-- Report an uncorrectable word of an on-chip memory for which R390 gives no raw address: its low bits are a free value (log 33). -/
def State.memerrWord (s : State) (core : Nat) : State :=
  ({ s with choices := s.choices + 1 }).memerr 3 (core * 2 ^ 32 + (Config.word s.choices).toNat % 2 ^ 25)

/-- A block becomes poisoned, with its MEMERR entry unless it was so before (R389, R390). -/
def State.poisonBlock (s : State) (kind b : Nat) : State :=
  if s.poison.contains b then s else ({ s with poison := s.poison ++ [b] }).memerr kind (b * 512)

/-- Report one uncorrectable word that a read has met: of a dirty MSC line, whose block becomes poisoned, or an on-chip word, which is
reported once (R387, R389, R390). -/
def State.reportWord (s : State) (a : Nat) : State :=
  if a < physTop then ({ s with bad := s.bad.filter fun x => x / 512 != a / 512 }).poisonBlock 2 (a / 512)
  else if s.reported.contains a then s
  else ({ s with choices := s.choices + 1, reported := s.reported ++ [a] }).memerr 3 (s.onchipArg a)

/-- What a read of a range reports: every uncorrectable word in it (R390). -/
def State.meet (s : State) (loc n : Nat) : State :=
  (s.bad.filter fun a => a < loc + n && loc < a + 4).foldl State.reportWord s

/-! ## Event counters (R345) -/

/-- A select word counts the event while the running slot passes its filter. -/
def State.selects? (s : State) (sel : Word) (event : Nat) : Bool :=
  let fl := sel.toNat / 16 % 16
  sel.toNat / 256 % 256 == event && (fl == 8 || s.running.elim false fun r => r.val == fl)

/-- Count an event `by_` times in the counters numbered `base` to `base + n - 1`. -/
def State.bump (s : State) (base n event : Nat) (by_ : Nat := 1) : State :=
  { s with counters := s.selects.foldl (fun t p =>
      if by_ != 0 && base ≤ p.1 && p.1 < base + n && s.selects? p.2 event then
        tset t p.1 ((tget t p.1).getD 0 + BitVec.ofNat 64 by_) else t) s.counters }

/-- What the module holds about a core: one never mentioned is in service, or removed where the logical core map leaves it out
(R343, R438). -/
def State.coreFence (s : State) (c : Nat) : CoreFence :=
  (tget s.cores c).getD (if s.outOfMap.contains c then { CoreFence.fresh with state := .removed } else CoreFence.fresh)

/-- A core's event. An issued instruction also counts in its next heartbeat (R427). -/
def State.coreEvent (s : State) (core event : Nat) (by_ : Nat := 1) : State :=
  let s1 := s.bump (core * 16) 16 event by_
  if event = 1 then
    { s1 with cores := tset s1.cores core { s1.coreFence core with issuedSince := (s1.coreFence core).issuedSince + by_ } }
  else s1
def State.dieEvent (s : State) (die event : Nat) (by_ : Nat := 1) : State := s.bump (24576 + die * 32) 32 event by_
def State.baseEvent (s : State) (stack event : Nat) (by_ : Nat := 1) : State := s.bump (24832 + stack * 8) 8 event by_

/-! ## DRAM blocks (R96, R97, R387, R389) -/

/-- The MSC reads block `b` from DRAM: 16 wrong bits or fewer are corrected, written back in place and counted; more poison the
block. Where it need not, the caller says so. -/
def State.readDram (s : State) (b : Nat) (needed : Bool := true) : State :=
  match tget s.flips b with
  | none => s
  | some e =>
    if !needed then s else
    let s1 := { s with flips := tdel s.flips b }
    if e.length ≤ 16 then s1.baseEvent (b * 512 / 2 ^ 37) 4 else s1.poisonBlock 1 b

/-- The MSC writes back the dirty lines of block `b`: it reads the rest of the block first, and a dirty word that cannot be corrected
poisons it (R96, R389). -/
def State.mscWriteBack (s : State) (b : Nat) : State :=
  let s1 := s.readDram b
  let s2 := if s1.bad.any fun a => a / 512 == b then
    ({ s1 with bad := s1.bad.filter fun a => a / 512 != b }).poisonBlock 2 b else s1
  { s2 with merging := tdel s2.merging b }

/-- Blocks with dirty lines of which something is kept here. -/
def State.dirtyBlocks (s : State) : List Nat :=
  ((s.merging.map fun p : Nat × BitVec 512 => p.1) ++ (s.bad.filter (· < physTop)).map fun a => a / 512).dedup

/-- A miss of the MSC, if it is one, may replace dirty lines: which is a free choice for each (R96; log 7). -/
def State.mscEvict (s : State) (miss : Bool) : State :=
  s.dirtyBlocks.foldl (fun t b =>
    let u := { t with choices := t.choices + 1 }
    if miss && Config.bit t.choices then u.mscWriteBack b else u) s

/-! ## Page tables -/

/-- Field hi..lo of a 64-bit entry, as a number. -/
def fld (e : DWord) (hi lo : Nat) : Nat := e.toNat / 2 ^ lo % 2 ^ (hi + 1 - lo)

/-- Address bits below a leaf of the level (R98). -/
def levelBits (lv : Nat) : Nat := if lv = 1 then 42 else if lv = 2 then 29 else 16

/-- Size of the page that a leaf of a level maps (R98). -/
def levelSize (lv : Nat) : Nat := 2 ^ levelBits lv

/-- The migration whose old page holds the physical address. -/
def State.migrationAt (s : State) (pa : Nat) : Option Migration :=
  s.migration.filter fun m => m.old ≤ pa && pa < m.old + levelSize m.level

/-- The place of a virtual address under a leaf. -/
def leafPlace (e : DWord) (lv va : Nat) : Place :=
  let tier := fld e 6 5
  let off := va % 2 ^ levelBits lv
  if tier = 2 then
    let a := fld e 41 16 * 65536 + off
    { loc := peerLoc (fld e 55 42) a, pa := a, tier := 2, module := fld e 55 42, ce := fld e 9 9 = 1, mig := fld e 7 7 = 1,
      key := BitVec.ofNat 8 (fld e 63 56) }
  else
    let a := fld e 51 16 * 65536 + off
    { loc := a, pa := a, tier := tier, module := 0, ce := fld e 9 9 = 1, mig := fld e 7 7 = 1 }

/-! ## Requests at the tiers (R96, R103) -/

/-- Post the address of a page whose counter reached the threshold; bit 63 marks the entry that follows the passing of an
entry the host has not read (R103, R334). -/
def State.postThreshold (s : State) (page : Nat) : State :=
  let ix := s.load (mgmtBase + 8) 8
  let slot := ix % 4096
  let v := if s.ringLost then page + 2 ^ 63 else page
  { s with
    mem := (s.mem.write (mgmtBase + 0x10000 + slot * 8) (leBytes 8 v)).write (mgmtBase + 8) (leBytes 8 (ix + 1))
    ringLost := s.ringUnread.contains slot
    ringUnread := if s.ringUnread.contains slot then s.ringUnread else s.ringUnread ++ [slot]
    msix := s.msix ++ [1] }

/-- One request of an access-counted page beyond the caches (R103). A counter whose entry would lie at an unpopulated physical
address is not kept: CONFIG makes no check of the table's address, and the manual gives no outcome (DESIGN CHOICE, log 21). -/
def State.countPage (s : State) (p : Place) (asked : Bool := true) : State :=
  match s.counterTable with
  | none => s
  | some table =>
    let ix := if p.tier = 1 then 2 ^ 26 + (p.pa - 2 ^ 46) / 65536 else p.pa / 65536
    let a := table.toNat + 2 * ix
    let v := s.load a 2
    if !p.ce || !asked || v = 0xFFFF || !populated a || !populated (a + 1) then s
    else
      let s1 := { s with mem := s.mem.write a (leBytes 2 (v + 1)) }
      if v + 1 = s.counterThreshold.toNat then s1.postThreshold (p.pa / 65536 * 65536) else s1

/-- The table's leaves: every valid entry that memory lists, down the levels (R98, R99). -/
def State.leavesFrom (s : State) : List Nat → Nat → List (DWord × Nat)
  | [], _ => []
  | lv :: r, base =>
    ((s.mem.cells.filterMap fun c => if base ≤ c.1 && c.1 < base + 65536 then some ((c.1 - base) / 8) else none).dedup).flatMap fun k =>
      let e := BitVec.ofNat 64 (s.load (base + 8 * k) 8)
      if fld e 0 0 = 0 then []
      else if fld e 10 10 = 1 then [(e, lv)]
      else if isStack (fld e 51 16 * 65536) then s.leavesFrom r (fld e 51 16 * 65536)
      else []

/-- A leaf of some context that maps a physical address has ce set (R103): what decides whether a request that comes by physical
address is counted. -/
def State.ceAt (s : State) (pa : Nat) : Bool :=
  s.counterTable.isSome && s.ctxs.toList.any fun c => c.elim false fun x =>
    (s.leavesFrom [1, 2, 3] x.ptRoot).any fun l =>
      let p := leafPlace l.1 l.2 0
      p.ce && p.tier != 2 && p.pa ≤ pa && pa < p.pa + 2 ^ levelBits l.2

/-- A request, where there is one, at the MSC of a stack: whether it misses is a free choice, since the MSC's contents are not
architectural. A miss reads the block, and may replace dirty lines (R96, R103, R345; log 7). -/
def State.mscAccess (s : State) (p : Place) (asked : Bool := true) : State :=
  let s1 := { s with choices := s.choices + 1 }
  let miss := asked && Config.bit s.choices
  (((s1.baseEvent (p.pa / 2 ^ 37) 1 miss.toNat).countPage p miss).readDram (p.pa / 512) miss).mscEvict miss

/-- The place of a physical address. -/
def physPlace (pa : Nat) : Place :=
  { loc := pa, pa := pa, tier := if isStack pa then 0 else 1, module := 0, ce := false, mig := false }

/-- A request that arrives at a stack's MSC, or at a CXL port, directly: it is counted where some leaf that maps its page asks for that
(R20, R103, R345; log 7). -/
def State.mscRequest (s : State) (pa : Nat) : State :=
  let p := { physPlace pa with ce := s.ceAt pa }
  if isStack pa then s.mscAccess p else s.countPage p

/-! ## Walks -/

/-- A walk from the table at `base`, through levels given by number and shift: the leaf and its level, or a cause. Each read of an entry
is a request at the MSC of its stack (R98, R100, R103, R388). The reserved bits of a non-leaf entry take no effect (R99; log 20). -/
def walkFrom (va : Nat) : List (Nat × Nat) → State → Nat → State × Except (BitVec 8) (DWord × Nat)
  | [], s, _ => (s, .error 0x04)
  | (lv, sh) :: r, s, base =>
    let pa := base + va / 2 ^ sh % 8192 * 8
    let s1 := s.mscRequest pa
    if s1.unreadable pa 8 then (s1.meet pa 8, .error 0x0B)
    else
      let e := BitVec.ofNat 64 (s1.load pa 8)
      if fld e 0 0 = 0 then (s1, .error 0x04)
      else if fld e 10 10 = 1 then (s1, .ok (e, lv))
      else if lv = 3 then (s1, .error 0x04)
      else
        let nx := fld e 51 16 * 65536
        if isStack nx then walkFrom va r s1 nx else (s1, .error 0x04)

/-- The levels of a tree, each with the lowest bit of its index (R98). -/
def treeLevels : List (Nat × Nat) := [(1, 42), (2, 29), (3, 16)]

/-- The walk of a context's tree, through the MSC (R98). -/
def walk (s : State) (root va : Nat) : State × Except (BitVec 8) (DWord × Nat) := walkFrom va treeLevels s root

/-- The leaf gives the translation fault of R100. -/
def leafFaults (e : DWord) (lv va : Nat) : Bool :=
  let tier := fld e 6 5
  let pa := (leafPlace e lv va).pa
  fld e 15 11 != 0 || tier == 3 || (tier != 2 && fld e 55 52 != 0)
    || (lv == 1 && fld e 41 16 != 0) || (lv == 2 && fld e 28 16 != 0)
    || (tier == 0 && !isStack pa) || (tier == 1 && (capPortOf pa).isNone)

/-- What an access needs of its leaf (R101). -/
inductive Need where
  | r | w | rw | x | wx
  deriving DecidableEq, Repr

/-- The leaf grants the right (R101). -/
def Need.granted (n : Need) (e : DWord) : Bool :=
  match n with
  | .r => fld e 1 1 == 1
  | .w => fld e 2 2 == 1
  | .rw => fld e 1 1 == 1 && fld e 2 2 == 1
  | .x => fld e 3 3 == 1
  | .wx => fld e 4 4 == 1

/-! ## Access tables (R339, R340) -/

/-- The entry of a target for a master identifier. While ACCESS writes it, a request meets the old one or the new one, a free choice
(R341). -/
def State.accessEntry (s : State) (target master : Nat) : Word :=
  let old := (tget s.access (target * 65536 + master)).getD (if master / 16384 = 0 || master / 16384 = 2 then 0x0000FF0F else 0)
  match s.accessNew with
  | none => old
  | some (k, e) => if k = target * 65536 + master && Config.bitAt s.choices master then e else old

/-- The entry admits the request. -/
def State.admits (s : State) (target master : Nat) (need : Need) : Bool :=
  let e := (s.accessEntry target master).toNat
  let bit (n : Nat) : Bool := e / 2 ^ n % 2 == 1
  let cls := master / 16384
  bit 0 && cls != 3
    && (match need with
      | .r | .x | .wx => bit 1
      | .w => bit 2
      | .rw => bit 3)
    && (cls == 2 || s.running.elim false fun r => bit (8 + r.val))

/-- The target that serves a place: its stack, its CXL port, or the Loam port towards its module. -/
def placeTarget (p : Place) : Option Nat :=
  if p.tier = 2 then (Config.route (Fin.ofNat 16384 p.module)).map fun l => 40 + l.val
  else if p.tier = 1 then (capPortOf p.pa).map fun q => 32 + q.val
  else some (p.pa / 2 ^ 37)

/-- A local agent's request to the place is refused when its translation is filled (R339, R340). -/
def State.refusesLocal (s : State) (master : Nat) (need : Need) (p : Place) : Bool :=
  (p.tier == 0 && isMgmt p.pa) || (placeTarget p).elim false fun t => !s.admits t master need

/-- The access meets lost data: the leaf has pz set, or it asks the expander for `n` bytes and that reports poison, which counts as such
(R101, R337). -/
def State.lostData (s : State) (need : Need) (e : DWord) (p : Place) (n : Nat := 1) : Bool :=
  fld e 8 8 == 1 || (n != 0 && need != .w && p.tier == 1 && s.poisonIn p.loc n)

/-- The fate of an access through a leaf, in the order of R101. An access of no bytes asks nothing of the expander. -/
def State.checkLeaf (s : State) (key : BitVec 8) (master : Nat) (need : Need) (va : Nat) (e : DWord) (lv : Nat) (n : Nat := 1) :
    Except (BitVec 8) Place :=
  let p := leafPlace e lv va
  if leafFaults e lv va then .error 0x04
  else if fld e 63 56 != key.toNat then .error 0x05
  else if !need.granted e then .error 0x05
  else if s.refusesLocal master need p then .error 0x05
  else if s.lostData need e p n then .error 0x0B
  else .ok p

/-- The TLB entry serves the address under the key (R102). -/
def TlbEntry.covers (t : TlbEntry) (key : BitVec 8) (va : Nat) : Bool :=
  t.key == key && t.page * 65536 ≤ va && va < (t.page + t.pages) * 65536

/-- The TLB entry of a leaf. -/
def tlbOf (at_ : TlbAt) (key : BitVec 8) (va : Nat) (e : DWord) (lv : Nat) : TlbEntry :=
  let n := 2 ^ (levelBits lv - 16)
  { holder := at_, key := key, page := va / 65536 / n * n, pages := n, level := lv, entry := e }

/-- The TLBs that serve a master, nearest first: a core's and its die's, a base die's for its ports, or the die's shared one
(R102). R102 names none for an agent of the I/O die, a collective engine or an arriving chunk: it takes the shared one of compute die 0
(DESIGN CHOICE, log 70). -/
def tlbPath (master die : Nat) : List TlbAt :=
  if master < 1536 then [.core master, .die die]
  else if 2112 ≤ master && master < 2144 then [.base (master - 2112)]
  else [.die die]

/-- Entries that a TLB holds (R102). -/
def TlbAt.room : TlbAt → Nat
  | .core _ => 512
  | .die _ => 8192
  | .base _ => 1024

/-- Put an entry into its TLB; where the TLB is full, one of its entries, a free choice, makes way. -/
def State.fillTlb (s : State) (t : TlbEntry) : State :=
  let mine := s.tlb.filter fun x => x.holder == t.holder
  if mine.length < t.holder.room then { s with tlb := s.tlb ++ [t] }
  else match mine[(Config.word s.choices).toNat % mine.length]? with
    | some v => { s with choices := s.choices + 1, tlb := s.tlb.erase v ++ [t] }
    | none => s

/-- Choose among a fresh result and the stale entries that a TLB still holds, one free choice for each (R102; log 8). -/
def chooseStale (fresh : Except (BitVec 8) (DWord × Nat)) : List TlbEntry → Nat → Except (BitVec 8) (DWord × Nat) × Nat
  | [], c => (fresh, c)
  | t :: r, c => if Config.bit c then (.ok (t.entry, t.level), c + 1) else chooseStale fresh r (c + 1)

/-- The walk's outcome is the TLB entry's. -/
def sameLeaf (r : Except (BitVec 8) (DWord × Nat)) (t : TlbEntry) : Bool :=
  match r with
  | .ok (e, lv) => e == t.entry && lv == t.level
  | .error _ => false

/-- The leaf of an access is put into those TLBs of its path that lack it. -/
def State.fillPath (s : State) (key : BitVec 8) (va : Nat) (e : DWord) (lv : Nat) (path : List TlbAt) : State :=
  path.foldl (fun t a => if t.tlb.contains (tlbOf a key va e lv) then t else t.fillTlb (tlbOf a key va e lv)) s

/-- Translate a virtual address of a context slot for a master, with the TLBs (R98-R102, R391). The die's walkers count a walk
when no TLB on the master's path holds the leaf, also where the leaf then gives a fault. The access asks for `n` bytes, none where an L1
copy serves it. -/
def State.translate (s : State) (slot : Fin 8) (master die : Nat) (need : Need) (va : DWord) (n : Nat := 1) :
    State × Except (BitVec 8) Place :=
  match s.ctxs[slot] with
  | none => (s, .error 0x04)
  | some c =>
    if va.toNat / 2 ^ 55 != 0 then (s, .error 0x04)
    else
      let w := walk s c.ptRoot va.toNat
      let held := s.tlb.filter fun t => t.covers c.key va.toNat
      let stale := held.filter fun t => !sameLeaf w.2 t
      let picked := chooseStale w.2 stale w.1.choices
      let s1 := { w.1 with choices := if s.accessNew.isSome then picked.2 + 1 else picked.2 }
      match picked.1 with
      | .error x => (s1.dieEvent die 2, .error x)
      | .ok (e, lv) =>
        let path := tlbPath master die
        let s2 := if path.any fun a => held.contains (tlbOf a c.key va.toNat e lv) then s1 else s1.dieEvent die 2
        match s2.checkLeaf c.key master need va.toNat e lv n with
        | .error x => (s2, .error x)
        | .ok p => (s2.fillPath c.key va.toNat e lv path, .ok p)

/-- A request to the place fails as link-failed: it gets no answer, its CXL page or port is unavailable, or no link leads to its
module, or the peer refuses it (R394-R396). Uses one free choice for a peer. Only a request without an answer may have been
performed. -/
def State.linkFails (s : State) (p : Place) : Bool × State :=
  if p.lost || p.refused then (true, s)
  else if p.tier = 1 then
    match capPortOf p.pa with
    | some q => let x := s.cxl[q]; (x.down || x.unavailable || x.pages.contains (p.pa / 65536), s)
    | none => (true, s)
  else if p.tier = 2 then
    match Config.route (Fin.ofNat 16384 p.module) with
    | none => (true, s)
    | some l => if s.loam[l].state == 2 then (Config.peerRefuses p.key s.choices, { s with choices := s.choices + 1 }) else (true, s)
  else (false, s)

/-- One request that leaves the core for a place. Whether a line of a stack is in its home L2 is a free choice, since the L2's contents
are not architectural; a read that misses there goes on to the MSC, and every write does (R18, R20, R95, R345; log 7). -/
def State.request (s : State) (p : Place) (write : Bool := false) : State :=
  if p.tier = 1 then s.countPage p
  else if p.tier = 0 then
    let s1 := { s with choices := s.choices + 1 }
    let miss := Config.bit s.choices
    (s1.dieEvent (p.pa / 2 ^ 37 / 4) 1 miss.toNat).mscAccess p (miss || write)
  else s

/-- A CXL port, changed. -/
def State.modCxl (s : State) (q : Fin 8) (f : CxlPort → CxlPort) : State := { s with cxl := s.cxl.set q (f s.cxl[q]) }

/-- A page becomes unavailable, or its port where the port's 256 entries are full (R395). -/
def State.losePage (s : State) (q : Fin 8) (page : Nat) : State :=
  if 256 ≤ (s.cxl[q]).pages.length then (s.modCxl q fun x => { x with unavailable := true }).memerr 6 q.val
  else (s.modCxl q fun x => { x with pages := x.pages ++ [page] }).memerr 5 (page * 65536)

/-- A request that ends in the step that makes it may have timed out: a free choice for each one that travels on a link and that the
link does not fail at once (R394, R396; log 47). A timed-out request of the capacity tier loses its page. -/
def State.ask (s : State) (p : Place) : Place × State :=
  if p.tier = 0 || 3 ≤ p.tier || (s.linkFails p).1 then (p, s)
  else
    let s1 := { s with choices := s.choices + 1 }
    if Config.bit s.choices then
      ({ p with lost := true }, match (if p.tier = 1 then capPortOf p.pa else none) with
        | some q => s1.losePage q (p.pa / 65536)
        | none => s1)
    else (p, s1)

/-- Bytes read from a place at its coherence point. What a peer's memory holds is a free choice between what this module last
wrote there and other bytes (R336; log 13). -/
def State.readPlace (s : State) (p : Place) (n : Nat) : List Byte × State :=
  if p.tier = 2 then
    (if Config.bit s.choices then s.bytesAt p.loc n else (List.range n).map (Config.byteAt s.choices),
      { s with choices := s.choices + 1 })
  else (s.bytesAt p.loc n, s)

end Sys2Proof.Machine
end

