-- ==== Sys2Proof/Machine/Mesh.lean ====
section
/-! DEFINITION. The mesh of a die, its fence and live lines, the fence state table and holds (spec/24_fencing.md R426-R430, R438;
spec/26_prog_scan_test.md R446). -/

namespace Sys2Proof.Machine

/-! ## The mesh (R16, R426) -/

def dirs : List Dir := [.n, .e, .s, .w]

def dirIx : Dir → Fin 4
  | .n => 0
  | .e => 1
  | .s => 2
  | .w => 3

def dirFlip : Dir → Dir
  | .n => .s
  | .e => .w
  | .s => .n
  | .w => .e

/-- The neighbour of a core in a direction. -/
def neighbour (c : Nat) (d : Dir) : Option Nat :=
  let x := c % 192 % 16
  let y := c % 192 / 16
  match d with
  | .n => if y = 0 then none else some (c - 16)
  | .e => if x = 15 then none else some (c + 1)
  | .s => if y = 11 then none else some (c + 16)
  | .w => if x = 0 then none else some (c - 1)

/-- The neighbours of a core, in the order N, E, S, W. -/
def neighbours (c : Nat) : List (Dir × Nat) := dirs.filterMap fun d => (neighbour c d).map fun x => (d, x)

/-- The number with bit d set for each direction that satisfies a test. -/
def dirBits (f : Dir → Bool) : Nat := (dirs.map fun d => if f d then 2 ^ (dirIx d).val else 0).foldl (· + ·) 0

/-! ## Lines (R426, R429, R430) -/

/-- The core drives its live lines. -/
def CoreState.live : CoreState → Bool
  | .inService | .appealing => true
  | .fenced | .removed => false

def State.isLive (s : State) (c : Nat) : Bool := (s.coreFence c).state.live

/-- A core may hold votes: one that is fenced, removed or appealing, or held, holds none (R429, R446). -/
def CoreFence.mayVote (f : CoreFence) : Bool := f.state == .inService && f.holder.isNone

/-- Core `c` holds a vote against its neighbour in a direction. -/
def State.votesAgainst (s : State) (c : Nat) (d : Dir) : Bool :=
  let f := s.coreFence c
  f.mayVote && (f.watch[dirIx d]).vote != .none

/-- A watch without a vote, and a core that holds none. -/
def Watch.unvoted (w : Watch) : Watch := { w with vote := .none, left := 0, soleFor := 0 }
def CoreFence.unvoted (f : CoreFence) : CoreFence := { f with watch := Vector.ofFn fun i => (f.watch[i]).unvoted }

/-- The live neighbours of a core. -/
def State.liveNeighbours (s : State) (c : Nat) : List (Dir × Nat) := (neighbours c).filter fun x => s.isLive x.2

/-- The neighbours whose fence lines to the core are asserted. -/
def State.voters (s : State) (c : Nat) : List (Dir × Nat) := (neighbours c).filter fun x => s.votesAgainst x.2 (dirFlip x.1)

/-- The majority gate of a core (R430). -/
def State.majority (s : State) (c : Nat) : Bool :=
  let n := (s.liveNeighbours c).length
  s.isLive c && 2 ≤ n && n / 2 + 1 ≤ (s.voters c).length

/-! ## The fence state table (R438) -/

/-- 86,400 s of gtime. -/
def fenceSpan : Nat := 86400 * 10 ^ 9

/-- Fences by vote within the last 86,400 s. -/
def State.recentFences (s : State) (f : CoreFence) : Nat := (f.fences.filter fun t => s.gtime.toNat < t + fenceSpan).length

def stateCode : CoreState → Nat
  | .inService => 0
  | .fenced => 1
  | .appealing => 2
  | .removed => 3

def voteCode : VoteKind → Nat
  | .none => 0
  | .silent => 1
  | .babble => 2

/-- What the neighbour in a direction holds about the core. -/
def State.seenBy (s : State) (c : Nat) (d : Dir) : Option Watch :=
  (neighbour c d).map fun x => (s.coreFence x).watch[dirIx (dirFlip d)]

/-- The 16 bytes of a core's entry. -/
def State.fenceEntry (s : State) (c : Nat) : List Byte :=
  let f := s.coreFence c
  let live := dirBits fun d => (neighbour c d).elim false s.isLive
  let votes := dirBits fun d => (neighbour c d).elim false fun x => s.votesAgainst x (dirFlip d)
  let accept := dirBits fun d => (s.seenBy c d).elim false (·.accepts)
  let w0 := stateCode f.state * 2 ^ 30 + min 3 (s.recentFences f) * 2 ^ 28 + live * 2 ^ 24 + votes * 2 ^ 20 + accept * 2 ^ 16 + c
  let own (d : Dir) : Nat :=
    let w := f.watch[dirIx d]
    (if s.votesAgainst c d then 128 else 0) + voteCode w.vote * 32 + w.left
  leBytes 4 w0 ++ dirs.map (fun d => BitVec.ofNat 8 (own d)) ++ leBytes 8 f.changed

/-- Rewrite the entries of a core and of its neighbours. -/
def State.writeFence (s : State) (c : Nat) : State :=
  { s with mem := (c :: (neighbours c).map (·.2)).foldl (fun m x => m.write (mgmtBase + 0x30000 + 16 * x) (s.fenceEntry x)) s.mem }

/-- Change what the module holds about a core, and rewrite the table. -/
def State.modFence (s : State) (c : Nat) (f : CoreFence → CoreFence) : State :=
  ({ s with cores := tset s.cores c (f (s.coreFence c)) }).writeFence c

/-- Raise a management alert (R332). -/
def State.alert (s : State) : State := { s with msix := s.msix ++ [3] }

/-- The digest in a fence entry: the one that the lowest-numbered live neighbour received last (R438). -/
def State.entryDigest (s : State) (c : Nat) : DWord :=
  match s.liveNeighbours c with
  | [] => 0
  | x :: r =>
    let low := r.foldl (fun a b => if b.2 < a.2 then b else a) x
    ((s.coreFence low.2).watch[dirIx (dirFlip low.1)]).digest

/-- Append a fence entry (R438). -/
def State.fenceLog (s : State) (c kind : Nat) (result : BitVec 8 := 0) : State :=
  s.journalAdd 0x83 (BitVec.ofNat 24 (kind * 2 ^ 16 + c)) result (s.entryDigest c)

/-! ## Holds (R446) -/

/-- The watch on a neighbour begins anew. -/
def Watch.restart (clk : Nat) (w : Watch) : Watch := { w with miss := 0, since := clk, lastSeq := none }

/-- Each neighbour of a core applies `f` to what it holds about it. -/
def State.eachWatch (s : State) (c : Nat) (f : Watch → Watch) : State :=
  (neighbours c).foldl (fun t x => t.modFence x.2 fun g => { g with watch := g.watch.set (dirIx (dirFlip x.1)) (f g.watch[dirIx (dirFlip x.1)]) }) s

/-- Core clocks of the die of a core. -/
def State.clkOf (s : State) (c : Nat) : Nat := (s.dieClk[dieOfCore c]?).getD 0 / 160

/-- The hold on a core ends. -/
def State.endHold (s : State) (c : Nat) : State :=
  if (s.coreFence c).holder.isNone then s
  else (s.modFence c fun f => { f with holder := none, matched := 0 }).eachWatch c (Watch.restart (s.clkOf c))

/-- Every hold of a block ends (R446). -/
def State.endHoldsOf (s : State) (bid : Nat) : State :=
  (s.cores.filter fun x => x.2.holder == some bid).foldl (fun t x => t.endHold x.1) s

end Sys2Proof.Machine
end

