-- ==== Sys2Proof/Machine/Lines.lean ====
section
/-! DEFINITION. The private-cache region of a part: lines, replacement, write-back, and single accesses of each space at their
coherence points (spec/04_memory.md R85-R95, spec/05_ordering.md R114, spec/21_memory_faults.md R387-R398). -/

namespace Sys2Proof.Machine

/-! ## Pending errors and cores -/

/-- Leave an error pending in a warp, unless its work is being discarded (R368, R417). -/
def State.addErr (s : State) (wid : Nat) (e : PendErr) : State :=
  s.modWarp wid fun w => if w.ended || w.stopped then w else { w with errs := w.errs ++ [e] }

/-- The core answers requests (R433). -/
def State.coreUp (s : State) (c : Nat) : Bool := (s.coreFence c).state == .inService

/-- A place of the .c space on another core (R92, R433): tier 3, pa 1 and the core in `module`. -/
def Place.isClu (p : Place) : Bool := p.tier == 3 && p.pa == 1

/-- An on-chip place. -/
def onchipPlace (loc : Nat) : Place := { loc := loc, pa := 0, tier := 3, module := 0, ce := false, mig := false }

/-! ## Lines -/

/-- The set of a line in a part's region (R90). -/
def lineSet (p : Part) (line : Nat) : Nat := if p.sets = 0 then 0 else line % 128 % p.sets

/-- The line of an owner, none for a global copy. -/
def findLine (p : Part) (line : Nat) (owner : Option Nat) : Option L1Line :=
  p.l1.find? fun l => l.line == line && l.owner == owner

/-- Apply `f` to one line; the line becomes the most recently used. -/
def useLine (p : Part) (line : Nat) (owner : Option Nat) (f : L1Line → L1Line) : Part :=
  match findLine p line owner with
  | none => p
  | some l => { p with l1 := f l :: p.l1.filter fun x => !(x.line == line && x.owner == owner) }

/-- Apply `f` to one line in place. -/
def modLine (p : Part) (line : Nat) (owner : Option Nat) (f : L1Line → L1Line) : Part :=
  { p with l1 := p.l1.map fun x => if x.line == line && x.owner == owner then f x else x }

/-- The part without one line. -/
def dropLine (p : Part) (line : Nat) (owner : Option Nat) : Part :=
  { p with l1 := p.l1.filter fun x => !(x.line == line && x.owner == owner) }

/-- Bytes of a list replaced from an offset on. -/
def splice (old : List Byte) (off : Nat) (new : List Byte) : List Byte :=
  old.take off ++ new ++ old.drop (off + new.length)

/-- The place of the first byte of the 128-byte line of an address. -/
def linePlace (p : Place) (addr : Nat) : Place := { p with loc := p.loc - addr % 128, pa := p.pa - addr % 128 }

/-- Write 8-byte units of a line each or not, as a link-failed response leaves it (R125, R398). -/
def State.storeSome (s : State) (choice loc : Nat) : Nat → List Byte → State
  | _, [] => s
  | i, b :: r => (if Config.bitAt choice (i / 8) then s.putByte loc b else s).storeSome choice (loc + 1) (i + 1) r

/-- Bytes written over a link that gave no answer: each 8-byte unit is written or not (R125, R394). A request that was refused, or that
failed at once, writes nothing (R336, R395). -/
def State.storeLost (s : State) (p : Place) (bs : List Byte) : State :=
  if p.lost then ({ s with choices := s.choices + 1 }).storeSome s.choices p.loc (p.loc % 8) bs else s

/-- What becomes of a write-back (R90, R104, R125, R398): it is over, with what the line's home then holds, it is not performed, with the
cause, or its page migrates. -/
inductive Back where
  | done (home : List Byte)
  | fails (cause : BitVec 8)
  | stalls (p : Place)
  deriving DecidableEq, Repr

/-- The cause that a write-back which is not performed has: 0x04 or 0x05. A page that is marked lost grants no write-back, and one under
an unreadable table word is no longer granted either (R125, R382, R398; log 62). -/
def backCause (c : BitVec 8) : BitVec 8 := if c = 0x0B then 0x05 else c

/-- A line that holds words which cannot be corrected poisons the block that it is written to (R389). -/
def State.poisonLine (s : State) (p : Place) (badWords : List Nat) : State :=
  if badWords.isEmpty || p.tier = 2 then s else s.poisonBlock 2 (p.loc / 512)

/-- The write-back of one dirty private line: performed, over by a link-failed response, not performed with a cause, or stalled by a
migration (R90, R104, R125, R387, R389, R398). The caller decides what becomes of the line. -/
def State.writeBack (s : State) (wid : Nat) (l : L1Line) : State × Back :=
  match tget s.warps wid with
  | none => (s, .done l.data)
  | some w =>
    let core := s.coreOf w
    let va : DWord := BitVec.ofNat 64 (l.line * 128)
    match s.translate w.slot core (dieOfCore core) .w va with
    | (s1, .error c) => (s1, .fails (backCause c))
    | (s1, .ok p0) =>
      if p0.mig && p0.tier ≤ 1 then (s1, .stalls p0)
      else
        let a := s1.ask p0
        let s2 := a.2.request a.1 true
        match s2.linkFails a.1 with
        | (true, s3) =>
          let gone := l.badWords.filter fun k => a.1.lost && Config.bitAt s3.choices (k / 2)
          let s4 := (s3.storeLost a.1 l.data).poisonLine a.1 gone
          (s4.addErr wid { trap := { code := 0x0C, value := va }, op := none, regs := [], tile := none, copy := none },
            .done (s4.bytesAt a.1.loc 128))
        | (false, s3) => ((s3.store a.1.loc l.data).poisonLine a.1 l.badWords, .done l.data)

/-- A line that has been written back, with what its home then holds. -/
def cleaned (home : List Byte) (x : L1Line) : L1Line := { x with dirty := false, home := home, held := none }

/-- A write that is no operation of a warp waits for the end of the migration of its page (R104, R124). -/
def State.stallWrite (s : State) (who : Requester) (p : Place) (data : List Byte) (badWords : List Nat := []) : State :=
  match s.migration with
  | some m => { s with migration := some { m with stalled := m.stalled ++ [⟨who, p.pa, data.length, .write data, badWords⟩] } }
  | none => (s.store p.loc data).poisonLine p badWords

/-- Write back one dirty line of a part, charged to no instruction: the line becomes clean, or held with the cause; one that a migration
stalls leaves the L1, and the warp's accesses to it wait (R104, R124). A held line is left as it is (R203, R398). -/
def State.cleanLine (s : State) (pid : Nat) (l : L1Line) : State :=
  match l.owner with
  | none => s
  | some wid =>
    if !l.dirty || l.held.isSome then s
    else
      match s.writeBack wid l with
      | (s1, .done home) => s1.modPart pid fun p => modLine p l.line l.owner (cleaned home)
      | (s1, .stalls q) => (s1.stallWrite (.warp wid) q l.data l.badWords).modPart pid fun p => dropLine p l.line l.owner
      | (s1, .fails c) => s1.modPart pid fun p =>
          { modLine p l.line l.owner (fun x =>
              if x.held.isSome then x else { x with held := some (c, p.heldCount) }) with heldCount := p.heldCount + 1 }

/-- Make a way free in a set: replace the least recently used line that is not held, writing it back first (R90, R398). -/
def State.makeRoom (s : State) (pid set : Nat) : Nat → State × Bool
  | 0 => (s, false)
  | n + 1 =>
    match tget s.parts pid with
    | none => (s, false)
    | some p =>
      if p.sets = 0 then (s, false)
      else
        let ways := p.l1.filter fun l => lineSet p l.line == set
        if ways.length < 4 then (s, true)
        else
          match (ways.filter fun l => l.held.isNone).getLast? with
          | none => (s, false)
          | some v =>
            if !v.dirty then (s.modPart pid fun q => dropLine q v.line v.owner, true)
            else
              let s1 := s.cleanLine pid v
              match (tget s1.parts pid).bind fun q => findLine q v.line v.owner with
              | some x => if x.dirty then s1.makeRoom pid set n else (s1.modPart pid fun q => dropLine q v.line v.owner, true)
              | none => (s1, true)

/-- Place a line in the part's region where a way is free. -/
def State.placeLine (s : State) (pid : Nat) (l : L1Line) : State × Bool :=
  match tget s.parts pid with
  | none => (s, false)
  | some p =>
    match s.makeRoom pid (lineSet p l.line) 5 with
    | (s1, true) => (s1.modPart pid fun q => { q with l1 := l :: q.l1 }, true)
    | (s1, false) => (s1, false)

/-- Discard the part's L1 copies of global lines (R94, R111). -/
def State.discardGlobal (s : State) (pid : Nat) : State :=
  s.modPart pid fun p => { p with l1 := p.l1.filter fun l => l.owner.isSome }

/-- A write-back of the warp waits for the end of a migration (R104, R111). -/
def State.backStalled (s : State) (wid : Nat) : Bool :=
  s.migration.elim false fun m => m.stalled.any fun x => x.who == .warp wid

/-- How the write-back before a release ends: all lines are written, one is not performed, with its cause and address, or one waits for
the end of a migration. -/
inductive Flushed where
  | done
  | fails (cause : BitVec 8) (va : Nat)
  | stalls
  deriving DecidableEq, Repr

/-- Write back every dirty private line of a warp before a release, up to the first that is not performed or that has to wait
(R104, R111, R125). -/
def State.releaseLines (s : State) (pid wid : Nat) : List L1Line → State × Flushed
  | [] => (s, .done)
  | l :: r =>
    if l.owner == some wid && l.dirty then
      match s.writeBack wid l with
      | (s1, .done home) => (s1.modPart pid fun p => modLine p l.line l.owner (cleaned home)).releaseLines pid wid r
      | (s1, .stalls _) => (s1, .stalls)
      | (s1, .fails c) => (s1, .fails c (l.line * 128))
    else s.releaseLines pid wid r

/-! ## Single accesses -/

/-- What one access met: data, data that cannot be corrected, a link-failed response, or a fenced core. -/
inductive Got where
  | bytes (bs : List Byte)
  | dead
  | link
  | fenced (core : Nat)
  deriving DecidableEq, Repr

/-- A read of an on-chip place at its coherence point (R114, R388, R433). -/
def State.readOnchip (s : State) (a : Acc) : Got × State :=
  if a.place.isClu && !s.coreUp a.place.module then (.fenced a.place.module, s)
  else if s.badIn a.place.loc a.n then (.dead, s.meet a.place.loc a.n)
  else (.bytes (s.bytesAt a.place.loc a.n), s)

/-- What a request for bytes finds at the coherence point. -/
def State.readAt (s : State) (p : Place) (n : Nat) : Got × State :=
  match s.linkFails p with
  | (true, s2) => (.link, s2)
  | (false, s2) =>
    if s2.unreadable p.loc n then (.dead, s2.meet p.loc n)
    else let r := s2.readPlace p n; (.bytes r.1, r.2)

/-- A read of memory at its coherence point, past every L1. -/
def State.readMem (s : State) (p : Place) (n : Nat) : Got × State := (s.request p).readAt p n

/-- What one write met: performed, data under it that cannot be corrected, a link-failed response, or a fenced core. -/
inductive Put where
  | done
  | dead
  | link
  | fenced (core : Nat)
  deriving DecidableEq, Repr

/-- What a request that brings bytes does at the coherence point. When no answer comes, it may or may not have been performed
(R394). -/
def State.writeAt (s : State) (p : Place) (bs : List Byte) : Put × State :=
  match s.linkFails p with
  | (true, s2) => (.link, s2.storeLost p bs)
  | (false, s2) => (.done, s2.store p.loc bs)

/-- A write to memory at its coherence point. -/
def State.writeMem (s : State) (p : Place) (bs : List Byte) : Put × State := (s.request p true).writeAt p bs

/-- A request of an agent of the I/O die, which reaches the MSC, a CXL port or a link directly, past every L2 (R18, R20, R103). -/
def State.ioRequest (s : State) (p : Place) : State :=
  if p.tier = 0 then s.mscAccess p else if p.tier = 1 then s.countPage p else s

/-- A read by an agent of the I/O die. -/
def State.ioRead (s : State) (p : Place) (n : Nat) : Got × State :=
  let a := s.ask p
  (a.2.ioRequest p).readAt a.1 n

/-- A write by an agent of the I/O die. -/
def State.ioWrite (s : State) (p : Place) (bs : List Byte) : Put × State :=
  let a := s.ask p
  (a.2.ioRequest p).writeAt a.1 bs

/-- Words of a line that a range of it meets and that cannot be corrected. -/
def lineWordsBad (l : L1Line) (off n : Nat) : List Nat := l.badWords.filter fun k => 4 * k < off + n && off < 4 * k + 4

/-- An L1 line of the part serves a warp's read of `n` bytes of memory: a private line of the warp, or a copy of a global one, without
words that cannot be corrected unless it is the only copy (R94, R114, R387). -/
def Part.serves (p : Part) (sp : Space) (wid addr n : Nat) : Bool :=
  let line := addr / 128
  let clean (l : L1Line) : Bool := (lineWordsBad l (addr % 128) n).isEmpty
  match sp with
  | .p => (findLine p line (some wid)).any fun l => l.dirty || clean l
  | .g => (findLine p line none).any clean
  | _ => false

/-- A read meets uncorrectable words of a line, which are reported once each (R390). -/
def State.meetLine (s : State) (pid core : Nat) (l : L1Line) (ks : List Nat) : State :=
  ks.foldl (fun t k => if l.told.contains k then t else
    (t.memerrWord core).modPart pid fun p => modLine p l.line l.owner fun x => { x with told := x.told ++ [k] }) s

/-- A line of memory as it enters an L1. -/
def newLine (line : Nat) (data home : List Byte) (dirty : Bool) (owner : Option Nat) : L1Line :=
  { line := line, data := data, home := home, badWords := [], told := [], dirty := dirty, owner := owner, held := none }

/-- The bytes of a line from an offset on. -/
def L1Line.slice (l : L1Line) (off n : Nat) : List Byte := (l.data.drop off).take n

/-- A global load by a warp of the part: an L1 copy's value, or the coherence point's, after which a copy may be placed. A copy whose
word cannot be corrected is discarded and refilled (R94, R114, R387; log 7). A private line of the same address is no L1 copy for
it: the .g access goes to the coherence point (DESIGN CHOICE, log 7). -/
def State.readGlobal (s : State) (pid core : Nat) (a : Acc) : Got × State :=
  let line := a.addr / 128
  let off := a.addr % 128
  let found := (tget s.parts pid).bind fun p => findLine p line none
  match found.filter fun l => (lineWordsBad l off a.n).isEmpty with
  | some l => (.bytes (l.slice off a.n), s.modPart pid fun p => useLine p line none id)
  | none =>
    let s00 := found.elim s fun l => s.meetLine pid core l (lineWordsBad l off a.n)
    let s0 := (s00.modPart pid fun p => dropLine p line none).coreEvent core 3
    match s0.readMem a.place a.n with
    | (.bytes bs, s1) =>
      let lp := linePlace a.place a.addr
      let s2 := { s1 with choices := s1.choices + 1 }
      if Config.bit s1.choices && !s2.unreadable lp.loc 128 then
        let r := s2.readPlace lp 128
        let data := splice r.1 off bs
        (.bytes bs, (r.2.placeLine pid (newLine line data data false none)).1)
      else (.bytes bs, s2)
    | r => r

/-- The words of a line that a write of `n` bytes from an offset on replaces whole: they have good check bits again (R390). -/
def wholeWord (off n k : Nat) : Bool := off ≤ 4 * k && 4 * k + 4 ≤ off + n

/-- A line with bytes written. -/
def L1Line.written (l : L1Line) (off : Nat) (bs : List Byte) : L1Line :=
  { l with data := splice l.data off bs, badWords := l.badWords.filter fun k => !wholeWord off bs.length k,
           told := l.told.filter fun k => !wholeWord off bs.length k }

/-- A global store by a warp of the part: written through, and an L1 copy of the part updated when it is performed
(R94, R114, R390). The store is no use of the copy for its replacement (DESIGN CHOICE, log 7). -/
def State.writeGlobal (s : State) (pid : Nat) (a : Acc) (bs : List Byte) : Put × State :=
  match s.writeMem a.place bs with
  | (.done, s1) => (.done, s1.modPart pid fun p => modLine p (a.addr / 128) none fun l =>
      l.written (a.addr % 128) bs)
  | r => r

/-- A private load that its line does not serve: the line is filled (R90, R398). -/
def State.missPriv (s : State) (pid wid core : Nat) (a : Acc) : Got × State :=
  match (s.coreEvent core 3).readMem a.place a.n with
  | (.bytes bs, s1) =>
    let lp := linePlace a.place a.addr
    if s1.unreadable lp.loc 128 then (.bytes bs, s1)
    else
      let data := splice (s1.bytesAt lp.loc 128) (a.addr % 128) bs
      (.bytes bs, (s1.placeLine pid (newLine (a.addr / 128) data data false (some wid))).1)
  | r => r

/-- The value of a private load that its line serves. Where another agent has written the bytes at their home since the line was
filled or written back, the thread gets the old bytes or the new ones, a free choice (R91). It never gets new bytes of a block that
cannot be read (R389), nor new bytes from a peer: what a peer's memory holds is not kept here, so of the two the model takes the
cached bytes (DESIGN CHOICE, log 13). -/
def State.hitPriv (s : State) (l : L1Line) (a : Acc) : List Byte × State :=
  let off := a.addr % 128
  let mine := l.slice off a.n
  let was := (l.home.drop off).take a.n
  let now := s.bytesAt a.place.loc a.n
  if a.place.tier = 2 || was = now || s.unreadable a.place.loc a.n then (mine, s)
  else (if Config.bit s.choices then (now.zip (was.zip mine)).map fun x => if x.1 = x.2.1 then x.2.2 else x.1 else mine,
    { s with choices := s.choices + 1 })

/-- A private load (R90, R91, R398). A clean line whose word cannot be corrected is discarded and refilled; a dirty one is consumed
(R387, R388). -/
def State.readPriv (s : State) (pid wid core : Nat) (a : Acc) : Got × State :=
  let line := a.addr / 128
  match (tget s.parts pid).bind fun p => findLine p line (some wid) with
  | some l =>
    let ks := lineWordsBad l (a.addr % 128) a.n
    if ks.isEmpty then
      let r := s.hitPriv l a
      (.bytes r.1, r.2.modPart pid fun p => useLine p line (some wid) id)
    else if l.dirty then (.dead, s.meetLine pid core l ks)
    else ((s.meetLine pid core l ks).modPart pid fun p => dropLine p line (some wid)).missPriv pid wid core a
  | none => s.missPriv pid wid core a

/-- A private store without its line in the L1: write-allocate, or written through where no way can be allocated (R90, R398). -/
def State.allocPriv (s : State) (pid wid core : Nat) (a : Acc) (bs : List Byte) : Put × State :=
  let lp := linePlace a.place a.addr
  let s0 := (s.coreEvent core 3).request lp
  match s0.linkFails lp with
  | (true, s1) => (.link, s1)
  | (false, s1) =>
    if s1.unreadable lp.loc 128 then s1.writeMem a.place bs
    else
      let home := s1.bytesAt lp.loc 128
      match s1.placeLine pid (newLine (a.addr / 128) (splice home (a.addr % 128) bs) home true (some wid)) with
      | (s2, true) => (.done, s2)
      | (s2, false) => s2.writeMem a.place bs

/-- A private store. A store of part of a word that cannot be corrected writes nothing where the line is dirty, and has the line
refilled where it is clean (R387, R388). -/
def State.writePriv (s : State) (pid wid core : Nat) (a : Acc) (bs : List Byte) : Put × State :=
  let line := a.addr / 128
  let off := a.addr % 128
  match (tget s.parts pid).bind fun p => findLine p line (some wid) with
  | some l =>
    let ks := lineWordsBad l off a.n
    if ks.all (wholeWord off bs.length) then
      (.done, s.modPart pid fun p => useLine p line (some wid) fun x => { x.written off bs with dirty := true })
    else if l.dirty then (.dead, s.meetLine pid core l ks)
    else ((s.meetLine pid core l ks).modPart pid fun p => dropLine p line (some wid)).allocPriv pid wid core a bs
  | none => s.allocPriv pid wid core a bs

/-- A write of part of an on-chip word that cannot be corrected (R388). -/
def State.partialBad (s : State) (loc n : Nat) : Bool := n < 4 && physTop ≤ loc && s.badIn loc n

/-- An on-chip write (R87, R388, R433). -/
def State.writeOnchip (s : State) (a : Acc) (bs : List Byte) : Put × State :=
  if a.place.isClu && !s.coreUp a.place.module then (.fenced a.place.module, s)
  else if s.partialBad a.place.loc bs.length then (.dead, s.meet a.place.loc bs.length)
  else (.done, s.store a.place.loc bs)

end Sys2Proof.Machine
end

