-- ==== Sys2Proof/Machine/Work.lean ====
section
/-! DEFINITION. Final statuses of nodes, the stopping of work, and the abandonment of fault domains
(spec/13_scheduling.md R320, R325; spec/19_fault_model.md R373; spec/23_work_faults.md R415-R420). -/

namespace Sys2Proof.Machine

/-- Where a virtual address of a context lies, by a walk of its own, with what the walk finds; none when it does not translate. The
device's own accesses cache no translation: before an INVALIDATE has completed, R102 leaves each access the old or the new one, and they
use the new one (DESIGN CHOICE, log 71). -/
def State.ctxWalk (s : State) (slot : Fin 8) (va : Nat) : State × Option Place :=
  match s.ctxs[slot] with
  | none => (s, none)
  | some c =>
    if va / 2 ^ 55 != 0 then (s, none)
    else match walk s c.ptRoot va with
      | (s1, .error _) => (s1, none)
      | (s1, .ok (e, lv)) => (s1, if leafFaults e lv va then none else some (leafPlace e lv va))

/-- The place alone. -/
def State.ctxPlace (s : State) (slot : Fin 8) (va : Nat) : Option Place := (s.ctxWalk slot va).2

/-- An agent of the module may make a request for the place: it lies outside the management area, and where the agent has a master
identifier its entry admits it (R339, R340; log 48). -/
def State.mayTouch (s : State) (master : Option Nat) (need : Need) (p : Place) : Bool :=
  !(p.tier == 0 && isMgmt p.pa) && master.elim true fun m => !s.refusesLocal m need p

/-- Write bytes at a virtual address of a context, as the device's own agents do. A page under migration stalls the write (R104). -/
def State.storeVa (s : State) (slot : Fin 8) (va : Nat) (bs : List Byte) (master : Option Nat := none) : State :=
  match s.ctxWalk slot va with
  | (s1, some p) =>
    if !s1.mayTouch master .w p then s1
    else if p.mig && p.tier ≤ 1 then s1.stallWrite .module p bs
    else (s1.ioWrite p bs).2
  | (s1, none) => s1

/-- A page of `n` bytes is under a migration, which stalls a write there (R104). What must not be seen before such a write waits
(R119, R120). -/
def State.pageMoves (s : State) (slot : Fin 8) (va n : Nat) : Bool :=
  [va, va + n - 1].any fun a => (s.ctxPlace slot a).elim false fun p => p.mig && p.tier ≤ 1

/-- Read bytes at a virtual address of a context; none when it does not translate or cannot be corrected. -/
def State.loadVa (s : State) (slot : Fin 8) (va n : Nat) : Option Nat :=
  match s.ctxPlace slot va with
  | some p => if s.unreadable p.loc n then none else some (s.load p.loc n)
  | none => none

/-- The code of a status in an RCB (R320). -/
def statusCode : Status → Nat
  | .completed => 1
  | .abandoned => 2
  | .launcherr => 3

/-- Give a node its final status, once, and write its completion word. A sample-group node has no RCB (R52, R320, R415). -/
def State.setStatus (s : State) (nid : Nat) (st : Status) : State :=
  match tget s.nodes nid with
  | none => s
  | some n =>
    if n.status.isSome then s
    else
      let s1 := s.modNode nid fun x => { x with status := some st }
      if n.kind == .group then s1
      else s1.storeVa n.slot (n.addr.toNat + 0x30) (leBytes 8 (s.gtime.toNat % 2 ^ 56 * 256 + statusCode st))

/-! ## Stopping work (R417) -/

/-- Stop a copy: no further chunk starts, and no error will be delivered (R392). -/
def cancelCopy (c : Copy) : Copy := 
  if c.finished then c else { c with error := some (c.error.getD (0, { code := 0, value := 0 })), delivered := true }

/-- The slot that a part belongs to. -/
def State.slotOfPart (s : State) (pid : Nat) : Option (Fin 8) :=
  ((tget s.parts pid).bind fun p => tget s.blocks p.block).map (·.slot)

/-- Pairs pending on a die in a slot. -/
def State.pendingPairs (s : State) (slot : Fin 8) (die : Nat) : Nat :=
  ((s.bins.filter fun b => dieOfCore b.core == die && s.slotOfPart b.part == some slot).map fun b => b.args.length).foldl (· + ·) 0
    + ((s.released.filter fun r => r.die == die && r.slot == slot).map fun r => r.args.length).foldl (· + ·) 0

/-- The placement order of a die as its count of pairs sets it (R47). -/
def State.orderOf (s : State) (slot : Fin 8) (die : Fin 8) : State :=
  let n := s.pendingPairs slot die
  { s with newestFirst := s.newestFirst.set die (if 49152 ≤ n then true else if n < 32768 then false else s.newestFirst[die]) }

/-- The placement order of every die, once pairs of the running slot have been discarded or have moved (R47). -/
def State.reorder (s : State) (slot : Fin 8) : State :=
  if s.running = some slot then (List.finRange 8).foldl (fun t d => t.orderOf slot d) s else s

/-- Stop the warps, copies, pairs and waits of a block at the present instruction boundary (R417). -/
def State.stopBlock (s : State) (bid : Nat) : State :=
  match tget s.blocks bid with
  | none => s
  | some b =>
    let mine (wid : Nat) : Bool := (tget s.warps wid).elim false fun w => w.block == bid
    let s1 := s.endHoldsOf bid
    State.reorder (slot := b.slot) { s1.modBlock bid fun x => { x with stopping := true, barc := [] } with
      parts := tmap s1.parts fun x => if x.block = bid then { x with bar := [] } else x
      warps := tmap s1.warps fun x => if x.block = bid then
        { x with stopped := true, errs := [], wait := none, slice := x.slice.map fun sl => { sl with stopped := true } }
        else x
      copies := tmap s.copies fun x => if mine x.wid then cancelCopy x else x
      bins := s.bins.filter fun x => !b.parts.contains x.part
      released := s.released.filter fun x => !b.parts.contains x.part }

/-- Abort an instance that has not ended, as `dsig.abort` does (R235, R410). -/
def abortInst (i : Inst) : Inst := if i.state = .ended then i else { i with aborted := true }

/-- A member of a group that is not final becomes cancelled (R420). -/
def cancelMember (m : MemberState × Word) : MemberState × Word := if m.1 = .running then (.cancelled, m.2) else m

/-- Stop the work of one node: an unstarted node becomes ABANDONED at once, a started one or a running root is stopped
(R321, R373, R417). -/
def State.killNode (s : State) (nid : Nat) : State :=
  match tget s.nodes nid with
  | none => s
  | some n =>
    if n.status.isSome then s
    else if !n.started && !n.running then s.setStatus nid .abandoned
    else
      let s1 := s.modNode nid fun x => { x with killing := true, spoiled := true }
      let s2 := { s1 with
        insts := tmap s1.insts fun x => if x.node = nid then abortInst x else x
        groups := tmap s1.groups fun x =>
          if x.node = nid then { x with killed := true, members := x.members.map cancelMember } else x
        collectives := tmap s1.collectives fun x => if x.node = nid then { x with givenUp := true } else x }
      (s2.blocks.filter fun p => p.2.node = nid).foldl (fun t p => t.stopBlock p.1) s2

/-- Abandon a fault domain of a slot's context: every node of it that is no region and has no final status (R373). -/
def State.abandonDomain (s : State) (slot : Fin 8) (domain : BitVec 16) : State :=
  (s.nodes.filter fun p => p.2.slot = slot && p.2.eff.domain = domain && p.2.kind != .region).foldl
    (fun t p => t.killNode p.1) s

/-! ## Orphaned requests (R434) -/

/-- A block stands on a core that has been fenced or removed. -/
def State.standsDown (s : State) (b : Block) : Bool := b.parts.any fun p => (tget s.parts p).elim false fun q => !s.coreUp q.core

/-- A warp is resident, and its core has been fenced or removed. -/
def State.cutOff (s : State) (slot : Fin 8) (w : Warp) : Bool :=
  w.slot == slot && !s.coreUp (s.coreOf w) && (tget s.blocks w.block).elim false (·.resident)

/-- A core that has been fenced or removed still has requests in its neighbours' hands. -/
def State.hasOrphans (s : State) (slot : Fin 8) : Bool :=
  (s.warps.any fun w => s.cutOff slot w.2 && !w.2.ops.isEmpty)
    || s.copies.any fun c => !c.2.finished && (tget s.warps c.2.wid).elim false (s.cutOff slot)

/-- A block of the node's domain stands on a core that has been fenced or removed (R432). Such a block stays until every orphan of the
slot has been performed. -/
def State.hitByFence (s : State) (n : Node) : Bool :=
  s.blocks.any fun b => b.2.slot == n.slot && b.2.resident && s.standsDown b.2
    && (tget s.nodes b.2.node).elim false fun m => m.eff.domain == n.eff.domain

/-- A node that a fence has hit waits for every orphaned request before its status. -/
def State.awaitsOrphans (s : State) (n : Node) : Bool := s.hitByFence n && s.hasOrphans n.slot

/-! ## The tree (R48-R50, R325) -/

/-- A node and its ancestors, nearest first. -/
def State.lineage (s : State) : Nat → Nat → List Nat
  | 0, _ => []
  | f + 1, n => n :: ((tget s.nodes n).bind fun x => x.parent).elim [] (s.lineage f)

/-- A node and all its ancestors. -/
def State.ancestors (s : State) (n : Nat) : List Nat := s.lineage s.nodes.length n

/-- Node `n` lies in the subtree of `a`. -/
def State.under (s : State) (a n : Nat) : Bool := (s.ancestors n).contains a

/-- The children of a node, in link order. -/
def State.children (s : State) (n : Nat) : List (Nat × Node) := s.nodes.filter fun x => x.2.parent == some n

/-- A node's status by number. -/
def State.statusOf (s : State) (n : Nat) : Option Status := (tget s.nodes n).bind fun x => x.status

/-- Every dependency is COMPLETED. -/
def State.depsMet (s : State) (n : Node) : Bool := n.deps.all fun d => s.statusOf d == some .completed

/-- A dependency has failed, so the node is abandoned without starting (R325). -/
def State.depFailed (s : State) (n : Node) : Bool :=
  n.deps.any fun d => s.statusOf d == some .abandoned || s.statusOf d == some .launcherr

/-- A root, or a node whose parent is running. -/
def State.parentRuns (s : State) (n : Node) : Bool :=
  match n.parent with
  | none => true
  | some p => (tget s.nodes p).elim false fun x => x.started && x.status.isNone

/-- The node is ready and has not started (R325). -/
def State.isReady (s : State) (n : Node) : Bool := n.status.isNone && !n.started && s.parentRuns n && s.depsMet n

/-- The subtree of a node holds cores or array slabs (R50). -/
def State.holds (s : State) (nid : Nat) : Bool :=
  s.blocks.any (fun b => b.2.resident && s.under nid b.2.node)
    || s.insts.any fun i => i.2.state == .running && s.under nid i.2.node

/-- A node as `ns` nanoseconds pass: how long it has been ready, and how long it has held resources in its turn (R50, R325). -/
def State.ageNode (s : State) (ns nid : Nat) (n : Node) : Node :=
  if s.running != some n.slot || n.status.isSome then n
  else { n with readySince := if s.isReady n then some (n.readySince.getD s.gtime.toNat) else none,
                used := if s.holds nid then n.used + ns else n.used }

/-- The node of a warp's block. -/
def State.nodeOf (s : State) (w : Warp) : Option Node := (tget s.blocks w.block).bind fun b => tget s.nodes b.node

end Sys2Proof.Machine
end

