-- ==== Sys2Proof/Machine/Ops.lean ====
section
/-! DEFINITION. Taking a trap and returning from one, for every instruction and event that does so (spec/19_fault_model.md
R367-R377). The operations over registers and memory that stand before it are in Store, Translate, Lines and Work. -/

namespace Sys2Proof.Machine

/-! ## cr.status (R370) -/

def Warp.hnd (w : Warp) : Bool := w.status.getLsbD 0
def Warp.trapSlice (w : Warp) : Bool := w.status.getLsbD 2
def Warp.sres (w : Warp) : Bool := w.status.getLsbD 3

/-- cr.status in a handler: hnd set, imp and slice as the trap gives, sres equal to slice, died kept (R371). -/
def statusIn (old : BitVec 5) (imp slice : Bool) : BitVec 5 :=
  (old &&& 0x10) ||| 1 ||| (if imp then 2 else 0) ||| (if slice then 12 else 0)

/-- cr.status after `eret`: hnd, imp, slice and sres clear (R374). -/
def statusOut (old : BitVec 5) : BitVec 5 := old &&& 0x10

/-- cr.cause of a trap (R370). -/
def causeWord (t : Trap) : Word := BitVec.ofNat 32 (t.swcode.toNat * 0x10000 + t.lane.toNat * 0x100 + t.code.toNat)

/-- The low 55 bits of an address, word aligned: what cr.epc and cr.tvec hold (R370). -/
def pcBits (a : DWord) : DWord := a &&& 0x007FFFFFFFFFFFFC

/-! ## Delivery (R371, R372, R376) -/

/-- The 64 bytes of a fault record (R376). -/
def recordBytes (s : State) (w : Warp) (t : Trap) (epc : DWord) : List Byte :=
  let key := (s.ctxs[w.slot]).elim 0 fun c => c.key.toNat
  let node := s.nodeOf w
  leBytes 8 s.nextSeq ++ leBytes 8 s.gtime.toNat ++ leBytes 4 (causeWord t).toNat
    ++ leBytes 4 (node.elim 0 (fun n => n.eff.domain.toNat * 0x10000) + key * 0x100 + w.slot.val)
    ++ leBytes 8 (pcBits epc).toNat ++ leBytes 8 t.value.toNat ++ leBytes 8 (node.elim 0 fun n => n.addr.toNat)
    ++ leBytes 4 (w.wslot.toNat * 0x10000 + s.coreOf w) ++ leBytes 4 w.status.toNat ++ leBytes 4 w.laneok.toNat
    ++ leBytes 4 0

/-- Write a fault record into the ring and append its FAULT entry (R376). -/
def State.faultRecord (s : State) (w : Warp) (t : Trap) (epc : DWord) : State :=
  let a := mgmtBase + 0x20000 + s.nextSeq % 512 * 64
  ({ s with mem := s.mem.write a (recordBytes s w t epc) }).journalAdd 0x81 (BitVec.ofNat 24 t.code.toNat) 0
    (BitVec.ofNat 64 a)

/-- The access slice once its trap is delivered: stopped at the faulting instruction (R371). -/
def sliceTaken (slice : Bool) (w : Warp) : Option Slice :=
  if slice then w.slice.map fun x => { x with fault := none, stopped := true } else w.slice

/-- The warp as it enters its handler (R371). -/
def enterHandler (w : Warp) (t : Trap) (epc : DWord) (imp slice : Bool) : Warp :=
  { w with cause := causeWord t, epc := pcBits epc, eval := t.value, status := statusIn w.status imp slice, pc := w.tvec,
           wait := none, slice := sliceTaken slice w }

/-- A trap goes to a handler: the warp has one and none is running (R371, R372). -/
def Warp.handles (w : Warp) : Bool := !w.hnd && w.tvec != 0

/-- Deliver a trap to a warp: handler entry, or, when it is unhandled, the warp's stop and its fault record; the domain is not
yet abandoned. A warp that has been stopped takes none and writes no record (R373, R417). -/
def State.trapAt (s : State) (wid : Nat) (t : Trap) (epc : DWord) (imp slice : Bool) : State :=
  match tget s.warps wid with
  | none => s
  | some w =>
    let s1 := s.coreEvent (s.coreOf w) 4
    if w.stopped then s
    else if w.handles then s1.modWarp wid fun x => enterHandler x t epc imp slice
    else (s1.faultRecord w t epc).modWarp wid fun x => { x with stopped := true, wait := none }

/-- Abandon the fault domain of a warp whose trap is not taken by a handler (R372, R373). -/
def State.abandonFor (s : State) (w : Warp) : State :=
  if w.handles then s
  else match s.nodeOf w with
    | none => s
    | some n => s.abandonDomain w.slot n.eff.domain

/-- Take a trap at an instruction boundary of a warp (R371-R373): THE one operation by which every instruction and event of the
model takes an exception. -/
def State.deliver (s : State) (wid : Nat) (t : Trap) (epc : DWord) (imp slice : Bool) : State :=
  match tget s.warps wid with
  | none => s
  | some w => (s.trapAt wid t epc imp slice).abandonFor w

/-! ## Return (R374) -/

/-- The access slice at `eret`: restarted at its faulting instruction, or ended with its queues (R374, R45). -/
def sliceAfter (w : Warp) : Warp :=
  if w.trapSlice then
    if w.sres then { w with slice := w.slice.map fun sl => { sl with fault := none, stopped := false } }
    else { w with slice := none, aq := Vector.replicate 4 [], sq := [] }
  else w

/-- The warp after `eret` (R374). -/
def leaveHandler (w : Warp) : Warp :=
  let x := sliceAfter w
  { x with pc := w.epc, status := statusOut w.status }

/-- Return from a handler (R374). -/
def State.eretWarp (s : State) (wid : Nat) : State := s.modWarp wid leaveHandler

end Sys2Proof.Machine
end

