-- ==== Sys2Proof/Machine/Group.lean ====
section
/-! DEFINITION. Completion of a sample group: the statistics of R232 and the record of R228. -/

namespace Sys2Proof.Machine

/-- Field address of a member in the group record (R228). -/
def memberAddr (record i : Nat) : Nat := record + 0x40 + 16 * i

def d64 (x : Nat) : FVal := decodeF fp64 x

/-- The rewards of the members that reported, as FP64 patterns in ascending index (R232). -/
def rewards (ms : List (MemberState × Word)) : List Nat :=
  (ms.filter fun m => m.1 == .reported).map fun m => (convert .fp32 .fp64 false .rne m.2.toNat).1

/-- s / m rounded to FP64, for a count m. -/
def overCount (s m : Nat) : Nat := (divV fp64 .rne (d64 s) (.fin false m 0)).1

/-- Mean and population variance of the rewards (R232). -/
def meanVar (rs : List Nat) : Nat × Nat :=
  if rs.isEmpty then (0, 0)
  else
    let s := rs.foldl (fun a r => (addV fp64 .rne (d64 a) (d64 r)).1) 0
    let mean := overCount s rs.length
    let v := rs.foldl (fun a r =>
      let dv := (addV fp64 .rne (d64 r) (d64 mean).neg).1
      (addV fp64 .rne (d64 a) (d64 (mulV fp64 .rne (d64 dv) (d64 dv)).1)).1) 0
    (mean, overCount v rs.length)

/-- Round n * 2^e / (sqrt(v) + w) in fixed point of p bits, where the square root is irrational, at the first precision that
decides. -/
def advRound (sg : Bool) (n : Nat) (e : Int) (sq : Nat → Nat) (w : Nat → Nat) : List Nat → Nat
  | [] => fp32.nan
  | p :: r =>
    let den := sq p + w p
    let num := n * 2 ^ (2 * p + 64)
    let lo := roundMag fp32 sg (num / (den + 2)) (e - p - 64) true .rne
    let hi := roundMag fp32 sg (num / den + 1) (e - p - 64) true .rne
    if 2 ^ 40 < den && lo = hi then lo.1 else advRound sg n e sq w r

/-- floor(m * 2^e * 2^p). -/
def scaled (m : Nat) (e : Int) (p : Nat) : Nat := m * 2 ^ (e + p).toNat / 2 ^ (-(e + p)).toNat

/-- round_to(FP32, (r - mean) / (sqrt(var) + eps), RNE), the real value rounded once (R232). -/
def advantage (r mean var : Nat) (eps : Word) : Nat :=
  match d64 r, d64 mean, d64 var, dec32 eps with
  | .fin s m e, .fin t n g, .fin _ vm ve, .fin _ em ee =>
    let lo := min e g
    let d := alignTo s m e lo - alignTo t n g lo
    if d = 0 then 0
    else
      let vm' := if ve % 2 = 0 then vm else 2 * vm
      let ve' := if ve % 2 = 0 then ve else ve - 1
      let rt := natSqrt vm'
      if rt * rt = vm' then
        let l2 := min (ve' / 2) ee
        let den := alignTo false rt (ve' / 2) l2 + alignTo false em ee l2
        (divV fp32 .rne (.fin (d < 0) d.natAbs lo) (.fin false den.natAbs l2)).1
      else
        advRound (d < 0) d.natAbs lo (fun p => natSqrt (scaled vm' ve' (2 * p))) (fun p => scaled em ee p)
          [128, 256, 512, 1024, 2048, 4096]
  | _, _, _, _ => fp32.nan

/-- A value that is a NaN or an infinity. -/
def nonfinite (x : Nat) : Bool :=
  match d64 x with
  | .fin _ _ _ => false
  | _ => true

/-- The advantage of a member and the flag bits (nonf, few, zvar at 19, 18, 17) that it sets in word 0x00 (R232). -/
def memberAdv (m : MemberState × Word) (count mean var : Nat) (eps : Word) : Nat × Nat :=
  match m.1 with
  | .reported =>
    if count < 2 then (0, 0x40000)
    else if nonfinite mean || nonfinite var then (0x7FC00000, 0x80000)
    else if var % 2 ^ 63 = 0 then (0, 0x20000)
    else (advantage (convert .fp32 .fp64 false .rne m.2.toNat).1 mean var eps, 0)
  | .cancelled => (0x7FC00001, 0)
  | .timedOut => (0x7FC00002, 0)
  | .running => (0, 0)

def memberCode : MemberState → Nat
  | .running => 0
  | .reported => 1
  | .cancelled => 2
  | .timedOut => 3

/-- Write the fields of the members from index `i` on; the flag bits they set. -/
def State.writeMembers (s : State) (slot : Fin 8) (record count mean var : Nat) (eps : Word) :
    Nat → List (MemberState × Word) → State × Nat
  | _, [] => (s, 0)
  | i, m :: r =>
    let a := memberAdv m count mean var eps
    let reward := if m.1 = .reported then m.2.toNat else 0
    let s1 := s.storeVa slot (memberAddr record i)
      (leBytes 4 reward ++ leBytes 4 a.1 ++ leBytes 4 (memberCode m.1) ++ leBytes 4 0)
    let t := s1.writeMembers slot record count mean var eps (i + 1) r
    (t.1, a.2 ||| t.2)

/-- Every member is final and every sibling block has ended (R232). While a migration would stall the record, the group waits (R104);
one whose domain a fence has abandoned waits for the orphans (R434). -/
def State.groupReady (s : State) (gid : Nat) (g : Group) : Bool :=
  !g.done && !s.pageMoves g.slot g.record.toNat (0x40 + 16 * g.n) && !(g.killed && (tget s.nodes g.node).elim false s.awaitsOrphans) && g.members.all (fun m => m.1 != .running)
    && s.blocks.all fun p => p.2.member.elim true fun m => m.1 != gid

/-- Complete a group that is ready: write the RO fields, then done, then the node's status (R232, R420). -/
def State.groupCheck (s : State) (gid : Nat) : State :=
  match tget s.groups gid with
  | none => s
  | some g =>
    if !s.groupReady gid g then s
    else
      let a := g.record.toNat
      let rs := rewards g.members
      let mv := meanVar rs
      let count (st : MemberState) : Nat := (g.members.filter fun m => m.1 == st).length
      let w := s.writeMembers g.slot a rs.length mv.1 mv.2 g.eps 0 g.members
      let s1 := ((w.1.storeVa g.slot (a + 0x18) (leBytes 8 mv.1)).storeVa g.slot (a + 0x20) (leBytes 8 mv.2)).storeVa g.slot
        (a + 0x28) (leBytes 4 (count .reported) ++ leBytes 4 (count .cancelled))
      let s2 := s1.storeVa g.slot (a + 0x30) (leBytes 4 (count .timedOut))
      let s3 := s2.storeVa g.slot a (leBytes 4 (w.2 + 0x10000 + g.n))
      (s3.modGroup gid fun x => { x with done := true }).setStatus g.node (if g.killed then .abandoned else .completed)

/-- The members of a group from `placed` on will not start: they are cancelled, and the group's node ends ABANDONED (R416, R420). -/
def State.drainGroup (s : State) (gid placed : Nat) : State :=
  (s.modGroup gid fun g => { g with
    killed := g.killed || placed < g.n
    members := g.members.mapIdx fun i m => if placed ≤ i then cancelMember m else m }).groupCheck gid

end Sys2Proof.Machine
end

