-- ==== Sys2Proof/Machine/Endings.lean ====
section
/-! DEFINITION. The ends of things that an instruction may bring about: a barrier instance, a lane, a warp, a block
(spec/02_execution_model.md R46; spec/09_control.md R215-R217; spec/19_fault_model.md R375). -/

namespace Sys2Proof.Machine

/-! ## Registers of a warp -/

/-- The warp with uniform register `d` set. -/
def setSreg (w : Warp) (d : Nat) (x : Word) : Warp :=
  if h : d < 63 then { w with sregs := w.sregs.set d x, badSregs := w.badSregs.filter (· != d) } else w

/-- A waiting instruction ends: the next instruction follows it. -/
def endWait (w : Warp) : Warp :=
  match w.wait with
  | some k => { w with wait := none, pc := w.pc + BitVec.ofNat 64 k.len }
  | none => w

/-! ## Barriers (R216, R217) -/

/-- The participants of the part's barrier (R216). -/
def State.participants (s : State) (pid : Nat) : List (Nat × Warp) :=
  s.warps.filter fun p => p.2.part == pid && !p.2.spawned && !p.2.ended

/-- The payload of the arrival at a warp index, where it carries one. -/
def State.leafAt (s : State) (as : List Arrival) (i : Nat) : Option Word :=
  (as.find? fun a => (tget s.warps a.wid).elim false fun w => w.index.toNat == i).map (·.payload)

/-- The first word of the arrival of the lowest warp index (R216). -/
def State.lowestWord (s : State) (as : List Arrival) : Word :=
  let idx (a : Arrival) : Nat := (tget s.warps a.wid).elim 64 fun w => w.index.toNat
  match as with
  | [] => 0
  | a :: r => (r.foldl (fun b x => if idx x < idx b then x else b) a).word0

/-- An arrived warp leaves the barrier: with a payload it receives the result and the flags of the roundings (R216). -/
def leaveBar (a : Arrival) (x : Word) (f : Flags) (w : Warp) : Warp :=
  let w1 := match a.d with
    | some d => accrue (setSreg w d.val x) f
    | none => w
  endWait w1

/-- Every arrived warp takes trap 0x08 at its `bar`; a domain that one of them leaves unhandled is abandoned once
(R216, R373). -/
def State.barFails (s : State) (as : List Arrival) : State :=
  let t : Trap := { code := 0x08, value := (s.lowestWord as).setWidth 64 }
  let s1 := as.foldl (fun x a => match tget x.warps a.wid with
    | some w => x.trapAt a.wid t w.pc false false
    | none => x) s
  as.foldl (fun x a => match tget s.warps a.wid with
    | some w => x.abandonFor w
    | none => x) s1

/-- Complete the part's barrier once every participant has arrived (R216). An arrival is kept where its warp ends before the instance
completes, which R216 does not settle: its payload and its f still count (DESIGN CHOICE, log 73). -/
def State.barCheck (s : State) (pid : Nat) : State :=
  match tget s.parts pid with
  | none => s
  | some p =>
    match p.bar with
    | [] => s
    | a :: r =>
      if !(s.participants pid).all fun x => p.bar.any fun b => b.wid == x.1 then s
      else
        let s1 := s.modPart pid fun q => { q with bar := [] }
        if r.all fun b => b.op == a.op then
          let res := match a.op with
            | none => ((0, 0) : Word × Flags)
            | some op => foldTree op 6 ((List.range 64).map (s.leafAt p.bar))
          p.bar.foldl (fun x b => (x.modWarp b.wid (leaveBar b res.1 res.2)).discardGlobal pid) s1
        else s1.barFails p.bar

/-- Complete a cluster block's barrier once every participant has arrived (R217). -/
def State.barcCheck (s : State) (bid : Nat) : State :=
  match tget s.blocks bid with
  | none => s
  | some b =>
    let all := b.parts.flatMap s.participants
    if b.barc.isEmpty || !all.all fun x => b.barc.any fun y => y.1 == x.1 then s
    else
      let s1 := s.modBlock bid fun x => { x with barc := [] }
      let s2 := b.barc.foldl (fun x y => x.modWarp y.1 endWait) s1
      b.parts.foldl (fun x p => x.discardGlobal p) s2

/-! ## Blocks (R46, R325, R420) -/

/-- Every warp of the block has ended with nothing outstanding, a stalled write-back among it, and no pair of it is pending (R46,
R120). -/
def State.blockOver (s : State) (bid : Nat) (b : Block) : Bool :=
  (s.warps.all fun p => p.2.block != bid || (p.2.ended && p.2.ops.isEmpty && !s.backStalled p.1))
    && (s.copies.all fun p => (tget s.warps p.2.wid).elim true fun w => w.block != bid || p.2.finished)
    && (s.bins.all fun x => !b.parts.contains x.part) && (s.released.all fun x => !b.parts.contains x.part)

/-- Remove a block with its parts and warps; a member that has not become final is cancelled (R420). -/
def State.removeBlock (s : State) (bid : Nat) (b : Block) : State :=
  let gone (wid : Nat) : Bool := (tget s.warps wid).elim false fun w => w.block == bid
  let s0 := s.endHoldsOf bid
  let s1 := { s0 with
    blocks := tdel s.blocks bid
    parts := s.parts.filter fun p => p.2.block != bid
    copies := s.copies.filter fun p => !gone p.2.wid
    warps := s.warps.filter fun p => p.2.block != bid }
  match b.member with
  | none => s1
  | some (gid, i) =>
    (s1.modGroup gid fun g => { g with members := g.members.mapIdx fun j m => if j = i then cancelMember m else m }).groupCheck
      gid

/-- End a block whose work is over (R46). -/
def State.blockCheck (s : State) (bid : Nat) : State :=
  match tget s.blocks bid with
  | none => s
  | some b => if s.blockOver bid b then s.removeBlock bid b else s

/-! ## Warps and lanes -/

/-- The warp as it ends: no lane live, no slice, empty queues (R215). -/
def endedWarp (w : Warp) : Warp :=
  { w with ended := true, laneok := 0, slice := none, aq := Vector.replicate 4 [], sq := [], errs := [], wait := none,
           stack := [] }

/-- A warp ends: its private lines are discarded, and a barrier, a cluster barrier or its block may then complete
(R90, R215, R216). -/
def State.endWarp (s : State) (wid : Nat) : State :=
  match tget s.warps wid with
  | none => s
  | some w =>
    let s1 := (s.modWarp wid endedWarp).modPart w.part fun p => { p with l1 := p.l1.filter fun l => l.owner != some wid }
    ((s1.barCheck w.part).barcCheck w.block).blockCheck w.block

/-- The number of lanes in a mask. -/
def lanesIn (m : Mask) : Nat := ((List.range 32).filter fun l => m.getLsbD l).length

/-- Lanes die (R375). The warp ends with its last live lane. -/
def State.killLanes (s : State) (wid : Nat) (m : Mask) : State :=
  if m = 0 then s
  else
    match tget s.warps wid with
    | none => s
    | some w =>
      let s1 := (s.coreEvent (s.coreOf w) 6 (lanesIn m)).modWarp wid fun x =>
        { x with laneok := x.laneok &&& ~~~m, status := x.status ||| 0x10 }
      if w.laneok &&& ~~~m = 0 then s1.endWarp wid else s1

end Sys2Proof.Machine
end

