-- ==== Sys2Proof/Machine/Layout.lean ====
section
/-! DEFINITION. Slots and raw store of a core: what resident work holds, and layouts for parts and warps
(spec/02_execution_model.md R36, R39-R41, R50; spec/04_memory.md R83-R85, R88, R90; log 14). -/

namespace Sys2Proof.Machine

/-! ## Granules

Raw store is allocated in granules of 512 bytes: granule `g` holds the raw addresses 512 g to 512 g + 511, the share of partition
g mod 16 in stripe g / 16 (R83). -/

/-- Granules of a core. -/
def granuleCount : Nat := 2048

/-- The granules of a warp's register rows and reserved area (R84). -/
def warpGranules (rbase n : Nat) : List Nat := (List.range (n / 4 + 2)).map fun k => rbase / 512 + 16 * k

/-- Stripes that a warp with budget `n` takes. -/
def warpStripes (n : Nat) : Nat := n / 4 + 2

/-- The granules of a scratchpad. -/
def scratchGranules (sbase bytes : Nat) : List Nat := (List.range (bytes / 512)).map fun k => sbase / 512 + k

/-- The block of a part is resident in the slot. -/
def State.residentPart (s : State) (slot : Fin 8) (p : Part) : Bool :=
  (tget s.blocks p.block).elim false fun b => b.slot == slot && b.resident

/-- The parts of a slot that are resident on a core. -/
def State.partsOn (s : State) (slot : Fin 8) (core : Nat) : List (Nat × Part) :=
  s.parts.filter fun p => p.2.core == core && s.residentPart slot p.2

/-- The warps of the parts resident on a core; an ended warp holds no slot, and a spawned one that has ended no rows. -/
def State.warpsOn (s : State) (slot : Fin 8) (core : Nat) : List (Nat × Warp) :=
  let ps := (s.partsOn slot core).map (·.1)
  s.warps.filter fun w => ps.contains w.2.part

/-- Warp slots of a core that are taken. -/
def State.slotsUsed (s : State) (slot : Fin 8) (core : Nat) : List Nat :=
  ((s.warpsOn slot core).filter fun w => !w.2.ended).map fun w => w.2.wslot.toNat

/-- Granules of a core that are taken (R41). -/
def State.granulesUsed (s : State) (slot : Fin 8) (core : Nat) : List Nat :=
  (s.partsOn slot core).flatMap (fun p => scratchGranules p.2.sbase.toNat p.2.scratch ++ p.2.region)
    ++ (s.warpsOn slot core).flatMap fun w =>
        if w.2.spawned && w.2.ended then [] else warpGranules w.2.rbase.toNat w.2.rcount.toNat

/-- The lowest free warp slots of a core, `n` of them where there are so many (R36). -/
def freeSlots (used : List Nat) (n : Nat) : List Nat := ((List.range 64).filter fun k => !used.contains k).take n

/-! ## Layouts (R41, R84, R85) -/

/-- The lowest start of `n` free consecutive stripes of a partition's share, as a raw address. -/
def findRun (used : List Nat) (pt n : Nat) : Option Nat :=
  ((List.range (129 - n)).find? fun t => (List.range n).all fun k => !used.contains ((t + k) * 16 + pt)).map fun t =>
    (t * 16 + pt) * 512

/-- Every way to insert an item into a list. -/
def inserts {α : Type} (x : α) : List α → List (List α)
  | [] => [[x]]
  | y :: r => (x :: y :: r) :: (inserts x r).map (y :: ·)

/-- Every order of a list. -/
def orders {α : Type} : List α → List (List α)
  | [] => [[]]
  | x :: r => (orders r).flatMap (inserts x)

/-- Place warps (index, budget) of one partition one after the other at the lowest start: their base addresses. -/
def fitInOrder (pt : Nat) : List Nat → List (Nat × Nat) → Option (List (Nat × Nat))
  | _, [] => some []
  | used, (i, n) :: r =>
    match findRun used pt (warpStripes n) with
    | none => none
    | some a => (fitInOrder pt (used ++ warpGranules a n) r).map ((i, a) :: ·)

/-- Place the warps of one partition in the first order that fits. Some order fits whenever the partition's share offers a layout. -/
def fitPartition (used : List Nat) (pt : Nat) (ws : List (Nat × Nat)) : Option (List (Nat × Nat)) :=
  (orders ws).findSome? (fitInOrder pt used)

/-- A layout of a part: scratchpad base, warp base addresses by warp index, and the granules of its private-cache region. -/
structure Layout where
  sbase : Nat
  rbases : List (Nat × Nat)
  region : List Nat
  deriving DecidableEq, Repr

/-- Place the warps, given as (warp index, slot, budget), partition by partition. -/
def fitWarps (used : List Nat) (ws : List (Nat × Nat × Nat)) : Option (List (Nat × Nat)) :=
  ((List.range 16).mapM fun pt => fitPartition used pt ((ws.filter fun w => w.2.1 % 16 == pt).map fun w => (w.1, w.2.2))).map
    List.flatten

/-- The layout with the scratchpad at a base. -/
def layoutAt (used : List Nat) (ws : List (Nat × Nat × Nat)) (scratch region sb : Nat) : Option Layout :=
  let mine := scratchGranules sb scratch
  if granuleCount < sb / 512 + scratch / 512 || mine.any used.contains then none
  else match fitWarps (used ++ mine) ws with
    | none => none
    | some rb =>
      let rows := rb.flatMap fun x => warpGranules x.2 ((ws.find? fun w => w.1 == x.1).elim 0 fun w => w.2.2)
      let free := (List.range granuleCount).filter fun g => !(used ++ mine ++ rows).contains g
      if free.length < region / 512 then none else some ⟨sb, rb, free.take (region / 512)⟩

/-- A layout for a part: the lowest scratchpad base that gives one. -/
def findLayout (used : List Nat) (ws : List (Nat × Nat × Nat)) (scratch region : Nat) : Option Layout :=
  if scratch = 0 then layoutAt used ws 0 region 0
  else (List.range 1024).findSome? fun k => layoutAt used ws scratch region (1024 * k)

/-- A slot and rows for one spawned warp on a core: the lowest free slot whose partition has room (R41, R46). -/
def State.fitSpawned (s : State) (slot : Fin 8) (core n : Nat) : Option (Nat × Nat) :=
  let used := s.granulesUsed slot core
  (freeSlots (s.slotsUsed slot core) 64).findSome? fun k => (findRun used (k % 16) (warpStripes n)).map fun a => (k, a)

/-! ## Private images (R88) -/

/-- The first number from a start on that no warp of the slot has as its private image. -/
def firstUnused (used : List Word) : Nat → Word → Word
  | 0, x => x
  | n + 1, x => if used.contains x then firstUnused used n (x + 1) else x

/-- A private image for a new warp: a free value that no other warp of the context has (log 18). -/
def State.newPbase (s : State) (slot : Fin 8) : Word × State :=
  let used := (s.warps.filter fun w => w.2.slot == slot).map fun w => w.2.pbase
  (firstUnused used used.length (Config.word s.choices), { s with choices := s.choices + 1 })

/-- Append a warp. -/
def State.addWarp (s : State) (w : Warp) : State := { s with warps := s.warps ++ [(s.nextId, w)], nextId := s.nextId + 1 }

/-- Sets of a private-cache region: whole sets of four lines (R90). -/
def regionSets (bytes : Nat) : Nat := bytes / 128 / 4

end Sys2Proof.Machine
end

