-- ==== Sys2Proof/Machine/Launch.lean ====
section
/-! DEFINITION. Launch records (spec/13_scheduling.md R322; spec/02_execution_model.md R34, R38-R41) and the device's reads of a
context's records in memory (R320). -/

namespace Sys2Proof.Machine

/-! ## Reading records (R320) -/

/-- Where a record's address lies, with the right that its page must grant; none where it does not translate, the key or a right is
missing, its data is lost, or its target refuses the agent that reads it (R339, R340; log 48). -/
def State.recordPlace (s : State) (slot : Fin 8) (need : Need) (va : Nat) (master : Option Nat := none) : State × Option Place :=
  match s.ctxs[slot] with
  | none => (s, none)
  | some c =>
    if va / 2 ^ 55 != 0 then (s, none)
    else match walk s c.ptRoot va with
      | (s1, .error _) => (s1, none)
      | (s1, .ok (e, lv)) =>
        let p := leafPlace e lv va
        if leafFaults e lv va || fld e 63 56 != c.key.toNat || !need.granted e || s1.lostData need e p || !s1.mayTouch master need p then
          (s1, none)
        else (s1, some p)

/-- A range of bytes in two parts where it crosses from one 64 KiB page to the next: address and length of each. -/
def pageParts (va n : Nat) : List (Nat × Nat) :=
  let k := 65536 - va % 65536
  if n ≤ k then [(va, n)] else [(va, k), (va + k, n - k)]

/-- The bytes of some parts, read past every cache but the MSC (R18, R20). -/
def State.readParts (s : State) (master : Option Nat) (slot : Fin 8) (need : Need) : List (Nat × Nat) → State × Option (List Byte)
  | [] => (s, some [])
  | x :: r =>
    match s.recordPlace slot need x.1 master with
    | (s1, none) => (s1, none)
    | (s1, some p) =>
      match s1.ioRead p x.2 with
      | (.bytes bs, s2) =>
        match s2.readParts master slot need r with
        | (s3, some t) => (s3, some (bs ++ t))
        | t => t
      | (_, s2) => (s2, none)

/-- `n` pieces of `k` bytes from an address on. -/
def State.readRecordBy (s : State) (master : Option Nat) (slot : Fin 8) (need : Need) (va k : Nat) : Nat → State × Option (List Byte)
  | 0 => (s, some [])
  | n + 1 =>
    match s.readParts master slot need (pageParts va k) with
    | (s1, none) => (s1, none)
    | (s1, some bs) =>
      match s1.readRecordBy master slot need (va + k) k n with
      | (s2, some r) => (s2, some (bs ++ r))
      | r => r

/-- The same by an agent without a master identifier: a scheduler, or the management processor. -/
def State.readRecord (s : State) (slot : Fin 8) (need : Need) (va k n : Nat) : State × Option (List Byte) :=
  s.readRecordBy none slot need va k n

/-- The number in `n` bytes of a record at an offset. -/
def recField (bs : List Byte) (off n : Nat) : Nat := leNat ((bs.drop off).take n)

/-! ## Launch records (R322) -/

/-- A register budget that R39 allows. -/
def budgetOk (n : Nat) : Bool := 8 ≤ n && n ≤ 120 && n % 8 == 0

/-- Role `r` of a record; none where it breaks R38, R39 or the table. -/
def roleOf (bs : List Byte) (r : Nat) : Option Role :=
  let e := recField bs (0x20 + 16 * r) 8
  let w := recField bs (0x28 + 16 * r) 4
  if w / 2 ^ 18 != 0 || e % 4 != 0 || (w % 256 != 0 && !budgetOk (w / 256 % 256)) then none
  else some ⟨BitVec.ofNat 64 e, BitVec.ofNat 2 (w / 2 ^ 16), BitVec.ofNat 8 (w / 256), BitVec.ofNat 8 w⟩

/-- 0 acts as 1 in a grid field. -/
def gridOf (x : Nat) : Nat := if x = 0 then 1 else x

/-- Warps of a part of `threads` threads (R34). -/
def warpsFor (threads : Nat) : Nat := (threads + 31) / 32

/-- The record in 128 bytes; none where it breaks R34, R38, R39, the alignment rules of R40 or the table. -/
def launchOf (bs : List Byte) : Option Launch :=
  let w := recField bs 0 4
  let threads := w % 4096 + 1
  let scratch := recField bs 4 4
  let priv := recField bs 8 4
  match roleOf bs 0, roleOf bs 1, roleOf bs 2 with
  | some r0, some r1, some r2 =>
    if w / 2 ^ 19 != 0 || w / 2 ^ 16 % 4 == 3 || 2048 < threads || scratch % 1024 != 0 || priv % 4 != 0 || 65536 < priv
      || r0.warps.toNat + r1.warps.toNat + r2.warps.toNat != warpsFor threads || (bs.drop 0x50).any (· != 0) then none
    else
      some { claim := w / 2 ^ 18 % 2 == 1, spawnrole := BitVec.ofNat 2 (w / 2 ^ 16), parts := w / 4096 % 16 + 1,
             threads := threads, scratch := scratch, priv := priv, gx := gridOf (recField bs 0x10 4),
             gy := gridOf (recField bs 0x14 4), gz := gridOf (recField bs 0x18 4), roles := [r0, r1, r2] }
  | _, _, _ => none

/-- Read a launch record of a context. -/
def State.readLaunch (s : State) (slot : Fin 8) (va : Nat) : State × Option Launch :=
  if va % 64 != 0 then (s, none)
  else match s.readRecord slot .r va 64 2 with
    | (s1, some bs) => (s1, launchOf bs)
    | (s1, none) => (s1, none)

/-! ## Claims (R40, R41) -/

/-- A warp to be placed: its role number and the role. -/
def Launch.warpRoles (l : Launch) : List (Nat × Role) :=
  (l.roles.mapIdx fun i r => (i, r)).flatMap fun x => List.replicate x.2.warps.toNat x

/-- Bytes of the registers and reserved areas of a part's warps (R39). -/
def Launch.rowBytes (l : Launch) : Nat :=
  (l.roles.map fun r => r.warps.toNat * (r.regs.toNat * 128 + 1024)).foldl (· + ·) 0

/-- A part's store claim (R40). -/
def claimOf (store : Nat) : Nat := store / 1024 * 1024

/-- Bytes of a part's private-cache region; none where the claim is too small (R40). -/
def Launch.region (l : Launch) (store : Nat) : Option Nat :=
  let used := l.rowBytes + l.scratch
  if claimOf store < used || (l.priv != 0 && claimOf store - used < 16384) then none else some (claimOf store - used)

/-- The warps of a part as a layout wants them: index, slot, budget. -/
def Launch.slotted (l : Launch) (slots : List Nat) : List (Nat × Nat × Nat) :=
  (l.warpRoles.zip slots).mapIdx fun i x => (i, x.2, x.1.2.regs.toNat)

/-- The record is accepted under R40, and a core with no resident part has a layout for its part (R41). -/
def Launch.accepted (l : Launch) (store : Nat) : Bool :=
  match l.region store with
  | none => false
  | some n => claimOf store ≤ 2 ^ 20 && (findLayout [] (l.slotted (List.range 64)) l.scratch n).isSome

end Sys2Proof.Machine
end

