-- ==== Sys2Proof/Machine/ArrayImage.lean ====
section
/-! DEFINITION. Configuration images of the Decoft array: their layout and the load checks (spec/12_decoft_ops.md R294-R312). -/

namespace Sys2Proof.Machine

/-! ## FU instruction words (R294) -/

/-- The fields of an entry of an instruction store. -/
structure FuEntry where
  op : Nat
  ew : Nat
  sa : Nat
  sb : Nat
  sc : Nat
  omask : Nat
  rm : Nat
  f : Nat
  next : Nat
  bk : Nat
  ctl : Nat
  tgt : Nat
  cen : Bool
  cout : Nat
  sat : Bool
  rsv : Nat
  deriving DecidableEq, Repr

def entryOf (e : DWord) : FuEntry :=
  { op := fld e 63 58, ew := fld e 57 56, sa := fld e 55 52, sb := fld e 51 48, sc := fld e 47 44, omask := fld e 43 40,
    rm := fld e 39 38, f := fld e 37 30, next := fld e 29 27, bk := fld e 26 25, ctl := fld e 24 22, tgt := fld e 21 19,
    cen := fld e 18 18 == 1, cout := fld e 17 15, sat := fld e 14 14 == 1, rsv := fld e 13 0 }

/-- What the description of an operator allows: its widths (bit n for ew = n), its f bits, whether it names a rounding mode, and how
many sources it reads (R298-R305). -/
structure OpSpec where
  ews : Nat
  fbits : Nat
  rm : Bool
  srcs : Nat
  deriving DecidableEq, Repr

/-- The operators; none for a reserved code (R298-R305). -/
def opSpec (op : Nat) : Option OpSpec :=
  match op with
  | 0x00 => some ⟨7, 0, false, 1⟩
  | 0x01 | 0x02 | 0x03 => some ⟨1, 7, true, 2⟩
  | 0x04 => some ⟨1, 7, true, 3⟩
  | 0x05 | 0x06 | 0x07 | 0x08 => some ⟨1, 7, false, 2⟩
  | 0x09 | 0x0A | 0x0B => some ⟨7, 0, false, 2⟩
  | 0x0C => some ⟨7, 0, false, 1⟩
  | 0x0D | 0x0E => some ⟨7, 1, false, 2⟩
  | 0x0F => some ⟨7, 3, false, 2⟩
  | 0x10 | 0x11 | 0x12 | 0x13 => some ⟨7, 0, false, 2⟩
  | 0x14 => some ⟨7, 1, false, 2⟩
  | 0x15 => some ⟨7, 15, false, 2⟩
  | 0x16 => some ⟨7, 0, false, 3⟩
  | 0x17 | 0x18 => some ⟨2, 7, true, 2⟩
  | 0x19 => some ⟨2, 7, true, 3⟩
  | 0x1A => some ⟨1, 255, true, 1⟩
  | 0x20 => some ⟨1, 31, false, 1⟩
  | 0x21 => some ⟨1, 15, false, 2⟩
  | 0x22 => some ⟨1, 63, false, 0⟩
  | 0x23 => some ⟨7, 0, false, 1⟩
  | 0x24 | 0x25 => some ⟨7, 0, false, 2⟩
  | 0x26 => some ⟨1, 0, false, 1⟩
  | 0x27 => some ⟨1, 0, false, 2⟩
  | 0x28 => some ⟨1, 1, false, 2⟩
  | 0x29 => some ⟨1, 1, false, 1⟩
  | 0x2A => some ⟨7, 0, false, 1⟩
  | _ => none

/-- A type code that `cvt` takes (R299). -/
def cvtTy (n : Nat) : Option Ty := if 11 < n || n == 5 then none else Ty.ofCode n

/-- Bits of an element of a type on a channel: a T6 element lies in a byte (R299). -/
def chanBits (t : Ty) : Nat := if t = .t6 then 8 else tyWidth t

/-- The width code of a channel. -/
def widthCode (bits : Nat) : Nat := if bits = 32 then 0 else if bits = 16 then 1 else 2

/-- Elements in a token of a width code (R268). -/
def elCount (w : Nat) : Nat := 8 * 2 ^ w

/-- Width codes of an entry's input and output channels (R299, R312). -/
def FuEntry.widths (e : FuEntry) : Nat × Nat :=
  if e.op = 0x1A then
    match cvtTy (e.f % 16), cvtTy (e.f / 16) with
    | some st, some dt => (widthCode (chanBits st), widthCode (chanBits dt))
    | _, _ => (3, 3)
  else (e.ew, e.ew)

/-- The data inputs that an entry's sources name. -/
def FuEntry.pins (e : FuEntry) : List Nat := (List.range 4).filter fun p => e.sa == p || e.sb == p || e.sc == p

/-- The outputs of an entry. -/
def FuEntry.outs (e : FuEntry) : List Nat := (List.range 4).filter fun p => e.omask / 2 ^ p % 2 == 1

/-- `a` has a bit set that `b` has not, among 8 bits. -/
def bitsBeyond (a b : Nat) : Bool := (List.range 8).any fun k => a / 2 ^ k % 2 == 1 && b / 2 ^ k % 2 == 0

/-- The `cvt` fields are in range (R299). -/
def cvtOk (e : FuEntry) : Bool :=
  match cvtTy (e.f % 16), cvtTy (e.f / 16) with
  | some st, some dt =>
    e.rm == 0 || !(match tyKind dt, tyKind st with
      | .tapered _, _ => true
      | .int, .int => true
      | _, _ => false)
  | _, _ => false

/-- What single operators require beyond their specification (R299-R305). -/
def opExtra (e : FuEntry) (counters : Nat) : Bool :=
  match e.op with
  | 0x15 => e.f ≤ 9
  | 0x1A => cvtOk e
  | 0x21 => e.f % 4 != 3 && e.sa == 0 && e.sb == 1
  | 0x22 => e.f < counters
  | 0x23 => e.omask == 3 && e.bk == 0 && e.cen
  | 0x24 | 0x25 => e.bk == 0 && e.sa == 0 && e.sb == 1
  | 0x27 | 0x28 | 0x2A => e.omask == 0
  | 0x29 => e.omask == 0 && e.cen
  | _ => true

/-- A source code is allowed: read ones name something, unread ones are 6 (R295). -/
def sourceOk (read : Bool) (n : Nat) : Bool := if read then n != 6 && n != 7 else n == 6

/-- A `cvt` whose channel grows wider packs the elements of successive tokens: it keeps state from one to the next (R271, R299). -/
def FuEntry.packs (e : FuEntry) : Bool := e.op == 0x1A && decide (elCount e.widths.1 < elCount e.widths.2)

/-- An entry is in range; an operator that keeps state is in one copy (R271, R294-R305, R310). -/
def entryOk (e : FuEntry) (rep count counters : Nat) : Bool :=
  match opSpec e.op with
  | none => false
  | some p =>
    e.rsv == 0 && p.ews / 2 ^ e.ew % 2 == 1 && !bitsBeyond e.f p.fbits && (p.rm || e.rm == 0) && (e.op == 0x1A || !e.sat)
      && e.bk != 3 && e.next < count && e.tgt < count && ((e.op < 0x20 && !e.packs) || rep == 1)
      && sourceOk (1 ≤ p.srcs) e.sa && sourceOk (2 ≤ p.srcs) e.sb && sourceOk (3 ≤ p.srcs) e.sc && opExtra e counters

/-! ## FU records (R310) -/

/-- Field `n` of `w` bits of a list of fields in a number. -/
def nth (x n w : Nat) : Nat := x / 2 ^ (w * n) % 2 ^ w

/-- The FU record in 128 bytes. -/
def fuOf (bs : List Byte) : FuRec :=
  let u := recField bs 0x64 4
  { entries := (List.range 8).map fun k => BitVec.ofNat 64 (recField bs (8 * k) 8)
    consts := (List.range 8).map fun k => BitVec.ofNat 32 (recField bs (0x40 + 4 * k) 4)
    kinds := (List.range 8).map fun k => nth (recField bs 0x60 4) k 3
    fu := u % 512, rep := u / 2 ^ 16 % 64 + 1, count := u / 2 ^ 24 % 8 + 1 }

/-- The entries of a record below its entry count. -/
def FuRec.live (r : FuRec) : List FuEntry := (r.entries.take r.count).map entryOf

/-- An FU record keeps its table, in a region of `k` slabs (R310). -/
def fuOk (bs : List Byte) (k counters : Nat) : Bool :=
  let r := fuOf bs
  let u := recField bs 0x64 4
  let zero (hi lo : Nat) : Bool := fld (BitVec.ofNat 64 u) hi lo == 0
  zero 31 27 && zero 23 22 && zero 15 9 && recField bs 0x60 4 / 2 ^ 24 == 0 && (bs.drop 0x68).all (· == 0)
    && r.kinds.all (· ≤ 4) && r.fu + r.rep ≤ 48 * k && (r.entries.drop r.count).all (· == 0)
    && r.live.all fun e => entryOk e r.rep r.count counters

/-- The FU indices that a record occupies. -/
def FuRec.copies (r : FuRec) : List Nat := (List.range r.rep).map fun j => r.fu + j

/-! ## Routes (R306, R307) -/

def routeOf (x : Nat) : Route :=
  let w := BitVec.ofNat 64 x
  { rid := BitVec.ofNat 6 (fld w 63 58), w := BitVec.ofNat 2 (fld w 57 56), su := fld w 49 40, sp := fld w 39 38,
    du := fld w 37 28, dp := fld w 27 26 }

def ctlOf (x : Nat) : CtlRoute :=
  let w := BitVec.ofNat 64 x
  { kind := BitVec.ofNat 2 (fld w 63 62), su := fld w 49 40, so := fld w 39 37, du := fld w 36 27, di := fld w 26 24 }

/-! ## Access-pattern records (R308) -/

def aprOf (bs : List Byte) : Apr :=
  { word0 := BitVec.ofNat 32 (recField bs 0 4), mw := BitVec.ofNat 32 (recField bs 4 4), base := BitVec.ofNat 64 (recField bs 8 8),
    stride := BitVec.ofNat 32 (recField bs 0x10 4), limit := BitVec.ofNat 32 (recField bs 0x14 4),
    dir := BitVec.ofNat 64 (recField bs 0x18 8),
    levels := (List.range 4).map fun i => BitVec.ofNat 64 (recField bs (0x20 + 8 * i) 8) }

def Apr.mode (a : Apr) : Nat := a.word0.toNat % 8
def Apr.port (a : Apr) : Nat := a.word0.toNat / 2 ^ 8 % 256
def Apr.lv (a : Apr) : Nat := a.word0.toNat / 2 ^ 17 % 4
def Apr.es (a : Apr) : Nat := a.word0.toNat / 2 ^ 19 % 4
def Apr.wr (a : Apr) : Bool := a.word0.getLsbD 21
def Apr.sgn (a : Apr) : Bool := a.word0.getLsbD 22
def Apr.pb (a : Apr) : Bool := a.word0.getLsbD 23
/-- Bytes of an element. -/
def Apr.size (a : Apr) : Nat := 2 ^ a.es
/-- The base with the parameter block address where pb is set (R288, R308). -/
def Apr.baseAt (a : Apr) (param : DWord) : DWord := if a.pb then a.base + param else a.base
def Apr.recSize (a : Apr) : Nat := a.mw.toNat % 256
def Apr.link (a : Apr) : Nat := a.mw.toNat / 256 % 256
def Apr.rowLen (a : Apr) : Nat := a.mw.toNat % 4096 + 1
def Apr.s32 (a : Apr) : Bool := a.mw.getLsbD 12
def Apr.dirForm (a : Apr) : Bool := a.mw.getLsbD 13
def Apr.wsBank (a : Apr) : Nat := a.mw.toNat / 2 ^ 16 % 64
def Apr.wsCount (a : Apr) : Nat := a.mw.toNat / 2 ^ 24 % 128
/-- Count and stride of an affine level. -/
def levelOf (e : DWord) : Nat × Int := (fld e 55 32 + 1, ((BitVec.ofNat 32 (fld e 31 0)).toInt))
/-- The affine levels in use. -/
def Apr.lvls (a : Apr) : List (Nat × Int) := (a.levels.take (a.lv + 1)).map levelOf

/-- The mode's own word keeps its table; `banks` are the claimed banks. -/
def aprWordOk (a : Apr) (banks : DWord) : Bool :=
  let m := a.mw.toNat
  match a.mode with
  | 1 => m / 2 ^ 16 == 0 && 4 ≤ a.recSize && a.recSize ≤ 32 && a.recSize % 4 == 0 && a.link % 8 == 0
      && a.link < a.recSize && a.limit != 0
  | 3 => m / 2 ^ 12 == 0
  | 4 => m / 2 ^ 14 % 4 == 0 && m / 2 ^ 22 % 4 == 0 && m / 2 ^ 31 == 0 && 1 ≤ a.wsCount && a.wsCount ≤ 64
      && (List.range a.wsCount).all fun j => banks.getLsbD (a.wsBank + j)
  | _ => m == 0

/-- An APR keeps its table, with the parameter block address of its instance (R308, R312). -/
def aprOk (a : Apr) (k : Nat) (banks param : DWord) : Bool :=
  let w := a.word0.toNat
  let dirs := a.mode == 3 || (a.mode == 4 && a.dirForm)
  w / 2 ^ 24 % 4 == 0 && w / 2 ^ 16 % 2 == 0 && w / 8 % 32 == 0 && a.mode ≤ 4 && a.es != 3 && a.port < 16 * k
    && (a.mode == 0 || (a.lv == 0 && !a.wr)) && (a.mode == 0 || a.mode == 2 || a.es == 2) && aprWordOk a banks
    && (a.mode == 1 || a.mode == 2 || a.mode == 4 || a.stride == 0) && (a.mode == 1 || dirs || a.limit == 0) && (dirs || a.dir == 0)
    && (if a.mode = 0 then
          (a.levels.drop (a.lv + 1)).all (· == 0) && a.levels.all (fun e => fld e 63 56 == 0)
            && a.lvls.all fun l => l.2 % a.size == 0
        else (a.levels.drop (if a.mode = 3 then 1 else 0)).all (· == 0))
    && a.stride.toNat % a.size == 0 && (a.baseAt param).toNat % a.size == 0

/-- The width code of a pin of a port; none for a pin that its mode lacks (R306). -/
def portWidth (a : Apr) (pin : Nat) (out : Bool) : Option Nat :=
  match a.mode, out with
  | 0, true => if pin = 0 && !a.wr then some (2 - a.es) else none
  | 0, false => if pin = 0 && a.wr then some (2 - a.es) else none
  | 1, true => if pin = 0 then some 0 else none
  | 2, true => if pin = 0 then some (2 - a.es) else none
  | 3, true => if pin = 0 then some 0 else none
  | 2, false | 3, false => if pin = 0 then some 0 else none
  | 4, false => if pin < 2 then some 0 else none
  | _, _ => none

/-! ## Counter and bank event records (R302, R311) -/

def counterOf (bs : List Byte) : CounterRec :=
  let b := recField bs 0x30 1
  { levels := (List.range (b % 4 + 1)).map fun i =>
      (BitVec.ofNat 32 (recField bs (12 * i) 4), BitVec.ofNat 32 (recField bs (12 * i + 4) 4), recField bs (12 * i + 8) 4)
    mask := BitVec.ofNat 4 (b / 16) }

def counterOk (bs : List Byte) : Bool :=
  let r := counterOf bs
  recField bs 0x30 1 / 4 % 4 == 0 && (bs.drop 0x31).all (· == 0) && r.levels.all (fun l => l.2.2 != 0)
    && ((bs.take 0x30).drop (12 * r.levels.length)).all (· == 0)

def eventOf (x : Nat) : BankEvent :=
  { bank := x % 64, kind := BitVec.ofNat 2 (x / 64), tag := BitVec.ofNat 8 (x / 256), unit := x / 2 ^ 16 % 1024, lev := x / 2 ^ 26 % 4 }

/-! ## A context (R309, R312) -/

/-- Slab of a unit. -/
def unitSlab (u : Nat) : Nat := if u < 512 then u / 48 else (u - 512) / 16

/-- The list has no element twice. -/
def distinct {α : Type} [BEq α] : List α → Bool
  | [] => true
  | x :: r => !r.contains x && distinct r

/-- A unit code names a unit of a region of `k` slabs (R265, R306). -/
def inRegion (k u : Nat) : Bool := u < 48 * k || (512 ≤ u && u < 512 + 16 * k)

/-- The unit has a record in the context: that of an FU, for each of its copies, or that of a port (R310). -/
def ImgCtx.hasUnit (c : ImgCtx) (u : Nat) : Bool :=
  if u < 512 then c.fus.any fun r => r.copies.contains u else c.aprs.any fun a => a.port + 512 == u

/-- A route's width agrees with a port that it joins. -/
def ImgCtx.portPin (c : ImgCtx) (u pin : Nat) (out : Bool) (w : Nat) : Bool :=
  u < 512 || c.aprs.all fun a => a.port + 512 != u || portWidth a pin out == some w

/-- The inputs and outputs of an FU's entries have routes of their widths. -/
def ImgCtx.fuPins (c : ImgCtx) (r : FuRec) : Bool :=
  r.live.all fun e =>
    (e.pins.all fun p => c.routes.any fun t => t.du == r.fu && t.dp == p && t.w.toNat == e.widths.1)
      && e.outs.all fun p => c.routes.any fun t => t.su == r.fu && t.sp == p && t.w.toNat == e.widths.2

/-- An entry with an operator lies in an FU. -/
def ImgCtx.hasOp (c : ImgCtx) (u : Nat) (f : FuEntry → Bool) : Bool := c.fus.any fun r => r.fu == u && r.live.any f

/-- The routes of a context keep R306, R307 and R312. A route may name a unit of the region that has no record: it is idle. -/
def ImgCtx.routesOk (c : ImgCtx) (k : Nat) : Bool :=
  (c.routes.all fun t => t.w != 3 && inRegion k t.su && inRegion k t.du && c.portPin t.su t.sp true t.w.toNat
      && c.portPin t.du t.dp false t.w.toNat)
    && distinct (c.routes.map fun t => (t.su, t.sp)) && distinct (c.routes.map fun t => (t.du, t.dp))
    && distinct (c.routes.map fun t => (unitSlab t.du, t.rid)) && c.fus.all c.fuPins

/-- The control routes of a context keep R307 and R312. -/
def ImgCtx.ctlsOk (c : ImgCtx) (k : Nat) : Bool :=
  (c.ctls.all fun t => t.kind != 3 && inRegion k t.du && (if t.kind = 2 then t.su == 0 else inRegion k t.su)
      && (t.kind != 1 || (c.hasOp t.su (fun e => e.op == 0x23 && e.cout == t.so)
            && c.hasOp t.du fun e => e.op == 0x24 && e.ctl == t.di)))
    && distinct (c.ctls.map fun t => (t.du, t.di)) && distinct (c.ctls.map fun t => (t.kind == 2, t.su, t.so))
    && c.fus.all fun r => r.live.all fun e =>
        (e.op != 0x23 || c.ctls.any fun t => t.kind == 1 && t.su == r.fu && t.so == e.cout)
          && (e.op != 0x24 || c.ctls.any fun t => t.kind == 1 && t.du == r.fu && t.di == e.ctl)

/-- The bank events of a context keep R311. -/
def ImgCtx.eventsOk (c : ImgCtx) (k : Nat) : Bool :=
  c.events.all fun e => e.kind.toNat < 2 && e.bank < 8 * k
    && (if e.kind = 0 then inRegion k e.unit else e.unit == 0 && e.lev == 0)

/-- The offset behind a section of `n` records. -/
def secEnd (off n size : Nat) : Nat := (off + n * size + 63) / 64 * 64

/-- The records of a section. -/
def section_ (bs : List Byte) (off n size : Nat) : List (List Byte) :=
  (List.range n).map fun j => (bs.drop (off + size * j)).take size

/-- The bytes between the last record of a section and its end are zero. -/
def padded (bs : List Byte) (off n size : Nat) : Bool :=
  ((bs.drop (off + n * size)).take (secEnd off n size - (off + n * size))).all (· == 0)

/-- Read and check one context at an offset: the context and the offset behind it (R309-R312). -/
def contextOf (bs : List Byte) (desc : DWord) (k : Nat) (banks param : DWord) (o0 : Nat) : Option (ImgCtx × Nat) :=
  let nf := fld desc 8 0
  let nr := fld desc 19 9
  let nc := fld desc 31 20
  let na := fld desc 39 32
  let nn := fld desc 45 40
  let ne := fld desc 53 46
  let o1 := secEnd o0 nf 128
  let o2 := secEnd o1 nr 8
  let o3 := secEnd o2 nc 8
  let o4 := secEnd o3 na 64
  let o5 := secEnd o4 nn 64
  let rs := (section_ bs o1 nr 8).map leNat
  let cs := (section_ bs o2 nc 8).map leNat
  let es := (section_ bs o5 ne 8).map leNat
  let c : ImgCtx :=
    { fus := (section_ bs o0 nf 128).map fuOf, routes := rs.map routeOf, ctls := cs.map ctlOf,
      aprs := (section_ bs o3 na 64).map aprOf, counters := (section_ bs o4 nn 64).map counterOf, events := es.map eventOf }
  let clean := rs.all (fun x => fld (BitVec.ofNat 64 x) 55 50 == 0 && fld (BitVec.ofNat 64 x) 25 0 == 0)
    && cs.all (fun x => fld (BitVec.ofNat 64 x) 61 50 == 0 && fld (BitVec.ofNat 64 x) 23 0 == 0) && es.all fun x => x / 2 ^ 28 == 0
  if fld desc 63 54 == 0 && nf ≤ 48 * k && na ≤ 16 * k && clean
      && (section_ bs o0 nf 128).all (fun r => fuOk r k nn) && distinct (c.fus.flatMap FuRec.copies)
      && c.aprs.all (fun a => aprOk a k banks param) && distinct (c.aprs.map Apr.port)
      && (section_ bs o4 nn 64).all counterOk && c.routesOk k && c.ctlsOk k && c.eventsOk k
      && padded bs o1 nr 8 && padded bs o2 nc 8 && padded bs o5 ne 8 then
    some (c, secEnd o5 ne 8)
  else none

/-- Read and check the contexts of the given descriptors. -/
def contextsOf (bs : List Byte) (k : Nat) (banks param : DWord) : Nat → List DWord → Option (List ImgCtx × Nat)
  | o, [] => some ([], o)
  | o, d :: r =>
    match contextOf bs d k banks param o with
    | none => none
    | some (c, o1) => (contextsOf bs k banks param o1 r).map fun x => (c :: x.1, x.2)

/-! ## The image (R309, R312) -/

/-- The header passes its own checks. -/
def headerOk (h : List Byte) : Bool :=
  let w := recField h 0 4
  let k := w / 2 ^ 18 % 8 + 1
  w / 2 ^ 24 == 0x44 && w / 2 ^ 21 % 8 == 0 && ((h.drop 0x10).take 16).all (· == 0) && recField h 8 8 / 2 ^ (8 * k) == 0
    && ((h.drop 0x20).drop (8 * (w / 2 ^ 16 % 4 + 1))).all (· == 0)

/-- The image in a list of bytes, under the parameter block address of its instance; none where a check of R312 fails. -/
def imageOf (bs : List Byte) (param : DWord) : Option Image :=
  let w := recField bs 0 4
  let k := w / 2 ^ 18 % 8 + 1
  let n := w / 2 ^ 16 % 4 + 1
  let banks := BitVec.ofNat 64 (recField bs 8 8)
  let descs := (List.range n).map fun c => BitVec.ofNat 64 (recField bs (0x20 + 8 * c) 8)
  if bs.length < 64 || !headerOk (bs.take 64) then none
  else match contextsOf bs k banks param 64 descs with
    | none => none
    | some (cs, e) =>
      if recField bs 4 4 != e || bs.length < e || (w % 2 ^ 16 != 0xFFFF && cs.all fun c => c.routes.length ≤ w % 2 ^ 16) then none
      else some { slabs := k, result := BitVec.ofNat 16 w, banks := banks, ctxs := cs }

end Sys2Proof.Machine
end

