-- ==== Sys2Proof/Machine/Collective.lean ====
section
/-! DEFINITION. Collectives: descriptors, chunks, their acknowledgement, resending and giving up (spec/13_scheduling.md R330, R331;
spec/05_ordering.md R121; spec/23_work_faults.md R423; log 29, 54). -/

namespace Sys2Proof.Machine

/-! ## Descriptors (R330) -/

/-- The type of a descriptor's elements. -/
def collType (ty : Nat) : Option Ty :=
  match ty with
  | 2 => some .bf16
  | 4 => some .fp32
  | 10 => some .s32
  | _ => none

/-- Bytes of an element. -/
def Collective.elem (c : Collective) : Nat := if c.ty = 2 then 2 else 4

/-- The collective of a 64-byte descriptor, on an engine and with the choice that its contributions are drawn from; none where a field
of it has a value that R330 does not list. Its reserved bits are ignored (R5). -/
def collOf (node engine choice : Nat) (bs : List Byte) : Option Collective :=
  let w := recField bs 0 4
  let w1 := recField bs 4 4
  let size := w1 / 2 ^ 16
  let rank := w1 % 2 ^ 16
  if 3 < w % 16 || (collType (w / 16 % 16)).isNone || size < 2 || 16384 < size || size ≤ rank then none
  else some { node := node, engine := engine, choice := choice, op := BitVec.ofNat 4 w, ty := BitVec.ofNat 4 (w / 16), size := size, rank := rank,
              count := recField bs 8 8, src := BitVec.ofNat 64 (recField bs 0x10 8), dst := BitVec.ofNat 64 (recField bs 0x18 8),
              ranks := BitVec.ofNat 64 (recField bs 0x20 8), next := 0, inflight := [], unacked := [], again := [],
              givenUp := false, fetched := [], moved := [] }

/-- The node belongs to the slot. -/
def State.nodeIn (s : State) (slot : Fin 8) (nid : Nat) : Bool := (tget s.nodes nid).elim false fun n => n.slot == slot

/-- The lowest engine that serves no collective of the slot, none where all 16 do (R17; the manual does not say which one serves a
node: DESIGN CHOICE, log 54). -/
def State.freeEngine (s : State) (slot : Fin 8) : Option Nat :=
  let used := (s.collectives.filter fun c => s.nodeIn slot c.2.node).map (·.2.engine)
  (List.range 16).find? fun k => !used.contains k

/-- An engine's master identifier (R339). -/
def engineMaster (engine : Nat) : Nat := 2048 + engine

/-! ## Chunks (R331) -/

/-- The destination ranks of this module's engine: every rank for a broadcast from rank 0 and for an all-gather, its own rank for a
reduction. -/
def Collective.dests (c : Collective) : List Nat :=
  match c.op.toNat with
  | 0 => if c.rank = 0 then List.range c.size else []
  | 1 => List.range c.size
  | _ => [c.rank]

/-- Bytes for each destination rank. -/
def Collective.bytesEach (c : Collective) : Nat := c.count * c.elem

/-- Chunks for each destination rank. -/
def Collective.chunksEach (c : Collective) : Nat := (c.bytesEach + 65535) / 65536

def Collective.total (c : Collective) : Nat := c.dests.length * c.chunksEach

/-- Destination rank and byte offset of chunk `k`. -/
def Collective.chunkAt (c : Collective) (k : Nat) : Nat × Nat :=
  (c.dests.getD (k / c.chunksEach) 0, k % c.chunksEach * 65536)

/-- Issue chunks while fewer than 64 are in flight: first those that a pause recorded, then new ones. -/
def Collective.fill (now : Nat) (c : Collective) : Collective :=
  if c.givenUp then c
  else
    let room := 64 - c.inflight.length
    let old := (c.again.take room).map fun (x : Chunk) => { x with last := now }
    let n := if c.again.length ≤ room then min (room - old.length) (c.total - c.next) else 0
    { c with
      inflight := c.inflight ++ old ++ (List.range n).map (fun i => ⟨c.next + i, now, now⟩)
      again := c.again.drop room
      next := c.next + n }

/-- The same, but for a gang switch under way: from the target time the engine issues nothing (R331). -/
def State.fillColl (s : State) (now : Nat) (c : Collective) : Collective := if s.switching then c else c.fill now

/-- Nothing is left to be sent or answered. -/
def Collective.over (c : Collective) : Bool :=
  c.inflight.isEmpty && (c.givenUp || (c.unacked.isEmpty && c.again.isEmpty && c.next == c.total))

/-! ## This module's own destination (R121, R330) -/

/-- The sum of contributions in ascending rank, each addition rounded once; a BF16 result is rounded once to BF16. -/
def reduceElem (ty : Ty) (xs : List Nat) : Nat :=
  match ty with
  | .s32 => xs.foldl (fun a x => (a + x) % 2 ^ 32) 0
  | _ =>
    let up := xs.map fun x => (convert ty .fp32 false .rne x).1
    let s := match up with
      | [] => 0
      | x :: r => r.foldl (fun a y => (addV fp32 .rne (decodeF fp32 a) (decodeF fp32 y)).1) x
    (convert .fp32 ty false .rne s).1

/-- The contributions to one element: this module's own, and free values for the other ranks', which peers hold (log 29). -/
def Collective.contributions (c : Collective) (own i : Nat) : List Nat :=
  (List.range c.size).map fun r =>
    if r = c.rank then own else (Config.word (c.choice + c.size * i + r)).toNat % 256 ^ c.elem

/-- The bytes of chunk `k` for each destination rank. -/
def Collective.chunkLen (c : Collective) (k : Nat) : Nat := let off := (c.chunkAt k).2; min c.bytesEach (off + 65536) - off

/-- Where this module's own contribution to chunk `k` for rank `r` begins in its source. -/
def Collective.sourceAt (c : Collective) (k r : Nat) : Nat :=
  c.src.toNat + (c.chunkAt k).2 + (if c.op = 2 then r * c.bytesEach else 0)

/-- Where the chunk begins in this module's own destination. -/
def Collective.destAt (c : Collective) (k : Nat) : Nat :=
  c.dst.toNat + (c.chunkAt k).2 + (if c.op = 1 then c.rank * c.bytesEach else 0)

/-- The aligned 8-byte units that `n` bytes from an address on take up, or the parts of them that they do: address and length (R115). -/
def alignedUnits (a n : Nat) : List (Nat × Nat) :=
  if n = 0 then []
  else (List.range ((a + n + 7) / 8 - a / 8)).map fun i =>
    let lo := max a (8 * (a / 8 + i))
    (lo, min (a + n) (8 * (a / 8 + i) + 8) - lo)

/-- The key of a unit at an address for chunk `k` as it was last sent. -/
def Collective.unitKey (c : Collective) (k va : Nat) : Nat :=
  (((c.inflight.find? fun x => x.num == k).elim 0 (·.last)) * 2 ^ 64 + k) * 2 ^ 64 + va

/-- The units of this module's source that chunk `k` is made of: its contribution to the chunk, for a reduce-scatter to the chunk of every
rank (R105). -/
def Collective.sources (c : Collective) (k : Nat) : List (Nat × Nat) :=
  (if c.op = 2 then List.range c.size else [c.rank]).flatMap fun r => alignedUnits (c.sourceAt k r) (c.chunkLen k)

/-- The units that are still to be read, and those of this module's own destination that are still to be written. -/
def Collective.toRead (c : Collective) (k : Nat) : List (Nat × Nat) :=
  (c.sources k).filter fun u => (tget c.fetched (c.unitKey k u.1)).isNone
def Collective.toWrite (c : Collective) (k : Nat) : List (Nat × Nat) :=
  if (c.chunkAt k).1 != c.rank then []
  else (alignedUnits (c.destAt k) (c.chunkLen k)).filter fun u => !c.moved.contains (c.unitKey k u.1)

/-- What chunk `k` writes to this module's own destination, once its source has been read. -/
def Collective.values (c : Collective) (k : Nat) (got : Tab (List Byte)) : List Byte :=
  let own := (alignedUnits (c.sourceAt k c.rank) (c.chunkLen k)).flatMap fun u => (tget got (c.unitKey k u.1)).getD []
  if c.op.toNat < 2 then own
  else (List.range (c.chunkLen k / c.elem)).flatMap fun i =>
    leBytes c.elem (reduceElem ((collType c.ty.toNat).getD .s32)
      (c.contributions (leNat ((own.drop (i * c.elem)).take c.elem)) ((c.chunkAt k).2 / c.elem + i)))

/-- How far a chunk has come: what has been read, the units that have been written, and whether no access has failed. -/
structure ChunkRun where
  s : State
  got : Tab (List Byte)
  moved : List Nat
  ok : Bool
  deriving DecidableEq, Repr

/-- Read a unit of the source. -/
def ChunkRun.read (slot : Fin 8) (c : Collective) (k : Nat) (r : ChunkRun) (u : Nat × Nat) : ChunkRun :=
  match r.s.translate slot (engineMaster c.engine) 0 .r (BitVec.ofNat 64 u.1) with
  | (s1, .error _) => { r with s := s1, ok := false }
  | (s1, .ok p) =>
    match s1.ioRead p u.2 with
    | (.bytes bs, s2) => { r with s := s2, got := r.got ++ [(c.unitKey k u.1, bs)] }
    | (_, s2) => { r with s := s2, ok := false }

/-- Write a unit of the destination. One whose page migrates is not written (R104, R124). -/
def ChunkRun.write (slot : Fin 8) (c : Collective) (k : Nat) (bs : List Byte) (r : ChunkRun) (u : Nat × Nat) : ChunkRun :=
  match r.s.translate slot (engineMaster c.engine) 0 .w (BitVec.ofNat 64 u.1) with
  | (s1, .error _) => { r with s := s1, ok := false }
  | (s1, .ok p) =>
    if p.mig && p.tier ≤ 1 then { r with s := s1, ok := false }
    else match s1.ioWrite p ((bs.drop (u.1 - c.destAt k)).take u.2) with
      | (.done, s2) => { r with s := s2, moved := r.moved ++ [c.unitKey k u.1] }
      | (_, s2) => { r with s := s2, ok := false }

/-- Where a collective's chunks stand. -/
def State.chunkRun (s : State) (c : Collective) : ChunkRun := ⟨s, c.fetched, c.moved, true⟩

/-- Perform what is left of this module's own reads and writes for a chunk, and say whether all have been performed: else the chunk stays
unanswered (R105, R331). The source is read when the chunk is acknowledged or before: where software writes it while the collective
runs, the manual leaves the destination units unspecified (R121; DESIGN CHOICE, log 29). -/
def State.localChunk (s : State) (slot : Fin 8) (c : Collective) (k : Nat) : State × Bool :=
  let r := (c.toRead k).foldl (ChunkRun.read slot c k) (s.chunkRun c)
  if !r.ok then (r.s, false)
  else
    let t := (c.toWrite k).foldl (ChunkRun.write slot c k (c.values k r.got)) r
    (t.s, t.ok)

/-! ## Ranks and links (R330, R335, R423) -/

/-- A link that is up leads to the module. -/
def State.linkTo (s : State) (m : Nat) : Bool :=
  m < 16384 && (Config.route (Fin.ofNat 16384 m)).elim false fun l => s.loam[l].state == 2

/-- The chunk can reach rank `r`: this module's own, or one whose entry of the rank table names a module that a link leads to. -/
def State.rankUp (s : State) (slot : Fin 8) (c : Collective) (r : Nat) : State × Bool :=
  if r = c.rank then (s, true)
  else match s.readRecordBy (some (engineMaster c.engine)) slot .r (c.ranks.toNat + 2 * r) 1 2 with
    | (s1, some bs) => (s1, s1.linkTo (leNat bs))
    | (s1, none) => (s1, false)

def State.ranksUp (s : State) (slot : Fin 8) (c : Collective) : List Nat → State × Bool
  | [] => (s, true)
  | r :: l =>
    match s.rankUp slot c r with
    | (s1, true) => s1.ranksUp slot c l
    | r => r

/-- The ranks with which a chunk is exchanged: its destination, or every rank that contributes to a reduction. -/
def Collective.partners (c : Collective) (k : Nat) : List Nat :=
  if 2 ≤ c.op.toNat then List.range c.size else [(c.chunkAt k).1]

/-! ## Events -/

def State.modColl (s : State) (nid : Nat) (f : Collective → Collective) : State :=
  { s with collectives := tmap s.collectives fun c => if c.node = nid then f c else c }

/-- The running slot's collective of a node. -/
def State.collOn (s : State) (nid : Nat) : Option (Fin 8 × Collective) :=
  match s.running with
  | none => none
  | some r => if (tget s.nodes nid).elim false (fun n => n.slot == r) then (s.collectives.find? fun c => c.2.node == nid).map fun c => (r, c.2)
    else none

/-- Context time of a slot. -/
def State.slotTime (s : State) (slot : Fin 8) : Nat := (s.ctxs[slot]).elim 0 (·.time)

/-- A unit of the chunk has been written here, so it cannot be refused any more. -/
def Collective.begun (c : Collective) (k : Nat) : Bool :=
  (alignedUnits (c.destAt k) (c.chunkLen k)).any fun u => c.moved.contains (c.unitKey k u.1)

/-- One unit of a chunk in flight is read, or written to this module's own destination, ahead of the chunk's acknowledgement, where
nothing of it fails (R105, R115). `n` names it: whether it is a write, its address, and the chunk. -/
def chunkEarly (nid n : Nat) (s : State) : State :=
  match s.collOn nid with
  | none => s
  | some (r, c) =>
    let k := n / 2 ^ 65
    let pick (l : List (Nat × Nat)) : Option (Nat × Nat) := l.find? fun u => u.1 == n / 2 % 2 ^ 64
    let up := s.ranksUp r c (c.partners k)
    if !up.2 || c.inflight.all (fun x => x.num != k) then s
    else
      let run := if n % 2 = 0 then (pick (c.toRead k)).map ((up.1.chunkRun c).read r c k)
        else if c.toRead k != [] then none
        else (pick (c.toWrite k)).map ((up.1.chunkRun c).write r c k (c.values k c.fetched))
      match run with
      | none => s
      | some t => if t.ok then t.s.modColl nid fun y => { y with fetched := t.got, moved := t.moved } else s

/-- COLLECTIVE_CHUNK_ACK: a chunk in flight is acknowledged, or refused. Over a failed link or route, or with a write not performed,
there is no answer (R331, R423). -/
def collectiveChunkAck (nid k : Nat) (refused : Bool) (s : State) : State :=
  match s.collOn nid with
  | none => s
  | some (r, c) =>
    match c.inflight.find? fun x => x.num == k with
    | none => s
    | some x =>
      let now := s.slotTime r
      let rest := c.inflight.filter fun y => y.num != k
      match s.ranksUp r c (c.partners k) with
      | (s1, false) => s1
      | (s1, true) =>
        if refused then
          if c.begun k then s1
          else s1.modColl nid fun y => { y with inflight := rest, unacked := if y.givenUp then [] else y.unacked ++ [{ x with last := now }] }
        else
          match s1.localChunk r c k with
          | (s2, true) => s2.modColl nid fun y => s2.fillColl now { y with inflight := rest }
          | (s2, false) => s2

def execCollectiveChunkAck (node chunk : Nat) (refused : Bool) (s : State) : Out :=
  .next (collectiveChunkAck node chunk refused s)

/-- CHUNK_RESEND: a chunk unanswered for 16 µs counts as lost, and one refused or lost is sent again 16 µs later (R331, R423). -/
def chunkResend (nid k : Nat) (s : State) : State :=
  match s.collOn nid with
  | none => s
  | some (r, c) =>
    let now := s.slotTime r
    match c.inflight.find? fun x => x.num == k, c.unacked.find? fun x => x.num == k with
    | some x, _ =>
      if now < x.last + 16000 then s
      else s.modColl nid fun y =>
        { y with inflight := y.inflight.filter fun z => z.num != k,
                 unacked := if y.givenUp then [] else y.unacked ++ [{ x with last := now }] }
    | none, some x =>
      if now < x.last + 16000 || c.givenUp || s.switching || 64 ≤ c.inflight.length then s
      else s.modColl nid fun y =>
        { y with unacked := y.unacked.filter fun z => z.num != k, inflight := y.inflight ++ [{ x with last := now }] }
    | none, none => s

def execChunkResend (node chunk : Nat) (s : State) : Out := .next (chunkResend node chunk s)

/-- COLLECTIVE_GIVE_UP: a chunk unacknowledged for 4 ms of context time (R423). -/
def collectiveGiveUp (nid k : Nat) (s : State) : State :=
  match s.collOn nid with
  | none => s
  | some (r, c) =>
    match (c.unacked ++ c.again ++ c.inflight).find? fun x => x.num == k with
    | none => s
    | some x => if s.slotTime r < x.first + 4000000 then s else s.modColl nid fun y => { y with givenUp := true, unacked := [], again := [] }

def execCollectiveGiveUp (node chunk : Nat) (s : State) : Out := .next (collectiveGiveUp node chunk s)

/-- Write the bytes of a chunk that arrives from a peer in 8-byte units; a unit that fails is not written, and one to a migrating page
waits (R104, R124, R331). -/
def State.arrive (s : State) (slot : Fin 8) (peer va : Nat) : List Byte → Nat → State
  | _, 0 => s
  | bs, n + 1 =>
    if bs.isEmpty then s
    else
      let k := min (8 - va % 8) bs.length
      match s.translate slot (16384 + peer) 0 .w (BitVec.ofNat 64 va) with
      | (s1, .error _) => s1.arrive slot peer (va + k) (bs.drop k) n
      | (s1, .ok p) =>
        let s2 := if p.mig && p.tier ≤ 1 then s1.stallWrite (.peer peer) p (bs.take k) else (s1.ioWrite p (bs.take k)).2
        s2.arrive slot peer (va + k) (bs.drop k) n

/-- COLLECTIVE_CHUNK_RECEIVE: a chunk from a peer for a context that runs here is written; any other is refused unwritten, and so is
every one while a gang switch is under way (R331, R336, R422). -/
def collectiveChunkReceive (key : BitVec 8) (src : Fin 16384) (addr : Nat) (data : List Byte) (s : State) : State :=
  match s.running with
  | none => s
  | some r =>
    if s.switching || (s.ctxs[r]).elim true (fun c => c.key != key) then s
    else s.arrive r src.val addr data (data.length / 8 + 2)

def execCollectiveChunkReceive (key : BitVec 8) (src : Fin 16384) (addr : Nat) (data : List Byte) (s : State) : Out :=
  .next (collectiveChunkReceive key src addr data s)

end Sys2Proof.Machine
end

