-- ==== Sys2Proof/Machine/Operands.lean ====
section
/-! DEFINITION. Every operand form: which registers an instruction names and over what spans, how a source is read and a
destination written (spec/06_encoding.md R140-R145, spec/07_lane_compute.md R163, spec/09_control.md R206). -/

namespace Sys2Proof.Machine

/-! ## Spans -/

/-- The registers that an instruction names: per-lane and uniform, as sources and as destinations, with the length of each
span. -/
structure Opnds where
  vs : List (VOp × Nat) := []
  vd : List (VOp × Nat) := []
  ss : List (SOp × Nat) := []
  sd : List (SOp × Nat) := []
  deriving DecidableEq, Repr

/-- Registers of a data span of a size (R151). -/
def sizeSpan : Size → Nat
  | .d => 2
  | .q16 => 4
  | _ => 1

/-- Bytes of a size (R151). -/
def sizeBytes : Size → Nat
  | .b | .sb => 1
  | .h | .sh => 2
  | .w => 4
  | .d => 8
  | .q16 => 16

/-- The span of an address operand (R151, R195, R201). -/
def addrSpan (sp : Space) : Nat := if sp = .g then 2 else 1

/-- The span of a control register (R145): none where the number is unassigned. -/
def crSpan (n : BitVec 11) : Option Nat :=
  let k := n.toNat
  if k = 0x002 || k = 0x003 || k = 0x004 || k = 0x018 then some 2
  else if k ≤ 0x006 || (0x008 ≤ k && k ≤ 0x00E) || (0x010 ≤ k && k ≤ 0x015) || k = 0x019 || (0x020 ≤ k && k ≤ 0x027) then
    some 1
  else none

def opsA (o : FormA) : Opnds := { vs := [(o.a, 1), (o.b, 1)], vd := [(o.d, 1)] }
def opsA1 (o : FormA1) : Opnds := { vs := [(o.a, 1)], vd := [(o.d, 1)] }
def opsA3 (o : FormA3) : Opnds := { vs := [(o.a, 1), (o.b, 1), (o.c, 1)], vd := [(o.d, 1)] }
def opsG (o : FormG) : Opnds := { ss := [(o.a, 1), (o.b, 1)], sd := [(o.d, 1)] }

/-- The span of an operand of a conversion (R179). -/
def tySpan (t : Ty) : Nat := if tyWidth t = 64 then 2 else 1

/-- The operands of `cvt`: a narrow destination is also read (R179). -/
def opsCvt (o : FormA1) (st dt : Ty) : Opnds :=
  { vs := (o.a, tySpan st) :: (if tyWidth dt < 32 then [(o.d, 1)] else []), vd := [(o.d, tySpan dt)] }

/-- The operands of `fx` (R177). -/
def opsFx (o : FormA3) (ty : FxTy) (op : FxOp) : Opnds :=
  let n := if ty = .f64 then 2 else 1
  { vs := (o.a, n) :: (if op = .sqrt then [] else [(o.b, n)]) ++ (if op = .fma then [(o.c, n)] else []), vd := [(o.d, n)] }

def opsLd (o : FormM) : Opnds := { vs := [(o.a, addrSpan o.space)], vd := [(o.d, sizeSpan o.size)] }
def opsSt (o : FormM) : Opnds := { vs := [(o.d, sizeSpan o.size), (o.a, addrSpan o.space)] }

/-- The registers that an instruction names (R140, R141). -/
def opnds : Instr → Opnds
  | .iadd o | .isub o | .imul o | .imulh o | .imulhU o | .idiv o | .idivU o | .irem o | .iremU o | .imin o | .iminU o
  | .imax o | .imaxU o | .and o | .or o | .xor o | .shl o | .shr o | .shrA o | .fadd o | .fsub o | .fmul o | .fmin o
  | .fmax o | .bfi o _ _ | .fdiv o _ | .xlane o _ _ => opsA o
  | .iabs o | .popc o | .clz o | .brev o | .bfe o _ _ _ | .fsqrt o | .frcp o | .frsq o | .fexp2 o | .flog2 o | .fsin o
  | .fcos o | .mov o => opsA1 o
  | .imad o | .bmix o _ | .ffma o _ _ _ => opsA3 o
  | .cvt o st dt _ _ _ _ => opsCvt o st dt
  | .fx o ty op _ _ _ _ => opsFx o ty op
  | .icmp _ _ _ a b _ | .fcmp _ _ _ a b _ => { vs := [(a, 1), (b, 1)] }
  | .sel _ d a b _ => { vs := [(a, 1), (b, 1)], vd := [(d, 1)] }
  | .movqRead _ d => { vd := [(d, 1)] }
  | .movqWrite _ a _ => { vs := [(a, 1)] }
  | .movs _ d a _ => { ss := [(a, 1)], vd := [(d, 1)] }
  | .vote _ d _ _ => { sd := [(d, 1)] }
  | .lfold _ d a _ _ => { vs := [(a, 1)], sd := [(d, 1)] }
  | .ld o | .ldx o _ => opsLd o
  | .st o | .stx o _ => opsSt o
  | .atom o c _ _ => { opsLd o with vs := [(o.a, addrSpan o.space), (c, sizeSpan o.size)] }
  | .cas o c e _ => { opsLd o with vs := [(o.a, addrSpan o.space), (c, sizeSpan o.size), (e, sizeSpan o.size)] }
  | .spawn _ a b _ => { vs := [(a, 1), (b, 1)] }
  | .mma _ fw _ _ _ _ => { vs := [(fw, 1)] }
  | .sadd o | .ssub o | .smul o | .sand o | .sor o | .sxor o | .sshl o | .sshr o | .sshrA o | .smin o | .sminU o | .smax o
  | .smaxU o | .sfadd o _ | .sfmul o _ | .pbarr _ o | .dstat o => opsG o
  | .smov d a _ => { ss := [(a, 1)], sd := [(d, 1)] }
  | .bcc _ _ a b _ => { ss := [(a, 1), (b, 1)] }
  | .ret a => { ss := [(a, 2)] }
  | .loop c _ => { ss := [(.s ⟨c.val, by omega⟩, 1)], sd := [(.s ⟨c.val, by omega⟩, 1)] }
  | .qld _ o | .qst o => { ss := [(o.a, addrSpan o.space), (o.b, 1)] }
  | .bar d a (some _) _ => { ss := [(a, 1)], sd := [(d, 1)] }
  | .pbwait _ a b _ | .dsigTok a b _ => { ss := [(a, 1), (b, 1)] }
  | .waitw d a b _ => { ss := [(a, 2), (b, 2)], sd := [(d, 1)] }
  | .sleept a _ | .dsigAbort a _ | .trap a _ _ => { ss := [(a, 1)] }
  | .copy d a _ _ | .dlaunch d a => { ss := [(a, 8)], sd := [(d, 1)] }
  | .tld o | .tst o => { ss := [(o.a, addrSpan o.space), (o.b, 1)] }
  | .cst _ sp d a b _ => { ss := [(d, 1), (a, addrSpan sp), (b, 1)] }
  | .sgfork d a | .sgwait d a => { ss := [(a, 2)], sd := [(d, 1)] }
  | .sgreward d b _ => { ss := [(b, 1)], sd := [(d, 1)] }
  | .sgcancel d a b _ => { ss := [(a, 2), (b, 1)], sd := [(d, 1)] }
  | .wdrun o => { ss := [(o.a, 2), (o.b, 1)], sd := [(o.d, 4)] }
  | .movcRead d n => { sd := [(d, (crSpan n).getD 1)] }
  | .movcWrite a n _ => { ss := [(a, (crSpan n).getD 1)] }
  | .cflush a b _ | .cinv a b _ => { ss := [(a, 2), (b, 1)] }
  | .pref a _ => { ss := [(a, 2)] }
  | .stestChunk o => { ss := [(o.a, 1), (o.b, 1)], sd := [(o.d, 2)] }
  | .stestHold o | .stestAppeal o | .stestFree o => { ss := [(o.a, 1)], sd := [(o.d, 2)] }
  | _ => {}

/-- The guard predicate of an instruction; q0 for one without a guard (R135, R173). -/
def guardOf : Instr → Fin 8
  | .iadd o | .isub o | .imul o | .imulh o | .imulhU o | .idiv o | .idivU o | .irem o | .iremU o | .imin o | .iminU o
  | .imax o | .imaxU o | .and o | .or o | .xor o | .shl o | .shr o | .shrA o | .fadd o | .fsub o | .fmul o | .fmin o
  | .fmax o | .bfi o _ _ | .fdiv o _ | .xlane o _ _ => o.q
  | .iabs o | .popc o | .clz o | .brev o | .bfe o _ _ _ | .fsqrt o | .frcp o | .frsq o | .fexp2 o | .flog2 o | .fsin o
  | .fcos o | .mov o | .cvt o _ _ _ _ _ _ => o.q
  | .imad o | .bmix o _ | .ffma o _ _ _ | .fx o _ _ _ _ _ _ => o.q
  | .qand o | .qor o | .qxor o => o.q
  | .icmp q _ _ _ _ _ | .fcmp q _ _ _ _ _ | .movqRead q _ | .movqWrite q _ _ | .movs q _ _ _ | .vote q _ _ _
  | .lfold q _ _ _ _ | .spawn q _ _ _ | .mma q _ _ _ _ _ => q
  | .ld o | .ldx o _ | .st o | .stx o _ | .atom o _ _ _ | .cas o _ _ _ => o.q
  | _ => 0

/-! ## Registers and predicates -/

/-- Lane `l` of predicate `p`; q0 is always true (R135, R144). -/
def predLane (w : Warp) (p : Fin 8) (l : Nat) : Bool := p == 0 || w.preds[p].getLsbD l

/-- The mask of a predicate. -/
def predMask (w : Warp) (p : Fin 8) : Mask := if p = 0 then BitVec.allOnes 32 else w.preds[p]

/-- The lanes that take part under a guard (R10, R211). -/
def activeMask (w : Warp) (q : Fin 8) : Mask := w.laneok &&& w.path &&& predMask w q

/-- `src(code, l)` of R163, with literal `k`. -/
def src (w : Warp) (k : Word) (c : VOp) (l : Lane) : Word :=
  match c with
  | .v n => w.vregs[n][l]
  | .aq n => match w.aq[n] with
    | [] => 0
    | e :: _ => e.row[l]
  | .sq => 0
  | .lane => BitVec.ofNat 32 l.val
  | .zero => 0
  | .lit => k

/-- Register `n + i` of a span, lane `l`; vzero reads 0 (R140). -/
def srcAt (w : Warp) (c : VOp) (i : Nat) (l : Lane) : Word :=
  match c with
  | .v n => match w.vregs[n.val + i]? with
    | some row => row[l]
    | none => 0
  | _ => 0

/-- `src64(code, l)` of R163. -/
def src64 (w : Warp) (c : VOp) (l : Lane) : DWord := (srcAt w c 1 l) ++ (srcAt w c 0 l)

/-- A per-lane row with the lanes of a mask replaced. -/
def mixRow (m : Mask) (f : Lane → Word) (old : Row) : Row := Vector.ofFn fun l => if m.getLsbD l.val then f l else old[l]

/-- Register `n` with the lanes of a mask replaced. -/
def setVreg (w : Warp) (n : Nat) (m : Mask) (f : Lane → Word) : Warp :=
  if h : n < 120 then { w with vregs := w.vregs.set n (mixRow m f w.vregs[n]) } else w

/-- `dst(d, l, f l)` of R163 in every lane of the mask: a register, sq0's next entry, or nothing. -/
def dst (m : Mask) (d : VOp) (f : Lane → Word) (w : Warp) : Warp :=
  match d with
  | .v n => setVreg w n.val m f
  | .sq => { w with sq := w.sq ++ [⟨w.nextTicket, true, mixRow m f (Vector.replicate 32 0), m⟩], nextTicket := w.nextTicket + 1 }
  | _ => w

/-- Register `n + i` of a destination span. -/
def dstAt (m : Mask) (d : VOp) (i : Nat) (f : Lane → Word) (w : Warp) : Warp :=
  match d with
  | .v n => setVreg w (n.val + i) m f
  | _ => w

/-- `dst64(d, l, f l)` of R163. -/
def dst64 (m : Mask) (d : VOp) (f : Lane → DWord) (w : Warp) : Warp :=
  dstAt m d 1 (fun l => (f l).extractLsb' 32 32) (dstAt m d 0 (fun l => (f l).extractLsb' 0 32) w)

/-- Predicate `p` with the lanes of a mask replaced; a write to q0 is ignored (R144). -/
def setPred (w : Warp) (p : Fin 8) (m : Mask) (f : Mask) : Warp :=
  if p = 0 then w else { w with preds := w.preds.set p ((w.preds[p] &&& ~~~m) ||| (f &&& m)) }

/-- The mask of the lanes for which `f` holds. -/
def maskOf (f : Lane → Bool) : Mask := BitVec.ofFnLE f

/-- The lanes of a mask, ascending. -/
def lanesOf (m : Mask) : List Lane := (List.finRange 32).filter fun l => m.getLsbD l.val

/-- All flags that the lanes of a mask raise (R63). -/
def flagsOf (m : Mask) (f : Lane → Flags) : Flags := (lanesOf m).foldl (fun a l => a ||| f l) 0

/-! ## Uniform registers -/

/-- A uniform source in a register file (R141). -/
def sget (r : Vector Word 63) (k : Word) (c : SOp) : Word :=
  match c with
  | .s n => r[n]
  | .lit => k

/-- Register `i` of a uniform span. -/
def sgetAt (r : Vector Word 63) (c : SOp) (i : Nat) : Word :=
  match c with
  | .s n => (r[n.val + i]?).getD 0
  | .lit => 0

/-- The 64-bit value of a uniform pair (R7). -/
def sget64 (r : Vector Word 63) (c : SOp) : DWord := sgetAt r c 1 ++ sgetAt r c 0

/-- The number of a uniform destination. -/
def sidx : SOp → Nat
  | .s n => n.val
  | .lit => 63

/-! ## Queues (R44) -/

/-- The aq queues that a list of sources names, each once. -/
def namedQueues (vs : List (VOp × Nat)) : List (Fin 4) :=
  (List.finRange 4).filter fun n => vs.any fun p => p.1 == .aq n

/-- Pop the head of each queue. -/
def popQueues (qs : List (Fin 4)) (w : Warp) : Warp :=
  qs.foldl (fun (x : Warp) (n : Fin 4) => { x with aq := x.aq.set n (x.aq[n].drop 1) }) w

/-- A queue has a head that has arrived. -/
def headReady (q : List QEntry) : Bool :=
  match q with
  | [] => false
  | e :: _ => e.full

end Sys2Proof.Machine
end

