-- ==== Sys2Proof/Machine/Legal.lean ====
section
/-! DEFINITION. What raises trap 0x01 or 0x02 at issue (spec/06_encoding.md R140-R143, R152; spec/07_lane_compute.md R184;
spec/08_memory_instr.md R205; spec/09_control.md R241; spec/10_matrix.md R242, R243, R264;
spec/20_instruction_faults.md R378, R383). -/

namespace Sys2Proof.Machine

/-! ## Register codes (R39, R140, R141) -/

/-- A per-lane source span that the warp's budget allows. -/
def vsrcOk (budget : Nat) (p : VOp × Nat) : Bool :=
  match p.1 with
  | .v n => n.val % p.2 == 0 && n.val + p.2 ≤ budget
  | .zero => true
  | .sq => false
  | _ => p.2 == 1

/-- A per-lane destination span that the warp's budget allows. -/
def vdstOk (budget : Nat) (p : VOp × Nat) : Bool :=
  match p.1 with
  | .v n => n.val % p.2 == 0 && n.val + p.2 ≤ budget
  | .zero => true
  | .sq => p.2 == 1
  | _ => false

/-- A uniform source span. -/
def ssrcOk (p : SOp × Nat) : Bool :=
  match p.1 with
  | .s n => n.val % p.2 == 0 && n.val + p.2 ≤ 63
  | .lit => p.2 == 1

/-- A uniform destination span. -/
def sdstOk (p : SOp × Nat) : Bool :=
  match p.1 with
  | .s n => n.val % p.2 == 0 && n.val + p.2 ≤ 63
  | .lit => false

/-- Every register code stands where it may. -/
def codesOk (budget : Nat) (o : Opnds) : Bool :=
  o.vs.all (vsrcOk budget) && o.vd.all (vdstOk budget) && o.ss.all ssrcOk && o.sd.all sdstOk

/-! ## Overlap (R143, R383) -/

/-- Two spans share a register at different bases. -/
def clash (a n b m : Nat) : Bool := a != b && a < b + m && b < a + n

def vclash (p q : VOp × Nat) : Bool :=
  match p.1, q.1 with
  | .v a, .v b => clash a.val p.2 b.val q.2
  | _, _ => false

def sclash (p q : SOp × Nat) : Bool :=
  match p.1, q.1 with
  | .s a, .s b => clash a.val p.2 b.val q.2
  | _, _ => false

/-- A destination partly overlaps a source. -/
def overlaps (o : Opnds) : Bool := o.vd.any (fun d => o.vs.any (vclash d)) || o.sd.any (fun d => o.ss.any (sclash d))

/-! ## Field values (R184, R205, R241, R264) -/

/-- The highest sub-element index of a type (R179). -/
def maxElem (t : Ty) : Nat := if tyWidth t ≤ 8 then 3 else if tyWidth t = 16 then 1 else 0

/-- The address of a .g access is a register pair (R151). -/
def gAddrOk (o : FormM) : Bool :=
  match o.space, o.a with
  | .g, .v _ => true
  | .g, _ => false
  | _, _ => true

/-- The size, space and operation that R190 accepts. -/
def atomOk (op : AtomOp) (z : Size) (sp : Space) : Bool :=
  match op, z with
  | .add, .b | .and, .b | .or, .b | .xor, .b | .exch, .b | .add, .h | .and, .h | .or, .h | .xor, .h | .exch, .h => sp != .g
  | _, .w => true
  | .fadd, .d | .fmin, .d | .fmax, .d => false
  | _, .d => true
  | _, _ => false

/-- The values of the fields of an instruction are all allowed. -/
def fieldsOk : Instr → Bool
  | .bfe _ _ len pos | .bfi _ len pos => len.toNat != 0 && len.toNat ≤ 32 && pos.toNat + len.toNat ≤ 32
  | .fx o _ op _ nb nc rm =>
    (op == .fma || (o.c == .v 0 && !nc)) && (op != .sqrt || (o.b == .v 0 && !nb))
      && ((op != .min && op != .max) || rm == .rne)
  | .cvt o st dt _ rm se de =>
    se.toNat ≤ maxElem st && de.toNat ≤ maxElem dt
      && (rm == .rne || !(dt == .t8 || dt == .t6 || (tyKind st == .int && tyKind dt == .int)))
      && !(o.d == .sq && tyWidth dt < 32)
  | .ld o | .ldx o _ => gAddrOk o && o.d != .sq
  | .st o | .stx o _ => gAddrOk o && o.size != .sb && o.size != .sh
  | .atom o _ op _ => gAddrOk o && !o.order && o.space != .p && o.d != .sq && atomOk op o.size o.space
  | .cas o _ _ _ => gAddrOk o && !o.order && o.space != .p && o.d != .sq && (o.size == .w || o.size == .d)
  | .qld _ o => o.size != .d && o.size != .q16
  | .qst o => o.size == .b || o.size == .h || o.size == .w
  | .copy _ _ dsp ssp => dsp != .p && ssp != .p
  | .tld o | .tst o => o.space != .p
  | .cst _ sp _ _ _ _ => sp != .p
  | .czero m => m != 0
  | .movcRead _ n | .movcWrite _ n _ => (crSpan n).isSome
  | .unassignedOpcode _ => false
  | _ => true

/-- The instruction may be executed by an access slice (R43). -/
def sliceMay : Instr → Bool
  | .sadd _ | .ssub _ | .smul _ | .sand _ | .sor _ | .sxor _ | .sshl _ | .sshr _ | .sshrA _ | .smin _ | .sminU _ | .smax _
  | .smaxU _ | .smov _ _ _ | .sfadd _ _ | .sfmul _ _ | .bra _ | .bcc _ _ _ _ _ | .loop _ _ | .qld _ _ | .qst _ | .nop
  | .exit => true
  | _ => false

/-- The instruction may be executed only by an access slice (R195). -/
def sliceOnly : Instr → Bool
  | .qld _ _ | .qst _ => true
  | _ => false

/-- A service-only instruction (R240). -/
def serviceOnly : Instr → Bool
  | .stestHold _ | .stestChunk _ | .stestAppeal _ | .stestFree _ => true
  | _ => false

/-- The instruction reads or writes matrix state, so its part must claim it (R242). -/
def needsClaim : Instr → Bool
  | .mma _ _ _ _ _ _ | .czero _ | .cst _ _ _ _ _ _ | .tld _ | .tst _ | .wdrun _ => true
  | .movcRead _ n | .movcWrite _ n _ => 0x020 ≤ n.toNat && n.toNat ≤ 0x027
  | _ => false

/-- The key of a shape register in `State.tshape`. -/
def tshapeKey (part pt t : Nat) : Nat := (part * 16 + pt) * 8 + t

/-- cr.tshapeN of a partition (R243). -/
def State.shapeOf (s : State) (part pt t : Nat) : Word := (tget s.tshape (tshapeKey part pt t)).getD 0x00800020

/-- Bytes per row and rows of a shape. -/
def shapeW (x : Word) : Nat := x.toNat / 65536 % 8192
def shapeRows (x : Word) : Nat := x.toNat % 512

/-- The shape is valid (R243). -/
def shapeOk (x : Word) : Bool :=
  shapeW x != 0 && shapeW x % 16 == 0 && 1 ≤ shapeRows x && shapeRows x ≤ 256 && shapeRows x * shapeW x ≤ 4096

/-- The tile whose shape an instruction uses. -/
def shapedTile : Instr → Option (Fin 8)
  | .tld o | .tst o => some o.t
  | _ => none

/-- The cause that steps 4 to 6 of R378 give an instruction of a warp, in their order; none when it passes them. -/
def State.illegal (s : State) (w : Warp) (p : Part) (slice : Bool) (i : Instr) : Option (BitVec 8) :=
  let o := opnds i
  let node := s.nodeOf w
  if !fieldsOk i || !codesOk w.rcount.toNat o then some 0x01
  else if (slice && !sliceMay i) || (!slice && sliceOnly i) then some 0x01
  else if serviceOnly i && node.elim true (fun n => n.kind != .selftest) then some 0x14
  else if overlaps o then some 0x02
  else if needsClaim i && !p.claim then some 0x01
  else if (shapedTile i).elim false fun t => !shapeOk (s.shapeOf w.part (w.wslot.toNat % 16) t) then some 0x01
  else none

end Sys2Proof.Machine
end

