-- ==== Sys2Proof/Machine/Issue.lean ====
section
/-! DEFINITION. The issue of one instruction by a warp or by its access slice: readiness, pending errors, the checks at issue,
and the ways an instruction ends (spec/02_execution_model.md R33, R43-R45; spec/08_memory_instr.md R192-R193;
spec/19_fault_model.md R368-R375; spec/20_instruction_faults.md R378-R379). -/

namespace Sys2Proof.Machine

/-- An instruction in the act of issuing. -/
structure Ctx where
  s : State
  wid : Nat
  w : Warp
  p : Part
  slice : Bool
  i : Instr
  act : Mask
  /-- The lanes that were live when it issued (R181). -/
  live : Mask
  deriving DecidableEq, Repr

namespace Ctx

/-- The program counter of the issuing stream. -/
def pc (c : Ctx) : DWord := if c.slice then c.w.slice.elim 0 (·.pc) else c.w.pc

/-- The uniform registers of the issuing stream (R43). -/
def sregs (c : Ctx) : Vector Word 63 :=
  if c.slice then c.w.slice.elim (Vector.replicate 63 0) (·.sregs) else c.w.sregs

/-- The literal word. -/
def k (c : Ctx) : Word := c.i.lit

/-- A uniform source. -/
def sv (c : Ctx) (x : SOp) : Word := sget c.sregs c.k x

/-- A uniform pair. -/
def sv64 (c : Ctx) (x : SOp) : DWord := sget64 c.sregs x

/-- A per-lane source. -/
def v (c : Ctx) (x : VOp) (l : Lane) : Word := src c.w c.k x l

/-- The address of the next instruction. The manual does not say what follows one that ends at 2^55, nor a launch entry with higher bits
set: the pc keeps them, and the fetch there finds no address (DESIGN CHOICE, log 58). -/
def nextPc (c : Ctx) : DWord := c.pc + BitVec.ofNat 64 c.i.length

/-- The core. -/
def core (c : Ctx) : Nat := c.p.core

/-- The die. -/
def die (c : Ctx) : Nat := dieOfCore c.p.core

/-- The partition (R30). -/
def pt (c : Ctx) : Nat := c.w.wslot.toNat % 16

end Ctx

/-! ## Changing the issuing stream -/

/-- A warp with the program counter of one of its streams set. -/
def setPc (slice : Bool) (a : DWord) (w : Warp) : Warp :=
  if slice then { w with slice := w.slice.map fun x => { x with pc := a } } else { w with pc := a }

/-- A warp with uniform register `d` of one of its streams set (R43). -/
def setS (slice : Bool) (d : SOp) (x : Word) (w : Warp) : Warp :=
  match d with
  | .lit => w
  | .s n =>
    if slice then
      { w with slice := w.slice.map fun y => { y with sregs := y.sregs.set n x, badSregs := y.badSregs.filter (· != n.val) } }
    else setSreg w n.val x

/-- A warp with a uniform pair set (R7). -/
def setS64 (slice : Bool) (d : SOp) (x : DWord) (w : Warp) : Warp :=
  match d with
  | .lit => w
  | .s n => setSreg (setS slice d (x.extractLsb' 0 32) w) (n.val + 1) (x.extractLsb' 32 32)

/-- The storage addresses of the lanes of a span's registers. -/
def spanLocs (wid : Nat) (m : Mask) (vd : List (VOp × Nat)) : List Nat :=
  vd.flatMap fun p =>
    match p.1 with
    | .v n => (List.range p.2).flatMap fun j => (lanesOf m).map fun l => regLoc wid (n.val + j) l.val
    | _ => []

/-- The words of the uniform registers of some spans. -/
def uniLocs (wid : Nat) (slice : Bool) (xs : List (SOp × Nat)) : List Nat :=
  xs.flatMap fun p =>
    match p.1 with
    | .s n => (List.range p.2).map fun j => uniLoc wid slice (n.val + j)
    | .lit => []

/-- Registers written whole have good check bits. -/
def State.healRegs (s : State) (locs : List Nat) : State :=
  if s.bad.isEmpty && s.reported.isEmpty then s
  else { s with bad := s.bad.filter fun a => !locs.contains a, reported := s.reported.filter fun a => !locs.contains a }

namespace Ctx

/-- The instruction issues: it is counted, its queue sources are popped once (R44), `f` changes the warp, and control goes to
`a`. -/
def finishAt (c : Ctx) (a : DWord) (f : Warp → Warp) : State :=
  let o := opnds c.i
  ((c.s.coreEvent c.core 1).modWarp c.wid fun w => setPc c.slice a (f (popQueues (namedQueues o.vs) w))).healRegs
    (spanLocs c.wid c.act o.vd ++ uniLocs c.wid c.slice o.sd)

/-- The instruction issues, and the next one follows it. -/
def finish (c : Ctx) (f : Warp → Warp) : State := c.finishAt c.nextPc f

/-- The instruction is not ready: nothing happens (R33). -/
def stall (c : Ctx) : State := c.s

/-- A trap of the instruction, precise: delivered to the warp, or left in the slice for the warp's next boundary (R371). -/
def raiseFull (c : Ctx) (t : Trap) : State :=
  if c.slice then
    c.s.modWarp c.wid fun w => { w with slice := w.slice.map fun x => { x with fault := some t, stopped := true } }
  else c.s.deliver c.wid t c.pc false false

/-- A trap that belongs to no lane. -/
def raise (c : Ctx) (code : BitVec 8) (value : DWord) : State := c.raiseFull { code := code, value := value }

/-- A trap that a lane decided. -/
def raiseLane (c : Ctx) (code : BitVec 8) (value : DWord) (l : Lane) : State :=
  c.raiseFull { code := code, value := value, lane := BitVec.ofNat 6 l.val }

end Ctx

/-! ## Readiness -/

/-- Registers of per-lane spans, by number. -/
def spanRegs (xs : List (VOp × Nat)) : List Nat :=
  xs.flatMap fun p =>
    match p.1 with
    | .v n => (List.range p.2).map fun j => n.val + j
    | _ => []

/-- The destination registers of an outstanding operation (R193). -/
def opRegs (o : OutOp) : List Nat :=
  match o.kind with
  | .load z d => spanRegs [(d, sizeSpan z)]
  | .atom _ z d => spanRegs [(d, sizeSpan z)]
  | .cas z d => spanRegs [(d, sizeSpan z)]
  | _ => []

/-- The registers of warp `wid` whose rows an outstanding operation accesses through .s (R86). -/
def accRegs (wid : Nat) (o : OutOp) : List Nat :=
  o.accs.filterMap fun a => (locReg a.place.loc).bind fun x => if x.1 = wid then some (x.2 / 128) else none

/-- An outstanding load or atomic holds a register that the instruction reads or writes (R193), or an outstanding access of the
warp goes to one of these rows (R86). -/
def heldReg (wid : Nat) (w : Warp) (o : Opnds) : Bool :=
  let mine := spanRegs (o.vs ++ o.vd)
  w.ops.any fun x => (opRegs x ++ accRegs wid x).any fun r => mine.contains r

/-- A `movc` of cr.fflags follows the outstanding atomics of the warp that may set a flag (R63, R79). -/
def flagsHeld (w : Warp) (i : Instr) : Bool :=
  let ofFlags := match i with
    | .movcRead _ n | .movcWrite _ n _ => n == 0x005
    | _ => false
  ofFlags && w.ops.any fun o => match o.kind with
    | .atom .fmin _ _ | .atom .fmax _ _ => true
    | _ => false

/-- The stream may not issue now: another slot runs, or a gang switch is under way (R329), its block is away or stopped, it waits, or a register is held. -/
def State.blocked (s : State) (wid : Nat) (w : Warp) (slice : Bool) (i : Instr) : Bool :=
  !s.onTurn w.slot || (tget s.blocks w.block).elim true (fun b => !b.resident || b.stopping)
    || w.ended || w.stopped
    || (if slice then w.slice.elim true (fun x => x.stopped || x.fault.isSome) else w.wait.isSome)
    || (!slice && (heldReg wid w (opnds i) || flagsHeld w i))

/-- A queue source is empty, or sq0 is full (R33, R44). -/
def queuesStall (w : Warp) (o : Opnds) : Bool :=
  (namedQueues o.vs).any (fun n => !headReady w.aq[n]) || (o.vd.any (fun p => p.1 == .sq) && 8 ≤ w.sq.length)

/-- Operations outstanding on a counter (R192). -/
def outstanding (w : Warp) (c : Ctr) : Nat := (w.ops.filter fun o => o.ctr == c).length

/-- Copies of a warp that its copy counter still counts: they complete in issue order, so a finished one behind an
unfinished one still counts (R117, R192). -/
def copiesOut : List Copy → Nat
  | [] => 0
  | c :: r => if c.finished then copiesOut r else (c :: r).length

/-- The copies of a warp in issue order. -/
def State.copiesOf (s : State) (wid : Nat) : List Copy := (s.copies.filter fun p => p.2.wid == wid).map (·.2)

/-- The value of a warp's counter (R192). -/
def State.counter (s : State) (wid : Nat) (w : Warp) (c : Ctr) : Nat :=
  match c with
  | .copies => copiesOut (s.copiesOf wid)
  | _ => outstanding w c

/-- The number of a counter in `Warp.issued`. -/
def ctrIdx : Ctr → Fin 4
  | .loads => 0
  | .stores => 1
  | .copies => 2
  | .tiles => 3

/-! ## Pending errors (R368, R369) -/

/-- A `waitc` limit for a counter. -/
def limitOf (l s c t : BitVec 6) (k : Ctr) : Nat :=
  match k with
  | .loads => l.toNat
  | .stores => s.toNat
  | .copies => c.toNat
  | .tiles => t.toNat

/-- The releases of R111 other than `fence.warp`. -/
def isRelease : Instr → Bool
  | .st o | .stx o _ => o.order
  | .atom _ _ _ od | .cas _ _ _ od => match od with
    | .rel _ | .ar _ => true
    | _ => false
  | .fence sc => sc != .warp
  | .pbarr _ _ | .bar _ _ _ _ | .barc | .copy _ _ _ _ | .dlaunch _ _ | .sgfork _ _ | .sgreward _ _ _ => true
  | _ => false

/-- The tiles that an instruction names. -/
def tilesNamed : Instr → List Nat
  | .tld o | .tst o => [o.t.val]
  | .mma _ _ _ ta tb _ => [ta.val, tb.val]
  | _ => []

/-- The instruction is a delivery point for a pending error (R368). -/
def isDelivery (w : Warp) (regs : Vector Word 63) (i : Instr) (e : PendErr) : Bool :=
  let o := opnds i
  (spanRegs (o.vs ++ o.vd)).any (fun r => e.regs.contains r)
    || e.tile.elim false (fun t => (tilesNamed i).contains t)
    || (match i, e.op with
        | .waitc l s c t, some (k, n) =>
          let lim := limitOf l s c t k
          lim ≤ 62 && lim ≤ w.issued[ctrIdx k] - n
        | _, _ => false)
    || (match i, e.copy with
        | .sleept a kw, some q => (sget regs kw a).toNat == q
        | _, _ => false)
    || (isRelease i && e.copy.isNone)

/-- The error that the instruction delivers: the oldest, where it is a delivery point for any and no handler runs. -/
def dueError (w : Warp) (i : Instr) : Option PendErr :=
  if w.hnd || !w.errs.any (isDelivery w w.sregs i) then none else w.errs.head?

/-! ## Bad data -/

/-- The uniform registers of a stream whose words cannot be corrected. -/
def badRegs (w : Warp) (slice : Bool) : List Nat := if slice then w.slice.elim [] (·.badSregs) else w.badSregs

/-- A uniform source register cannot be corrected (R378 step 7). -/
def badUniform (bad : List Nat) (o : Opnds) : Bool :=
  !bad.isEmpty && o.ss.any fun p =>
    match p.1 with
    | .s n => (List.range p.2).any fun j => bad.contains (n.val + j)
    | .lit => false

/-- Lane `l` of one of the registers carries bad check bits. -/
def State.badLane (s : State) (wid : Nat) (regs : List Nat) (l : Nat) : Bool :=
  regs.any fun r => s.bad.contains (regLoc wid r l)

/-- The lanes that die because they read a register word that cannot be corrected (R375, R379). For `xlane` it is the reading
lane, so its own meaning decides (R181). The format words of `mma` are no per-lane data: its own meaning checks them (R388). -/
def State.dyingLanes (s : State) (wid : Nat) (act : Mask) (i : Instr) : Mask :=
  if s.bad.isEmpty then 0
  else
    match i with
    | .xlane o _ _ => maskOf fun l => act.getLsbD l.val && s.badLane wid (spanRegs [(o.b, 1)]) l.val
    | .mma _ _ _ _ _ _ => 0
    | _ => maskOf fun l => act.getLsbD l.val && s.badLane wid (spanRegs (opnds i).vs) l.val

/-- Report the bad words that dying lanes have met (R390). -/
def State.meetRegs (s : State) (wid : Nat) (regs : List Nat) (m : Mask) : State :=
  (lanesOf m).foldl (fun t l => regs.foldl (fun u r => u.meet (regLoc wid r l.val) 4) t) s

/-! ## Issue -/

/-- The lanes die, and the instruction goes on in the others; where the warp has ended, nothing is left to do. -/
def Ctx.withoutLanes (c : Ctx) (m : Mask) (body : Ctx → State) : State :=
  let s1 := (c.s.meetRegs c.wid (spanRegs (opnds c.i).vs) m).killLanes c.wid m
  match tget s1.warps c.wid with
  | none => s1
  | some w => if w.ended then s1 else body { c with s := s1, w := w, act := c.act &&& ~~~m }

/-- The bad uniform words that the instruction has met are reported (R390). -/
def Ctx.meetUniform (c : Ctx) : Ctx :=
  let bad := (badRegs c.w c.slice).map (uniLoc c.wid c.slice)
  { c with s := ((uniLocs c.wid c.slice (opnds c.i).ss).filter bad.contains).foldl State.reportWord c.s }

/-- What a pending error does at its delivery point: it leaves the warp and is delivered imprecisely (R369). -/
def State.deliverErr (s : State) (wid : Nat) (pc : DWord) (e : PendErr) : State :=
  (s.modWarp wid fun w => { w with errs := w.errs.drop 1 }).deliver wid e.trap pc true false

/-- Steps 4 to 8 of R378 for an instruction whose words are fetched: the checks at issue, readiness, and then `body`, which makes
the instruction's own checks and has its effect. -/
def Ctx.run (c : Ctx) (body : Ctx → State) : State :=
  match c.s.illegal c.w c.p c.slice c.i with
  | some code => c.raise code ((firstWord c.i).setWidth 64)
  | none =>
    if queuesStall c.w (opnds c.i) then c.stall
    else if badUniform (badRegs c.w c.slice) (opnds c.i) then c.meetUniform.raise 0x0B 0
    else
      let m := c.s.dyingLanes c.wid c.act c.i
      if m = 0 then body c else c.withoutLanes m body

/-- Issue an instruction in the stream of a warp, or of its slice. -/
def issueBy (i : Instr) (s : State) (wid : Nat) (slice : Bool) (body : Ctx → State) :
    Host.Outcome State Fault Refusal :=
  match tget s.warps wid with
  | none => .fault .noIssuer
  | some w =>
    match tget s.parts w.part with
    | none => .fault .noIssuer
    | some p =>
      if s.blocked wid w slice i then .next s
      else
        match (if slice then none else dueError w i) with
        | some e => .next (s.deliverErr wid w.pc e)
        | none => .next (Ctx.run ⟨s, wid, w, p, slice, i, activeMask w (guardOf i), w.laneok⟩ body)

/-- Issue an instruction in the stream that is executing. -/
def issue (i : Instr) (s : State) (body : Ctx → State) : Host.Outcome State Fault Refusal :=
  match s.agent with
  | .none => .fault .noIssuer
  | .warp wid => issueBy i s wid false body
  | .slice wid => issueBy i s wid true body

end Sys2Proof.Machine
end

