-- ==== Sys2Proof/Machine/Fetch.lean ====
section
/-! DEFINITION. The passing of time, the fetch of an instruction's words (spec/06_encoding.md R133, spec/20_instruction_faults.md
R378 steps 1 to 3), and the placing of one instruction where the next step fetches it. -/

namespace Sys2Proof.Machine

/-! ## Time (R24, R25, R324, R346) -/

/-- How much of the next `ns` nanoseconds the running context has: from the target time of a gang switch on it has none (R324, R329). -/
def State.runTime (s : State) (ns : Nat) : Nat := s.armed.elim ns fun a => min ns (a.time - s.gtime.toNat)

/-- `ns` nanoseconds pass. A die's clock count is kept in 160ths of a core clock and a stack's in 128ths of a stack clock, so that
every operating point advances it by a whole number: 1.3 (16 - p) / 16 = 13 (16 - p) / 160 and 1.5625 (8 - p) / 8 = 25 (8 - p) / 128. -/
def State.tick (s : State) (ns : Nat) : State :=
  { s with
    gtime := s.gtime + BitVec.ofNat 64 ns
    ctxs := match s.running with
      | none => s.ctxs
      | some r => s.ctxs.set r ((s.ctxs[r]).map fun c => { c with time := c.time + s.runTime ns })
    dieClk := Vector.ofFn fun d : Fin 8 => s.dieClk[d] + ns * 13 * (16 - (s.corePoints[d]).toNat)
    stackClk := Vector.ofFn fun k : Fin 32 => s.stackClk[k] + ns * 25 * (8 - (s.stackPoints[k]).toNat)
    nodes := s.nodes.map fun x => (x.1, s.ageNode (s.runTime ns) x.1 x.2) }

/-- Whole core clocks of a die. -/
def State.coreClocks (s : State) (die : Nat) : Nat := (s.dieClk[die]?).getD 0 / 160

/-- Whole stack clocks of a stack. -/
def State.stackClocks (s : State) (stack : Nat) : Nat := (s.stackClk[stack]?).getD 0 / 128

/-! ## Fetch -/

/-- Fetch one word of an instruction for a warp, with the execute right: the word, or the cause of the failed fetch (R133). -/
def State.fetchWord (s : State) (w : Warp) (va : DWord) : Except (BitVec 8) Word × State :=
  let core := s.coreOf w
  match s.translate w.slot core (dieOfCore core) .x va with
  | (s1, .error c) => (.error c, s1)
  | (s1, .ok p) =>
    let a := s1.ask p
    match a.2.readMem a.1 4 with
    | (.bytes bs, s2) => (.ok (BitVec.ofNat 32 (leNat bs)), s2)
    | (.dead, s2) => (.error 0x0B, s2)
    | (_, s2) => (.error 0x0C, s2)

/-- What a fetch comes to: an instruction to execute, or a state in which nothing is left to execute in this step. -/
inductive Fetched where
  | run (i : Instr) (s : State)
  | stop (s : State)
  deriving DecidableEq, Repr

/-- A trap of the stream at its own instruction: delivered, or left in the slice (R371). -/
def State.raiseIn (s : State) (wid : Nat) (slice : Bool) (pc : DWord) (code : BitVec 8) (value : DWord) : State :=
  let t : Trap := { code := code, value := value }
  if slice then s.modWarp wid fun w => { w with slice := w.slice.map fun x => { x with fault := some t, stopped := true } }
  else s.deliver wid t pc false false

/-- Step 3 of R378 and the decoding: `i0` is the instruction with literal word 0, which names the same registers. -/
def State.fetchLit (s : State) (w : Warp) (wid : Nat) (slice : Bool) (pc : DWord) (w0 e : Word) : Fetched :=
  let at_ := if hasExt (w0.toNat / 0x1000000) then pc + 8 else pc + 4
  let lit := if hasLit w0.toNat e.toNat then s.fetchWord w at_ else (.ok 0, s)
  match lit with
  | (.error c, s1) => .stop (s1.raiseIn wid slice pc c at_)
  | (.ok k, s1) =>
    match decodeWords w0.toNat e.toNat k.toNat with
    | .ok i => .run i s1
    | .error _ => .stop (s1.raiseIn wid slice pc 0x01 (w0.setWidth 64))

/-- The pending error that the instruction of these words delivers at step 2 of R378, by the registers that the words name (log 26). -/
def dueOf (w : Warp) (slice : Bool) (w0 e : Word) : Option PendErr :=
  if slice then none else (namedInstr w0.toNat e.toNat).bind (dueError w)

/-- The instruction of these words waits for a register that an outstanding operation holds (R193). -/
def heldBy (wid : Nat) (w : Warp) (slice : Bool) (w0 e : Word) : Bool :=
  !slice && (namedInstr w0.toNat e.toNat).elim false fun i => heldReg wid w (opnds i)

/-- Steps 1 to 3 of R378 at the program counter of a stream. -/
def State.fetchAt (s : State) (w : Warp) (wid : Nat) (slice : Bool) (pc : DWord) : Fetched :=
  match s.fetchWord w pc with
  | (.error c, s1) => .stop (s1.raiseIn wid slice pc c pc)
  | (.ok w0, s1) =>
    let ext := if hasExt (w0.toNat / 0x1000000) then s1.fetchWord w (pc + 4) else (.ok 0, s1)
    match ext with
    | (.error c, s2) => .stop (s2.raiseIn wid slice pc c (pc + 4))
    | (.ok e, s2) =>
      if heldBy wid w slice w0 e then .stop s2
      else match dueOf w slice w0 e with
        | some err => .stop (s2.deliverErr wid pc err)
        | none => s2.fetchLit w wid slice pc w0 e

/-- The warp's streams may act: its slot runs with no gang switch under way, its block is in place, and it has neither ended nor been
stopped (R329). -/
def State.mayAct (s : State) (w : Warp) : Bool :=
  s.onTurn w.slot && (tget s.blocks w.block).elim false (fun b => b.resident && !b.stopping)
    && !w.ended && !w.stopped

/-- A fault of the access slice that the compute slice's present boundary takes (R371, R385). A warp that drains its queue at
`exit` stands at a boundary; a warp in another wait does not (log 25). -/
def sliceFault (w : Warp) : Option Trap :=
  match w.wait with
  | some ⟨.exitDrain, _, _⟩ | none => w.slice.bind (·.fault)
  | some _ => none

/-- What the next turn of a warp's stream executes (R371, R378). -/
def State.fetch (s : State) (wid : Nat) (slice : Bool) : Fetched :=
  match tget s.warps wid with
  | none => .stop s
  | some w =>
    if !s.mayAct w then .stop s
    else if slice then
      match w.slice with
      | none => .stop s
      | some x => if x.stopped || x.fault.isSome then .stop s else s.fetchAt w wid true x.pc
    else
      match sliceFault w with
      | some t => .stop (s.deliver wid t w.pc false true)
      | none => if w.wait.isSome then .stop s else s.fetchAt w wid false w.pc

/-- The next turn and the state without it: the head of the agenda, or a free choice (log 2). -/
def State.nextTurn (s : State) : Turn × State :=
  match s.agenda with
  | [] => (Config.turn s.choices, { s with choices := s.choices + 1 })
  | t :: r => (t, { s with agenda := r })

/-! ## A program in place (log 3) -/

/-- A warp as the scheduler places it (R38), with all lanes live. -/
def Warp.placed (slot : Fin 8) (block part : Nat) (pc : DWord) : Warp :=
  { slot := slot, block := block, part := part, pc := pc, vregs := Vector.replicate 120 (Vector.replicate 32 0),
    sregs := Vector.replicate 63 0, badSregs := [], preds := Vector.replicate 8 0, path := BitVec.allOnes 32, stack := [],
    ops := [], nextOp := 0, issued := Vector.replicate 4 0, paths := [], slice := none,
    aq := Vector.replicate 4 [], sq := [], nextTicket := 0, laneok := BitVec.allOnes 32, spawned := false, index := 0,
    wslot := 0, role := 0, rprio := 0, rbase := 0, rcount := 120, pbase := 0, plimit := 0, status := 0, cause := 0, epc := 0,
    eval := 0, tvec := 0, fflags := 0, errs := [], wait := none, lastPromise := none, polled := 0, ended := false, stopped := false }

/-- A part of one warp that claims its partition's matrix state. -/
def Part.placed : Part :=
  { block := 1, num := 0, core := 0, threads := 32, scratch := 0, sbase := 0, claimBytes := 0, region := [], sets := 0,
    priv := 0, claim := true, spawnRegs := 120, spawnPrio := 0, spawnRole := 0, l1 := [], heldCount := 0, bar := [] }

def Block.placed : Block :=
  { slot := 0, node := 0, index := 0, x := 0, y := 0, z := 0, member := none, parts := [2], resident := true, together := false,
    out := 0, barc := [], stopping := false, ended := false }

def Node.placed : Node :=
  { slot := 0, addr := 0, kind := .launch, parent := none, root := 0, eff := ⟨0, 1, 0, 0, 0, 0⟩, deps := [],
    body := 0, kp0 := 0, kp1 := 0, kp2 := 0, kp3 := 0, launch := none, started := true, status := none, nextBlock := 1,
    totalBlocks := 1, nextDie := 0, spoiled := false, draining := false, killing := false, readySince := none, used := 0,
    turn := 0 }

def Context.placed : Context :=
  { key := 1, ptRoot := 0x10000, save := 0, defaults := ⟨0, 1, 0, 0, 0, 0⟩, bintimer := 2048, portWeight := 1, coreWeight := 1,
    quiesced := false, time := 0, nextLaunch := 0 }

/-- Virtual and physical address of the placed instruction. -/
def textAt : Nat := 0x20000

/-- A level-1 leaf of the stack tier that grants every right to key 1 and maps the first 4 TiB onto themselves (R99). -/
def identityLeaf : Nat := 2 ^ 56 + 2 ^ 10 + 0x1F

/-- The state with one warp about to issue the instruction of these words. -/
def State.placeWords (s : State) (ws : List Word) : State :=
  { s with
    agenda := [.issue 3]
    agent := .none
    nextId := 4
    mem := (s.mem.write 0x10000 (leBytes 8 identityLeaf)).write textAt (ws.flatMap bytesOfWord)
    bad := []
    poison := []
    flips := []
    merging := []
    tlb := []
    access := []
    ctxs := s.ctxs.set 0 (some Context.placed)
    running := some 0
    nodes := [(0, Node.placed)]
    blocks := [(1, Block.placed)]
    parts := [(2, Part.placed)]
    warps := [(3, Warp.placed 0 1 2 (BitVec.ofNat 64 textAt))] }

end Sys2Proof.Machine
end

