-- ==== Sys2Proof/Machine/Access.lean ====
section
/-! DEFINITION. Where an access goes, the checks made on it at issue, range locks, releases, and the issue of an outstanding
operation (spec/04_memory.md R80-R93, spec/05_ordering.md R107-R118, R125; spec/08_memory_instr.md R185, R186, R192;
spec/20_instruction_faults.md R384; spec/21_memory_faults.md R398). -/

namespace Sys2Proof.Machine

/-! ## On-chip places -/

/-- Virtual address of private byte `p` of lane `l` (R88). -/
def privVa (w : Warp) (p l : Nat) : Nat := w.pbase.toNat * 2 ^ 23 + p / 4 * 128 + 4 * l + p % 4

/-- The offset among a warp's register rows of `n` bytes at raw store address `a` (R84). -/
def rowOffset (w : Warp) (a n : Nat) : Option Nat :=
  let d := a - w.rbase.toNat
  if w.rbase.toNat ≤ a && d % 8192 + n ≤ 512 && d / 8192 * 4 < w.rcount.toNat then some (d / 8192 * 512 + d % 8192) else none

/-- The storage address of `n` bytes at raw address `a` of the issuing part's core: the part's scratchpad, or the register rows
of a warp of the block that has not ended (R85). -/
def State.rawLoc (s : State) (w : Warp) (p : Part) (a n : Nat) : Option Nat :=
  if p.sbase.toNat ≤ a && a + n ≤ p.sbase.toNat + p.scratch then some (scratchLoc w.part (a - p.sbase.toNat))
  else s.warps.findSome? fun x =>
    if x.2.block == w.block && s.coreOf x.2 == p.core && !x.2.ended then
      (rowOffset x.2 a n).map fun off => onchip 5 x.1 off
    else none

/-- The part of a block with a number, and its core. -/
def State.partNumbered (s : State) (block num : Nat) : Option (Nat × Part) :=
  (tget s.blocks block).bind fun b => (b.parts[num]?).bind fun id => (tget s.parts id).map fun q => (id, q)

/-- The place of `n` bytes at an address of an on-chip space; none is the permission trap (R85, R92, R93). -/
def State.onchipOf (s : State) (w : Warp) (p : Part) (sp : Space) (a n : Nat) : Option Place :=
  match sp with
  | .s =>
    if a < 0x100000 then (if a + n ≤ p.scratch then some (onchipPlace (scratchLoc w.part a)) else none)
    else if a < 0x200000 then (s.rawLoc w p (a - 0x100000) n).map onchipPlace
    else none
  | .c =>
    let num := a / 2 ^ 20
    let off := a % 2 ^ 20
    if num = p.num then (if off + n ≤ p.scratch then some (onchipPlace (scratchLoc w.part off)) else none)
    else match s.partNumbered w.block num with
      | some (id, q) => if off + n ≤ q.scratch then some { onchipPlace (scratchLoc id off) with pa := 1, module := q.core } else none
      | none => none
  | .d => if a + n ≤ 2 ^ 25 then some (onchipPlace (dieLoc w.slot.val (dieOfCore p.core) a)) else none
  | _ => none

/-! ## Range locks (R118, R384; log 22) -/

/-- The key of an address in the lock table: a virtual address, and behind them the addresses of each part's .s space, of each
block's .c space and of .d. An own .c address is the .s one, and one of window 1 in the part's scratchpad is that of window 0. -/
def lockKey (w : Warp) (p : Part) (sp : Space) (a : Nat) : Nat :=
  let own (x : Nat) : Nat := 2 ^ 60 + w.part * 2 ^ 32 + x
  let sb := p.sbase.toNat + 0x100000
  match sp with
  | .g | .p => a
  | .s => if sb ≤ a && a < sb + p.scratch then own (a - sb) else own a
  | .c => if a / 2 ^ 20 = p.num then own (a % 2 ^ 20) else 2 ^ 100 + w.block * 2 ^ 32 + a
  | .d => 2 ^ 101 + a

/-- A range of keys meets `n` bytes from a key on. -/
def keysMeet (ks : List (Nat × Nat)) (key n : Nat) : Bool := ks.any fun r => key < r.2 && r.1 < key + n

/-- An access to `n` bytes from a key on meets a lock of the core: any access one on a destination range, a write one on a source
range as well. -/
def State.lockMeets (s : State) (slot : Fin 8) (core key n : Nat) (write : Bool) : Bool :=
  s.copies.any fun x =>
    let c := x.2
    !c.finished && c.slot == slot && c.core == core
      && (keysMeet c.dstKeys key n || (write && keysMeet c.srcKeys key n))

/-! ## Checks at issue (R186) -/

/-- Need for a write. -/
def Need.writes : Need → Bool
  | .w | .rw => true
  | _ => false

/-- The cause and line address of the held line that came first, where every way of the set of a missing private line is held
(R398). -/
def heldSet (p : Part) (wid va : Nat) : Option (BitVec 8 × Nat) :=
  let line := va / 128
  if p.sets = 0 || (findLine p line (some wid)).isSome then none
  else
    let ways := (p.l1.filter fun l => lineSet p l.line == lineSet p line).filterMap fun l => l.held.map fun h => (h.1, h.2, l.line * 128)
    if ways.length < 4 then none
    else match ways with
      | [] => none
      | h :: r => let f := r.foldl (fun x y => if y.2.1 < x.2.1 then y else x) h; some (f.1, f.2.2)

/-- Where `n` bytes at an address of a space lie, or the cause of the refusal: bounds of the space, or translation and permission. A piece
of .p and .g is named by its virtual address. A load that an L1 copy serves asks nothing of an expander (R337). -/
def Ctx.locate (c : Ctx) (s : State) (sp : Space) (need : Need) (addr n : Nat) : State × Except (BitVec 8) Place :=
  match sp with
  | .g | .p => s.translate c.w.slot c.core c.die need (BitVec.ofNat 64 addr) (if need = .r && c.p.serves sp c.wid addr n then 0 else n)
  | _ => (s, match s.onchipOf c.w c.p sp addr n with
    | some p => .ok p
    | none => .error 0x05)

/-- A trap that a lane decides. -/
def laneTrap (l : Nat) (code : BitVec 8) (v : Nat) : Trap := { code := code, value := BitVec.ofNat 64 v, lane := BitVec.ofNat 6 l }

/-- Locate the pieces of one lane's access in order. -/
def Ctx.placeAll (c : Ctx) (s : State) (sp : Space) (need : Need) (l ea : Nat) : List (Nat × Nat × Nat) → State × Except Trap (List Acc)
  | [] => (s, .ok [])
  | (addr, off, n) :: r =>
    match c.locate s sp need addr n with
    | (s1, .error code) => (s1, .error (laneTrap l code (if sp = .p then addr else ea)))
    | (s1, .ok p) =>
      match c.placeAll s1 sp need l ea r with
      | (s2, .error t) => (s2, .error t)
      | (s2, .ok as) => (s2, .ok (⟨l, off, addr, p, n, 0, 0⟩ :: as))

/-- A piece meets a range lock of the core. -/
def Ctx.locked (c : Ctx) (s : State) (sp : Space) (need : Need) (a : Acc) : Bool :=
  s.lockMeets c.w.slot c.core (lockKey c.w c.p sp a.addr) a.n need.writes

/-- The checks on one lane's pieces behind alignment, each over all of them before the next: bounds, translation and permission; the
range locks; and for .p the held sets (R186, R398). `ea` is the lane's address. -/
def Ctx.placeLane (c : Ctx) (s : State) (sp : Space) (need : Need) (l ea : Nat) (ps : List (Nat × Nat × Nat)) :
    State × Except Trap (List Acc) :=
  match c.placeAll s sp need l ea ps with
  | (s1, .error t) => (s1, .error t)
  | (s1, .ok as) =>
    if as.any (c.locked s1 sp need) then (s1, .error (laneTrap l 0x06 ea))
    else match (if sp = .p then as.findSome? fun a => heldSet c.p c.wid a.addr else none) with
      | some h => (s1, .error (laneTrap l h.1 h.2))
      | none => (s1, .ok as)

/-- The pieces of an access, each performed at one instant: a private access of 8 or 16 bytes lies in 2 or 4 lines (R88), and a
16-byte access of another space is two halves (R115). -/
def pieces (w : Warp) (sp : Space) (l ea n : Nat) : List (Nat × Nat × Nat) :=
  if sp = .p then
    if n ≤ 4 then [(privVa w ea l, 0, n)] else (List.range (n / 4)).map fun i => (privVa w (ea + 4 * i) l, 4 * i, 4)
  else if n = 16 then [(ea, 0, 8), (ea + 8, 8, 8)]
  else [(ea, 0, n)]

/-- Check the lanes in ascending order: the first that fails decides the trap (R186). -/
def Ctx.checkLanes (c : Ctx) (s : State) (sp : Space) (need : Need) (n : Nat) (ea : Lane → Nat) : List Lane → State × Except Trap (List Acc)
  | [] => (s, .ok [])
  | l :: r =>
    if ea l % n != 0 then
      (s, .error { code := 0x03, value := BitVec.ofNat 64 (ea l), lane := BitVec.ofNat 6 l.val })
    else
      match c.placeLane s sp need l.val (ea l) (pieces c.w sp l.val (ea l) n) with
      | (s1, .error t) => (s1, .error t)
      | (s1, .ok as) =>
        match c.checkLanes s1 sp need n ea r with
        | (s2, .error t) => (s2, .error t)
        | (s2, .ok bs) => (s2, .ok (as ++ bs))

/-- Every check of R186 on the lanes of a mask: the accesses, or the trap that decides. -/
def Ctx.checkAccess (c : Ctx) (m : Mask) (sp : Space) (need : Need) (n : Nat) (ea : Lane → Nat) : State × Except Trap (List Acc) :=
  let ls := lanesOf m
  match (if sp = .p then ls.find? fun l => c.w.plimit.toNat < ea l + n else none) with
  | some l => (c.s, .error { code := 0x0A, value := BitVec.ofNat 64 (ea l), lane := BitVec.ofNat 6 l.val })
  | none => c.checkLanes c.s sp need n ea ls

/-- Effective address of a lane (R185). -/
def Ctx.ea (c : Ctx) (sp : Space) (a : VOp) (off : Word) (l : Lane) : Nat :=
  if sp = .g then (src64 c.w a l + off.signExtend 64).toNat else (c.v a l + off).toNat

/-! ## Releases (R111, R125) -/

/-- The issuing stream with another module state. -/
def Ctx.with (c : Ctx) (s : State) : Ctx :=
  match tget s.warps c.wid with
  | some w => { c with s := s, w := w, p := (tget s.parts w.part).getD c.p }
  | none => { c with s := s }

/-- The operation comes before the issuing instruction in program order, or is of the warp's other slice (R45, R110). -/
def Ctx.earlier (c : Ctx) (o : OutOp) : Bool := o.slice != c.slice || o.paths.isSuffixOf c.w.paths

/-- Every earlier access of the warp and its slice has been performed. -/
def Ctx.quiet (c : Ctx) : Bool := !c.w.ops.any c.earlier

/-- A read of `n` bytes that the instruction makes as it issues has to wait: an earlier acquire, or an earlier access to one of the
bytes, is outstanding (R109, R111, R113). -/
def Ctx.readWaits (c : Ctx) (loc n : Nat) : Bool :=
  c.w.ops.any fun o => c.earlier o && (o.acq.isSome || o.accs.any fun a => a.place.loc < loc + n && loc < a.place.loc + a.n)

/-- A release: it waits for the earlier accesses in program order and for the warp's write-backs, then writes back the warp's dirty
private lines, and then has its effect. A line whose write-back fails traps at this instruction (R111, R125; log 9). -/
def Ctx.release (c : Ctx) (body : Ctx → State) : State :=
  if !c.quiet || c.s.backStalled c.wid then c.stall
  else
    match c.s.releaseLines c.w.part c.wid c.p.l1 with
    | (s1, .fails code va) => (c.with s1).raise code (BitVec.ofNat 64 va)
    | (s1, .stalls) => s1
    | (s1, .done) =>
      let c1 := c.with s1
      match dueError c1.w c.i with
      | some e => s1.deliverErr c.wid c.pc e
      | none => body c1

/-! ## Outstanding operations (R192) -/

/-- The natural scope of a space (R108). -/
def natScope : Space → Scope
  | .p => .warp
  | .s => .core
  | .c => .clu
  | .d => .mod
  | .g => .sys

/-- The counter has no room for one more operation (R192). -/
def Ctx.full (c : Ctx) (k : Ctr) : Bool := 63 ≤ c.s.counter c.wid c.w k

/-- The operation's number among those of its counter, from 1. -/
def Ctx.seqOf (c : Ctx) (k : Ctr) : Nat := c.w.issued[ctrIdx k] + 1

/-- An access goes to a register row of the warp that one of its outstanding operations will write (R86). -/
def Ctx.rowsHeld (c : Ctx) (as : List Acc) : Bool :=
  as.any fun a => (locReg a.place.loc).elim false fun x =>
    x.1 == c.wid && c.w.ops.any fun o => (opRegs o).contains (x.2 / 128)

/-- Append an outstanding operation to a warp. -/
def addOp (k : Ctr) (o : OutOp) (w : Warp) : Warp :=
  { w with ops := w.ops ++ [o], nextOp := w.nextOp + 1, issued := w.issued.set (ctrIdx k) (w.issued[ctrIdx k] + 1) }

/-- The operation that the instruction leaves outstanding. -/
def Ctx.op (c : Ctx) (k : Ctr) (kind : OpKind) (sp : Space) (as : List Acc) (m : Mask) (acq rel : Option Scope) : OutOp :=
  { id := c.w.nextOp, ctr := k, seq := c.seqOf k, kind := kind, space := sp, accs := as, mask := m, acq := acq, rel := rel,
    paths := if c.slice then [] else c.w.paths, slice := c.slice, vals := [], dead := 0, err := none }

/-- The instruction issues and leaves an operation outstanding. -/
def Ctx.push (c : Ctx) (k : Ctr) (kind : OpKind) (sp : Space) (as : List Acc) (m : Mask) (acq rel : Option Scope)
    (f : Warp → Warp := id) : State :=
  let o := c.op k kind sp as m acq rel
  let e := opnds c.i
  (c.s.coreEvent c.core 1).modWarp c.wid fun w =>
    setPc c.slice c.nextPc (addOp k o (f (popQueues (namedQueues e.vs) w)))

/-- Checks of R186 and then `body` with the accesses; a failed check traps. An access to a row of the warp that waits for an earlier
operation is not ready (R86). -/
def Ctx.checked (c : Ctx) (m : Mask) (sp : Space) (need : Need) (n : Nat) (ea : Lane → Nat) (body : Ctx → List Acc → State) : State :=
  match c.checkAccess m sp need n ea with
  | (s1, .error t) => (c.with s1).raiseFull t
  | (s1, .ok as) => if c.rowsHeld as then s1 else body (c.with s1) as

/-- A release where the operation has one. An instruction with no active lane makes no access, and so releases nothing (R379). -/
def Ctx.releaseIf (c : Ctx) (r : Bool) (body : Ctx → State) : State := if r && c.act != 0 then c.release body else body c

end Sys2Proof.Machine
end

