-- ==== Sys2Proof/Machine/Waits.lean ====
section
/-! DEFINITION. Barriers, fences and waits, with the events that end the waits (spec/08_memory_instr.md R194;
spec/09_control.md R216-R225; spec/24_fencing.md R433). -/

namespace Sys2Proof.Machine

/-- The instruction issues and its warp waits at it. -/
def Ctx.wait (c : Ctx) (k : WaitKind) : State :=
  (c.s.coreEvent c.core 1).modWarp c.wid fun w => { w with wait := some ⟨k, c.i.length, c.s.gtime.toNat⟩ }

/-- The instruction issues, acquires (R111) and completes. -/
def Ctx.finishAcq (c : Ctx) (f : Warp → Warp) : State := (c.finish f).discardGlobal c.w.part

/-- The wait of a warp that is running and neither stopped nor ended. -/
def State.waiting (s : State) (wid : Nat) : Option (Warp × Waiting) :=
  (tget s.warps wid).bind fun w => if s.mayAct w then w.wait.map fun k => (w, k) else none

/-- A wait ends as an acquire, with `f` applied to the warp. -/
def State.endWaitAcq (s : State) (wid : Nat) (w : Warp) (f : Warp → Warp) : State :=
  (s.modWarp wid fun x => endWait (f x)).discardGlobal w.part

/-! ## bar and barc (R216, R217) -/

/-- The stack holds a path entry. -/
def hasPath (st : List DivEntry) : Bool := st.any fun e =>
  match e with
  | .path _ _ _ => true
  | .reconv _ _ _ => false

/-- The checks of a barrier: trap 0x08 in a spawned warp and on a path (R216). -/
def Ctx.barChecked (c : Ctx) (body : State) : State :=
  if c.w.spawned || hasPath c.w.stack then c.raise 0x08 ((firstWord c.i).setWidth 64) else body

/-- Arrive at the part's barrier. -/
def Ctx.arrive (c : Ctx) (op : Option FoldOp) (payload : Word) (d : Option (Fin 63)) : State :=
  let a : Arrival := { wid := c.wid, op := op, payload := payload, d := d, word0 := firstWord c.i }
  ((c.wait .bar).modPart c.w.part fun p => { p with bar := p.bar ++ [a] }).barCheck c.w.part

/-- A uniform destination as a register number. -/
def destS (d : SOp) : Option (Fin 63) :=
  match d with
  | .s n => some n
  | .lit => none

def execBar (d a : SOp) (op : Option FoldOp) (k : Word) (s : State) : Out :=
  issue (.bar d a op k) s fun c => c.barChecked <| c.release fun e =>
    match op with
    | none => e.arrive none 0 none
    | some _ => e.arrive op (e.sv a) (destS d)

/-- Parts of the issuing block. -/
def Ctx.blockParts (c : Ctx) : Nat := (tget c.s.blocks c.w.block).elim 1 (·.parts.length)

def execBarc (s : State) : Out :=
  issue .barc s fun c => c.barChecked <| c.release fun e =>
    if e.blockParts = 1 then e.arrive none 0 none
    else ((e.wait .barc).modBlock e.w.block fun b => { b with barc := b.barc ++ [(e.wid, firstWord e.i)] }).barcCheck e.w.block

/-! ## Phase-bit barriers (R218-R220) -/

def pbExpected (x : Nat) : Nat := x / 4096 % 4096
def pbPending (x : Nat) : Nat := x % 4096
def pbPhase (x : Nat) : Bool := x / 2 ^ 31 % 2 == 1

/-- The word after `n` arrivals (R219). -/
def pbArrive (x n : Nat) : Nat :=
  let left := pbPending x - n
  if left = 0 then (if pbPhase x then x - 2 ^ 31 else x + 2 ^ 31) - pbPending x + pbExpected x
  else x - pbPending x + left

/-- The place of a barrier word: .s window 0 only, or .c. -/
def Ctx.pbPlace (c : Ctx) (cl : Bool) (a : Nat) : Option Place :=
  if cl then c.s.onchipOf c.w c.p .c a 4
  else if a < 0x100000 then c.s.onchipOf c.w c.p .s a 4 else none

/-- The address checks of `pbarr` and `pbwait`, and the check bits of the word (R219, R388). -/
def Ctx.pbChecked (c : Ctx) (cl write : Bool) (a : Word) (body : Place → State) : State :=
  let v := a.setWidth 64
  if a.toNat % 4 != 0 then c.raise 0x03 v
  else match c.pbPlace cl a.toNat with
    | none => c.raise 0x05 v
    | some p =>
      if c.s.lockMeets c.w.slot c.core (lockKey c.w c.p (if cl then .c else .s) a.toNat) 4 write then c.raise 0x06 v
      else if c.s.badIn p.loc 4 && !(p.isClu && !c.s.coreUp p.module) then (c.with (c.s.meet p.loc 4)).raise 0x0B v
      else body p

/-- `pbarr` on the word of a fenced core is answered and not performed; what it returns is a free value (R382, R433; log 41). -/
def Ctx.pbFenced (c : Ctx) (d : SOp) : State :=
  { c.finish (setS false d (Config.word c.s.choices)) with choices := c.s.choices + 1 }

def execPbarr (cl : Bool) (o : FormG) (s : State) : Out :=
  issue (.pbarr cl o) s fun c =>
    if !c.quiet then c.stall
    else c.pbChecked cl true (c.sv o.a) fun p =>
      let n := (c.sv o.b).toNat
      let x := c.s.load p.loc 4
      if p.isClu && !c.s.coreUp p.module then c.release fun e => e.pbFenced o.d
      else if pbExpected x = 0 || n = 0 || pbPending x < n then c.raise 0x08 ((c.sv o.a).setWidth 64)
      else c.release fun e => (e.finish (setS false o.d (BitVec.ofNat 32 x))).store p.loc (leBytes 4 (pbArrive x n))

def execPbwait (cl : Bool) (a b : SOp) (k : Word) (s : State) : Out :=
  issue (.pbwait cl a b k) s fun c =>
    c.pbChecked cl false (c.sv a) fun p =>
      let bit := (c.sv b).getLsbD 0
      let up := !(p.isClu && !c.s.coreUp p.module)
      if c.readWaits p.loc 4 then c.stall
      else if up && pbPhase (c.s.load p.loc 4) != bit then c.finishAcq id
      else c.wait (.pbwait p.loc (if cl then .c else .s) ((c.sv a).setWidth 64) bit)

/-- PBWAIT_WAKE: the word is read again (R220). -/
def pbwaitWake (wid : Nat) (s : State) : State :=
  match s.waiting wid with
  | some (w, ⟨.pbwait loc _ addr bit, _, _⟩) =>
    let up := match locWindow loc with
      | some (0, id, _) => (tget s.parts id).elim false fun p => s.coreUp p.core
      | _ => true
    if !up then s
    else if s.badIn loc 4 then (s.meet loc 4).deliver wid { code := 0x0B, value := addr } w.pc false false
    else if pbPhase (s.load loc 4) != bit then s.endWaitAcq wid w id
    else s
  | _ => s

def execPbwaitWake (wid : Nat) (s : State) : Out := .next (pbwaitWake wid s)

/-! ## Fences and counters (R194, R221) -/

def execFence (sc : Scope) (s : State) : Out :=
  issue (.fence sc) s fun c =>
    if sc = .warp then (if c.quiet then c.finish id else c.stall) else c.release fun e => e.finishAcq id

/-- The four counters are at their limits (R194). -/
def State.countsOk (s : State) (wid : Nat) (w : Warp) (l st cp t : Nat) : Bool :=
  s.counter wid w .loads ≤ l && s.counter wid w .stores ≤ st && s.counter wid w .copies ≤ cp && s.counter wid w .tiles ≤ t

/-- A `waitc` with a limit of `m` copies acquires the writes of some copy: the warp has issued more than `m` (R117). -/
def acquiresCopies (w : Warp) (m : Nat) : Bool := m < w.issued[ctrIdx .copies]

def execWaitc (l st cp t : BitVec 6) (s : State) : Out :=
  issue (.waitc l st cp t) s fun c =>
    if c.s.countsOk c.wid c.w l.toNat st.toNat cp.toNat t.toNat then
      if acquiresCopies c.w cp.toNat then c.finishAcq id else c.finish id
    else c.wait (.waitc l.toNat st.toNat cp.toNat t.toNat c.w.issued)

/-- WAITC_END: the wait ends, and delivers an error for which the `waitc` is a delivery point (R194, R368). -/
def waitcEnd (wid : Nat) (s : State) : State :=
  match s.waiting wid with
  | some (x, ⟨.waitc l st cp t iss, _, _⟩) =>
    let w := { x with issued := iss }
    if !s.countsOk wid w l st cp t then s
    else
      let i := Instr.waitc (BitVec.ofNat 6 l) (BitVec.ofNat 6 st) (BitVec.ofNat 6 cp) (BitVec.ofNat 6 t)
      match dueError w i with
      | some e => (s.modWarp wid fun x => { x with wait := none }).deliverErr wid w.pc e
      | none => if acquiresCopies w cp then s.endWaitAcq wid w id else s.modWarp wid endWait
  | _ => s

def execWaitcEnd (wid : Nat) (s : State) : Out := .next (waitcEnd wid s)

/-! ## waitw (R222, R223) -/

/-- Warps of a die that hold an entry of its wait table (R223). -/
def State.waitEntries (s : State) (die : Nat) : Nat :=
  (s.warps.filter fun x => s.running == some x.2.slot && dieOfCore (s.coreOf x.2) == die && !x.2.stopped && !x.2.ended
    && (match x.2.wait with
        | some ⟨.waitw _ _ _ _, _, _⟩ => true
        | _ => false)).length

/-- One reading of the watched word at its coherence point: the condition, or the cause of the failed reading. -/
def State.readWatched (s : State) (p : Place) (cc : Cond) (v : DWord) : Except (BitVec 8) Bool × State :=
  let a := s.ask p
  match a.2.readMem a.1 8 with
  | (.bytes bs, s1) => (.ok (icond cc (BitVec.ofNat 64 (leNat bs)) v), s1)
  | (.dead, s1) => (.error 0x0B, s1)
  | (_, s1) => (.error 0x0C, s1)

/-- The first reading of `waitw`. -/
def Ctx.watch (c : Ctx) (d : Fin 63) (a : DWord) (p : Place) (cc : Cond) (v : DWord) : State :=
  match c.s.readWatched p cc v with
  | (.error code, s1) => (c.with s1).raise code a
  | (.ok true, s1) => (c.with s1).finishAcq (setS false (.s d) 0)
  | (.ok false, s1) =>
    if 256 ≤ s1.waitEntries c.die then
      let s2 := s1.dieEvent c.die 3
      (c.with s2).finish (setS false (.s d) 1)
    else (c.with s1).wait (.waitw d a v cc)

def execWaitw (d a b : SOp) (cc : Cond) (s : State) : Out :=
  issue (.waitw d a b cc) s fun c =>
    let addr := c.sv64 a
    match destS d with
    | none => c.stall
    | some n =>
      if addr.toNat % 8 != 0 then c.raise 0x03 addr
      else match c.s.translate c.w.slot c.core c.die .r addr with
        | (s1, .error code) => (c.with s1).raise code addr
        | (s1, .ok p) =>
          if s1.lockMeets c.w.slot c.core addr.toNat 8 false then (c.with s1).raise 0x06 addr
          else if c.readWaits p.loc 8 then s1
          else (c.with s1).watch n addr p cc (c.sv64 b)

/-- A re-reading of the watched word fails, and ends the `waitw` with the cause. -/
def State.unwatch (s : State) (wid : Nat) (w : Warp) (a : DWord) (code : BitVec 8) : State :=
  (s.modWarp wid fun x => { x with wait := none }).deliver wid { code := code, value := a } w.pc false false

/-- Read the watched word again. -/
def State.rewatch (s : State) (wid : Nat) (w : Warp) (d : Fin 63) (a v : DWord) (cc : Cond) (p : Place) : State :=
  match s.readWatched p cc v with
  | (.error code, s1) => s1.unwatch wid w a code
  | (.ok true, s1) => s1.endWaitAcq wid w (setS false (.s d) 0)
  | (.ok false, s1) => s1

/-- Where the word that a warp watches lies, as far as its core may reach it (R339). -/
def State.watchedPlace (s : State) (w : Warp) (a : DWord) : Option Place :=
  (s.ctxPlace w.slot a.toNat).filter (s.mayTouch (some (s.coreOf w)) .r)

/-- A re-reading of the watched word is refused: its core may reach it no longer, or its address translates no longer
(R222; DEDUCED, log 15). -/
def State.watchRefused (s : State) (w : Warp) (a : DWord) (remote : Bool) : Bool :=
  match s.ctxPlace w.slot a.toNat with
  | some p => (p.tier != 0) == remote && !s.mayTouch (some (s.coreOf w)) .r p
  | none => !remote

/-- WAITW_WAKE: a stack-tier word is read again after a write (R222). -/
def waitwWake (wid : Nat) (s : State) : State :=
  match s.waiting wid with
  | some (w, ⟨.waitw d a v cc, _, _⟩) =>
    match s.watchedPlace w a with
    | some p => if p.tier = 0 then s.rewatch wid w d a v cc p else s
    | none => if s.watchRefused w a false then s.unwatch wid w a 0x0C else s
  | _ => s

def execWaitwWake (wid : Nat) (s : State) : Out := .next (waitwWake wid s)

/-- WAITW_REMOTE_POLL: a word of the capacity tier or of a peer is read again, not before 1,024 ns have passed since it was read last
(R223; log 15). -/
def waitwPoll (wid : Nat) (s : State) : State :=
  match s.waiting wid with
  | some (w, ⟨.waitw d a v cc, _, t⟩) =>
    match s.watchedPlace w a with
    | some p =>
      if p.tier != 0 && max t w.polled + 1024 ≤ s.gtime.toNat then
        (s.modWarp wid fun x => { x with polled := s.gtime.toNat }).rewatch wid w d a v cc p
      else s
    | none => if s.watchRefused w a true then s.unwatch wid w a 0x0C else s
  | _ => s

def execWaitwRemotePoll (wid : Nat) (s : State) : Out := .next (waitwPoll wid s)

/-! ## sleept (R117, R224, R393) -/

/-- The promise still lies in the future. -/
def future (now p : Word) : Bool := (now - p).slt 0

/-- The warp's most recent copy with a promise. -/
def State.copyOfPromise (s : State) (wid : Nat) (p : Word) : Option Copy :=
  ((s.copiesOf wid).filter fun c => c.promise == p).getLast?

/-- What `sleept` comes to once its promise has passed: none to return, with whether it acquires; else a trap. -/
def State.wakes (s : State) (wid : Nat) (p : Word) : Option Trap × Bool :=
  match s.copyOfPromise wid p with
  | none => (none, false)
  | some c => if c.finished then (none, true) else (some { code := 0x07, value := p.setWidth 64 }, true)

def execSleept (a : SOp) (k : Word) (s : State) : Out :=
  issue (.sleept a k) s fun c =>
    let p := c.sv a
    if future (c.s.gtime.setWidth 32) p then c.wait (.sleept p)
    else match c.s.wakes c.wid p with
      | (some t, _) => c.raiseFull t
      | (none, true) => c.finishAcq id
      | (none, false) => c.finish id

/-- An error of the copy with this promise is pending, and no handler runs: the oldest is delivered (R224). -/
def dueAtSleept (w : Warp) (p : Word) : Option PendErr :=
  if w.hnd || !w.errs.any (fun e => e.copy == some p.toNat) then none else w.errs.head?

/-- SLEEPT_WAKE. -/
def sleeptWake (wid : Nat) (s : State) : State :=
  match s.waiting wid with
  | some (w, ⟨.sleept p, _, _⟩) =>
    if future (s.gtime.setWidth 32) p then s
    else
      let woken := s.modWarp wid fun x => { x with wait := none }
      match s.wakes wid p with
      | (some t, _) => woken.deliver wid t w.pc false false
      | (none, acq) =>
        match dueAtSleept w p with
        | some e => woken.deliverErr wid w.pc e
        | none => if acq then s.endWaitAcq wid w id else s.modWarp wid endWait
  | _ => s

def execSleeptWake (wid : Nat) (s : State) : Out := .next (sleeptWake wid s)

end Sys2Proof.Machine
end

