-- ==== Sys2Proof/Machine/SampleGroup.lean ====
section
/-! DEFINITION. Sample groups: `sgfork`, `sgreward`, `sgcancel`, `sgwait`, and the group's deadline (spec/09_control.md R228-R233;
spec/02_execution_model.md R52; spec/18_prog_sample_group.md R362; spec/23_work_faults.md R420). -/

namespace Sys2Proof.Machine

/-! ## The record (R228) -/

/-- The checks on the address of a group record (R229, R233). Neither they nor R101 order the tier and pz: of a page outside the stack
tier that has pz set, pz comes first, with 0x0B (DESIGN CHOICE, log 72). -/
def Ctx.recordChecked (c : Ctx) (need : Need) (va : DWord) (body : Ctx → Place → State) : State :=
  if va.toNat % 64 != 0 then c.raise 0x03 va
  else match c.s.translate c.w.slot c.core c.die need va with
    | (s1, .error code) => (c.with s1).raise code va
    | (s1, .ok p) => if p.tier != 0 then (c.with s1).raise 0x05 va else body (c.with s1) p

/-- The member count of a header. -/
def groupCount (bs : List Byte) : Nat := recField bs 0 4 % 512

/-- eps is finite and not negative; -0 acts as +0 (R228). -/
def epsOk (e : Nat) : Bool :=
  match decodeF fp32 e with
  | .fin s m _ => !s || m == 0
  | _ => false

/-- The record is valid (R229, status 1). -/
def groupValid (bs : List Byte) : Bool :=
  let w := recField bs 0 4
  let n := groupCount bs
  n != 0 && n ≤ 256 && w / 2 ^ 20 == 0 && w / 512 % 128 == 0 && ((bs.drop 0x34).take 12).all (· == 0)
    && epsOk (recField bs 4 4) && (List.range n).all fun i => recField bs (0x4C + 16 * i) 4 == 0

/-- The running group of the slot whose record lies at an address. -/
def State.runningGroup (s : State) (slot : Fin 8) (va : DWord) : Option (Nat × Group) :=
  s.groups.find? fun g => g.2.slot == slot && g.2.record == va && !g.2.done

/-- Running groups of a die's group unit. -/
def State.groupsOn (s : State) (slot : Fin 8) (die : Nat) : Nat :=
  (s.groups.filter fun g => g.2.slot == slot && g.2.die == die && !g.2.done).length

/-! ## sgfork (R229, R52) -/

/-- The group node: it inherits every field (R49, R52), and its blocks use the die mask of the forking node (R362). -/
def groupNode (p : Node) (pid : Nat) (va launchVa : DWord) (l : Launch) (n : Nat) : Node :=
  { slot := p.slot, addr := va, kind := .group, parent := some pid, root := p.root, eff := p.eff, deps := [], body := launchVa,
    kp0 := p.kp0, kp1 := 0, kp2 := va, kp3 := 0, launch := some l, started := true, status := none, nextBlock := 0,
    totalBlocks := n, nextDie := 0, spoiled := false, draining := p.draining, killing := false, readySince := none, used := 0,
    turn := 0 }

/-- Write the RO fields of members from index `i` on with zero. -/
def State.clearMembers (s : State) (slot : Fin 8) (va : Nat) : Nat → State
  | 0 => s
  | n + 1 => (s.storeVa slot (va + 0x40 + 16 * n) (leBytes 16 0)).clearMembers slot va n

/-- Create the group and its node. The group keeps n, eps and the deadline as they stand now: what the advantages come to when software
writes the record's RW fields before the group is done is unspecified, and the model computes them from the values kept here
(R229; DESIGN CHOICE, log 53). -/
def State.forkGroup (s : State) (slot : Fin 8) (die : Nat) (va : DWord) (bs : List Byte) (l : Launch) (pid : Nat) (p : Node) : State :=
  let n := groupCount bs
  let w := recField bs 0 4
  let a := va.toNat
  let dl := recField bs 8 8
  let s1 := ((s.storeVa slot a (leBytes 4 (w % 2 ^ 16))).storeVa slot (a + 0x18) (leBytes 28 0)).clearMembers slot a n
  let eps := if recField bs 4 4 = 0x80000000 then 0 else recField bs 4 4
  let nid := s1.nextId
  let t : State := { s1 with
    nodes := s1.nodes ++ [(nid, groupNode p pid va (BitVec.ofNat 64 (recField bs 0x10 8)) l n)]
    groups := s1.groups ++ [(nid + 1,
      { slot := slot, record := va, node := nid, die := die, n := n, eps := BitVec.ofNat 32 eps,
        deadline := if dl = 0 then none else some ((s.ctxs[slot]).elim 0 (·.time) + dl),
        members := List.replicate n (.running, 0), killed := false, done := false })]
    nextId := nid + 2 }
  if p.draining then t.drainGroup (nid + 1) 0 else t

/-- Fork, or the status that says why not (R229). -/
def Ctx.fork (c : Ctx) (d : SOp) (va : DWord) (bs : List Byte) : State :=
  let status (c : Ctx) (n : Nat) : State := c.finish (setS false d (BitVec.ofNat 32 n))
  if !groupValid bs then status c 1
  else
    match c.s.readLaunch c.w.slot (recField bs 0x10 8), (tget c.s.blocks c.w.block).map (·.node) with
    | (s1, some l), some pid =>
      let e := c.with s1
      match tget s1.nodes pid with
      | none => status e 2
      | some p =>
        if !l.accepted p.eff.store then status e 2
        else if 1024 ≤ s1.groupsOn c.w.slot c.die then status e 3
        else (status e 0).forkGroup c.w.slot c.die va bs l pid p
    | (s1, _), _ => status (c.with s1) 2

/-- The page of the record's last bytes passes the checks of its first. -/
def Ctx.lastPage (c : Ctx) (va : DWord) (n : Nat) (body : Ctx → State) : State :=
  let b := va + BitVec.ofNat 64 (48 + 16 * n)
  match c.s.translate c.w.slot c.core c.die .rw b with
  | (s1, .error code) => (c.with s1).raise code b
  | (s1, .ok q) => if q.tier != 0 then (c.with s1).raise 0x05 b else body (c.with s1)

/-- The checks on the whole record, the release, and then the fork. -/
def Ctx.forkChecked (c : Ctx) (d : SOp) (va : DWord) (p : Place) : State :=
  match c.s.readMem p 64 with
  | (.bytes hb, s1) =>
    let n := groupCount hb
    let e := c.with s1
    if n = 0 || 256 < n then e.release fun x => x.finish (setS false d 1)
    else e.lastPage va n fun f =>
      match f.s.readRecord f.w.slot .r va.toNat 16 (4 + n) with
      | (s2, some bs) => (f.with s2).release fun x => x.fork d va bs
      | (s2, none) => (f.with s2).raise 0x0B va
  | (_, s1) => (c.with s1).raise 0x0B va

def execSgfork (d a : SOp) (s : State) : Out :=
  issue (.sgfork d a) s fun c =>
    if !c.quiet then c.stall
    else c.recordChecked .rw (c.sv64 a) fun e p => e.forkChecked d (c.sv64 a) p

/-! ## Members (R230, R231, R420) -/

/-- Replace a member's state. -/
def setMember (i : Nat) (m : MemberState × Word) (g : Group) : Group :=
  { g with members := g.members.mapIdx fun j x => if j = i then m else x }

/-- The block of a member, where it has been placed. -/
def State.memberBlock (s : State) (gid i : Nat) : Option Nat := (s.blocks.find? fun b => b.2.member == some (gid, i)).map (·.1)

/-- A member becomes final without a report: its block is ended (R231, R420). -/
def State.endMember (s : State) (gid i : Nat) (st : MemberState) : State :=
  let s1 := s.modGroup gid (setMember i (st, 0))
  match s1.memberBlock gid i with
  | some b => s1.stopBlock b
  | none => s1.groupCheck gid

/-- The member that a warp's block is. -/
def State.memberOf (s : State) (w : Warp) : Option (Nat × Nat) := (tget s.blocks w.block).bind fun b => b.member

/-- Post a reward: the status and the state after it (R230). -/
def State.reward (s : State) (w : Warp) (x : Word) : Nat × State :=
  match s.memberOf w with
  | none => (1, s)
  | some (gid, i) =>
    match tget s.groups gid with
    | none => (1, s)
    | some g =>
      if g.done then (1, s)
      else match g.members[i]? with
        | some (.running, _) => (0, s.modGroup gid (setMember i (.reported, x)))
        | _ => (2, s)

def execSgreward (d b : SOp) (k : Word) (s : State) : Out :=
  issue (.sgreward d b k) s fun c => c.release fun e =>
    let r := e.s.reward e.w (e.sv b)
    (e.with r.2).finish (setS false d (BitVec.ofNat 32 r.1))

/-- What `sgcancel` comes to: a status, and the member that it cancels (R231). -/
def State.cancelOf (s : State) (slot : Fin 8) (va : DWord) (i : Nat) : Nat × Option (Nat × Nat) :=
  match s.runningGroup slot va with
  | none => (1, none)
  | some (gid, g) =>
    if g.n ≤ i then (1, none)
    else match g.members[i]? with
      | some (.running, _) => (0, some (gid, i))
      | _ => (2, none)

def execSgcancel (d a b : SOp) (k : Word) (s : State) : Out :=
  issue (.sgcancel d a b k) s fun c =>
    let r := c.s.cancelOf c.w.slot (c.sv64 a) (c.sv b).toNat
    let t := c.finish (setS false d (BitVec.ofNat 32 r.1))
    match r.2 with
    | some (gid, i) => t.endMember gid i .cancelled
    | none => t

/-- GROUP_DEADLINE: every member still running times out (R231). -/
def groupDeadline (gid : Nat) (s : State) : State :=
  match tget s.groups gid with
  | none => s
  | some g =>
    match g.deadline with
    | none => s
    | some t =>
      if g.done || !s.onTurn g.slot || (s.ctxs[g.slot]).elim 0 (·.time) < t then s
      else (List.range g.n).foldl (fun x i =>
        match (((tget x.groups gid).bind fun y => y.members[i]?) : Option (MemberState × Word)) with
        | some (.running, _) => x.endMember gid i .timedOut
        | _ => x) s

def execGroupDeadline (group : Nat) (s : State) : Out := .next (groupDeadline group s)

/-! ## sgwait (R233) -/

/-- One reading of a record's done bit. -/
def State.readDone (s : State) (p : Place) : Option Bool × State :=
  match s.readMem p 4 with
  | (.bytes bs, s1) => (some (leNat bs / 2 ^ 16 % 2 == 1), s1)
  | (_, s1) => (none, s1)

def execSgwait (d a : SOp) (s : State) : Out :=
  issue (.sgwait d a) s fun c =>
    let va := c.sv64 a
    match destS d with
    | none => c.stall
    | some n => c.recordChecked .r va fun e p =>
      if e.readWaits p.loc 4 then e.stall
      else match e.s.readDone p with
      | (none, s1) => (e.with s1).raise 0x0B va
      | (some true, s1) => (e.with s1).finishAcq (setS false d 0)
      | (some false, s1) =>
        if (s1.runningGroup e.w.slot va).isSome then (e.with s1).wait (.sgwait n va) else (e.with s1).finish (setS false d 1)

/-- SGWAIT_WAKE: the done bit is read again. -/
def sgwaitWake (wid : Nat) (s : State) : State :=
  match s.waiting wid with
  | some (w, ⟨.sgwait d va, _, _⟩) =>
    match s.watchedPlace w va with
    | none => s
    | some p =>
      match s.readDone p with
      | (none, s1) =>
        (s1.modWarp wid fun x => { x with wait := none }).deliver wid { code := 0x0B, value := va } w.pc false false
      | (some true, s1) => s1.endWaitAcq wid w (setS false (.s d) 0)
      | (some false, s1) =>
        if (s1.runningGroup w.slot va).isSome then s1 else s1.modWarp wid fun x => endWait (setS false (.s d) 1 x)
  | _ => s

def execSgwaitWake (wid : Nat) (s : State) : Out := .next (sgwaitWake wid s)

end Sys2Proof.Machine
end

