-- ==== Sys2Proof/Machine/Sched.lean ====
section
/-! DEFINITION. The module scheduler: the order of nodes, their start, their completion, their time slices, and the end of stopped
work (spec/02_execution_model.md R48-R50; spec/13_scheduling.md R320, R322, R325; spec/23_work_faults.md R415-R418). -/

namespace Sys2Proof.Machine

/-! ## The order of nodes (R325) -/

/-- A list rotated left by `k` places. -/
def rotated {α : Type} (k : Nat) (l : List α) : List α := l.drop (k % l.length) ++ l.take (k % l.length)

/-- Nodes in pre-order through child and next, each parent's children rotated by its turn (R50, R325). -/
def State.preorder (s : State) : Nat → List (Nat × Node) → List (Nat × Node)
  | 0, _ => []
  | f + 1, xs => xs.flatMap fun x => x :: s.preorder f (rotated x.2.turn (s.children x.1))

/-- Insert by effective priority, behind those of equal priority. -/
def insertPrio (x : Nat × Node) : List (Nat × Node) → List (Nat × Node)
  | [] => [x]
  | y :: r => if x.2.eff.prio < y.2.eff.prio then x :: y :: r else y :: insertPrio x r

/-- The nodes of a slot in the order of R325. -/
def State.schedOrder (s : State) (slot : Fin 8) : List (Nat × Node) :=
  let roots := s.nodes.filter fun x => x.2.slot == slot && x.2.parent.isNone
  (s.preorder s.nodes.length roots).foldl (fun l x => insertPrio x l) []

/-! ## Budgets (R50) -/

/-- The cores that hold blocks of a node's subtree. -/
def State.coresHeld (s : State) (nid : Nat) : List Nat :=
  ((s.parts.filter fun p => (tget s.blocks p.2.block).elim false fun b => b.resident && s.under nid b.node).map
    (·.2.core)).dedup

/-- Slabs of an instance that has been placed. -/
def Inst.slabs (i : Inst) : Nat := i.img.elim 0 (·.slabs)

/-- The array slabs that a node's subtree holds. -/
def State.slabsHeld (s : State) (nid : Nat) : Nat :=
  ((s.insts.filter fun i => i.2.state == .running && s.under nid i.2.node).map fun i => i.2.slabs).foldl (· + ·) 0

/-- A node and its ancestors pass a test. -/
def State.upward (s : State) (nid : Nat) (f : Nat → Node → Bool) : Bool :=
  (s.ancestors nid).all fun a => (tget s.nodes a).elim true (f a)

/-- The cores may be added to those that the node's subtree and its ancestors' subtrees hold. -/
def State.coresAllowed (s : State) (nid : Nat) (cs : List Nat) : Bool :=
  s.upward nid fun a n => (s.coresHeld a ++ cs).dedup.length ≤ n.eff.cores

/-- The node's start is within its budget and its ancestors' budgets: a kernel or self-test wants a core (R50, R325; log 30), and a
collective one of the 16 engines (R17). -/
def State.startAllowed (s : State) (nid : Nat) (n : Node) : Bool :=
  match n.kind with
  | .launch | .selftest => s.upward nid fun a x => (s.coresHeld a).length < x.eff.cores
  | .collective => (s.freeEngine n.slot).isSome
  | _ => true

/-! ## Waiting nodes (R325) -/

/-- The node has been ready for one time slice of its parent. -/
def State.overdue (s : State) (n : Node) : Bool :=
  match n.parent.bind (tget s.nodes), n.readySince with
  | some p, some t => s.isReady n && p.eff.slice != 0 && t + p.eff.slice ≤ s.gtime.toNat
  | _, _ => false

/-- An overdue node of equal or higher priority holds back new blocks and instances of this one. -/
def State.barred (s : State) (nid : Nat) (n : Node) : Bool :=
  s.nodes.any fun x => x.1 != nid && x.2.slot == n.slot && x.2.eff.prio ≤ n.eff.prio && s.overdue x.2

/-- The slot is the running one, no gang switch is under way, and its context is not quiesced. -/
def State.mayStart (s : State) (slot : Fin 8) : Bool :=
  s.onTurn slot && (s.ctxs[slot]).elim false fun c => !c.quiesced

/-- The node that the scheduler starts next. -/
def State.nextStart (s : State) (slot : Fin 8) : Option Nat :=
  ((s.schedOrder slot).find? fun x => s.isReady x.2 && s.startAllowed x.1 x.2).map (·.1)

/-! ## Start (R234, R322, R330, R445) -/

/-- The node has started. -/
def State.started (s : State) (nid : Nat) (f : Node → Node := id) : State :=
  s.modNode nid fun n => f { n with started := true, readySince := none }

/-- Write a node and everything below it ABANDONED without starting them. -/
def State.abandonUnstarted (s : State) (nid : Nat) : State :=
  (s.nodes.filter fun x => s.under nid x.1).foldl (fun t x => t.setStatus x.1 .abandoned) s

/-- What a self-test node requires of its record and its fields (R445). -/
def selftestOk (n : Node) (l : Launch) : Bool :=
  l.parts == 1 && n.kp1.toNat < 1536 && ((if n.kp0 = 0 then 0xFF else n.kp0) : Word).getLsbD (dieOfCore n.kp1.toNat)

/-- Start a kernel launch or a self-test (R40, R322, R445). -/
def State.startLaunch (s : State) (nid : Nat) (n : Node) : State :=
  match s.readLaunch n.slot n.body.toNat with
  | (s1, some l) =>
    if l.accepted n.eff.store && (n.kind != .selftest || selftestOk n l) then
      s1.started nid fun x => { x with launch := some l, totalBlocks := l.gx * l.gy * l.gz }
    else (s1.started nid).setStatus nid .launcherr
  | (s1, none) => (s1.started nid).setStatus nid .launcherr

/-- A queued instance. -/
def Inst.queued (slot : Fin 8) (handle : Option Nat) (nid : Nat) (stack : Nat) (image barrier param : DWord)
    (arg : Word) (die : Nat) : Inst :=
  { slot := slot, handle := handle, node := nid, die := die, stack := stack, image := image, barrier := barrier,
    param := param, arg := arg, state := .queued, cause := 0, aborted := false, faulted := false, base := 0, img := none,
    units := [], ports := [], chans := [], ctl := [], arrivals := [], early := [], bankWork := [], bankLast := [], banksHeld := [],
    banksWait := [], round := 0, replays := 0, startClk := 0, clocks := 0, tokens := 0, result := none }

/-- Queue instances on the stacks of a mask, in ascending stack number (R234). -/
def State.queueInsts (s : State) (mask : Word) (mk : Nat → Inst) : State :=
  let is := (List.range 32).filter fun k => mask.getLsbD k
  { s with insts := s.insts ++ is.mapIdx (fun j k => (s.nextId + j, mk k)), nextId := s.nextId + is.length }

/-- A migration would stall the node's completion word (R104). A sample-group node has none (R52). -/
def State.wordMoves (s : State) (n : Node) : Bool := n.kind != .group && s.pageMoves n.slot (n.addr.toNat + 0x30) 8

/-- Start a Decoft configuration: a mask of 0 completes at once, unless its completion word has to wait (R120, R234, R320). -/
def State.startArray (s : State) (nid : Nat) (n : Node) : State :=
  let t := (s.started nid).queueInsts n.kp0 fun k => Inst.queued n.slot none nid k n.body n.kp2 n.kp3 n.kp1 (k / 4)
  if n.kp0 = 0 && !s.wordMoves n then t.setStatus nid .completed else t

/-- Start a collective on an engine; a descriptor that breaks R330 ends the node, ABANDONED or LAUNCHERR (log 29). -/
def State.startCollective (s : State) (nid : Nat) (n : Node) : State :=
  let engine := (s.freeEngine n.slot).getD 0
  match s.readRecordBy (some (engineMaster engine)) n.slot .r n.body.toNat 64 1 with
  | (s1, some bs) =>
    match collOf nid engine s1.choices bs with
    | some c =>
      let t := s1.started nid
      { t with
        collectives := t.collectives ++ [(t.nextId, c.fill (t.slotTime n.slot))]
        nextId := t.nextId + 1
        choices := t.choices + c.size * c.count + 1 }
    | none =>
      let f := s1.flip
      (f.2.started nid).setStatus nid (if f.1 then .launcherr else .abandoned)
  | (s1, none) =>
    let f := s1.flip
    (f.2.started nid).setStatus nid (if f.1 then .launcherr else .abandoned)

/-- Start a node. -/
def State.startNode (s : State) (nid : Nat) (n : Node) : State :=
  match n.kind with
  | .region | .group => s.started nid
  | .launch | .selftest => s.startLaunch nid n
  | .array => s.startArray nid n
  | .collective => s.startCollective nid n

/-- The node has not started and a dependency of it has failed (R325). -/
def State.doomed (s : State) (n : Node) : Bool := n.status.isNone && !n.started && s.depFailed n

/-- NODE_START: the scheduler starts the first node of its order that may start. A node whose dependency failed is abandoned
without starting (R325). -/
def nodeStart (nid : Nat) (s : State) : State :=
  match tget s.nodes nid with
  | none => s
  | some n =>
    if s.doomed n then s.abandonUnstarted nid
    else if s.mayStart n.slot && s.nextStart n.slot == some nid then s.startNode nid n
    else s

def execNodeStart (node : Nat) (s : State) : Out := .next (nodeStart node s)

/-! ## Completion (R325, R416) -/

/-- Every child has a final status. -/
def State.childrenFinal (s : State) (nid : Nat) : Bool := (s.children nid).all fun x => x.2.status.isSome

/-- No block of the node is left. -/
def State.noBlocks (s : State) (nid : Nat) : Bool := s.blocks.all fun b => b.2.node != nid

/-- Every instance of the node has ended (R120, R325; log 31). -/
def State.instsOver (s : State) (nid : Nat) : Bool := s.insts.all fun i => i.2.node != nid || i.2.state == .ended

/-- The node's own work has ended. -/
def State.workOver (s : State) (nid : Nat) (n : Node) : Bool :=
  match n.kind with
  | .region => s.childrenFinal nid
  | .launch | .selftest =>
    (n.totalBlocks ≤ n.nextBlock || n.draining) && s.noBlocks nid && s.childrenFinal nid && s.instsOver nid
  | .array => s.instsOver nid
  | .collective => s.collectives.all fun c => c.2.node != nid || c.2.over
  | .group => false

/-- The final status of a node whose work has ended. -/
def State.finalStatus (s : State) (nid : Nat) (n : Node) : Status :=
  let good := match n.kind with
    | .region => (s.children nid).all fun x => x.2.status == some .completed
    | .launch | .selftest => n.totalBlocks ≤ n.nextBlock
    | .array => s.insts.all fun i => i.2.node != nid || (!i.2.faulted && !i.2.aborted)
    | .collective => s.collectives.all fun c => c.2.node != nid || !c.2.givenUp
    | .group => true
  if good && !n.spoiled then .completed else .abandoned

/-- NODE_COMPLETE: a started node whose work has ended becomes final, and what the device kept for it goes (R320, R325, R415). While a
migration would stall its completion word, it waits, and so do its dependants (R104, R120). A node under a kill ends by
WORK_STOP_COMPLETE. -/
def nodeComplete (nid : Nat) (s : State) : State :=
  match tget s.nodes nid with
  | none => s
  | some n =>
    if s.doomed n then s.abandonUnstarted nid
    else if (n.started || n.draining) && n.status.isNone && !n.killing && s.workOver nid n && !s.wordMoves n then
      ({ s with collectives := s.collectives.filter fun c => c.2.node != nid }).setStatus nid (s.finalStatus nid n)
    else s

def execNodeComplete (node : Nat) (s : State) : Out := .next (nodeComplete node s)

/-! ## Time slices (R50) -/

/-- The sibling that a child yields to: the next one in link order, cyclically, of equal priority that is ready or running. -/
def State.yieldTo (s : State) (p nid : Nat) (n : Node) : Option Nat :=
  let cs := s.children p
  let i := cs.findIdx fun x => x.1 == nid
  ((List.range cs.length).map fun k => (i + 1 + k) % cs.length).find? fun j =>
    (cs[j]?).elim false fun x => x.1 != nid && x.2.eff.prio == n.eff.prio && x.2.status.isNone && (x.2.started || s.isReady x.2)

/-- TIME_SLICE_EXPIRY: a child that has held resources for its time slice yields (R50). -/
def timeSliceExpiry (nid : Nat) (s : State) : State :=
  match tget s.nodes nid with
  | none => s
  | some n =>
    match n.parent with
    | none => s
    | some p =>
      if n.status.isSome || s.running != some n.slot || n.eff.slice = 0 || n.used < n.eff.slice then s
      else
        let s1 := s.modNode nid fun x => { x with used := 0 }
        match s.yieldTo p nid n with
        | some j => s1.modNode p fun x => { x with turn := j }
        | none => s1

def execTimeSliceExpiry (node : Nat) (s : State) : Out := .next (timeSliceExpiry node s)

/-! ## The end of stopped work (R417, R418) -/

/-- Nothing of a stopped block is outstanding, nor of any block of the slot where it stands on a core that has been fenced (R418, R434).
Copies of a block that is away are discarded with it. -/
def State.quietBlock (s : State) (bid : Nat) (b : Block) : Bool :=
  (s.warps.all fun w => w.2.block != bid || (w.2.ops.isEmpty && !s.backStalled w.1))
    && !(b.resident && s.standsDown b && s.hasOrphans b.slot)
    && (!b.resident || s.running != some b.slot
        || s.copies.all fun c => c.2.finished || (tget s.warps c.2.wid).elim true fun w => w.block != bid)

/-- Remove the stopped blocks of a node that have nothing outstanding. -/
def State.sweep (s : State) (nid : Nat) : State :=
  (s.blocks.filter fun b => b.2.node == nid && b.2.stopping).foldl
    (fun t b => if t.quietBlock b.1 b.2 then t.removeBlock b.1 b.2 else t) s

/-- All work of a killed node has stopped. -/
def State.stopped (s : State) (nid : Nat) (n : Node) : Bool :=
  !s.awaitsOrphans n && s.noBlocks nid && s.instsOver nid
    && (s.collectives.all fun c => c.2.node != nid || c.2.inflight.isEmpty) && s.childrenFinal nid

/-- The group of a group node, completed where it is ready (R420). -/
def State.sweepGroup (s : State) (nid : Nat) : State :=
  match s.groups.find? fun g => g.2.node == nid && !g.2.done with
  | some g => s.groupCheck g.1
  | none => s

/-- WORK_STOP_COMPLETE: the stopped blocks of a node end once nothing of them is outstanding, and a killed node whose work has all
stopped is written ABANDONED (R417, R418, R420). -/
def workStopComplete (nid : Nat) (s : State) : State :=
  match tget s.nodes nid with
  | none => s
  | some n =>
    let s1 := (s.sweep nid).sweepGroup nid
    if n.killing && n.kind != .group && n.status.isNone && s1.stopped nid n && !s1.wordMoves n then
      ({ s1 with collectives := s1.collectives.filter fun c => c.2.node != nid }).setStatus nid .abandoned
    else s1

def execWorkStopComplete (node : Nat) (s : State) : Out := .next (workStopComplete node s)

end Sys2Proof.Machine
end

