-- ==== Sys2Proof/Machine/ArrayToken.lean ====
section
/-! DEFINITION. Tokens, channels, rounds and replays, control tokens and context switches of a Decoft instance
(spec/11_decoft_array.md R267-R271, R291, R292; spec/22_array_faults.md R401-R408; log 16). -/

namespace Sys2Proof.Machine

/-! ## Tokens (R267, R268) -/

/-- Bits of an element of a width code. -/
def elBits (w : Nat) : Nat := 32 / 2 ^ w

/-- All elements of a token. -/
def Token.els (w : Nat) (t : Token) : List Nat := (List.range (elCount w)).map fun i => nth t.payload.toNat i (elBits w)

/-- The valid elements of a token. -/
def Token.valid (w : Nat) (t : Token) : List Nat := (t.els w).take t.fill

/-- Elements side by side. -/
def packEls (b : Nat) : List Nat → Nat
  | [] => 0
  | x :: r => x % 2 ^ b + 2 ^ b * packEls b r

/-- The residues of the words of a payload (R267, R401). -/
def residueOf (p : BitVec 256) : BitVec 16 :=
  BitVec.ofNat 16 (packEls 2 ((List.range 8).map fun w => nth p.toNat w 32 % 3))

/-- A token with the residues of its payload; the route is set as it is sent. -/
def Token.make (kind : BitVec 2) (lev : BitVec 4) (fill payload : Nat) : Token :=
  let p := BitVec.ofNat 256 payload
  { kind := kind, lev := lev, fill := fill, route := 0, residue := residueOf p, payload := p }

/-- A data token of valid elements. -/
def dataToken (w : Nat) (xs : List Nat) : Token := Token.make 0 0 xs.length (packEls (elBits w) xs)
def endToken (lev : BitVec 4) : Token := Token.make 1 lev 0 0
/-- Its residues are those of the payload that carries the round number (log 18). -/
def roundToken (n : Nat) : Token := Token.make 2 0 0 (n % 2 ^ 32)

/-- Elements of a width packed into full tokens and a last one that may be partial. -/
def tokensOf (w : Nat) : Nat → List Nat → List Token
  | 0, _ => []
  | f + 1, xs => if xs.isEmpty then [] else dataToken w (xs.take (elCount w)) :: tokensOf w f (xs.drop (elCount w))

/-! ## Channels (R268, R271, R404; log 16) -/

def Intake.fresh : Intake := { queue := [], consumed := 0, skip := 0, marker := 0 }

/-- A channel from an operator of `m` copies to one of `n` copies. -/
def Chan.fresh (m n : Nat) : Chan :=
  { transit := [], retained := [], unprotected := false, phase := 0, deal := 0, ins := List.replicate n Intake.fresh,
    results := List.replicate m [], next := 0 }

/-- What one receiver holds. -/
def Chan.intake (c : Chan) (j : Nat) : Intake := (c.ins[j]?).getD Intake.fresh

/-- Apply `f` to what one receiver holds. -/
def Chan.modIn (c : Chan) (j : Nat) (f : Intake → Intake) : Chan := { c with ins := c.ins.mapIdx fun k x => if k = j then f x else x }

/-- A token enters the channel. A 513th copy is one that the sender's buffer does not keep (R404; log 16). -/
def Chan.send (c : Chan) (t : Token) : Chan :=
  { c with transit := c.transit ++ [t], retained := c.retained ++ [t], unprotected := c.unprotected || 512 ≤ c.retained.length }

/-- Tokens that the channel holds: on their way, and at the receiver that holds most. -/
def Chan.held (c : Chan) : Nat := c.transit.length + c.ins.foldl (fun m x => max m x.queue.length) 0

/-- Data tokens are dealt to the copies in turn from copy 0 on, again after each end marker; a marker goes to every copy (R271). -/
def Chan.dealtTo (c : Chan) (p : Nat) (t : Token) : List Nat := if t.kind = 0 then [p] else List.range c.ins.length
def Chan.dealNext (c : Chan) (p : Nat) (t : Token) : Nat :=
  if t.kind = 0 then (p + 1) % c.ins.length else if t.kind = 1 then 0 else p

/-- A receiver gets a token; one that it has consumed before a replay is discarded (R405). -/
def Intake.receive (t : Token) (x : Intake) : Intake :=
  if x.skip = 0 then { x with queue := x.queue ++ [t] } else { x with skip := x.skip - 1 }

/-- A token reaches the end of the channel. -/
def Chan.arrive (c : Chan) (t : Token) : Chan :=
  { (c.dealtTo c.deal t).foldl (fun (x : Chan) j => x.modIn j (Intake.receive t)) c with deal := c.dealNext c.deal t }

/-- A receiver consumes its head token. -/
def Intake.consume (x : Intake) : Intake := { x with queue := x.queue.tail, consumed := x.consumed + 1 }

/-- The first token that is kept goes from the sender's buffer: it has been consumed. -/
def Chan.forget (c : Chan) : Chan :=
  match c.retained with
  | [] => c
  | t :: r =>
    { (c.dealtTo c.phase t).foldl (fun (x : Chan) j => x.modIn j fun y => { y with consumed := y.consumed - 1 }) c with
      retained := r, phase := c.dealNext c.phase t }

/-- Round `r` is acknowledged: the copies before its marker go. A channel whose copies fit its buffer now is protected again
(R404; log 16). -/
def Chan.ack (r : Nat) (c : Chan) : Chan :=
  match c.retained.findIdx? fun t => t.kind == 2 && t.payload.toNat == r with
  | some n =>
    let d := (List.range n).foldl (fun (x : Chan) _ => x.forget) c
    { d with unprotected := decide (512 < d.retained.length) }
  | none => c

/-- Everything in the channel is discarded. -/
def Chan.emptied (c : Chan) : Chan := { c with transit := [], ins := c.ins.map fun x => { x with queue := [] } }

/-- The copies are sent again; those already consumed are to be discarded (R405). -/
def Chan.replay (c : Chan) : Chan :=
  { c with transit := c.retained, deal := c.phase, ins := c.ins.map fun x => { x with queue := [], skip := x.consumed } }

/-! ## Looking up an instance -/

def chanKey (ctx r : Nat) : Nat := ctx * 4096 + r
def ctlKey (ctx u n : Nat) : Nat := (ctx * 1024 + u) * 8 + n

/-- A context of the instance's image. -/
def Inst.ctxAt (i : Inst) (c : Nat) : Option ImgCtx := i.img.bind fun m => m.ctxs[c]?

/-- The route of a channel. -/
def Inst.routeAt (i : Inst) (k : Nat) : Option Route := (i.ctxAt (k / 4096)).bind fun c => c.routes[k % 4096]?

/-- The record of an FU, which may be one of several copies; and the unit that its routes name, copy 0 (R271, R310). -/
def ImgCtx.fu (c : ImgCtx) (u : Nat) : Option FuRec := c.fus.find? fun r => u < 512 && r.copies.contains u
def ImgCtx.lead (c : ImgCtx) (u : Nat) : Nat := (c.fu u).elim u (·.fu)

/-- The copies of the operator whose routes name a unit. -/
def ImgCtx.copiesOf (c : ImgCtx) (u : Nat) : List Nat := (c.fu u).elim [u] fun r => if r.fu = u then r.copies else [u]

/-- A channel as it stands: one that has carried nothing is fresh. -/
def Inst.chan (i : Inst) (k : Nat) : Chan :=
  (tget i.chans k).getD <|
    match i.ctxAt (k / 4096), i.routeAt k with
    | some c, some r => Chan.fresh (c.copiesOf r.su).length (c.copiesOf r.du).length
    | _, _ => Chan.fresh 1 1
def Inst.setChan (i : Inst) (k : Nat) (c : Chan) : Inst := { i with chans := tset i.chans k c }

def ImgCtx.apr (c : ImgCtx) (u : Nat) : Option Apr := c.aprs.find? fun a => a.port + 512 == u
def ImgCtx.outRoute (c : ImgCtx) (u pin : Nat) : Option Nat := c.routes.findIdx? fun t => t.su == c.lead u && t.sp == pin
def ImgCtx.inRoute (c : ImgCtx) (u pin : Nat) : Option Nat := c.routes.findIdx? fun t => t.du == c.lead u && t.dp == pin

/-- Input and output pins of a unit in a context: of all its entries (R295), or of its mode (R306). -/
def ImgCtx.pinsIn (c : ImgCtx) (u : Nat) : List Nat :=
  match c.fu u, c.apr u with
  | some r, _ => (r.live.flatMap FuEntry.pins).dedup
  | none, some a => (List.range 2).filter fun p => (portWidth a p false).isSome
  | none, none => []

def ImgCtx.pinsOut (c : ImgCtx) (u : Nat) : List Nat :=
  match c.fu u, c.apr u with
  | some r, _ => (r.live.flatMap FuEntry.outs).dedup
  | none, some a => (List.range 2).filter fun p => (portWidth a p true).isSome
  | none, none => []

/-- The running context of a unit. -/
def Inst.running (i : Inst) (u : Nat) : Nat := (tget i.units u).elim 0 (·.ctx)

/-- The pins of a unit in its running context. -/
def Inst.insOf (i : Inst) (u : Nat) : List Nat := (i.ctxAt (i.running u)).elim [] fun c => c.pinsIn u
def Inst.outsOf (i : Inst) (u : Nat) : List Nat := (i.ctxAt (i.running u)).elim [] fun c => c.pinsOut u

/-- The channel of an input or an output in the unit's running context. -/
def Inst.inKey (i : Inst) (u pin : Nat) : Option Nat :=
  ((i.ctxAt (i.running u)).bind fun c => c.inRoute u pin).map (chanKey (i.running u))
def Inst.outKey (i : Inst) (u pin : Nat) : Option Nat :=
  ((i.ctxAt (i.running u)).bind fun c => c.outRoute u pin).map (chanKey (i.running u))

/-- Which copy of its operator the unit is in its running context. -/
def Inst.copyNo (i : Inst) (u : Nat) : Nat := (i.ctxAt (i.running u)).elim 0 fun c => u - c.lead u

/-- What the unit has received on an input of its running context. -/
def Inst.intake (i : Inst) (u pin : Nat) : Option Intake := (i.inKey u pin).map fun k => (i.chan k).intake (i.copyNo u)

def Inst.modUnit (i : Inst) (u : Nat) (f : UnitSt → UnitSt) : Inst := { i with units := tmod i.units u f }
def Inst.modPort (i : Inst) (u : Nat) (f : PortSt → PortSt) : Inst := { i with ports := tmod i.ports u f }

/-! ## Faults (R406) -/

/-- A unit faults and stops. The cause recorded is that of the first fault. -/
def Inst.faultUnit (i : Inst) (u : Nat) (cause : BitVec 8) : Inst :=
  { i.modUnit u (fun s => { s with faulted := true }) with faulted := true, cause := if i.faulted then i.cause else cause }

/-- The unit may act. -/
def Inst.live (i : Inst) (u : Nat) : Bool := (tget i.units u).elim false fun s => !s.faulted

/-! ## Sending and consuming -/

/-- A number added to a list that lacks it. -/
def addNew (x : Nat) (xs : List Nat) : List Nat := if xs.contains x then xs else xs ++ [x]

/-- The token closes the stream. -/
def Token.final (t : Token) : Bool := t.kind == 1 && t.lev.getLsbD 3

/-- A token enters a channel under the channel's route identifier. The last data token on the result channel is kept (R290). -/
def Inst.put (i : Inst) (k : Nat) (t : Token) : Inst :=
  let x := { t with route := (i.routeAt k).elim 0 (·.rid) }
  { i.setChan k ((i.chan k).send x) with
    result := if t.kind == 0 && i.img.elim false (fun m => m.result.toNat == k % 4096) then some x else i.result }

/-- The collector takes the results of the copies in turn, and sends a marker once every copy has delivered it (R271). -/
def Inst.collect (i : Inst) (k : Nat) : Nat → Inst
  | 0 => i
  | f + 1 =>
    let c := i.chan k
    match ((c.results[c.next]?).getD []).head? with
    | none => i
    | some ts =>
      match ts.find? fun t => t.kind != 0 with
      | none =>
        let d := { c with results := c.results.mapIdx (fun j r => if j = c.next then r.tail else r), next := (c.next + 1) % c.results.length }
        (ts.foldl (fun (x : Inst) t => x.put k t) (i.setChan k d)).collect k f
      | some m =>
        if c.results.all fun r => (r.head?).elim false fun g => g.any fun t => t.kind == m.kind then
          let d := { c with results := c.results.map List.tail, next := if m.kind = 1 then 0 else c.next }
          ((i.setChan k d).put k m).collect k f
        else i

/-- The tokens of one result on an output of a unit. Those of an operator in several copies go through its collector. -/
def Inst.sendList (i : Inst) (u pin : Nat) (ts : List Token) : Inst :=
  let j := if ts.any Token.final then i.modUnit u fun s => { s with finalOut := addNew pin s.finalOut } else i
  match i.outKey u pin with
  | none => j
  | some k =>
    let c := j.chan k
    if c.results.length ≤ 1 then ts.foldl (fun (x : Inst) t => x.put k t) j
    else if ts.isEmpty then j
    else
      let d := { c with results := c.results.mapIdx fun n r => if n = i.copyNo u then r ++ [ts] else r }
      (j.setChan k d).collect k (d.results.foldl (fun n r => n + r.length) 0)

/-- Send a token on an output of a unit, on several outputs, and several tokens on several outputs. -/
def Inst.send (i : Inst) (u pin : Nat) (t : Token) : Inst := i.sendList u pin [t]
def Inst.sendAll (i : Inst) (u : Nat) (pins : List Nat) (t : Token) : Inst := pins.foldl (fun j p => j.send u p t) i
def Inst.sendEach (i : Inst) (u : Nat) (pins : List Nat) (ts : List Token) : Inst := pins.foldl (fun j p => j.sendList u p ts) i

/-- A channel has room for what it holds (R268): nothing always fits, and the manual gives no number of tokens beyond that, so it is a
free value (log 16). -/
def Inst.roomFor (i : Inst) (k held : Nat) : Bool := held == 0 || decide (held ≤ Config.chanRoom i.stack i.base i.image k)

/-- A channel is full (R268). -/
def Inst.full (i : Inst) (k : Nat) : Bool := !i.roomFor k (i.chan k).held

/-- Outputs of a unit can accept: their channels are not full, and the collector has taken what the copy delivered. -/
def Inst.accepts (i : Inst) (u : Nat) (pins : List Nat) : Bool :=
  pins.all fun p => (i.outKey u p).elim true fun k => !i.full k && i.roomFor k (((i.chan k).results[i.copyNo u]?).getD []).length

/-- A unit without data inputs sends a data token, and after every 64 of them on an output a round marker (R403). -/
def Inst.originate (i : Inst) (u pin : Nat) (t : Token) : Inst :=
  let n := ((tget i.units u).bind fun s => tget s.sent pin).getD 0 + 1
  let j := (i.send u pin t).modUnit u fun s => { s with sent := tset s.sent pin n }
  if n % 64 = 0 then j.send u pin (roundToken (n / 64)) else j

/-- The head token of an input. -/
def Inst.head (i : Inst) (u pin : Nat) : Option Token := (i.intake u pin).bind fun x => x.queue.head?

/-- Where the arrivals at a unit are recorded that holds an unordered merge (R285). -/
def arrivalKey (ctx u : Nat) : Nat := ctx * 1024 + u

/-- Consume the head token of an input. A data token leaves the record of arrivals. -/
def Inst.consume (i : Inst) (u pin : Nat) : Inst :=
  match i.inKey u pin, i.head u pin with
  | some k, some t =>
    let j := i.setChan k ((i.chan k).modIn (i.copyNo u) Intake.consume)
    let a := arrivalKey (i.running u) u
    let l := if t.kind = 0 then { j with arrivals := tmod j.arrivals a fun ps => ps.erase pin } else j
    if t.final then l.modUnit u fun s => { s with finalIn := addNew pin s.finalIn } else l
  | _, _ => i

def Inst.consumeAll (i : Inst) (u : Nat) (pins : List Nat) : Inst := pins.foldl (fun j p => j.consume u p) i

/-! ## Rounds (R403, R404) -/

/-- The last round marker that an input has delivered. -/
def Inst.markerOf (i : Inst) (u pin : Nat) : Nat := (i.intake u pin).elim 0 (·.marker)

/-- The least of some numbers. -/
def leastOf : List Nat → Nat
  | [] => 0
  | x :: r => r.foldl min x

/-- Consume a round marker at the head of an input. -/
def Inst.absorbPin (i : Inst) (u pin : Nat) : Inst :=
  match i.inKey u pin, i.head u pin with
  | some k, some t =>
    if t.kind == 2 then
      i.setChan k ((i.chan k).modIn (i.copyNo u) fun x => { x.consume with marker := t.payload.toNat % 2 ^ 32 })
    else i
  | _, _ => i

/-- The round that all inputs of a unit have delivered, and that the unit has yet to forward. -/
def Inst.roundDue (i : Inst) (u : Nat) : Option Nat :=
  let n := leastOf ((i.insOf u).map (i.markerOf u))
  (tget i.units u).bind fun s => if s.forwarded < n then some n else none

/-- A unit whose inputs have all delivered a further round marker forwards it on its outputs. -/
def Inst.forwardRound (i : Inst) (u : Nat) : Inst :=
  match i.roundDue u with
  | some n => (i.modUnit u fun x => { x with forwarded := n }).sendAll u (i.outsOf u) (roundToken n)
  | none => i

/-- The units that end the graph. -/
def Inst.sinks (i : Inst) : List Nat := (i.units.map (·.1)).filter fun u => (i.outsOf u).isEmpty && !(i.insOf u).isEmpty

/-- The round that every sink has consumed on every input. -/
def Inst.ackedRound (i : Inst) : Nat := leastOf (i.sinks.flatMap fun u => (i.insOf u).map (i.markerOf u))

/-- Acknowledge a round: copies before its marker go, and three replays are open again (R404, R405). -/
def Inst.ackCheck (i : Inst) : Inst :=
  let r := i.ackedRound
  if i.round < r then { i with round := r, replays := 0, chans := tmap i.chans (Chan.ack r) } else i

/-- A unit takes the round markers at the heads of its inputs (R403). One that it would forward waits until its outputs accept. -/
def Inst.absorb (i : Inst) (u : Nat) : Inst :=
  if (i.insOf u).any fun p => (i.head u p).elim false fun t => t.kind == 2 then
    let j := (i.insOf u).foldl (fun j p => j.absorbPin u p) i
    if (j.roundDue u).isSome && !i.accepts u (i.outsOf u) then i else (j.forwardRound u).ackCheck
  else i

/-! ## Transit, checks and replay (R401, R402, R405) -/

/-- What is wrong with a token on a channel. -/
def Token.error (t : Token) (rid : BitVec 6) : Option (BitVec 8) :=
  if t.residue != residueOf t.payload then some 0x02 else if t.route != rid then some 0x03 else none

/-- What the checks at a unit's inputs find: the first damaged token among those that they have received (R401). -/
def Inst.inputError (i : Inst) (u : Nat) : Option (BitVec 8) :=
  (i.insOf u).findSome? fun p => ((i.inKey u p).bind i.routeAt).bind fun r =>
    (i.intake u p).bind fun x => x.queue.findSome? fun t => t.error r.rid

/-- The units at the end of a channel. -/
def Inst.receivers (i : Inst) (k : Nat) : List Nat :=
  match i.ctxAt (k / 4096), i.routeAt k with
  | some c, some r => c.copiesOf r.du
  | _, _ => []

/-- A residue or route error that a unit has detected. Every channel is emptied and sends again what its receiver has not consumed; the
receivers of a channel whose copies are incomplete fault, and so does the detecting unit at the fourth error of a round
(R405, R406; log 16). -/
def Inst.replayAll (i : Inst) (u : Nat) (cause : BitVec 8) : Inst :=
  if 3 ≤ i.replays then i.faultUnit u cause
  else
    let lost := (i.chans.filter fun c => c.2.unprotected).map (·.1)
    (lost.flatMap i.receivers).foldl (fun (j : Inst) v => j.faultUnit v cause)
      { i with
        replays := i.replays + 1
        chans := tmap i.chans fun c => if c.unprotected then c.emptied else c.replay
        arrivals := [] }

/-! ## Control tokens (R270, R303, R305, R307) -/

/-- A token reaches a control input. -/
def Inst.pushCtl (i : Inst) (k v : Nat) : Inst := { i with ctl := tset i.ctl k ((tget i.ctl k).getD [] ++ [v]) }

/-- The head of a control input of a unit in its running context. -/
def Inst.ctlHead (i : Inst) (u n : Nat) : Option Nat := ((tget i.ctl (ctlKey (i.running u) u n)).getD []).head?
def Inst.popCtl (i : Inst) (u n : Nat) : Inst :=
  let k := ctlKey (i.running u) u n
  { i with ctl := tset i.ctl k ((tget i.ctl k).getD []).tail }

/-- Where a control output of a unit leads in its running context. A route names one FU, so of an operator in several copies the copy
that the route names sends the control tokens, and the others send none: R271 speaks of data tokens and end markers only
(DESIGN CHOICE, log 66). -/
def Inst.ctlDest (i : Inst) (u out : Nat) : Option Nat :=
  let c := i.running u
  ((i.ctxAt c).bind fun x => x.ctls.find? fun t => t.kind != 2 && t.su == u && t.so == out).map fun t => ctlKey c t.du t.di

/-- Send a token on a control output. -/
def Inst.sendCtl (i : Inst) (u out v : Nat) : Inst := (i.ctlDest u out).elim i fun k => i.pushCtl k v

/-- A branch token on an external control input reaches the units that it feeds in the context that each of them runs. -/
def Inst.external (i : Inst) (n v : Nat) : Inst :=
  (List.range 4).foldl (fun j c => ((j.ctxAt c).elim [] (·.ctls)).foldl (fun x t =>
    if t.kind == 2 && t.so == n && x.running t.du == c then x.pushCtl (ctlKey c t.du t.di) v else x) j) i

/-! ## Contexts (R291, R292) -/

/-- A unit at the start of a context. -/
def UnitSt.enter (s : UnitSt) (c : Nat) : UnitSt :=
  { s with ctx := c, entry := 0, branch := false, select := none, finalIn := [], finalOut := [], ops := [] }

def UnitSt.fresh : UnitSt :=
  { ctx := 0, entry := 0, branch := false, select := none, faulted := false, upset := false, finalIn := [], finalOut := [], sent := [],
    forwarded := 0, ops := [] }

/-- A port at the start of an APR, with the parameter block address of the instance. -/
def PortSt.start (a : Apr) (param : DWord) : PortSt :=
  { iter := 0, addr := a.baseAt param, chasing := false, items := [], buf := [], marked := 0, batchIdx := [], batchVal := [],
    ended := false }

/-- The port of a unit at the start of the context that the unit runs. -/
def Inst.startPort (i : Inst) (u : Nat) : Inst :=
  match (i.ctxAt (i.running u)).bind fun c => c.apr u with
  | some a => { i with ports := tset i.ports u (PortSt.start a i.param) }
  | none => { i with ports := tdel i.ports u }

def OpState.fresh : OpState := { partials := [], count := 0, pending := [], posA := 0, posB := 0 }

/-- What the operator of an entry keeps. -/
def UnitSt.opAt (s : UnitSt) (n : Nat) : OpState := (tget s.ops n).getD OpState.fresh

/-- The counts of a chain (R302). -/
def CounterRec.counts (r : CounterRec) : List Nat := r.levels.map (·.2.2)

/-- The iterations of all levels. -/
def iterations (ns : List Nat) : Nat := ns.foldl (· * ·) 1

/-- Every counter chain of a record has ended. -/
def UnitSt.chainsEnded (s : UnitSt) (c : ImgCtx) (r : FuRec) : Bool :=
  (List.range r.count).all fun n =>
    let e := entryOf ((r.entries[n]?).getD 0)
    e.op != 0x22 || (c.counters[e.f]?).elim true fun k => iterations k.counts ≤ (s.opAt n).count

/-- A unit has consumed and sent the final marker wherever it consumes and sends, and asks nothing of a bank. -/
def Inst.finished (i : Inst) (u : Nat) (s : UnitSt) : Bool :=
  (i.insOf u).all s.finalIn.contains && (i.outsOf u).all s.finalOut.contains && (tget i.bankWork u).isNone
    && (i.ctxAt s.ctx).elim true fun c => (c.fu u).elim true (s.chainsEnded c)

/-- The same of the unit as it stands. -/
def Inst.closed (i : Inst) (u : Nat) : Bool := (tget i.units u).elim true (i.finished u)

/-- The swap to a selected context, once the unit has passed its final marker, and its sequencer has taken the branch token that the
firing on it calls for (R291, R297). -/
def Inst.trySwap (i : Inst) (u : Nat) : Inst :=
  match tget i.units u with
  | none => i
  | some s =>
    match s.select with
    | some c => if i.finished u s && !s.faulted && !s.branch then (i.modUnit u fun x => x.enter c).startPort u else i
    | none => i

/-- A select token reaches a unit (R291, R408). -/
def Inst.selectUnit (i : Inst) (c u : Nat) : Inst :=
  match tget i.units u with
  | none => i
  | some s =>
    if s.faulted then i
    else if s.select.isSome || i.img.elim true (fun m => m.ctxs.length ≤ c) then i.faultUnit u 0x0C
    else (i.modUnit u fun x => { x with select := some c }).trySwap u

/-- A select token is broadcast to every unit of the region, in ascending unit code. -/
def Inst.broadcast (i : Inst) (c : Nat) : Inst := (i.units.map (·.1)).foldl (fun j u => j.selectUnit c u) i

/-- The value of S[b] of `dsig.tok` reaches a running instance (R270). -/
def Inst.signal (i : Inst) (v : Word) : Inst :=
  if v.getLsbD 9 then i.broadcast (v.toNat % 4) else i.external (v.toNat % 8) (v.toNat / 256 % 2)

end Sys2Proof.Machine
end

