-- ==== Sys2Proof/Machine/Lane.lean ====
section
/-! DEFINITION. Per-lane integer, logic and bit-field instructions (spec/07_lane_compute.md R163-R170). -/

namespace Sys2Proof.Machine

/-! ## Forms: one result from each active lane's sources (R163) -/

/-- One source. -/
def Ctx.lane1 (c : Ctx) (o : FormA1) (f : Word → Word) : State := c.finish (dst c.act o.d fun l => f (c.v o.a l))

/-- Two sources. -/
def Ctx.lane2 (c : Ctx) (o : FormA) (f : Word → Word → Word) : State :=
  c.finish (dst c.act o.d fun l => f (c.v o.a l) (c.v o.b l))

/-- Three sources. -/
def Ctx.lane3 (c : Ctx) (o : FormA3) (f : Word → Word → Word → Word) : State :=
  c.finish (dst c.act o.d fun l => f (c.v o.a l) (c.v o.b l) (c.v o.c l))

/-! ## Arithmetic on one lane (R57, R58, R165, R167-R170) -/

/-- High half of the signed product. -/
def mulHigh (x y : Word) : Word := BitVec.ofInt 32 (x.toInt * y.toInt / 2 ^ 32)
/-- High half of the unsigned product. -/
def mulHighU (x y : Word) : Word := BitVec.ofNat 32 (x.toNat * y.toNat / 2 ^ 32)
/-- Signed quotient; by zero all ones, and the most negative value by -1 is itself (R58). -/
def quot (x y : Word) : Word := if y = 0 then BitVec.allOnes 32 else x.sdiv y
/-- Unsigned quotient; by zero all ones. -/
def quotU (x y : Word) : Word := if y = 0 then BitVec.allOnes 32 else x.udiv y
/-- Signed remainder, with the dividend's sign; by zero the dividend. -/
def remd (x y : Word) : Word := if y = 0 then x else x.srem y
/-- Unsigned remainder; by zero the dividend. -/
def remdU (x y : Word) : Word := if y = 0 then x else x.umod y
def smaller (x y : Word) : Word := if x.slt y then x else y
def smallerU (x y : Word) : Word := if x.ult y then x else y
def larger (x y : Word) : Word := if x.slt y then y else x
def largerU (x y : Word) : Word := if x.ult y then y else x
/-- Absolute value; the most negative value is itself. -/
def absW (x : Word) : Word := if x.slt 0 then 0 - x else x
/-- Left shift; 0 for counts of 32 and more. -/
def shiftL (x y : Word) : Word := if 32 ≤ y.toNat then 0 else x <<< y.toNat
/-- Logical right shift; 0 for counts of 32 and more. -/
def shiftR (x y : Word) : Word := if 32 ≤ y.toNat then 0 else x >>> y.toNat
/-- Arithmetic right shift; copies of the sign for counts of 32 and more. -/
def shiftRA (x y : Word) : Word := x.sshiftRight (min y.toNat 31)

/-- The bitwise function of three inputs with code `fn` (R168). -/
def mixBits (fn : BitVec 8) (x y z : Word) : Word :=
  BitVec.ofFnLE fun i : Fin 32 =>
    fn.getLsbD ((x.getLsbD i.val).toNat + 2 * (y.getLsbD i.val).toNat + 4 * (z.getLsbD i.val).toNat)

/-- Number of set bits (R169). -/
def countOnes (x : Word) : Word := BitVec.ofNat 32 ((List.range 32).filter fun i => x.getLsbD i).length
/-- Zero bits above the highest set bit (R169). -/
def leadZeros (x : Word) : Word := if x = 0 then 32 else BitVec.ofNat 32 (31 - Nat.log2 x.toNat)

/-- The field of `len` bits at `pos`, sign-extended where `sx` (R170). -/
def extract (sx : Bool) (pos len : Nat) (x : Word) : Word :=
  let f := x.toNat / 2 ^ pos % 2 ^ len
  if sx && 2 ^ (len - 1) ≤ f then BitVec.ofInt 32 ((f : Int) - 2 ^ len) else BitVec.ofNat 32 f

/-- `y` with its field of `len` bits at `pos` replaced by the low bits of `x` (R170). -/
def insertField (pos len : Nat) (x y : Word) : Word :=
  let m : Word := BitVec.ofNat 32 ((2 ^ len - 1) * 2 ^ pos)
  (y &&& ~~~m) ||| ((x <<< pos) &&& m)

/-! ## Meanings -/

def execIadd (o : FormA) (s : State) : Out := issue (.iadd o) s fun c => c.lane2 o (· + ·)
def execIsub (o : FormA) (s : State) : Out := issue (.isub o) s fun c => c.lane2 o (· - ·)
def execImul (o : FormA) (s : State) : Out := issue (.imul o) s fun c => c.lane2 o (· * ·)
def execImulh (o : FormA) (s : State) : Out := issue (.imulh o) s fun c => c.lane2 o mulHigh
def execImulhU (o : FormA) (s : State) : Out := issue (.imulhU o) s fun c => c.lane2 o mulHighU
/-- R166. -/
def execImad (o : FormA3) (s : State) : Out := issue (.imad o) s fun c => c.lane3 o fun x y z => x * y + z
def execIdiv (o : FormA) (s : State) : Out := issue (.idiv o) s fun c => c.lane2 o quot
def execIdivU (o : FormA) (s : State) : Out := issue (.idivU o) s fun c => c.lane2 o quotU
def execIrem (o : FormA) (s : State) : Out := issue (.irem o) s fun c => c.lane2 o remd
def execIremU (o : FormA) (s : State) : Out := issue (.iremU o) s fun c => c.lane2 o remdU
def execImin (o : FormA) (s : State) : Out := issue (.imin o) s fun c => c.lane2 o smaller
def execIminU (o : FormA) (s : State) : Out := issue (.iminU o) s fun c => c.lane2 o smallerU
def execImax (o : FormA) (s : State) : Out := issue (.imax o) s fun c => c.lane2 o larger
def execImaxU (o : FormA) (s : State) : Out := issue (.imaxU o) s fun c => c.lane2 o largerU
def execIabs (o : FormA1) (s : State) : Out := issue (.iabs o) s fun c => c.lane1 o absW

/-- R167. -/
def execAnd (o : FormA) (s : State) : Out := issue (.and o) s fun c => c.lane2 o (· &&& ·)
def execOr (o : FormA) (s : State) : Out := issue (.or o) s fun c => c.lane2 o (· ||| ·)
def execXor (o : FormA) (s : State) : Out := issue (.xor o) s fun c => c.lane2 o (· ^^^ ·)
/-- R168. -/
def execBmix (o : FormA3) (fn : BitVec 8) (s : State) : Out := issue (.bmix o fn) s fun c => c.lane3 o (mixBits fn)
def execShl (o : FormA) (s : State) : Out := issue (.shl o) s fun c => c.lane2 o shiftL
def execShr (o : FormA) (s : State) : Out := issue (.shr o) s fun c => c.lane2 o shiftR
def execShrA (o : FormA) (s : State) : Out := issue (.shrA o) s fun c => c.lane2 o shiftRA
/-- R169. -/
def execPopc (o : FormA1) (s : State) : Out := issue (.popc o) s fun c => c.lane1 o countOnes
def execClz (o : FormA1) (s : State) : Out := issue (.clz o) s fun c => c.lane1 o leadZeros
def execBrev (o : FormA1) (s : State) : Out := issue (.brev o) s fun c => c.lane1 o BitVec.reverse
/-- R170. -/
def execBfe (o : FormA1) (sx : Bool) (len : BitVec 6) (pos : BitVec 5) (s : State) : Out :=
  issue (.bfe o sx len pos) s fun c => c.lane1 o (extract sx pos.toNat len.toNat)
def execBfi (o : FormA) (len : BitVec 6) (pos : BitVec 5) (s : State) : Out :=
  issue (.bfi o len pos) s fun c => c.lane2 o (insertField pos.toNat len.toNat)

end Sys2Proof.Machine
end

