-- ==== Sys2Proof/Machine/Transcend.lean ====
section
/-! DEFINITION. The correctly rounded functions exp2, log2, sin and cos of R78. Each result that is not exact is irrational; it is
enclosed in an interval of fixed-point numbers whose ends round alike, at the first of several precisions that suffices
(log 4). -/

namespace Sys2Proof.Machine

/-! ## Series in fixed point: numbers stand for n / 2^p, every product and quotient rounded down -/

/-- Sum of t^(2k+1)/(2k+1) from the term with power `pw` and divisor `d` on. -/
def atanhSum (p t2 : Nat) : Nat → Nat → Nat → Nat
  | 0, _, _ => 0
  | n + 1, pw, d => pw / d + atanhSum p t2 n (pw * t2 / 2 ^ p) (d + 2)

/-- atanh of t / 2^p, for t at most 2^p / 3. -/
def atanhFix (p t : Nat) : Nat := atanhSum p (t * t / 2 ^ p) p t 1

/-- ln 2. -/
def ln2Fix (p : Nat) : Nat := 2 * atanhFix p (2 ^ p / 3)

/-- Alternating sum for the arc tangent of 1/q: term `pw`, divisor `d`. -/
def atanSum (q2 : Nat) : Nat → Nat → Nat → Int
  | 0, _, _ => 0
  | n + 1, pw, d => (pw / d : Nat) - atanSum q2 n (pw / q2) (d + 2)

/-- π by Machin's formula. -/
def piFix (p : Nat) : Nat := (16 * atanSum 25 p (2 ^ p / 5) 1 - 4 * atanSum 57121 p (2 ^ p / 239) 1).toNat

/-- Sum of y^k/k! from the term `t` with index `k` on. -/
def expSum (p y : Nat) : Nat → Nat → Nat → Nat
  | 0, _, _ => 0
  | n + 1, t, k => t + expSum p y n (t * y / 2 ^ p / (k + 1)) (k + 1)

/-- Alternating sum of y^k/k! over every second k. -/
def trigSum (p y2 : Nat) : Nat → Nat → Nat → Int
  | 0, _, _ => 0
  | n + 1, t, k => (t : Int) - trigSum p y2 n (t * y2 / 2 ^ p / ((k + 1) * (k + 2))) (k + 2)

/-- sin of y / 2^p radians, for y at most π/2. -/
def sinFix (p y : Nat) : Nat := (trigSum p (y * y / 2 ^ p) p y 1).toNat
/-- cos of y / 2^p radians. -/
def cosFix (p y : Nat) : Nat := (trigSum p (y * y / 2 ^ p) p (2 ^ p) 0).toNat

/-- A bound on the error of every series above, in units of the last place. -/
def slack (p : Nat) : Nat := 64 * p + 64

/-- The precisions that are tried in turn. -/
def precisions : List Nat := [64, 128, 256, 512, 1024]

/-- Round a magnitude a * 2^e that lies within the slack, at the first precision that decides. -/
def decideRound (rm : RMode) (approx : Nat → Bool × Nat × Int) : List Nat → Nat × Flags
  | [] => (fp32.nan, 0)
  | p :: r =>
    let x := approx p
    let lo := roundMag fp32 x.1 (x.2.1 - slack p) x.2.2 true rm
    let hi := roundMag fp32 x.1 (x.2.1 + slack p) x.2.2 true rm
    if slack p < x.2.1 / 2 ^ 28 && lo = hi then lo else decideRound rm approx r

/-! ## The functions -/

/-- floor(m * 2^e). -/
def floorMag (m : Nat) (e : Int) : Nat := m * 2 ^ e.toNat / 2 ^ (-e).toNat

/-- The fraction of m * 2^e in units of 2^-p, rounded down. -/
def fracFix (p m : Nat) (e : Int) : Nat :=
  if 0 ≤ e then 0
  else
    let d := (-e).toNat
    m % 2 ^ d * 2 ^ p / 2 ^ d

/-- The value m * 2^e is an integer. -/
def isInt (m : Nat) (e : Int) : Bool := 0 ≤ e || m % 2 ^ (-e).toNat == 0

/-- 2^x rounded once (R78). -/
def exp2V (x : FVal) : Nat × Flags :=
  match x with
  | .nan s => (fp32.nan, flag s flNv)
  | .inf s => (if s then 0 else fp32.inf, 0)
  | .fin s m e =>
    if m = 0 then (0x3F800000, 0)
    else if (Nat.log2 m : Int) + e ≥ 10 then (if s then (0, flNx ||| flUnf) else (fp32.inf, flOvf ||| flNx))
    else
      let n := floorMag m e
      if isInt m e then roundMag fp32 false 1 (if s then -(n : Int) else n) false .rne
      else if !s && n ≥ 128 then (fp32.inf, flOvf ||| flNx)
      else
        decideRound .rne (fun p =>
          let fr := fracFix p m e
          let f := if s then 2 ^ p - fr else fr
          let k : Int := if s then -(n : Int) - 1 else n
          (false, expSum p (f * ln2Fix p / 2 ^ p) p (2 ^ p) 0, k - p)) precisions

/-- log2 x rounded once (R78). -/
def log2V (x : FVal) : Nat × Flags :=
  match x with
  | .nan s => (fp32.nan, flag s flNv)
  | .inf s => if s then (fp32.nan, flNv) else (fp32.inf, 0)
  | .fin s m e =>
    if m = 0 then (fp32.sign true + fp32.inf, flDz)
    else if s then (fp32.nan, flNv)
    else
      let b := Nat.log2 m
      let k := (b : Int) + e
      if m = 2 ^ b then roundInt fp32 k 0 false .rne
      else
        decideRound .rne (fun p =>
          -- the significand in [1, 2) is m / 2^b; log2 of it is 2 atanh((m - 2^b) / (m + 2^b)) / ln 2
          let t := (m - 2 ^ b) * 2 ^ p / (m + 2 ^ b)
          let v : Int := k * 2 ^ p + (2 * atanhFix p t * 2 ^ p / ln2Fix p : Nat)
          (v < 0, v.natAbs, -(p : Int))) precisions

/-- sin 2πx, or cos 2πx with `c`, rounded once, where x is not exact (R78). -/
def trigV (c : Bool) (s : Bool) (m : Nat) (e : Int) : Nat × Flags :=
  decideRound .rne (fun p =>
    let fr := 4 * fracFix p m e
    let q := (fr / 2 ^ p + (if c then 1 else 0)) % 4
    let y := fr % 2 ^ p * piFix p / 2 ^ (p + 1)
    let v := if q % 2 = 0 then sinFix p y else cosFix p y
    (((if c then false else s) != (q ≥ 2 : Bool)), v, -(p : Int))) precisions

def sinV (x : FVal) : Nat × Flags :=
  match x with
  | .nan s => (fp32.nan, flag s flNv)
  | .inf _ => (fp32.nan, flNv)
  | .fin s m e =>
    if m = 0 then (fp32.sign s, 0)
    else if isInt m (e + 1) then (fp32.sign s, 0)
    else if isInt m (e + 2) then
      -- an odd multiple of a quarter
      (fp32.sign (s != (floorMag m (e + 2) % 4 == 3)) + 0x3F800000, 0)
    else trigV false s m e

def cosV (x : FVal) : Nat × Flags :=
  match x with
  | .nan s => (fp32.nan, flag s flNv)
  | .inf _ => (fp32.nan, flNv)
  | .fin _ m e =>
    if m = 0 || isInt m e then (0x3F800000, 0)
    else if isInt m (e + 1) then (fp32.sign true + 0x3F800000, 0)
    else if isInt m (e + 2) then (0, 0)
    else trigV true false m e

end Sys2Proof.Machine
end

