-- ==== Sys2Proof/Machine/LaneFloat.lean ====
section
/-! DEFINITION. Per-lane floating point and conversion (spec/07_lane_compute.md R175-R179). -/

namespace Sys2Proof.Machine

/-- A result with flags in every active lane; the flags of all lanes accrue once (R63, R163). -/
def Ctx.laneF (c : Ctx) (d : VOp) (f : Lane → Word × Flags) : State :=
  c.finish fun w => accrue (dst c.act d (fun l => (f l).1) w) (flagsOf c.act fun l => (f l).2)

/-- A 64-bit result with flags in every active lane. -/
def Ctx.laneF64 (c : Ctx) (d : VOp) (f : Lane → DWord × Flags) : State :=
  c.finish fun w => accrue (dst64 c.act d (fun l => (f l).1) w) (flagsOf c.act fun l => (f l).2)

/-- Two FP32 sources. -/
def Ctx.float2 (c : Ctx) (o : FormA) (f : Word → Word → Word × Flags) : State :=
  c.laneF o.d fun l => f (c.v o.a l) (c.v o.b l)

/-- One FP32 source and a function on its value. -/
def Ctx.float1 (c : Ctx) (o : FormA1) (f : FVal → Nat × Flags) : State := c.laneF o.d fun l => pack32 (f (dec32 (c.v o.a l)))

def execFadd (o : FormA) (s : State) : Out := issue (.fadd o) s fun c => c.float2 o (fadd32 .rne)
def execFsub (o : FormA) (s : State) : Out := issue (.fsub o) s fun c => c.float2 o (fsub32 .rne)
def execFmul (o : FormA) (s : State) : Out := issue (.fmul o) s fun c => c.float2 o (fmul32 .rne)
def execFmin (o : FormA) (s : State) : Out := issue (.fmin o) s fun c => c.float2 o fmin32
def execFmax (o : FormA) (s : State) : Out := issue (.fmax o) s fun c => c.float2 o fmax32

/-- R176. -/
def execFfma (o : FormA3) (np nc : Bool) (rm : RMode) (s : State) : Out :=
  issue (.ffma o np nc rm) s fun c => c.laneF o.d fun l =>
    pack32 (fmaV fp32 rm np (dec32 (c.v o.a l)) (dec32 (c.v o.b l)) (FVal.negIf nc (dec32 (c.v o.c l))))

/-! ## The general float operation (R177) -/

def fxFmt : FxTy → Fmt
  | .bf16x2 => bf16
  | .f16x2 => fp16
  | .f32 => fp32
  | .f64 => fp64

/-- A pattern with its sign bit flipped where the condition holds. -/
def negPat (f : Fmt) (c : Bool) (x : Nat) : Nat :=
  if c then (if x / 2 ^ (f.eb + f.mb) % 2 = 1 then x - 2 ^ (f.eb + f.mb) else x + 2 ^ (f.eb + f.mb)) else x

/-- One element of an operation on three patterns. -/
def fxElem (f : Fmt) (op : FxOp) (rm : RMode) (x y z : Nat) : Nat × Flags :=
  let d := decodeF f
  match op with
  | .add => addV f rm (d x) (d y)
  | .sub => addV f rm (d x) (d y).neg
  | .mul => mulV f rm (d x) (d y)
  | .fma => fmaV f rm false (d x) (d y) (d z)
  | .min => minmax f false x y
  | .max => minmax f true x y
  | .div => divV f rm (d x) (d y)
  | .sqrt => sqrtV f rm (d x)

/-- Every element of an operation on register values. -/
def fxValue (ty : FxTy) (op : FxOp) (na nb nc : Bool) (rm : RMode) (x y z : Nat) : Nat × Flags :=
  let f := fxFmt ty
  let w := 1 + f.eb + f.mb
  let one (i : Nat) : Nat × Flags :=
    let el (v : Nat) : Nat := v / 2 ^ (w * i) % 2 ^ w
    fxElem f op rm (negPat f na (el x)) (negPat f nb (el y)) (negPat f nc (el z))
  if w = 16 then
    let a := one 0
    let b := one 1
    (a.1 + 2 ^ 16 * b.1, a.2 ||| b.2)
  else one 0

def execFx (o : FormA3) (ty : FxTy) (op : FxOp) (na nb nc : Bool) (rm : RMode) (s : State) : Out :=
  issue (.fx o ty op na nb nc rm) s fun c =>
    if ty = .f64 then c.laneF64 o.d fun l =>
      let r := fxValue ty op na nb nc rm (src64 c.w o.a l).toNat (src64 c.w o.b l).toNat (src64 c.w o.c l).toNat
      (BitVec.ofNat 64 r.1, r.2)
    else c.laneF o.d fun l => pack32 (fxValue ty op na nb nc rm (c.v o.a l).toNat (c.v o.b l).toNat (c.v o.c l).toNat)

/-! ## Division, roots and transcendental functions (R178) -/

def execFdiv (o : FormA) (rm : RMode) (s : State) : Out :=
  issue (.fdiv o rm) s fun c => c.float2 o fun x y => pack32 (divV fp32 rm (dec32 x) (dec32 y))
def execFsqrt (o : FormA1) (s : State) : Out := issue (.fsqrt o) s fun c => c.float1 o (sqrtV fp32 .rne)
def execFrcp (o : FormA1) (s : State) : Out := issue (.frcp o) s fun c => c.float1 o (rcpV fp32 .rne)
def execFrsq (o : FormA1) (s : State) : Out := issue (.frsq o) s fun c => c.float1 o (rsqV fp32 .rne)
def execFexp2 (o : FormA1) (s : State) : Out := issue (.fexp2 o) s fun c => c.float1 o exp2V
def execFlog2 (o : FormA1) (s : State) : Out := issue (.flog2 o) s fun c => c.float1 o log2V
def execFsin (o : FormA1) (s : State) : Out := issue (.fsin o) s fun c => c.float1 o sinV
def execFcos (o : FormA1) (s : State) : Out := issue (.fcos o) s fun c => c.float1 o cosV

/-! ## Conversion (R179) -/

/-- Sub-element `e` of a source of a type (R57, R59, R67). -/
def subElem (t : Ty) (e w : Nat) : Nat := w / 2 ^ (tyWidth t * e) % 2 ^ tyWidth t

/-- A register with sub-element `e` of a narrow type replaced; a T6 result clears the top byte (R67). -/
def putElem (t : Ty) (e : Nat) (y : Word) (r : Nat) : Word :=
  let z := insertField (tyWidth t * e) (tyWidth t) (BitVec.ofNat 32 r) y
  if t = .t6 then z &&& 0x00FFFFFF else z

def execCvt (o : FormA1) (st dt : Ty) (sat : Bool) (rm : RMode) (se de : BitVec 2) (s : State) : Out :=
  issue (.cvt o st dt sat rm se de) s fun c =>
    let from_ (l : Lane) : Nat := if tyWidth st = 64 then (src64 c.w o.a l).toNat else (c.v o.a l).toNat
    let r (l : Lane) : Nat × Flags := convert st dt sat rm (subElem st se.toNat (from_ l))
    if tyWidth dt = 64 then c.laneF64 o.d fun l => (BitVec.ofNat 64 (r l).1, (r l).2)
    else if tyWidth dt = 32 then c.laneF o.d fun l => pack32 (r l)
    else c.laneF o.d fun l => (putElem dt de.toNat (srcAt c.w o.d 0 l) (r l).1, (r l).2)

end Sys2Proof.Machine
end

