-- ==== Sys2Proof/Machine/MatrixNum.lean ====
section
/-! DEFINITION. The arithmetic of the matrix engine: tile layouts, exact block sums, accumulators with their checksums, and the
conversion of a drain (spec/03_numbers.md R67-R73; spec/10_matrix.md R245, R248, R249, R254, R258). -/

namespace Sys2Proof.Machine

/-! ## Elements (R56, R248) -/

/-- An element: a number in units of its format, an infinity, or a NaN with the flags that meeting it sets (R73). -/
inductive El where
  | num (v : Int)
  | inf (s : Bool)
  | nan (f : Flags)
  deriving DecidableEq, Repr

/-- Unit of a format, as the exponent of 2 negated; codes 0 T8, 1 T6, 2 BF16, 3 FP16. -/
def elUnit (t : Nat) : Nat :=
  match t with
  | 0 | 1 => 12
  | 2 => 133
  | _ => 24

/-- An element of a pattern. -/
def elOf (t x : Nat) : El :=
  let v := match t with
    | 0 => decodeT 7 (x % 256)
    | 1 => decodeT 5 (x % 64)
    | 2 => some (decodeF bf16 x)
    | _ => some (decodeF fp16 x)
  match v with
  | none => .nan flNav
  | some (.nan s) => .nan (flag s flNv)
  | some (.inf s) => .inf s
  | some (.fin s m e) => .num (alignTo s m e (-(elUnit t : Int)))

/-- Bytes of a row of K elements, and K (R248). -/
def rowSize (t : Nat) : Nat := if t = 1 then 96 else 128
def rowLen (t : Nat) : Nat := if t ≤ 1 then 128 else 64

def elems8 (bs : List Byte) : List El := bs.map fun b => elOf 0 b.toNat

def elems6 : List Byte → List El
  | a :: b :: c :: r =>
    let v := leNat [a, b, c]
    elOf 1 v :: elOf 1 (v / 64) :: elOf 1 (v / 4096) :: elOf 1 (v / 262144) :: elems6 r
  | _ => []

def elems16 (t : Nat) : List Byte → List El
  | a :: b :: r => elOf t (leNat [a, b]) :: elems16 t r
  | _ => []

/-- The elements of packed bytes (R67, R248). -/
def elems (t : Nat) (bs : List Byte) : List El :=
  match t with
  | 0 => elems8 bs
  | 1 => elems6 bs
  | _ => elems16 t bs

/-- `count` pieces of `n` items each. -/
def pieces_ {α : Type} (n count : Nat) (xs : List α) : List (List α) := (List.range count).map fun i => (xs.drop (i * n)).take n

/-- The bytes of a tile that its 32 rows of a format take up; those beyond are ignored (R248). -/
def rowsSize (t : Nat) : Nat := 32 * rowSize t

/-- The 32 rows of a tile (R248). -/
def tileRows (t : Nat) (bs : List Byte) : List (List El) := (pieces_ (rowSize t) 32 bs).map (elems t)

/-! ## Block sums (R73) -/

/-- An exact sum of products, with what special products it met and the flags they set. -/
structure Dot where
  sum : Int
  pos : Bool
  neg : Bool
  nan : Bool
  fl : Flags
  deriving DecidableEq, Repr

/-- The product of two elements. -/
def mulEl (x y : El) : El :=
  match x, y with
  | .nan f, .nan g => .nan (f ||| g)
  | .nan f, _ | _, .nan f => .nan f
  | .inf s, .inf t => .inf (s != t)
  | .inf s, .num v | .num v, .inf s => if v = 0 then .nan flNv else .inf (s != decide (v < 0))
  | .num u, .num v => .num (u * v)

def Dot.add (d : Dot) (x : El) : Dot :=
  match x with
  | .num v => { d with sum := d.sum + v }
  | .inf s => if s then { d with neg := true } else { d with pos := true }
  | .nan f => { d with nan := true, fl := d.fl ||| f }

/-- The sum of the products of two lists. -/
def dot (a b : List El) : Dot := ((a.zip b).map fun p => mulEl p.1 p.2).foldl Dot.add ⟨0, false, false, false, 0⟩

/-- y of R73, in FP32, for a unit 2^e of the sum. -/
def Dot.y (e : Int) (d : Dot) : Nat × Flags :=
  if d.nan then (fp32.nan, d.fl ||| flag (d.pos && d.neg) flNv)
  else if d.pos && d.neg then (fp32.nan, flNv)
  else if d.pos || d.neg then (fp32.sign d.neg + fp32.inf, 0)
  else let r := roundInt fp32 d.sum e false .rne; (r.1, r.2 &&& flOvf)

/-! ## Accumulators (R245) -/

/-- The elements in row order, the checksum row and the checksum column. -/
structure Accum where
  el : List Nat
  row : List Nat
  col : List Nat
  deriving DecidableEq, Repr

def Accum.zero : Accum := ⟨List.replicate 1024 0, List.replicate 32 0, List.replicate 32 0⟩

/-- Bytes of an accumulator: the elements, the checksum row, the checksum column. -/
def accumSize : Nat := 4608

def Accum.bytes (a : Accum) : List Byte := a.el.flatMap (leBytes 4) ++ a.row.flatMap (leBytes 8) ++ a.col.flatMap (leBytes 8)

def Accum.ofBytes (bs : List Byte) : Accum :=
  ⟨(pieces_ 4 1024 bs).map leNat, (pieces_ 8 32 (bs.drop 4096)).map leNat, (pieces_ 8 32 (bs.drop 4352)).map leNat⟩

/-- One checksum after one block, from the sums of its line and their y (R249). -/
def checkLine (e : Int) (old : Nat) (xs : List (Dot × Nat)) : Nat :=
  let pos := xs.any fun x => x.2 == fp32.inf
  let neg := xs.any fun x => x.2 == fp32.sign true + fp32.inf
  if xs.any (fun x => (decodeF fp32 x.2).isNan) || (pos && neg) then fp64.nan
  else
    let t : Int := (xs.map fun x => x.1.sum).foldl (· + ·) 0
    (addV fp64 .rne (decodeF fp64 old) (if pos || neg then .inf neg else .fin (decide (t < 0)) t.natAbs e)).1

/-- One block of 32 products for every output (R73, R249). -/
def macBlock (e : Int) (as bs : List (List El)) (c : Accum) : Accum × Flags :=
  let x := as.map fun a => bs.map fun b => let d := dot a b; (d, d.y e)
  let sums := (c.el.zip x.flatten).map fun p =>
    let r := addV fp32 .rne (decodeF fp32 p.1) (decodeF fp32 p.2.2.1)
    (r.1, (r.2 &&& (flOvf ||| flNv)) ||| p.2.2.2)
  let line (l : List (Dot × Nat × Flags)) : List (Dot × Nat) := l.map fun d => (d.1, d.2.1)
  let rows := (List.range 32).map fun j => x.filterMap fun l => l[j]?
  (⟨sums.map (·.1), (c.row.zip rows).map fun p => checkLine e p.1 (line p.2), (c.col.zip x).map fun p => checkLine e p.1 (line p.2)⟩,
    sums.foldl (fun f p => f ||| p.2) 0)

/-- All blocks in ascending order. -/
def macBlocks (e : Int) (as bs : List (List El)) : List Nat → Accum → Accum × Flags
  | [], c => (c, 0)
  | k :: r, c =>
    let at_ (l : List El) : List El := (l.drop (32 * k)).take 32
    let m := macBlock e (as.map at_) (bs.map at_) c
    let t := macBlocks e as bs r m.1
    (t.1, m.2 ||| t.2)

/-! ## The format word (R71, R72) -/

def fwFa (w : Word) : Nat := w.toNat % 16
def fwFb (w : Word) : Nat := w.toNat / 16 % 16
def fwMode (w : Word) : Nat := w.toNat / 2 ^ 24 % 4

/-- The power of two that scales a sum of unit products. -/
def fwExp (w : Word) : Int :=
  (w.extractLsb' 8 8).toInt + (w.extractLsb' 16 8).toInt - elUnit (fwFa w) - elUnit (fwFb w)

/-- The word is valid (R72). -/
def fwOk (w : Word) : Bool :=
  w.toNat / 2 ^ 26 == 0 && fwMode w ≤ 1 && fwFa w ≤ 3 && fwFb w ≤ 3 && decide (fwFa w ≤ 1) == decide (fwFb w ≤ 1)

/-- C ⊕= A × B under a format word (R73, R249). -/
def matMul (w : Word) (as bs : List (List El)) (c : Accum) : Accum × Flags :=
  macBlocks (fwExp w) as bs (List.range (rowLen (fwFa w) / 32)) (if fwMode w = 1 then Accum.zero else c)

/-! ## Weights (R258) -/

/-- Payload beats of a MAC block. -/
def weightBeats (comp t : Nat) : Nat :=
  if comp = 0 then (if t = 1 then 48 else 64) else if t = 0 then 40 else if t = 1 then 32 else 36

/-- The nibbles of bytes, low first. -/
def nibbles : List Byte → List Nat
  | [] => []
  | b :: r => b.toNat % 16 :: b.toNat / 16 :: nibbles r

/-- The four weights of a group from its nibble and its two values. -/
def group4 (n : Nat) (x y : El) : List El :=
  (List.range 4).map fun i => if i = n % 4 then x else if i = n / 4 then y else .num 0

/-- One column of two-of-four weights. -/
def spread : List Nat → List El → List El
  | n :: r, x :: y :: v => group4 n x y ++ spread r v
  | _, _ => []

/-- The index section of a two-of-four payload. -/
def indexBytes (t : Nat) (bs : List Byte) : List Byte := bs.drop (16 * rowSize t)

/-- Every nibble's first index lies below its second. -/
def nibblesOk (t : Nat) (bs : List Byte) : Bool := (nibbles (indexBytes t bs)).all fun n => n % 4 < n / 4

/-- The columns of B that a payload encodes. -/
def weightCols (comp t : Nat) (bs : List Byte) : List (List El) :=
  if comp = 0 then tileRows t bs
  else
    let vals := (pieces_ (rowSize t / 2) 32 bs).map (elems t)
    let idx := (pieces_ (rowLen t / 8) 32 (indexBytes t bs)).map nibbles
    (vals.zip idx).map fun p => spread p.2 p.1

/-! ## Draining (R253, R254) -/

/-- The drain word is valid (R253). -/
def drainOk (w : Word) : Bool :=
  let dt := w.toNat % 16
  w.toNat / 2 ^ 19 == 0 && w.toNat / 64 % 4 == 0 && dt ≤ 4 && (2 ≤ dt || (w.toNat / 16 % 4 == 0 && !w.getLsbD 17))

/-- Bytes of a row of 32 elements of a destination type. -/
def drainRow (dt : Nat) : Nat :=
  match dt with
  | 0 => 32
  | 1 => 24
  | 2 | 3 => 64
  | _ => 128

/-- The rounding mode of a code (R60). -/
def rmOf (n : Nat) : RMode :=
  match n with
  | 0 => .rne
  | 1 => .rtz
  | 2 => .rdn
  | _ => .rup

/-- A value times 2^k. -/
def FVal.scale (k : Int) : FVal → FVal
  | .fin s m e => .fin s m (e + k)
  | x => x

/-- One element converted (R68, R70). -/
def drainEl (w : Word) (x : Nat) : Nat × Flags :=
  let v := (decodeF fp32 x).scale (w.extractLsb' 8 8).toInt
  let ieee (f : Fmt) : Nat × Flags := saturate f (w.getLsbD 17) (roundV f (rmOf (w.toNat / 16 % 4)) v)
  match w.toNat % 16 with
  | 0 => encodeT 7 v
  | 1 => encodeT 5 v
  | 2 => ieee bf16
  | 3 => ieee fp16
  | _ => ieee fp32

/-- Groups of four 6-bit codes, packed (R67). -/
def pack6 : List Nat → List Byte
  | a :: b :: c :: d :: r => leBytes 3 (a + 64 * b + 4096 * c + 262144 * d) ++ pack6 r
  | _ => []

/-- The bytes of converted elements. -/
def drainBytes (dt : Nat) (xs : List Nat) : List Byte :=
  match dt with
  | 0 => xs.flatMap (leBytes 1)
  | 1 => pack6 xs
  | 2 | 3 => xs.flatMap (leBytes 2)
  | _ => xs.flatMap (leBytes 4)

/-- The exact value of a pattern in units of 2^-1074; none for a NaN or an infinity. -/
def exactOf (f : Fmt) (x : Nat) : Option Int :=
  match decodeF f x with
  | .fin s m e => some (alignTo s m e (-1074))
  | _ => none

/-- A line's elements do not match its checksum (R254): e > 2^-18 s + 2^-126. -/
def lineFails (ck : Nat) (els : List Nat) : Bool :=
  match exactOf fp64 ck, els.mapM (exactOf fp32) with
  | some c, some xs =>
    let t : Int := xs.foldl (· + ·) 0
    let mag : Nat := (xs.map Int.natAbs).foldl (· + ·) 0
    mag + 2 ^ 966 < (c - t).natAbs * 2 ^ 18
  | _, _ => false

/-- The first line that fails: rows 0 to 31, then columns 32 to 63 (R254). -/
def Accum.failing (a : Accum) : Option Nat :=
  let rows := pieces_ 32 32 a.el
  let lines := (a.col.zip rows) ++ (a.row.zip ((List.range 32).map fun j => rows.filterMap fun r => r[j]?))
  lines.findIdx? fun p => lineFails p.1 p.2

end Sys2Proof.Machine
end

