-- ==== Sys2Proof/Machine/ArrayOps.lean ====
section
/-! DEFINITION. What the operators of an FU compute: element by element (spec/12_decoft_ops.md R298, R299), and reductions, merges
and counter chains (R300-R302; spec/03_numbers.md R76; spec/11_decoft_array.md R282, R283). -/

namespace Sys2Proof.Machine

/-! ## Element-wise operators (R298) -/

/-- A pattern of `n` bits as a signed number. -/
def signedOf (n x : Nat) : Int := (BitVec.ofNat n x).toInt

/-- A value clamped to a range, with a mark that it was. -/
def clampTo (lo hi v : Int) : Int × Bool := if v < lo then (lo, true) else if hi < v then (hi, true) else (v, false)

/-- The pattern of `n` bits of a number. -/
def patOf (n : Nat) (v : Int) : Nat := (v % 2 ^ n).toNat

/-- `iadds` (R298): f[0] unsigned, f[1] subtract. -/
def addClamp (n f a b : Nat) : Nat × Bool :=
  let v (x : Nat) : Int := if f % 2 = 1 then (x : Int) else signedOf n x
  let s := if f / 2 % 2 = 1 then v a - v b else v a + v b
  let r := if f % 2 = 1 then clampTo 0 (2 ^ n - 1) s else clampTo (-(2 ^ (n - 1))) (2 ^ (n - 1) - 1) s
  (patOf n r.1, r.2)

/-- Shifts at an element width (R58). -/
def shlEl (n a b : Nat) : Nat := if n ≤ b then 0 else a * 2 ^ b % 2 ^ n
def shrEl (n f a b : Nat) : Nat :=
  if f % 2 = 1 then patOf n (signedOf n a / 2 ^ min b n) else if n ≤ b then 0 else a / 2 ^ b

/-- Element of a float operator, with the negation bits of f applied. -/
def floatEl (f : Fmt) (op : FxOp) (e : FuEntry) (a b c : Nat) : Nat :=
  (fxElem f op (rmOf e.rm) (negPat f (e.f % 2 == 1) a) (negPat f (e.f / 2 % 2 == 1) b) (negPat f (e.f / 4 % 2 == 1) c)).1

/-- A float condition on two FP32 patterns. -/
def floatCond (f a b : Nat) : Bool :=
  (FCond.ofCode (f % 8)).elim false fun cc => fcond cc (decodeF fp32 a) (decodeF fp32 b)

/-- An FP32 pattern as a float operator returns it: a NaN becomes the canonical one (R61, R298). -/
def canonEl (a : Nat) : Nat := if (decodeF fp32 a).isNan then fp32.nan else a

/-- The smaller or larger of two integers of n bits. -/
def pickEl (n f : Nat) (larger_ : Bool) (a b : Nat) : Nat :=
  let lt := if f % 2 = 1 then decide (a < b) else decide (signedOf n a < signedOf n b)
  if lt == larger_ then b else a

/-- Element of a result, and what it adds to the control value. -/
def fuElem (e : FuEntry) (a b c : Nat) : Nat × Bool :=
  let n := elBits e.ew
  let m := 2 ^ n
  let bit (x : Bool) : Nat × Bool := (if x then 1 else 0, x)
  match e.op with
  | 0x01 => (floatEl fp32 .add e a b c, false)
  | 0x02 => (floatEl fp32 .sub e a b c, false)
  | 0x03 => (floatEl fp32 .mul e a b c, false)
  | 0x04 => (floatEl fp32 .fma e a b c, false)
  | 0x05 => (floatEl fp32 .min e a b c, false)
  | 0x06 => (floatEl fp32 .max e a b c, false)
  | 0x07 => (if floatCond e.f a b then canonEl a else 0, false)
  | 0x08 => bit (floatCond e.f a b)
  | 0x09 => ((a + b) % m, false)
  | 0x0A => ((a + m - b) % m, false)
  | 0x0B => (a * b % m, false)
  | 0x0C => ((m - a) % m, false)
  | 0x0D => (pickEl n e.f false a b, false)
  | 0x0E => (pickEl n e.f true a b, false)
  | 0x0F => addClamp n e.f a b
  | 0x10 => (a &&& b, false)
  | 0x11 => (a ||| b, false)
  | 0x12 => (a ^^^ b, false)
  | 0x13 => (shlEl n a b, false)
  | 0x14 => (shrEl n e.f a b, false)
  | 0x15 => bit ((Cond.ofCode (e.f % 16)).elim false fun cc => icond cc (BitVec.ofNat n a) (BitVec.ofNat n b))
  | 0x16 => (if a != 0 then b else c, false)
  | 0x17 => (floatEl bf16 .add e a b c, false)
  | 0x18 => (floatEl bf16 .mul e a b c, false)
  | 0x19 => (floatEl bf16 .fma e a b c, false)
  | _ => (a, false)

/-- The operator states a control value of its own (R298, R299); elsewhere it is 1 (R297). -/
def ownControl (op : Nat) : Bool := op == 0x08 || op == 0x0F || op == 0x15 || op == 0x1A

/-! ## Conversion (R299) -/

/-- One element converted, and whether it counts for the control value. -/
def cvtEl (e : FuEntry) (x : Nat) : Nat × Bool :=
  match cvtTy (e.f % 16), cvtTy (e.f / 16) with
  | some st, some dt =>
    let r := convert st dt e.sat (rmOf e.rm) (x % 2 ^ tyWidth st)
    let toInt := match tyKind st, tyKind dt with
      | .int, _ => false
      | _, .int => true
      | _, _ => false
    (r.1, r.2 &&& flOvf != 0 || (toInt && r.2 &&& flNv != 0))
  | _, _ => (0, false)

/-! ## Reductions (R76, R283, R300) -/

def redOp (f : Nat) : FoldOp :=
  match f % 4 with
  | 0 => .fadd
  | 1 => .fmin
  | 2 => .fmax
  | _ => .add

/-- A value accumulated into a partial. -/
def accum (op : FoldOp) (p : Option Word) (x : Word) : Option Word :=
  match p with
  | none => some x
  | some y => some (fold2 op y x).1

/-- The partials of a reduction, four for each of 8 lanes, when none has a value. -/
def redFresh : List (List (Option Word)) := List.replicate 4 (List.replicate 8 none)

/-- A token of valid elements accumulated. -/
def redTake (op : FoldOp) (o : OpState) (xs : List Nat) : OpState :=
  let ps := if o.partials.isEmpty then redFresh else o.partials
  let one (row : List (Option Word)) : List (Option Word) :=
    row.mapIdx fun j p => match xs[j]? with
      | some x => accum op p (BitVec.ofNat 32 x)
      | none => p
  { o with partials := ps.mapIdx (fun k row => if k = o.count % 4 then one row else row), count := o.count + 1 }

/-- The partials of lane `j`. -/
def redLane (o : OpState) (j : Nat) : List (Option Word) := o.partials.map fun row => (row[j]?).getD none

/-- The result of a reduction: 8 lanes, or one value in whole-token mode. -/
def redResult (op : FoldOp) (tok : Bool) (o : OpState) : List Nat :=
  let lanes := (List.range 8).map (redLane o)
  if tok then
    [(foldTree op 3 (lanes.map fun l => if l.all (·.isNone) then none else some (foldTree op 2 l).1)).1.toNat]
  else lanes.map fun l => (foldTree op 2 l).1.toNat

/-- The marker that a reduction sends after its result; 0 for none (R283). -/
def redMarker (l : Nat) (lev : BitVec 4) : BitVec 4 := ((lev &&& 7) >>> (l + 1)) ||| (lev &&& 8)

/-! ## Merges of sorted runs (R301) -/

/-- The place of a key in its order. -/
def keyRank (f key : Nat) : Int :=
  match f % 4 with
  | 0 => key
  | 1 => signedOf 32 key
  | _ =>
    if (decodeF fp32 key).isNan then 2 ^ 33
    else if key < 2 ^ 31 then (key : Int) else -((key : Int) - 2 ^ 31) - 1

/-- Pair x goes before pair y. -/
def pairBefore (f : Nat) (x y : Nat × Nat) : Bool :=
  let a := keyRank f x.1
  let b := keyRank f y.1
  (if f / 4 % 2 = 1 then decide (b < a) else decide (a < b)) || (f / 8 % 2 == 1 && a == b && decide (x.2 < y.2))

/-- The pairs of elements. -/
def pairsOf : List Nat → List (Nat × Nat)
  | a :: b :: r => (a, b) :: pairsOf r
  | _ => []

/-- Merge until one list ends, ties from the first: the pairs emitted, and how many of each list are left. -/
def mergeRuns (f : Nat) : Nat → List (Nat × Nat) → List (Nat × Nat) → List (Nat × Nat) × Nat × Nat
  | n + 1, x :: xs, y :: ys =>
    let r := if pairBefore f y x then mergeRuns f n (x :: xs) ys else mergeRuns f n xs (y :: ys)
    ((if pairBefore f y x then y else x) :: r.1, r.2)
  | _, xs, ys => ([], xs.length, ys.length)

/-! ## Counter chains (R282, R302) -/

/-- The index of each level at a flat iteration. -/
def levelIdx : List Nat → Nat → List Nat
  | [], _ => []
  | n :: r, k => k % n :: levelIdx r (k / n)

/-- The number of levels, from level 0 on, that the flat iteration before `k` completes. -/
def levelsDone : List Nat → Nat → Nat
  | [], _ => 0
  | n :: r, k => if k % n = 0 then 1 + levelsDone r (k / n) else 0

/-- The marker that closes the levels which the iteration before `k` completes (R269). -/
def markerAt (ns : List Nat) (k : Nat) : BitVec 4 :=
  BitVec.ofNat 4 (2 ^ levelsDone ns k - 1) ||| (if k = iterations ns then 8 else 0)

/-- The value of a chain at a flat iteration. -/
def CounterRec.value (r : CounterRec) (k : Nat) : Word :=
  ((r.levels.zip (levelIdx r.counts k)).map fun p => p.1.1 + BitVec.ofNat 32 p.2 * p.1.2.1).foldl (· + ·) 0

/-- How many values the token at a flat iteration holds. -/
def CounterRec.run (r : CounterRec) (k : Nat) : Nat :=
  match r.counts with
  | n :: _ => min 8 (n - k % n)
  | [] => 0

/-- The branch value of the token that ends before iteration `k`. -/
def CounterRec.branchAt (r : CounterRec) (k : Nat) : Nat :=
  if (List.range (levelsDone r.counts k)).any fun i => r.mask.getLsbD i then 1 else 0

end Sys2Proof.Machine
end

