-- ==== Sys2Proof/Machine/ArrayUnit.lean ====
section
/-! DEFINITION. The firing of FUs, the passing of tokens, the bank tiles and their hand-over (spec/11_decoft_array.md R279-R285;
spec/12_decoft_ops.md R294-R305; spec/22_array_faults.md R401-R409). -/

namespace Sys2Proof.Machine

/-! ## A firing -/

/-- The entry that a unit executes: the instance, the unit with its state, its context and record, and the entry's number. -/
structure Firing where
  i : Inst
  u : Nat
  st : UnitSt
  c : ImgCtx
  r : FuRec
  e : FuEntry
  deriving Repr

/-- What a firing comes to: it waits, its unit faults, or it completes with a value for the control output and the marker that has
passed. -/
inductive FireOut where
  | wait
  | fault (i : Inst) (cause : BitVec 8)
  | done (i : Inst) (ctl : Option Nat) (mark : Option (BitVec 4))
  deriving Repr

def Inst.firing (i : Inst) (u : Nat) : Option Firing :=
  match tget i.units u with
  | none => none
  | some st =>
    match i.ctxAt st.ctx with
    | none => none
    | some c => (c.fu u).map fun r => ⟨i, u, st, c, r, entryOf ((r.entries[st.entry]?).getD 0)⟩

/-- What the entry's operator keeps, and an instance in which it keeps something else. -/
def Firing.op (x : Firing) : OpState := x.st.opAt x.st.entry
def Firing.keep (x : Firing) (i : Inst) (o : OpState) : Inst := i.modUnit x.u fun s => { s with ops := tset s.ops x.st.entry o }

/-- A constant of the running context (R310). -/
def Firing.const (x : Firing) (n : Nat) : Nat :=
  match (x.r.kinds[n]?).getD 0 with
  | 0 => ((x.r.consts[n]?).getD 0).toNat
  | 1 => x.i.param.toNat % 2 ^ 32
  | 2 => x.i.param.toNat / 2 ^ 32
  | 3 => x.i.arg.toNat
  | _ => x.i.stack

/-- Element `n` of a source, from the head tokens (R295). -/
def Firing.src (x : Firing) (w : Nat) (hs : List (Nat × Token)) (code n : Nat) : Nat :=
  let b := elBits w
  if code < 4 then (hs.find? fun h => h.1 == code).elim 0 fun h => nth h.2.payload.toNat n b
  else if code = 5 then n % 2 ^ b
  else if 8 ≤ code then x.const (code - 8) % 2 ^ b
  else 0

/-- The largest fill of the heads. -/
def fillOf (hs : List (Nat × Token)) : Nat := hs.foldl (fun m h => max m h.2.fill) 0

/-- The lev bits of the heads, OR-ed. -/
def levOf (hs : List (Nat × Token)) : BitVec 4 := hs.foldl (fun m h => m ||| h.2.lev) 0

/-- The head tokens of some inputs, where all are there. -/
def Firing.heads (x : Firing) (pins : List Nat) : Option (List (Nat × Token)) :=
  pins.mapM fun p => (x.i.head x.u p).map fun t => (p, t)

/-- Markers pass: they are consumed, and one marker with their lev bits goes to every output (R269, R296). -/
def Firing.pass (x : Firing) (i : Inst) (lev : BitVec 4) : FireOut :=
  .done (i.sendAll x.u x.e.outs (endToken lev)) none (some lev)

/-- The common form of R296: data tokens at every input, or markers at every one. -/
def Firing.joined (x : Firing) (data : List (Nat × Token) → Inst → FireOut) (mark : BitVec 4 → Inst → FireOut) : FireOut :=
  let ps := x.e.pins
  match x.heads ps with
  | none => .wait
  | some hs =>
    if hs.isEmpty || hs.any (fun h => h.2.kind == 2) then .wait
    else
      let j := x.i.consumeAll x.u ps
      if hs.all fun h => h.2.kind == 0 then data hs j
      else if hs.all fun h => h.2.kind == 1 then mark (levOf hs) j
      else .fault x.i 0x04

/-! ## Operators -/

/-- Element-wise operators (R298). -/
def Firing.elementwise (x : Firing) : FireOut :=
  x.joined (fun hs j =>
    let v (code n : Nat) : Nat := x.src x.e.ew hs code n
    let rs := (List.range (fillOf hs)).map fun n => fuElem x.e (v x.e.sa n) (v x.e.sb n) (v x.e.sc n)
    let ctl := if ownControl x.e.op then (if rs.any (·.2) then 1 else 0) else 1
    .done (j.sendAll x.u x.e.outs (dataToken x.e.ew (rs.map (·.1)))) (some ctl) none)
  fun lev j => x.pass j lev

/-- `cvt` (R299). -/
def Firing.cvt (x : Firing) : FireOut :=
  let wi := x.e.widths.1
  let wo := x.e.widths.2
  let n := elCount wo
  x.joined (fun hs j =>
    let rs := (List.range (fillOf hs)).map fun k => cvtEl x.e (x.src wi hs x.e.sa k)
    let all := x.op.pending ++ rs.map (·.1)
    let ctl := some (if rs.any (·.2) then 1 else 0)
    if elCount wi < n then
      let full := all.length / n * n
      .done (x.keep (j.sendEach x.u x.e.outs (tokensOf wo full (all.take full))) { x.op with pending := all.drop full }) ctl none
    else .done (j.sendEach x.u x.e.outs (tokensOf wo all.length all)) ctl none)
  fun lev j => x.pass (x.keep (j.sendEach x.u x.e.outs (tokensOf wo n x.op.pending)) { x.op with pending := [] }) lev

/-- `red` (R283, R300). -/
def Firing.red (x : Firing) : FireOut :=
  let op := redOp x.e.f
  let l := x.e.f / 8 % 4
  x.joined (fun hs j => .done (x.keep j (redTake op x.op ((List.range (fillOf hs)).map (x.src 0 hs x.e.sa)))) (some 1) none)
  fun lev j =>
    if lev.getLsbD l then
      let m := redMarker l lev
      let j1 := (x.keep j OpState.fresh).sendAll x.u x.e.outs (dataToken 0 (redResult op (x.e.f / 4 % 2 == 1) x.op))
      .done (if m = 0 then j1 else j1.sendAll x.u x.e.outs (endToken m)) none (some lev)
    else .done j none (some lev)

/-- Emit pairs of a `cxch`, four to a token. -/
def Firing.emitPairs (x : Firing) (i : Inst) (ps : List (Nat × Nat)) (o : OpState) : Inst :=
  let all := x.op.pending ++ ps.flatMap fun p => [p.1, p.2]
  let full := all.length / 8 * 8
  x.keep (i.sendEach x.u x.e.outs (tokensOf 0 full (all.take full))) { o with pending := all.drop full }

/-- `cxch` (R301): one firing merges until a head token is used up. -/
def Firing.cxch (x : Firing) : FireOut :=
  match x.i.head x.u 0, x.i.head x.u 1 with
  | some a, some b =>
    let o := x.op
    let xs := (pairsOf (a.valid 0)).drop o.posA
    let ys := (pairsOf (b.valid 0)).drop o.posB
    if a.kind == 2 || b.kind == 2 then .wait
    else if (a.kind == 0 && a.fill % 2 == 1) || (b.kind == 0 && b.fill % 2 == 1) then .fault x.i 0x05
    else if a.kind == 1 && b.kind == 1 then
      let j := (x.i.consumeAll x.u [0, 1]).sendEach x.u x.e.outs (tokensOf 0 8 o.pending)
      x.pass (x.keep j OpState.fresh) (a.lev ||| b.lev)
    else if a.kind == 1 then .done (x.emitPairs (x.i.consume x.u 1) ys { o with posB := 0 }) (some 1) none
    else if b.kind == 1 then .done (x.emitPairs (x.i.consume x.u 0) xs { o with posA := 0 }) (some 1) none
    else
      let r := mergeRuns x.e.f (xs.length + ys.length) xs ys
      let pa := if r.2.1 = 0 then 0 else o.posA + (xs.length - r.2.1)
      let pb := if r.2.2 = 0 then 0 else o.posB + (ys.length - r.2.2)
      let used := (if r.2.1 = 0 then [0] else []) ++ (if r.2.2 = 0 then [1] else [])
      .done (x.emitPairs (x.i.consumeAll x.u used) r.1 { o with posA := pa, posB := pb }) (some 1) none
  | _, _ => .wait

/-- The instance waits for the token of a bank. -/
def Inst.awaits (i : Inst) (bank : Nat) : Bool := i.banksWait.any fun b => b.1 == bank

/-- The operator is one of the bank network's. -/
def FuEntry.banks (e : FuEntry) : Bool := 0x26 ≤ e.op && e.op ≤ 0x28

/-- Units whose data reaches the addresses of a bank operator over at most so many units between. -/
def ImgCtx.feeders (c : ImgCtx) : Nat → List Nat
  | 0 => (c.routes.filter fun r => (c.fu r.du).elim false fun x => x.live.any fun e => e.banks && e.sa == r.dp).map (·.su)
  | f + 1 => let xs := c.feeders f; (xs ++ (c.routes.filter fun r => xs.contains r.du).map (·.su)).dedup

/-- An address generator for the banks does not start while a bank is awaited that its context names (R281). An image does not say
which generator is for which bank: each that leads to a bank operator is held (DEDUCED, log 50). -/
def Inst.generatorHeld (i : Inst) (u : Nat) : Bool :=
  (i.ctxAt (i.running u)).elim false fun c =>
    (c.events.any fun e => e.kind == 1 && i.awaits e.bank) && (c.feeders c.routes.length).contains (c.lead u)

/-- `cnt` (R302): the next index token, with the marker that closes the levels it ends. A unit that also has data inputs originates no
round marker: it forwards those of its inputs (R403). -/
def Firing.cnt (x : Firing) : FireOut :=
  match x.c.counters[x.e.f]? with
  | none => .wait
  | some r =>
    let k := x.op.count
    let n := r.run k
    if iterations r.counts ≤ k || n = 0 || x.i.generatorHeld x.u then .wait
    else
      let t := dataToken 0 ((List.range n).map fun q => (r.value (k + q)).toNat)
      let sent (y : Inst) (p : Nat) : Inst := if (x.i.insOf x.u).isEmpty then y.originate x.u p t else y.send x.u p t
      let j := x.keep (x.e.outs.foldl sent x.i) { x.op with count := k + n }
      let b := some (r.branchAt (k + n))
      if levelsDone r.counts (k + n) = 0 then .done j b none
      else
        let m := markerAt r.counts (k + n)
        .done (j.sendAll x.u x.e.outs (endToken m)) b (some m)

/-- `steer` (R284, R303): the queue of its history holds 64 entries. -/
def Firing.steer (x : Firing) : FireOut :=
  let held := (x.i.ctlDest x.u x.e.cout).elim 0 fun k => ((tget x.i.ctl k).getD []).length
  if 64 ≤ held then .wait
  else match x.i.head x.u x.e.sa with
    | none => .wait
    | some t =>
      let j := x.i.consume x.u x.e.sa
      if t.kind = 2 then .wait
      else if t.kind = 1 then .done (j.sendAll x.u [0, 1] (endToken t.lev)) (some 2) (some t.lev)
      else match x.i.ctlHead x.u x.e.ctl with
        | none => .wait
        | some v =>
          let arm := if v = 0 then 0 else 1
          .done ((j.popCtl x.u x.e.ctl).send x.u arm t) (some arm) none

/-- Both arms of a merge deliver a marker. -/
def Firing.bothMarkers (x : Firing) (i : Inst) (a b : Token) : FireOut :=
  x.pass (i.consumeAll x.u [0, 1]) (a.lev ||| b.lev)

/-- `mrgo` (R285, R408). -/
def Firing.mrgo (x : Firing) : FireOut :=
  match x.i.ctlHead x.u x.e.ctl with
  | none => .wait
  | some v =>
    let j := x.i.popCtl x.u x.e.ctl
    if v = 2 then
      match x.i.head x.u 0, x.i.head x.u 1 with
      | some a, some b =>
        if a.kind == 2 || b.kind == 2 then .wait
        else if a.kind == 1 && b.kind == 1 then x.bothMarkers j a b
        else .fault x.i 0x04
      | _, _ => .wait
    else match x.i.head x.u v with
      | none => .wait
      | some t =>
        if t.kind = 2 then .wait
        else if t.kind = 1 then .fault x.i 0x04
        else .done ((j.consume x.u v).sendAll x.u x.e.outs t) (some 1) none

/-- `mrgu` (R285): data in order of arrival. -/
def Firing.mrgu (x : Firing) : FireOut :=
  let isData (p : Nat) : Bool := (x.i.head x.u p).elim false fun t => t.kind == 0
  let k := arrivalKey x.st.ctx x.u
  let log := (tget x.i.arrivals k).getD []
  match log.find? isData with
  | some p =>
    match x.i.head x.u p with
    | none => .wait
    | some t =>
      .done ((x.i.consume x.u p).sendAll x.u x.e.outs t) (some 1) none
  | none =>
    match x.i.head x.u 0, x.i.head x.u 1 with
    | some a, some b => if a.kind == 1 && b.kind == 1 then x.bothMarkers x.i a b else .wait
    | _, _ => .wait

/-- `tok` (R305). -/
def Firing.tok (x : Firing) : FireOut :=
  x.joined (fun hs j =>
    let v := x.src 0 hs x.e.sa 0
    if x.e.f % 2 = 1 then .done (j.broadcast (v % 4)) none none else .done j (some (if v = 0 then 0 else 1)) none)
  fun lev j => .done j none (some lev)

/-- `drop` (R305). -/
def Firing.drop (x : Firing) : FireOut := x.joined (fun _ j => .done j (some 1) none) fun lev j => .done j none (some lev)

/-! ## Bank operators (R279, R280, R304) -/

/-- The instance holds the token of a bank. -/
def Inst.holdsBank (i : Inst) (bank : Nat) : Bool := i.banksHeld.any fun b => b.1 == bank

/-- The request of an element, unless its address faults. -/
def Inst.bankReq (i : Inst) (op : BankOp) (a d : Nat) : Option BankReq :=
  if a / 2 ^ 21 != 0 || !i.holdsBank (a / 2 ^ 15) then none else some ⟨a / 2 ^ 15, a % 2 ^ 15, op, BitVec.ofNat 32 d⟩

/-- The requests of elements up to the first that faults, with a mark that one did. -/
def Inst.bankReqs (i : Inst) (op : BankOp) : List (Nat × Nat) → List BankReq × Bool
  | [] => ([], false)
  | (a, d) :: r =>
    match i.bankReq op a d with
    | none => ([], true)
    | some q => let t := i.bankReqs op r; (q :: t.1, t.2)

/-- The tokens of a unit that are in the bank network, and their requests that no bank has served. -/
def Inst.bankTokens (i : Inst) (u : Nat) : List BankWork := (tget i.bankWork u).getD []
def BankWork.waiting (w : BankWork) : List BankReq := (w.reqs.filter fun q => q.2.isNone).map (·.1)
def Inst.bankQueue (i : Inst) (u : Nat) : List BankReq := (i.bankTokens u).flatMap BankWork.waiting

/-- Elements that are valid in every data input (R268). -/
def leastFill (hs : List (Nat × Token)) : Nat := leastOf (hs.map fun h => h.2.fill)

/-- `brd`, `bwr` and `bacc` queue the requests of their token, in ascending element, where the unit's port queue of 16 has room. A bank
on its way to the instance holds them up (R279, R281, R304). -/
def Firing.bank (x : Firing) : FireOut :=
  let op : BankOp := if x.e.op = 0x26 then .read else if x.e.op = 0x27 then .write else if x.e.f % 2 = 1 then .sadd else .fadd
  x.joined (fun hs j =>
    let xs := (List.range (leastFill hs)).map fun n => (x.src 0 hs x.e.sa n, x.src 0 hs x.e.sb n)
    let r := x.i.bankReqs op xs
    if (xs.any fun p => x.i.awaits (p.1 / 2 ^ 15)) || 16 < (x.i.bankQueue x.u).length + r.1.length then .wait
    else
      let w : BankWork := ⟨r.1.map fun q => (q, none), x.e.omask⟩
      let queued (y : Inst) : Inst :=
        if r.1.isEmpty then y else { y with bankWork := tset y.bankWork x.u (y.bankTokens x.u ++ [w]) }
      if r.2 then .fault (queued x.i) 0x0A else .done (queued j) (some 1) none)
  fun lev j => if (tget x.i.bankWork x.u).isSome then .wait else x.pass j lev

/-! ## Firing (R296, R297) -/

/-- The operator of the entry acts. -/
def Firing.act (x : Firing) : FireOut :=
  match x.e.op with
  | 0x1A => x.cvt
  | 0x20 => x.red
  | 0x21 => x.cxch
  | 0x22 => x.cnt
  | 0x23 => x.steer
  | 0x24 => x.mrgo
  | 0x25 => x.mrgu
  | 0x26 | 0x27 | 0x28 => x.bank
  | 0x29 => x.tok
  | 0x2A => x.drop
  | _ => x.elementwise

/-- The sequencer after a firing, and the control token that it sends. -/
def Firing.after (x : Firing) (i : Inst) (ctl : Option Nat) : Inst :=
  let j := match ctl with
    | some v => if x.e.cen then i.sendCtl x.u x.e.cout v else i
    | none => i
  (j.modUnit x.u fun s => if x.e.bk = 1 then { s with branch := true } else { s with entry := x.e.next }).trySwap x.u

/-- Hand-over events that a marker's passage through a unit brings about (R281, R311). -/
def Inst.handOvers (i : Inst) (u : Nat) (lev : BitVec 4) : List BankEvent :=
  ((i.ctxAt (i.running u)).elim [] (·.events)).filter fun e =>
    e.kind == 0 && e.unit == u && lev.getLsbD e.lev && i.holdsBank e.bank

/-- A request for the bank is queued. -/
def Inst.bankBusy (i : Inst) (bank : Nat) : Bool := i.bankWork.any fun w => (i.bankQueue w.1).any fun q => q.bank == bank

/-- The answers of the bank network go out, in stream order, as far as they have come and the outputs accept (R279, R304). -/
def Inst.answerWith (i : Inst) (u : Nat) : List BankWork → Inst
  | [] => { i with bankWork := tdel i.bankWork u }
  | w :: r =>
    let ps := (List.range 4).filter fun p => w.omask / 2 ^ p % 2 == 1
    if !w.waiting.isEmpty || !i.accepts u ps then { i with bankWork := tset i.bankWork u (w :: r) }
    else (i.sendAll u ps (dataToken 0 (w.reqs.map fun q => (q.2.getD 0).toNat))).answerWith u r

def Inst.answer (i : Inst) (u : Nat) : Inst :=
  if i.live u then i.answerWith u (i.bankTokens u)
  else if (i.bankQueue u).isEmpty then { i with bankWork := tdel i.bankWork u }
  else i

/-- The entry fires where it may, once every write to a bank that it hands over is performed. -/
def Firing.fire (x : Firing) : FireOut :=
  match x.act with
  | .done j ctl (some lev) => if (x.i.handOvers x.u lev).any fun e => x.i.bankBusy e.bank then .wait else .done j ctl (some lev)
  | r => r

/-- The entry fires. A firing whose arithmetic errs consumes no token and sends none, and starts a replay (R401, R405). -/
def Firing.turn (x : Firing) : Inst × Option (BitVec 4) :=
  match (if x.e.bk = 2 then { x with i := x.i.popCtl x.u x.e.ctl } else x).fire with
  | .wait => (x.i, none)
  | r =>
    if x.st.upset then ((x.i.modUnit x.u fun s => { s with upset := false }).replayAll x.u 0x02, none)
    else
      match r with
      | .done j ctl mark => (x.after j ctl, mark)
      | .fault j c => (j.faultUnit x.u c, none)
      | .wait => (x.i, none)

/-- A turn of a unit whose inputs hold only sound tokens: answers of the banks go out, round markers pass, a branch after the last
firing is taken, a guard is decided, and the entry fires, where each of its outputs accepts; with the marker that passed
(R296, R297). -/
def Inst.soundTurn (i0 : Inst) (u : Nat) : Inst × Option (BitVec 4) :=
  let i := (i0.answer u).absorb u
  match i.firing u with
  | none => (i, none)
  | some x =>
    if x.st.branch then
      match i.ctlHead u x.e.ctl with
      | none => (i, none)
      | some v =>
        (((i.popCtl u x.e.ctl).modUnit u fun s => { s with branch := false, entry := if v = 0 then x.e.next else x.e.tgt }).trySwap u, none)
    else if i.finished u x.st || ((tget i.bankWork u).isSome && !x.e.banks) then (i, none)
    else if x.e.bk = 2 && (i.ctlHead u x.e.ctl).isNone then (i, none)
    else if x.e.bk = 2 && i.ctlHead u x.e.ctl == some 0 then
      ((i.popCtl u x.e.ctl).modUnit u fun s => { s with entry := x.e.tgt }, none)
    else if !i.accepts u x.e.outs then (i, none)
    else x.turn

/-- An FU's turn. A damaged token at an input starts a replay instead (R401). -/
def Inst.fuTurn (i : Inst) (u : Nat) : Inst × Option (BitVec 4) :=
  if !i.live u then (i, none)
  else match i.inputError u with
    | some c => (i.replayAll u c, none)
    | none => i.soundTurn u

/-! ## Hand-over (R281) -/

/-- Give the token of a bank tile to the oldest instance that waits for it under the tag; none waiting, keep it. -/
def State.giveBank (s : State) (slot : Fin 8) (stack tile : Nat) (tag : BitVec 8) : State :=
  match s.insts.find? fun x => x.2.slot == slot && x.2.stack == stack && x.2.state == .running && x.2.banksWait.any fun b => b.2 == tag with
  | none => { s with handOvers := s.handOvers ++ [⟨slot, stack, tile, tag⟩] }
  | some (n, _) => s.modInst n fun x =>
      match x.banksWait.find? fun b => b.2 == tag with
      | none => x
      | some b => { x with banksHeld := x.banksHeld ++ [(b.1, tile)], banksWait := x.banksWait.erase b }

/-- A marker has passed through a unit of an instance: the banks of its events go. `before` is the instance as it stood. -/
def State.passed (s : State) (n u : Nat) (before : Inst) (mark : Option (BitVec 4)) : State :=
  match mark with
  | none => s
  | some lev => (before.handOvers u lev).foldl (fun t e =>
      match before.banksHeld.find? fun b => b.1 == e.bank with
      | none => t
      | some b => (t.modInst n fun x => { x with banksHeld := x.banksHeld.erase b }).giveBank before.slot before.stack b.2 e.tag) s

/-- The instance is placed, not aborted, and its slot runs. -/
def State.placed (s : State) (i : Inst) : Bool := i.state == .running && !i.aborted && s.running == some i.slot

/-- Its units fire: no switch of its slot has begun (R411). -/
def State.runs (s : State) (i : Inst) : Bool := s.placed i && !s.switching

/-- Apply an event to an instance that is placed: what a firing or a port has begun goes on while a switch begins (R411). -/
def State.onPlaced (s : State) (n : Nat) (f : Inst → State) : State :=
  match tget s.insts n with
  | some i => if s.placed i then f i else s
  | none => s

/-- Apply an event to an instance whose units fire. -/
def State.onInst (s : State) (n : Nat) (f : Inst → State) : State :=
  match tget s.insts n with
  | some i => if s.runs i then f i else s
  | none => s

/-- The instance after an event, with its replay counted in base-die event 3 (R405). -/
def State.withReplay (s : State) (n : Nat) (i j : Inst) : State :=
  let s1 := s.modInst n fun _ => j
  if i.replays < j.replays then s1.baseEvent i.stack 3 else s1

/-- FU_FIRE. -/
def fuFire (n u : Nat) (s : State) : State :=
  s.onInst n fun i =>
    let r := i.fuTurn u
    (s.withReplay n i r.1).passed n u i r.2

def execFuFire (inst unit : Nat) (s : State) : Out := .next (fuFire inst unit s)

/-! ## Transit (R401, R402) -/

/-- The destination of a channel holds an unordered merge. -/
def Inst.mergesAt (i : Inst) (k : Nat) (r : Route) : Bool :=
  ((i.ctxAt (k / 4096)).bind fun c => c.fu r.du).elim false fun x => x.live.any fun e => e.op == 0x25

/-- A token arrives at its receiver, which records where data arrived for an unordered merge: its arms are in0 and in1 (R285, R303). -/
def Inst.arrive (i : Inst) (k : Nat) (r : Route) (c : Chan) (t : Token) : Inst :=
  let j := i.setChan k (c.arrive t)
  if t.kind == 0 && r.dp < 2 && (c.intake c.deal).skip == 0 && i.mergesAt k r then
    let a := arrivalKey (k / 4096) r.du
    { j with arrivals := tset j.arrivals a ((tget j.arrivals a).getD [] ++ [r.dp]) }
  else j

/-- TOKEN_TRANSIT: the oldest token in transit on a channel is checked and passed on, or starts a replay. -/
def tokenTransit (n k : Nat) (s : State) : State :=
  s.onInst n fun i =>
    match i.routeAt k, (i.chan k).transit with
    | some r, t :: rest =>
      if !i.live r.su && !i.live r.du then s
      else match t.error r.rid with
        | some cause => s.withReplay n i (i.replayAll r.du cause)
        | none => (s.modInst n fun _ => i.arrive k r { i.chan k with transit := rest } t).baseEvent i.stack 2
    | _, _ => s

def execTokenTransit (inst route : Nat) (s : State) : Out := .next (tokenTransit inst route s)

/-! ## Bank tiles (R279, R304, R409) -/

/-- The units that have a request for the bank. -/
def Inst.asking (i : Inst) (bank : Nat) : List Nat :=
  (i.bankWork.map (·.1)).filter fun u => (i.bankQueue u).any fun q => q.bank == bank

/-- The least of some numbers above a bound, or else the least of them all. -/
def nextAfter (b : Nat) (xs : List Nat) : Nat :=
  let above := xs.filter fun x => b < x
  leastOf (if above.isEmpty then xs else above)

/-- The unit that the bank serves next: it takes their queues in turn, in ascending unit code (R279; log 50). -/
def Inst.bankTurn (i : Inst) (bank : Nat) : Option Nat :=
  if (i.asking bank).isEmpty then none
  else some (match tget i.bankLast bank with
    | some u => nextAfter u (i.asking bank)
    | none => leastOf (i.asking bank))

/-- The word that a request leaves in the bank. -/
def BankReq.result (q : BankReq) (old : Word) : Word :=
  match q.op with
  | .read => old
  | .write => q.data
  | .fadd => (fadd32 .rne old q.data).1
  | .sadd => old + q.data

/-- The first request for a bank that is still to be served has returned a word. -/
def serveReqs (bank : Nat) (x : Word) : List (BankReq × Option Word) → List (BankReq × Option Word) × Bool
  | [] => ([], false)
  | (q, some w) :: r => let t := serveReqs bank x r; ((q, some w) :: t.1, t.2)
  | (q, none) :: r =>
    if q.bank = bank then ((q, some x) :: r, true) else let t := serveReqs bank x r; ((q, none) :: t.1, t.2)

def serveTokens (bank : Nat) (x : Word) : List BankWork → List BankWork
  | [] => []
  | w :: r =>
    let t := serveReqs bank x w.reqs
    if t.2 then { w with reqs := t.1 } :: r else w :: serveTokens bank x r

/-- A unit's request is over: its word joins the answer, which goes out once it is whole (R304). -/
def Inst.served (i : Inst) (u bank : Nat) (x : Word) : Inst :=
  Inst.answer { i with bankWork := tmod i.bankWork u (serveTokens bank x), bankLast := tset i.bankLast bank u } u

/-- BANK_ACCESS: a bank serves the oldest request that the unit in turn has for it. A word that cannot be corrected is reported and
faults the unit (R279, R304, R390, R409). -/
def bankAccess (n bank : Nat) (s : State) : State :=
  s.onPlaced n fun i =>
    match i.bankTurn bank, i.banksHeld.find? fun b => b.1 == bank with
    | some u, some b =>
      match (i.bankQueue u).find? fun q => q.bank == bank with
      | none => s
      | some q =>
        let a := bankLoc i.slot.val i.stack b.2 (q.word * 4)
        if q.op != .write && s.badIn a 4 then
          (s.meet a 4).modInst n fun x => { x.faultUnit u 0x0D with bankWork := tdel x.bankWork u }
        else
          let old := BitVec.ofNat 32 (s.load a 4)
          let s2 := if q.op == .read then s else s.store a (leBytes 4 (q.result old).toNat)
          s2.modInst n fun x => x.served u bank old
    | _, _ => s

def execBankAccess (inst bank : Nat) (s : State) : Out := .next (bankAccess inst bank s)

end Sys2Proof.Machine
end

