-- ==== Sys2Proof/Machine/Complete.lean ====
section
/-! DEFINITION. The completion of outstanding operations: the order in which a warp's accesses are performed (R106, R109-R111),
what each performs (R187-R191, R196, R202, R254), and LOAD_COMPLETE, STORE_COMPLETE and TILE_OP_COMPLETE
(spec/08_memory_instr.md R192; spec/95_what_each_step_holds.md). -/

namespace Sys2Proof.Machine

/-! ## Order (R109, R110) -/

/-- The operation reads memory. -/
def opReads (o : OutOp) : Bool :=
  match o.kind with
  | .load _ _ | .atom _ _ _ | .cas _ _ | .qld _ _ _ | .tld _ => true
  | _ => false

/-- The operation writes memory. -/
def opWrites (o : OutOp) : Bool :=
  match o.kind with
  | .store | .atom _ _ _ | .cas _ _ | .tst _ | .cst | .flush _ _ _ => true
  | _ => false

/-- The address of an access as a location of R109 (a): a byte address in one space. An access to the warp's own part by .c is the
one by .s (R92). -/
def locKey (sp : Space) (a : Acc) : Nat :=
  match sp with
  | .s => 2 ^ 60 + a.addr
  | .c => if a.place.isClu then 2 ^ 61 + a.addr else 2 ^ 60 + a.addr % 2 ^ 20
  | .d => 2 ^ 62 + a.addr
  | .g => a.addr
  | .p => 2 ^ 63 + a.addr

/-- Two accesses meet in a byte of one location. -/
def accMeet (sp sq : Space) (a b : Acc) : Bool :=
  locKey sp a < locKey sq b + b.n && locKey sq b < locKey sp a + a.n

/-- Two operations meet in a byte of one location. A write-back meets the private stores to the lines that it names. -/
def opsMeet (a b : OutOp) : Bool :=
  match b.kind with
  | .flush lo n _ => a.space == .p && a.accs.any fun x => x.addr / 128 * 128 < lo + n && lo < x.addr / 128 * 128 + 128
  | _ => a.accs.any fun x => b.accs.any fun y => accMeet a.space b.space x y

/-- `a` comes before `b` in program order, or they are in different slices of the warp (R45, R110). -/
def inOrder (a b : OutOp) : Bool := a.id < b.id && (a.slice != b.slice || a.paths.isSuffixOf b.paths)

/-- `a` is performed before `b` (R45, R109). -/
def goesFirst (a b : OutOp) : Bool :=
  inOrder a b && (a.acq.isSome || b.rel.isSome || (a.slice == b.slice && (opsMeet a b || (opReads a && opWrites b))))

/-- Every operation of the warp that R109 places before the operation has been performed. -/
def mayComplete (w : Warp) (o : OutOp) : Bool := w.ops.all fun a => !goesFirst a o

/-- Two accesses go to one byte of storage, by one address or by two. -/
def placesMeet (a b : Acc) : Bool := a.place.loc < b.place.loc + b.n && b.place.loc < a.place.loc + a.n

/-- Two lanes of the operation meet in a byte. -/
def lanesMeet (sp : Space) : List Acc → Bool
  | [] => false
  | a :: r => r.any (fun b => b.lane != a.lane && (accMeet sp sp a b || placesMeet a b)) || lanesMeet sp r

/-- Insert an access by its key. -/
def insertAcc (k : Acc → Nat) (a : Acc) : List Acc → List Acc
  | [] => [a]
  | b :: r => if k a < k b then a :: b :: r else b :: insertAcc k a r

/-- The order in which the accesses are performed: ascending lanes, or, where lanes meet, by free keys (R106; log 6). The writes of
`cst` follow its own loop, rows first (R254). -/
def State.laneOrder (s : State) (o : OutOp) : List Acc :=
  if o.kind != .cst && opWrites o && lanesMeet o.space o.accs then
    o.accs.foldr (insertAcc fun a => Config.laneKey s.choices a.lane) []
  else o.accs

/-! ## Performing -/

/-- What the accesses of an operation have come to so far: the values read, each with its lane, the lanes that die, and the first
error. -/
structure Perf where
  s : State
  vals : List (Nat × Nat)
  dead : Mask
  err : Option Trap
  deriving DecidableEq, Repr

/-- The trap of a link-failed or fenced access, with its lane where lanes make the accesses (R367, R370). -/
def errOf (tile : Bool) (a : Acc) (fenced : Option Nat) : Trap :=
  let lane : BitVec 6 := if tile then 32 else BitVec.ofNat 6 a.lane
  match fenced with
  | some core => { code := 0x0F, value := BitVec.ofNat 64 core, lane := lane }
  | none => { code := 0x0C, value := BitVec.ofNat 64 a.addr, lane := lane }

def Perf.fail (r : Perf) (tile : Bool) (a : Acc) (s : State) (fenced : Option Nat) : Perf :=
  { r with s := s, err := some (r.err.getD (errOf tile a fenced)) }

def Perf.die (r : Perf) (a : Acc) (s : State) : Perf := { r with s := s, dead := r.dead ||| BitVec.ofNat 32 (2 ^ a.lane) }

/-- The issuing warp's place: its number, its part and its core. -/
structure Who where
  wid : Nat
  pid : Nat
  core : Nat
  deriving DecidableEq, Repr

/-- A read of the access's space by the warp. -/
def State.readAcc (s : State) (q : Who) (sp : Space) (a : Acc) : Got × State :=
  match sp with
  | .g => s.readGlobal q.pid q.core a
  | .p => s.readPriv q.pid q.wid q.core a
  | _ => s.readOnchip a

/-- A write to the access's space by the warp. -/
def State.writeAcc (s : State) (q : Who) (sp : Space) (a : Acc) (bs : List Byte) : Put × State :=
  match sp with
  | .g => s.writeGlobal q.pid a bs
  | .p => s.writePriv q.pid q.wid q.core a bs
  | _ => s.writeOnchip a bs

/-- A failed read of a tile's bytes: they are zero (R202). -/
def Perf.zeroTile (tile : Bool) (a : Acc) (r : Perf) : Perf := if tile then { r with vals := r.vals ++ [(a.lane, 0)] } else r

/-- A request that leaves the core meets poison that an expander reports (R337). -/
def State.poisoned (s : State) (q : Who) (sp : Space) (a : Acc) : Bool :=
  a.place.tier == 1 && s.poisonIn a.place.loc a.n && !(tget s.parts q.pid).any fun p => p.serves sp q.wid a.addr a.n

/-- Data that cannot be corrected is an error of the operation, not a death. -/
def Perf.lostOne (r : Perf) (tile : Bool) (a : Acc) (s : State) : Perf :=
  let t : Trap := { code := 0x0B, value := BitVec.ofNat 64 a.addr, lane := if tile then 32 else BitVec.ofNat 6 a.lane }
  ({ r with s := s, err := some (r.err.getD t) }).zeroTile tile a

/-- One read. Data of a `tld` that cannot be corrected is an error (R202, R367), and so is poison that an expander reports, as pz data is:
where it is met only when the load is performed, 0x0B is left pending (R337; DEDUCED, log 75). -/
def Perf.readOne (r : Perf) (q : Who) (sp : Space) (tile : Bool) (a : Acc) : Perf :=
  match r.s.readAcc q sp a with
  | (.bytes bs, s1) => { r with s := s1, vals := r.vals ++ [(a.lane, leNat bs * 256 ^ a.off)] }
  | (.dead, s1) =>
    if tile || r.s.poisoned q sp a then r.lostOne tile a s1 else r.die a s1
  | (.link, s1) => (r.fail tile a s1 none).zeroTile tile a
  | (.fenced c, s1) => (r.fail tile a s1 (some c)).zeroTile tile a

def Perf.writeOne (r : Perf) (q : Who) (sp : Space) (tile : Bool) (a : Acc) : Perf :=
  match r.s.writeAcc q sp a (leBytes a.n a.data) with
  | (.done, s1) => { r with s := s1 }
  | (.dead, s1) => r.die a s1
  | (.link, s1) => r.fail tile a s1 none
  | (.fenced c, s1) => r.fail tile a s1 (some c)

/-- The new value of an atomic of `n` bytes (R190). -/
def atomNew (op : AtomOp) (n old y : Nat) : Nat :=
  let x : BitVec (8 * n) := BitVec.ofNat _ old
  let z : BitVec (8 * n) := BitVec.ofNat _ y
  match op with
  | .add => (x + z).toNat
  | .min => (if x.slt z then x else z).toNat
  | .max => (if x.slt z then z else x).toNat
  | .minu => (if x.ult z then x else z).toNat
  | .maxu => (if x.ult z then z else x).toNat
  | .and => (x &&& z).toNat
  | .or => (x ||| z).toNat
  | .xor => (x ^^^ z).toNat
  | .exch => z.toNat
  | .fadd => (fadd32 .rne (BitVec.ofNat 32 old) (BitVec.ofNat 32 y)).1.toNat
  | .fmin => (fmin32 (BitVec.ofNat 32 old) (BitVec.ofNat 32 y)).1.toNat
  | .fmax => (fmax32 (BitVec.ofNat 32 old) (BitVec.ofNat 32 y)).1.toNat

/-- The flags of an atomic: of .fmin and .fmax those of R79, and of .fadd none (R191). -/
def rmwFlags (k : OpKind) (a : Acc) (old : Nat) : Flags :=
  match k with
  | .atom .fmin _ _ => (fmin32 (BitVec.ofNat 32 old) (BitVec.ofNat 32 a.data)).2
  | .atom .fmax _ _ => (fmax32 (BitVec.ofNat 32 old) (BitVec.ofNat 32 a.data)).2
  | _ => 0

/-- The value that an atomic leaves, none where it writes nothing (R191). -/
def rmwNew (k : OpKind) (a : Acc) (old : Nat) : Option Nat :=
  match k with
  | .atom op _ _ => some (atomNew op a.n old a.data)
  | .cas _ _ => if old = a.data then some a.new else none
  | _ => none

/-- One indivisible read and write at the coherence point (R116, R191). Where the request gets no answer it may or may not have been
performed (R394); one that is refused writes nothing (R336). -/
def Perf.rmwOne (r : Perf) (q : Who) (k : OpKind) (sp : Space) (a : Acc) : Perf :=
  let wr (s : State) (old : Nat) : State :=
    match rmwNew k a old with
    | some v => s.store a.place.loc (leBytes a.n v)
    | none => s
  let done (s : State) (old : Nat) : State := (wr s old).modWarp q.wid fun w => accrue w (rmwFlags k a old)
  if sp = .g then
    let s0 := r.s.modPart q.pid fun p => dropLine p (a.addr / 128) none
    let s1 := s0.request a.place true
    match s1.linkFails a.place with
    | (true, s2) =>
      let old := s2.load a.place.loc a.n
      let s3 := { s2 with choices := s2.choices + 1 }
      r.fail false a (if a.place.lost && Config.bit s2.choices then wr s3 old else s3) none
    | (false, s2) =>
      if s2.unreadable a.place.loc a.n then
        if r.s.poisoned q .s a then r.lostOne false a (s2.meet a.place.loc a.n) else r.die a (s2.meet a.place.loc a.n)
      else
        let got := s2.readPlace a.place a.n
        let old := leNat got.1
        { r with s := done got.2 old, vals := r.vals ++ [(a.lane, old)] }
  else
    match r.s.readOnchip a with
    | (.bytes bs, s1) => { r with s := done s1 (leNat bs), vals := r.vals ++ [(a.lane, leNat bs)] }
    | (.dead, s1) => r.die a s1
    | (.link, s1) => r.fail false a s1 none
    | (.fenced c, s1) => r.fail false a s1 (some c)

/-- Perform one access of an operation. -/
def Perf.one (q : Who) (o : OutOp) (r : Perf) (a : Acc) : Perf :=
  match o.kind with
  | .load _ _ | .qld _ _ _ => r.readOne q o.space false a
  | .tld _ => r.readOne q o.space true a
  | .atom _ _ _ | .cas _ _ => r.rmwOne q o.kind o.space a
  | .store => r.writeOne q o.space false a
  | .tst _ | .cst => r.writeOne q o.space true a
  | .flush _ _ _ => r

/-- What an operation has come to by the accesses performed so far, with the free choice of its next accesses taken. -/
def State.perfOf (s : State) (o : OutOp) : Perf := ⟨{ s with choices := s.choices + 1 }, o.vals, o.dead, o.err⟩

/-- Perform the accesses of an operation that are left. -/
def State.performAll (s : State) (q : Who) (o : OutOp) : Perf := (s.laneOrder o).foldl (fun r a => r.one q o a) (s.perfOf o)

/-! ## Destinations -/

/-- The value read in a lane. -/
def laneVal (vals : List (Nat × Nat)) (l : Nat) : Nat :=
  vals.foldl (fun v x => if x.1 = l then v + x.2 else v) 0

/-- The 32-bit result of a load of a size (R187). -/
def extend (z : Size) (v : Nat) : Word :=
  match z with
  | .sb => (BitVec.ofNat 8 v).signExtend 32
  | .sh => (BitVec.ofNat 16 v).signExtend 32
  | _ => BitVec.ofNat 32 v

/-- Write a loaded value per lane to a destination span. -/
def writeSpan (m : Mask) (z : Size) (d : VOp) (f : Nat → Nat) (w : Warp) : Warp :=
  match z with
  | .d => dst64 m d (fun l => BitVec.ofNat 64 (f l.val)) w
  | .q16 => (List.range 4).foldl (fun x i => dstAt m d i (fun l => BitVec.ofNat 32 (f l.val / 2 ^ (32 * i))) x) w
  | _ => dstAt m d 0 (fun l => extend z (f l.val)) w

/-- Fill the reserved entry of a queue (R196). -/
def fillQueue (n : Fin 4) (ticket : Nat) (z : Size) (m : Mask) (f : Nat → Nat) (w : Warp) : Warp :=
  { w with aq := w.aq.set n (w.aq[n].map fun e =>
      if e.ticket = ticket then
        { e with full := true, row := Vector.ofFn fun l => if m.getLsbD l.val then extend z (f l.val) else 0 }
      else e) }

/-- The part of an operation's destination registers. -/
def destOf (o : OutOp) : Option (Size × VOp) :=
  match o.kind with
  | .load z d | .atom _ z d | .cas z d => some (z, d)
  | _ => none

/-- Write back a line of the part that a `cflush` or `cinv` names, and discard it where it is clean and `inv` (R203). -/
def State.flushLine (s : State) (pid : Nat) (inv : Bool) (l : L1Line) : State :=
  let s1 := s.cleanLine pid l
  if inv then
    match (tget s1.parts pid).bind fun p => findLine p l.line l.owner with
    | some x => if x.dirty then s1 else s1.modPart pid fun p => dropLine p l.line l.owner
    | none => s1
  else s1

/-- The lines of a part that overlap a range. -/
def linesIn (p : Part) (lo n : Nat) : List L1Line :=
  p.l1.filter fun l => n != 0 && l.line * 128 < lo + n && lo < l.line * 128 + 128

/-- Write back, and with `inv` discard, the lines of a range (R203). -/
def State.flushRange (s : State) (pid lo n : Nat) (inv : Bool) : State :=
  match tget s.parts pid with
  | none => s
  | some p => (linesIn p lo n).foldl (fun t l => t.flushLine pid inv l) s

/-- Write the bytes of a tile that a `tld` read, zero where the read failed (R202). Piece `k` of a tile is its bytes 8 k to
8 k + 7. -/
def State.writeTile (s : State) (base : Nat) (vals : List (Nat × Nat)) : State :=
  vals.foldl (fun t x => t.store (base + 8 * x.1) (leBytes 8 x.2)) s

/-- The storage address of a tile of a warp's partition. -/
def tileBase (w : Warp) (t : Nat) : Nat :=
  matrixLoc w.part (w.wslot.toNat % 16) (4096 * t)

/-! ## Completion (R192, R368) -/

/-- The error that an operation leaves pending. -/
def pendOf (o : OutOp) (t : Trap) : PendErr :=
  { trap := t, op := some (o.ctr, o.seq), regs := opRegs o,
    tile := match o.kind with
      | .tld n => some n
      | _ => none
    copy := none }

/-- The effects of a performed operation on its warp, before the lanes that died are taken from it. -/
def State.settle (s : State) (q : Who) (w : Warp) (o : OutOp) (r : Perf) : State :=
  let zero := r.err.isSome
  let f (l : Nat) : Nat := if zero then 0 else laneVal r.vals l
  let m := o.mask &&& ~~~r.dead &&& w.laneok
  let s1 := match o.kind with
    | .load z d | .atom _ z d | .cas z d =>
      (s.modWarp q.wid (writeSpan m z d f)).healRegs (spanLocs q.wid m [(d, sizeSpan z)])
    | .qld n ticket z => s.modWarp q.wid (fillQueue n ticket z m f)
    | .tld t => s.writeTile (tileBase w t) r.vals
    | .flush lo n inv => s.flushRange q.pid lo n inv
    | _ => s
  match r.err with
  | some t => s1.addErr q.wid (pendOf o t)
  | none => s1

/-- Perform and retire an outstanding operation of a warp (R192). -/
def State.completeOp (s : State) (wid : Nat) (w : Warp) (o : OutOp) : State :=
  let q : Who := ⟨wid, w.part, s.coreOf w⟩
  let r := s.performAll q o
  let s1 := (r.s.settle q w o r).modWarp wid fun x => { x with ops := x.ops.filter fun y => y.id != o.id }
  let s2 := if o.acq.isSome then s1.discardGlobal w.part else s1
  let dead := match o.kind with
    | .tld _ | .tst _ | .cst => 0
    | _ => r.dead &&& w.laneok
  (s2.killLanes wid dead).blockCheck w.block

/-- The page of the access is still under the migration that it met (R104). -/
def State.stillMigrates (s : State) (slot : Fin 8) (a : Acc) : Bool :=
  a.place.mig && a.place.tier ≤ 1 && ((s.migrationAt a.place.pa).isSome || (s.ctxPlace slot a.addr).elim false fun p => p.mig && p.pa == a.place.pa)

/-- A line is to be written back, and its page is under a migration, which would stall that (R104). -/
def State.lineMoves (s : State) (slot : Fin 8) (l : L1Line) : Bool :=
  l.owner.isSome && l.dirty && l.held.isNone && s.pageMoves slot (l.line * 128) 128

/-- A line that the operation names would have to wait for a migration to be written back. -/
def State.flushStalls (s : State) (w : Warp) (o : OutOp) : Bool :=
  match o.kind with
  | .flush lo n _ => (tget s.parts w.part).elim false fun p => (linesIn p lo n).any (s.lineMoves w.slot)
  | _ => false

/-- A store, an atomic or a write-back of the operation is stalled by a migration, or an access of it waits for a stalled write-back of
its warp to the same bytes (R104, R124). -/
def State.opStalls (s : State) (wid : Nat) (w : Warp) (o : OutOp) : Bool :=
  (opWrites o && o.accs.any (s.stillMigrates w.slot)) || s.flushStalls w o
    || s.migration.elim false fun m => m.stalled.any fun x =>
        x.who == .warp wid && o.accs.any fun a => a.place.tier ≤ 1 && a.place.pa < x.addr + x.size && x.addr < a.place.pa + a.n

/-- An outstanding operation that may be performed now: its warp is resident, every access that goes first has been performed, and no
migration stalls it. -/
def State.readyOp (s : State) (wid op : Nat) : Option (Warp × OutOp) :=
  match tget s.warps wid with
  | none => none
  | some w =>
    match w.ops.find? fun o => o.id == op with
    | none => none
    | some o =>
      let here := s.running == some w.slot && (tget s.blocks w.block).elim false (·.resident)
      if here && mayComplete w o && !s.opStalls wid w o then some (w, o) else none

/-- One access of an operation is performed ahead of the rest: which one is a free choice, but the writes of `cst` keep their order
(R105, R115, R254). -/
def performEarly (wid op : Nat) (s : State) : State :=
  match s.readyOp wid op with
  | none => s
  | some (w, o) =>
    let k := if o.kind = .cst then 0 else (Config.word s.choices).toNat % o.accs.length
    match o.accs[k]? with
    | none => s
    | some a =>
      let r := (s.perfOf o).one ⟨wid, w.part, s.coreOf w⟩ o a
      let left (y : OutOp) : OutOp :=
        { y with accs := y.accs.erase a, vals := r.vals, dead := r.dead, err := r.err, begun := y.begun ||| BitVec.ofNat 32 (2 ^ a.lane) }
      r.s.modWarp wid fun x => { x with ops := x.ops.map fun y => if y.id = o.id then left y else y }

/-- The event that a counter's operation completes: nothing happens while it may not. -/
def completeEvent (wid op : Nat) (want : OutOp → Bool) (s : State) : State :=
  match s.readyOp wid op with
  | some (w, o) => if want o then s.completeOp wid w o else s
  | none => s

/-- LOAD_COMPLETE (R187, R191, R192, R196). -/
def execLoadComplete (wid op : Nat) (s : State) : Out := .next (completeEvent wid op (fun o => o.ctr == .loads) s)

/-- STORE_COMPLETE (R188, R192, R203). -/
def execStoreComplete (wid op : Nat) (s : State) : Out := .next (completeEvent wid op (fun o => o.ctr == .stores) s)

/-- TILE_OP_COMPLETE (R192, R202, R254). -/
def execTileOpComplete (wid op : Nat) (s : State) : Out := .next (completeEvent wid op (fun o => o.ctr == .tiles) s)

end Sys2Proof.Machine
end

