-- ==== Sys2Proof/Machine/Bar.lean ====
section
/-! DEFINITION. The PCIe endpoint: BAR0 registers and the memory window of BAR2 (spec/01_module.md R23; spec/13_scheduling.md R314;
spec/14_fabric_and_system.md R332-R334, R339), and requests at a physical address. -/

namespace Sys2Proof.Machine

/-! ## BAR0 (R314, R333) -/

/-- The window is busy with its last command. -/
def State.busyWindow (s : State) (w : Fin 16) : Bool := ((s.windows[w])[15]).getLsbD 31

/-- A write of the host is stalled by a migration, and what must follow it waits (R122, R124). -/
def State.hostStalled (s : State) : Bool := s.migration.elim false fun m => m.stalled.any fun x => x.who == .host

/-- A write of a BAR0 register. Word 14 submits a command, which the command's own event takes; word 15, head and mirror are
read-only, and reserved bits take no effect (R5). A write to wbase follows every earlier BAR2 access (R333). -/
def registerWrite (off : Nat) (value : Word) (s : State) : State :=
  if !s.booted || off % 4 != 0 then s
  else if off < 0x400 then
    let w : Fin 16 := Fin.ofNat 16 (off / 64)
    let n := off % 64 / 4
    if n < 14 && !s.busyWindow w then { s with windows := s.windows.set w ((s.windows[w]).setIfInBounds n value) } else s
  else if off = 0x1014 && !s.hostStalled then { s with wbase := value.setWidth 20 }
  else s

def execRegisterWrite (off : Nat) (value : Word) (s : State) : Out := .next (registerWrite off value s)

/-- A BAR0 register stands at the offset: after a stopped boot only the journal head does (R333, R342). -/
def State.hasRegister (s : State) (off : Nat) : Bool :=
  if s.booted then off < 0x400 || (0x1000 ≤ off && off < 0x1018) else 0x1000 ≤ off && off < 0x1008

/-- The word that a read of a BAR0 register gives: word 14 of a window is write-only and reads zero (R8), the head is the number of
the newest entry, and after a stopped boot it reads as all ones (R314, R317, R333, R342). -/
def State.registerAt (s : State) (off : Nat) : Word :=
  let half (x : Nat) : Word := BitVec.ofNat 32 (x / 2 ^ (8 * (off % 8)))
  if !s.booted then BitVec.allOnes 32
  else if off < 0x400 then (if off % 64 / 4 = 14 then 0 else ((s.windows[Fin.ofNat 16 (off / 64)])[off % 64 / 4]?).getD 0)
  else if off < 0x1008 then half (s.nextSeq - 1)
  else if off < 0x1010 then half (Config.mirror % 2 ^ 42)
  else half (s.wbase.toNat * 2 ^ 32)

/-- A host read of an aligned word of BAR0: a register's value, or Unsupported Request (R23, R333). -/
def State.registerRead (s : State) (off : Nat) : State :=
  if off % 4 = 0 && s.hasRegister off then { s with reply := .data (bytesOfWord (s.registerAt off)) false }
  else { s with reply := .unsupported }

/-- UNSUPPORTED_REQUEST: a host read outside every register. -/
def unsupportedRequest (off : Nat) (s : State) : State := if s.hasRegister off then s else s.registerRead off

def execUnsupportedRequest (off : Nat) (s : State) : Out := .next (unsupportedRequest off s)

/-! ## Requests at a physical address -/

/-- The first addresses of the 64 KiB pages that a range meets. -/
def pagesOf (pa n : Nat) : List Nat :=
  (List.range ((pa + n - 1) / 65536 + 1 - pa / 65536)).map fun i => (pa / 65536 + i) * 65536

/-- An address in each 512-byte block that a range meets. -/
def blocksOf (pa n : Nat) : List Nat :=
  (List.range ((pa + n - 1) / 512 + 1 - pa / 512)).map fun i => max pa ((pa / 512 + i) * 512)

/-- Every page of the range is populated (R22). -/
def populatedRange (pa n : Nat) : Bool := (pagesOf pa (max n 1)).all populated

/-- The master may make the request at the address: its page is populated and its target's table admits it (R22, R339). -/
def State.mayReach (s : State) (master : Nat) (need : Need) (pa : Nat) : Bool :=
  populated pa && (placeTarget (physPlace pa)).elim false fun t => s.admits t master need

/-- The page of a physical address is on an unavailable capacity page or port (R395). -/
def State.physFails (s : State) (pa : Nat) : Bool := !isStack pa && (s.linkFails (physPlace pa)).1

/-- The requests for a range that arrive at an MSC or a port directly, one for each 512-byte block. -/
def State.mscRequests (s : State) (pa n : Nat) : State := (blocksOf pa (max n 1)).foldl State.mscRequest s

/-- A write at a physical address. Over a failed link each 8-byte unit is written or not, where the request may have reached it
(R333, R394). -/
def State.physWrite (s : State) (pa : Nat) (bs : List Byte) : State :=
  let a := s.ask (physPlace pa)
  if (a.2.linkFails a.1).1 then a.2.storeLost a.1 bs else a.2.store pa bs

/-- Performing a store or an atomic of `n` bytes at a physical address. An atomic of data that cannot be corrected, or over a link that
fails, writes nothing (R190, R389, R395). -/
def State.physPerform (s : State) (pa n : Nat) (op : PeerOp) : State :=
  let rmw (new : Nat → Option Nat) : State :=
    if s.unreadable pa n then s.meet pa n
    else match new (s.load pa n) with
      | some v => s.physWrite pa (leBytes n v)
      | none => s
  match op with
  | .read => s.meet pa n
  | .write data => s.physWrite pa data
  | .atom a y => rmw fun old => some (atomNew a n old y.toNat)
  | .cas cmp new => rmw fun old => if old = cmp.toNat % 256 ^ n then some new.toNat else none

/-- An earlier stalled request of the same agent has to be performed first: for the host's writes any, else one to the same bytes
(R122, R124). -/
def Stalled.first (x : Stalled) (who : Requester) (pa n : Nat) (write : Bool) : Bool :=
  x.who == who && ((who == .host && write) || (pa < x.addr + x.size && x.addr < pa + n))

/-- An earlier stalled request goes before this one. -/
def State.behind (s : State) (who : Requester) (pa n : Nat) (write : Bool) : Bool :=
  s.migration.elim false fun m => m.stalled.any fun x => x.first who pa n write

/-- A store or an atomic from outside the module: it stalls while its page migrates, and behind an earlier stalled one (R104, R122,
R124). -/
def State.physRequest (s : State) (who : Requester) (pa n : Nat) (op : PeerOp) : State :=
  match s.migration with
  | some m =>
    if op != .read && ((s.migrationAt pa).isSome || (s.migrationAt (pa + n - 1)).isSome || s.behind who pa n true) then
      { s with migration := some { m with stalled := m.stalled ++ [⟨who, pa, n, op, []⟩] } }
    else s.physPerform pa n op
  | none => s.physPerform pa n op

/-! ## BAR2 (R333) -/

/-- The host's master identifier (R339). -/
def hostMaster : Nat := 0x8000

/-- The physical address of a BAR2 offset. -/
def State.windowAddr (s : State) (off : Nat) : Nat := s.wbase.toNat * 2 ^ 32 + off

/-- The entries of the counter-threshold ring that a read of a range takes in (R334). -/
def ringEntry (pa n slot : Nat) : Bool :=
  let a := mgmtBase + 0x10000 + 8 * slot
  a < pa + n && pa < a + 8

/-- Ask for each of some pages: the state after, and whether a request of one fails (R394, R395). -/
def State.askPages (s : State) : List Nat → State × Bool
  | [] => (s, false)
  | p :: r =>
    let a := s.ask (physPlace p)
    let t := a.2.askPages r
    (t.1, (a.2.linkFails a.1).1 || t.2)

/-- MEMORY_WINDOW_READ: the host's reply. A read of bytes that a stalled write of the host goes to waits (R124). -/
def memoryWindowRead (off len : Nat) (s : State) : State :=
  let pa := s.windowAddr off
  let pages := pagesOf pa (max len 1)
  if !s.booted || 2 ^ 32 < off + len || !pages.all (s.mayReach hostMaster .r) then { s with reply := .unsupported }
  else if s.behind .host pa len false then s
  else
    let a := (s.mscRequests pa len).askPages pages
    if a.2 then { a.1 with reply := .completerAbort }
    else
      { a.1.meet pa len with
        reply := .data (a.1.bytesAt pa len) (a.1.unreadable pa len)
        ringUnread := a.1.ringUnread.filter fun k => !ringEntry pa len k }

def execMemoryWindowRead (off len : Nat) (s : State) : Out := .next (memoryWindowRead off len s)

/-- A write of bytes at a physical address, one 64 KiB page after the other; what a page refuses is lost. -/
def State.writePages (s : State) (who : Requester) (may : State → Nat → Bool) : Nat → Nat → List Byte → State
  | 0, _, _ => s
  | n + 1, pa, bs =>
    let k := 65536 - pa % 65536
    let s1 := if may s pa then (s.mscRequests pa (min k bs.length)).physRequest who pa (min k bs.length) (.write (bs.take k)) else s
    if bs.length ≤ k then s1 else s1.writePages who may n (pa + k) (bs.drop k)

/-- The host cannot write the byte: it belongs to the fault records or to the fence state table (R8, R376, R438). -/
def readOnlyByte (a : Nat) : Bool :=
  (mgmtBase + 0x20000 ≤ a && a < mgmtBase + 0x28000) || (mgmtBase + 0x30000 ≤ a && a < mgmtBase + 0x36000)

/-- The bytes of a host write with the read-only fields of the management area as memory holds them: the doorbell's result, which is its
byte 3 but for bit 7, the fault records and the fence state table (R8, R334, R376, R438). -/
def State.keepResult (s : State) (pa : Nat) (data : List Byte) : List Byte :=
  data.mapIdx fun i b =>
    if pa + i = mgmtBase + 3 then (b &&& 0x80) ||| (s.byteAt (mgmtBase + 3) &&& 0x7F)
    else if readOnlyByte (pa + i) then s.byteAt (pa + i)
    else b

/-- MEMORY_WINDOW_WRITE: a posted write. -/
def memoryWindowWrite (off : Nat) (data : List Byte) (s : State) : State :=
  if !s.booted || 2 ^ 32 < off + data.length then s
  else
    let pa := s.windowAddr off
    s.writePages .host (fun t pa => t.mayReach hostMaster .w pa) (data.length + 1) pa (s.keepResult pa data)

def execMemoryWindowWrite (off : Nat) (data : List Byte) (s : State) : Out := .next (memoryWindowWrite off data s)

end Sys2Proof.Machine
end

