-- ==== Sys2Proof/Machine/ArrayPort.lean ====
section
/-! DEFINITION. Stream ports: their accesses, the return of read data, and scatter-add batches (spec/11_decoft_array.md R272-R278;
spec/03_numbers.md R77; spec/22_array_faults.md R403, R407). -/

namespace Sys2Proof.Machine

/-! ## A port -/

/-- A running port: its instance, unit, access pattern and progress. -/
structure Port where
  n : Nat
  u : Nat
  i : Inst
  a : Apr
  st : PortSt
  deriving Repr

/-- A read port has no data input (R403). -/
def Port.source (x : Port) : Bool := x.a.mode == 1 || (x.a.mode == 0 && !x.a.wr)

/-- Width code of the port's data. -/
def Port.width (x : Port) : Nat := 2 - x.a.es

/-- Apply an event to a port that has not faulted, after the round markers at its inputs. A damaged token at an input starts a replay
instead (R401). -/
def Inst.onPort (i0 : Inst) (s : State) (n port : Nat) (f : Port → State → State) : State :=
  let u := 512 + port
  if !i0.live u then s
  else match i0.inputError u with
    | some c => s.withReplay n i0 (i0.replayAll u c)
    | none =>
      let i := i0.absorb u
      let s1 := s.modInst n fun _ => i
      match (i.ctxAt (i.running u)).bind fun c => c.apr u, tget i.ports u with
      | some a, some st => if !i.closed u then f ⟨n, u, i, a, st⟩ s1 else s1
      | _, _ => s1

/-- Apply an event to a port of an instance whose units fire. -/
def State.onPort (s : State) (n port : Nat) (f : Port → State → State) : State := s.onInst n fun i => i.onPort s n port f

/-- The state with the port's progress changed. -/
def Port.put (x : Port) (s : State) (st : PortSt) : State := s.modInst x.n fun i => i.modPort x.u fun _ => st

/-- The port faults (R407). -/
def Port.fail (x : Port) (s : State) (cause : BitVec 8) : State := s.modInst x.n fun i => i.faultUnit x.u cause

/-- A marker has passed through the port; a selected context follows the final one. -/
def Port.passed (x : Port) (s : State) (marks : List (BitVec 4)) : State :=
  let s1 := marks.foldl (fun t m => t.passed x.n x.u ((tget t.insts x.n).getD x.i) (some m)) s
  s1.modInst x.n fun i => i.trySwap x.u

/-- The hand-over events of a marker must wait for requests to the bank (R281). -/
def Port.heldUp (x : Port) (lev : BitVec 4) : Bool := (x.i.handOvers x.u lev).any fun e => x.i.bankBusy e.bank

/-- Translate an address for a port: the place, or the cause of R400. A port reaches only the stack tier (R272). -/
def State.portPlace (s : State) (i : Inst) (need : Need) (va : DWord) : State × Except (BitVec 8) Place :=
  match s.translate i.slot (2112 + i.stack) (i.stack / 4) need va with
  | (s1, .error c) => (s1, .error (if c = 0x05 then 0x07 else if c = 0x0B then 0x08 else 0x06))
  | (s1, .ok p) => if p.tier != 0 then (s1, .error 0x07) else (s1, .ok p)

/-- The bytes of an element-wise read through the MSC of the stack, or cause 0x08 (R272, R407). -/
def State.portRead (s : State) (p : Place) (n : Nat) : State × Except (BitVec 8) (List Byte) :=
  let s1 := s.mscAccess p
  if s1.unreadable p.loc n then (s1.meet p.loc n, .error 0x08) else (s1, .ok (s1.bytesAt p.loc n))

/-! ## Affine patterns (R273) -/

/-- The counts of the levels. -/
def Apr.counts (a : Apr) : List Nat := a.lvls.map (·.1)

/-- The address of a flat iteration. -/
def Port.addrAt (x : Port) (k : Nat) : DWord :=
  let off := ((x.a.lvls.zip (levelIdx x.a.counts k)).map fun p => p.1.2 * (p.2 : Int)).foldl (· + ·) 0
  x.a.baseAt x.i.param + BitVec.ofInt 64 off

/-- How many elements from iteration `k` on lie side by side in one aligned 8-byte unit of one row. -/
def Port.runAt (x : Port) (k : Nat) : Nat :=
  match x.a.lvls with
  | (n, d) :: _ => if d = x.a.size then min ((8 - (x.addrAt k).toNat % 8) / x.a.size) (n - k % n) else 1
  | [] => 1

/-- The marker that follows iteration `k`, where it completes level 0. -/
def Port.marksAt (x : Port) (k : Nat) : List PItem := if levelsDone x.a.counts k = 0 then [] else [.mark (markerAt x.a.counts k)]

/-- Add items to what the port has in hand. -/
def PortSt.add (st : PortSt) (xs : List PItem) : PortSt := { st with items := st.items ++ xs }

/-- An element fails: nothing follows it. -/
def PortSt.stopAt (st : PortSt) (cause : BitVec 8) : PortSt := { st.add [.bad cause] with ended := true }

/-- An affine read port issues the next run of elements. -/
def Port.affineRead (x : Port) (s : State) : State :=
  let k := x.st.iter
  let va := x.addrAt k
  if x.st.ended || iterations x.a.counts ≤ k || x.i.generatorHeld x.u then s
  else if va.toNat % x.a.size != 0 then x.put s (x.st.stopAt 0x09)
  else match s.portPlace x.i .r va with
    | (s1, .error c) => x.put s1 (x.st.stopAt c)
    | (s1, .ok p) =>
      let m := max 1 (x.runAt k)
      x.put (s1.mscAccess p) { x.st.add (.read p.loc m x.a.size none :: x.marksAt (k + m)) with iter := k + m }

/-- The elements of a token become the port's to write; a marker must match its iteration (R273, R407). -/
def Port.takeWrite (x : Port) (s : State) (t : Token) : State :=
  let k := x.st.iter
  let took (st : PortSt) : State := x.put (s.modInst x.n fun i => i.consume x.u 0) st
  if t.kind = 0 then took { x.st with buf := t.valid x.width }
  else if k = 0 || k = x.st.marked || levelsDone x.a.counts k = 0 || t.lev != markerAt x.a.counts k then x.fail s 0x09
  else if x.heldUp t.lev then s
  else x.passed (took { x.st with marked := k }) [t.lev]

/-- An affine write port writes the next run of elements. Data where the iteration calls for an end marker, or beyond the last one, is a
mismatch as a marker out of place is: it faults before it is written (DEDUCED, log 67). -/
def Port.writeRun (x : Port) (s : State) : State :=
  let k := x.st.iter
  let va := x.addrAt k
  if iterations x.a.counts ≤ k || (k != 0 && k != x.st.marked && levelsDone x.a.counts k != 0) || va.toNat % x.a.size != 0 then x.fail s 0x09
  else match s.portPlace x.i .w va with
    | (s1, .error c) => x.fail s1 c
    | (s1, .ok p) =>
      if p.mig then s1
      else
        let m := min x.st.buf.length (max 1 (x.runAt k))
        let s2 := (s1.mscAccess p).store p.loc ((x.st.buf.take m).flatMap (leBytes x.a.size))
        let left := x.st.buf.drop m
        let s3 := x.put s2 { x.st with buf := left, iter := k + m }
        if left.isEmpty then s3.modInst x.n fun i => { i with tokens := i.tokens + 1 } else s3

/-- An affine write port takes its next token, or writes. -/
def Port.affineWrite (x : Port) (s : State) : State :=
  if !x.st.buf.isEmpty then x.writeRun s
  else match x.i.head x.u 0 with
    | some t => if t.kind = 2 then s else x.takeWrite s t
    | none => s

/-- The reads of `n` bytes from an address on, one for each aligned 8-byte unit, up to one that fails (R115). -/
def Port.unitReads (x : Port) : Nat → Nat → DWord → State → State × List PItem
  | 0, _, _, s => (s, [])
  | f + 1, n, va, s =>
    if n = 0 then (s, [])
    else match s.portPlace x.i .r va with
      | (s1, .error c) => (s1, [.bad c])
      | (s1, .ok p) =>
        let m := min n (8 - va.toNat % 8)
        let r := x.unitReads f (n - m) (va + BitVec.ofNat 64 m) (s1.mscAccess p)
        (r.1, .read p.loc 1 m none :: r.2)

/-! ## Chases (R274) -/

/-- A chase port issues the reads of its next record, with its link where that runs past it (log 64). -/
def Port.chase (x : Port) (s : State) : State :=
  if x.st.ended || x.st.chasing || x.i.generatorHeld x.u then s
  else if x.st.addr.toNat % 4 != 0 then x.put s { x.st.stopAt 0x09 with chasing := true }
  else
    let n := max x.a.recSize (x.a.link + 8)
    let r := x.unitReads n n x.st.addr s
    x.put r.1 { x.st.add r.2 with chasing := true }

/-! ## Gathers (R275, R276, R277) -/

/-- The address of an element of a gather. -/
def Port.gatherAt (x : Port) (v : Nat) : DWord :=
  let ix : Int := if x.a.sgn then signedOf 32 v else v
  x.a.baseAt x.i.param + BitVec.ofInt 64 (ix * x.a.stride.toInt)

/-- The access of one index of a gather. -/
def Port.gatherOne (x : Port) (s : State) (v : Nat) : State × List PItem :=
  let va := x.gatherAt v
  if va.toNat % x.a.size != 0 then (s, [.bad 0x09])
  else match s.portPlace x.i .r va with
    | (s1, .error c) => (s1, [.bad c])
    | (s1, .ok p) => (s1.mscAccess p, [.read p.loc 1 x.a.size none])

/-- An 8-byte entry of a table, or a cause. -/
def Port.entry (x : Port) (s : State) (va : DWord) : State × Except (BitVec 8) DWord :=
  if va.toNat % 8 != 0 then (s, .error 0x09)
  else match s.portPlace x.i .r va with
    | (s1, .error c) => (s1, .error c)
    | (s1, .ok p) => match s1.portRead p 8 with
      | (s2, .error c) => (s2, .error c)
      | (s2, .ok bs) => (s2, .ok (BitVec.ofNat 64 (leNat bs)))

/-- The base that a row's offset counts from: a replica in the port's own stack, or the table (R277; log 18). -/
def Port.rowBase (x : Port) (s : State) (rset : Nat) : State × Except (BitVec 8) DWord :=
  let rep := x.a.levels.headD 0
  let table := x.a.baseAt x.i.param
  if x.a.mode != 3 || rset = 0 || rep = 0 then (s, .ok table)
  else match x.entry s (rep + BitVec.ofNat 64 (((rset - 1) * 32 + x.i.stack) * 8)) with
    | (s1, .ok e) => (s1, .ok (if e = 0 then table else e))
    | r => r

/-- A row of a directory: its address and width class (R276). An offset that is no multiple of 4 is a stream fault, whatever the width
class (DEDUCED, log 65). -/
def Port.rowOf (x : Port) (s : State) (v : Nat) : State × Except (BitVec 8) (DWord × Nat) :=
  if x.a.limit.toNat ≤ v then (s, .error 0x09)
  else match x.entry s (x.a.dir + BitVec.ofNat 64 (8 * v)) with
    | (s1, .error c) => (s1, .error c)
    | (s1, .ok e) => match x.rowBase s1 (fld e 7 2) with
      | (s2, .error c) => (s2, .error c)
      | (s2, .ok b) =>
        let va := b + BitVec.ofNat 64 (fld e 63 8)
        let wc := fld e 1 0
        if fld e 63 8 % 4 != 0 || (wc = 0 && x.a.rowLen % 4 != 0) || va.toNat % (if wc = 3 then 4 else if wc = 2 then 2 else 1) != 0 then
          (s2, .error 0x09)
        else (s2, .ok (va, wc))

/-- Bytes of a row. -/
def rowBytesOf (wc len : Nat) : Nat :=
  match wc with
  | 0 => len / 4 * 3
  | 1 => len
  | 2 => 2 * len
  | _ => 4 * len

/-- The accesses of one index of a row-gather: the row, the reads of its units, and its end. -/
def Port.rowOne (x : Port) (s : State) (v : Nat) : State × List PItem :=
  match x.rowOf s v with
  | (s1, .error c) => (s1, [.bad c])
  | (s1, .ok (va, wc)) =>
    let n := rowBytesOf wc x.a.rowLen
    let r := x.unitReads n n va s1
    (r.1, .row wc x.a.rowLen r.2.length :: r.2 ++ [.rowEnd])

/-- The item is an element that fails. -/
def PItem.fails : PItem → Bool
  | .bad _ => true
  | _ => false

/-- The accesses of the indices of a token, up to one that fails; with a mark that one did. -/
def indexed (one : State → Nat → State × List PItem) : List Nat → State → State × List PItem × Bool
  | [], s => (s, [], false)
  | v :: r, s =>
    let y := one s v
    if y.2.any PItem.fails then (y.1, y.2, true)
    else let t := indexed one r y.1; (t.1, y.2 ++ t.2.1, t.2.2)

/-- A gather or row-gather port takes a token of its index channel. A row-gather passes on only the final marker (R276). -/
def Port.gather (x : Port) (s : State) : State :=
  match x.i.head x.u 0 with
  | none => s
  | some t =>
    let s0 := s.modInst x.n fun i => i.consume x.u 0
    if x.st.ended || t.kind = 2 then s
    else if t.kind = 1 then
      if x.a.mode = 2 || t.final then x.put s0 (x.st.add [.mark t.lev]) else if x.heldUp t.lev then s else x.passed s0 [t.lev]
    else
      let r := indexed (if x.a.mode = 2 then x.gatherOne else x.rowOne) (t.valid 0) s0
      x.put r.1 { x.st.add r.2.1 with ended := r.2.2 }

/-! ## Scatter-adds (R278) -/

/-- A scatter-add port takes a data token of a channel into its batch. -/
def Port.scatterTake (x : Port) (pin : Nat) (s : State) : State :=
  match x.i.head x.u pin with
  | none => s
  | some t =>
    if t.kind != 0 then s
    else
      let vs := (t.valid 0).map (BitVec.ofNat 32)
      let s0 := s.modInst x.n fun i => i.consume x.u pin
      s0.modInst x.n fun i => i.modPort x.u fun st =>
        if pin = 0 then { st with batchIdx := st.batchIdx ++ vs } else { st with batchVal := st.batchVal ++ vs }

/-! ## STREAM_PORT_ACCESS -/

/-- STREAM_PORT_ACCESS: the port issues the next accesses of its pattern. -/
def streamPortAccess (n port : Nat) (s : State) : State :=
  s.onPort n port fun x t =>
    match x.a.mode with
    | 0 => if x.a.wr then x.affineWrite t else x.affineRead t
    | 1 => x.chase t
    | 2 | 3 => x.gather t
    | _ => x.scatterTake 1 (x.scatterTake 0 t)

def execStreamPortAccess (inst port : Nat) (s : State) : Out := .next (streamPortAccess inst port s)

/-! ## The return of read data (R273-R276, R407) -/

/-- Elements of `n` bytes. -/
def unpackN (n : Nat) : Nat → List Byte → List Nat
  | 0, _ => []
  | f + 1, bs => if bs.length < n || n = 0 then [] else leNat (bs.take n) :: unpackN n f (bs.drop n)

/-- Pending reads that may return: none passes an earlier one to its own 8-byte unit (R289). -/
def returnable : List PItem → List Nat → Nat → List Nat
  | [], _, _ => []
  | .read a _ _ none :: r, seen, k =>
    if seen.contains (a / 8) then returnable r seen (k + 1) else k :: returnable r (a / 8 :: seen) (k + 1)
  | _ :: r, seen, k => returnable r seen (k + 1)

/-- The elements of a read, up to the first that cannot be read. -/
def readEls (s : State) (a size : Nat) : Nat → List Byte × Bool
  | 0 => ([], true)
  | n + 1 =>
    if s.unreadable a size then ([], false)
    else let r := readEls s (a + size) size n; (s.bytesAt a size ++ r.1, r.2)

/-- The items that a returned read becomes. -/
def Port.returned (s : State) (a n size : Nat) : State × List PItem :=
  let r := readEls s a size n
  let got : PItem := .read a (r.1.length / size) size (some r.1)
  if r.2 then (s, [got]) else (s.meet a (n * size), (if r.1.isEmpty then [] else [got]) ++ [.bad 0x08])

/-- The type of a width class (R276). -/
def classTy (wc : Nat) : Ty :=
  match wc with
  | 0 => .t6
  | 1 => .t8
  | 2 => .bf16
  | _ => .fp32

/-- The elements of the bytes of a row, as patterns. -/
def rowPats (wc : Nat) (bs : List Byte) : List Nat :=
  match wc with
  | 0 => (unpackN 3 bs.length bs).flatMap fun g => (List.range 4).map fun k => nth g k 6
  | 1 => unpackN 1 bs.length bs
  | 2 => unpackN 2 bs.length bs
  | _ => unpackN 4 bs.length bs

/-- The elements of the bytes of a row in FP32 (R69, R276). A non-canonical NaN becomes the canonical one (log 65). -/
def rowEls (wc : Nat) (bs : List Byte) : List Nat :=
  (rowPats wc bs).map fun e => if wc = 3 && !(decodeF fp32 e).isNan then e else (convert (classTy wc) .fp32 false .rne e).1

/-- Perform one of the pending reads, a free choice among those that may return. -/
def Port.perform (x : Port) (s : State) : State × List PItem :=
  let ks := returnable x.st.items [] 0
  match ks[(Config.word s.choices).toNat % ks.length]? with
  | none => (s, x.st.items)
  | some k =>
    let s1 := { s with choices := s.choices + 1 }
    let r := match x.st.items[k]? with
      | some (.read a n size none) => Port.returned s1 a n size
      | some y => (s1, [y])
      | none => (s1, [])
    (r.1, x.st.items.take k ++ r.2 ++ x.st.items.drop (k + 1))

/-- Send a data token: a port without inputs originates it (R403). -/
def Port.emit (x : Port) (i : Inst) (t : Token) : Inst := if x.source then i.originate x.u 0 t else i.send x.u 0 t

/-- What is left to send of an item, as a bound on the sends that it takes. -/
def PItem.weight : PItem → Nat
  | .read _ n _ _ => n + 2
  | .row _ len _ => len + 4
  | _ => 3

/-- The bytes at the head of the items, of reads that have returned, and whether the first failing one follows them. -/
def returnedBytes : List PItem → List Byte × Bool
  | .read _ _ _ (some bs) :: r => let t := returnedBytes r; (bs ++ t.1, t.2)
  | .bad _ :: _ => ([], true)
  | _ => ([], false)

/-- The reads among some items have all returned. -/
def allReturned (xs : List PItem) : Bool :=
  xs.all fun y => match y with
    | .read _ _ _ d => d.isSome
    | _ => false

/-- Send what is completed, in stream order, one token at a time as long as the channel accepts: the instance, the items and elements
left, and the markers sent. A row goes out once all its units have returned, or those before one that fails (R268, R273-R276). -/
def Port.drain (x : Port) : Nat → Inst → List Nat → List PItem → Inst × List PItem × List Nat × List (BitVec 4)
  | 0, i, buf, items => (i, items, buf, [])
  | f + 1, i, buf, items =>
    let c := elCount x.width
    let room := i.accepts x.u [0]
    if c ≤ buf.length then
      if room then x.drain f (x.emit i (dataToken x.width (buf.take c))) (buf.drop c) items else (i, items, buf, [])
    else
      match items with
      | .read _ n size (some bs) :: r => x.drain f i (buf ++ unpackN size n bs) r
      | .row wc _ n :: r =>
        let got := returnedBytes (r.take n)
        if allReturned (r.take n) then x.drain f i (buf ++ rowEls wc got.1) (r.drop n)
        else if got.2 then x.drain f i (buf ++ rowEls wc got.1) (r.dropWhile fun y => !y.fails)
        else (i, items, buf, [])
      | .rowEnd :: r =>
        if !room then (i, items, buf, [])
        else if buf.isEmpty then x.drain f (i.send x.u 0 (endToken 1)) [] r
        else x.drain f (x.emit i (dataToken x.width buf)) [] items
      | .mark lev :: r =>
        if !room || x.heldUp lev then (i, items, buf, [])
        else if buf.isEmpty then
          let t := x.drain f (i.send x.u 0 (endToken lev)) [] r
          (t.1, t.2.1, t.2.2.1, lev :: t.2.2.2)
        else x.drain f (x.emit i (dataToken x.width buf)) [] items
      | .bad c :: _ => (i.faultUnit x.u c, [], [], [])
      | xs => (i, xs, buf, [])

/-- The bytes of a record that has returned whole. -/
def recordOf : List PItem → Option (List Byte)
  | [] => some []
  | .read _ _ _ (some bs) :: r => (recordOf r).map fun t => bs ++ t
  | _ => none

/-- The cause of a record that fails with nothing pending before it. -/
def recordFails : List PItem → Option (BitVec 8)
  | .bad c :: _ => some c
  | .read _ _ _ (some _) :: r => recordFails r
  | _ => none

/-- A record of a chase has returned: it is sent, and its link followed (R274). -/
def Port.chaseDrain (x : Port) (s : State) (items : List PItem) : State :=
  match recordFails items, recordOf items with
  | some c, _ => x.fail s c
  | none, none => x.put s { x.st with items := items }
  | none, some bs =>
    if !x.st.chasing then s
    else
      let link := recField bs x.a.link 8
      let k := x.st.iter + 1
      let closes := link = 0 || k = x.a.limit.toNat
      if !x.i.accepts x.u [0] || (closes && x.heldUp 9) then x.put s { x.st with items := items }
      else
        let st : PortSt := { x.st with
          items := []
          iter := k
          chasing := false
          ended := closes
          addr := BitVec.ofNat 64 link + x.a.stride.signExtend 64 }
        let s1 := x.put (s.modInst x.n fun i => x.emit i (dataToken 0 (unpackN 4 8 (bs.take x.a.recSize)))) st
        if closes then x.passed (s1.modInst x.n fun i => i.send x.u 0 (endToken 9)) [9] else s1

/-- STREAM_DATA_RETURN: a pending read is performed, and the port sends what it completes. The requests in flight at a switch's start
are completed (R411). -/
def streamDataReturn (n port : Nat) (s : State) : State :=
  s.onPlaced n fun i0 => i0.onPort s n port fun x t =>
    let r := x.perform t
    if x.a.mode = 1 then x.chaseDrain r.1 r.2
    else if x.a.mode = 4 || x.a.wr then t
    else
      let i := (tget r.1.insts n).getD x.i
      let d := x.drain (r.2.foldl (fun m y => m + y.weight) (x.st.buf.length + 1)) i x.st.buf r.2
      let s1 := r.1.modInst n fun _ => d.1.modPort x.u fun _ => { x.st with items := d.2.1, buf := d.2.2.1 }
      x.passed s1 d.2.2.2

def execStreamDataReturn (inst port : Nat) (s : State) : Out := .next (streamDataReturn inst port s)

/-! ## Scatter-add batches (R77, R278) -/

/-- A target: its element's address, bytes, bit offset and type. -/
structure Target where
  va : DWord
  bytes : Nat
  shift : Nat
  ty : Ty
  deriving DecidableEq, Repr

/-- Element `e` of a row. -/
def rowTarget (va : DWord) (wc e : Nat) : Target :=
  match wc with
  | 0 => ⟨va + BitVec.ofNat 64 (e / 4 * 3), 3, e % 4 * 6, .t6⟩
  | 1 => ⟨va + BitVec.ofNat 64 e, 1, 0, .t8⟩
  | 2 => ⟨va + BitVec.ofNat 64 (2 * e), 2, 0, .bf16⟩
  | _ => ⟨va + BitVec.ofNat 64 (4 * e), 4, 0, .fp32⟩

/-- The targets of the pairs of a plain APR. -/
def Port.plainTargets (x : Port) (ixs : List Word) : List Target :=
  ixs.map fun v => ⟨x.a.baseAt x.i.param + BitVec.ofInt 64 ((v.toNat : Int) * x.a.stride.toInt), 4, 0, .fp32⟩

/-- The values of each distinct target, in ascending batch position. -/
def byTarget : List (Target × Word) → List (Target × List Word) → List (Target × List Word)
  | [], acc => acc
  | (t, v) :: r, acc =>
    byTarget r (if acc.any fun a => a.1 == t then acc.map fun a => if a.1 == t then (a.1, a.2 ++ [v]) else a else acc ++ [(t, [v])])

/-- Occurrences combined in eight partials and a tree (R77). -/
def combine (vs : List Word) : Word :=
  let part (q : Nat) : Option Word :=
    ((List.range vs.length).filter fun k => k % 8 == q).foldl (fun p k => accum .fadd p ((vs[k]?).getD 0)) none
  (foldTree .fadd 3 ((List.range 8).map part)).1

/-- One element after a combined delta is added to it once, in FP32, and converted back to its width class (R77). -/
def addDelta (ty : Ty) (e : Nat) (delta : Word) : Nat :=
  let f := if ty = .fp32 then e else (convert ty .fp32 false .rne e).1
  let y := (fadd32 .rne (BitVec.ofNat 32 f) delta).1.toNat
  if ty = .fp32 then y else (convert .fp32 ty false .rne y).1

/-- One element after its update. S32 values for a directory row have no stated meaning: the result is a free value (log 18). -/
def Port.updated (x : Port) (s : State) (t : Target) (vs : List Word) (old : Nat) : Nat :=
  let w := tyWidth t.ty
  let e := nth (old / 2 ^ t.shift) 0 w
  let new :=
    if x.a.s32 then
      if x.a.dirForm then (Config.word s.choices).toNat % 2 ^ w else (vs.foldl (· + ·) (BitVec.ofNat 32 e)).toNat
    else addDelta t.ty e (combine vs)
  old - e * 2 ^ t.shift + new * 2 ^ t.shift

/-- A target is translated with both rights, and checked: it lies in the stack tier, is aligned and can be read (R407). -/
def Port.targetPlace (x : Port) (s : State) (t : Target) : State × Except (BitVec 8) Place :=
  if t.bytes != 3 && t.va.toNat % t.bytes != 0 then (s, .error 0x09)
  else
    match s.portPlace x.i .rw t.va with
    | (s1, .error c) => (s1, .error c)
    | (s1, .ok p) =>
      match s1.portPlace x.i .rw (t.va + BitVec.ofNat 64 (t.bytes - 1)) with
      | (s2, .error c) => (s2, .error c)
      | (s2, .ok _) => if s2.unreadable p.loc t.bytes then (s2.meet p.loc t.bytes, .error 0x08) else (s2, .ok p)

/-- Bytes of workspace (R278). -/
def Apr.workspace (a : Apr) : Nat := a.wsCount * 131072

/-- The distinct targets of some pairs with their places, added to those found so far, or the cause of the first pair that fails: its
element, or the workspace that it takes. -/
def Port.checkTargets (x : Port) : List Target → List (Target × Place) → State → State × Except (BitVec 8) (List (Target × Place))
  | [], acc, s => (s, .ok acc)
  | t :: r, acc, s =>
    if acc.any fun a => a.1 == t then x.checkTargets r acc s
    else if x.a.workspace < 32 * (acc.length + 1) then (s, .error 0x0B)
    else match x.targetPlace s t with
      | (s1, .error c) => (s1, .error c)
      | (s1, .ok p) => x.checkTargets r (acc ++ [(t, p)]) s1

/-- The targets of the rows of a directory APR in order, with the distinct ones and their places, or the cause of the first element that
fails (R276, R407). -/
def Port.checkRows (x : Port) : List Word → List Target → List (Target × Place) → State →
    State × Except (BitVec 8) (List Target × List (Target × Place))
  | [], ts, acc, s => (s, .ok (ts, acc))
  | v :: r, ts, acc, s =>
    match x.rowOf s v.toNat with
    | (s1, .error c) => (s1, .error c)
    | (s1, .ok (va, wc)) =>
      let row := (List.range x.a.rowLen).map (rowTarget va wc)
      match x.checkTargets row acc s1 with
      | (s2, .error c) => (s2, .error c)
      | (s2, .ok acc1) => x.checkRows r (ts ++ row) acc1 s2

/-- Apply every combined update once. -/
def Port.apply (x : Port) (s : State) (ts : List ((Target × List Word) × Place)) : State :=
  ts.foldl (fun (t : State) (y : (Target × List Word) × Place) =>
    let t1 := t.mscAccess y.2
    let v := x.updated t1 y.1.1 y.1.2 (t1.load y.2.loc y.1.1.bytes)
    let t2 := t1.store y.2.loc (leBytes y.1.1.bytes v)
    { t2 with choices := t2.choices + 1 }) s

/-- The values of a batch go with its indices: a value for each, or a row of values for each (R278). -/
def Port.counted (x : Port) : Bool := x.st.batchVal.length == x.st.batchIdx.length * (if x.a.dirForm then x.a.rowLen else 1)

/-- The targets of a batch in iteration order, with the distinct ones and their places, or the cause of the first that fails. -/
def Port.targets (x : Port) (s : State) : State × Except (BitVec 8) (List Target × List (Target × Place)) :=
  if x.a.dirForm then x.checkRows x.st.batchIdx [] [] s
  else
    let ts := x.plainTargets x.st.batchIdx
    match x.checkTargets ts [] s with
    | (s1, .error c) => (s1, .error c)
    | (s1, .ok acc) => (s1, .ok (ts, acc))

/-- The workspace banks of the port. -/
def Apr.workspaceBanks (a : Apr) : List Nat := (List.range a.wsCount).map (a.wsBank + ·)

/-- A batch is applied, or faults with nothing of it applied. A workspace bank on its way to the instance holds it up (R278, R281).
What combining leaves in the workspace banks is not stated: they keep their words (DESIGN CHOICE, log 68). -/
def Port.batch (x : Port) (s : State) (lev : BitVec 4) : State :=
  let closed (t : State) : State :=
    x.passed ((t.modInst x.n fun i => i.consumeAll x.u [0, 1]).modInst x.n fun i => i.modPort x.u fun st =>
      { st with batchIdx := [], batchVal := [] }) [lev]
  if x.a.workspaceBanks.any x.i.awaits then s
  else if !x.counted then x.fail s 0x0B
  else if !x.a.workspaceBanks.all x.i.holdsBank then x.fail s 0x0A
  else
    match x.targets s with
    | (s1, .error c) => x.fail s1 c
    | (s1, .ok (ts, places)) =>
      if places.any fun p => p.2.mig then s1
      else closed (x.apply s1 ((byTarget (ts.zip x.st.batchVal) []).zip (places.map (·.2))))

/-- SCATTER_ADD_BATCH: both channels have delivered the end marker of the batch. -/
def scatterAddBatch (n port : Nat) (s : State) : State :=
  s.onPort n port fun x t =>
    if x.a.mode != 4 then t
    else match x.i.head x.u 0, x.i.head x.u 1 with
      | some a, some b =>
        if a.kind != 1 || b.kind != 1 then t
        else if a.lev != b.lev then x.fail t 0x0B
        else if x.heldUp a.lev then t
        else if a.lev.getLsbD 0 then x.batch t a.lev
        else x.passed (t.modInst x.n fun i => i.consumeAll x.u [0, 1]) [a.lev]
      | _, _ => t

def execScatterAddBatch (inst port : Nat) (s : State) : Out := .next (scatterAddBatch inst port s)

/-! ## The deltas of other modules (R77; log 59) -/

/-- A delta behind those of no higher source-module number. -/
def insertDelta (d : Delta) : List Delta → List Delta
  | [] => [d]
  | e :: r => if d.source < e.source then d :: e :: r else e :: insertDelta d r

/-- The element of a delta, at its physical address. -/
def deltaTarget (d : Delta) : Target := rowTarget (BitVec.ofNat 64 d.row) d.wc d.el

/-- The peer may change the element of its delta: it lies whole in one page of the stack tier outside the management area, and the
access table admits the module (R77, R339). -/
def State.takesDelta (s : State) (d : Delta) : Bool :=
  let t := deltaTarget d
  let a := t.va.toNat
  s.booted && d.wc < 4 && a + t.bytes ≤ mgmtBase && isStack a && (t.bytes == 3 || a % t.bytes == 0)
    && (pagesOf a t.bytes).all (s.mayReach (0x4000 + d.source.val) .rw)

/-- A delta of another module arrives, to be applied at the step's barrier. -/
def deltaArrives (d : Delta) (s : State) : State := if s.takesDelta d then { s with deltas := insertDelta d s.deltas } else s

/-- Apply one delta to its element by one addition and conversion. An element that cannot be read stays as it is. -/
def State.applyDelta (s : State) (d : Delta) : State :=
  let t := deltaTarget d
  let a := t.va.toNat
  let s1 := s.mscRequests a t.bytes
  if s1.unreadable a t.bytes then s1.meet a t.bytes
  else
    let old := s1.load a t.bytes
    let e := nth (old / 2 ^ t.shift) 0 (tyWidth t.ty)
    s1.store a (leBytes t.bytes (old - e * 2 ^ t.shift + addDelta t.ty e d.value * 2 ^ t.shift))

/-- The barrier of a step: the home module applies the deltas of other modules in ascending source-module number (R77). A page under
migration holds them up (R104). -/
def applyDeltas (s : State) : State :=
  if s.deltas.any fun d => let t := deltaTarget d; (s.migrationAt t.va.toNat).isSome || (s.migrationAt (t.va.toNat + t.bytes - 1)).isSome then s
  else { s.deltas.foldl State.applyDelta s with deltas := [] }

end Sys2Proof.Machine
end

