-- ==== Sys2Proof/Machine/CopyEngine.lean ====
section
/-! DEFINITION. `copy` and the copy engine (spec/08_memory_instr.md R197-R200; spec/05_ordering.md R117, R118;
spec/21_memory_faults.md R392). -/

namespace Sys2Proof.Machine

/-! ## The descriptor (R197) -/

/-- A copy as its descriptor gives it. -/
structure Desc where
  src : Nat
  dst : Nat
  len : Nat
  rows : Nat
  spitch : Int
  dpitch : Int
  deriving DecidableEq, Repr

/-- A descriptor address: outside .g its upper half is ignored. -/
def descAddr (sp : Space) (lo hi : Word) : Nat := if sp = .g then lo.toNat + 2 ^ 32 * hi.toNat else lo.toNat

/-- The descriptor in eight uniform registers. -/
def Ctx.desc (c : Ctx) (a : SOp) (dsp ssp : Space) : Desc :=
  let r (i : Nat) : Word := sgetAt c.sregs a i
  { src := descAddr ssp (r 0) (r 1), dst := descAddr dsp (r 2) (r 3), len := (r 4).toNat % 2 ^ 24, rows := (r 5).toNat % 2 ^ 16,
    spitch := (r 6).toInt, dpitch := (r 7).toInt }

/-- The values that must be multiples of 4, in the order of R198. -/
def Desc.aligned (d : Desc) : List Nat := [d.src, d.dst, d.len, (d.spitch % 2 ^ 32).toNat, (d.dpitch % 2 ^ 32).toNat]

/-- The copy moves some byte. -/
def Desc.moves (d : Desc) : Bool := d.len != 0 && d.rows != 0

/-- The bounding range of one side (R198). -/
def bounding (addr : Nat) (rows len : Nat) (pitch : Int) : Int × Int :=
  let span := ((rows : Int) - 1) * pitch
  ((addr : Int) + min 0 span, (addr : Int) + max 0 span + len)

/-! ## Checks at issue (R198) -/

/-- Every 512-byte row group of a raw range may be accessed (R85). -/
def State.rawRangeOk (s : State) (w : Warp) (p : Part) : Nat → Nat → Nat → Bool
  | 0, _, n => n == 0
  | f + 1, a, n =>
    let k := min n (512 - a % 512)
    n == 0 || ((s.rawLoc w p a k).isSome && s.rawRangeOk w p f (a + k) (n - k))

/-- The whole range lies in its space and may be accessed (R82, R85, R92, R93). -/
def Ctx.rangeOk (c : Ctx) (sp : Space) (lo hi : Int) : Bool :=
  if lo < 0 then false
  else
    let a := lo.toNat
    let n := (hi - lo).toNat
    match sp with
    | .g => hi ≤ 2 ^ 55
    | .s =>
      if 0x100000 ≤ a && a < 0x200000 then hi ≤ 0x200000 && c.s.rawRangeOk c.w c.p 2049 (a - 0x100000) n
      else (c.s.onchipOf c.w c.p .s a n).isSome
    | _ => hi ≤ 2 ^ 32 && (c.s.onchipOf c.w c.p sp a n).isSome

/-- Lock entries in use on the core; there are 32 (R118). -/
def State.locksUsed (s : State) (slot : Fin 8) (core : Nat) : Nat :=
  2 * (s.copies.filter fun x => !x.2.finished && x.2.slot == slot && x.2.core == core).length

/-- The key ranges of a range in the lock table. One of window 1 of .s may reach into the part's scratchpad and beyond it. -/
def Ctx.keyRanges (c : Ctx) (sp : Space) (lo hi : Int) : List (Nat × Nat) :=
  let a := lo.toNat
  let b := hi.toNat
  let sb := c.p.sbase.toNat + 0x100000
  let cuts := if sp = .s then [a, max a (min b sb), max a (min b (sb + c.p.scratch)), b] else [a, b]
  (cuts.zip (cuts.drop 1)).filterMap fun x =>
    if x.2 ≤ x.1 then none else let k := lockKey c.w c.p sp x.1; some (k, k + (x.2 - x.1))

/-- Two ranges overlap. -/
def meets (a b : Nat × Nat) : Bool := a.1 < b.2 && b.1 < a.2

/-- Two lists of ranges overlap. -/
def meetsAny (as bs : List (Nat × Nat)) : Bool := as.any fun a => bs.any (meets a)

/-- The promise (R198, R200). -/
def Ctx.promiseOf (c : Ctx) (d : Desc) : Nat :=
  let g := c.s.gtime.toNat
  if d.moves then max g (c.w.lastPromise.getD g) + 1024 + (d.len * d.rows + 63) / 64 else g

/-- Chunks of a copy (R199). -/
def chunksOf (len rows : Nat) : Nat := (len * rows + 4095) / 4096

/-- The copy starts. -/
def Ctx.startCopy (c : Ctx) (d : SOp) (dsp ssp : Space) (x : Desc) (sk dk : List (Nat × Nat)) : State :=
  let p := c.promiseOf x
  let k : Copy :=
    { slot := c.w.slot, wid := c.wid, core := c.core, seq := c.seqOf .copies, dsp := dsp, ssp := ssp,
      src := BitVec.ofNat 64 x.src, dst := BitVec.ofNat 64 x.dst, len := x.len, rows := x.rows, spitch := x.spitch,
      dpitch := x.dpitch, promise := BitVec.ofNat 32 p, srcKeys := sk, dstKeys := dk, moved := [], fetched := [], lost := [],
      next := min 4 (chunksOf x.len x.rows), running := List.range (min 4 (chunksOf x.len x.rows)), error := none,
      finished := !x.moves, delivered := false }
  let t := c.finish fun w =>
    { setS false d (BitVec.ofNat 32 p) w with
      issued := w.issued.set (ctrIdx .copies) (w.issued[ctrIdx .copies] + 1)
      lastPromise := if x.moves then some p else w.lastPromise }
  { t with copies := t.copies ++ [(t.nextId, k)], nextId := t.nextId + 1 }

/-- The checks on the ranges of a copy, then, where it moves bytes, readiness, and then the release (R117, R198). -/
def Ctx.copyRanges (c : Ctx) (d : SOp) (dsp ssp : Space) (x : Desc) : State :=
  let sr := bounding x.src x.rows x.len x.spitch
  let dr := bounding x.dst x.rows x.len x.dpitch
  let code (sp : Space) : BitVec 8 := if sp = .g then 0x04 else 0x05
  if !c.rangeOk ssp sr.1 sr.2 then c.raise (code ssp) (BitVec.ofNat 64 x.src)
  else if !c.rangeOk dsp dr.1 dr.2 then c.raise (code dsp) (BitVec.ofNat 64 x.dst)
  else
    let sk := c.keyRanges ssp sr.1 sr.2
    let dk := c.keyRanges dsp dr.1 dr.2
    if meetsAny sk dk then c.raise 0x06 (BitVec.ofNat 64 x.dst)
    else if !x.moves then c.release fun e => e.startCopy d dsp ssp x [] []
    else if 30 < c.s.locksUsed c.w.slot c.core then c.stall
    else c.release fun e => e.startCopy d dsp ssp x sk dk

def execCopy (d a : SOp) (dsp ssp : Space) (s : State) : Out :=
  issue (.copy d a dsp ssp) s fun c =>
    let x := c.desc a dsp ssp
    if c.full .copies then c.stall
    else match x.aligned.find? fun v => v % 4 != 0 with
      | some v => c.raise 0x03 (BitVec.ofNat 64 v)
      | none => c.copyRanges d dsp ssp x

/-! ## Chunks (R199, R392) -/

/-- One 4-byte word of a chunk: its place in the chunk, its source and its destination address. -/
structure CopyWord where
  ix : Nat
  src : Nat
  dst : Nat
  deriving DecidableEq, Repr

/-- A row address: 64 bits for .g, else 32 (R197). -/
def rowAddr (sp : Space) (base : DWord) (row : Nat) (pitch : Int) (col : Nat) : Nat :=
  ((base.toNat + row * pitch + col) % (if sp = .g then 2 ^ 64 else 2 ^ 32)).toNat

/-- The words of chunk `k`, in row-major order. -/
def Copy.words (c : Copy) (k : Nat) : List CopyWord :=
  (List.range ((min (c.len * c.rows) (4096 * k + 4096) - 4096 * k) / 4)).map fun i =>
    let off := 4096 * k + 4 * i
    ⟨i, rowAddr c.ssp c.src (off / c.len) c.spitch (off % c.len), rowAddr c.dsp c.dst (off / c.len) c.dpitch (off % c.len)⟩

/-- Put a word beside the one that fills the other half of its aligned 8-byte unit, or by itself; `f` gives a word's address. -/
def joinWord (f : CopyWord → Nat) (x : CopyWord) : List (List CopyWord) → List (List CopyWord)
  | [] => [[x]]
  | [y] :: r =>
    if f x / 8 = f y / 8 && f x != f y then (if f x < f y then [x, y] else [y, x]) :: r else [y] :: joinWord f x r
  | u :: r => u :: joinWord f x r

/-- Words in aligned 8-byte units of one side, each numbered by its place in the chunk `k` (R115, R199). -/
def unitsBy (f : CopyWord → Nat) (k : Nat) (xs : List CopyWord) : List (Nat × List CopyWord) :=
  (xs.foldl (fun us x => joinWord f x us) []).mapIdx fun i u => (1024 * k + i, u)

/-- The numbers of the requests for a unit: its read and its write. -/
def readReq (n : Nat) : Nat := 2 * n
def writeReq (n : Nat) : Nat := 2 * n + 1

/-- The bytes of a word of chunk `k`, once its source has been read. -/
def Copy.fetchedAt (c : Copy) (k : Nat) (x : CopyWord) : Option (List Byte) := tget c.fetched (1024 * k + x.ix)

/-- The units of chunk `k` that are still to be written: those of the destination that have not been (R199). -/
def Copy.toWrite (c : Copy) (k : Nat) : List (Nat × List CopyWord) := (unitsBy (·.dst) k (c.words k)).filter fun u => !c.moved.contains u.1

/-- The units of chunk `k` that are still to be read: those of the source with a word that is still to be written and has not been
read. -/
def Copy.toRead (c : Copy) (k : Nat) : List (Nat × List CopyWord) :=
  let left := (c.toWrite k).flatMap (·.2)
  (unitsBy (·.src) k (c.words k)).filter fun u => u.2.any fun x => left.contains x && (c.fetchedAt k x).isNone

/-- The unit's words have all been read. -/
def Copy.hasRead (c : Copy) (k : Nat) (u : List CopyWord) : Bool := u.all fun x => (c.fetchedAt k x).isSome

/-- Where `n` bytes of one side lie; the engine's own accesses meet no lock (R384). -/
def State.unitPlace (s : State) (w : Warp) (p : Part) (sp : Space) (need : Need) (a n : Nat) : State × Except (BitVec 8) Place :=
  match sp with
  | .g | .p => s.translate w.slot p.core (dieOfCore p.core) need (BitVec.ofNat 64 a)
  | _ => (s, match s.onchipOf w p sp a n with
    | some q => .ok q
    | none => .error 0x05)

/-- Read a unit at the coherence point. -/
def State.readUnit (s : State) (p : Place) (n : Nat) : Got × State :=
  if p.tier = 3 then s.readOnchip ⟨0, 0, 0, p, n, 0, 0⟩ else s.readMem p n

/-- Write a unit. -/
def State.writeUnit (s : State) (p : Place) (bs : List Byte) : Put × State :=
  if p.tier = 3 then s.writeOnchip ⟨0, 0, 0, p, bs.length, 0, 0⟩ bs else s.writeMem p bs

/-- The place as request `n` of a copy meets it: it may be one that gets no answer (R394, R396). -/
def Copy.asUnit (c : Copy) (n : Nat) (p : Place) : Place := { p with lost := p.lost || c.lost.contains (n, p.tier) }

/-- Of two failures the one whose word comes first in the chunk. -/
def firstFail (a b : Option (Nat × Trap)) : Option (Nat × Trap) :=
  match a, b with
  | some x, some y => if y.1 < x.1 then some y else some x
  | some x, none => some x
  | none, y => y

/-- The failure of some words, with the address that `f` gives of the first of them in the chunk (R392). -/
def wordsFail (code : BitVec 8) (f : CopyWord → Nat) (u : List CopyWord) : Option (Nat × Trap) :=
  u.foldl (fun a x => firstFail a (some (x.ix, { code := code, value := BitVec.ofNat 64 (f x) }))) none

/-- How far the moving of a chunk has come: the words that have been read, by number, the units written, and the first failure. -/
structure Moving where
  s : State
  got : Tab (List Byte)
  moved : List Nat
  err : Option (Nat × Trap)
  deriving DecidableEq, Repr

/-- What request `n` for a unit fails by. -/
def Moving.fail (r : Moving) (s : State) (e : Option (Nat × Trap)) : Moving := { r with s := s, err := firstFail r.err e }

/-- Read a unit of the source. Where data of it cannot be corrected, the words that hold it fail (R388, R392). -/
def Moving.read (w : Warp) (p : Part) (c : Copy) (k : Nat) (r : Moving) (u : Nat × List CopyWord) : Moving :=
  match u.2 with
  | [] => r
  | x :: _ =>
    let n := 4 * u.2.length
    match r.s.unitPlace w p c.ssp .r x.src n with
    | (s1, .error code) => r.fail s1 (wordsFail code (·.src) u.2)
    | (s1, .ok q) =>
      let at_ := c.asUnit (readReq u.1) q
      match s1.readUnit at_ n with
      | (.dead, s2) =>
        let lost := u.2.filter fun y => s1.unreadable (q.loc + (y.src - x.src)) 4
        r.fail s2 (wordsFail 0x0B (·.src) (if lost.isEmpty then u.2 else lost))
      | (.link, s2) => r.fail s2 (wordsFail 0x0C (·.src) u.2)
      | (.fenced _, s2) => r.fail s2 (wordsFail 0x0F (·.src) u.2)
      | (.bytes bs, s2) => { r with s := s2, got := r.got ++ u.2.map fun y => (1024 * k + y.ix, (bs.drop (y.src - x.src)).take 4) }

/-- Write a unit of the destination whose words have been read. Where `skip` holds and a unit has failed, it keeps its earlier value
(R392). -/
def Moving.write (w : Warp) (p : Part) (c : Copy) (k : Nat) (skip : Bool) (r : Moving) (u : Nat × List CopyWord) : Moving :=
  match u.2 with
  | [] => r
  | x :: _ =>
    let have_ := u.2.all fun y => (tget r.got (1024 * k + y.ix)).isSome
    let bs := u.2.flatMap fun y => (tget r.got (1024 * k + y.ix)).getD []
    if !have_ then r
    else match r.s.unitPlace w p c.dsp .w x.dst (4 * u.2.length) with
      | (s1, .error code) => r.fail s1 (wordsFail code (·.dst) u.2)
      | (s1, .ok q) =>
        if skip && r.err.isSome then { r with s := s1 }
        else match s1.writeUnit (c.asUnit (writeReq u.1) q) bs with
          | (.done, s2) => { r with s := s2, moved := r.moved ++ [u.1] }
          | (.dead, s2) => r.fail s2 (wordsFail 0x0B (·.dst) u.2)
          | (.link, s2) => r.fail s2 (wordsFail 0x0C (·.dst) u.2)
          | (.fenced _, s2) => r.fail s2 (wordsFail 0x0F (·.dst) u.2)

/-- Where the moving of a copy's chunks stands. -/
def State.moving (s : State) (c : Copy) : Moving := ⟨s, c.fetched, c.moved, none⟩

/-- Move what is left of a chunk: every unit is read, and then they are written in an order of which free choices decide. Those of the
second half of it are left as they were once a unit has failed, so any of a failing chunk's units may keep its earlier value (R392). -/
def State.moveChunk (s : State) (w : Warp) (p : Part) (c : Copy) (k : Nat) : State × Option Trap :=
  let r := (c.toRead k).foldl (Moving.read w p c k) (({ s with choices := s.choices + 1 } : State).moving c)
  let first (u : Nat × List CopyWord) : Bool := Config.bitAt s.choices u.1
  let r1 := ((c.toWrite k).filter first).foldl (Moving.write w p c k false) r
  let r2 := ((c.toWrite k).filter fun u => !first u).foldl (Moving.write w p c k true) r1
  (r2.s, r2.err.map (·.2))

/-- The copy after chunk `k` has ended with an error or without: the lowest failing chunk names the error, and after a failure no
chunk starts. -/
def chunkEnded (k : Nat) (e : Option Trap) (c : Copy) : Copy :=
  let err := match e with
    | none => c.error
    | some t => match c.error with
      | none => some (k, t)
      | some x => if k < x.1 then some (k, t) else some x
  let rest := c.running.filter (· != k)
  let more := err.isNone && c.next < chunksOf c.len c.rows
  let run := if more then rest ++ [c.next] else rest
  { c with error := err, running := run, next := if more then c.next + 1 else c.next, finished := run.isEmpty,
           moved := c.moved.filter fun n => n / 1024 != k, fetched := c.fetched.filter fun x => x.1 / 1024 != k,
           lost := c.lost.filter fun x => x.1 / 2048 != k }

/-- A finished copy leaves its error in its warp, once (R392). -/
def State.copyFinished (s : State) (id : Nat) : State :=
  match tget s.copies id with
  | none => s
  | some c =>
    if !c.finished then s
    else
      let s1 := s.modCopy id fun x => { x with delivered := true }
      let s2 := match (if c.delivered then none else c.error) with
        | some (_, t) => s1.addErr c.wid { trap := t, op := some (.copies, c.seq), regs := [], tile := none,
                                           copy := some c.promise.toNat }
        | none => s1
      match tget s2.warps c.wid with
      | some w => s2.blockCheck w.block
      | none => s2

/-- An earlier copy of the core has to go first, because a destination overlaps (R117). -/
def State.copyWaits (s : State) (id : Nat) (c : Copy) : Bool :=
  s.copies.any fun x =>
    let e := x.2
    x.1 < id && !e.finished && e.slot == c.slot && e.core == c.core
      && (meetsAny e.dstKeys c.srcKeys || meetsAny e.dstKeys c.dstKeys || meetsAny e.srcKeys c.dstKeys)

/-- The destination page of a word is migrating (R104). -/
def State.wordStalls (s : State) (c : Copy) (x : CopyWord) : Bool :=
  c.dsp == .g && (s.ctxPlace c.slot x.dst).elim false fun p => p.mig && p.tier ≤ 1

/-- The copy may move words of its running chunk `k`, also while it pauses: the warp and the part that it runs for. -/
def State.copyAt (s : State) (id k : Nat) : Option (Copy × Warp × Part) :=
  (tget s.copies id).bind fun c => (tget s.warps c.wid).bind fun w => (tget s.parts w.part).bind fun p =>
    if s.running == some c.slot && (tget s.blocks w.block).elim false (·.resident) && c.running.contains k && !s.copyWaits id c then
      some (c, w, p)
    else none

/-- The same while no gang switch is under way: from its target time on each copy pauses (R329). -/
def State.copyRuns (s : State) (id k : Nat) : Option (Copy × Warp × Part) := if s.switching then none else s.copyAt id k

/-- A word of the chunk waits for a migration (R104). -/
def State.chunkStalls (s : State) (c : Copy) (k : Nat) : Bool := (c.words k).any (s.wordStalls c)

/-- A chunk ends, if its copy moves at all. -/
def State.endCopyChunk (s : State) (id k : Nat) (x : Option (Copy × Warp × Part)) : State :=
  match x with
  | none => s
  | some (c, w, p) =>
    if s.chunkStalls c k then s
    else
      let r := s.moveChunk w p c k
      (r.1.modCopy id (chunkEnded k r.2)).copyFinished id

/-- COPY_CHUNK_DONE. -/
def copyChunkDone (id k : Nat) (s : State) : State := s.endCopyChunk id k (s.copyRuns id k)

def execCopyChunkDone (copy chunk : Nat) (s : State) : Out := .next (copyChunkDone copy chunk s)

/-- One unit of a running chunk is read, or written once its words have been read, ahead of the chunk's end, where nothing of it fails
(R105, R115). `n` is the number of the request. -/
def moveEarly (id n : Nat) (s : State) : State :=
  let k := n / 2048
  match s.copyRuns id k with
  | none => s
  | some (c, w, p) =>
    let units := if n % 2 = 0 then c.toRead k else c.toWrite k
    match units.find? fun u => u.1 == n / 2 with
    | none => s
    | some u =>
      if u.2.any (s.wordStalls c) then s
      else
        let r := if n % 2 = 0 then (s.moving c).read w p c k u else (s.moving c).write w p c k false u
        if r.err.isSome then s else r.s.modCopy id fun x => { x with moved := r.moved, fetched := r.got }

end Sys2Proof.Machine
end

