-- ==== Sys2Proof/Machine/Fencing.lean ====
section
/-! DEFINITION. Heartbeats, votes, fenced cores, appeals and removal (spec/24_fencing.md R427-R437). -/

namespace Sys2Proof.Machine

/-! ## Fencing and removal (R432, R437) -/

/-- A core that leaves service or an appeal holds no votes. -/
def CoreFence.stop (st : CoreState) (now : Nat) (f : CoreFence) : CoreFence :=
  { f.unvoted with state := st, changed := now, appealLeft := 0 }

/-- The operations of a warp on a core that is fenced: of the requests that have left the core each is accepted by a neighbour, whole, or
discarded, a free choice, and none that has not left it is made. One of which a part has been performed had been accepted (R432). -/
def acceptedOps (choice : Nat) (w : Warp) : List OutOp :=
  (w.ops.filter fun o => match o.kind with
    | .flush _ _ _ => mayComplete w o && Config.bitAt choice (4096 * o.id)
    | _ => true).map fun o =>
      { o with accs := o.accs.filter fun a =>
          mayComplete w o && (o.begun.getLsbD a.lane || Config.bitAt choice (4096 * o.id + a.lane)) }

/-- The units of a copy's running chunks that are never written: those whose data had not been read, and those whose write no neighbour
has accepted (R432). -/
def discardedUnits (choice : Nat) (c : Copy) : List Nat :=
  (c.running.flatMap fun k => (c.toWrite k).filter fun u => !(c.hasRead k u.2 && Config.bitAt choice u.1)).map (·.1)

/-- The warps of a core that are resident now. -/
def State.standsOn (s : State) (c : Nat) (w : Warp) : Bool :=
  s.coreOf w == c && (tget s.blocks w.block).elim false fun b => s.running == some b.slot && b.resident

/-- What a core that is fenced has asked for and no neighbour has accepted is discarded, and so are its beats on their way (R432). -/
def State.dropRequests (s : State) (c : Nat) : State :=
  let s1 := { s with
    choices := s.choices + 2
    warps := tmap s.warps fun w => if s.standsOn c w then { w with ops := acceptedOps s.choices w } else w
    copies := tmap s.copies fun x =>
      if (tget s.warps x.wid).elim false (s.standsOn c) then { x with moved := x.moved ++ discardedUnits (s.choices + 1) x } else x }
  (neighbours c).foldl (fun t x => t.modFence x.2 fun f => { f with inbox := f.inbox.set (dirIx (dirFlip x.1)) [] }) s1

/-- Abandon every fault domain of the running slot that has a block resident on a core (R432). -/
def State.abandonCore (s : State) (c : Nat) : State :=
  match s.running with
  | none => s
  | some r =>
    let bs := (s.parts.filter fun p => p.2.core == c).map fun p => p.2.block
    bs.foldl (fun t b =>
      match (tget t.blocks b).bind fun x => if x.slot == r && x.resident then tget t.nodes x.node else none with
      | some n => t.abandonDomain r n.eff.domain
      | none => t) s

/-- Remove a core from the logical core map (R437). -/
def State.removeCore (s : State) (c : Nat) : State :=
  let s0 := if s.isLive c then s.dropRequests c else s
  let s1 := (s0.endHold c).modFence c (CoreFence.stop .removed s.gtime.toNat)
  let out := if s.outOfMap.contains c then s.outOfMap else s.outOfMap ++ [c]
  let s2 := { s1 with outOfMap := out, mapEpoch := s.mapEpoch + 1, fieldDigest := some (Config.fieldRecord out s.floors) }
  ((s2.abandonCore c).fenceLog c 5).alert

/-- Fence a core whose gate has a majority: in service it is fenced by vote, or removed at its third fence; an appeal fails
(R430, R436, R437). -/
def State.fenceCore (s : State) (c : Nat) : State :=
  let f := s.coreFence c
  let now := s.gtime.toNat
  if f.state == .appealing then (((s.dropRequests c).endHold c).modFence c (CoreFence.stop .fenced now)).fenceLog c 4
  else
    let s1 := ((s.dropRequests c).endHold c).modFence c fun g => { CoreFence.stop .fenced now g with fences := now :: g.fences }
    let s2 := (s1.abandonCore c).fenceLog c 1
    if 3 ≤ s2.recentFences (s2.coreFence c) then s2.removeCore c else s2

/-- Cores against which some core votes. -/
def State.accused (s : State) : List Nat :=
  (s.cores.flatMap fun x => dirs.filterMap fun d => if s.votesAgainst x.1 d then neighbour x.1 d else none).eraseDups

/-- Readmit an appealing core that a majority of its live neighbours accepts (R436). -/
def State.readmitCheck (s : State) (c : Nat) : State :=
  let live := s.liveNeighbours c
  let k := (live.filter fun x => ((s.coreFence x.2).watch[dirIx (dirFlip x.1)]).accepts).length
  if (s.coreFence c).state == .appealing && live.length / 2 + 1 ≤ k then
    (((s.endHold c).modFence c fun f => { f with state := .inService, changed := s.gtime.toNat, appealLeft := 0 }).eachWatch c
      fun w => { w with accepts := false, good := 0 }).fenceLog c 3
  else s

/-- Every appeal is judged by the live lines as they stand (R436). -/
def State.readmits (s : State) : State :=
  ((s.cores.filter fun x => x.2.state == .appealing).map (·.1)).foldl State.readmitCheck s

/-- Every gate decides from the lines as they stand; those fenced change the lines for the next round, and in the end for the appeals
that are open (R430, R436). -/
def State.gates (s : State) : Nat → State
  | 0 => s
  | n + 1 =>
    match s.accused.filter s.majority with
    | [] => s.readmits
    | cs => (cs.foldl State.fenceCore s).gates n

/-- The gates of every core, to their end. -/
def State.gateCheck (s : State) : State := s.gates 1536

/-- The gates decide in every clock, so before time passes (R430). -/
def State.pass (s : State) (ns : Nat) : State := s.gateCheck.tick ns

/-! ## Heartbeats (R427, R428, R436) -/

/-- CRC-32C of a list of bytes, bit by bit. -/
def crcByte : Nat → BitVec 32 → BitVec 32
  | 0, x => x
  | n + 1, x => crcByte n ((x >>> 1) ^^^ (if x.getLsbD 0 then 0x82F63B78 else 0))

def crc32c (bs : List Byte) : BitVec 32 := ~~~(bs.foldl (fun x b => crcByte 8 (x ^^^ b.setWidth 32)) (BitVec.allOnes 32))

/-- A heartbeat from core `src` is well formed for a receiver that last accepted sequence number `last` (R428). -/
def beatOk (p : BitVec 128) (src : Nat) (last : Option (BitVec 16)) : Bool :=
  let x := p.toNat
  x / 2 ^ 60 % 16 == 10 && x / 2 ^ 48 % 2 == 0 && x / 2 ^ 49 % 2048 == src
    && (crc32c (leBytes 12 (x / 2 ^ 32))).toNat == x % 2 ^ 32
    && last.elim true fun q => x / 2 ^ 32 % 2 ^ 16 == (q.toNat + 1) % 2 ^ 16

/-- The resident warps and parts of a core and the instructions issued since its last beat, as its digest gives them (R427). -/
def State.digestOf (s : State) (c : Nat) : DWord :=
  let ps : List (Nat × Part) := match s.running with
    | none => []
    | some r => s.parts.filter fun p => p.2.core == c && (tget s.blocks p.2.block).elim false fun b => b.slot == r && b.resident
  let ws := s.warps.filter fun w => ps.any (fun p => p.1 == w.2.part) && !w.2.ended
  BitVec.ofNat 64 (ws.length % 256 * 2 ^ 56 + ps.length % 256 * 2 ^ 48 + s.mapEpoch % 2 ^ 16 * 2 ^ 32
    + min (2 ^ 32 - 1) (s.coreFence c).issuedSince)

/-- The beat that a core sends now. -/
def State.beatOf (s : State) (c : Nat) : BitVec 128 :=
  let hi := (s.digestOf c).toNat * 2 ^ 64 + 10 * 2 ^ 60 + c * 2 ^ 49 + (s.coreFence c).seq.toNat * 2 ^ 32
  BitVec.ofNat 128 (hi + (crc32c (leBytes 12 (hi / 2 ^ 32))).toNat)

/-- A packet is on its way to every neighbour of a core (R427). -/
def State.sendBeat (s : State) (c : Nat) (p : BitVec 128) : State :=
  (neighbours c).foldl (fun t x => t.modFence x.2 fun f =>
    { f with inbox := f.inbox.set (dirIx (dirFlip x.1)) (f.inbox[dirIx (dirFlip x.1)] ++ [p]) }) s

/-- HEARTBEAT_SEND: a core in service or appealing sends its beat to each neighbour once in 4,096 clocks. What a link makes of it on
the way is open (log 28). -/
def heartbeatSend (c : Fin 1536) (s : State) : State :=
  let f := s.coreFence c
  if !f.state.live || s.clkOf c < f.beatAt + 4096 then s
  else (s.sendBeat c (s.beatOf c)).modFence c fun g => { g with seq := g.seq + 1, issuedSince := 0, beatAt := s.clkOf c }

def execHeartbeatSend (core : Fin 1536) (s : State) : Out := .next (heartbeatSend core s)

/-- A vote set or set back to 16 periods (R429). -/
def Watch.accuse (k : VoteKind) (w : Watch) : Watch := { w with vote := k, left := 16, good := 0, accepts := false }

/-- A core's watch on a neighbour changes, and the gates decide. -/
def State.watchCore (s : State) (c : Nat) (d : Dir) (f : Watch → Watch) : State :=
  (s.modFence c fun g => { g with watch := g.watch.set (dirIx d) (f g.watch[dirIx d]) }).gateCheck

/-- The receiver judges nothing of this neighbour, which is held in service: it counts no misses and finds no babble (R446). -/
def State.unjudged (s : State) (x : Nat) : Bool := (s.coreFence x).holder.isSome && (s.coreFence x).state == .inService

/-- What a receiver holds after an accepted beat. -/
def Watch.accept (p : BitVec 128) (clk : Nat) (appealing : Bool) (w : Watch) : Watch :=
  { w with miss := 0, lastSeq := some (p.extractLsb' 32 16), lastClk := some clk, since := clk, digest := p.extractLsb' 64 64,
           good := if appealing then w.good + 1 else 0, accepts := appealing && 16 ≤ w.good + 1 }

/-- What a receiver holds after a packet that babbles: a well-formed beat that comes too soon ends the count of misses, and is not
accepted; any breaks a run of good ones (R428, R436, R438). -/
def Watch.babbled (wellFormed : Bool) (p : BitVec 128) (clk : Nat) (w : Watch) : Watch :=
  { (if wellFormed then { w with miss := 0, since := clk, digest := p.extractLsb' 64 64 } else w) with good := 0, accepts := false }

/-- The packets that still follow once one has arrived: those sent after it. -/
def restOf (p : BitVec 128) : List (BitVec 128) → List (BitVec 128)
  | [] => []
  | q :: r => if q = p then r else restOf p r

/-- A packet has left a core's link. -/
def State.arrived (s : State) (c : Nat) (d : Dir) (p : BitVec 128) : State :=
  s.modFence c fun f => if (f.inbox[dirIx d]).contains p then { f with inbox := f.inbox.set (dirIx d) (restOf p f.inbox[dirIx d]) } else f

/-- The packet is a beat that the neighbour has sent, or one that a fault has made, which is not well formed (R428; log 28). -/
def State.mayArrive (s : State) (c : Nat) (d : Dir) (x : Nat) (p : BitVec 128) : Bool :=
  let f := s.coreFence c
  (f.inbox[dirIx d]).contains p || !beatOk p x (f.watch[dirIx d]).lastSeq

/-- HEARTBEAT_RECEIVE: a packet arrives at a core from the neighbour in a direction. What comes from a fenced or removed one is discarded,
and of one that is held in service the well-formed beats are kept and nothing is judged (R428, R432, R446). -/
def heartbeatReceive (c : Fin 1536) (d : Dir) (p : BitVec 128) (s : State) : State :=
  match neighbour c.val d with
  | none => s
  | some x =>
    if !s.isLive c || !s.isLive x || !s.mayArrive c d x p then s
    else
      let w := (s.coreFence c).watch[dirIx d]
      let clk := s.clkOf c
      let early := w.lastClk.elim false fun t => clk < t + 1024
      let ok := beatOk p x w.lastSeq
      let s1 := s.arrived c d p
      if ok && !early then s1.watchCore c d (Watch.accept p clk ((s.coreFence x).state == .appealing))
      else s1.watchCore c d fun v =>
        let u := v.babbled ok p clk
        if (s.coreFence c).mayVote && !s.unjudged x then u.accuse .babble else u

def execHeartbeatReceive (core : Fin 1536) (dir : Dir) (packet : BitVec 128) (s : State) : Out :=
  .next (heartbeatReceive core dir packet s)

/-- What a receiver holds after one more span without a beat (R428, R429). -/
def Watch.missed (votes : Bool) (w : Watch) : Watch :=
  let x := { w with miss := w.miss + 1, good := 0 }
  if votes && 3 ≤ x.miss then { x with vote := (if w.vote == .none then .silent else w.vote), left := 16 } else x

/-- HEARTBEAT_MISS: a span of 4,096 clocks has passed without a well-formed beat. -/
def heartbeatMiss (c : Fin 1536) (d : Dir) (s : State) : State :=
  match neighbour c.val d with
  | none => s
  | some x =>
    let w := (s.coreFence c).watch[dirIx d]
    if !s.isLive c || ((s.coreFence x).holder.isSome && (s.coreFence x).state != .appealing)
      || s.clkOf c < w.since + 4096 * (w.miss + 1) then s
    else s.watchCore c d (Watch.missed (s.coreFence c).mayVote)

def execHeartbeatMiss (core : Fin 1536) (dir : Dir) (s : State) : Out := .next (heartbeatMiss core dir s)

/-! ## Periods (R429, R431, R436) -/

/-- A vote after one more period. -/
def Watch.period (w : Watch) : Watch :=
  if w.vote == .none then { w with soleFor := 0 }
  else if w.left ≤ 1 then { w with vote := .none, left := 0, soleFor := 0 }
  else { w with left := w.left - 1, soleFor := w.soleFor + 1 }

/-- VOTE_PERIOD: one period of a core's beat clock. -/
def votePeriod (c : Fin 1536) (s : State) : State :=
  let f := s.coreFence c
  if !f.state.live || s.clkOf c < f.periodAt + 4096 then s
  else (s.gateCheck.modFence c fun g => { g with periodAt := s.clkOf c, appealLeft := g.appealLeft - 1,
                                                 watch := Vector.ofFn fun i => (g.watch[i]).period }).gateCheck

def execVotePeriod (core : Fin 1536) (s : State) : Out := .next (votePeriod core s)

/-- ROUTER_RESET: a fenced core's router is held in reset as well (R432). -/
def routerReset (c : Fin 1536) (s : State) : State :=
  if s.isLive c || (s.coreFence c).routerOff then s else s.modFence c fun f => { f with routerOff := true }

def execRouterReset (core : Fin 1536) (s : State) : Out := .next (routerReset core s)

/-- Marks a vote whose entry of kind 6 has been appended. -/
def suspectPosted : Nat := 1000

/-- SOLITARY_SUSPECT: a core that cannot be fenced by vote has had a vote against it for 16 periods. An entry of kind 6 and an alert
come first; the management processor's removal of the core is a second step (R431, R437). -/
def solitarySuspect (c : Fin 1536) (s : State) : State :=
  match (s.voters c).filter fun x => 16 ≤ ((s.coreFence x.2).watch[dirIx (dirFlip x.1)]).soleFor with
  | [] => s
  | x :: _ =>
    if (s.coreFence c).state != .inService || 2 ≤ (s.liveNeighbours c).length then s
    else if suspectPosted ≤ ((s.coreFence x.2).watch[dirIx (dirFlip x.1)]).soleFor then (s.removeCore c).gateCheck
    else ((s.eachWatch c fun w => { w with soleFor := if w.vote == .none then 0 else suspectPosted }).fenceLog c 6).alert

def execSolitarySuspect (core : Fin 1536) (s : State) : Out := .next (solitarySuspect core s)

/-- APPEAL_TIMEOUT: an appeal without a majority after 64 periods fails (R436). -/
def appealTimeout (c : Fin 1536) (s : State) : State :=
  let f := s.coreFence c
  if f.state == .appealing && f.appealLeft == 0 then (s.fenceCore c).gateCheck else s

def execAppealTimeout (core : Fin 1536) (s : State) : Out := .next (appealTimeout core s)

end Sys2Proof.Machine
end

