-- ==== Sys2Proof/Machine/SelfTest.lean ====
section
/-! DEFINITION. In-field scan tests: holds, appeals and chunks (spec/09_control.md R240; spec/24_fencing.md R436, R437;
spec/26_prog_scan_test.md R446, R447). -/

namespace Sys2Proof.Machine

/-- S[d] receives a status and S[d+1] a signature, or 0. -/
def stestRegs (d : SOp) (status : Nat) (sig : Word) (w : Warp) : Warp :=
  setSreg (setSreg w (sidx d) (BitVec.ofNat 32 status)) (sidx d + 1) sig

/-- A part is resident on a core in the running slot. -/
def State.hasPart (s : State) (core : Nat) : Bool :=
  s.parts.any fun p => p.2.core == core
    && (tget s.blocks p.2.block).elim false fun b => s.running == some b.slot && b.resident

/-- The block holds the core. -/
def State.heldBy (s : State) (core bid : Nat) : Bool := (s.coreFence core).holder == some bid

/-- The status of `.hold` (R240, R446). -/
def Ctx.holdStatus (c : Ctx) (t : Nat) : Nat :=
  if !(neighbours c.core).any (fun x => x.2 == t) then 1
  else
    let f := c.s.coreFence t
    if f.holder.elim false (fun b => b != c.w.block) || (f.state == .inService && c.s.hasPart t) then 2 else 0

/-- An appeal of a core that the block holds fails when a chunk returns a status other than 0, also before `.appeal` has opened it: the
core is then still fenced, and its chunks begin anew (R436; log 61). -/
def State.failAppeal (s : State) (t bid : Nat) : State :=
  if !s.heldBy t bid then s
  else match (s.coreFence t).state with
    | .appealing => (s.fenceCore t).gateCheck
    | .fenced => (s.modFence t fun g => { g with matched := 0 }).fenceLog t 4
    | _ => s

/-- All twenty chunks have matched. -/
def allChunks : BitVec 20 := BitVec.allOnes 20

/-- Each neighbour of an appealing core begins to judge it afresh (R428, R436, R438). -/
def Watch.appealed (clk : Nat) (w : Watch) : Watch :=
  { w.restart clk with good := 0, accepts := false, digest := 0, lastClk := none }

/-- Open an appeal: the core leaves reset, and it begins to judge its neighbours afresh as they do it (R428, R436). -/
def State.openAppeal (s : State) (t : Nat) : State :=
  ((s.modFence t fun f => { f with state := .appealing, changed := s.gtime.toNat, seq := 0, appealLeft := 64, routerOff := false,
                                   beatAt := s.clkOf t, periodAt := s.clkOf t, inbox := Vector.replicate 4 [],
                                   watch := Vector.replicate 4 { Watch.fresh with since := s.clkOf t } }).eachWatch t
    (Watch.appealed (s.clkOf t))).fenceLog t 2

/-- What `.appeal` does: its status and the state after it. A second appeal while one is open changes nothing (log 18). -/
def State.appeal (s : State) (t bid : Nat) : Nat × State :=
  let f := s.coreFence t
  match f.state with
  | .removed => (0, s.fenceLog t 4 7)
  | .inService => (6, s)
  | .appealing => (if f.holder == some bid then 0 else 4, s)
  | .fenced =>
    if f.holder != some bid then (4, s)
    else if f.matched != allChunks then (6, s)
    else (0, s.openAppeal t)

/-- A chunk's warp goes on with a status and a signature. -/
def State.chunkEnds (s : State) (wid : Nat) (d : Fin 63) (status : Nat) (sig : Word) : State :=
  s.modWarp wid fun w => endWait (stestRegs (.s d) status sig w)

/-- The effect of a chunk on its target (R436, R437, R447). -/
def State.chunkDone (s : State) (t k : Nat) (ok : Bool) : State :=
  let f := s.coreFence t
  if ok then s.modFence t fun g => { g with matched := g.matched ||| BitVec.ofNat 20 (2 ^ k) }
  else if f.state == .removed then s.endHold t
  else
    let s0 := if s.isLive t then s.dropRequests t else s
    let s1 := (s0.endHold t).modFence t (CoreFence.stop .fenced s.gtime.toNat)
    (match f.state with
      | .inService => s1.fenceLog t 1
      | _ => s1.fenceLog t 4).removeCore t |>.gateCheck

/-- A chunk overwrites its target's TLB; the unified store and the matrix state, which it overwrites as well, belong to no part
(R447). -/
def State.overwriteTlb (s : State) (t : Nat) : State := { s with tlb := s.tlb.filter fun e => e.holder != .core t }

/-- A chunk runs to its end: its status and signature are written (R447). -/
def State.endChunk (s : State) (wid t k : Nat) (d : Fin 63) (w : Warp) : State :=
  if !s.heldBy t w.block then s.chunkEnds wid d 4 0
  else
    let s1 := { s.overwriteTlb t with choices := s.choices + 1 }
    let got := Config.producedSig t k s.choices
    if got = Config.expectedSig t k then (s1.chunkEnds wid d 0 got).chunkDone t k true
    else ((s1.chunkEnds wid d 5 got).chunkDone t k false)

/-- A priority-0 block is ready for a held core: the hold ends, and a chunk that runs on it stops with status 3 (R447). For a core out
of service no block is ready, since none may be placed there (log 60). -/
def State.preemptHold (s : State) (t : Nat) : State :=
  if (s.coreFence t).holder.isNone || (s.coreFence t).state != .inService then s
  else
    let ws := s.warps.filterMap fun w => match w.2.wait with
      | some ⟨.chunk u _ d _, _, _⟩ => if u = t then some (w.1, d) else none
      | _ => none
    ((ws.foldl (fun x w => x.chunkEnds w.1 w.2 3 0) s).overwriteTlb t).endHold t

end Sys2Proof.Machine
end

