-- ==== Sys2Proof/Machine/Spawn.lean ====
section
/-! DEFINITION. Spawning: `spawn`, the release of bins and the placement of released warps (spec/02_execution_model.md R46, R47;
spec/09_control.md R226, R227; spec/13_scheduling.md R327). -/

namespace Sys2Proof.Machine

/-! ## Pairs (R46, R47) -/

/-- Release a bin as a warp. -/
def State.releaseBin (s : State) (slot : Fin 8) (b : Bin) : State :=
  { s with
    bins := s.bins.filter fun x => x != b
    released := s.released ++ [⟨slot, dieOfCore b.core, b.core, b.index, b.part, b.entry, b.args⟩] }

/-- Bins of a core that hold pairs of the slot, oldest first. -/
def State.binsOn (s : State) (slot : Fin 8) (core : Nat) : List Bin :=
  s.bins.filter fun b => b.core == core && s.slotOfPart b.part == some slot

/-- Append a pair to the bin of its key. -/
def State.fillBin (s : State) (slot : Fin 8) (b : Bin) (arg : Word) : State :=
  let x := { b with args := b.args ++ [arg] }
  let s1 := { s with bins := s.bins.map fun y => if y = b then x else y }
  if 32 ≤ x.args.length then s1.releaseBin slot x else s1

/-- Open a bin for a new key, releasing the oldest where none is free. -/
def State.openBin (s : State) (slot : Fin 8) (core pid : Nat) (entry : DWord) (arg : Word) (now : Nat) : State :=
  let bs := s.binsOn slot core
  let used := bs.map (·.index)
  match (List.range 32).find? fun k => !used.contains k, bs with
  | some k, _ => { s with bins := s.bins ++ [⟨core, k, pid, entry, [arg], now⟩] }
  | none, b :: _ => let t := s.releaseBin slot b; { t with bins := t.bins ++ [⟨core, b.index, pid, entry, [arg], now⟩] }
  | none, [] => s

/-- Context time of a slot. -/
def State.ctxTime (s : State) (slot : Fin 8) : Nat := (s.ctxs[slot]).elim 0 (·.time)

/-- Insert one pair (R46). -/
def State.addPair (s : State) (slot : Fin 8) (core pid : Nat) (entry : DWord) (arg : Word) : State :=
  match (s.binsOn slot core).find? fun b => b.part == pid && b.entry == entry with
  | some b => s.fillBin slot b arg
  | none => s.openBin slot core pid entry arg (s.ctxTime slot)

/-! ## spawn (R226) -/

/-- The entry of a lane. -/
def Ctx.spawnEntry (c : Ctx) (a : VOp) (l : Lane) : DWord := (c.pc &&& 0x007FFFFF00000000) ||| (c.v a l).setWidth 64

/-- A die as a number below 8. -/
def Ctx.dieFin (c : Ctx) : Fin 8 := Fin.ofNat 8 c.die

/-- With no active lane `spawn` makes no check of its own (R379). -/
def execSpawn (q : Fin 8) (a b : VOp) (k : Word) (s : State) : Out :=
  issue (.spawn q a b k) s fun c =>
    let ls := lanesOf c.act
    if ls.isEmpty then c.finish id
    else if !budgetOk c.p.spawnRegs.toNat then c.raise 0x01 ((firstWord c.i).setWidth 64)
    else match ls.find? fun l => (c.v a l).toNat % 4 != 0 with
      | some l => c.raiseLane 0x03 ((c.v a l).setWidth 64) l
      | none =>
        if 65536 < c.s.pendingPairs c.w.slot c.die + ls.length || !c.quiet then c.stall
        else
          let pairs := ls.map fun l => (c.spawnEntry a l, c.v b l)
          ((pairs.foldl (fun t p => t.addPair c.w.slot c.core c.w.part p.1 p.2) ((c.finish id).coreEvent c.core 5 pairs.length))).orderOf c.w.slot c.dieFin

/-! ## Release and placement -/

/-- A bin whose timer runs out before that of another bin of its core, or with it and under a lower number (R327). -/
def Bin.before (a b : Bin) : Bool := a.since < b.since || (a.since == b.since && a.index < b.index)

/-- SPAWN_BIN_TIMER: the timer of a bin has run out (R46, R227, R327). -/
def spawnBinTimer (core bin : Nat) (s : State) : State :=
  match s.running with
  | none => s
  | some r =>
    let wait := max 1 ((s.ctxs[r]).elim 0 fun c => c.bintimer.toNat)
    if s.switching then s
    else match (s.binsOn r core).find? fun b => b.index == bin with
    | some b => if b.since + wait ≤ s.ctxTime r && !(s.binsOn r core).any (·.before b) then s.releaseBin r b else s
    | none => s

def execSpawnBinTimer (core bin : Nat) (s : State) : Out := .next (spawnBinTimer core bin s)

/-- A released warp as it starts (R46). -/
def spawnedWarp (r : Released) (p : Part) (pid slotNo rbase : Nat) (pbase : Word) : Warp :=
  { slot := r.slot, block := p.block, part := pid, pc := r.entry,
    vregs := (Vector.replicate 120 (Vector.replicate 32 0)).set 0 (Vector.ofFn fun l : Lane => r.args.getD l.val 0),
    sregs := Vector.replicate 63 0, badSregs := [], preds := Vector.replicate 8 0, path := BitVec.allOnes 32, stack := [],
    ops := [], nextOp := 0, issued := Vector.replicate 4 0, paths := [], slice := none, aq := Vector.replicate 4 [], sq := [],
    nextTicket := 0, laneok := BitVec.ofNat 32 (2 ^ r.args.length - 1), spawned := true, index := BitVec.ofNat 6 r.index,
    wslot := BitVec.ofNat 6 slotNo, role := p.spawnRole, rprio := p.spawnPrio, rbase := BitVec.ofNat 20 rbase,
    rcount := p.spawnRegs.setWidth 7, pbase := pbase, plimit := BitVec.ofNat 17 p.priv, status := 0, cause := 0, epc := 0,
    eval := 0, tvec := 0, fflags := 0, errs := [], wait := none, lastPromise := none, polled := 0, ended := false, stopped := false }

/-- The released warp's place, where its block is resident and its core has room. -/
def State.spawnRoom (s : State) (r : Released) : Option (Part × Nat × Nat) :=
  match tget s.parts r.part with
  | none => none
  | some p =>
    if !s.residentPart r.slot p then none
    else (s.fitSpawned r.slot p.core p.spawnRegs.toNat).map fun x => (p, x.1, x.2)

/-- SPAWN_WARP_PLACE: place the first released warp of the die, in the order that R47 sets, for which there is room. -/
def spawnWarpPlace (die : Nat) (s : State) : State :=
  match s.running with
  | none => s
  | some slot =>
    let q := s.released.filter fun r => r.slot == slot && r.die == die
    let d : Fin 8 := Fin.ofNat 8 die
    match (if s.newestFirst[d] then q.reverse else q).findSome? fun r => (s.spawnRoom r).map fun x => (r, x) with
    | none => s
    | some (r, p, k, a) =>
      if s.switching then s else
      let pb := s.newPbase slot
      let t := pb.2.addWarp (spawnedWarp r p r.part k a pb.1)
      ({ t with released := t.released.erase r }).orderOf slot d

def execSpawnWarpPlace (die : Nat) (s : State) : Out := .next (spawnWarpPlace die s)

end Sys2Proof.Machine
end

