-- ==== Sys2Proof/Machine/Place.lean ====
section
/-! DEFINITION. The die schedulers: the placement of blocks, and the swapping of parked blocks (spec/02_execution_model.md R30,
R34-R41, R55; spec/10_matrix.md R242; spec/13_scheduling.md R325; spec/25_prog_private_stack.md R440;
spec/26_prog_scan_test.md R445, R447; log 14). -/

namespace Sys2Proof.Machine

/-! ## Room (R41) -/

/-- What a part wants of a core: its claim, its scratchpad, its region, whether it claims tiles, and its warps as a layout wants
them: number, slot, budget. -/
structure Want where
  claim : Bool
  bytes : Nat
  scratch : Nat
  region : Nat
  warps : List (Nat × Nat × Nat)
  deriving DecidableEq, Repr

/-- Bytes of a warp's register rows and reserved area (R39). -/
def rowBytes (n : Nat) : Nat := n * 128 + 1024

/-- The claims of the parts resident on a core, with the rows of its spawned warps (R41). -/
def State.claimedOn (s : State) (slot : Fin 8) (core : Nat) : Nat :=
  ((s.partsOn slot core).map fun p => p.2.claimBytes).foldl (· + ·) 0
    + (((s.warpsOn slot core).filter fun w => w.2.spawned && !w.2.ended).map fun w => rowBytes w.2.rcount.toNat).foldl (· + ·) 0

/-- The core takes placements: it is in service and not held (R41, R446). -/
def State.takesParts (s : State) (core : Nat) : Bool := s.coreUp core && (s.coreFence core).holder.isNone

/-- The layout that a part wants, where the core has room for it (R41, R242). -/
def State.fitsOn (s : State) (slot : Fin 8) (core : Nat) (q : Want) : Option Layout :=
  if !s.takesParts core || 2 ^ 20 < s.claimedOn slot core + q.bytes
      || (q.claim && (s.partsOn slot core).any fun p => p.2.claim) then none
  else findLayout (s.granulesUsed slot core) q.warps q.scratch q.region

/-- A new part on a core: the slots of its warps and its layout (R36). -/
def State.fitNew (s : State) (slot : Fin 8) (l : Launch) (store core : Nat) : Option (List Nat × Layout) :=
  let n := l.warpRoles.length
  let slots := freeSlots (s.slotsUsed slot core) n
  match l.region store with
  | none => none
  | some r =>
    if slots.length < n then none
    else (s.fitsOn slot core ⟨l.claim, claimOf store, l.scratch, r, l.slotted slots⟩).map fun y => (slots, y)

/-! ## The choice of cores (R35, R325) -/

/-- Resident warps of a core. -/
def State.warpCount (s : State) (slot : Fin 8) (core : Nat) : Nat := (s.slotsUsed slot core).length

/-- Take the parts in ascending number and the cores in the given order, one part a core (R35). -/
def assignParts {α : Type} (fits : Nat → Nat → Option α) : List Nat → List Nat → Option (List (Nat × α))
  | [], _ => some []
  | _ :: _, [] => none
  | p :: ps, c :: cs =>
    match fits p c with
    | some a => (assignParts fits ps cs).map ((c, a) :: ·)
    | none => assignParts fits (p :: ps) cs

/-- The core of a list with the fewest resident warps, the first of equal ones. -/
def State.emptiest (s : State) (slot : Fin 8) : List Nat → Option Nat
  | [] => none
  | c :: r =>
    match s.emptiest slot r with
    | none => some c
    | some d => if s.warpCount slot d < s.warpCount slot c then some d else some c

/-- The cores of a cluster in ascending cluster index. -/
def clusterCores (cl : Nat) : List Nat := (List.range 16).map (coreAt cl)

/-- The cores of a die in ascending number. -/
def dieCores (die : Nat) : List Nat := (List.range 192).map fun k => 192 * die + k

/-- Places on a die for a block of `n` parts, within the budgets that `ok` stands for. -/
def State.placesOn {α : Type} (s : State) (slot : Fin 8) (n : Nat) (ok : List Nat → Bool) (fits : Nat → Nat → Option α)
    (die : Nat) : Option (List (Nat × α)) :=
  if n = 1 then
    match s.emptiest slot ((dieCores die).filter fun c => ok [c] && (fits 0 c).isSome) with
    | some c => (fits 0 c).map fun a => [(c, a)]
    | none => none
  else (List.range 12).findSome? fun k =>
    match assignParts fits (List.range n) (clusterCores (12 * die + k)) with
    | some xs => if ok (xs.map (·.1)) then some xs else none
    | none => none

/-- The dies of a mask, from a die on, cyclically; a mask of 0 names every die (R320, R325). -/
def diesFrom (kp0 : Word) (start : Nat) : List Nat :=
  ((List.range 8).map fun k => (start + k) % 8).filter fun d => kp0.setWidth 8 == (0 : BitVec 8) || kp0.getLsbD d

/-- Cores in ascending number. -/
def sortedCores (l : List Nat) : List Nat := (List.range 1536).filter fun c => l.contains c

/-- The first mesh neighbour of the target of a self-test, in ascending number, that passes a test (R445). -/
def testCore {α : Type} (n : Node) (f : Nat → Option α) : Option α := (sortedCores ((neighbours n.kp1.toNat).map (·.2))).findSome? f

/-- Where the next block of a node goes: a core, slots and a layout for each part (R325, R445). -/
def State.placeFor (s : State) (nid : Nat) (n : Node) (l : Launch) : Option (List (Nat × List Nat × Layout)) :=
  let fits (_ c : Nat) : Option (List Nat × Layout) := s.fitNew n.slot l n.eff.store c
  let ok := s.coresAllowed nid
  if n.kind == .selftest then
    testCore n fun c => if ok [c] then (fits 0 c).map fun a => [(c, a)] else none
  else (diesFrom n.kp0 n.nextDie).findSome? (s.placesOn n.slot l.parts ok fits)

/-! ## A block as it starts (R30, R34, R36-R38) -/

/-- The lanes of warp `i` of a part that hold a thread (R34). -/
def lanesHeld (threads i : Nat) : Mask := BitVec.ofNat 32 (2 ^ min 32 (threads - 32 * i) - 1)

/-- s0, s1 and s2 as the launch path sets them: for a sibling its index and the record's address, for a self-test the target
(R52, R445). -/
def startRegs (n : Node) (index : Nat) : Vector Word 63 :=
  let z := Vector.replicate 63 (0 : Word)
  match n.kind with
  | .group => ((z.set 0 (BitVec.ofNat 32 index)).set 1 (n.addr.setWidth 32)).set 2 ((n.addr >>> 32).setWidth 32 &&& 0x7FFFFF)
  | .selftest => z.set 0 n.kp1
  | _ => z

/-- A warp as a launch places it (R38). -/
def launchedWarp (slot : Fin 8) (bid pid : Nat) (l : Launch) (i role : Nat) (r : Role) (slotNo rbase : Nat) (pbase : Word)
    (regs : Vector Word 63) : Warp :=
  { slot := slot, block := bid, part := pid, pc := r.entry, vregs := Vector.replicate 120 (Vector.replicate 32 0),
    sregs := regs, badSregs := [], preds := Vector.replicate 8 0, path := BitVec.allOnes 32, stack := [], ops := [],
    nextOp := 0, issued := Vector.replicate 4 0, paths := [], slice := none, aq := Vector.replicate 4 [], sq := [],
    nextTicket := 0, laneok := lanesHeld l.threads i, spawned := false, index := BitVec.ofNat 6 i,
    wslot := BitVec.ofNat 6 slotNo, role := BitVec.ofNat 2 role, rprio := r.prio, rbase := BitVec.ofNat 20 rbase,
    rcount := r.regs.setWidth 7, pbase := pbase, plimit := BitVec.ofNat 17 l.priv, status := 0, cause := 0, epc := 0, eval := 0,
    tvec := 0, fflags := 0, errs := [], wait := none, lastPromise := none, polled := 0, ended := false, stopped := false }

/-- Add the warps of a part, given with their numbers, roles and slots. -/
def State.addWarps (s : State) (n : Node) (bid pid : Nat) (l : Launch) (index : Nat) (y : Layout) :
    List (Nat × (Nat × Role) × Nat) → State
  | [] => s
  | (i, (role, r), k) :: rest =>
    let pb := s.newPbase n.slot
    let base := (y.rbases.find? fun b => b.1 == i).elim 0 (·.2)
    (pb.2.addWarp (launchedWarp n.slot bid pid l i role r k base pb.1 (startRegs n index))).addWarps n bid pid l index y rest

/-- A part as it is placed (R40, R440). -/
def placedPart (bid num core : Nat) (l : Launch) (store : Nat) (y : Layout) : Part :=
  let sr := l.roles.getD l.spawnrole.toNat ⟨0, 0, 0, 0⟩
  { block := bid, num := num, core := core, threads := l.threads, scratch := l.scratch, sbase := BitVec.ofNat 20 y.sbase,
    claimBytes := claimOf store, region := y.region, sets := regionSets (512 * y.region.length), priv := l.priv,
    claim := l.claim, spawnRegs := sr.regs, spawnPrio := sr.prio, spawnRole := l.spawnrole, l1 := [], heldCount := 0, bar := [] }

/-- Add the parts of a block with their warps. -/
def State.addParts (s : State) (n : Node) (bid : Nat) (l : Launch) (index : Nat) : Nat → List (Nat × List Nat × Layout) → State
  | _, [] => s
  | num, (core, slots, y) :: rest =>
    let pid := s.nextId
    let s1 := { s with
      parts := s.parts ++ [(pid, placedPart bid num core l n.eff.store y)]
      nextId := pid + 1
      blocks := tmod s.blocks bid fun b => { b with parts := b.parts ++ [pid] } }
    (s1.addWarps n bid pid l index y ((l.warpRoles.zip slots).mapIdx fun i x => (i, x.1, x.2))).addParts n bid l index (num + 1) rest

/-- The group of a group node. -/
def State.groupOf (s : State) (nid : Nat) : Option (Nat × Group) := s.groups.find? fun g => g.2.node == nid

/-- A block in its launch grid: its number, coordinates and membership (R37, R325). -/
def newBlock (n : Node) (nid index : Nat) (l : Launch) (member : Option (Nat × Nat)) : Block :=
  let c (x : Nat) : Word := BitVec.ofNat 32 x
  let grid := n.kind != .group
  { slot := n.slot, node := nid, index := index, x := c (if grid then index % l.gx else index),
    y := c (if grid then index / l.gx % l.gy else 0), z := c (if grid then index / (l.gx * l.gy) else 0), member := member,
    parts := [], resident := true, out := 0, together := false, barc := [], stopping := false, ended := false }

/-- The next block of a node is placed. -/
def State.putBlock (s : State) (nid : Nat) (n : Node) (l : Launch) (index : Nat) (xs : List (Nat × List Nat × Layout)) : State :=
  let die := dieOfCore ((xs.head?).elim 0 (·.1))
  let member := if n.kind == .group then (s.groupOf nid).map fun g => (g.1, index) else none
  let bid := s.nextId
  let s1 := { s with
    blocks := s.blocks ++ [(bid, newBlock n nid index l member)]
    nextId := bid + 1
    nodes := tmod s.nodes nid fun x => { x with nextBlock := index + 1, nextDie := (die + 1) % 8 } }
  (s1.addParts n bid l index 0 xs).dieEvent die 4

/-! ## Which block is next -/

/-- The next block of a node: a member of a group that is already final is passed over (R420). -/
def State.nextIndex (s : State) (nid : Nat) (n : Node) : Option Nat :=
  let left := (List.range (n.totalBlocks - n.nextBlock)).map fun k => n.nextBlock + k
  if n.kind == .group then
    match s.groupOf nid with
    | some (_, g) => left.find? fun i => (g.members[i]?).elim false fun m => m.1 == .running
    | none => none
  else left.head?

/-- A node may have a block placed: it has started, is neither final nor under teardown, and no overdue node bars it. -/
def State.wantsBlock (s : State) (nid : Nat) (n : Node) : Bool :=
  n.started && n.status.isNone && !n.draining && !n.killing && n.launch.isSome && s.mayStart n.slot && !s.barred nid n
    && (s.nextIndex nid n).isSome

/-- Where the next block of a node goes now, none where it cannot be placed. -/
def State.placeable (s : State) (x : Nat × Node) : Option (List (Nat × List Nat × Layout)) :=
  match x.2.launch with
  | some l => if s.wantsBlock x.1 x.2 then s.placeFor x.1 x.2 l else none
  | none => none

/-- The wait of a warp is over (R55). -/
def State.waitMet (s : State) (w : Warp) : Bool :=
  match w.wait with
  | some ⟨.sgwait _ va, _, _⟩ =>
    (s.loadVa w.slot va.toNat 4).elim true fun x => x / 2 ^ 16 % 2 == 1 || (s.runningGroup w.slot va).isNone
  | some ⟨.waitw _ va v cc, _, _⟩ => (s.loadVa w.slot va.toNat 8).elim true fun x => icond cc (BitVec.ofNat 64 x) v
  | some ⟨.pbwait loc _ _ b, _, _⟩ => pbPhase (s.load loc 4) != b
  | _ => false

/-- The warps of a block that have not ended. -/
def State.liveWarps (s : State) (bid : Nat) : List (Nat × Warp) := s.warps.filter fun w => w.2.block == bid && !w.2.ended

/-- The state after the hold of a core has ended for a block, and the block's place, where it finds one then (R447). -/
def State.placeFreed (s : State) (x : Nat × Node) (t : Nat) : Option (State × List (Nat × List Nat × Layout)) :=
  if (diesFrom x.2.kp0 0).contains (dieOfCore t) then
    let s1 := s.preemptHold t
    (s1.placeable x).map fun p => (s1, p)
  else none

/-- A held core to be freed for a block of priority 0 that no core has room for (R447). -/
def State.preemptFor (s : State) (x : Nat × Node) : Option (State × List (Nat × List Nat × Layout)) :=
  if x.2.eff.prio != 0 then none
  else
    let held := (s.cores.filter fun c => c.2.holder.isSome && c.2.state == .inService).map (·.1)
    (sortedCores held).findSome? (s.placeFreed x)

/-! ## The return of swapped-out blocks (R36, R55) -/

/-- What a returning part wants: the slots it held, and new rows and a new region of the same sizes. Rows of a warp that has ended
still belong to the claim. -/
def State.wantBack (s : State) (pid : Nat) (p : Part) : Want :=
  let ws := s.warps.filter fun w => w.2.part == pid && !(w.2.spawned && w.2.ended)
  { claim := p.claim
    bytes := p.claimBytes + ((ws.filter fun w => w.2.spawned).map fun w => rowBytes w.2.rcount.toNat).foldl (· + ·) 0
    scratch := p.scratch
    region := 512 * p.region.length
    warps := ws.map fun w => (w.1, w.2.wslot.toNat, w.2.rcount.toNat) }

/-- The pairs pending of a block. -/
def State.pairsOf (s : State) (bid : Nat) : Nat :=
  let mine (pid : Nat) : Bool := (tget s.parts pid).elim false fun p => p.block == bid
  ((s.bins.filter fun b => mine b.part).map fun b => b.args.length).foldl (· + ·) 0
    + ((s.released.filter fun r => mine r.part).map fun r => r.args.length).foldl (· + ·) 0

/-- The die of a core has room for the pairs that a returning part's block brings with it (R47). -/
def State.pairsFit (s : State) (slot : Fin 8) (p : Part) (core : Nat) : Bool :=
  dieOfCore core == dieOfCore p.core || s.pendingPairs slot (dieOfCore core) + s.pairsOf p.block ≤ 65536

/-- A part returns to a core: the slots that its warps held are free, and the core has room, as its die has for the pairs. -/
def State.fitBack (s : State) (slot : Fin 8) (pid core : Nat) : Option Layout :=
  match tget s.parts pid with
  | none => none
  | some p =>
    let used := s.slotsUsed slot core
    if !s.pairsFit slot p core || s.warps.any fun w => w.2.part == pid && !w.2.ended && used.contains w.2.wslot.toNat then none
    else s.fitsOn slot core (s.wantBack pid p)

/-- Where a swapped-out block returns to: a self-test's by R445, another to the cores that it left, or else by the rules of R325. R36
does not say which core a block returns to (DESIGN CHOICE, log 14). -/
def State.placeBack (s : State) (b : Block) (n : Node) : Option (List (Nat × Layout)) :=
  let fits (k c : Nat) : Option Layout := s.fitBack b.slot (b.parts.getD k 0) c
  let ok := s.coresAllowed b.node
  let old := b.parts.map fun p => (tget s.parts p).elim 0 (·.core)
  let same := if ok old then assignParts fits (List.range b.parts.length) old else none
  if n.kind == .selftest then testCore n fun c => if ok [c] then (fits 0 c).map fun a => [(c, a)] else none
  else if same.isSome then same
  else (diesFrom n.kp0 (dieOfCore (old.headD 0))).findSome? (s.placesOn b.slot b.parts.length ok fits)

/-- A swapped-out block is due back: a wait of it is over, or it has been out for a time slice of its node (R55). -/
def State.dueBack (s : State) (bid : Nat) (b : Block) (n : Node) : Bool :=
  ((s.liveWarps bid).any fun w => s.waitMet w.2) || (n.eff.slice != 0 && b.out + n.eff.slice ≤ s.gtime.toNat)

/-- A swapped-out block that is due back goes ahead of the unplaced blocks of its priority (R55). -/
def State.returnFirst (s : State) (n : Node) : Bool :=
  s.blocks.any fun b => b.2.slot == n.slot && !b.2.resident && !b.2.stopping
    && (tget s.nodes b.2.node).elim false fun m => m.eff.prio == n.eff.prio && s.dueBack b.1 b.2 m && (s.placeBack b.2 m).isSome

/-- BLOCK_PLACE: the next block of the first node in the scheduler's order that can be placed (R325). -/
def blockPlace (nid : Nat) (s : State) : State :=
  match tget s.nodes nid with
  | none => s
  | some n =>
    match n.launch, s.nextIndex nid n with
    | some l, some i =>
      let first := (s.schedOrder n.slot).find? fun x => (s.placeable x).isSome || (s.wantsBlock x.1 x.2 && (s.preemptFor x).isSome)
      if first.map (·.1) != some nid || s.returnFirst n then s
      else match s.placeable (nid, n) with
        | some xs => s.putBlock nid n l i xs
        | none =>
          match s.preemptFor (nid, n) with
          | some (s1, xs) => s1.putBlock nid n l i xs
          | none => s
    | _, _ => s

def execBlockPlace (node : Nat) (s : State) : Out := .next (blockPlace node s)

/-! ## Parked blocks (R55) -/

/-- The warp has been in `sgwait`, `waitw` or `pbwait` for 64 µs of gtime, which run on while its slot is switched out: R55 does not say
which clock counts, nor whether a gang switch interrupts the wait (DESIGN CHOICE, log 14). -/
def State.parkedWarp (s : State) (w : Warp) : Bool :=
  match w.wait with
  | some ⟨.sgwait _ _, _, t⟩ | some ⟨.waitw _ _ _ _, _, t⟩ | some ⟨.pbwait _ _ _ _, _, t⟩ => t + 64000 ≤ s.gtime.toNat
  | _ => false

/-- No line of the part waits for a migration (R104, R126). -/
def State.linesQuiet (s : State) (slot : Fin 8) (pid : Nat) : Bool :=
  (tget s.parts pid).elim true fun p => !p.l1.any (s.lineMoves slot)

/-- A block is parked and nothing of it is outstanding. -/
def State.parked (s : State) (bid : Nat) (b : Block) : Bool :=
  s.running == some b.slot && b.resident && !b.stopping && !(s.liveWarps bid).isEmpty
    && (s.warps.all fun w => w.2.block != bid || (w.2.ops.isEmpty && !s.backStalled w.1 && (w.2.ended || s.parkedWarp w.2)))
    && b.parts.all (s.linesQuiet b.slot)
    && s.copies.all fun c => c.2.finished || (tget s.warps c.2.wid).elim true fun w => w.block != bid

/-- A part leaves its core: its dirty private lines are written back, and every line but those held goes (R126, R398). -/
def State.clearPart (s : State) (pid : Nat) : State :=
  match tget s.parts pid with
  | none => s
  | some p =>
    (p.l1.foldl (fun t l => t.cleanLine pid l) s).modPart pid fun q => { q with l1 := q.l1.filter fun l => l.held.isSome }

/-- PARKED_BLOCK_SWAP: a parked block is swapped out, all parts together (R55, R126). -/
def parkedBlockSwap (bid : Nat) (s : State) : State :=
  match tget s.blocks bid with
  | none => s
  | some b =>
    if s.parked bid b then (b.parts.foldl (fun t p => t.clearPart p) s).modBlock bid fun x => { x with resident := false, out := s.gtime.toNat }
    else s

def execParkedBlockSwap (block : Nat) (s : State) : Out := .next (parkedBlockSwap block s)

/-- The warps of a part at their new rows, their waits begun anew. -/
def State.seatWarps (s : State) (pid : Nat) (y : Layout) : State :=
  { s with warps := s.warps.map fun x =>
      if x.2.part = pid then
        (x.1, { x.2 with rbase := (y.rbases.find? fun b => b.1 == x.1).elim x.2.rbase fun b => BitVec.ofNat 20 b.2
                         wait := x.2.wait.map fun k => { k with since := s.gtime.toNat } })
      else x }

/-- An open bin in its place among those of its core, oldest first. -/
def insertBin (b : Bin) : List Bin → List Bin
  | [] => [b]
  | x :: r => if x.core = b.core && b.since < x.since then b :: x :: r else x :: insertBin b r

/-- An open bin comes to another core: it takes the lowest free number there, or that of the oldest, which is released (R46). The manual
speaks of bins only where they stay on their core: that those of a part which is away stay with the core that it left, and that they come
with it, is the model's choice (log 63). -/
def State.moveBin (s : State) (slot : Fin 8) (core : Nat) (b : Bin) : State :=
  let s0 := { s with bins := s.bins.filter fun x => x != b }
  let bs := s0.binsOn slot core
  let put (t : State) (k : Nat) : State := { t with bins := insertBin { b with core := core, index := k } t.bins }
  match (List.range 32).find? fun k => !(bs.map (·.index)).contains k, bs with
  | some k, _ => put s0 k
  | none, x :: _ => put (s0.releaseBin slot x) x.index
  | none, [] => s0

/-- A part takes its new place; its copies with their locks, its bins and its released warps go with it (R126; log 63). -/
def State.seatPart (s : State) (slot : Fin 8) (pid : Nat) (core : Nat) (y : Layout) : State :=
  let s1 := (s.modPart pid fun p => { p with core := core, sbase := BitVec.ofNat 20 y.sbase, region := y.region }).seatWarps pid y
  let s2 : State := { s1 with
    copies := tmap s1.copies fun c => if (tget s1.warps c.wid).elim false fun w => w.part == pid then { c with core := core } else c
    released := s1.released.map fun r => if r.part = pid then { r with core := core, die := dieOfCore core } else r }
  (s2.bins.filter fun b => b.part == pid && b.core != core).foldl (fun t b => t.moveBin slot core b) s2

/-- A swapped-out block returns, where there is room for it. -/
def State.returnBlock (s : State) (bid : Nat) : Option State :=
  (tget s.blocks bid).bind fun b => ((tget s.nodes b.node).bind fun n => s.placeBack b n).map fun xs =>
    let s1 := (b.parts.zip xs).foldl (fun t x => t.seatPart b.slot x.1 x.2.1 x.2.2) s
    (s1.modBlock bid fun x => { x with resident := true, together := false }).reorder b.slot

/-- The blocks that return with a block: itself, or every sibling of its group that a gang switch left out with it (R52). -/
def State.returning (s : State) (bid : Nat) (b : Block) : List Nat :=
  if b.together then
    (s.blocks.filter fun x => x.2.together && !x.2.resident && !x.2.stopping
      && (x.2.member.map (·.1)) == (b.member.map (·.1)) && x.2.slot == b.slot).map (·.1)
  else [bid]

/-- SWAPPED_BLOCK_RETURN: a swapped-out block returns where there is room for it, and the siblings of a group that were left out together
only where there is for all of them (R36, R52, R55). -/
def swappedBlockReturn (bid : Nat) (s : State) : State :=
  match tget s.blocks bid with
  | none => s
  | some b =>
    if !s.onTurn b.slot || b.resident || b.stopping then s
    else ((s.returning bid b).foldl (fun t x => t.bind fun u => u.returnBlock x) (some s)).getD s

def execSwappedBlockReturn (block : Nat) (s : State) : Out := .next (swappedBlockReturn block s)

end Sys2Proof.Machine
end

