-- ==== Sys2Proof/Machine/ScanTest.lean ====
section
/-! DEFINITION. The four operations of `stest` and the end of a chunk (spec/09_control.md R240; spec/24_fencing.md R436;
spec/26_prog_scan_test.md R446, R447). -/

namespace Sys2Proof.Machine

/-- A block of priority 0 is ready for a held core in service: it waits for placement, no other core has room for it, and this one
would have (R447; log 60). -/
def State.wanted (s : State) (t : Nat) : Bool :=
  (s.coreFence t).holder.isSome && (s.coreFence t).state == .inService && s.running.elim false fun r =>
    (s.schedOrder r).any fun x => x.2.eff.prio == 0 && s.wantsBlock x.1 x.2 && (s.placeable x).isNone && (s.placeFreed x t).isSome

/-- A chunk is over: it has run to its end, or a block of priority 0 became ready for its target before. None becomes ready while a gang
switch is under way, so one that is ready then was so before (R447). -/
def State.chunkOver (s : State) (wid t k : Nat) (d : Fin 63) (w : Warp) : State :=
  if ({ s with armed := none }).wanted t then s.preemptHold t else s.endChunk wid t k d w

/-- Where a block is ready for a core on which no chunk runs, the hold has ended at once (R447). -/
def Ctx.yieldHold (c : Ctx) (t : Nat) : Ctx := if c.s.wanted t then c.with (c.s.endHold t) else c

def execStestHold (o : FormG) (s : State) : Out :=
  issue (.stestHold o) s fun c =>
    let t := (c.sv o.a).toNat
    let st := c.holdStatus t
    let u := c.finish (stestRegs o.d st 0)
    if st = 0 then u.modFence t fun f => { f.unvoted with holder := some c.w.block, matched := 0 } else u

/-- `.chunk`: a bad chunk number and a core that is not held end it at once; otherwise it runs for 10 µs. -/
def execStestChunk (o : FormG) (s : State) : Out :=
  issue (.stestChunk o) s fun x =>
    let t := (x.sv o.a).toNat
    let c := x.yieldHold t
    let k := (c.sv o.b).toNat
    if 19 < k then (c.finish (stestRegs o.d 7 0)).failAppeal t c.w.block
    else if !c.s.heldBy t c.w.block then c.finish (stestRegs o.d 4 0)
    else match destS o.d with
      | none => c.stall
      | some d => c.wait (.chunk t k d (c.s.gtime.toNat + 10000))

def execStestAppeal (o : FormG) (s : State) : Out :=
  issue (.stestAppeal o) s fun x =>
    let c := x.yieldHold (x.sv o.a).toNat
    let r := c.s.appeal (c.sv o.a).toNat c.w.block
    (c.with r.2).finish (stestRegs o.d r.1 0)

def execStestFree (o : FormG) (s : State) : Out :=
  issue (.stestFree o) s fun x =>
    let t := (x.sv o.a).toNat
    let c := x.yieldHold t
    if c.s.heldBy t c.w.block then ((c.finish (stestRegs o.d 0 0)).endHold t).gateCheck else c.finish (stestRegs o.d 4 0)

/-- STEST_CHUNK_END: the chunk's 10 µs are over. -/
def stestChunkEnd (wid : Nat) (s : State) : State :=
  match s.waiting wid with
  | some (w, ⟨.chunk t k d until_, _, _⟩) => if s.gtime.toNat < until_ then s else s.chunkOver wid t k d w
  | _ => s

def execStestChunkEnd (wid : Nat) (s : State) : Out := .next (stestChunkEnd wid s)

end Sys2Proof.Machine
end

