-- ==== Sys2Proof/Machine/GangSwitch.lean ====
section
/-! DEFINITION. Gang switches: the outgoing slot stops and leaves, the incoming one returns (spec/13_scheduling.md R328, R329, R331;
spec/05_ordering.md R126; spec/22_array_faults.md R411-R413; spec/23_work_faults.md R422; log 32). -/

namespace Sys2Proof.Machine

/-! ## The outgoing slot (R329 steps 1 to 3) -/

/-- The warps of a slot whose blocks are resident. -/
def State.warpsOf (s : State) (slot : Fin 8) : List (Nat × Warp) :=
  s.warps.filter fun w => w.2.slot == slot && (tget s.blocks w.2.block).elim false (·.resident)

/-- A scan chunk that runs at the target time runs to its end (R447). -/
def State.endChunkOf (s : State) (wid : Nat) : State :=
  match tget s.warps wid with
  | some w =>
    match w.wait with
    | some ⟨.chunk t k d _, _, _⟩ => s.chunkOver wid t k d w
    | _ => s
  | none => s

/-- Perform the outstanding operations of a warp, in ascending order of issue (R126). -/
def State.performOps (s : State) (wid : Nat) : State :=
  match tget s.warps wid with
  | none => s
  | some w => (w.ops.map (·.id)).foldl (fun t id => completeEvent wid id (fun _ => true) t) s

/-- End the chunks in progress of a copy; the next chunks are those that the engine starts on its return (R199). -/
def State.pauseCopy (s : State) (id : Nat) : State :=
  match tget s.copies id with
  | none => s
  | some c => c.running.foldl (fun t k => t.endCopyChunk id k (t.copyAt id k)) s

/-- The engine records the chunks that were not acknowledged (R331). -/
def Collective.pause (c : Collective) : Collective :=
  { c with again := if c.givenUp then [] else c.inflight ++ c.unacked ++ c.again, inflight := [], unacked := [] }

/-- Chunks in flight have been answered, or have been waited for for 16 µs (R331). -/
def State.collsQuiet (s : State) (o : Fin 8) (a : Armed) : Bool :=
  a.time + 16000 ≤ s.gtime.toNat || s.collectives.all fun c => !s.nodeIn o c.2.node || c.2.inflight.isEmpty

/-- Nanoseconds since the target time of a gang switch that is under way. -/
def State.overTime (s : State) : Nat := s.armed.elim 0 fun a => s.gtime.toNat - a.time

/-- Stack clocks that an instance has run for since it last began to run: up to the target time of a switch, from which on the stacks'
points stand still (R346, R413). -/
def State.ranFor (s : State) (i : Inst) : Nat :=
  ((s.stackClk[i.stack]?).getD 0 - s.overTime * 25 * (8 - ((s.stackPoints[i.stack]?).getD 0).toNat)) / 128 - i.startClk

/-- No access of the slot waits for a migration: what is outstanding can be performed, the chunks in progress can end, and the private
lines can be written back (R104, R126). -/
def State.settled (s : State) (o : Fin 8) : Bool :=
  ((s.warpsOf o).all fun w => !s.backStalled w.1 && w.2.ops.all fun x => !s.opStalls w.1 w.2 x)
    && (s.copies.all fun c => c.2.slot != o || c.2.finished || c.2.running.all fun k => !s.chunkStalls c.2 k)
    && s.parts.all fun p => !s.residentPart o p.2 || s.linesQuiet o p.1

/-- A trap of an access slice that is due at the boundary at which its warp stands is delivered there (R377). -/
def State.dueTrap (s : State) (wid : Nat) : State :=
  match tget s.warps wid with
  | none => s
  | some w =>
    if w.ended || w.stopped then s
    else match sliceFault w with
      | some t => s.deliver wid t w.pc false true
      | none => s

/-- The slot leaves: traps that are due are delivered, chunks of scan tests end, outstanding accesses are performed, copies pause, private lines are written back,
holds end, collectives pause, and the arrays' clocks stop (R126, R199, R329, R331, R377, R413, R446). -/
def State.leave (s : State) (o : Fin 8) : State :=
  let s0 := (s.warpsOf o).foldl (fun t w => t.dueTrap w.1) s
  let s1 := (s0.warpsOf o).foldl (fun t w => t.endChunkOf w.1) s0
  let s2 := (s1.warpsOf o).foldl (fun t w => t.performOps w.1) s1
  let s3 := (s2.copies.filter fun c => c.2.slot == o && !c.2.finished).foldl (fun t c => t.pauseCopy c.1) s2
  let s4 := (s3.parts.filter fun p => s3.residentPart o p.2).foldl (fun t p => t.clearPart p.1) s3
  let s5 := (s4.blocks.filter fun b => b.2.slot == o).foldl (fun t b => t.endHoldsOf b.1) s4
  { s5 with
    engine := []
    collectives := tmap s5.collectives fun c => if s5.nodeIn o c.node then c.pause else c
    insts := tmap s5.insts fun i =>
      if i.slot == o && i.state == .running then { i with clocks := i.clocks + s5.ranFor i } else i
    running := none }

/-! ## The incoming slot (R329 step 4) -/

/-- Every core of the block is in service. -/
def State.coresServe (s : State) (b : Block) : Bool :=
  b.parts.all fun p => (tget s.parts p).elim false fun q => s.coreUp q.core

/-- A core of the block has been fenced or removed since the target time (R435). -/
def State.fencedSince (s : State) (t : Nat) (b : Block) : Bool :=
  b.parts.any fun p => (tget s.parts p).elim false fun q => !s.coreUp q.core && t ≤ (s.coreFence q.core).changed

/-- The domains of the incoming blocks that would return to a core fenced during the switch are abandoned (R435). -/
def State.abandonLost (s : State) (n : Fin 8) (t : Nat) : State :=
  (s.blocks.filter fun b => b.2.slot == n && b.2.resident && s.fencedSince t b.2).foldl (fun u b =>
    (tget u.nodes b.2.node).elim u fun x => u.abandonDomain n x.eff.domain) s

/-- A block of a slot that would return to a core which no longer serves. -/
def State.displaced (s : State) (n : Fin 8) (b : Block) : Bool := b.slot == n && b.resident && !s.coresServe b

/-- A sample group returns as one unit: a sibling waits where another has to (R52). -/
def State.groupDisplaced (s : State) (n : Fin 8) (b : Block) : Bool :=
  b.member.elim false fun m => s.blocks.any fun x => x.2.member.elim false (·.1 == m.1) && s.displaced n x.2

/-- The slot returns. A block with a core that no longer serves waits for another, and with it the siblings of its group; one whose core
was fenced during the switch is abandoned (R36, R52, R435; log 32). -/
def State.arriveSlot (s : State) (n : Fin 8) (t : Nat) : State :=
  let now := s.slotTime n
  let s1 : State := { s with
    running := some n
    collectives := tmap s.collectives fun c => if s.nodeIn n c.node then c.fill now else c
    insts := tmap s.insts fun i => if i.slot == n && i.state == InstState.running then { i with startClk := s.stackClocks i.stack } else i }
  let s2 := s1.abandonLost n t
  let back (b : Block) : Block :=
    if b.slot == n && b.resident && s2.groupDisplaced n b then { b with resident := false, together := true }
    else if s2.displaced n b then { b with resident := false }
    else b
  State.reorder { s2 with blocks := tmap s2.blocks back } n

/-! ## The switch -/

/-- A slot number as the SWITCHED entry has it: 8 for none. -/
def slotCode (o : Option (Fin 8)) : Nat := o.elim 8 (·.val)

/-- The SWITCHED entry (R318). -/
def State.switchedEntry (s : State) (a : Armed) (out into : Option (Fin 8)) (late : Bool) : State :=
  s.journalAdd (BitVec.ofNat 32 (0x80 + slotCode into * 256 + slotCode out * 4096)) (BitVec.ofNat 24 ((s.gtime.toNat - a.time) / 1000))
    (if late then 6 else 0) (BitVec.ofNat 64 a.time)

/-- The slot that an armed switch brings in. -/
def Armed.slot (a : Armed) : Option (Fin 8) := if h : a.incoming < 8 then some ⟨a.incoming, h⟩ else none

end Sys2Proof.Machine
end

