-- ==== Sys2Proof/Machine/ArrayLaunch.lean ====
section
/-! DEFINITION. Instances: `dlaunch`, `dsig` and `dstat`, the placing and loading of a queued instance, and its end
(spec/09_control.md R234-R236; spec/11_decoft_array.md R280, R286-R292; spec/22_array_faults.md R406, R410). -/

namespace Sys2Proof.Machine

/-! ## Launch and control from a warp (R234-R236) -/

/-- Instances of the context that a die holds and that have not started. -/
def State.queuedOn (s : State) (slot : Fin 8) (die : Nat) : Nat :=
  (s.insts.filter fun i => i.2.slot == slot && i.2.die == die && i.2.state == .queued).length

/-- The number of the context's next launch. -/
def State.nextLaunch (s : State) (slot : Fin 8) : Nat := (s.ctxs[slot]).elim 0 (·.nextLaunch)

/-- States are kept for the context's 1,024 most recent launches. -/
def State.forgetLaunches (s : State) (slot : Fin 8) : State :=
  { s with insts := s.insts.filter fun i =>
      i.2.slot != slot || i.2.state != .ended || i.2.handle.elim true fun n => s.nextLaunch slot ≤ n + 1024 }

/-- Instances of a node that have not started never start: they are aborted, and the node has left work unstarted (R416). -/
def State.abortQueued (s : State) (nid : Nat) : State :=
  let mine (i : Inst) : Bool := i.node == nid && i.state == .queued
  if s.insts.any fun i => mine i.2 then
    ({ s with insts := tmap s.insts fun i => if mine i then abortInst i else i }).modNode nid fun n => { n with spoiled := true }
  else s

/-- The launch is numbered, and its instances are queued. Those of a node under a drain never start. -/
def Ctx.launchArray (c : Ctx) (d : SOp) (image barrier param : DWord) (mask arg : Word) : State :=
  let slot := c.w.slot
  let n := c.s.nextLaunch slot
  let nid := (tget c.s.blocks c.w.block).elim 0 (·.node)
  let t := (c.finish (setS false d (BitVec.ofNat 32 (n % 65536)))).queueInsts mask fun k =>
    Inst.queued slot (some n) nid k image barrier param arg c.die
  let u := ({ t with ctxs := t.ctxs.set slot ((t.ctxs[slot]).map fun (x : Context) => { x with nextLaunch := n + 1 }) }).forgetLaunches slot
  if (tget u.nodes nid).elim false (·.draining) then u.abortQueued nid else u

/-- A right of an address that `dlaunch` passes on, and does not access: 0x04 or 0x05 where it is lacking. Lost data is met by the array
(R101, R234, R382). -/
def Ctx.launchRight (c : Ctx) (need : Need) (va : DWord) : State × Option (BitVec 8) :=
  match c.s.translate c.w.slot c.core c.die need va with
  | (s1, .error x) => (s1, if x = 0x0B then none else some x)
  | (s1, .ok _) => (s1, none)

/-- The checks of `dlaunch`, readiness, and then the release. -/
def Ctx.launchChecked (c : Ctx) (d : SOp) (image barrier param : DWord) (mask arg : Word) : State :=
  if image.toNat % 64 != 0 then c.raise 0x03 image
  else if barrier.toNat % 8 != 0 then c.raise 0x03 barrier
  else match c.launchRight .r image with
    | (s1, some x) => (c.with s1).raise x image
    | (s1, none) => match (c.with s1).launchRight .rw barrier with
      | (s2, some x) => (c.with s2).raise x barrier
      | (s2, none) => (c.with s2).release fun e => e.launchArray d image barrier param mask arg

def execDlaunch (d a : SOp) (s : State) : Out :=
  issue (.dlaunch d a) s fun c =>
    if !c.quiet || 1024 ≤ c.s.queuedOn c.w.slot c.die then c.stall
    else
      let r (k : Nat) : Word := sgetAt c.sregs a k
      let pair (k : Nat) : DWord := r (k + 1) ++ r k
      c.launchChecked d (pair 0) (pair 2) (pair 4) (r 6) (r 7)

/-- The instance belongs to the launch that a handle names. -/
def State.ofHandle (s : State) (slot : Fin 8) (h : Word) (i : Inst) : Bool :=
  i.slot == slot && i.handle.elim false fun n => n % 65536 == h.toNat && s.nextLaunch slot ≤ n + 1024

/-- A control token from `dsig.tok` reaches an instance, at once or when it starts. -/
def Inst.tokenIn (i : Inst) (v : Word) : Inst :=
  match i.state with
  | .queued => { i with early := i.early ++ [v] }
  | .running => if i.aborted then i else i.signal v
  | .ended => i

def execDsigTok (a b : SOp) (k : Word) (s : State) : Out :=
  issue (.dsigTok a b k) s fun c =>
    let t := c.finish id
    { t with insts := tmap t.insts fun i => if c.s.ofHandle c.w.slot (c.sv a) i then i.tokenIn (c.sv b) else i }

def execDsigAbort (a : SOp) (k : Word) (s : State) : Out :=
  issue (.dsigAbort a k) s fun c =>
    let t := c.finish id
    { t with insts := tmap t.insts fun i => if c.s.ofHandle c.w.slot (c.sv a) i then abortInst i else i }

/-- The word of `dstat` for an instance (R236). -/
def Inst.statWord (i : Inst) : Word :=
  match i.state with
  | .queued => 0
  | .running => 1
  | .ended => BitVec.ofNat 32 (2 + (if i.aborted then 4 else 0) + (if i.faulted then 8 + i.cause.toNat * 256 else 0))

def execDstat (o : FormG) (s : State) : Out :=
  issue (.dstat o) s fun c =>
    let stack := (c.sv o.b).toNat % 32
    let x := c.s.insts.find? fun i => c.s.ofHandle c.w.slot (c.sv o.a) i.2 && i.2.stack == stack
    c.finish (setS false o.d (x.elim 3 fun i => i.2.statWord))

/-! ## Images (R287, R309, R312) -/

/-- The length that a header's descriptors give an image (R309). -/
def imageLen (h : List Byte) : Nat :=
  (List.range (recField h 0 4 / 2 ^ 16 % 4 + 1)).foldl (fun o c =>
    let d := BitVec.ofNat 64 (recField h (0x20 + 8 * c) 8)
    let o1 := secEnd o (fld d 8 0) 128
    let o2 := secEnd o1 (fld d 19 9) 8
    let o3 := secEnd o2 (fld d 31 20) 8
    let o4 := secEnd o3 (fld d 39 32) 64
    secEnd (secEnd o4 (fld d 45 40) 64) (fld d 53 46) 8) 64

/-- `n` pieces of 64 bytes of an image, read through the MSC; none where a piece cannot be read. -/
def State.imagePieces (s : State) (i : Inst) (va : DWord) : Nat → State × Option (List Byte)
  | 0 => (s, some [])
  | n + 1 =>
    match s.portPlace i .r va with
    | (s1, .error _) => (s1, none)
    | (s1, .ok p) => match s1.portRead p 64 with
      | (s2, .error _) => (s2, none)
      | (s2, .ok bs) => match s2.imagePieces i (va + 64) n with
        | (s3, some r) => (s3, some (bs ++ r))
        | r => r

/-- The bytes of an image from memory: the header, and what its descriptors add. -/
def State.fetchImage (s : State) (i : Inst) : State × Option (List Byte) :=
  match s.imagePieces i i.image 1 with
  | (s1, some h) => if headerOk h then s1.imagePieces i i.image (imageLen h / 64) else (s1, some h)
  | r => r

/-- An entry of a base die's configuration cache. -/
def State.cached (s : State) (stack : Nat) (key : BitVec 8) (addr : DWord) : Option CacheEntry :=
  s.cache.find? fun e => e.stack == stack && e.key == key && e.addr == addr

/-- The cache with an entry used: it stands first, and the least recently used one of 16 goes. -/
def useCache (cache : List CacheEntry) (e : CacheEntry) : List CacheEntry :=
  let others := cache.filter fun x => !(x.stack == e.stack && x.key == e.key && x.addr == e.addr)
  let same := (others.filter fun x => x.stack == e.stack).take 15
  e :: same ++ others.filter fun x => x.stack != e.stack

/-- The bytes of an instance's image, from the cache or from memory. -/
def State.imageBytes (s : State) (i : Inst) : State × Option (List Byte) :=
  match s.ctxs[i.slot] with
  | none => (s, none)
  | some c =>
    match s.cached i.stack c.key i.image with
    | some e => ({ s with cache := useCache s.cache e }, some e.bytes)
    | none => match s.fetchImage i with
      | (s1, some bs) => ({ s1 with cache := useCache s1.cache ⟨i.stack, c.key, i.image, bs⟩ }, some bs)
      | r => r

/-! ## Placing (R280, R281, R286) -/

/-- Slabs in use on an array. -/
def State.slabsUsed (s : State) (slot : Fin 8) (stack : Nat) : List Nat :=
  (s.insts.filter fun i => i.2.slot == slot && i.2.stack == stack && i.2.state == .running).flatMap fun i =>
    (List.range i.2.slabs).map (i.2.base + ·)

/-- The lowest-numbered run of `k` free slabs. -/
def State.freeRun (s : State) (slot : Fin 8) (stack k : Nat) : Option Nat :=
  (List.range (9 - k)).find? fun b => (List.range k).all fun j => !(s.slabsUsed slot stack).contains (b + j)

/-- Banks that an image waits for, with their tags. -/
def Image.waits (m : Image) : List (Nat × BitVec 8) :=
  ((m.ctxs.flatMap (·.events)).filter fun e => e.kind == 1).map fun e => (e.bank, e.tag)

/-- Banks that an image claims and does not wait for. -/
def Image.claims (m : Image) : List Nat :=
  (List.range (8 * m.slabs)).filter fun b => m.banks.getLsbD b && !m.waits.any fun w => w.1 == b

/-- A bank tile of an array is held by an instance, or handed over and not yet taken. -/
def State.bankTaken (s : State) (slot : Fin 8) (stack tile : Nat) : Bool :=
  (s.insts.any fun i => i.2.slot == slot && i.2.stack == stack && i.2.banksHeld.any fun b => b.2 == tile)
    || s.handOvers.any fun h => h.slot == slot && h.stack == stack && h.bank == tile

/-- The node's budget and its ancestors' allow `k` more slabs (R50). -/
def State.slabsAllowed (s : State) (nid k : Nat) : Bool := s.upward nid fun a n => s.slabsHeld a + k ≤ n.eff.slabs

/-- The codes of the units that an image gives a record in some context. -/
def Image.unitCodes (m : Image) : List Nat := (List.range 640).filter fun u => m.ctxs.any fun c => c.hasUnit u

/-- The instance as context 0 starts in its region. -/
def Inst.begin (i : Inst) (m : Image) (base clk : Nat) : Inst :=
  let j : Inst := { i with
    state := .running
    img := some m
    base := base
    startClk := clk
    early := []
    banksHeld := m.claims.map fun b => (b, 8 * base + b)
    banksWait := m.waits
    units := m.unitCodes.map fun u => (u, UnitSt.fresh) }
  i.early.foldl (fun x v => x.signal v) (m.unitCodes.foldl (fun x u => x.startPort u) j)

/-- A bank that was handed over under a tag that a new instance waits for reaches it. -/
def State.takeBanks (s : State) (n : Nat) (i : Inst) : State :=
  i.banksWait.foldl (fun t b =>
    match t.handOvers.find? fun h => h.slot == i.slot && h.stack == i.stack && h.tag == b.2 with
    | none => t
    | some h => ({ t with handOvers := t.handOvers.erase h }).modInst n fun x =>
        { x with banksHeld := x.banksHeld ++ [(b.1, h.bank)], banksWait := x.banksWait.erase b }) s

/-- The oldest instance that waits for an array. -/
def State.firstQueued (s : State) (slot : Fin 8) (stack : Nat) : Option Nat :=
  (s.insts.find? fun i => i.2.slot == slot && i.2.stack == stack && i.2.state == .queued && !i.2.aborted && !i.2.faulted).map (·.1)

/-- Place an instance of an accepted image where there is room. It waits while a bank of its region that it claims is still held after
a hand-over, or handed over and not taken: R280 gives it the bank's token at its start (DESIGN CHOICE, log 69). -/
def State.placeInst (s : State) (n : Nat) (i : Inst) (m : Image) : State :=
  match s.freeRun i.slot i.stack m.slabs with
  | none => s
  | some b =>
    if !s.slabsAllowed i.node m.slabs || m.claims.any fun x => s.bankTaken i.slot i.stack (8 * b + x) then s
    else
      let j := i.begin m b (s.stackClocks i.stack)
      (s.modInst n fun _ => j).takeBanks n j

/-- DECOFT_INSTANCE_START: the oldest queued instance of an array is placed, its image loaded and context 0 started. -/
def instanceStart (n : Nat) (s : State) : State :=
  match tget s.insts n with
  | none => s
  | some i =>
    if !s.onTurn i.slot || s.firstQueued i.slot i.stack != some n || (tget s.nodes i.node).elim false (s.barred i.node) then s
    else match s.imageBytes i with
      | (s1, none) => s1.modInst n fun x => { x with faulted := true, cause := 0x01 }
      | (s1, some bs) => match imageOf bs i.param with
        | none => s1.modInst n fun x => { x with faulted := true, cause := 0x01 }
        | some m => s1.placeInst n i m

def execDecoftInstanceStart (inst : Nat) (s : State) : Out := .next (instanceStart inst s)

/-! ## The end of an instance (R290, R406, R410) -/

/-- A route between two units of the running contexts, and whether it is full. -/
structure Link where
  src : Nat
  dst : Nat
  full : Bool
  deriving DecidableEq, Repr

/-- The routes on which a unit sends in its running context: data routes to every copy of the operator at their end, and control
routes. A history route is full with 64 entries (R284). -/
def Inst.linksOf (i : Inst) (u : Nat) : List Link :=
  let c := i.running u
  match i.ctxAt c with
  | none => []
  | some x =>
    (((x.routes.mapIdx fun k r => (chanKey c k, r)).filter fun l => l.2.su == x.lead u).flatMap fun l =>
        (x.copiesOf l.2.du).map fun v => ⟨u, v, i.full l.1⟩)
      ++ (x.ctls.filter fun t => t.kind != 2 && t.su == u).map fun t =>
        ⟨u, t.du, t.kind == 1 && decide (64 ≤ ((tget i.ctl (ctlKey c t.du t.di)).getD []).length)⟩

/-- The routes of all units. -/
def Inst.links (i : Inst) : List Link := (i.units.map (·.1)).flatMap i.linksOf

/-- Units that a faulted unit reaches: they freeze (R406). -/
def frozenFrom (ls : List Link) : Nat → List Nat → List Nat
  | 0, xs => xs
  | f + 1, xs => frozenFrom ls f (ls.foldl (fun ys l => if ys.contains l.src then addNew l.dst ys else ys) xs)

/-- Nothing is on its way to a unit. -/
def Inst.nothingComes (i : Inst) (u : Nat) : Bool := (i.insOf u).all fun p => (i.inKey u p).elim true fun k => (i.chan k).transit.isEmpty

/-- A port can do nothing: its output is full, or it has nothing in hand and lacks a token. -/
def Inst.portIdle (i : Inst) (u : Nat) : Bool :=
  !i.accepts u (i.outsOf u)
    || (tget i.ports u).elim true fun st => st.items.isEmpty && st.buf.isEmpty && (i.insOf u).any fun p => (i.head u p).isNone

/-- A unit can do nothing as its inputs and outputs stand. -/
def Inst.idle (i : Inst) (u : Nat) : Bool :=
  i.nothingComes u && (if u < 512 then (i.fuTurn u).1 == i else i.portIdle u)

/-- Units held by those that no longer act: an idle unit with a full route to one of them, or that waits for what one of them would send
(R268, R406; log 16). -/
def Inst.heldBack (i : Inst) (ls : List Link) (idle : List Nat) : Nat → List Nat → List Nat
  | 0, xs => xs
  | f + 1, xs => i.heldBack ls idle f (idle.foldl (fun ys u =>
      if ls.any fun l => (l.src == u && l.full && ys.contains l.dst) || (l.dst == u && ys.contains l.src) then addNew u ys else ys) xs)

/-- Every unit of a faulted instance has passed its final marker, is frozen, or is held, and no bank has a request to serve
(R406). -/
def Inst.stuck (i : Inst) : Bool :=
  let n := i.units.length
  let ls := i.links
  let frozen := frozenFrom ls n ((i.units.filter fun u => u.2.faulted).map (·.1))
  let still := i.heldBack ls ((i.units.map (·.1)).filter i.idle) n frozen
  (i.bankWork.all fun w => (i.bankQueue w.1).isEmpty) && i.units.all fun u => still.contains u.1 || i.finished u.1 u.2

/-- Every unit has finished the context that it runs, with no select pending (R290, R292). -/
def Inst.complete (i : Inst) : Bool := i.units.all fun u => i.finished u.1 u.2 && u.2.select.isNone

/-- The status with which an instance may end now. -/
def Inst.ending (i : Inst) : Option Nat :=
  match i.state with
  | .ended => none
  | .queued => if i.aborted then some 1 else if i.faulted then some 2 else none
  | .running => if i.aborted then some 1 else if i.faulted then (if i.stuck then some 2 else none) else if i.complete then some 0 else none

/-- The completion record (R290). -/
def Inst.record (i : Inst) (status clocks : Nat) : List Byte :=
  leBytes 32 (i.result.elim 0 (·.payload.toNat)) ++ leBytes 1 status ++ leBytes 1 (i.result.elim 0 (·.fill))
    ++ leBytes 1 (if status = 2 then i.cause.toNat else 0) ++ leBytes 5 0 ++ leBytes 8 clocks ++ leBytes 8 i.tokens ++ leBytes 8 0

/-- An array's master identifier (R339). -/
def arrayMaster (stack : Nat) : Nat := 2112 + stack

/-- Increment the barrier word, as an atomic addition of 1 (R119, R290). A page under migration stalls it (R104). -/
def State.raiseBarrier (s : State) (slot : Fin 8) (stack va : Nat) : State :=
  match s.ctxWalk slot va with
  | (s1, none) => s1
  | (s1, some p) =>
    if !s1.mayTouch (some (arrayMaster stack)) .rw p then s1
    else match (if p.mig && p.tier ≤ 1 then s1.migration else none) with
      | some m => { s1 with migration := some { m with stalled := m.stalled ++ [⟨.module, p.pa, 8, .atom .add 1, []⟩] } }
      | none =>
        let a := s1.ask p
        match (a.2.ioRequest p).readAt a.1 8 with
        | (.bytes bs, s2) => (s2.writeAt p (leBytes 8 (leNat bs + 1))).2
        | (_, s2) => s2.storeLost a.1 (leBytes 8 (s2.load p.loc 8 + 1))

/-- Write a bank tile to zero. -/
def State.zeroBank (s : State) (slot : Fin 8) (stack tile : Nat) : State :=
  let a := bankLoc slot.val stack tile 0
  let n := 0x20000
  { s with
    mem := ⟨s.mem.cells.filter fun c => c.1 < a || a + n ≤ c.1⟩
    bad := s.bad.filter fun x => x < a || a + n ≤ x }

/-- The stack clocks of an instance at its end: from its placement on, the clock in which it began among them (R290; log 31). -/
def State.clocksOf (s : State) (i : Inst) : Nat :=
  if i.state = .running && s.running == some i.slot then i.clocks + s.ranFor i + 1 else i.clocks

/-- The instance ends with a status: its completion record is written, the barrier word incremented, and its banks return to the
array. -/
def State.endInst (s : State) (n : Nat) (i : Inst) (st : Nat) : State :=
  let clocks := s.clocksOf i
  let s1 := s.storeVa i.slot (i.param.toNat + 64 * i.stack) (i.record st clocks) (some (arrayMaster i.stack))
  let s2 := s1.raiseBarrier i.slot i.stack i.barrier.toNat
  (i.banksHeld.foldl (fun t b => t.zeroBank i.slot i.stack b.2) s2).modInst n fun x =>
    { x with
      state := .ended
      faulted := st = 2
      cause := if st = 2 then x.cause else 0
      clocks := clocks
      units := []
      ports := []
      chans := []
      ctl := []
      arrivals := []
      early := []
      bankWork := []
      bankLast := []
      banksHeld := []
      banksWait := []
      img := none }

/-! ## The start of a switch (R411) -/

/-- The banks perform the requests that an instance has in their network. -/
def State.endBankWork (s : State) (n : Nat) (i : Inst) : State :=
  (i.bankWork.flatMap fun w => (i.bankQueue w.1).map (·.bank)).foldl (fun t b => bankAccess n b t) s

/-- The ports of an instance complete their requests in flight. -/
def State.endPortReads (s : State) (n : Nat) (i : Inst) : State :=
  i.ports.foldl (fun t p => (List.range p.2.items.length).foldl (fun u _ => streamDataReturn n (p.1 - 512) u) t) s

/-- Firings in progress and requests in flight of a slot's instances are completed (R411). -/
def State.endFirings (s : State) (o : Fin 8) : State :=
  (s.insts.filter fun x => x.2.slot == o).foldl (fun t x => (t.endBankWork x.1 x.2).endPortReads x.1 x.2) s

/-- INSTANCE_COMPLETE. While a migration would stall the completion record or the barrier word, the instance waits (R119). -/
def instanceComplete (n : Nat) (s : State) : State :=
  match tget s.insts n with
  | none => s
  | some i =>
    if !s.onTurn i.slot || s.pageMoves i.slot (i.param.toNat + 64 * i.stack) 64 || s.pageMoves i.slot i.barrier.toNat 8 then s
    else match i.ending with
      | none => s
      | some st => s.endInst n i st

def execInstanceComplete (inst : Nat) (s : State) : Out := .next (instanceComplete inst s)

end Sys2Proof.Machine
end

