-- ==== Sys2Proof/Machine/Control.lean ====
section
/-! DEFINITION. Branches, calls, loops, divergence, the ends of streams, and traps raised by instructions
(spec/06_encoding.md R139; spec/09_control.md R207-R215, R238, R239; spec/19_fault_model.md R374). -/

namespace Sys2Proof.Machine

/-! ## Targets (R139) -/

/-- The target of an offset: the instruction's address plus four times the offset. -/
def Ctx.target (c : Ctx) (off : BitVec 20) : DWord := c.pc + (off.signExtend 64) * 4

/-- A target outside the 55-bit address space. -/
def badTarget (t : DWord) : Bool := t.toNat / 2 ^ 55 != 0

/-- `body` with the target, which traps when it lies outside the address space. -/
def Ctx.withTarget (c : Ctx) (off : BitVec 20) (body : DWord → State) : State :=
  let t := c.target off
  if badTarget t then c.raise 0x04 t else body t

/-! ## Branches, calls and loops (R207-R210) -/

def execBra (off : BitVec 20) (s : State) : Out :=
  issue (.bra off) s fun c => c.withTarget off fun t => c.finishAt t id

def execBcc (cc : Cond) (off : BitVec 20) (a b : SOp) (k : Word) (s : State) : Out :=
  issue (.bcc cc off a b k) s fun c =>
    if icond cc (c.sv a) (c.sv b) then c.withTarget off fun t => c.finishAt t id else c.finish id

def execCall (off : BitVec 20) (s : State) : Out :=
  issue (.call off) s fun c => c.withTarget off fun t =>
    let link := c.pc + 4
    c.finishAt t fun w => setSreg (setSreg w 60 (link.extractLsb' 0 32)) 61 ((link.extractLsb' 32 23).setWidth 32)

def execRet (a : SOp) (s : State) : Out :=
  issue (.ret a) s fun c =>
    let t := c.sv64 a
    if badTarget t then c.raise 0x04 t
    else if t.toNat % 4 != 0 then c.raise 0x03 t
    else c.finishAt t id

/-- The counter register of `loop`. -/
def loopReg (n : Fin 16) : SOp := .s ⟨n.val, by omega⟩

def execLoop (n : Fin 16) (off : BitVec 20) (s : State) : Out :=
  issue (.loop n off) s fun c =>
    let v := c.sv (loopReg n) - 1
    if v = 0 then c.finish (setS c.slice (loopReg n) v)
    else c.withTarget off fun t => c.finishAt t (setS c.slice (loopReg n) v)

def execNop (s : State) : Out := issue .nop s fun c => c.finish id

/-- `split` waits until the warp's slice has ended (R43). -/
def execSplit (off : BitVec 20) (s : State) : Out :=
  issue (.split off) s fun c =>
    if c.w.slice.isSome then c.stall
    else c.withTarget off fun t => c.finish fun w =>
      { w with slice := some { pc := t, sregs := w.sregs, badSregs := w.badSregs, fault := none, stopped := false } }

/-! ## Divergence (R211-R214) -/

/-- Most entries of a divergence stack: 16 held and 64 spilled. -/
def stackRoom : Nat := 80

/-- Push an entry, or trap when the stack is full. -/
def Ctx.pushing (c : Ctx) (e : DivEntry) (body : (Warp → Warp) → State) : State :=
  if stackRoom ≤ c.w.stack.length then c.raise 0x13 80 else body fun w => { w with stack := e :: w.stack }

def execRcv (off : BitVec 20) (s : State) : Out :=
  issue (.rcv off) s fun c => c.withTarget off fun t => c.pushing (.reconv t c.w.path c.w.paths) fun f => c.finish f

/-- The taken path runs first: more lanes first, on equal counts the lower address, on equal addresses the taken path (R213). -/
def takenFirst (t n : Mask) (target next : DWord) : Bool :=
  lanesIn n < lanesIn t || (lanesIn n == lanesIn t && target.toNat ≤ next.toNat)

/-- The first path of a divergence runs under a fresh name (R110). -/
def startPath (m : Mask) (names : List Nat) (w : Warp) : Warp :=
  { w with path := m, paths := w.nextOp :: names, nextOp := w.nextOp + 1 }

def execBq (inv : Bool) (p : Fin 8) (off : BitVec 20) (s : State) : Out :=
  issue (.bq inv p off) s fun c =>
    let live := c.w.path &&& c.w.laneok
    let q := if inv then ~~~(predMask c.w p) else predMask c.w p
    let t := live &&& q
    let n := live &&& ~~~q
    if t = 0 then c.finish id
    else c.withTarget off fun tg =>
      if n = 0 then c.finishAt tg id
      else if c.w.stack.isEmpty then c.raise 0x08 0
      else
        let first := takenFirst t n tg c.nextPc
        let e := if first then DivEntry.path c.nextPc n c.w.paths else DivEntry.path tg t c.w.paths
        c.pushing e fun f =>
          c.finishAt (if first then tg else c.nextPc) fun w => startPath (if first then t else n) c.w.paths (f w)

/-- The entry at which `join` stops, with the stack below it: path entries with no live lane are skipped. -/
def joinAt (live : Mask) : List DivEntry → Option (DivEntry × List DivEntry)
  | [] => none
  | .reconv a m ns :: r => some (.reconv a m ns, r)
  | .path a m ns :: r => if m &&& live = 0 then joinAt live r else some (.path a m ns, r)

/-- An operation that is outstanding on a path which the reconvergence closes (R109 (e)). -/
def onClosedPath (names : List Nat) (o : OutOp) : Bool :=
  !o.slice && names.isSuffixOf o.paths && o.paths.length != names.length

/-- Close the executing path, with `f` applied to the warp first: the waiting path runs, or the paths reconverge once the accesses
made on them have been performed (R109 (e), R214; log 24). -/
def Ctx.closePath (c : Ctx) (live : Mask) (f : Warp → Warp) : State :=
  match joinAt live c.w.stack with
  | none => c.raise 0x08 0
  | some (.path a m ns, r) => c.finishAt a fun w => startPath m ns { f w with stack := r }
  | some (.reconv a m ns, r) =>
    if c.w.ops.any (onClosedPath ns) then c.stall
    else c.finishAt a fun w => { f w with stack := r, path := m, paths := ns }

def execJoin (s : State) : Out := issue .join s fun c => c.closePath c.w.laneok id

/-! ## exit (R45, R215) -/

/-- Nothing keeps the warp from ending: its counters are zero, and sq0 is empty or its slice has ended. -/
def State.drained (s : State) (wid : Nat) (w : Warp) : Bool :=
  w.ops.isEmpty && copiesOut (s.copiesOf wid) == 0 && (w.sq.isEmpty || w.slice.isNone)

/-- A warp that has executed `exit` waits, or ends. -/
def Ctx.exitWarp (c : Ctx) : State :=
  let s1 := c.s.coreEvent c.core 1
  if s1.drained c.wid c.w then s1.endWarp c.wid
  else s1.modWarp c.wid fun w => { w with wait := some ⟨.exitDrain, c.i.length, s1.gtime.toNat⟩ }

/-- `exit` on a path: its lanes are live no more, and then it acts as `join`. -/
def Ctx.exitPath (c : Ctx) : State :=
  let live := c.w.laneok &&& ~~~c.w.path
  if live = 0 then (c.s.coreEvent c.core 1).endWarp c.wid
  else c.closePath live fun w => { w with laneok := live }

def execExit (s : State) : Out :=
  issue .exit s fun c =>
    if c.slice then c.finish fun w => { w with slice := none }
    else if c.w.stack.isEmpty then c.exitWarp
    else c.exitPath

/-- EXIT_DRAIN_END: a warp that waits in `exit` ends once nothing keeps it (R215). -/
def exitDrainEnd (wid : Nat) (s : State) : State :=
  match tget s.warps wid with
  | none => s
  | some w =>
    match w.wait with
    | some ⟨.exitDrain, _, _⟩ => if s.running == some w.slot && s.drained wid w then s.endWarp wid else s
    | _ => s

def execExitDrainEnd (wid : Nat) (s : State) : Out := .next (exitDrainEnd wid s)

/-! ## Traps and returns (R238, R239, R374) -/

/-- A trap that resumes behind the instruction. -/
def Ctx.raiseNext (c : Ctx) (t : Trap) : State := (c.s.coreEvent c.core 1).deliver c.wid t c.nextPc false false

def execTrap (a : SOp) (code : BitVec 6) (k : Word) (s : State) : Out :=
  issue (.trap a code k) s fun c => c.raiseNext { code := 0x10, value := (c.sv a).setWidth 64, swcode := code }

def execBrk (s : State) : Out := issue .brk s fun c => c.raiseNext { code := 0x11, value := 0 }

def execEret (s : State) : Out :=
  issue .eret s fun c =>
    if c.w.hnd then (c.s.coreEvent c.core 1).eretWarp c.wid else c.raise 0x01 ((firstWord c.i).setWidth 64)

/-- A word of an unassigned point always traps at issue (R134). -/
def execUnassignedOpcode (w : Word) (s : State) : Out := issue (.unassignedOpcode w) s fun c => c.raise 0x01 (w.setWidth 64)

end Sys2Proof.Machine
end

