-- ==== Sys2Proof/Machine/Tree.lean ====
section
/-! DEFINITION. The RCB trees of SUBMIT, and what TEARDOWN and QUERY do to and say of nodes (spec/02_execution_model.md R48-R52;
spec/13_scheduling.md R319-R321; spec/23_work_faults.md R415-R419). -/

namespace Sys2Proof.Machine

/-! ## One RCB (R320) -/

/-- An RCB as read. -/
structure Rcb where
  addr : Nat
  kind : NodeKind
  ov : Nat
  own : Inherit
  parent : Nat
  child : Nat
  next : Nat
  body : Nat
  deps : List Nat
  kp0 : Nat
  kp1 : Nat
  kp2 : Nat
  kp3 : Nat
  deriving DecidableEq, Repr

/-- A kind that software may submit (R321). -/
def kindOf : Nat → Option NodeKind
  | 0 => some .region
  | 1 => some .launch
  | 2 => some .array
  | 4 => some .collective
  | 5 => some .selftest
  | _ => none

def kindCode : NodeKind → Nat
  | .region => 0
  | .launch => 1
  | .array => 2
  | .group => 3
  | .collective => 4
  | .selftest => 5

/-- The inheritable fields in five words. -/
def inheritOf (w0 w4 w8 wc w10 : Nat) : Inherit :=
  { prio := w0 / 2 ^ 8 % 16, cores := w4 % 2048, store := w8, slabs := wc % 512, slice := w10, domain := BitVec.ofNat 16 (w4 / 2 ^ 16) }

/-- The words' reserved bits are zero. -/
def inheritBits (w0 w4 wc : Nat) : Bool :=
  w0 / 2 ^ 22 == 0 && w0 / 2 ^ 12 % 16 == 0 && w0 / 2 ^ 4 % 16 == 0 && w4 / 2 ^ 11 % 32 == 0 && wc / 2 ^ 9 == 0

/-- Each field that applies is in range; `ov` says which apply. -/
def inheritOk (ov : Nat) (i : Inherit) : Bool :=
  let on (k : Nat) : Bool := ov / 2 ^ k % 2 == 1
  (!on 1 || (1 ≤ i.cores && i.cores ≤ 1536)) && (!on 2 || (1024 ≤ i.store && i.store ≤ 1048576)) && (!on 3 || i.slabs ≤ 256)

/-- The RCB in 256 bytes; none where a reserved field is nonzero or a field is out of range. -/
def rcbOf (addr : Nat) (bs : List Byte) : Option Rcb :=
  let f (off : Nat) : Nat := recField bs off 4
  let q (off : Nat) : Nat := recField bs off 8
  let w0 := f 0
  let ov := w0 / 2 ^ 16 % 64
  let own := inheritOf w0 (f 4) (f 8) (f 0xC) (f 0x10)
  let nd := f 0x14
  match kindOf (w0 % 16) with
  | none => none
  | some k =>
    if !inheritBits w0 (f 4) (f 0xC) || !inheritOk ov own || 8 < nd
        || (List.range 8).any (fun j => nd ≤ j && q (0x40 + 8 * j) != 0) || (bs.drop 0x98).any (· != 0)
        || ((k == .launch || k == .selftest) && 256 ≤ f 0x80) || (k == .region && q 0x38 != 0) then none
    else
      some { addr := addr, kind := k, ov := ov, own := own, parent := q 0x18, child := q 0x20, next := q 0x28, body := q 0x38,
             deps := (List.range nd).map fun j => q (0x40 + 8 * j), kp0 := f 0x80, kp1 := f 0x84, kp2 := q 0x88, kp3 := q 0x90 }

/-- Read an RCB: aligned, in the stack tier, with r and w (R320, R321). -/
def State.readRcb (s : State) (slot : Fin 8) (addr : Nat) : State × Option Rcb :=
  if addr % 256 != 0 then (s, none)
  else match s.recordPlace slot .rw addr with
    | (s1, none) => (s1, none)
    | (s1, some p) =>
      if p.tier != 0 then (s1, none)
      else match s1.readRecord slot .rw addr 64 4 with
        | (s2, some bs) => (s2, rcbOf addr bs)
        | (s2, none) => (s2, none)

/-! ## The tree (R321) -/

/-- Read RCBs in pre-order, from a list of addresses with the parents that link to them; none where a link breaks R321. -/
def State.readTree (s : State) (slot : Fin 8) : Nat → List (Nat × Nat) → List Rcb → State × Option (List Rcb)
  | 0, _, _ => (s, none)
  | _ + 1, [], acc => (s, some acc)
  | f + 1, (a, p) :: r, acc =>
    match s.readRcb slot a with
    | (s1, none) => (s1, none)
    | (s1, some n) =>
      if n.parent != p || (n.kind != .region && n.child != 0) || (acc.isEmpty && n.next != 0) || acc.any fun x => x.addr == a then
        (s1, none)
      else
        let kids := if n.child = 0 then [] else [(n.child, a)]
        let sibs := if n.next = 0 then [] else [(n.next, p)]
        s1.readTree slot f (kids ++ sibs ++ r) (acc ++ [n])

/-- The root of a node has a final status. -/
def State.rootFinal (s : State) (n : Node) : Bool := (s.statusOf n.root).isSome

/-- The newest accepted node of a slot at an address (R321). -/
def State.nodeAt (s : State) (slot : Fin 8) (addr : Nat) : Option (Nat × Node) :=
  (s.nodes.filter fun n => n.2.slot == slot && n.2.kind != .group && n.2.addr.toNat == addr).getLast?

/-- The address is that of a node of an accepted tree whose root is not final. -/
def State.inLiveTree (s : State) (slot : Fin 8) (addr : Nat) : Bool :=
  s.nodes.any fun n => n.2.slot == slot && n.2.kind != .group && n.2.addr.toNat == addr && !s.rootFinal n.2

/-- What a node of the tree waits for within it: its children and its dependencies. -/
def waitsFor (xs : List Rcb) (n : Rcb) : List Nat := (xs.filter fun x => x.parent == n.addr).map (·.addr) ++ n.deps

/-- No cycle: removing the nodes that wait for none of those left, again and again, leaves none. -/
def acyclic (all : List Rcb) : Nat → List Rcb → Bool
  | 0, xs => xs.isEmpty
  | f + 1, xs => acyclic all f (xs.filter fun n => (waitsFor all n).any fun d => xs.any fun x => x.addr == d)

/-- The tree may be accepted. -/
def State.treeOk (s : State) (slot : Fin 8) (xs : List Rcb) : Bool :=
  xs.all (fun n => !s.inLiveTree slot n.addr
      && n.deps.all fun d => xs.any (fun x => x.addr == d) || (s.nodeAt slot d).isSome)
    && acyclic xs xs.length xs

/-- Effective values under a parent's (R49). A slice of 0 is unlimited. -/
def effective (base : Inherit) (ov : Nat) (own : Inherit) : Inherit :=
  let on (k : Nat) : Bool := ov / 2 ^ k % 2 == 1
  { prio := if on 0 then max own.prio base.prio else base.prio
    cores := if on 1 then min own.cores base.cores else base.cores
    store := if on 2 then min own.store base.store else base.store
    slabs := if on 3 then min own.slabs base.slabs else base.slabs
    slice := if !on 4 then base.slice else if own.slice = 0 then base.slice else if base.slice = 0 then own.slice
      else min own.slice base.slice
    domain := if on 5 then own.domain else base.domain }

/-- The number of a node of the tree, or of an earlier one, by address. -/
def State.numberOf (s : State) (slot : Fin 8) (xs : List Rcb) (addr : Nat) : Option Nat :=
  match xs.findIdx? fun x => x.addr == addr with
  | some j => some (s.nextId + j)
  | none => (s.nodeAt slot addr).map (·.1)

/-- The node of an RCB. -/
def nodeOfRcb (slot : Fin 8) (root : Nat) (parent : Option Nat) (eff : Inherit) (deps : List Nat) (x : Rcb) : Node :=
  { slot := slot, addr := BitVec.ofNat 64 x.addr, kind := x.kind, parent := parent, root := root, eff := eff, deps := deps,
    body := BitVec.ofNat 64 x.body, kp0 := BitVec.ofNat 32 x.kp0, kp1 := BitVec.ofNat 32 x.kp1, kp2 := BitVec.ofNat 64 x.kp2,
    kp3 := BitVec.ofNat 64 x.kp3, launch := none, started := false, status := none, nextBlock := 0, totalBlocks := 0, nextDie := 0,
    spoiled := false, draining := false, killing := false, readySince := none, used := 0, turn := 0 }

/-- The nodes of a tree in pre-order, each after its parent. -/
def State.nodesOf (s : State) (slot : Fin 8) (defaults : Inherit) (xs : List Rcb) : List Rcb → List (Nat × Node) → List (Nat × Node)
  | [], acc => acc
  | x :: r, acc =>
    let parent := if x.parent = 0 then none else xs.findIdx? fun y => y.addr == x.parent
    let base := (parent.bind fun j => acc[j]?).elim defaults fun p => p.2.eff
    let n := nodeOfRcb slot s.nextId (parent.map (s.nextId + ·)) (effective base x.ov x.own) (x.deps.filterMap (s.numberOf slot xs)) x
    s.nodesOf slot defaults xs r (acc ++ [(s.nextId + acc.length, n)])

/-- Accept a tree: its root becomes running. A region without dependencies has nothing else to start; of any other root, the
dependencies, the budget and the scheduler's order still hold back the start of its own work and of its children (R321, R325;
DEDUCED, log 49). -/
def State.addTree (s : State) (slot : Fin 8) (defaults : Inherit) (xs : List Rcb) : State :=
  let ns := s.nodesOf slot defaults xs xs []
  let t := { s with nodes := s.nodes ++ ns, nextId := s.nextId + ns.length }
  match ns with
  | (k, n) :: _ =>
    let u := t.modNode k fun x => { x with running := true }
    if n.kind == .region && n.deps.isEmpty then u.started k else u
  | [] => t

/-! ## QUERY of a node (R319) -/

/-- The node that QUERY names: an accepted one, or a group by its record's address, which is kept until the root of its tree is final
(R52, R319). -/
def State.queryAt (s : State) (slot : Fin 8) (addr : Nat) : Option (Nat × Node) :=
  (s.nodes.filter fun n =>
    n.2.slot == slot && n.2.addr.toNat == addr && (n.2.kind != .group || !s.rootFinal n.2)).getLast?

/-- The summary of a node. -/
def State.nodeSummary (s : State) (nid : Nat) (n : Node) : Nat :=
  let blocks := (s.blocks.filter fun b => s.under nid b.2.node).length
  let state := if n.status.isSome then 3 else if n.started || n.running then 2 else if s.isReady n then 1 else 0
  min blocks 255 * 2 ^ 16 + n.eff.prio * 2 ^ 12 + kindCode n.kind * 2 ^ 8 + state * 16 + n.status.elim 0 statusCode

/-! ## TEARDOWN (R415-R419) -/

/-- The nodes of a subtree. -/
def State.subtree (s : State) (nid : Nat) : List (Nat × Node) := s.nodes.filter fun n => s.under nid n.1

/-- Nodes whose work has ended already keep their own final status: children before parents (R415). -/
def State.settleNodes (s : State) (nid : Nat) : State := ((s.subtree nid).map (·.1)).reverse.foldl (fun t k => nodeComplete k t) s

/-- How many nodes of a subtree became ABANDONED between two states. -/
def abandonedSince (before after : State) (nid : Nat) : Nat :=
  ((before.subtree nid).filter fun n => n.2.status.isNone && after.statusOf n.1 == some .abandoned).length

/-- One node of a subtree under a drain (R416). -/
def State.drainNode (s : State) (nid : Nat) : State :=
  match tget s.nodes nid with
  | none => s
  | some n =>
    if n.status.isSome || n.killing then s
    else if !n.started && !n.running then s.setStatus nid .abandoned
    else
      let s1 := (s.modNode nid fun x => { x with draining := true, spoiled := x.spoiled || !x.started || x.nextBlock < x.totalBlocks }).abortQueued nid
      match s.groups.find? fun g => g.2.node == nid && !g.2.done with
      | some g => s1.drainGroup g.1 n.nextBlock
      | none => s1

/-- TEARDOWN in drain mode. -/
def State.drain (s : State) (nid : Nat) : State := ((s.subtree nid).map (·.1)).foldl (fun t k => t.drainNode k) s

/-- The stopped work of a node of a slot that does not run is discarded at once, and its instances end (R324, R410). -/
def State.discardWork (s : State) (nid : Nat) : State :=
  let s1 := (s.blocks.filter fun b => b.2.node == nid).foldl (fun t b => t.removeBlock b.1 b.2) s
  let s2 := (s1.insts.filter fun i => i.2.node == nid && i.2.state != .ended).foldl (fun t i => t.endInst i.1 i.2 1) s1
  { s2 with collectives := s2.collectives.filter fun c => c.2.node != nid }

/-- TEARDOWN in kill mode: work is stopped, and in a slot that does not run it is over at once. -/
def State.kill (s : State) (slot : Fin 8) (nid : Nat) : State :=
  let ks := (s.subtree nid).map (·.1)
  let s1 := ks.foldl (fun t k => t.killNode k) s
  if s.running == some slot then s1
  else
    let s2 := ks.foldl (fun t k => t.discardWork k) s1
    ks.reverse.foldl (fun t k => (t.sweepGroup k).setStatus k .abandoned) s2

end Sys2Proof.Machine
end

