-- ==== Sys2Proof/Machine/Host.lean ====
section
/-! DEFINITION. The submission windows' commands and their journal entries (spec/13_scheduling.md R314-R319, R321, R323, R324, R328;
spec/04_memory.md R102, R103; spec/11_decoft_array.md R287; spec/23_work_faults.md R415-R417). -/

namespace Sys2Proof.Machine

/-! ## Commands (R314-R318) -/

/-- The results of R316. -/
def resOk : BitVec 8 := 0
def resBadcmd : BitVec 8 := 1
def resBadslot : BitVec 8 := 2
def resBadarg : BitVec 8 := 3
def resBusy : BitVec 8 := 4
def resNotfound : BitVec 8 := 5
def resLate : BitVec 8 := 6
def resRejected : BitVec 8 := 7

/-- Argument words of a window. -/
def State.argAt (s : State) (c : HostCmd) (n : Nat) : Nat := ((s.windows[c.win])[n]?).elim 0 (·.toNat)

/-- Two argument words. -/
def State.argPair (s : State) (c : HostCmd) (n : Nat) : Nat := s.argAt c n + 2 ^ 32 * s.argAt c (n + 1)

/-- Word 14 of a command; its reserved bits are ignored (R5, R316). -/
def cmdWord (c : HostCmd) (op : Nat) : Word :=
  BitVec.ofNat 32 (c.tag.toNat * 2 ^ 16 + c.slot.toNat * 2 ^ 8 + op)

/-- A window word with a value. -/
def State.setWindow (s : State) (w : Fin 16) (n : Nat) (v : Word) : State :=
  { s with windows := s.windows.set w ((s.windows[w]).setIfInBounds n v) }

/-- Word 15 once the window's last command has the sequence number of the next entry. -/
def State.seqWord (s : State) : Word := BitVec.ofNat 32 (s.nextSeq % 2 ^ 31)

/-- A command's entry, with what it does. -/
def State.answer (s : State) (c : HostCmd) (op : Nat) (r : BitVec 8 × Nat × State) : State :=
  (r.2.2.setWindow c.win 15 r.2.2.seqWord).journalAdd (cmdWord c op) (BitVec.ofNat 24 r.2.1) r.1 (BitVec.ofNat 64 (s.argPair c 0))

/-- A command is refused: nothing but the journal changes (R316). -/
def State.refuse (s : State) (r : BitVec 8) : BitVec 8 × Nat × State := (r, 0, s)

/-- The words of a command's window. -/
def State.wordsAt (s : State) (c : HostCmd) : Vector Word 16 := s.windows[c.win]

/-- A window is busy from a command's submission until its entry. -/
def busyWord : Word := 0x80000000

/-- The window is busy. -/
def State.markBusy (s : State) (w : Fin 16) : State := s.setWindow w 15 (((s.windows[w])[15]) ||| busyWord)

/-- The command processor is held up: by a purge, or by a write of the host that a migration stalls and that the submission must
follow (R122, R318). -/
def State.held (s : State) : Bool := !s.purges.isEmpty || s.hostStalled

/-- A command arrives: where the processor is held up, or others wait, it waits in its turn with its window busy; else `k` takes it.
A write to a busy window is ignored (R314, R315). -/
def State.takeTurn (s : State) (c : HostCmd) (op : Nat) (k : State → State) : State :=
  if !s.booted then s
  else if s.queue.head? = some (c, op) then (if s.held then s else k { s with queue := s.queue.drop 1 })
  else if s.busyWindow c.win then s
  else if s.held || !s.queue.isEmpty then { s.markBusy c.win with queue := s.queue ++ [(c, op)] }
  else k s

/-- The slot that a command acts on must be resident. -/
def State.withSlot (s : State) (c : HostCmd) (f : Fin 8 → Context → BitVec 8 × Nat × State) : BitVec 8 × Nat × State :=
  if h : c.slot.toNat < 8 then
    match s.ctxs[c.slot.toNat] with
    | some x => f ⟨c.slot.toNat, h⟩ x
    | none => s.refuse resBadslot
  else s.refuse resBadslot

/-! ## CREATE and DESTROY (R323, R324) -/

/-- The context that the arguments describe; none where one is out of range or the key is in use. -/
def State.contextArgs (s : State) (c : HostCmd) : Option Context :=
  let a := s.argAt c
  let root := s.argPair c 0
  let save := s.argPair c 3
  let d := inheritOf (a 5) (a 6) (a 7) (a 8) (a 9)
  let weight (n : Nat) : Nat := if n = 0 then 1 else n
  if root % 65536 != 0 || !isStack root || a 2 / 2 ^ 8 != 0 || (s.ctxs.toList.any fun x => x.elim false fun y => y.key.toNat == a 2)
      || save % 2 ^ 29 != 0 || 2 ^ 42 < save + 2 ^ 32 || 5 < a 5 % 16 || !inheritBits (a 5) (a 6) (a 8) || !inheritOk 63 d || a 10 / 2 ^ 16 != 0
      || a 11 / 2 ^ 8 != 0 || 8 < a 11 % 16 || 8 < a 11 / 16 || a 12 != 0 || a 13 != 0 then none
  else
    some { key := BitVec.ofNat 8 (a 2), ptRoot := root, save := save, defaults := d, bintimer := BitVec.ofNat 16 (a 10),
           portWeight := BitVec.ofNat 4 (weight (a 11 % 16)), coreWeight := BitVec.ofNat 4 (weight (a 11 / 16)),
           quiesced := false, time := 0, nextLaunch := 0 }

def createCmd (c : HostCmd) (s : State) : BitVec 8 × Nat × State :=
  if h : c.slot.toNat < 8 then
    if (s.ctxs[c.slot.toNat]).isSome then s.refuse resBadslot
    else match s.contextArgs c with
      | none => s.refuse resBadarg
      | some x => (resOk, 0, { s with ctxs := s.ctxs.set c.slot.toNat (some x) })
  else s.refuse resBadslot

/-- The slot's die scratchpads and bank tiles, as kinds and numbers of windows. -/
def slotWindow (slot : Nat) (loc : Nat) : Bool :=
  match locWindow loc with
  | some (1, n, _) => n / 8 == slot
  | some (3, n, _) => n / 32 == slot
  | _ => false

/-- Everything that a slot holds is gone. Images end with their context (R287). -/
def State.emptySlot (s : State) (k : Fin 8) (key : BitVec 8) : State :=
  let s0 := (s.blocks.filter fun b => b.2.slot == k).foldl (fun t b => t.endHoldsOf b.1) s
  { s0 with
    ctxs := s.ctxs.set k none
    mem := ⟨s0.mem.cells.filter fun c => !slotWindow k.val c.1⟩
    bad := s0.bad.filter fun a => !slotWindow k.val a
    cache := s.cache.filter fun e => e.key != key
    nodes := s.nodes.filter fun x => x.2.slot != k
    blocks := s.blocks.filter fun x => x.2.slot != k
    parts := s.parts.filter fun x => s.slotOfPart x.1 != some k
    warps := s.warps.filter fun x => x.2.slot != k
    copies := s.copies.filter fun x => x.2.slot != k
    bins := s.bins.filter fun x => s.slotOfPart x.part != some k
    released := s.released.filter fun x => x.slot != k
    groups := s.groups.filter fun x => x.2.slot != k
    collectives := s.collectives.filter fun x => !s.nodeIn k x.2.node
    insts := s.insts.filter fun x => x.2.slot != k
    handOvers := s.handOvers.filter fun x => x.slot != k }

def destroyCmd (c : HostCmd) (s : State) : BitVec 8 × Nat × State :=
  s.withSlot c fun k x =>
    if s.running == some k || s.armed.elim false (fun a => a.incoming == k.val) then s.refuse resBusy
    else (resOk, 0, s.emptySlot k x.key)

/-! ## QUIESCE (R316) -/

def quiesceCmd (c : HostCmd) (on : Bool) (s : State) : BitVec 8 × Nat × State :=
  s.withSlot c fun k x =>
    if s.argAt c 0 / 2 != 0 then s.refuse resBadarg else (resOk, 0, { s with ctxs := s.ctxs.set k (some { x with quiesced := on }) })

/-! ## SUBMIT (R321) -/

/-- More RCBs than the stack tier can hold. -/
def treeFuel : Nat := 2 ^ 35

def submitCmd (c : HostCmd) (s : State) : BitVec 8 × Nat × State :=
  s.withSlot c fun k x =>
    match s.readTree k treeFuel [(s.argPair c 0, 0)] [] with
    | (s1, none) => s1.refuse resRejected
    | (s1, some xs) => if s1.treeOk k xs then (resOk, 0, s1.addTree k x.defaults xs) else s1.refuse resRejected

/-! ## TEARDOWN (R415) -/

def teardownCmd (c : HostCmd) (f : Fin 8 → Nat → State → State) (s : State) : BitVec 8 × Nat × State :=
  s.withSlot c fun k _ =>
    if s.argAt c 2 / 2 != 0 then s.refuse resBadarg
    else match s.nodeAt k (s.argPair c 0) with
      | none => s.refuse resNotfound
      | some (n, x) =>
        if x.status.isSome then s.refuse resNotfound
        else
          let s1 := s.settleNodes n
          let s2 := f k n s1
          (resOk, min (abandonedSince s1 s2 n) 0xFFFFFF, s2)

/-- A drain of a node under a kill has no effect (R416). -/
def drainMode (n : Nat) (s : State) : State := if (tget s.nodes n).elim false (·.killing) then s else s.drain n

/-! ## ARM and DISARM (R328) -/

def armCmd (c : HostCmd) (s : State) : BitVec 8 × Nat × State :=
  let t := s.argPair c 0
  let n := s.argAt c 2
  if 8 < n then s.refuse resBadarg
  else if t < s.gtime.toNat + 10000 then s.refuse resLate
  else if s.armed.isSome then s.refuse resBusy
  else if n < 8 && ((s.ctxs[n]?).elim true (·.isNone) || s.running.elim false fun r => r.val == n) then s.refuse resBadslot
  else (resOk, 0, { s with armed := some ⟨t, n, false⟩ })

def disarmCmd (s : State) : BitVec 8 × Nat × State :=
  match s.armed with
  | some a => if s.gtime.toNat < a.time then (resOk, 0, { s with armed := none }) else s.refuse resNotfound
  | none => s.refuse resNotfound

/-! ## QUERY (R319) -/

/-- A bit for each slot. -/
def slotBits (f : Fin 8 → Bool) : Nat := ((List.finRange 8).map fun k => if f k then 2 ^ k.val else 0).foldl (· + ·) 0

/-- The summary of the slots. -/
def State.slotSummary (s : State) : Nat :=
  (if s.armed.isSome then 2 ^ 23 else 0) + s.running.elim 0 (fun r => 2 ^ 22 + r.val * 2 ^ 19)
    + slotBits (fun k => (s.ctxs[k]).elim false (·.quiesced)) * 2 ^ 8 + slotBits fun k => (s.ctxs[k]).isSome

/-- QUERY of the slots, and every QUERY whose arg0 is 2 or more. -/
def querySlotsCmd (c : HostCmd) (s : State) : BitVec 8 × Nat × State :=
  if s.argAt c 0 = 0 then (resOk, s.slotSummary, s) else s.refuse resBadarg

def queryNodeCmd (c : HostCmd) (s : State) : BitVec 8 × Nat × State :=
  s.withSlot c fun k _ =>
    match s.queryAt k (s.argPair c 2) with
    | some (n, x) => (resOk, s.nodeSummary n x, s)
    | none => s.refuse resNotfound

/-! ## CONFIG (R103) -/

def configCmd (c : HostCmd) (s : State) : BitVec 8 × Nat × State :=
  if s.argAt c 2 / 2 ^ 16 != 0 then s.refuse resBadarg
  else (resOk, 0, { s with
    counterTable := some (BitVec.ofNat 64 (s.argPair c 0))
    counterThreshold := BitVec.ofNat 16 (s.argAt c 2) })

/-! ## Deferred effects (R315, R329) -/

/-- What a command of a code does, for those whose effect may be deferred. -/
def commandOf (op : Nat) (c : HostCmd) (s : State) : BitVec 8 × Nat × State :=
  match op with
  | 1 => createCmd c s
  | 2 => destroyCmd c s
  | 3 => quiesceCmd c (s.argAt c 0 % 2 == 1) s
  | 4 => submitCmd c s
  | 5 => if s.argAt c 2 % 2 = 0 then teardownCmd c (fun _ n t => drainMode n t) s else teardownCmd c (fun k n t => t.kill k n) s
  | 10 => configCmd c s
  | _ => s.refuse resOk

/-- A command's effect with the words that its window held when it was accepted. -/
def State.applyDeferred (s : State) (d : Deferred) : State :=
  { (commandOf d.op d.cmd { s with windows := s.windows.set d.cmd.win d.words }).2.2 with windows := s.windows }

/-- The deferred effects, in journal order. -/
def State.applyAll (s : State) : State := s.deferred.foldl State.applyDeferred { s with deferred := [] }

/-! ## The command processor (R315) -/

/-- A TEARDOWN of a slot that does not run acts at once, also during a gang switch (R329, R419). -/
def State.actsAtOnce (s : State) (c : HostCmd) (op : Nat) : Bool :=
  op == 5 && s.running.elim true fun r => r.val != c.slot.toNat

/-- A command is validated and journaled, with its effect. While a gang switch is under way the effect is kept for its end; the command
is validated as the effects kept before it will leave the module, but a QUERY reports what stands (R315, R329, R419). -/
def State.accept (s : State) (c : HostCmd) (op : Nat) (f : State → BitVec 8 × Nat × State) : State :=
  if !s.switching || s.actsAtOnce c op then s.answer c op (f s)
  else
    let r := f (if op = 8 then s else s.applyAll)
    s.answer c op (r.1, r.2.1, if r.1 = resOk then { s with deferred := s.deferred ++ [⟨op, c, s.wordsAt c⟩] } else s)

/-- The command processor takes a command in its turn (R315, R318, R329). -/
def State.command (s : State) (c : HostCmd) (op : Nat) (f : State → BitVec 8 × Nat × State) : State :=
  s.takeTurn c op fun t => t.accept c op f

def execCreate (c : HostCmd) (s : State) : Out := .next (s.command c 0x01 (createCmd c))

def execDestroy (c : HostCmd) (s : State) : Out := .next (s.command c 0x02 (destroyCmd c))

/-- The command is the one that the row names: arg0[0] says which. -/
def State.quiesceTo (s : State) (c : HostCmd) (on : Bool) : State :=
  if (s.argAt c 0 % 2 == 1) == on then s.command c 0x03 (quiesceCmd c on) else s

def execQuiesce (c : HostCmd) (s : State) : Out := .next (s.quiesceTo c true)
def execQuiesceResume (c : HostCmd) (s : State) : Out := .next (s.quiesceTo c false)

def execSubmit (c : HostCmd) (s : State) : Out := .next (s.command c 0x04 (submitCmd c))

def execTeardownDrain (c : HostCmd) (s : State) : Out :=
  .next (if s.argAt c 2 % 2 = 0 then s.command c 0x05 (teardownCmd c fun _ n t => drainMode n t) else s)

def execTeardownKill (c : HostCmd) (s : State) : Out :=
  .next (if s.argAt c 2 % 2 = 1 then s.command c 0x05 (teardownCmd c fun k n t => t.kill k n) else s)

def execArm (c : HostCmd) (s : State) : Out := .next (s.command c 0x06 (armCmd c))

def execDisarm (c : HostCmd) (s : State) : Out := .next (s.command c 0x07 disarmCmd)

def execQuerySlots (c : HostCmd) (s : State) : Out := .next (if s.argAt c 0 = 1 then s else s.command c 0x08 (querySlotsCmd c))

def execQueryNode (c : HostCmd) (s : State) : Out := .next (if s.argAt c 0 = 1 then s.command c 0x08 (queryNodeCmd c) else s)

def execConfig (c : HostCmd) (s : State) : Out := .next (s.command c 0x0A (configCmd c))

/-! ## INVALIDATE (R102, R287, R318) -/

/-- What INVALIDATE does in its turn: arguments out of range are refused at once; otherwise the purge starts. -/
def invalidateBegin (c : HostCmd) (s : State) : State :=
  if s.argAt c 0 / 2 ^ 8 != 0 || s.argAt c 1 / 2 != 0 then s.answer c 0x09 (s.refuse resBadarg)
  else
    let p : Purge :=
      { word14 := cmdWord c 0x09, arg := BitVec.ofNat 64 (s.argPair c 0), key := BitVec.ofNat 8 (s.argAt c 0),
        images := s.argAt c 1 % 2 == 1, base := s.argPair c 2, len := s.argPair c 4, win := c.win }
    { s.markBusy c.win with purges := [p] }

def invalidateStart (c : HostCmd) (s : State) : State := s.takeTurn c 0x09 (invalidateBegin c)

def execInvalidate (c : HostCmd) (s : State) : Out := .next (invalidateStart c s)

/-- The address lies in the purge's range. -/
def Purge.has (p : Purge) (a : Nat) : Bool := p.base ≤ a && a < p.base + p.len

/-- The entry's pages meet the range. -/
def Purge.hits (p : Purge) (t : TlbEntry) : Bool :=
  t.key == p.key && t.page * 65536 < p.base + p.len && p.base < (t.page + t.pages) * 65536

/-- The slot's context has the key. -/
def State.keyOf (s : State) (slot : Fin 8) (key : BitVec 8) : Bool := (s.ctxs[slot]).elim false fun c => c.key == key

/-- The address lies in the range, or under a cached leaf that meets it. -/
def State.underPurge (s : State) (p : Purge) (a : Nat) : Bool := p.has a || s.tlb.any fun t => p.hits t && t.covers p.key a

/-- An access that may have used a translation that the purge takes away is outstanding, of those that `f` names (R102). Pending reads
of stream ports are waited for wherever they lie. -/
def State.usesOld (s : State) (p : Purge) (f : Acc → Bool := fun _ => true) : Bool :=
  (s.warps.any fun w => s.keyOf w.2.slot p.key && w.2.ops.any fun o => o.accs.any fun a => a.place.tier ≤ 2 && f a && s.underPurge p a.addr)
    || s.insts.any fun i => s.keyOf i.2.slot p.key && i.2.ports.any fun x => x.2.items.any fun y =>
        match y with
        | .read _ _ _ none => true
        | _ => false

/-- INVALIDATE_COMPLETE: no TLB holds an entry of the range and every access that used one has completed; the entry follows. A gang
switch under way comes first (R329). -/
def invalidateComplete (s : State) : State :=
  match s.purges with
  | [] => s
  | p :: _ =>
    if s.switching || s.usesOld p then s
    else
      let s1 : State := { s with
        purges := []
        tlb := s.tlb.filter fun t => !p.hits t
        cache := s.cache.filter fun e => !(p.images && e.key == p.key && p.has e.addr.toNat) }
      (s1.setWindow p.win 15 s.seqWord).journalAdd p.word14 0 resOk p.arg

def execInvalidateComplete (s : State) : Out := .next (invalidateComplete s)

/-! ## Unlisted commands (R316) -/

/-- A code that R316 lists. -/
def listedOp (op : BitVec 8) : Bool := 1 ≤ op.toNat && op.toNat ≤ 10

def execBadcmd (c : HostCmd) (op : BitVec 8) (s : State) : Out :=
  .next (if listedOp op then s else s.command c op.toNat fun t => t.refuse resBadcmd)

end Sys2Proof.Machine
end

