-- ==== Sys2Proof/Machine/LaneMem.lean ====
section
/-! DEFINITION. Per-lane memory instructions and those of the access slice (spec/08_memory_instr.md R185-R191, R195, R196). -/

namespace Sys2Proof.Machine

/-! ## Loads and stores -/

/-- A load from every active lane's address (R187). -/
def Ctx.loadOp (c : Ctx) (o : FormM) (off : Word) : State :=
  if c.full .loads then c.stall
  else c.checked c.act o.space .r (sizeBytes o.size) (c.ea o.space o.a off) fun d as =>
    d.push .loads (.load o.size o.d) o.space as d.act (if o.order then some (natScope o.space) else none) none

def execLd (o : FormM) (s : State) : Out := issue (.ld o) s fun c => c.loadOp o 0
def execLdx (o : FormM) (off : Word) (s : State) : Out := issue (.ldx o off) s fun c => c.loadOp o off

/-- The store data of a lane as a number (R188). -/
def Ctx.storeData (c : Ctx) (z : Size) (d : VOp) (l : Nat) : Nat :=
  let l := Fin.ofNat 32 l
  match z with
  | .d => (src64 c.w d l).toNat
  | .q16 => (srcAt c.w d 0 l).toNat + 2 ^ 32 * (srcAt c.w d 1 l).toNat + 2 ^ 64 * (srcAt c.w d 2 l).toNat
      + 2 ^ 96 * (srcAt c.w d 3 l).toNat
  | _ => (c.v d l).toNat

/-- An access with the part of a value that it writes. -/
def withData (v : Nat) (a : Acc) : Acc := { a with data := v / 256 ^ a.off % 256 ^ a.n }

/-- A store to every active lane's address (R188). The data is read at issue. -/
def Ctx.storeOp (c : Ctx) (o : FormM) (off : Word) : State :=
  if c.full .stores then c.stall
  else c.checked c.act o.space .w (sizeBytes o.size) (c.ea o.space o.a off) fun d as =>
    d.releaseIf o.order fun e =>
      e.push .stores .store o.space (as.map fun a => withData (e.storeData o.size o.d a.lane) a) e.act none
        (if o.order then some (natScope o.space) else none)

def execSt (o : FormM) (s : State) : Out := issue (.st o) s fun c => c.storeOp o 0
def execStx (o : FormM) (off : Word) (s : State) : Out := issue (.stx o off) s fun c => c.storeOp o off

/-! ## Atomics (R189-R191) -/

def ordAcq : Ord → Option Scope
  | .acq sc | .ar sc => some sc
  | _ => none
def ordRel : Ord → Option Scope
  | .rel sc | .ar sc => some sc
  | _ => none

/-- The value of an operand of an atomic in a lane, of the access width (R190). -/
def Ctx.atomArg (c : Ctx) (z : Size) (x : VOp) (l : Nat) : Nat :=
  let l := Fin.ofNat 32 l
  (if z = .d then (src64 c.w x l).toNat else (c.v x l).toNat) % 256 ^ sizeBytes z

/-- An atomic at every active lane's address: `arg` gives a lane's operand, `new` its new value (for `cas`). -/
def Ctx.atomOp (c : Ctx) (o : FormM) (od : Ord) (kind : OpKind) (arg new : Nat → Nat) : State :=
  if c.full .loads then c.stall
  else c.checked c.act o.space .rw (sizeBytes o.size) (c.ea o.space o.a 0) fun d as =>
    d.releaseIf (ordRel od).isSome fun e =>
      e.push .loads kind o.space (as.map fun a => { a with data := arg a.lane, new := new a.lane }) e.act (ordAcq od) (ordRel od)

def execAtom (o : FormM) (x : VOp) (op : AtomOp) (od : Ord) (s : State) : Out :=
  issue (.atom o x op od) s fun c => c.atomOp o od (.atom op o.size o.d) (c.atomArg o.size x) fun _ => 0

def execCas (o : FormM) (x e : VOp) (od : Ord) (s : State) : Out :=
  issue (.cas o x e od) s fun c => c.atomOp o od (.cas o.size o.d) (c.atomArg o.size x) (c.atomArg o.size e)

/-! ## The access slice (R195, R196) -/

/-- Lane address of `qld` and `qst`. -/
def Ctx.qea (c : Ctx) (o : FormQ) (l : Lane) : Nat :=
  if o.space = .g then (c.sv64 o.a + (c.sv o.b).signExtend 64 * BitVec.ofNat 64 l.val).toNat
  else (c.sv o.a + c.sv o.b * BitVec.ofNat 32 l.val).toNat

/-- Reserve the next slot of a queue (R196). -/
def reserve (n : Fin 4) (m : Mask) (w : Warp) : Warp :=
  { w with aq := w.aq.set n (w.aq[n] ++ [⟨w.nextTicket, false, Vector.replicate 32 0, m⟩]), nextTicket := w.nextTicket + 1 }

def execQld (n : Fin 4) (o : FormQ) (s : State) : Out :=
  issue (.qld n o) s fun c =>
    if 8 ≤ (c.w.aq[n]).length || c.full .loads then c.stall
    else c.checked c.w.laneok o.space .r (sizeBytes o.size) (c.qea o) fun d as =>
      d.push .loads (.qld n d.w.nextTicket o.size) o.space as d.w.laneok none none (reserve n d.w.laneok)

def execQst (o : FormQ) (s : State) : Out :=
  issue (.qst o) s fun c =>
    match c.w.sq with
    | [] => c.stall
    | e :: _ =>
      if c.full .stores then c.stall
      else
        let m := e.mask &&& c.w.laneok
        c.checked m o.space .w (sizeBytes o.size) (c.qea o) fun d as =>
          d.push .stores .store o.space (as.map fun a => withData (e.row[Fin.ofNat 32 a.lane]).toNat a) m none none
            fun w => { w with sq := w.sq.drop 1 }

end Sys2Proof.Machine
end

