-- ==== Sys2Proof/Machine/Links.lean ====
section
/-! DEFINITION. Timeouts and losses of the Loam and CXL links, and operating points (spec/14_fabric_and_system.md R335-R337, R346;
spec/21_memory_faults.md R394-R396). -/

namespace Sys2Proof.Machine

/-! ## Which requests are outstanding -/

/-- An access of an operation leaves the core: no L1 copy serves it (R94, R114, R387, R395). -/
def State.goesOut (s : State) (wid : Nat) (w : Warp) (o : OutOp) (a : Acc) : Bool :=
  let served := (tget s.parts w.part).any fun p => p.serves o.space wid a.addr a.n
  match o.space with
  | .p => !served
  | .g => opWrites o || !served
  | _ => false

/-- The accesses of an operation that wait for an answer from a place that `f` names: none while something goes before the
operation. -/
def State.waitingAccs (s : State) (wid : Nat) (w : Warp) (o : OutOp) (f : Place → Bool) : List Acc :=
  if mayComplete w o then o.accs.filter fun a => f a.place && !a.place.lost && !a.place.refused && s.goesOut wid w o a else []

/-- The requests of a copy's running chunks, by number, with the addresses of their units in global memory: reads of the source, and
writes of what has been read. -/
def Copy.requests (c : Copy) : List (Nat × Nat) :=
  c.running.flatMap fun k =>
    (if c.ssp == .g then (c.toRead k).map fun u => (readReq u.1, (u.2.head?).elim 0 (·.src)) else [])
      ++ (if c.dsp == .g then ((c.toWrite k).filter fun u => c.hasRead k u.2).map fun u => (writeReq u.1, (u.2.head?).elim 0 (·.dst))
          else [])

/-- The requests of a copy that wait for an answer from a place that `f` names, each with its place. -/
def State.waitingUnits (s : State) (c : Copy) (f : Place → Bool) : List (Nat × Place) :=
  c.requests.filterMap fun x => ((s.ctxPlace c.slot x.2).filter fun p => f p && !c.lost.contains (x.1, p.tier)).map fun p => (x.1, p)

/-- A request of an operation, or of a copy: its access, or its number with its place. -/
inductive Waiter where
  | acc (a : Acc)
  | unit (n : Nat) (p : Place)
  deriving DecidableEq, Repr

/-- Where the request goes. -/
def Waiter.place : Waiter → Place
  | .acc a => a.place
  | .unit _ p => p

/-- The requests of operation `op` of a warp, or of a copy of the warp with that number, that wait for an answer. -/
def State.waiters (s : State) (wid op : Nat) (f : Place → Bool) : List Waiter :=
  match tget s.warps wid with
  | none => []
  | some w =>
    match w.ops.find? fun o => o.id == op with
    | some o => (s.waitingAccs wid w o f).map .acc
    | none => (tget s.copies op).elim [] fun c => if c.wid = wid then (s.waitingUnits c f).map fun x => .unit x.1 x.2 else []

/-- The request that a timeout concerns: a free choice among those that wait. -/
def State.outstanding (s : State) (wid op : Nat) (f : Place → Bool) : Option Waiter :=
  let l := s.waiters wid op f
  l[(Config.word s.choices).toNat % l.length]?

/-- An access whose request gets no answer. -/
def Acc.lose (a : Acc) : Acc := { a with place := { a.place with lost := true } }

/-- An access that fails with its link. An atomic of peer memory is refused, and writes nothing (R336); of any other request it is open
whether it has been performed (R394, R396). -/
def OutOp.unlink (o : OutOp) (a : Acc) : Acc :=
  if a.place.tier = 2 && opReads o && opWrites o then { a with place := { a.place with refused := true } } else a.lose

/-- The request gets no answer: it has failed as link-failed, and what it asked for may have been done (R394, R396). -/
def State.loseRequest (s : State) (wid op : Nat) (x : Waiter) : State :=
  match x with
  | .acc a => s.modWarp wid fun w => { w with ops := w.ops.map fun o =>
      if o.id = op then { o with accs := o.accs.map fun b => if b = a then b.lose else b } else o }
  | .unit n p => s.modCopy op fun c => { c with lost := c.lost ++ [(n, p.tier)] }

/-- Every request that waits for an answer from a place that `f` names fails. -/
def State.loseAll (s : State) (f : Place → Bool) : State :=
  { s with
    warps := s.warps.map fun x => (x.1, { x.2 with ops := x.2.ops.map fun o =>
      let out := s.waitingAccs x.1 x.2 o f
      { o with accs := o.accs.map fun a => if out.contains a then o.unlink a else a } })
    copies := tmap s.copies fun c => { c with lost := c.lost ++ (s.waitingUnits c f).map fun x => (x.1, x.2.tier) } }

/-! ## Peer memory (R396) -/

/-- PEER_TIMEOUT: a peer request of an operation or a copy has had no acknowledgement for 1 ms. -/
def peerTimeout (wid op : Nat) (s : State) : State :=
  match s.outstanding wid op fun p => p.tier == 2 with
  | some x => ({ s with choices := s.choices + 1 }).loseRequest wid op x
  | none => s

def execPeerTimeout (wid op : Nat) (s : State) : Out := .next (peerTimeout wid op s)

/-! ## The capacity tier (R394, R395) -/

/-- The place lies on the 64 KiB page of a capacity address. -/
def onPage (pa : Nat) (p : Place) : Bool := p.tier == 1 && p.pa / 65536 == pa / 65536

/-- The place lies on a CXL port. -/
def onPort (q : Fin 8) (p : Place) : Bool := p.tier == 1 && capPortOf p.pa == some q

/-- CXL_TIMEOUT: a request of an operation or a copy to a page that is still available times out. Its page, or the whole port, is
unavailable from now on; a request that is out to the same page times out with it, unless it has been performed before. -/
def cxlTimeout (wid op : Nat) (s : State) : State :=
  match s.outstanding wid op fun p => p.tier == 1 && !(s.linkFails p).1 with
  | some x =>
    match capPortOf x.place.pa with
    | some q => ({ s with choices := s.choices + 1 }.loseAll (onPage x.place.pa)).losePage q (x.place.pa / 65536)
    | none => s
  | none => s

def execCxlTimeout (wid op : Nat) (s : State) : Out := .next (cxlTimeout wid op s)

/-- CXL_LINK_DOWN: every request outstanding on the port fails, and every page of it is unavailable from now on. -/
def cxlLinkDown (q : Fin 8) (s : State) : State :=
  let x := s.cxl[q]
  if x.down then s
  else
    let s1 := (s.loseAll (onPort q)).modCxl q fun y => { y with down := true }
    if x.unavailable then s1 else s1.memerr 6 q.val

def execCxlLinkDown (port : Fin 8) (s : State) : Out := .next (cxlLinkDown port s)

/-! ## Loam ports (R335) -/

/-- The place is a peer's, reached by a Loam port. -/
def onLoam (l : Fin 24) (p : Place) : Bool := p.tier == 2 && Config.route (Fin.ofNat 16384 p.module) == some l

/-- LOAM_LINK_DOWN: a request that is out on the port gets no acknowledgement (R396). -/
def loamLinkDown (p : Fin 24) (s : State) : State :=
  { s.loseAll (onLoam p) with loam := s.loam.set p { s.loam[p] with state := 0 } }

def execLoamLinkDown (port : Fin 24) (s : State) : Out := .next (loamLinkDown port s)

def loamLinkUp (p : Fin 24) (peer : Fin 16384) (s : State) : State :=
  { s with loam := s.loam.set p { s.loam[p] with state := 2, peer := peer } }

def execLoamLinkUp (port : Fin 24) (peer : Fin 16384) (s : State) : Out := .next (loamLinkUp port peer s)

/-! ## Operating points (R346) -/

/-- Point changes are held off from the target time of a gang switch until its SWITCHED entry. -/
def State.pointsHeld (s : State) : Bool := s.switching

/-- A point above its ceiling comes down to it. -/
def clampPoints (points ceilings : Vector (BitVec 3) 8) : Vector (BitVec 3) 8 :=
  Vector.ofFn fun d => if ceilings[d] < points[d] then ceilings[d] else points[d]

/-- Every die stands at its ceiling point. -/
def State.atCeilings (s : State) : Bool := (List.finRange 8).all fun d => s.corePoints[d] == s.ceilings[d]

/-- A stack's clock may be lowered: core clocks have been lowered first, or none can be (R26, R346; log 55). -/
def State.coresLowered (s : State) : Bool := s.atCeilings || s.corePoints.toList.any (· != 0)

/-- OPERATING_POINT_CHANGE. The cap alert comes when every die stands at its ceiling; the ceilings then give way to 7. -/
def operatingPointChange (p : PointOf) (s : State) : State :=
  match p with
  | .die n x => if s.pointsHeld || (s.ceilings[n]).toNat < x.toNat then s else { s with corePoints := s.corePoints.set n x }
  | .stack n x => if s.pointsHeld || (s.stackPoints[n] < x && !s.coresLowered) then s else { s with stackPoints := s.stackPoints.set n x }
  | .capAlert => if s.atCeilings then { s.alert with ceilings := Vector.replicate 8 7 } else s

def execOperatingPointChange (p : PointOf) (s : State) : Out := .next (operatingPointChange p s)

end Sys2Proof.Machine
end

