-- ==== Sys2Proof/Machine/Keccak.lean ====
section
/-! DEFINITION. SHAKE256 (spec/14_fabric_and_system.md R344), which the manual names and does not write out: the sponge of FIPS 202
(log 56). -/

namespace Sys2Proof.Machine

/-! ## Keccak-f[1600] -/

/-- The 25 lanes of a state: lane x, y stands at x + 5 y. -/
abbrev Lanes := Vector (BitVec 64) 25

/-- Steps along the orbit (x, y) → (y, 2 x + 3 y) that starts at lane 1, 0: the lanes in the order in which they are rotated. -/
def orbitLane : Nat → Nat × Nat
  | 0 => (1, 0)
  | t + 1 =>
    match orbitLane t with
    | (x, y) => (y, (2 * x + 3 * y) % 5)

/-- How far lane `k` is rotated: by the triangular number of its place on the orbit, lane 0 not at all. -/
def laneTurn (k : Nat) : Nat :=
  ((List.range 24).find? fun t => orbitLane t == (k % 5, k / 5)).elim 0 fun t => (t + 1) * (t + 2) / 2 % 64

/-- The register of the shift generator after `t` steps: bit 8 that is shifted out comes back at bits 0, 4, 5 and 6. -/
def shiftReg : Nat → BitVec 9
  | 0 => 1
  | t + 1 =>
    let r := shiftReg t <<< 1
    if r.getLsbD 8 then r ^^^ 0x171 else r

/-- The constant of a round: the generator gives its bits 2^j − 1, seven for each round. -/
def roundConst (round : Nat) : BitVec 64 :=
  BitVec.ofNat 64 (((List.range 7).map fun j => if (shiftReg (7 * round + j)).getLsbD 0 then 2 ^ (2 ^ j - 1) else 0).foldl (· + ·) 0)

/-- Lane `k` of a state, numbers beyond 24 counting on from 0. -/
def laneAt (a : Lanes) (k : Nat) : BitVec 64 := a[Fin.ofNat 25 k]

/-- Each column's parity is added to its neighbours. -/
def keccakTheta (a : Lanes) : Lanes :=
  let par : Vector (BitVec 64) 5 := Vector.ofFn fun x => laneAt a x.val ^^^ laneAt a (x.val + 5) ^^^ laneAt a (x.val + 10)
    ^^^ laneAt a (x.val + 15) ^^^ laneAt a (x.val + 20)
  let p (x : Nat) : BitVec 64 := par[Fin.ofNat 5 x]
  Vector.ofFn fun k => a[k] ^^^ p (k.val + 4) ^^^ (p (k.val + 1)).rotateLeft 1

/-- Lanes are rotated and move: the lane at x, y comes from x + 3 y, x. -/
def keccakRhoPi (a : Lanes) : Lanes :=
  Vector.ofFn fun k =>
    let j := Fin.ofNat 25 ((k.val % 5 + 3 * (k.val / 5)) % 5 + 5 * (k.val % 5))
    (a[j]).rotateLeft (laneTurn j.val)

/-- Rows are mixed: each lane with the two that follow it in its row. -/
def mixRows (a : Lanes) : Lanes :=
  Vector.ofFn fun k =>
    let next (d : Nat) : BitVec 64 := laneAt a (k.val / 5 * 5 + (k.val + d) % 5)
    a[k] ^^^ (next 2 &&& ~~~(next 1))

/-- One round. -/
def keccakRound (a : Lanes) (round : Nat) : Lanes :=
  let b := mixRows (keccakRhoPi (keccakTheta a))
  b.set 0 (b[0] ^^^ roundConst round)

/-- The permutation. -/
def keccakF (a : Lanes) : Lanes := (List.range 24).foldl keccakRound a

/-! ## The sponge -/

/-- Bytes that the sponge absorbs at once. -/
def shakeRate : Nat := 136

/-- A block of bytes added to a state. -/
def absorbBlock (a : Lanes) (bs : List Byte) : Lanes :=
  keccakF (Vector.ofFn fun k => a[k] ^^^ BitVec.ofNat 64 (leNat ((bs.drop (8 * k.val)).take 8)))

/-- Absorb `n` blocks. -/
def absorb (a : Lanes) (bs : List Byte) : Nat → Lanes
  | 0 => a
  | n + 1 => absorb (absorbBlock a (bs.take shakeRate)) (bs.drop shakeRate) n

/-- The message with the domain bits and the padding of SHAKE. -/
def shakePad (bs : List Byte) : List Byte :=
  let n := bs.length
  let total := (n / shakeRate + 1) * shakeRate
  if n + 1 = total then bs ++ [0x9F] else bs ++ [0x1F] ++ List.replicate (total - n - 2) 0 ++ [0x80]

/-- SHAKE256 of a byte string, taken to 512 bits; byte 0 is the least significant. -/
def shake256 (bs : List Byte) : BitVec 512 :=
  let a := absorb (Vector.replicate 25 0) (shakePad bs) (bs.length / shakeRate + 1)
  BitVec.ofNat 512 (leNat ((List.range 8).flatMap fun k => leBytes 8 (laneAt a k).toNat))

end Sys2Proof.Machine
end

