-- ==== Sys2Proof/Machine/Mailbox.lean ====
section
/-! DEFINITION. The mailbox and its requests, and module reset with the boot sequence (spec/14_fabric_and_system.md R334, R335,
R340-R346; spec/24_fencing.md R438). -/

namespace Sys2Proof.Machine

/-! ## The mailbox (R334) -/

/-- The doorbell word. -/
def State.doorbell (s : State) : Nat := s.load mgmtBase 4

/-- Argument word a`n` of a request. -/
def State.mailArg (s : State) (n : Nat) : Nat := s.load (mgmtBase + 0x40 + 4 * n) 4

/-- Two argument words. -/
def State.mailPair (s : State) (n : Nat) : Nat := s.mailArg n + 2 ^ 32 * s.mailArg (n + 1)

/-- A request waits for the management processor: a nonzero code with done clear. -/
def State.requested (s : State) : Bool := s.booted && s.doorbell % 256 != 0 && s.doorbell / 2 ^ 31 == 0

def mailOk : Nat := 0
def mailBadarg : Nat := 3
def mailRejected : Nat := 7
def mailBadsig : Nat := 8

/-- The bytes of a response: the request's tag at a place that the manual does not give, and free values (R334; log 18). -/
def State.responseBytes (s : State) : List Byte :=
  splice ((List.range 256).map (Config.byteAt s.choices)) ((Config.word s.choices).toNat % 255) (leBytes 2 (s.doorbell / 256))

/-- Post the response; done and result stand in the doorbell word, and vector 2 is raised. -/
def State.post (s : State) (result : Nat) : State :=
  let d := 2 ^ 31 + result * 2 ^ 24 + s.doorbell % 2 ^ 24
  { s with
    choices := s.choices + 1
    mem := (s.mem.write (mgmtBase + 0x100) s.responseBytes).write mgmtBase (leBytes 4 d)
    msix := s.msix ++ [2] }

/-- A request is handled: a result, and the state with its effect. -/
def State.mail (s : State) (want : Nat → Bool) (f : State → Nat × State) : State :=
  if s.requested && want (s.doorbell % 256) then (f s).2.post (f s).1 else s

/-- The codes that R334 lists. -/
def listedRequest (code : Nat) : Bool := 1 ≤ code && code ≤ 6

/-- A buffer that the management processor can write: populated memory (log 34). -/
def bufferOk (pa n : Nat) : Bool := populatedRange pa n && pa + n ≤ 2 ^ 47

/-- The management processor writes a buffer. -/
def State.writeBuffer (s : State) (pa : Nat) (bs : List Byte) : State := s.writePages .module (fun _ _ => true) (bs.length + 1) pa bs

/-- MAILBOX_BADARG. -/
def execMailboxBadarg (s : State) : Out := .next (s.mail (fun c => !listedRequest c) fun t => (mailBadarg, t))

/-! ## ATTEST (R344) -/

/-- The 64 bytes of a measurement register. -/
def measureBytes (m : BitVec 512) : List Byte := leBytes 64 m.toNat

/-- The digests of the records in force: the factory record's, and the field record's where there is one (R343, R344). -/
def State.recordDigests (s : State) : List (BitVec 512) := Config.factoryDigest :: s.fieldDigest.toList

def attest (s : State) : Nat × State :=
  let buf := s.mailPair 8
  if !bufferOk buf 32768 then (mailBadarg, s)
  else
    let report := Config.attestReport (s.bytesAt (mgmtBase + 0x40) 32) Config.moduleNumber.val s.measure.toList s.recordDigests
      s.gtime.toNat
    (mailOk, s.writeBuffer buf ((report ++ Config.reportSignature report).take 32768))

def execAttest (s : State) : Out := .next (s.mail (· == 1) attest)

/-! ## ACCESS (R340, R341) -/

/-- The fields of an entry that software writes. -/
def entryMask : Word := 0x0000FF0F

/-- The stalled request was admitted for a master identifier. -/
def Stalled.madeBy (x : Stalled) (s : State) (master : Nat) : Bool :=
  match x.who with
  | .warp wid => (tget s.warps wid).elim false fun w => s.coreOf w == master
  | .host => master / 16384 == 2
  | .peer m => master == 16384 + m
  | .module => 1536 ≤ master && master < 16384

/-- A read that an array's port has issued from a page of the target is outstanding. -/
def PItem.asks (target : Nat) : PItem → Bool
  | .read a _ _ none => placeTarget (physPlace a) == some target
  | _ => false

/-- A request that the old entry of a target admitted for a master is outstanding (R341). -/
def State.outFor (s : State) (target master : Nat) : Bool :=
  (s.insts.any fun i => 2112 + i.2.stack == master && i.2.ports.any fun p => p.2.items.any (PItem.asks target)) ||
  ((s.warps.any fun w => s.coreOf w.2 == master && w.2.ops.any fun o => o.accs.any fun a =>
      a.place.tier ≤ 2 && placeTarget a.place == some target)
    || s.migration.elim false fun m => m.stalled.any fun x => x.madeBy s master && placeTarget (physPlace x.addr) == some target)

/-- ACCESS: the entry is written, and until the response is posted each request is checked against the old one or the new one. The
response follows once no request is outstanding that the old one admitted (R341). -/
def access (s : State) : State :=
  let target := s.mailArg 0 % 128
  let master := s.mailArg 1 % 65536
  if 72 < target then s.post mailBadarg
  else match s.accessNew with
    | none => { s with accessNew := some (target * 65536 + master, BitVec.ofNat 32 (s.mailArg 2) &&& entryMask) }
    | some (k, e) =>
      if s.outFor (k / 65536) (k % 65536) then s
      else ({ s with accessNew := none, access := tset s.access k e }).post mailOk

def execAccess (s : State) : Out := .next (if s.requested && s.doorbell % 256 == 2 then access s else s)

/-! ## POWER (R346) -/

/-- Ceiling points, 3 bits for each die. -/
def ceilingsOf (a : Nat) : Vector (BitVec 3) 8 := Vector.ofFn fun d => BitVec.ofNat 3 (a / 2 ^ (3 * d.val))

/-- Points are not changed while a gang switch holds them off. -/
def power (s : State) : Nat × State :=
  let cap := s.mailArg 0
  let c := ceilingsOf (s.mailArg 1)
  if cap < 3000 || 12000 < cap || s.mailArg 1 / 2 ^ 24 != 0 then (mailBadarg, s)
  else
    (mailOk, { s with
      cap := BitVec.ofNat 14 cap
      ceilings := c
      corePoints := if s.pointsHeld then s.corePoints else clampPoints s.corePoints c })

def execPower (s : State) : Out := .next (s.mail (· == 3) power)

/-! ## RECORD (R343) -/

/-- A field record's changes are allowed: cores leave the map, floors rise, and nothing else differs from the records in force
(R343). -/
def State.recordAllowed (s : State) (bs : List Byte) : Bool :=
  Config.recordRest bs == Config.factoryRest && s.outOfMap.all (fun c => (Config.recordDrops bs).any fun d => d.val == c)
    && (List.finRange 5).all fun k => s.floors[k] ≤ (Config.recordFloors bs)[k]

def record (s : State) : Nat × State :=
  let a := s.mailPair 0
  let n := s.mailArg 2
  if !bufferOk a n then (mailBadarg, s)
  else
    let bs := s.bytesAt a n
    if s.unreadable a n || !Config.recordVerifies bs then (mailBadsig, s.meet a n)
    else if !s.recordAllowed bs then (mailRejected, s)
    else
      let s1 := (Config.recordDrops bs).foldl (fun (t : State) (c : Fin 1536) =>
        if t.outOfMap.contains c.val then t else t.removeCore c.val) s
      (mailOk, ({ s1 with floors := Config.recordFloors bs, fieldDigest := some (shake256 bs) } : State).gateCheck)

def execRecord (s : State) : Out := .next (s.mail (· == 4) record)

/-! ## COUNTERS (R345) -/

/-- Number of counters. -/
def counterCount : Nat := 25088

/-- The event codes of counter `k` that are not reserved go up to this one. -/
def lastEvent (k : Nat) : Nat := if k < 24576 then 6 else 4

/-- A select word asks for no reserved event and no reserved filter. -/
def selectOk (k sel : Nat) : Bool := sel / 256 % 256 ≤ lastEvent k && sel / 16 % 16 ≤ 8

/-- The select table. -/
def State.selectTable (s : State) (a : Nat) : List (Nat × Nat) := (List.range counterCount).map fun k => (k, s.load (a + 4 * k) 4)

/-- The values of all counters. -/
def State.counterBytes (s : State) : List Byte :=
  (List.range counterCount).flatMap fun k => leBytes 8 ((tget s.counters k).getD 0).toNat

def counters (s : State) : Nat × State :=
  let buf := s.mailPair 0
  let table := s.mailPair 3
  let load := s.mailArg 2 % 2 == 1
  let sels := s.selectTable table
  if !bufferOk buf (8 * counterCount) then (mailBadarg, s)
  else if load && (mgmtBase < table + 4 * counterCount || sels.any fun x => !selectOk x.1 x.2) then (mailBadarg, s)
  else
    let s1 : State := if load then
        { s with selects := sels.map fun x => (x.1, BitVec.ofNat 32 x.2 &&& 0xFFF0), counters := [] }
      else s
    (mailOk, s1.writeBuffer buf s1.counterBytes)

def execCounters (s : State) : Out := .next (s.mail (· == 5) counters)

/-! ## LINKS (R335) -/

/-- The flits retried since the last request are a free count for each port. -/
def State.countRetries (s : State) : State :=
  { s with
    choices := s.choices + 24
    loam := Vector.ofFn fun p => { s.loam[p] with retried := (s.loam[p]).retried + (Config.word (s.choices + p.val)).toNat } }

def links (s : State) : Nat × State :=
  let buf := s.mailPair 0
  if !bufferOk buf 1024 then (mailBadarg, s)
  else
    let s1 := s.countRetries
    (mailOk, s1.writeBuffer buf ((Config.linksReport (s1.loam.toList.map fun p => (p.state, p.peer, p.retried))).take 1024))

def execLinks (s : State) : Out := .next (s.mail (· == 6) links)

/-! ## Reset and boot (R342, R344) -/

/-- The images of the boot sequence, in order: the management firmware, the module record, the I/O-die firmware, the
array-controller image and the die microcode. Image `k` extends register `k` (log 17). -/
def imageCount : Nat := 5

/-- Extend a measurement register with a digest. -/
def extend512 (m d : BitVec 512) : BitVec 512 := shake256 (measureBytes m ++ measureBytes d)

/-- Verify the images from `k` on, up to the first that is refused: its signature fails, or its security version lies below its floor.
The module record may set initial access entries (R341, R342). -/
def State.boot (s : State) : Nat → Nat → State
  | 0, _ => { s with booted := true, access := Config.initialAccess.map fun e => (e.1, e.2 &&& entryMask) }
  | n + 1, k =>
    if Config.imagesVerify s.choices && (s.floors[k]?).getD 0 ≤ Config.imageVersion s.choices then
      State.boot { s with
        choices := s.choices + 1
        measure := s.measure.setIfInBounds k (extend512 (s.measure.getD k 0) (Config.imageDigest k)) } n (k + 1)
    else { s with choices := s.choices + 1 }

/-- Write the whole fence state table. -/
def State.writeFences (s : State) : State :=
  { s with mem := (List.range 1536).foldl (fun m c => m.write (mgmtBase + 0x30000 + 16 * c) (s.fenceEntry c)) s.mem }

/-- What module reset keeps: DRAM with its poisoned blocks, wrong bits and bad words, the logical core map and the records in force,
and gtime, which never runs backwards (R25, R343, R437; log 36). The rest is as after reset, the doorbell word among it (R334). -/
def State.afterReset (s : State) : State :=
  { State.reset with
    agenda := s.agenda
    choices := s.choices
    nextId := s.nextId
    gtime := s.gtime
    mem := (⟨s.mem.cells.filter fun c => c.1 < physTop⟩ : Memory).write mgmtBase (leBytes 4 0)
    bad := s.bad.filter fun a => a < physTop
    poison := s.poison
    flips := s.flips
    merging := s.merging
    floors := s.floors
    fieldDigest := s.fieldDigest
    outOfMap := s.outOfMap
    mapEpoch := s.mapEpoch }

/-- MODULE_RESET. -/
def moduleReset (s : State) : State :=
  let s1 := State.boot s.afterReset imageCount 0
  if s1.booted then s1.writeFences else s1

def execModuleReset (s : State) : Out := .next (moduleReset s)

end Sys2Proof.Machine
end

