-- ==== Sys2Proof/Machine/TileMem.lean ====
section
/-! DEFINITION. Tile loads and stores, cache maintenance and prefetch (spec/08_memory_instr.md R201-R204;
spec/10_matrix.md R242-R244). -/

namespace Sys2Proof.Machine

/-! ## Tiles (R201, R202, R244) -/

/-- Operations outstanding in the warps of a claiming part's partition. -/
def State.partitionOps (s : State) (part pt : Nat) : List OutOp :=
  s.warps.flatMap fun x => if x.2.part == part && x.2.wslot.toNat % 16 == pt then x.2.ops else []

/-- An outstanding `tld` of the partition will write the tile. -/
def Ctx.tileLoading (c : Ctx) (t : Nat) : Bool :=
  (c.s.partitionOps c.w.part c.pt).any fun o => o.kind == .tld t

/-- The key of a partition's matrix engine. -/
def engineKey (part pt : Nat) : Nat := part * 16 + pt

/-- A matrix operation in progress reads the tile (R244). -/
def Ctx.tileInUse (c : Ctx) (t : Nat) : Bool :=
  (tget c.s.engine (engineKey c.w.part c.pt)).elim false fun ts => ts.contains t

/-- The address operand of a uniform memory instruction. -/
def Ctx.uaddr (c : Ctx) (sp : Space) (a : SOp) : Nat := if sp = .g then (c.sv64 a).toNat else (c.sv a).toNat

/-- The 8-byte pieces of a tile, in row order: piece `k` with its address (R202). -/
def tilePieces (sp : Space) (a : Nat) (pitch : Int) (w rows : Nat) : List (Nat × Nat) :=
  (List.range (rows * w / 8)).map fun k => (k, pieceAddr sp a pitch w k)
where
  /-- The address of piece `k`. -/
  pieceAddr (sp : Space) (a : Nat) (pitch : Int) (w k : Nat) : Nat :=
    ((a + (k * 8 / w : Nat) * pitch + (k * 8 % w : Nat)) % (if sp = .g then 2 ^ 64 else 2 ^ 32)).toNat

/-- A weight chain of another warp runs in the partition and owns its engine and its tiles (R53, R261). -/
def Ctx.chainRuns (c : Ctx) : Bool :=
  c.s.warps.any fun x =>
    x.2.part == c.w.part && x.2.wslot.toNat % 16 == c.pt
      && (match x.2.wait with
          | some ⟨.chain _ _ _ _, _, _⟩ => true
          | _ => false)

/-- The first byte of an access that meets a lock: locks are kept in whole 4-byte units (R198). -/
def Ctx.firstLocked (c : Ctx) (s : State) (sp : Space) (need : Need) (x : Acc) : Option Nat :=
  if c.locked s sp need { x with n := 4 } then some x.addr
  else if c.locked s sp need { x with addr := x.addr + 4, n := 4 } then some (x.addr + 4)
  else none

/-- Check every byte in order (R202). A space, a page and a permission change only between pieces. -/
def Ctx.placeTile (c : Ctx) (s : State) (sp : Space) (need : Need) : List (Nat × Nat) → State × Except Trap (List Acc)
  | [] => (s, .ok [])
  | (k, a) :: r =>
    match c.locate s sp need a 8 with
    | (s1, .error code) => (s1, .error { code := code, value := BitVec.ofNat 64 a })
    | (s1, .ok p) =>
      match c.firstLocked s1 sp need ⟨k, 0, a, p, 8, 0, 0⟩ with
      | some x => (s1, .error { code := 0x06, value := BitVec.ofNat 64 x })
      | none =>
        match c.placeTile s1 sp need r with
        | (s2, .error t) => (s2, .error t)
        | (s2, .ok xs) => (s2, .ok (⟨k, 0, a, p, 8, 0, 0⟩ :: xs))

/-- The checks of `tld` and `tst`, and then `body` with the accesses (R202). -/
def Ctx.tileChecked (c : Ctx) (o : FormT) (need : Need) (body : Ctx → List Acc → State) : State :=
  let a := c.uaddr o.space o.a
  let pitch := c.sv o.b
  let x := c.s.shapeOf c.w.part c.pt o.t.val
  if a % 16 != 0 then c.raise 0x03 (BitVec.ofNat 64 a)
  else if pitch.toNat % 16 != 0 then c.raise 0x03 (pitch.setWidth 64)
  else match c.placeTile c.s o.space need (tilePieces o.space a pitch.toInt (shapeW x) (shapeRows x)) with
    | (s1, .error t) => (c.with s1).raiseFull t
    | (s1, .ok as) => if c.rowsHeld as then s1 else body (c.with s1) as

def execTld (o : FormT) (s : State) : Out :=
  issue (.tld o) s fun c =>
    if c.full .tiles || c.chainRuns || c.tileLoading o.t.val || c.tileInUse o.t.val then c.stall
    else c.tileChecked o .r fun d as => d.push .tiles (.tld o.t.val) o.space as 0 none none

/-- `tst` reads its tile at issue (R202). -/
def execTst (o : FormT) (s : State) : Out :=
  issue (.tst o) s fun c =>
    let base := tileBase c.w o.t.val
    let x := c.s.shapeOf c.w.part c.pt o.t.val
    if c.full .tiles || c.chainRuns || c.tileLoading o.t.val then c.stall
    else if c.s.badIn base (shapeRows x * shapeW x) then (c.with (c.s.meet base (shapeRows x * shapeW x))).raise 0x0B 0
    else c.tileChecked o .w fun d as =>
      d.push .tiles (.tst o.t.val) o.space (as.map fun a => { a with data := d.s.load (base + 8 * a.lane) 8 }) 0 none none

/-! ## Cache maintenance (R203) -/

/-- The whole address space, for the forms .all. -/
def allLines : Nat × Nat := (0, 2 ^ 64)

/-- `cflush` writes its lines back when it completes. -/
def Ctx.flush (c : Ctx) (r : Nat × Nat) : State :=
  if c.full .stores then c.stall else c.push .stores (.flush r.1 r.2 false) .p [] 0 none none

/-- A dirty line lies in the range. -/
def dirtyIn (p : Part) (r : Nat × Nat) : Bool := (linesIn p r.1 r.2).any (·.dirty)

/-- The part without the clean lines of the range. -/
def dropClean (r : Nat × Nat) (p : Part) : Part :=
  { p with l1 := p.l1.filter fun l => l.dirty || !(linesIn p r.1 r.2).contains l }

/-- `cinv` discards the clean lines of its range at once, so that a later load misses them. Where a line is dirty it counts as a
store, and writes such lines back and discards them when it completes (R192, R203). -/
def Ctx.invalidate (c : Ctx) (r : Nat × Nat) : State :=
  if dirtyIn c.p r then
    if c.full .stores then c.stall
    else (c.push .stores (.flush r.1 r.2 true) .p [] 0 none none).modPart c.w.part (dropClean r)
  else (c.finish id).modPart c.w.part (dropClean r)

/-- The range that an instruction names. -/
def Ctx.lineRange (c : Ctx) (a b : SOp) : Nat × Nat := ((c.sv64 a).toNat, (c.sv b).toNat)

def execCflush (a b : SOp) (k : Word) (s : State) : Out := issue (.cflush a b k) s fun c => c.flush (c.lineRange a b)
def execCflushAll (s : State) : Out := issue .cflushAll s fun c => c.flush allLines
def execCinv (a b : SOp) (k : Word) (s : State) : Out := issue (.cinv a b k) s fun c => c.invalidate (c.lineRange a b)
def execCinvAll (s : State) : Out := issue .cinvAll s fun c => c.invalidate allLines

/-! ## Prefetch (R204) -/

/-- Request a line into the L1, the L2 or the MSC. Whether it is requested, and kept, is a free choice (log 7): a request into the L2 or
the MSC that is not made is as one that hits there. A line that the L1 holds
is not requested into it, one on an unavailable page or over a failed link is not at all (R395), and one of the capacity tier has no
place in an L2 or an MSC (R21). -/
def State.prefetch (s : State) (pid : Nat) (lvl : PrefLvl) (p : Place) (va : Nat) : State :=
  let line := va / 128
  let have_ := lvl == .l1 && ((tget s.parts pid).bind fun q => findLine q line none).isSome
  let r := s.linkFails p
  let s1 := { r.2 with choices := r.2.choices + 1 }
  if have_ || r.1 then s1
  else if lvl == .l1 then
    if !Config.bit r.2.choices then s1
    else match s1.readMem p 128 with
      | (.bytes bs, s2) => (s2.placeLine pid (newLine line bs bs false none)).1
      | (_, s2) => s2
  else if p.tier != 0 then s1
  else if lvl == .l2 then s1.request p
  else s1.mscAccess p

def execPref (a : SOp) (lvl : PrefLvl) (s : State) : Out :=
  issue (.pref a lvl) s fun c =>
    let va := (c.sv64 a).toNat / 128 * 128
    match c.s.translate c.w.slot c.core c.die .r (BitVec.ofNat 64 va) with
    | (s1, .error _) => (c.with s1).finish id
    | (s1, .ok p) =>
      if s1.lockMeets c.w.slot c.core va 128 false || s1.unreadable p.loc 128 then (c.with s1).finish id
      else ((c.with s1).finish id).prefetch c.w.part lvl p va

end Sys2Proof.Machine
end

