-- ==== Sys2Proof/Machine/Matrix.lean ====
section
/-! DEFINITION. The matrix engine: `mma`, `czero`, `cst`, and weight chains (spec/10_matrix.md R242-R264;
spec/02_execution_model.md R53; spec/23_work_faults.md R421). -/

namespace Sys2Proof.Machine

/-! ## Matrix state (R242, R245) -/

/-- The storage address of accumulator `n` of a partition: behind its eight tiles. -/
def accumLoc (part pt n : Nat) : Nat := matrixLoc part pt (0x8000 + 0x2000 * n)

def State.accum (s : State) (loc : Nat) : Accum := Accum.ofBytes (s.bytesAt loc accumSize)

def State.setAccum (s : State) (loc : Nat) (a : Accum) : State := s.store loc a.bytes

/-- The accumulator that an instruction names. -/
def Ctx.accumAt (c : Ctx) (n : Nat) : Nat := accumLoc c.w.part c.pt n

/-- The storage address of a tile of the issuing warp's partition. -/
def Ctx.tileAt (c : Ctx) (t : Nat) : Nat := matrixLoc c.w.part c.pt (4096 * t)

/-- The engine accepts no instruction of this warp: an operation occupies it, or a chain owns it (R53, R244, R250). -/
def Ctx.engineBusy (c : Ctx) : Bool := (tget c.s.engine (engineKey c.w.part c.pt)).isSome || c.chainRuns

/-- Occupy the engine with an operation that reads these tiles, until MATRIX_OP_END (R250). -/
def State.occupy (s : State) (key : Nat) (tiles : List Nat) : State := { s with engine := tset s.engine key tiles }

def Ctx.engineAt (c : Ctx) : Nat := engineKey c.w.part c.pt

/-- The first of these ranges that holds a word that cannot be corrected (R388). -/
def State.badRange (s : State) : List (Nat × Nat) → Option (Nat × Nat)
  | [] => none
  | r :: rs => if s.badIn r.1 r.2 then some r else s.badRange rs

/-- Step 7 of R378 for tiles and accumulators: trap 0x0B, or `body`. -/
def Ctx.sound (c : Ctx) (rs : List (Nat × Nat)) (body : State) : State :=
  match c.s.badRange rs with
  | some r => (c.with (c.s.meet r.1 r.2)).raise 0x0B 0
  | none => body

/-! ## mma (R246-R249) -/

/-- A word of the format register cannot be corrected in an active lane: step 7 of R378 (R388). -/
def Ctx.formatSound (c : Ctx) (fw : VOp) (body : State) : State :=
  let bad : Mask := maskOf fun l => c.act.getLsbD l.val && c.s.badLane c.wid (spanRegs [(fw, 1)]) l.val
  if bad = 0 then body else (c.with (c.s.meetRegs c.wid (spanRegs [(fw, 1)]) bad)).raise 0x0B 0

/-- The format word on which the live lanes agree, or the word that raises trap 0x09 (R72). -/
def Ctx.formatWord (c : Ctx) (fw : VOp) : Except Word Word :=
  match lanesOf c.w.laneok with
  | [] => .error 0
  | l :: r =>
    let w := c.v fw l
    match r.find? fun x => c.v fw x != w with
    | some x => .error (c.v fw x)
    | none => if fwOk w then .ok w else .error w

/-- C[n] ⊕= A × B (R73, R249). -/
def Ctx.multiply (c : Ctx) (w : Word) (n ta tb : Nat) : State :=
  let a := tileRows (fwFa w) (c.s.bytesAt (c.tileAt ta) 4096)
  let b := tileRows (fwFb w) (c.s.bytesAt (c.tileAt tb) 4096)
  let r := matMul w a b (c.s.accum (c.accumAt n))
  (((c.finish fun x => accrue x r.2).coreEvent c.core 2).setAccum (c.accumAt n) r.1).occupy c.engineAt [ta, tb]

/-- The ranges of matrix state that `mma` may read: the bytes that its tiles' rows take up, and the accumulator unless it is
overwritten (R248, R249, R257). -/
def mmaRanges (w : Word) (ta tb acc : Nat) : List (Nat × Nat) :=
  [(ta, rowsSize (fwFa w)), (tb, rowsSize (fwFb w))] ++ if fwMode w = 1 then [] else [(acc, accumSize)]

/-- The format word in the lowest live lane. -/
def Ctx.fwHere (c : Ctx) (fw : VOp) : Word :=
  match lanesOf c.w.laneok with
  | [] => 0
  | l :: _ => c.v fw l

/-- `mma`. The tiles and the accumulator are tested for the format that its lowest live lane names; with no active lane it makes none of
its own checks and has no effect (R379; log 52). -/
def execMma (q : Fin 8) (fw : VOp) (cn : Fin 4) (ta tb : Fin 8) (k : Word) (s : State) : Out :=
  issue (.mma q fw cn ta tb k) s fun c =>
    if c.engineBusy || c.tileLoading ta.val || c.tileLoading tb.val then c.stall
    else c.formatSound fw <| c.sound (mmaRanges (c.fwHere fw) (c.tileAt ta.val) (c.tileAt tb.val) (c.accumAt cn.val)) <|
      if c.act = 0 then c.finish id
      else if c.w.laneok &&& ~~~c.act != 0 then c.raise 0x08 ((c.w.laneok &&& ~~~c.act).setWidth 64)
      else match c.formatWord fw with
        | .error w => c.raise 0x09 (w.setWidth 64)
        | .ok w => c.multiply w cn.val ta.val tb.val

/-- MATRIX_OP_END: the engine's operation of the running slot has ended (R244, R250). -/
def execMatrixOpEnd (core part : Nat) (s : State) : Out :=
  .next (s.running.elim s fun r =>
    (s.parts.filter fun p => p.2.core == core && s.slotOfPart p.1 == some r).foldl
      (fun t p => { t with engine := tdel t.engine (engineKey p.1 part) }) s)

/-! ## czero (R251) -/

def State.zeroAccums (s : State) (part pt : Nat) (m : BitVec 4) : State :=
  (List.range 4).foldl (fun t n => if m.getLsbD n then t.setAccum (accumLoc part pt n) Accum.zero else t) s

def execCzero (m : BitVec 4) (s : State) : Out :=
  issue (.czero m) s fun c =>
    if c.engineBusy then c.stall
    else ((c.finish id).zeroAccums c.w.part c.pt m).occupy c.engineAt []

/-! ## cst (R252-R254) -/

/-- The 8-byte pieces of the rows that a drain writes, in row order, with their addresses. -/
def drainPieces (sp : Space) (a : Nat) (pitch : Int) (rb : Nat) : List (Nat × Nat) :=
  (List.range (32 * (rb / 8))).map fun k =>
    (k, ((a + (k / (rb / 8) : Nat) * pitch + (k % (rb / 8) * 8 : Nat)) % (if sp = .g then 2 ^ 64 else 2 ^ 32)).toNat)

/-- Translate each piece for a write, in order. -/
def Ctx.placeDrain (c : Ctx) (s : State) (sp : Space) : List (Nat × Nat) → State × Except Trap (List Acc)
  | [] => (s, .ok [])
  | (k, a) :: r =>
    let got := match sp with
      | .g | .p => s.translate c.w.slot c.core c.die .w (BitVec.ofNat 64 a)
      | _ => (s, match s.onchipOf c.w c.p sp a 8 with
        | some p => .ok p
        | none => .error 0x05)
    match got with
    | (s1, .error code) => (s1, .error { code := code, value := BitVec.ofNat 64 a })
    | (s1, .ok p) =>
      match c.placeDrain s1 sp r with
      | (s2, .error t) => (s2, .error t)
      | (s2, .ok xs) => (s2, .ok (⟨k, 0, a, p, 8, 0, 0⟩ :: xs))

/-- Drain: convert, write, and clear where asked; the accumulator is read now and its bytes are written when the operation is
performed. -/
def Ctx.drain (c : Ctx) (w : Word) (n : Nat) (sp : Space) (as : List Acc) : State :=
  let acc := c.s.accum (c.accumAt n)
  let conv := acc.el.map (drainEl w)
  let bs := (pieces_ 32 32 (conv.map (·.1))).flatMap (drainBytes (w.toNat % 16))
  let fl := conv.foldl (fun f x => f ||| x.2) 0
  let writes := as.map fun a => { a with data := leNat ((bs.drop (8 * a.lane)).take 8) }
  let s1 := c.push .tiles .cst sp writes 0 none none (fun x => accrue x fl)
  (if w.getLsbD 18 then s1.setAccum (c.accumAt n) Accum.zero else s1).occupy c.engineAt []

/-- The checks of R254 that follow those of the drain word and of alignment. A lock is met in 8-byte units, and cr.eval holds the
address of the first unit that meets one, whichever of its bytes do (DESIGN CHOICE, log 74). -/
def Ctx.drainChecked (c : Ctx) (w : Word) (n : Nat) (sp : Space) (a : Nat) (pitch : Int) : State :=
  let rb := drainRow (w.toNat % 16)
  let r := bounding a 32 rb pitch
  if !c.rangeOk sp r.1 r.2 then c.raise (if sp = .g then 0x04 else 0x05) (BitVec.ofNat 64 a)
  else match c.placeDrain c.s sp (drainPieces sp a pitch rb) with
    | (s1, .error t) => (c.with s1).raiseFull t
    | (s1, .ok as) =>
      match as.find? fun x => s1.lockMeets c.w.slot c.core (lockKey c.w c.p sp x.addr) 8 true with
      | some x => (c.with s1).raise 0x06 (BitVec.ofNat 64 x.addr)
      | none =>
        match (if w.getLsbD 16 then (s1.accum (c.accumAt n)).failing else none) with
        | some i => (c.with s1).raise 0x0D (BitVec.ofNat 64 i)
        | none => if c.rowsHeld as then s1 else (c.with s1).drain w n sp as

def execCst (cn : Fin 4) (space : Space) (d a b : SOp) (k : Word) (s : State) : Out :=
  issue (.cst cn space d a b k) s fun c =>
    let w := c.sv d
    let addr := c.uaddr space a
    let pitch := c.sv b
    if c.engineBusy || c.full .tiles then c.stall
    else c.sound [(c.accumAt cn.val, accumSize)] <|
      if !drainOk w then c.raise 0x09 (w.setWidth 64)
      else if addr % 8 != 0 then c.raise 0x03 (BitVec.ofNat 64 addr)
      else if pitch.toNat % 8 != 0 then c.raise 0x03 (pitch.setWidth 64)
      else c.drainChecked w cn.val space addr pitch.toInt

/-! ## Weight chains (R256-R263) -/

/-- A `tld` or `tst` of the partition is outstanding. -/
def Ctx.tilesMove (c : Ctx) : Bool :=
  (c.s.partitionOps c.w.part c.pt).any fun o =>
    match o.kind with
    | .tld _ | .tst _ => true
    | _ => false

def execWdrun (o : FormG) (s : State) : Out :=
  issue (.wdrun o) s fun c =>
    let b := c.sv64 o.a
    match destS o.d with
    | none => c.stall
    | some d =>
      if c.engineBusy || c.tilesMove then c.stall
      else if b.toNat % 64 != 0 then c.raise 0x03 b
      else c.wait (.chain b 0 (c.sv o.b) d)

/-- The header of a weight block (R256). -/
structure WeightHeader where
  beats : Nat
  comp : Nat
  op : Nat
  fmt : Word
  cn : Nat
  ta : Nat
  link : DWord
  /-- A rule of R256 other than the one on beats is broken. -/
  wrong : Bool
  deriving DecidableEq, Repr

/-- The header in a block's first 64 bytes. -/
def headerOf (bs : List Byte) : WeightHeader :=
  let f (off n : Nat) : Nat := leNat ((bs.drop off).take n)
  let w := f 0 4
  let op := w % 256
  let comp := w / 256 % 16
  let route := f 8 4
  let cn := route / 16 % 4
  let ta := route % 8
  { beats := w / 2 ^ 16 % 256, comp := comp, op := op, fmt := BitVec.ofNat 32 (f 4 4), cn := cn, ta := ta,
    link := BitVec.ofNat 64 (f 0x10 8),
    wrong := w / 2 ^ 24 != 0x57 || w / 4096 % 16 != 0 || 1 < comp || op == 0 || 3 < op || route / 64 != 0 || route / 8 % 2 != 0
      || f 0xC 4 != 0 || (bs.drop 0x18).any (· != 0) || (op != 1 && f 4 4 != 0) || (op == 2 && ta != 0)
      || (op == 3 && (cn != 0 || comp != 0)) }

/-- The beats that the header's operation has (R258). -/
def WeightHeader.size (h : WeightHeader) : Nat :=
  if h.op = 2 then 0 else if h.op = 3 then 64 else weightBeats h.comp (fwFb h.fmt)

/-- The successor: none at the end of the chain, or a link error (R259). -/
def WeightHeader.next (h : WeightHeader) (b : DWord) : Except Unit (Option DWord) :=
  let kind := h.link.toNat % 4
  let dest := if kind = 1 then b + (h.link - 1) else h.link - 2
  if kind = 0 then (if h.link = 0 then .ok none else .error ())
  else if kind = 3 || h.link.toNat / 4 % 16 != 0 || dest.toNat / 2 ^ 55 != 0 then .error ()
  else .ok (some dest)

/-- The status of a failed fetch (R262). -/
def fetchStatus (code : BitVec 8) : Nat := if code = 0x04 then 2 else if code = 0x05 then 3 else if code = 0x0B then 4 else 8

/-- Fetch beats with the weight-execute right: their bytes, or the status (R260, R262). -/
def State.fetchBeats (s : State) (w : Warp) (a : DWord) : Nat → State × Except Nat (List Byte)
  | 0 => (s, .ok [])
  | n + 1 =>
    let core := s.coreOf w
    match s.translate w.slot core (dieOfCore core) .wx a with
    | (s1, .error c) => (s1, .error (fetchStatus c))
    | (s1, .ok p) =>
      let q := s1.ask p
      match q.2.readMem q.1 64 with
      | (.bytes bs, s2) =>
        match s2.fetchBeats w (a + 64) n with
        | (s3, .ok r) => (s3, .ok (bs ++ r))
        | r => r
      | (.dead, s2) => (s2, .error 4)
      | (_, s2) => (s2, .error 8)

/-- Apply a checked block (R257). A tile or accumulator word that it reads and that cannot be corrected gives status 4: the manual names
no status for it (log 18). -/
def State.applyBlock (s : State) (w : Warp) (h : WeightHeader) (pay : List Byte) : State × Option Nat :=
  let pt := w.wslot.toNat % 16
  let tile := matrixLoc w.part pt (4096 * h.ta)
  let acc := accumLoc w.part pt h.cn
  if h.op = 2 then (s.setAccum acc Accum.zero, none)
  else if h.op = 3 then (s.store tile pay, none)
  else match s.badRange ((tile, rowsSize (fwFa h.fmt)) :: if fwMode h.fmt = 1 then [] else [(acc, accumSize)]) with
    | some r => (s.meet r.1 r.2, some 4)
    | none =>
      (s.setAccum acc (matMul h.fmt (tileRows (fwFa h.fmt) (s.bytesAt tile 4096)) (weightCols h.comp (fwFb h.fmt) pay)
        (s.accum acc)).1, none)

/-- One round of the loop of R262 at block `b`: the successor, or the status that ends the chain before the block's effect. -/
def State.chainRound (s : State) (w : Warp) (b : DWord) : State × Except Nat (Option DWord) :=
  match s.fetchBeats w b 1 with
  | (s1, .error st) => (s1, .error st)
  | (s1, .ok hb) =>
    let h := headerOf hb
    if h.wrong then (s1, .error 5)
    else if h.op == 1 && !fwOk h.fmt then (s1, .error 6)
    else if h.beats != h.size then (s1, .error 5)
    else match h.next b with
      | .error _ => (s1, .error 7)
      | .ok nx =>
        match s1.fetchBeats w (b + 64) h.beats with
        | (s2, .error st) => (s2, .error st)
        | (s2, .ok pay) =>
          if h.op == 1 && h.comp == 1 && !nibblesOk (fwFb h.fmt) pay then (s2, .error 5)
          else match s2.applyBlock w h pay with
            | (s3, some st) => (s3, .error st)
            | (s3, none) => (s3, .ok nx)

/-- The registers that a chain leaves (R262). -/
def chainRegs (d : Nat) (n : Word) (st : Nat) (b : DWord) (w : Warp) : Warp :=
  setSreg (setSreg (setSreg (setSreg w d n) (d + 1) (BitVec.ofNat 32 st)) (d + 2) (b.extractLsb' 0 32)) (d + 3)
    (b.extractLsb' 32 32)

/-- The chain ends with a status: the warp goes on, or takes trap 0x0E imprecisely at its `wdrun` (R262). -/
def State.chainEnd (s : State) (wid : Nat) (w : Warp) (d : Nat) (n : Word) (st : Nat) (b : DWord) : State :=
  if st < 2 then s.modWarp wid fun x => endWait (chainRegs d n st b x)
  else (s.modWarp wid fun x => { chainRegs d n st b x with wait := none }).deliver wid { code := 0x0E, value := b } w.pc true false

/-- WEIGHT_BLOCK_FETCHED: one round of a warp's chain. The warp's own earlier accesses are performed first (R260, R113). -/
def weightBlockFetched (wid : Nat) (s : State) : State :=
  match s.waiting wid with
  | some (w, ⟨.chain b n lim d, len, t⟩) =>
    if !w.ops.all (·.slice) then s
    else if lim != 0 && n == lim then s.chainEnd wid w d.val n 1 b
    else match s.chainRound w b with
      | (s1, .error st) => s1.chainEnd wid w d.val n st b
      | (s1, .ok none) => s1.chainEnd wid w d.val (n + 1) 0 0
      | (s1, .ok (some nx)) => s1.modWarp wid fun x => { x with wait := some ⟨.chain nx (n + 1) lim d, len, t⟩ }
  | _ => s

def execWeightBlockFetched (wid : Nat) (s : State) : Out := .next (weightBlockFetched wid s)

end Sys2Proof.Machine
end

