-- ==== Sys2Proof/Machine/Migrate.lean ====
section
/-! DEFINITION. Migration of pages, and requests from peer modules (spec/04_memory.md R104; spec/14_fabric_and_system.md R336,
R339, R340; spec/21_memory_faults.md R397). -/

namespace Sys2Proof.Machine

/-! ## The leaf -/

/-- The address of the leaf entry that a walk of the levels ends at, with the leaf and its level. -/
def State.leafFrom (s : State) (va : Nat) : List (Nat × Nat) → Nat → Option (Nat × DWord × Nat)
  | [], _ => none
  | (lv, sh) :: r, base =>
    let pa := base + va / 2 ^ sh % 8192 * 8
    let e := BitVec.ofNat 64 (s.load pa 8)
    if s.unreadable pa 8 || fld e 0 0 = 0 then none
    else if fld e 10 10 = 1 then some (pa, e, lv)
    else if isStack (fld e 51 16 * 65536) then s.leafFrom va r (fld e 51 16 * 65536)
    else none

/-- A leaf with a new address and tier, and mig clear. -/
def remapped (e : DWord) (pa : Nat) : DWord :=
  (e &&& ~~~(0x000FFFFFFFFF00E0 : DWord)) ||| BitVec.ofNat 64 (pa / 65536 * 65536) ||| (if isStack pa then 0 else 0x20)

/-- A range of one tier, wholly populated and outside the management area. -/
def migratable (pa n : Nat) : Bool :=
  pa + n ≤ mgmtBase || (isCapRange pa && pa + n ≤ 2 ^ 46 + capTotal)

/-- The virtual pages of a migration, as a purge of them. -/
def Migration.purge (m : Migration) : Purge :=
  let n := levelSize m.level
  { word14 := 0, arg := 0, key := m.key, images := false, base := m.va / n * n, len := n, win := 0 }

/-- Drop the translations of the page (R102). -/
def State.dropPage (s : State) (m : Migration) : State := { s with tlb := s.tlb.filter fun t => !m.purge.hits t }

/-- The migration copy engine's master identifier (R339). -/
def migrationMaster : Nat := 2080

/-! ## The engine's sequence (R104, R397) -/

/-- Step 1: mig is set and the leaf's translations are invalidated. A request that names no page of stack or capacity memory, or
no such place for it, has no effect (log 35). -/
def State.startMigration (s : State) (slot : Fin 8) (va pa : Nat) : State :=
  match s.ctxs[slot] with
  | none => s
  | some c =>
    match s.leafFrom va [(1, 42), (2, 29), (3, 16)] c.ptRoot with
    | none => s
    | some (a, e, lv) =>
      let n := levelSize lv
      let old := (leafPlace e lv (va / n * n)).pa
      if 2 ^ 55 ≤ va || leafFaults e lv va || fld e 6 5 = 2 || fld e 7 7 = 1 || pa % n != 0 || !migratable pa n || !migratable old n
          || (pa < old + n && old < pa + n) then s
      else
        let m : Migration := ⟨slot, c.key, va, a, lv, old, pa, 0, []⟩
        ({ (s.store a (leBytes 8 (e ||| 0x80).toNat)) with migration := some m }).dropPage m

/-- The old page's address as it stands once the page lies at `base`. -/
def Migration.moved (m : Migration) (base pa : Nat) : Nat :=
  if m.old ≤ pa && pa < m.old + levelSize m.level then base + (pa - m.old) else pa

/-- A place of the old page once the page lies at `base`. -/
def Migration.place (m : Migration) (base : Nat) (p : Place) : Place :=
  if p.mig && p.tier ≤ 1 && m.moved 0 p.pa != p.pa then
    let a := m.moved base p.pa
    { p with loc := a, pa := a, tier := if isStack a then 0 else 1, mig := false }
  else p

/-- The warps of the context with their outstanding accesses to the page sent to its address. -/
def Migration.rewrite (m : Migration) (base : Nat) (w : Warp) : Warp :=
  if w.slot = m.slot then
    { w with ops := w.ops.map fun o => { o with accs := o.accs.map fun a => { a with place := m.place base a.place } } }
  else w

/-- A stalled request is performed at an address. -/
def State.performStalled (s : State) (pa : Nat) (x : Stalled) : State :=
  (s.physPerform pa x.size x.op).poisonLine (physPlace pa) x.badWords

/-- The end: the leaf takes an address, mig is clear, outstanding accesses go there, and the stalled stores and atomics are performed
there, in arrival order. A block that waited for its warps' write-backs may then end. -/
def State.endMigration (s : State) (m : Migration) (base : Nat) : State :=
  let e := BitVec.ofNat 64 (s.load m.entry 8)
  let s1 := ({ (s.store m.entry (leBytes 8 (remapped e base).toNat)) with migration := none }).dropPage m
  let s2 := { s1 with warps := tmap s1.warps (m.rewrite base) }
  let s3 := m.stalled.foldl (fun (t : State) (x : Stalled) => t.performStalled (m.moved base x.addr) x) s2
  m.stalled.foldl (fun t x => match x.who with
    | .warp wid => (tget t.warps wid).elim t fun w => t.blockCheck w.block
    | _ => t) s3

/-- A block whose source cannot be read is written with poison set (R397). Its bytes are free values. -/
def State.lostBlock (s : State) (src dst : Nat) : State :=
  let s1 := if s.physFails src then s else s.meet src 512
  let s2 := ({ s1 with choices := s1.choices + 1 }).store dst ((List.range 512).map (Config.byteAt s1.choices))
  ({ s2 with poison := s2.poison ++ [dst / 512] }).memerr 4 src

/-- Step 2 for the next block. While the access tables refuse the engine, it waits (log 35). -/
def State.copyBlock (s : State) (m : Migration) : State :=
  let src := m.old + 512 * m.next
  let dst := m.new + 512 * m.next
  if !s.mayReach migrationMaster .r src || !s.mayReach migrationMaster .w dst then s
  else
    let a := (s.mscRequest src).ask (physPlace src)
    let b := a.2.ask (physPlace dst)
    let s1 := b.2
    if b.1.lost || s1.physFails dst then (s1.endMigration m m.old).memerr 7 m.old
    else
      let s2 := if a.1.lost || s1.physFails src || s1.unreadable src 512 then s1.lostBlock src dst else s1.store dst (s1.bytesAt src 512)
      { s2 with migration := some { m with next := m.next + 1 } }

/-- MIGRATION: a request starts when the engine is idle; a migration in progress goes on by one block or ends, once every access
that was translated before has completed (R102). -/
def migration (slot : Fin 8) (va pa : Nat) (s : State) : State :=
  match s.migration with
  | none => s.startMigration slot va pa
  | some m =>
    if m.slot != slot || m.va != va || m.new != pa || s.usesOld m.purge (fun a => !a.place.mig) then s
    else if m.next * 512 < levelSize m.level then s.copyBlock m
    else s.endMigration m m.new

def execMigration (slot : Fin 8) (va pa : Nat) (s : State) : Out := .next (migration slot va pa s)

/-! ## Requests from peers (R123, R336) -/

/-- What a peer's request needs. -/
def peerNeed (op : PeerOp) : Need :=
  match op with
  | .read => .r
  | .write _ => .w
  | .atom _ _ | .cas _ _ => .rw

/-- The request is one that R336 allows: at most 128 bytes, and an atomic of an aligned word or doubleword. -/
def peerFits (r : PeerReq) : Bool :=
  match r.op with
  | .read => 1 ≤ r.size && r.size ≤ 128
  | .write data => data.length == r.size && 1 ≤ r.size && r.size ≤ 128
  | .atom _ _ | .cas _ _ => (r.size == 4 || r.size == 8) && r.addr % r.size == 0

/-- PEER_REQUEST: a request outside the stack tier, in the management area, or refused by its target's table has no effect here.
A read behind the peer's own stalled write to the same bytes waits, and a write that runs into another page is one write for each
(R104, R124). -/
def peerRequest (r : PeerReq) (s : State) : State :=
  if !s.booted || !peerFits r || mgmtBase < r.addr + r.size
      || !(pagesOf r.addr r.size).all (s.mayReach (0x4000 + r.src.val) (peerNeed r.op)) then s
  else if r.op = .read && s.behind (.peer r.src.val) r.addr r.size false then s
  else
    let one (t : State) (pa n : Nat) (op : PeerOp) : State := (t.mscRequests pa n).physRequest (.peer r.src.val) pa n op
    match r.op with
    | .write data => (pageParts r.addr r.size).foldl (fun t x => one t x.1 x.2 (.write ((data.drop (x.1 - r.addr)).take x.2))) s
    | op => one s r.addr r.size op

def execPeerRequest (r : PeerReq) (s : State) : Out := .next (peerRequest r s)

end Sys2Proof.Machine
end

