-- ==== Sys2Proof/Machine/Registers.lean ====
section
/-! DEFINITION. Control registers and `movc` (spec/06_encoding.md R145; spec/02_execution_model.md R30, R37;
spec/09_control.md R227, R237; spec/10_matrix.md R243; spec/13_scheduling.md R324; spec/19_fault_model.md R370). -/

namespace Sys2Proof.Machine

/-- cr.warp (R30). -/
def crWarp (w : Warp) : Word :=
  BitVec.ofNat 32 ((if w.spawned then 2 ^ 14 else 0) + w.index.toNat * 256 + w.wslot.toNat)

/-- cr.clu (R37). -/
def crClu (p : Part) (parts : Nat) : Word := BitVec.ofNat 32 ((parts - 1) * 4096 + p.num * 256 + clusterOf p.core)

/-- cr.ctx (R324). -/
def State.crCtx (s : State) : Word :=
  match s.running with
  | none => 0
  | some r => BitVec.ofNat 32 ((s.ctxs[r]).elim 0 (·.key.toNat) * 256 + r.val)

/-- The value of a control register. -/
def Ctx.crRead (c : Ctx) (n : Nat) : DWord :=
  let w := c.w
  let b := tget c.s.blocks w.block
  let z {k : Nat} (x : BitVec k) : DWord := x.setWidth 64
  match n with
  | 0x000 => z w.status
  | 0x001 => z w.cause
  | 0x002 => w.epc
  | 0x003 => w.eval
  | 0x004 => w.tvec
  | 0x005 => z w.fflags
  | 0x006 => z w.laneok
  | 0x008 => z (crWarp w)
  | 0x009 => z w.role
  | 0x00A => z w.rbase
  | 0x00B => z w.rcount
  | 0x00C => z c.p.sbase
  | 0x00D => z w.pbase
  | 0x00E => z w.plimit
  | 0x010 => BitVec.ofNat 64 c.p.core
  | 0x011 => z (crClu c.p (b.elim 1 (·.parts.length)))
  | 0x012 => z (b.elim 0 (·.x))
  | 0x013 => z (b.elim 0 (·.y))
  | 0x014 => z (b.elim 0 (·.z))
  | 0x015 => z c.s.crCtx
  | 0x018 => c.s.gtime
  | 0x019 => z ((c.s.ctxs[w.slot]).elim (0x800 : BitVec 16) (·.bintimer))
  | _ => z (c.s.shapeOf w.part c.pt (n - 0x020))

/-- cr.status as a write leaves it: died clears where 1 is written, sres takes its bit, the rest is read-only (R370). -/
def statusWrite (old : BitVec 5) (v : Word) : BitVec 5 :=
  (old &&& 0x07) ||| (v.setWidth 5 &&& 0x08) ||| (old &&& 0x10 &&& ~~~(v.setWidth 5))

/-- The warp with a control register of its own written; writes to read-only registers are ignored (R8, R145). -/
def crWrite (n : Nat) (v : DWord) (w : Warp) : Warp :=
  let x : Word := v.setWidth 32
  match n with
  | 0x000 => { w with status := statusWrite w.status x }
  | 0x001 => { w with cause := x &&& 0x003F3FFF }
  | 0x002 => { w with epc := pcBits v }
  | 0x003 => { w with eval := v }
  | 0x004 => { w with tvec := pcBits v }
  | 0x005 => { w with fflags := v.setWidth 7 }
  | _ => w

/-- The reserved bits of a shape register read as zero (R243). -/
def shapeBits (x : Word) : Word := x &&& 0x1FFF01FF

def execMovcRead (d : SOp) (n : BitVec 11) (s : State) : Out :=
  issue (.movcRead d n) s fun c =>
    let v := c.crRead n.toNat
    if crSpan n = some 2 then c.finish (setS64 false d v) else c.finish (setS false d (v.setWidth 32))

def execMovcWrite (a : SOp) (n : BitVec 11) (k : Word) (s : State) : Out :=
  issue (.movcWrite a n k) s fun c =>
    let v := if crSpan n = some 2 then c.sv64 a else (c.sv a).setWidth 64
    let t := c.finish (crWrite n.toNat v)
    if 0x020 ≤ n.toNat then
      { t with tshape := tset t.tshape (tshapeKey c.w.part c.pt (n.toNat - 0x020)) (shapeBits (v.setWidth 32)) }
    else t

end Sys2Proof.Machine
end

