-- ==== Sys2Proof/Machine/Select.lean ====
section
/-! DEFINITION. Compares, predicates, selection, moves and lane exchange (spec/07_lane_compute.md R171-R174, R180-R183). -/

namespace Sys2Proof.Machine

/-! ## Compares and predicates -/

def execIcmp (q qd : Fin 8) (cc : Cond) (a b : VOp) (k : Word) (s : State) : Out :=
  issue (.icmp q qd cc a b k) s fun c =>
    c.finish fun w => setPred w qd c.act (maskOf fun l => icond cc (c.v a l) (c.v b l))

/-- Only a signalling NaN sets a flag (R171). -/
def execFcmp (q qd : Fin 8) (cc : FCond) (a b : VOp) (k : Word) (s : State) : Out :=
  issue (.fcmp q qd cc a b k) s fun c =>
    let x (l : Lane) := dec32 (c.v a l)
    let y (l : Lane) := dec32 (c.v b l)
    c.finish fun w => accrue (setPred w qd c.act (maskOf fun l => fcond cc (x l) (y l)))
      (flagsOf c.act fun l => flag ((x l).isSNan || (y l).isSNan) flNv)

/-- The two operands of form L, negated as na and nb say (R172). -/
def logicOf (w : Warp) (o : FormL) (f : Mask → Mask → Mask) : Mask :=
  let x := predMask w o.qa
  let y := predMask w o.qb
  f (if o.na then ~~~x else x) (if o.nb then ~~~y else y)

/-- A logic operation on predicates (R172). -/
def Ctx.logic (c : Ctx) (o : FormL) (f : Mask → Mask → Mask) : State :=
  c.finish fun w => setPred w o.qd c.act (logicOf c.w o f)

def execQand (o : FormL) (s : State) : Out := issue (.qand o) s fun c => c.logic o (· &&& ·)
def execQor (o : FormL) (s : State) : Out := issue (.qor o) s fun c => c.logic o (· ||| ·)
def execQxor (o : FormL) (s : State) : Out := issue (.qxor o) s fun c => c.logic o (· ^^^ ·)

/-- R173. -/
def execSel (qs : Fin 8) (d a b : VOp) (k : Word) (s : State) : Out :=
  issue (.sel qs d a b k) s fun c =>
    c.finish (dst c.act d fun l => if predLane c.w qs l.val then c.v a l else c.v b l)

/-- The predicates of a lane as bits 0 to 7 (R174). -/
def predsOfLane (w : Warp) (l : Lane) : Word :=
  BitVec.ofFnLE fun n : Fin 32 => if h : n.val < 8 then predLane w ⟨n.val, h⟩ l.val else false

def execMovqRead (q : Fin 8) (d : VOp) (s : State) : Out :=
  issue (.movqRead q d) s fun c => c.finish (dst c.act d (predsOfLane c.w))

/-- Every predicate q1 to q7 from the bits of a lane's word (R174). -/
def writePreds (c : Ctx) (a : VOp) (w : Warp) : Warp :=
  (List.finRange 8).foldl (fun x n => setPred x n c.act (maskOf fun l => (c.v a l).getLsbD n.val)) w

def execMovqWrite (q : Fin 8) (a : VOp) (k : Word) (s : State) : Out :=
  issue (.movqWrite q a k) s fun c => c.finish (writePreds c a)

/-! ## Moves -/

/-- R180. -/
def execMov (o : FormA1) (s : State) : Out := issue (.mov o) s fun c => c.lane1 o id
def execMovs (q : Fin 8) (d : VOp) (a : SOp) (k : Word) (s : State) : Out :=
  issue (.movs q d a k) s fun c => c.finish (dst c.act d fun _ => c.sv a)

/-! ## Lane exchange (R181) -/

/-- The lane that lane `l` reads, for a group of 2^g lanes and selector `j`. -/
def xlaneFrom (mode : XMode) (g l j : Nat) : Nat :=
  let n := 2 ^ g
  let base := l - l % n
  let o := l % n
  match mode with
  | .from => base + j % n
  | .rot => base + (o + j) % n
  | .rev => base + (n - 1 - o + j) % n
  | .xor => base + (o ^^^ (j % n)) % n

/-- The lane that lane `l` reads. -/
def Ctx.xsource (c : Ctx) (o : FormA) (g : Fin 6) (mode : XMode) (l : Lane) : Lane :=
  Fin.ofNat 32 (xlaneFrom mode g.val l.val (c.v o.b l).toNat)

/-- The active lanes whose source word cannot be corrected; they die (R181). -/
def Ctx.xdying (c : Ctx) (o : FormA) (g : Fin 6) (mode : XMode) : Mask :=
  if c.s.bad.isEmpty then 0
  else maskOf fun l => c.act.getLsbD l.val && c.live.getLsbD (c.xsource o g mode l).val
    && c.s.badLane c.wid (spanRegs [(o.a, 1)]) (c.xsource o g mode l).val

/-- The exchange in the active lanes. A source lane counts as live that was so at issue. -/
def Ctx.exchange (c : Ctx) (o : FormA) (g : Fin 6) (mode : XMode) (old : Warp) : State :=
  let live (l : Lane) : Bool := c.live.getLsbD (c.xsource o g mode l).val
  c.finish fun w => accrue
    (dst c.act o.d (fun l => if live l then src old c.k o.a (c.xsource o g mode l) else 0) w)
    (flagsOf c.act fun l => flag (!live l) flDead)

def execXlane (o : FormA) (g : Fin 6) (mode : XMode) (s : State) : Out :=
  issue (.xlane o g mode) s fun c =>
    let m := c.xdying o g mode
    if m = 0 then c.exchange o g mode c.w
    else
      let bad := (lanesOf m).map fun l => regLoc c.wid ((spanRegs [(o.a, 1)]).headD 0) (c.xsource o g mode l).val
      let s1 := (bad.foldl (fun t a => t.meet a 4) c.s).killLanes c.wid m
      match tget s1.warps c.wid with
      | none => s1
      | some w1 => if w1.ended then s1 else Ctx.exchange { c with s := s1, act := c.act &&& ~~~m } o g mode c.w

/-! ## Votes and folds (R182, R183) -/

/-- The result of a vote over the active lanes. -/
def voteOf (mode : VoteMode) (act p : Mask) : Word :=
  match mode with
  | .ballot => act &&& p
  | .all => if act &&& ~~~p = 0 then 1 else 0
  | .any => if act &&& p = 0 then 0 else 1

def execVote (q : Fin 8) (d : SOp) (p : Fin 8) (mode : VoteMode) (s : State) : Out :=
  issue (.vote q d p mode) s fun c => c.finish (setS false d (voteOf mode c.act (predMask c.w p)))

def execLfold (q : Fin 8) (d : SOp) (a : VOp) (op : FoldOp) (k : Word) (s : State) : Out :=
  issue (.lfold q d a op k) s fun c =>
    let r := foldTree op 5 ((List.finRange 32).map fun l => if c.act.getLsbD l.val then some (c.v a l) else none)
    c.finish fun w => accrue (setS false d r.1 w) r.2

end Sys2Proof.Machine
end

