-- ==== Sys2Proof/Machine/Switch.lean ====
section
/-! DEFINITION. GANG_SWITCH and SWITCH_OVERRUN: the switch as a whole, and the effects of the commands that came during it
(spec/13_scheduling.md R315, R328, R329; spec/14_fabric_and_system.md R346; spec/23_work_faults.md R419, R422; log 32). -/

namespace Sys2Proof.Machine

/-! ## The switch -/

/-- Steps 1 to 5 of R329 for an armed switch, with what waited for its end: deferred effects, and points above their ceilings. -/
def State.switchNow (s : State) (a : Armed) : State :=
  let late := a.late || a.time + 250000 < s.gtime.toNat
  let s0 := if late && !a.late then s.alert else s
  let s1 := match s.running with
    | some o => (s0.endFirings o).leave o
    | none => s0
  let s2 := match a.slot with
    | some n => s1.arriveSlot n a.time
    | none => s1
  let s3 := ({ s2 with armed := none }).switchedEntry a s.running a.slot late
  { s3.applyAll with corePoints := clampPoints s3.corePoints s3.ceilings }

/-- GANG_SWITCH: from the target time on, once the collectives' chunks are answered or have been waited for, and no access of the
outgoing slot waits for a migration (R104, R126, R329, R331). -/
def gangSwitch (s : State) : State :=
  match s.armed with
  | none => s
  | some a => if s.switching && s.running.elim true (fun o => s.collsQuiet o a && s.settled o) then s.switchNow a else s

def execGangSwitch (s : State) : Out := .next (gangSwitch s)

/-- SWITCH_OVERRUN: a switch not over by T + 250 µs is marked, and a management alert is raised (R422). -/
def switchOverrun (s : State) : State :=
  match s.armed with
  | none => s
  | some a =>
    if a.late || s.gtime.toNat ≤ a.time + 250000 then s
    else ({ s with armed := some { a with late := true } }).alert

def execSwitchOverrun (s : State) : Out := .next (switchOverrun s)

end Sys2Proof.Machine
end

