-- ==== Sys2Proof/Machine/Uniform.lean ====
section
/-! DEFINITION. Uniform arithmetic (spec/09_control.md R206). -/

namespace Sys2Proof.Machine

/-- Two uniform sources and one uniform destination, in the issuing stream. -/
def Ctx.uni2 (c : Ctx) (o : FormG) (f : Word → Word → Word) : State :=
  c.finish (setS c.slice o.d (f (c.sv o.a) (c.sv o.b)))

/-- The same with flags, which accrue in the warp (R63). -/
def Ctx.uni2F (c : Ctx) (o : FormG) (f : Word → Word → Word × Flags) : State :=
  let r := f (c.sv o.a) (c.sv o.b)
  c.finish fun w => accrue (setS c.slice o.d r.1 w) r.2

def execSadd (o : FormG) (s : State) : Out := issue (.sadd o) s fun c => c.uni2 o (· + ·)
def execSsub (o : FormG) (s : State) : Out := issue (.ssub o) s fun c => c.uni2 o (· - ·)
def execSmul (o : FormG) (s : State) : Out := issue (.smul o) s fun c => c.uni2 o (· * ·)
def execSand (o : FormG) (s : State) : Out := issue (.sand o) s fun c => c.uni2 o (· &&& ·)
def execSor (o : FormG) (s : State) : Out := issue (.sor o) s fun c => c.uni2 o (· ||| ·)
def execSxor (o : FormG) (s : State) : Out := issue (.sxor o) s fun c => c.uni2 o (· ^^^ ·)
def execSshl (o : FormG) (s : State) : Out := issue (.sshl o) s fun c => c.uni2 o shiftL
def execSshr (o : FormG) (s : State) : Out := issue (.sshr o) s fun c => c.uni2 o shiftR
def execSshrA (o : FormG) (s : State) : Out := issue (.sshrA o) s fun c => c.uni2 o shiftRA
def execSmin (o : FormG) (s : State) : Out := issue (.smin o) s fun c => c.uni2 o smaller
def execSminU (o : FormG) (s : State) : Out := issue (.sminU o) s fun c => c.uni2 o smallerU
def execSmax (o : FormG) (s : State) : Out := issue (.smax o) s fun c => c.uni2 o larger
def execSmaxU (o : FormG) (s : State) : Out := issue (.smaxU o) s fun c => c.uni2 o largerU
def execSmov (d a : SOp) (k : Word) (s : State) : Out := issue (.smov d a k) s fun c => c.finish (setS c.slice d (c.sv a))
def execSfadd (o : FormG) (rm : RMode) (s : State) : Out := issue (.sfadd o rm) s fun c => c.uni2F o (fadd32 rm)
def execSfmul (o : FormG) (rm : RMode) (s : State) : Out := issue (.sfmul o rm) s fun c => c.uni2F o (fmul32 rm)

end Sys2Proof.Machine
end

