-- ==== Sys2Proof/Machine/Dispatch.lean ====
section
/-! DEFINITION. The meaning of every instruction: one arm for each constructor. -/

namespace Sys2Proof.Machine

def exec (i : Instr) (s : State) : Host.Outcome State Fault Refusal :=
  match i with
  | .iadd o => Sys2Proof.Machine.execIadd o s
  | .isub o => Sys2Proof.Machine.execIsub o s
  | .imul o => Sys2Proof.Machine.execImul o s
  | .imulh o => Sys2Proof.Machine.execImulh o s
  | .imulhU o => Sys2Proof.Machine.execImulhU o s
  | .imad o => Sys2Proof.Machine.execImad o s
  | .idiv o => Sys2Proof.Machine.execIdiv o s
  | .idivU o => Sys2Proof.Machine.execIdivU o s
  | .irem o => Sys2Proof.Machine.execIrem o s
  | .iremU o => Sys2Proof.Machine.execIremU o s
  | .imin o => Sys2Proof.Machine.execImin o s
  | .iminU o => Sys2Proof.Machine.execIminU o s
  | .imax o => Sys2Proof.Machine.execImax o s
  | .imaxU o => Sys2Proof.Machine.execImaxU o s
  | .iabs o => Sys2Proof.Machine.execIabs o s
  | .and o => Sys2Proof.Machine.execAnd o s
  | .or o => Sys2Proof.Machine.execOr o s
  | .xor o => Sys2Proof.Machine.execXor o s
  | .bmix o fn => Sys2Proof.Machine.execBmix o fn s
  | .shl o => Sys2Proof.Machine.execShl o s
  | .shr o => Sys2Proof.Machine.execShr o s
  | .shrA o => Sys2Proof.Machine.execShrA o s
  | .popc o => Sys2Proof.Machine.execPopc o s
  | .clz o => Sys2Proof.Machine.execClz o s
  | .brev o => Sys2Proof.Machine.execBrev o s
  | .bfe o sx len pos => Sys2Proof.Machine.execBfe o sx len pos s
  | .bfi o len pos => Sys2Proof.Machine.execBfi o len pos s
  | .icmp q qd cc a b k => Sys2Proof.Machine.execIcmp q qd cc a b k s
  | .fcmp q qd cc a b k => Sys2Proof.Machine.execFcmp q qd cc a b k s
  | .qand o => Sys2Proof.Machine.execQand o s
  | .qor o => Sys2Proof.Machine.execQor o s
  | .qxor o => Sys2Proof.Machine.execQxor o s
  | .sel qs d a b k => Sys2Proof.Machine.execSel qs d a b k s
  | .movqRead q d => Sys2Proof.Machine.execMovqRead q d s
  | .movqWrite q a k => Sys2Proof.Machine.execMovqWrite q a k s
  | .fadd o => Sys2Proof.Machine.execFadd o s
  | .fsub o => Sys2Proof.Machine.execFsub o s
  | .fmul o => Sys2Proof.Machine.execFmul o s
  | .fmin o => Sys2Proof.Machine.execFmin o s
  | .fmax o => Sys2Proof.Machine.execFmax o s
  | .ffma o np nc rm => Sys2Proof.Machine.execFfma o np nc rm s
  | .fx o ty op na nb nc rm => Sys2Proof.Machine.execFx o ty op na nb nc rm s
  | .fdiv o rm => Sys2Proof.Machine.execFdiv o rm s
  | .fsqrt o => Sys2Proof.Machine.execFsqrt o s
  | .frcp o => Sys2Proof.Machine.execFrcp o s
  | .frsq o => Sys2Proof.Machine.execFrsq o s
  | .fexp2 o => Sys2Proof.Machine.execFexp2 o s
  | .flog2 o => Sys2Proof.Machine.execFlog2 o s
  | .fsin o => Sys2Proof.Machine.execFsin o s
  | .fcos o => Sys2Proof.Machine.execFcos o s
  | .cvt o st dt sat rm se de => Sys2Proof.Machine.execCvt o st dt sat rm se de s
  | .mov o => Sys2Proof.Machine.execMov o s
  | .movs q d a k => Sys2Proof.Machine.execMovs q d a k s
  | .xlane o g mode => Sys2Proof.Machine.execXlane o g mode s
  | .vote q d p mode => Sys2Proof.Machine.execVote q d p mode s
  | .lfold q d a op k => Sys2Proof.Machine.execLfold q d a op k s
  | .ld o => Sys2Proof.Machine.execLd o s
  | .st o => Sys2Proof.Machine.execSt o s
  | .ldx o off => Sys2Proof.Machine.execLdx o off s
  | .stx o off => Sys2Proof.Machine.execStx o off s
  | .atom o c op ord => Sys2Proof.Machine.execAtom o c op ord s
  | .cas o c e ord => Sys2Proof.Machine.execCas o c e ord s
  | .spawn q a b k => Sys2Proof.Machine.execSpawn q a b k s
  | .mma q fw cn ta tb k => Sys2Proof.Machine.execMma q fw cn ta tb k s
  | .unassignedOpcode w => Sys2Proof.Machine.execUnassignedOpcode w s
  | .sadd o => Sys2Proof.Machine.execSadd o s
  | .ssub o => Sys2Proof.Machine.execSsub o s
  | .smul o => Sys2Proof.Machine.execSmul o s
  | .sand o => Sys2Proof.Machine.execSand o s
  | .sor o => Sys2Proof.Machine.execSor o s
  | .sxor o => Sys2Proof.Machine.execSxor o s
  | .sshl o => Sys2Proof.Machine.execSshl o s
  | .sshr o => Sys2Proof.Machine.execSshr o s
  | .sshrA o => Sys2Proof.Machine.execSshrA o s
  | .smin o => Sys2Proof.Machine.execSmin o s
  | .sminU o => Sys2Proof.Machine.execSminU o s
  | .smax o => Sys2Proof.Machine.execSmax o s
  | .smaxU o => Sys2Proof.Machine.execSmaxU o s
  | .smov d a k => Sys2Proof.Machine.execSmov d a k s
  | .sfadd o rm => Sys2Proof.Machine.execSfadd o rm s
  | .sfmul o rm => Sys2Proof.Machine.execSfmul o rm s
  | .bra off => Sys2Proof.Machine.execBra off s
  | .bcc cc off a b k => Sys2Proof.Machine.execBcc cc off a b k s
  | .bq inv p off => Sys2Proof.Machine.execBq inv p off s
  | .rcv off => Sys2Proof.Machine.execRcv off s
  | .join => Sys2Proof.Machine.execJoin s
  | .call off => Sys2Proof.Machine.execCall off s
  | .ret a => Sys2Proof.Machine.execRet a s
  | .loop c off => Sys2Proof.Machine.execLoop c off s
  | .exit => Sys2Proof.Machine.execExit s
  | .split off => Sys2Proof.Machine.execSplit off s
  | .qld n o => Sys2Proof.Machine.execQld n o s
  | .qst o => Sys2Proof.Machine.execQst o s
  | .bar d a op k => Sys2Proof.Machine.execBar d a op k s
  | .barc => Sys2Proof.Machine.execBarc s
  | .pbarr cl o => Sys2Proof.Machine.execPbarr cl o s
  | .pbwait cl a b k => Sys2Proof.Machine.execPbwait cl a b k s
  | .fence sc => Sys2Proof.Machine.execFence sc s
  | .waitc l st c t => Sys2Proof.Machine.execWaitc l st c t s
  | .waitw d a b cc => Sys2Proof.Machine.execWaitw d a b cc s
  | .sleept a k => Sys2Proof.Machine.execSleept a k s
  | .nop => Sys2Proof.Machine.execNop s
  | .copy d a dsp ssp => Sys2Proof.Machine.execCopy d a dsp ssp s
  | .tld o => Sys2Proof.Machine.execTld o s
  | .tst o => Sys2Proof.Machine.execTst o s
  | .czero m => Sys2Proof.Machine.execCzero m s
  | .cst cn space d a b k => Sys2Proof.Machine.execCst cn space d a b k s
  | .dlaunch d a => Sys2Proof.Machine.execDlaunch d a s
  | .dsigTok a b k => Sys2Proof.Machine.execDsigTok a b k s
  | .dsigAbort a k => Sys2Proof.Machine.execDsigAbort a k s
  | .dstat o => Sys2Proof.Machine.execDstat o s
  | .sgfork d a => Sys2Proof.Machine.execSgfork d a s
  | .sgreward d b k => Sys2Proof.Machine.execSgreward d b k s
  | .sgcancel d a b k => Sys2Proof.Machine.execSgcancel d a b k s
  | .sgwait d a => Sys2Proof.Machine.execSgwait d a s
  | .wdrun o => Sys2Proof.Machine.execWdrun o s
  | .movcRead d n => Sys2Proof.Machine.execMovcRead d n s
  | .movcWrite a n k => Sys2Proof.Machine.execMovcWrite a n k s
  | .trap a code k => Sys2Proof.Machine.execTrap a code k s
  | .eret => Sys2Proof.Machine.execEret s
  | .brk => Sys2Proof.Machine.execBrk s
  | .cflush a b k => Sys2Proof.Machine.execCflush a b k s
  | .cflushAll => Sys2Proof.Machine.execCflushAll s
  | .cinv a b k => Sys2Proof.Machine.execCinv a b k s
  | .cinvAll => Sys2Proof.Machine.execCinvAll s
  | .pref a lvl => Sys2Proof.Machine.execPref a lvl s
  | .stestHold o => Sys2Proof.Machine.execStestHold o s
  | .stestChunk o => Sys2Proof.Machine.execStestChunk o s
  | .stestAppeal o => Sys2Proof.Machine.execStestAppeal o s
  | .stestFree o => Sys2Proof.Machine.execStestFree o s
  | .loadComplete wid op => Sys2Proof.Machine.execLoadComplete wid op s
  | .storeComplete wid op => Sys2Proof.Machine.execStoreComplete wid op s
  | .tileOpComplete wid op => Sys2Proof.Machine.execTileOpComplete wid op s
  | .matrixOpEnd core part => Sys2Proof.Machine.execMatrixOpEnd core part s
  | .copyChunkDone copy chunk => Sys2Proof.Machine.execCopyChunkDone copy chunk s
  | .waitcEnd wid => Sys2Proof.Machine.execWaitcEnd wid s
  | .waitwWake wid => Sys2Proof.Machine.execWaitwWake wid s
  | .waitwRemotePoll wid => Sys2Proof.Machine.execWaitwRemotePoll wid s
  | .pbwaitWake wid => Sys2Proof.Machine.execPbwaitWake wid s
  | .sgwaitWake wid => Sys2Proof.Machine.execSgwaitWake wid s
  | .sleeptWake wid => Sys2Proof.Machine.execSleeptWake wid s
  | .exitDrainEnd wid => Sys2Proof.Machine.execExitDrainEnd wid s
  | .weightBlockFetched wid => Sys2Proof.Machine.execWeightBlockFetched wid s
  | .stestChunkEnd wid => Sys2Proof.Machine.execStestChunkEnd wid s
  | .spawnBinTimer core bin => Sys2Proof.Machine.execSpawnBinTimer core bin s
  | .spawnWarpPlace die => Sys2Proof.Machine.execSpawnWarpPlace die s
  | .nodeStart node => Sys2Proof.Machine.execNodeStart node s
  | .blockPlace node => Sys2Proof.Machine.execBlockPlace node s
  | .nodeComplete node => Sys2Proof.Machine.execNodeComplete node s
  | .timeSliceExpiry node => Sys2Proof.Machine.execTimeSliceExpiry node s
  | .parkedBlockSwap block => Sys2Proof.Machine.execParkedBlockSwap block s
  | .swappedBlockReturn block => Sys2Proof.Machine.execSwappedBlockReturn block s
  | .groupDeadline group => Sys2Proof.Machine.execGroupDeadline group s
  | .workStopComplete node => Sys2Proof.Machine.execWorkStopComplete node s
  | .gangSwitch => Sys2Proof.Machine.execGangSwitch s
  | .switchOverrun => Sys2Proof.Machine.execSwitchOverrun s
  | .create c => Sys2Proof.Machine.execCreate c s
  | .destroy c => Sys2Proof.Machine.execDestroy c s
  | .quiesce c => Sys2Proof.Machine.execQuiesce c s
  | .quiesceResume c => Sys2Proof.Machine.execQuiesceResume c s
  | .submit c => Sys2Proof.Machine.execSubmit c s
  | .teardownDrain c => Sys2Proof.Machine.execTeardownDrain c s
  | .teardownKill c => Sys2Proof.Machine.execTeardownKill c s
  | .arm c => Sys2Proof.Machine.execArm c s
  | .disarm c => Sys2Proof.Machine.execDisarm c s
  | .querySlots c => Sys2Proof.Machine.execQuerySlots c s
  | .queryNode c => Sys2Proof.Machine.execQueryNode c s
  | .invalidate c => Sys2Proof.Machine.execInvalidate c s
  | .invalidateComplete => Sys2Proof.Machine.execInvalidateComplete s
  | .config c => Sys2Proof.Machine.execConfig c s
  | .badcmd c op => Sys2Proof.Machine.execBadcmd c op s
  | .registerWrite off value => Sys2Proof.Machine.execRegisterWrite off value s
  | .memoryWindowRead off len => Sys2Proof.Machine.execMemoryWindowRead off len s
  | .memoryWindowWrite off data => Sys2Proof.Machine.execMemoryWindowWrite off data s
  | .unsupportedRequest off => Sys2Proof.Machine.execUnsupportedRequest off s
  | .attest => Sys2Proof.Machine.execAttest s
  | .access => Sys2Proof.Machine.execAccess s
  | .power => Sys2Proof.Machine.execPower s
  | .record => Sys2Proof.Machine.execRecord s
  | .counters => Sys2Proof.Machine.execCounters s
  | .links => Sys2Proof.Machine.execLinks s
  | .mailboxBadarg => Sys2Proof.Machine.execMailboxBadarg s
  | .moduleReset => Sys2Proof.Machine.execModuleReset s
  | .peerRequest r => Sys2Proof.Machine.execPeerRequest r s
  | .peerTimeout wid op => Sys2Proof.Machine.execPeerTimeout wid op s
  | .cxlTimeout wid op => Sys2Proof.Machine.execCxlTimeout wid op s
  | .cxlLinkDown port => Sys2Proof.Machine.execCxlLinkDown port s
  | .migration slot va pa => Sys2Proof.Machine.execMigration slot va pa s
  | .decoftInstanceStart inst => Sys2Proof.Machine.execDecoftInstanceStart inst s
  | .fuFire inst unit => Sys2Proof.Machine.execFuFire inst unit s
  | .tokenTransit inst route => Sys2Proof.Machine.execTokenTransit inst route s
  | .streamPortAccess inst port => Sys2Proof.Machine.execStreamPortAccess inst port s
  | .streamDataReturn inst port => Sys2Proof.Machine.execStreamDataReturn inst port s
  | .scatterAddBatch inst port => Sys2Proof.Machine.execScatterAddBatch inst port s
  | .bankAccess inst bank => Sys2Proof.Machine.execBankAccess inst bank s
  | .instanceComplete inst => Sys2Proof.Machine.execInstanceComplete inst s
  | .collectiveChunkReceive key src addr data => Sys2Proof.Machine.execCollectiveChunkReceive key src addr data s
  | .collectiveChunkAck node chunk refused => Sys2Proof.Machine.execCollectiveChunkAck node chunk refused s
  | .chunkResend node chunk => Sys2Proof.Machine.execChunkResend node chunk s
  | .collectiveGiveUp node chunk => Sys2Proof.Machine.execCollectiveGiveUp node chunk s
  | .heartbeatSend core => Sys2Proof.Machine.execHeartbeatSend core s
  | .heartbeatReceive core dir packet => Sys2Proof.Machine.execHeartbeatReceive core dir packet s
  | .heartbeatMiss core dir => Sys2Proof.Machine.execHeartbeatMiss core dir s
  | .votePeriod core => Sys2Proof.Machine.execVotePeriod core s
  | .routerReset core => Sys2Proof.Machine.execRouterReset core s
  | .solitarySuspect core => Sys2Proof.Machine.execSolitarySuspect core s
  | .appealTimeout core => Sys2Proof.Machine.execAppealTimeout core s
  | .loamLinkDown port => Sys2Proof.Machine.execLoamLinkDown port s
  | .loamLinkUp port peer => Sys2Proof.Machine.execLoamLinkUp port peer s
  | .operatingPointChange p => Sys2Proof.Machine.execOperatingPointChange p s

end Sys2Proof.Machine
end

