-- ==== Sys2Proof/Machine/Step.lean ====
section
/-! DEFINITION. One step of the module, and the state whose next step executes a given instruction. -/

namespace Sys2Proof.Machine

/-- Execute what a fetch found. -/
def runFetched (f : Fetched) : Host.Outcome State Fault Refusal :=
  match f with
  | .stop s => .next s
  | .run i s => exec i s

/-- One step: the next turn of the agenda. A device step is whole and indivisible (spec/95_what_each_step_holds.md); an instruction
with a word is no device step, and an agenda entry that names one does nothing. -/
def step (s : State) : Host.Outcome State Fault Refusal :=
  let t := s.nextTurn
  match t.1 with
  | .tick ns => .next (t.2.pass ns)
  | .device i => if i.isDevice then exec i t.2 else .next t.2
  | .issue wid => runFetched (State.fetch { t.2 with agent := .warp wid } wid false)
  | .slice wid => runFetched (State.fetch { t.2 with agent := .slice wid } wid true)
  | .access wid op => .next (performEarly wid op t.2)
  | .unit copy place => .next (moveEarly copy place t.2)
  | .part node place => .next (chunkEarly node place t.2)
  | .register off => .next (t.2.registerRead off)
  | .delta d => .next (deltaArrives d t.2)
  | .barrier => .next (applyDeltas t.2)

/-- The state in which a warp's next turn executes the instruction whose bits are `w` (log 3). -/
def State.withFetchWord (s : State) (nbits w : Nat) : State := s.placeWords (tableWords nbits w)

end Sys2Proof.Machine
end

