-- ==== Sys2Proof/Safety.lean ====
section
/-! DEFINITION. What counts as a safe run, and the terms in which the statements about this machine are made: when an instruction
passes every check that precedes its own meaning, what a destination holds afterwards, and what stays as it was. -/

namespace Sys2Proof.Machine

/-! ## Safe runs -/

/-- The step answers a next state. -/
def Goes (s : State) : Prop := ∃ t, step s = .next t

/-- A state that a safe run may hold. -/
def Safe (s : State) : Prop := s.mem.wf = true ∧ Goes s

/-! ## An instruction that issues -/

/-- The stream is not held up (R33, R193), no error is due at the instruction (R368), and it passes steps 4 to 8 of R378: it is
allowed here, its queues are ready, and no register that it reads carries bad check bits. -/
def passes (i : Instr) (s : State) (wid : Nat) (w : Warp) (p : Part) (slice : Bool) : Bool :=
  !s.blocked wid w slice i && (slice || (dueError w i).isNone) && (s.illegal w p slice i).isNone
    && !queuesStall w (opnds i) && !badUniform (badRegs w slice) (opnds i) && s.dyingLanes wid (activeMask w (guardOf i)) i == 0

/-- The instruction in the stream of a warp or of its slice, where it passes. -/
def readyBy (i : Instr) (s : State) (wid : Nat) (slice : Bool) : Option Ctx :=
  match tget s.warps wid with
  | none => none
  | some w =>
    match tget s.parts w.part with
    | none => none
    | some p => if passes i s wid w p slice then some ⟨s, wid, w, p, slice, i, activeMask w (guardOf i), w.laneok⟩ else none

/-- The instruction in the stream that is executing, where it passes: the premise under which it has its own effect. -/
def ready (i : Instr) (s : State) : Option Ctx :=
  match s.agent with
  | .none => none
  | .warp wid => readyBy i s wid false
  | .slice wid => readyBy i s wid true

/-! ## What an instruction leaves -/

/-- A destination register of a lane form: the active lanes hold the new values and every other lane and register is as it was; a
destination sq0 appends one entry; vzero takes nothing (R140, R163). -/
def Written (m : Mask) (d : VOp) (f : Lane → Word) (w v : Warp) : Prop :=
  match d with
  | .v n => (∀ l : Lane, v.vregs[n][l] = if m.getLsbD l.val then f l else w.vregs[n][l])
      ∧ (∀ k : Fin 120, k ≠ n → v.vregs[k] = w.vregs[k]) ∧ v.sq = w.sq
  | .sq => v.vregs = w.vregs ∧ ∃ e : QEntry, v.sq = w.sq ++ [e] ∧ e.full = true ∧ e.mask = m
      ∧ ∀ l : Lane, e.row[l] = if m.getLsbD l.val then f l else 0
  | _ => v.vregs = w.vregs ∧ v.sq = w.sq

/-- The queues that an instruction reads have each lost their head, once (R44). -/
def Popped (i : Instr) (w v : Warp) : Prop :=
  ∀ n : Fin 4, v.aq[n] = if (namedQueues (opnds i).vs).contains n then (w.aq[n]).drop 1 else w.aq[n]

/-- A predicate of a lane form: the active lanes hold the new values; the other lanes and predicates, and q0, are as they were
(R144). -/
def PredWritten (m : Mask) (p : Fin 8) (f : Lane → Bool) (w v : Warp) : Prop :=
  (∀ l : Lane, p ≠ 0 → v.preds[p].getLsbD l.val = if m.getLsbD l.val then f l else w.preds[p].getLsbD l.val)
    ∧ ∀ k : Fin 8, k ≠ p ∨ k = 0 → v.preds[k] = w.preds[k]

/-- The warp after an instruction of a stream that writes uniform register `d` of that stream and goes on at `a`: everything else of
the warp is as it was (R43). -/
def SregWritten (slice : Bool) (d : SOp) (x : Word) (a : DWord) (w v : Warp) : Prop :=
  match d with
  | .lit => False
  | .s n =>
    if slice then ∃ y : Slice, w.slice = some y ∧ v = { w with slice := some { y with pc := a, sregs := y.sregs.set n x, badSregs := y.badSregs.filter (· != n.val) } }
    else v = { w with pc := a, sregs := w.sregs.set n x, badSregs := w.badSregs.filter (· != n.val) }

/-- The warp after an instruction of a stream that only goes on at `a`. -/
def WentTo (slice : Bool) (a : DWord) (w v : Warp) : Prop :=
  if slice then ∃ y : Slice, w.slice = some y ∧ v = { w with slice := some { y with pc := a } } else v = { w with pc := a }

/-- What an instruction that concerns only its warp leaves in the module: everything but that warp, the event counters (R345), the
count of issued instructions in the core's heartbeat (R427), and the marks of registers whose words are good again (R388).
Every byte of memory stays. -/
structure OnlyWarp (wid : Nat) (s t : State) : Prop where
  rest : t = { s with warps := t.warps, counters := t.counters, cores := t.cores, bad := t.bad, reported := t.reported }
  bytes : ∀ a, t.mem.get a = s.mem.get a
  others : ∀ j, j ≠ wid → tget t.warps j = tget s.warps j
  fences : ∀ k, { t.coreFence k with issuedSince := 0 } = { s.coreFence k with issuedSince := 0 }
  marks : (∀ a ∈ t.bad, a ∈ s.bad) ∧ ∀ a ∈ t.reported, a ∈ s.reported

/-! ## Rounding -/

/-- The rational number that a finite value stands for. -/
def FVal.rat : FVal → Option ℚ
  | .fin s m e => some ((if s then -1 else 1) * m * 2 ^ e)
  | _ => none

/-- The value has a minus sign. -/
def FVal.negative : FVal → Bool
  | .fin s _ _ | .inf s => s
  | .nan _ => false

/-- The largest finite value of a format, and half a unit of its last place. -/
def Fmt.most (f : Fmt) : ℚ := (2 ^ (f.mb + 1) - 1) * 2 ^ ((f.bias : Int) - f.mb)
def Fmt.halfUnit (f : Fmt) : ℚ := 2 ^ ((f.bias : Int) - f.mb - 1)

/-- `p` is the value of a pattern of the format. -/
def Fmt.holds (f : Fmt) (p : ℚ) : Prop := ∃ y, (decodeF f y).rat = some p

/-- The pattern of a value that a nonzero result `v` may be rounded to, by the mode (R60, R70). -/
def Fmt.rounds (f : Fmt) (rm : RMode) (v : ℚ) (x : Nat) : FVal → Prop
  | .nan _ => False
  | .inf _ =>
    match rm with
    | .rne => f.most + f.halfUnit ≤ |v|
    | .rtz => False
    | .rdn => v < -f.most
    | .rup => f.most < v
  | .fin s m e =>
    ∀ q, (FVal.fin s m e).rat = some q →
    match rm with
    | .rne => |v| < f.most + f.halfUnit ∧ ∀ p, f.holds p → |q - v| ≤ |p - v| ∧ (|q - v| = |p - v| → p ≠ q → x % 2 = 0)
    | .rtz => |q| ≤ |v| ∧ ∀ p, f.holds p → |p| ≤ |v| → |p| ≤ |q|
    | .rdn => q ≤ v ∧ ∀ p, f.holds p → p ≤ v → p ≤ q
    | .rup => v ≤ q ∧ ∀ p, f.holds p → v ≤ p → q ≤ p

/-- `r` is the nonzero number `v` rounded once to the format by the mode, with the sign of `v` and the flags of the rounding
(R60, R62). -/
structure RoundsTo (f : Fmt) (rm : RMode) (v : ℚ) (r : Nat × Flags) : Prop where
  fits : r.1 < 2 ^ (f.eb + f.mb + 1)
  sign : r.1 / 2 ^ (f.eb + f.mb) = if v < 0 then 1 else 0
  near : f.rounds rm v r.1 (decodeF f r.1)
  nx : r.2 &&& flNx ≠ 0 ↔ (decodeF f r.1).rat ≠ some v
  unf : r.2 &&& flUnf ≠ 0 ↔ ∃ q, (decodeF f r.1).rat = some q ∧ q ≠ v ∧ |q| < 2 ^ (1 - (f.bias : Int))
  ovf : r.2 &&& flOvf ≠ 0 ↔ (decodeF f r.1).rat = none ∨ 2 ^ ((f.bias : Int) + 1) ≤ |v|
  rest : r.2 &&& ~~~(flNx ||| flUnf ||| flOvf) = 0

end Sys2Proof.Machine
end

