-- ==== Sys2Proof/Certificates/Slice0/Obligations.lean ====
section
/-! DEFINITION. The statements about this machine, behind the tables and relations in which they are written. `ready i s = some c`
is the premise under which instruction `i` has its own effect; a statement that concludes `exec i s = .next t` says that the
instruction then completes. -/

namespace Sys2Proof.Machine

/-! ## Lane instructions -/

/-- The instruction completes: destination `d` holds `f` in the active lanes, the flags `g` accrue, the queues that it reads lose
their heads, the next instruction follows, and nothing else of the warp or of the module changes. -/
def HasLaneEffect (i : Instr) (s : State) (c : Ctx) (d : VOp) (f : Lane → Word) (g : Flags) : Prop :=
  ∃ t v, exec i s = .next t ∧ tget t.warps c.wid = some v ∧ Written c.act d f c.w v ∧ Popped i c.w v ∧ OnlyWarp c.wid s t
    ∧ v = { c.w with pc := c.nextPc, vregs := v.vregs, sq := v.sq, nextTicket := v.nextTicket, aq := v.aq,
                     fflags := c.w.fflags ||| g }

/-- Destination and value in each lane of the integer arithmetic instructions, in exact integers (R57, R58, R165, R166). -/
def arithValue : Instr → Option (VOp × (Ctx → Lane → Word))
  | .iadd o => some (o.d, fun c l => BitVec.ofNat 32 ((c.v o.a l).toNat + (c.v o.b l).toNat))
  | .isub o => some (o.d, fun c l => BitVec.ofInt 32 ((c.v o.a l).toNat - (c.v o.b l).toNat))
  | .imul o => some (o.d, fun c l => BitVec.ofNat 32 ((c.v o.a l).toNat * (c.v o.b l).toNat))
  | .imulh o => some (o.d, fun c l => BitVec.ofInt 32 ((c.v o.a l).toInt * (c.v o.b l).toInt / 2 ^ 32))
  | .imulhU o => some (o.d, fun c l => BitVec.ofNat 32 ((c.v o.a l).toNat * (c.v o.b l).toNat / 2 ^ 32))
  | .imad o => some (o.d, fun c l => BitVec.ofNat 32 ((c.v o.a l).toNat * (c.v o.b l).toNat + (c.v o.c l).toNat))
  | .idiv o => some (o.d, fun c l =>
      if c.v o.b l = 0 then BitVec.allOnes 32 else BitVec.ofInt 32 ((c.v o.a l).toInt.tdiv (c.v o.b l).toInt))
  | .idivU o => some (o.d, fun c l =>
      if c.v o.b l = 0 then BitVec.allOnes 32 else BitVec.ofNat 32 ((c.v o.a l).toNat / (c.v o.b l).toNat))
  | .irem o => some (o.d, fun c l => BitVec.ofInt 32 ((c.v o.a l).toInt.tmod (c.v o.b l).toInt))
  | .iremU o => some (o.d, fun c l => BitVec.ofNat 32 ((c.v o.a l).toNat % (c.v o.b l).toNat))
  | .imin o => some (o.d, fun c l => BitVec.ofInt 32 (min (c.v o.a l).toInt (c.v o.b l).toInt))
  | .iminU o => some (o.d, fun c l => BitVec.ofNat 32 (min (c.v o.a l).toNat (c.v o.b l).toNat))
  | .imax o => some (o.d, fun c l => BitVec.ofInt 32 (max (c.v o.a l).toInt (c.v o.b l).toInt))
  | .imaxU o => some (o.d, fun c l => BitVec.ofNat 32 (max (c.v o.a l).toNat (c.v o.b l).toNat))
  | .iabs o => some (o.d, fun c l => BitVec.ofNat 32 (c.v o.a l).toInt.natAbs)
  | _ => none

/-- The same for logic, shifts, counts and bit fields, bit by bit or as powers of two (R167-R170). -/
def bitsValue : Instr → Option (VOp × (Ctx → Lane → Word))
  | .and o => some (o.d, fun c l => BitVec.ofFnLE fun j : Fin 32 => (c.v o.a l).getLsbD j && (c.v o.b l).getLsbD j)
  | .or o => some (o.d, fun c l => BitVec.ofFnLE fun j : Fin 32 => (c.v o.a l).getLsbD j || (c.v o.b l).getLsbD j)
  | .xor o => some (o.d, fun c l => BitVec.ofFnLE fun j : Fin 32 => (c.v o.a l).getLsbD j != (c.v o.b l).getLsbD j)
  | .bmix o fn => some (o.d, fun c l => BitVec.ofFnLE fun j : Fin 32 =>
      fn.getLsbD (((c.v o.c l).getLsbD j).toNat * 4 + ((c.v o.b l).getLsbD j).toNat * 2 + ((c.v o.a l).getLsbD j).toNat))
  | .shl o => some (o.d, fun c l => BitVec.ofNat 32 ((c.v o.a l).toNat * 2 ^ (c.v o.b l).toNat))
  | .shr o => some (o.d, fun c l => BitVec.ofNat 32 ((c.v o.a l).toNat / 2 ^ (c.v o.b l).toNat))
  | .shrA o => some (o.d, fun c l => BitVec.ofInt 32 ((c.v o.a l).toInt / 2 ^ (c.v o.b l).toNat))
  | .popc o => some (o.d, fun c l => BitVec.ofNat 32 ((List.range 32).countP fun j => (c.v o.a l).getLsbD j))
  | .clz o => some (o.d, fun c l => BitVec.ofNat 32 (32 - Nat.size (c.v o.a l).toNat))
  | .brev o => some (o.d, fun c l => BitVec.ofFnLE fun j : Fin 32 => (c.v o.a l).getLsbD (31 - j))
  | .bfe o sx len pos => some (o.d, fun c l =>
      if sx then ((c.v o.a l).extractLsb' pos.toNat len.toNat).signExtend 32
      else ((c.v o.a l).extractLsb' pos.toNat len.toNat).setWidth 32)
  | .bfi o len pos => some (o.d, fun c l => BitVec.ofFnLE fun j : Fin 32 =>
      if pos.toNat ≤ j && j < pos.toNat + len.toNat then (c.v o.a l).getLsbD (j - pos.toNat) else (c.v o.b l).getLsbD j)
  | _ => none

/-- The same for moves and selection (R173, R174, R180). -/
def moveValue : Instr → Option (VOp × (Ctx → Lane → Word))
  | .sel qs d a b _ => some (d, fun c l => if predLane c.w qs l.val then c.v a l else c.v b l)
  | .movqRead _ d => some (d, fun c l => BitVec.ofFnLE fun j : Fin 32 => j.val < 8 && predLane c.w (Fin.ofNat 8 j.val) l.val)
  | .mov o => some (o.d, fun c l => c.v o.a l)
  | .movs _ d a _ => some (d, fun c _ => c.sv a)
  | _ => none

/-- Destination, value and flags in each lane of the 32-bit floating-point instructions (R175-R179): the operations are those of
Machine/Float.lean. -/
def floatValue : Instr → Option (VOp × (Ctx → Lane → Word × Flags))
  | .fadd o => some (o.d, fun c l => fadd32 .rne (c.v o.a l) (c.v o.b l))
  | .fsub o => some (o.d, fun c l => fadd32 .rne (c.v o.a l) (c.v o.b l ^^^ 0x80000000))
  | .fmul o => some (o.d, fun c l => fmul32 .rne (c.v o.a l) (c.v o.b l))
  | .fmin o => some (o.d, fun c l => fmin32 (c.v o.a l) (c.v o.b l))
  | .fmax o => some (o.d, fun c l => fmax32 (c.v o.a l) (c.v o.b l))
  | .ffma o np nc rm => some (o.d, fun c l =>
      pack32 (fmaV fp32 rm np (dec32 (c.v o.a l)) (dec32 (c.v o.b l)) (FVal.negIf nc (dec32 (c.v o.c l)))))
  | .fdiv o rm => some (o.d, fun c l => pack32 (divV fp32 rm (dec32 (c.v o.a l)) (dec32 (c.v o.b l))))
  | .fsqrt o => some (o.d, fun c l => pack32 (sqrtV fp32 .rne (dec32 (c.v o.a l))))
  | .frcp o => some (o.d, fun c l => pack32 (rcpV fp32 .rne (dec32 (c.v o.a l))))
  | .frsq o => some (o.d, fun c l => pack32 (rsqV fp32 .rne (dec32 (c.v o.a l))))
  | .fexp2 o => some (o.d, fun c l => pack32 (exp2V (dec32 (c.v o.a l))))
  | .flog2 o => some (o.d, fun c l => pack32 (log2V (dec32 (c.v o.a l))))
  | .fsin o => some (o.d, fun c l => pack32 (sinV (dec32 (c.v o.a l))))
  | .fcos o => some (o.d, fun c l => pack32 (cosV (dec32 (c.v o.a l))))
  | .fx o ty op na nb nc rm =>
    if ty = .f64 then none
    else some (o.d, fun c l => pack32 (fxValue ty op na nb nc rm (c.v o.a l).toNat (c.v o.b l).toNat (c.v o.c l).toNat))
  | .cvt o st dt sat rm se de =>
    if tyWidth dt = 64 then none
    else some (o.d, fun c l =>
      let x := if tyWidth st = 64 then (src64 c.w o.a l).toNat else (c.v o.a l).toNat
      let r := convert st dt sat rm (subElem st se.toNat x)
      if tyWidth dt = 32 then pack32 r else (putElem dt de.toNat (srcAt c.w o.d 0 l) r.1, r.2))
  | _ => none

/-- Destination, value and flags of the instructions with a 64-bit result: `fx` on FP64 and `cvt` to a 64-bit type. -/
def wideValue : Instr → Option (VOp × (Ctx → Lane → DWord × Flags))
  | .fx o ty op na nb nc rm =>
    if ty = .f64 then some (o.d, fun c l =>
      let r := fxValue ty op na nb nc rm (src64 c.w o.a l).toNat (src64 c.w o.b l).toNat (src64 c.w o.c l).toNat
      (BitVec.ofNat 64 r.1, r.2))
    else none
  | .cvt o st dt sat rm se _ =>
    if tyWidth dt = 64 then some (o.d, fun c l =>
      let x := if tyWidth st = 64 then (src64 c.w o.a l).toNat else (c.v o.a l).toNat
      let r := convert st dt sat rm (subElem st se.toNat x)
      (BitVec.ofNat 64 r.1, r.2))
    else none
  | _ => none

/-- A register pair as the destination of a lane form: the even register holds the low word (R7, R163). -/
def WrittenPair (m : Mask) (d : VOp) (f : Lane → DWord) (w v : Warp) : Prop :=
  match d with
  | .v n => ∀ (k : Fin 120) (l : Lane), v.vregs[k][l] =
      if m.getLsbD l.val && k.val == n.val then (f l).extractLsb' 0 32
      else if m.getLsbD l.val && k.val == n.val + 1 then (f l).extractLsb' 32 32 else w.vregs[k][l]
  | _ => v.vregs = w.vregs

/-- The predicate that an instruction writes, its value in each lane, and the flags that it raises (R171, R172). -/
def predValue : Instr → Option (Fin 8 × (Ctx → Lane → Bool) × (Ctx → Flags))
  | .icmp _ qd cc a b _ => some (qd, fun c l => icond cc (c.v a l) (c.v b l), fun _ => 0)
  | .fcmp _ qd cc a b _ => some (qd, fun c l => fcond cc (dec32 (c.v a l)) (dec32 (c.v b l)),
      fun c => if (lanesOf c.act).any fun l => (dec32 (c.v a l)).isSNan || (dec32 (c.v b l)).isSNan then flNv else 0)
  | .qand o => some (o.qd, fun c l => (predLane c.w o.qa l.val != o.na) && (predLane c.w o.qb l.val != o.nb), fun _ => 0)
  | .qor o => some (o.qd, fun c l => (predLane c.w o.qa l.val != o.na) || (predLane c.w o.qb l.val != o.nb), fun _ => 0)
  | .qxor o => some (o.qd, fun c l => (predLane c.w o.qa l.val != o.na) != (predLane c.w o.qb l.val != o.nb), fun _ => 0)
  | _ => none

/-! ## Uniform instructions -/

/-- The uniform register that an instruction writes, its value, and the flags that it raises (R182, R183, R206). -/
def uniformValue : Instr → Option (SOp × (Ctx → Word) × (Ctx → Flags))
  | .sadd o => some (o.d, fun c => BitVec.ofNat 32 ((c.sv o.a).toNat + (c.sv o.b).toNat), fun _ => 0)
  | .ssub o => some (o.d, fun c => BitVec.ofInt 32 ((c.sv o.a).toNat - (c.sv o.b).toNat), fun _ => 0)
  | .smul o => some (o.d, fun c => BitVec.ofNat 32 ((c.sv o.a).toNat * (c.sv o.b).toNat), fun _ => 0)
  | .sand o => some (o.d, fun c => c.sv o.a &&& c.sv o.b, fun _ => 0)
  | .sor o => some (o.d, fun c => c.sv o.a ||| c.sv o.b, fun _ => 0)
  | .sxor o => some (o.d, fun c => c.sv o.a ^^^ c.sv o.b, fun _ => 0)
  | .sshl o => some (o.d, fun c => BitVec.ofNat 32 ((c.sv o.a).toNat * 2 ^ (c.sv o.b).toNat), fun _ => 0)
  | .sshr o => some (o.d, fun c => BitVec.ofNat 32 ((c.sv o.a).toNat / 2 ^ (c.sv o.b).toNat), fun _ => 0)
  | .sshrA o => some (o.d, fun c => BitVec.ofInt 32 ((c.sv o.a).toInt / 2 ^ (c.sv o.b).toNat), fun _ => 0)
  | .smin o => some (o.d, fun c => BitVec.ofInt 32 (min (c.sv o.a).toInt (c.sv o.b).toInt), fun _ => 0)
  | .sminU o => some (o.d, fun c => BitVec.ofNat 32 (min (c.sv o.a).toNat (c.sv o.b).toNat), fun _ => 0)
  | .smax o => some (o.d, fun c => BitVec.ofInt 32 (max (c.sv o.a).toInt (c.sv o.b).toInt), fun _ => 0)
  | .smaxU o => some (o.d, fun c => BitVec.ofNat 32 (max (c.sv o.a).toNat (c.sv o.b).toNat), fun _ => 0)
  | .smov d a _ => some (d, fun c => c.sv a, fun _ => 0)
  | .sfadd o rm => some (o.d, fun c => (fadd32 rm (c.sv o.a) (c.sv o.b)).1, fun c => (fadd32 rm (c.sv o.a) (c.sv o.b)).2)
  | .sfmul o rm => some (o.d, fun c => (fmul32 rm (c.sv o.a) (c.sv o.b)).1, fun c => (fmul32 rm (c.sv o.a) (c.sv o.b)).2)
  | .vote _ d p .ballot => some (d, fun c => maskOf fun l => c.act.getLsbD l.val && predLane c.w p l.val, fun _ => 0)
  | .vote _ d p .all => some (d, fun c => if (lanesOf c.act).all fun l => predLane c.w p l.val then 1 else 0, fun _ => 0)
  | .vote _ d p .any => some (d, fun c => if (lanesOf c.act).any fun l => predLane c.w p l.val then 1 else 0, fun _ => 0)
  | .lfold _ d a op _ =>
    let tree (c : Ctx) := foldTree op 5 ((List.finRange 32).map fun l => if c.act.getLsbD l.val then some (c.v a l) else none)
    some (d, fun c => (tree c).1, fun c => (tree c).2)
  | _ => none

/-! ## One warp's effect -/

/-- The instruction completes from state `e.s`, leaves warp `e.wid` as `v`, and changes nothing else. -/
def LeadsFrom (i : Instr) (s : State) (e : Ctx) (v : Warp) : Prop :=
  ∃ t, exec i s = .next t ∧ tget t.warps e.wid = some v ∧ OnlyWarp e.wid e.s t

/-! ## Control -/

/-- The target of an offset (R139). -/
def targetOf (c : Ctx) (off : BitVec 20) : DWord := BitVec.ofInt 64 (c.pc.toInt + 4 * off.toInt)

/-- The live lanes of the path that a `bq` sends to its target (R213). -/
def takenLanes (c : Ctx) (inv : Bool) (p : Fin 8) : Mask :=
  maskOf fun l => c.w.path.getLsbD l.val && c.w.laneok.getLsbD l.val && (predLane c.w p l.val != inv)

/-- The live lanes of the path that it leaves behind. -/
def leftLanes (c : Ctx) (inv : Bool) (p : Fin 8) : Mask :=
  maskOf fun l => c.w.path.getLsbD l.val && c.w.laneok.getLsbD l.val && (predLane c.w p l.val == inv)

/-- Where a branch that is taken goes (R207, R209). -/
def jumpTo : Instr → Ctx → Option DWord
  | .bra off, c => some (targetOf c off)
  | .bcc cc off a b _, c => if icond cc (c.sv a) (c.sv b) then some (targetOf c off) else none
  | .bq inv p off, c => if takenLanes c inv p ≠ 0 ∧ leftLanes c inv p = 0 then some (targetOf c off) else none
  | .ret a, c => some (c.sv64 a)
  | _, _ => none

/-- The instruction has no effect but to go on (R207, R213, R221). -/
def goesOn : Instr → Ctx → Prop
  | .nop, _ => True
  | .bcc cc _ a b _, c => icond cc (c.sv a) (c.sv b) = false
  | .bq inv p _, c => takenLanes c inv p = 0
  | .fence sc, c => sc = .warp ∧ c.w.ops = []
  | _, _ => False

/-! ## Traps -/

/-- A warp in its handler after a precise or imprecise trap that is no trap of its slice (R370, R371). -/
def entered (w : Warp) (t : Trap) (epc : DWord) (imp : Bool) : Warp :=
  { w with
    cause := BitVec.ofNat 32 (t.code.toNat + 2 ^ 8 * t.lane.toNat + 2 ^ 16 * t.swcode.toNat)
    epc := epc &&& 0x007FFFFFFFFFFFFC
    eval := t.value
    status := (w.status &&& 0x10) ||| (if imp then 3 else 1)
    pc := w.tvec
    wait := none }

/-- The compute stream of warp `wid` executes, nothing holds instruction `i` up, and no error is due at it. -/
structure Reaches (i : Instr) (s : State) (wid : Nat) (w : Warp) (p : Part) : Prop where
  agent : s.agent = .warp wid
  warp : tget s.warps wid = some w
  part : tget s.parts w.part = some p
  free : s.blocked wid w false i = false
  due : dueError w i = none

/-! ## Control registers (R145, R370) -/

/-- The number of a control register that a warp may write, and the warp after a write of `v` (R370). -/
def crAfter : Nat → DWord → Warp → Warp
  | 0x000, v, w => { w with status := BitVec.ofFnLE fun j : Fin 5 =>
      if j = 3 then v.getLsbD 3 else if j = 4 then w.status.getLsbD 4 && !v.getLsbD 4 else w.status.getLsbD j.val }
  | 0x001, v, w => { w with cause := v.setWidth 32 &&& 0x003F3FFF }
  | 0x002, v, w => { w with epc := v &&& 0x007FFFFFFFFFFFFC }
  | 0x003, v, w => { w with eval := v }
  | 0x004, v, w => { w with tvec := v &&& 0x007FFFFFFFFFFFFC }
  | 0x005, v, w => { w with fflags := v.setWidth 7 }
  | _, _, w => w

/-- What a control register reads (R30, R37, R145, R243, R324, R370), for the numbers that do not depend on the block's shape or on
the context. -/
def crValue : Nat → Option (Ctx → DWord)
  | 0x000 => some fun c => c.w.status.setWidth 64
  | 0x001 => some fun c => c.w.cause.setWidth 64
  | 0x002 => some fun c => c.w.epc
  | 0x003 => some fun c => c.w.eval
  | 0x004 => some fun c => c.w.tvec
  | 0x005 => some fun c => c.w.fflags.setWidth 64
  | 0x006 => some fun c => c.w.laneok.setWidth 64
  | 0x009 => some fun c => c.w.role.setWidth 64
  | 0x00A => some fun c => c.w.rbase.setWidth 64
  | 0x00B => some fun c => c.w.rcount.setWidth 64
  | 0x00C => some fun c => c.p.sbase.setWidth 64
  | 0x00D => some fun c => c.w.pbase.setWidth 64
  | 0x00E => some fun c => c.w.plimit.setWidth 64
  | 0x010 => some fun c => BitVec.ofNat 64 c.p.core
  | 0x018 => some fun c => c.s.gtime
  | _ => none

/-! ## Accesses -/

/-- A release completes in state `e.s`: the accesses before it are performed, the warp's dirty private lines are written back, none
of them waiting for a migration, and no error is due at the instruction (R104, R111, R125, R368). -/
def released (c : Ctx) : Option Ctx :=
  if !c.quiet || c.s.backStalled c.wid then none
  else match c.s.releaseLines c.w.part c.wid c.p.l1 with
    | (s1, .done) => if (dueError (c.with s1).w c.i).isNone then some (c.with s1) else none
    | _ => none

/-- The state in which an access with or without a release has its effect. With no active lane there is no access and no release
(R379). -/
def releasedIf (r : Bool) (c : Ctx) : Option Ctx := if r && c.act != 0 then released c else some c

/-- A warp with nothing to wait for before a release: no access of it is outstanding, it holds no dirty private line, and no page
migrates. `released c = some c` for it. -/
structure AtRest (c : Ctx) : Prop where
  ops : c.w.ops = []
  lines : ∀ l ∈ c.p.l1, l.owner = some c.wid → l.dirty = false
  still : c.s.migration = none

/-- Every piece of an access, by number and address, lies in the part's own scratchpad, and no copy holds a lock. -/
def OwnPieces (c : Ctx) (n : Nat) (ps : List (Nat × Nat)) : Prop :=
  (∀ x ∈ ps, x.2 + n ≤ c.p.scratch ∧ x.2 + n ≤ 0x100000) ∧ c.s.copies = []

/-- The accesses of pieces in the part's own scratchpad. -/
def ownAccs (c : Ctx) (n : Nat) (ps : List (Nat × Nat)) : List Acc :=
  ps.map fun x => ⟨x.1, 0, x.2, onchipPlace (scratchLoc c.w.part x.2), n, 0, 0⟩

/-- The instruction completes and leaves operation `x` outstanding: the warp has one operation more, counted, and one name fewer to
give, and the queues that it reads have lost their heads; nothing else of it changes. -/
def Leaves (i : Instr) (s : State) (e : Ctx) (x : OutOp) : Prop :=
  LeadsFrom i s e (setPc e.slice e.nextPc { e.w with
    ops := e.w.ops ++ [x]
    nextOp := e.w.nextOp + 1
    issued := e.w.issued.set (ctrIdx x.ctr) (e.w.issued[ctrIdx x.ctr] + 1)
    aq := (popQueues (namedQueues (opnds i).vs) e.w).aq })

/-- The bytes of a lane's datum that one access writes. -/
def accessData (v : Nat → Nat) (as : List Acc) : List Acc := as.map fun a => { a with data := v a.lane / 256 ^ a.off % 256 ^ a.n }

/-- A load's form: with its offset (R187, R189). -/
def loadForm : Instr → Option (FormM × Word)
  | .ld o => some (o, 0)
  | .ldx o off => some (o, off)
  | _ => none

/-- A store's form: with its offset (R188, R189). -/
def storeForm : Instr → Option (FormM × Word)
  | .st o => some (o, 0)
  | .stx o off => some (o, off)
  | _ => none

/-- An atomic's form: its order, what it does at completion, its operand and the value that `cas` stores (R190, R191). -/
def atomForm : Instr → Option (FormM × Ord × OpKind × VOp × Option VOp)
  | .atom o x op od => some (o, od, .atom op o.size o.d, x, none)
  | .cas o x e od => some (o, od, .cas o.size o.d, x, some e)
  | _ => none

/-- The instruction completes from state `e.s` as an acquire: it leaves warp `e.wid` as `v`, the part's L1 copies of global lines are
discarded, and nothing else changes (R94, R111). -/
def LeadsAcquiring (i : Instr) (s : State) (e : Ctx) (v : Warp) : Prop :=
  ∃ t, exec i s = .next (t.discardGlobal e.w.part) ∧ tget t.warps e.wid = some v ∧ OnlyWarp e.wid e.s t

/-- The instruction issues and its warp waits at it: the program counter stays (R33). -/
def Waits (i : Instr) (s : State) (c : Ctx) (k : WaitKind) : Prop :=
  LeadsFrom i s c { c.w with wait := some ⟨k, i.length, c.s.gtime.toNat⟩ }

/-- The warp after an instruction that writes uniform register `d` of the warp, its queues popped, and the next instruction. -/
def wrote (c : Ctx) (d : Fin 63) (x : Word) : Warp :=
  { c.w with pc := c.nextPc, sregs := c.w.sregs.set d x, badSregs := c.w.badSregs.filter (· != d.val) }

/-- The warp after an instruction that only goes on. -/
def passed (c : Ctx) : Warp := { c.w with pc := c.nextPc }

/-- Bits of 32 that a load of a size gives register `j` of its destination (R187). -/
def loadedWord (z : Size) (j v : Nat) : Word :=
  match z with
  | .d | .q16 => BitVec.ofNat 32 (v / 2 ^ (32 * j))
  | .sb => BitVec.ofInt 32 ((BitVec.ofNat 8 v).toInt)
  | .sh => BitVec.ofInt 32 ((BitVec.ofNat 16 v).toInt)
  | _ => BitVec.ofNat 32 v

/-- Nothing carries bad check bits, no block is poisoned, no bit of DRAM is wrong, and no page's accesses are counted. -/
structure Clean (s : State) : Prop where
  words : s.bad = []
  blocks : s.poison = []
  bits : s.flips = []
  counts : s.counterTable = none

/-- A record of `n` bytes lies in the stack tier from `base` on, below the management area, on pages that no migration moves; what it
holds itself takes no part in its translation. -/
structure RecordAt (s : State) (slot : Fin 8) (va n base : Nat) : Prop where
  walks : ∀ t : State, t.ctxs = s.ctxs → Clean t → (∀ a, a < base ∨ base + n ≤ a → t.mem.get a = s.mem.get a) →
    ∀ i, i < n → ∃ p, t.ctxPlace slot (va + i) = some p ∧ p.pa = base + i ∧ p.loc = base + i ∧ p.tier = 0 ∧ p.mig = false
  inside : base + n ≤ mgmtBase

/-- One access of a warp to its part's own scratchpad, to words with good check bits. -/
structure OwnAccess (s : State) (wid op : Nat) (w : Warp) (o : OutOp) (a : Acc) (part off : Nat) : Prop where
  due : s.readyOp wid op = some (w, o)
  one : o.accs = [a]
  fresh : o.vals = [] ∧ o.dead = 0 ∧ o.err = none
  space : o.space = .s
  place : a.place = onchipPlace (scratchLoc part off)
  inside : off + a.n ≤ 0x100000
  good : s.bad = []
  clean : s.poison = []
  mem : s.mem.wf = true
  live : w.ended = false
  plain : o.acq = none

/-- One global access of a warp to the stack tier, which no line of its part's L1 holds, with nothing wrong or counted there. -/
structure GlobalAccess (s : State) (wid op : Nat) (w : Warp) (o : OutOp) (a : Acc) : Prop where
  due : s.readyOp wid op = some (w, o)
  one : o.accs = [a]
  fresh : o.vals = [] ∧ o.dead = 0 ∧ o.err = none
  space : o.space = .g
  tier : a.place.tier = 0
  answered : a.place.lost = false ∧ a.place.refused = false
  inside : a.place.loc + a.n ≤ physTop
  clean : Clean s
  lines : ∀ p, tget s.parts w.part = some p → p.l1 = []
  mem : s.mem.wf = true
  live : w.ended = false
  plain : o.acq = none

/-- One access of a warp, to its part's own scratchpad or to the stack tier. -/
def OneAccess (s : State) (wid op : Nat) (w : Warp) (o : OutOp) (a : Acc) : Prop :=
  (∃ part off, OwnAccess s wid op w o a part off) ∨ GlobalAccess s wid op w o a

/-- What the bytes of an address range hold after a write of a number in `n` bytes. -/
def WroteBytes (s t : State) (loc n v : Nat) : Prop :=
  ∀ a, t.mem.get a = if loc ≤ a ∧ a < loc + n then BitVec.ofNat 8 (v / 256 ^ (a - loc)) else s.mem.get a

/-- The checks of a copy are passed, and its release is complete in `e.s` (R117, R198). -/
structure CopyPasses (c e : Ctx) (a : SOp) (dsp ssp : Space) (sr dr : Int × Int) : Prop where
  room : c.s.counter c.wid c.w .copies < 63
  aligned : ∀ v ∈ (c.desc a dsp ssp).aligned, v % 4 = 0
  src : sr = bounding (c.desc a dsp ssp).src (c.desc a dsp ssp).rows (c.desc a dsp ssp).len (c.desc a dsp ssp).spitch
  dst : dr = bounding (c.desc a dsp ssp).dst (c.desc a dsp ssp).rows (c.desc a dsp ssp).len (c.desc a dsp ssp).dpitch
  srcOk : c.rangeOk ssp sr.1 sr.2 = true
  dstOk : c.rangeOk dsp dr.1 dr.2 = true
  apart : meetsAny (c.keyRanges ssp sr.1 sr.2) (c.keyRanges dsp dr.1 dr.2) = false
  locks : (c.desc a dsp ssp).moves = true → c.s.locksUsed c.w.slot c.core ≤ 30
  free : released c = some e

/-- The matrix engine of the warp's partition accepts an instruction (R53, R244, R250). -/
def engineFree (c : Ctx) : Prop := tget c.s.engine (engineKey c.w.part c.pt) = none ∧ c.chainRuns = false

/-! ## Host commands (R314-R318) -/

/-- The command processor takes a command of window `c.win` as it comes: the module is booted, nothing holds the processor up, no
command waits before it, the window is idle, and no gang switch is under way (R314, R315, R318, R329). -/
structure Takes (s : State) (c : HostCmd) : Prop where
  booted : s.booted = true
  free : s.held = false
  first : s.queue = []
  idle : s.busyWindow c.win = false
  steady : s.switching = false

/-- Command `i` of code `op` in window `c.win` is answered from state `u`: its entry with result `r` and detail `x` heads the journal,
word 15 of the window holds the entry's sequence number, and nothing but the journal, its mirror and vector 0 differs from `u`. -/
def Answers (i : Instr) (s : State) (c : HostCmd) (op : Nat) (r : BitVec 8) (x : Nat) (u : State) : Prop :=
  ∃ t, exec i s = .next t
    ∧ t.journal.head? = some ⟨u.nextSeq, u.gtime.toNat, BitVec.ofNat 32 (c.tag.toNat * 65536 + c.slot.toNat * 256 + op),
        BitVec.ofNat 24 x, r, BitVec.ofNat 64 (s.argPair c 0)⟩
    ∧ (t.windows[c.win])[15] = BitVec.ofNat 32 (u.nextSeq % 2 ^ 31) ∧ t.nextSeq = u.nextSeq + 1 ∧ t.msix = u.msix ++ [0]
    ∧ (∀ a, a < Config.mirror % 2 ^ 42 ∨ Config.mirror % 2 ^ 42 + 65536 ≤ a → t.mem.get a = u.mem.get a)
    ∧ t = { u with windows := t.windows, journal := t.journal, nextSeq := t.nextSeq, msix := t.msix, mem := t.mem }

/-! ## Mailbox (R334) -/

/-- The management processor answers a request from state `u`: the doorbell word holds done and the result, the response holds the
request's tag (log 18), vector 2 is raised, and nothing but the doorbell and the response area differs from `u`. -/
def Posts (i : Instr) (s : State) (result : Nat) (u : State) : Prop :=
  ∃ t, exec i s = .next t ∧ t.msix = u.msix ++ [2]
    ∧ leNat (t.mem.read mgmtBase 4) = 2 ^ 31 + result * 2 ^ 24 + u.doorbell % 2 ^ 24
    ∧ (∃ k < 255, t.mem.read (mgmtBase + 0x100 + k) 2 = leBytes 2 (u.doorbell / 256))
    ∧ (∀ a, (a < mgmtBase ∨ mgmtBase + 4 ≤ a) → (a < mgmtBase + 0x100 ∨ mgmtBase + 0x200 ≤ a) → t.mem.get a = u.mem.get a)
    ∧ t = { u with mem := t.mem, msix := t.msix, choices := t.choices }

/-! ## Fencing (R426-R438) -/

/-- Where the fence state table begins: 1,536 entries of 16 bytes (R334, R438). -/
def fenceTable : Nat := mgmtBase + 0x30000

/-- The watch of core `c` on its neighbour in direction `d`. -/
def watchOf (s : State) (c : Nat) (d : Dir) : Watch := (s.coreFence c).watch[dirIx d]

/-- No majority gate fences a core whose lines stand as they do (R430). -/
def Quiet (s : State) : Prop := s.accused.filter s.majority = []

/-- No core appeals (R436). -/
def NoAppeals (s : State) : Prop := ∀ x ∈ s.cores, x.2.state ≠ .appealing

/-! ## Arrays -/

/-- The turn of a stream port: its instance runs, its inputs hold no damaged token and no round marker, and its APR is under way. -/
structure PortActs (s : State) (n port : Nat) (i : Inst) (a : Apr) (st : PortSt) : Prop where
  here : tget s.insts n = some i
  runs : s.runs i = true
  rounds : i.absorb (512 + port) = i
  apr : ((i.ctxAt (i.running (512 + port))).bind fun c => c.apr (512 + port)) = some a
  st : tget i.ports (512 + port) = some st
  live : i.live (512 + port) = true
  sound : i.inputError (512 + port) = none
  isOpen : i.closed (512 + port) = false

/-! ## The machine -/

/-- A state whose memory has the canonical form and whose journal keeps to the size of its ring (R317). -/
def Inv (s : State) : Prop := s.mem.wf = true ∧ s.journal.length ≤ 2048

/-- The stream stands at `pc` and may act: nothing is waited for, and no fault of the slice is due (R371, R378). -/
def StandsAt (s : State) (w : Warp) (slice : Bool) (pc : DWord) : Prop :=
  s.mayAct w = true ∧ if slice then ∃ y, w.slice = some y ∧ y.pc = pc ∧ y.stopped = false ∧ y.fault = none
    else w.pc = pc ∧ w.wait = none ∧ sliceFault w = none

/-- The words at `pc` are fetched one by one from state `s`, and `s3` is what the fetches leave: the first word, the extension word
where the opcode has one, and the literal word where a source field names it (R133, R378 steps 1 to 3). -/
def FetchesWords (s : State) (w : Warp) (pc : DWord) (w0 e k : Word) (s2 s3 : State) : Prop :=
  ∃ s1, s.fetchWord w pc = (.ok w0, s1)
    ∧ (if hasExt (w0.toNat / 0x1000000) then s1.fetchWord w (pc + 4) = (.ok e, s2) else e = 0 ∧ s2 = s1)
    ∧ if hasLit w0.toNat e.toNat then
        s2.fetchWord w (pc + if hasExt (w0.toNat / 0x1000000) then 8 else 4) = (.ok k, s3)
      else k = 0 ∧ s3 = s2

/-- The words of an instruction in a row: the extension word only where the opcode has one. -/
def wordsInRow (w0 e k : Word) : List Word :=
  w0 :: (if hasExt (w0.toNat / 0x1000000) then [e] else []) ++ [k]

end Sys2Proof.Machine

open Sys2Proof Sys2Proof.Machine

/-- R57, R58, R165, R166: the integer arithmetic instructions (iadd to iabs) complete: they write their exact result, narrowed to 32
bits, to the active lanes of the destination, and change nothing else. -/
def Sys2Proof.Machine.LaneArithmeticResults : Prop :=
  ∀ (i : Instr) (s : State) (c : Ctx) (d : VOp) (f : Ctx → Lane → Word), arithValue i = some (d, f) → ready i s = some c →
    HasLaneEffect i s c d (f c) 0

/-- R167-R170: logic, shifts, counts and bit fields (and to bfi) complete with the results that `bitsValue` gives bit by bit. -/
def Sys2Proof.Machine.LaneBitsResults : Prop :=
  ∀ (i : Instr) (s : State) (c : Ctx) (d : VOp) (f : Ctx → Lane → Word), bitsValue i = some (d, f) → ready i s = some c →
    HasLaneEffect i s c d (f c) 0

/-- R173, R174, R180: sel, movq (reading), mov and movs complete. -/
def Sys2Proof.Machine.LaneMoveResults : Prop :=
  ∀ (i : Instr) (s : State) (c : Ctx) (d : VOp) (f : Ctx → Lane → Word), moveValue i = some (d, f) → ready i s = some c →
    HasLaneEffect i s c d (f c) 0

/-- R181: xlane completes where every word is correctable: an active lane receives the source of the lane of its own group that the
mode and its selector name, 0 where that lane is not live, which the flag dead records. -/
def Sys2Proof.Machine.LaneExchanges : Prop :=
  ∀ (o : FormA) (g : Fin 6) (mode : XMode) (s : State) (c : Ctx), ready (.xlane o g mode) s = some c → s.bad = [] →
    let n := 2 ^ g.val
    let other (l : Lane) : Nat :=
      let j := (c.v o.b l).toNat
      l.val / n * n + match mode with
        | .from => j % n
        | .rot => (l.val % n + j) % n
        | .rev => (n - 1 - l.val % n + j) % n
        | .xor => l.val % n ^^^ j % n
    HasLaneEffect (.xlane o g mode) s c o.d
      (fun l => if c.w.laneok.getLsbD (other l) then c.v o.a (Fin.ofNat 32 (other l)) else 0)
      (if (lanesOf c.act).any fun l => !c.w.laneok.getLsbD (other l) then flDead else 0)

/-- Integer arithmetic, bits, moves, selection and exchange of the lanes. -/
def Obligations.LaneIntegerResults : Prop := LaneArithmeticResults ∧ LaneBitsResults ∧ LaneMoveResults ∧ LaneExchanges

/-- R63, R175-R179: the floating-point instructions with a 32-bit destination complete, and the flags that their active lanes raise
accrue; `fsub` adds the negated operand. -/
def Sys2Proof.Machine.LaneFloatResults : Prop :=
  ∀ (i : Instr) (s : State) (c : Ctx) (d : VOp) (f : Ctx → Lane → Word × Flags), floatValue i = some (d, f) →
    ready i s = some c → HasLaneEffect i s c d (fun l => (f c l).1) (flagsOf c.act fun l => (f c l).2)

/-- R177, R179: fx on FP64 and cvt to a 64-bit type complete, and write a register pair. -/
def Sys2Proof.Machine.LaneWideResults : Prop :=
  ∀ (i : Instr) (s : State) (c : Ctx) (d : VOp) (f : Ctx → Lane → DWord × Flags), wideValue i = some (d, f) →
    ready i s = some c → ∃ t v, exec i s = .next t ∧ tget t.warps c.wid = some v
      ∧ WrittenPair c.act d (fun l => (f c l).1) c.w v ∧ Popped i c.w v ∧ OnlyWarp c.wid s t
      ∧ v = { c.w with pc := c.nextPc, vregs := v.vregs, aq := v.aq,
                       fflags := c.w.fflags ||| flagsOf c.act fun l => (f c l).2 }

/-- R59, R60, R62, R78, R79: the sum, the product, the fused product and sum, and the quotient of two finite values, where it is not
zero, are the exact result rounded once to the format by the mode, with its flags; an exact zero sum takes the common sign of two zeros,
and otherwise is negative only in the mode towards minus infinity. -/
def Sys2Proof.Machine.RoundsOnce : Prop :=
  ∀ (f : Fmt) (rm : RMode) (x y z : FVal) (a b c : ℚ), f ∈ [fp16, bf16, fp32, fp64] → x.rat = some a → y.rat = some b → z.rat = some c →
    (a + b ≠ 0 → RoundsTo f rm (a + b) (addV f rm x y))
    ∧ (a * b ≠ 0 → RoundsTo f rm (a * b) (mulV f rm x y))
    ∧ (a * b + c ≠ 0 → RoundsTo f rm (a * b + c) (fmaV f rm false x y z))
    ∧ (c - a * b ≠ 0 → RoundsTo f rm (c - a * b) (fmaV f rm true x y z))
    ∧ (a ≠ 0 → b ≠ 0 → RoundsTo f rm (a / b) (divV f rm x y))
    ∧ (a + b = 0 → addV f rm x y = (f.sign (if a = 0 ∧ x.negative = y.negative then x.negative else rm == .rdn), 0))

/-- Floating-point instructions and conversions of the lanes, and what their operations come to. -/
def Obligations.LaneFloatingResults : Prop := LaneFloatResults ∧ LaneWideResults ∧ RoundsOnce

/-- R144, R171, R172: icmp, fcmp, qand, qor and qxor complete: the active lanes of the destination predicate receive the result,
a write to q0 is ignored, and nothing else changes but the flag of a signalling NaN. -/
def Sys2Proof.Machine.PredicateResults : Prop :=
  ∀ (i : Instr) (s : State) (c : Ctx) (q : Fin 8) (f : Ctx → Lane → Bool) (g : Ctx → Flags), predValue i = some (q, f, g) →
    ready i s = some c → ∃ t v, exec i s = .next t ∧ tget t.warps c.wid = some v ∧ PredWritten c.act q (f c) c.w v
      ∧ Popped i c.w v ∧ OnlyWarp c.wid s t
      ∧ v = { c.w with pc := c.nextPc, preds := v.preds, aq := v.aq, fflags := c.w.fflags ||| g c }

/-- R174: movq (writing) completes: in every active lane q1 to q7 receive bits 1 to 7 of the source; q0 stays. -/
def Sys2Proof.Machine.MovqWritesPredicates : Prop :=
  ∀ (q : Fin 8) (a : VOp) (k : Word) (s : State) (c : Ctx), ready (.movqWrite q a k) s = some c →
    ∃ t v, exec (.movqWrite q a k) s = .next t ∧ tget t.warps c.wid = some v ∧ Popped (.movqWrite q a k) c.w v
      ∧ (∀ (n : Fin 8) (l : Lane), n ≠ 0 → v.preds[n].getLsbD l.val =
          if c.act.getLsbD l.val then (c.v a l).getLsbD n.val else c.w.preds[n].getLsbD l.val)
      ∧ v.preds[(0 : Fin 8)] = c.w.preds[(0 : Fin 8)] ∧ OnlyWarp c.wid s t
      ∧ v = { c.w with pc := c.nextPc, preds := v.preds, aq := v.aq }

/-- Comparisons, predicate logic, and movq to the predicates. -/
def Obligations.LanePredicateResults : Prop := PredicateResults ∧ MovqWritesPredicates

/-- R43, R182, R183, R206: the uniform instructions, vote and lfold complete: they write their result to their destination in the
stream that executes them, the warp's or its slice's, and change nothing else but the flags that a rounding raises. -/
def Obligations.UniformResults : Prop :=
  ∀ (i : Instr) (s : State) (c : Ctx) (d : SOp) (x : Ctx → Word) (g : Ctx → Flags), uniformValue i = some (d, x, g) →
    ready i s = some c → ∃ t v, exec i s = .next t ∧ tget t.warps c.wid = some v ∧ Popped i c.w v ∧ OnlyWarp c.wid s t
      ∧ SregWritten c.slice d (x c) c.nextPc { c.w with aq := v.aq, fflags := c.w.fflags ||| g c } v

/-! ## Control -/

/-- R139, R207, R208, R213: a branch that is taken as a whole (bra, bcc, bq, ret) goes to its target, and changes nothing else. -/
def Sys2Proof.Machine.BranchesGoToTheirTargets : Prop :=
  ∀ (i : Instr) (s : State) (c : Ctx) (a : DWord), jumpTo i c = some a → ready i s = some c → a.toNat < 2 ^ 55 →
    (∀ x, i = .ret x → a.toNat % 4 = 0) → ∃ v, LeadsFrom i s c v ∧ WentTo c.slice a c.w v

/-- R207, R210, R213, R221: nop, bcc and bq that are not taken, and fence.warp with nothing outstanding, go on and change nothing else. -/
def Sys2Proof.Machine.PlainInstructionsGoOn : Prop :=
  ∀ (i : Instr) (s : State) (c : Ctx), goesOn i c → ready i s = some c →
    ∃ v, LeadsFrom i s c v ∧ WentTo c.slice c.nextPc c.w v

/-- R208: call leaves the address of the next instruction in s60 and s61, goes to its target, and changes nothing else. -/
def Sys2Proof.Machine.CallLinks : Prop :=
  ∀ (off : BitVec 20) (s : State) (c : Ctx), ready (.call off) s = some c → (targetOf c off).toNat < 2 ^ 55 →
    LeadsFrom (.call off) s c { c.w with
      pc := targetOf c off
      sregs := (c.w.sregs.set 60 ((c.w.pc + 4).setWidth 32)).set 61 (((c.w.pc + 4) >>> 32).setWidth 32 &&& 0x7FFFFF)
      badSregs := (c.w.badSregs.filter (· != 60)).filter (· != 61) }

/-- R209: loop counts its register down, a count of 0 to 0xFFFF_FFFF; it goes to its target unless the count has reached zero, and changes nothing else. -/
def Sys2Proof.Machine.LoopCounts : Prop :=
  ∀ (n : Fin 16) (off : BitVec 20) (s : State) (c : Ctx), ready (.loop n off) s = some c →
    let x := c.sv (.s ⟨n.val, by omega⟩) - 1
    (firstWord (.loop n off)).toNat = 0x97000000 + n.val * 2 ^ 20 + off.toNat
    ∧ ((x ≠ 0 → (targetOf c off).toNat < 2 ^ 55) → ∃ v, LeadsFrom (.loop n off) s c v
        ∧ SregWritten c.slice (.s ⟨n.val, by omega⟩) x (if x = 0 then c.nextPc else targetOf c off) c.w v)

/-- Branches that are taken as a whole, calls, counted loops, and instructions that only go on. -/
def Obligations.ControlTransfers : Prop := BranchesGoToTheirTargets ∧ PlainInstructionsGoOn ∧ CallLinks ∧ LoopCounts

/-- R139, R207, R208: a taken branch of a warp's own stream to an address of 2^55 or more takes trap 0x04 with that address, at the
branch; a ret to one that is no multiple of 4 takes 0x03. -/
def Obligations.BadTargetsTrap : Prop :=
  ∀ (i : Instr) (s : State) (c : Ctx) (a : DWord), jumpTo i c = some a → ready i s = some c → c.slice = false → c.w.handles = true →
    (2 ^ 55 ≤ a.toNat → LeadsFrom i s c (entered c.w { code := 0x04, value := a } c.w.pc false))
    ∧ (∀ x, i = .ret x → a.toNat < 2 ^ 55 → a.toNat % 4 ≠ 0 →
        LeadsFrom i s c (entered c.w { code := 0x03, value := a } c.w.pc false))

/-- R211, R212: rcv pushes a reconvergence entry with its target and the executing mask, where the stack has room. -/
def Sys2Proof.Machine.RcvPushes : Prop :=
  ∀ (off : BitVec 20) (s : State) (c : Ctx), ready (.rcv off) s = some c → (targetOf c off).toNat < 2 ^ 55 →
    (c.w.stack.length < 80 → LeadsFrom (.rcv off) s c { c.w with
      pc := c.nextPc, stack := .reconv (targetOf c off) c.w.path c.w.paths :: c.w.stack })
    ∧ (80 ≤ c.w.stack.length → c.w.handles = true →
      LeadsFrom (.rcv off) s c (entered c.w { code := 0x13, value := 80 } c.w.pc false))

/-- R213: a bq that divides its path runs the side with more lanes first, on equal counts the one at the lower address, and pushes
the other. -/
def Sys2Proof.Machine.BqDiverges : Prop :=
  ∀ (inv : Bool) (p : Fin 8) (off : BitVec 20) (s : State) (c : Ctx), ready (.bq inv p off) s = some c →
    (targetOf c off).toNat < 2 ^ 55 → takenLanes c inv p ≠ 0 → leftLanes c inv p ≠ 0 → c.w.stack ≠ [] → c.w.stack.length < 80 →
    let t := takenLanes c inv p
    let n := leftLanes c inv p
    let first := lanesIn n < lanesIn t ∨ (lanesIn n = lanesIn t ∧ (targetOf c off).toNat ≤ c.nextPc.toNat)
    let go (m : Mask) (a : DWord) (e : DivEntry) : Warp :=
      { c.w with pc := a, path := m, stack := e :: c.w.stack, paths := c.w.nextOp :: c.w.paths, nextOp := c.w.nextOp + 1 }
    (first → LeadsFrom (.bq inv p off) s c (go t (targetOf c off) (.path c.nextPc n c.w.paths)))
    ∧ (¬ first → LeadsFrom (.bq inv p off) s c (go n c.nextPc (.path (targetOf c off) t c.w.paths)))

/-- R109, R214: join runs the path on top of the stack, or reconverges once the accesses made on the closed paths have been
performed; with no entry to return to it takes trap 0x08. -/
def Sys2Proof.Machine.JoinReturns : Prop :=
  ∀ (s : State) (c : Ctx), ready .join s = some c →
    (∀ a m ns r, joinAt c.w.laneok c.w.stack = some (.path a m ns, r) → LeadsFrom .join s c { c.w with
      pc := a, path := m, stack := r, paths := c.w.nextOp :: ns, nextOp := c.w.nextOp + 1 })
    ∧ (∀ a m ns r, joinAt c.w.laneok c.w.stack = some (.reconv a m ns, r) → c.w.ops = [] → LeadsFrom .join s c { c.w with
      pc := a, path := m, stack := r, paths := ns })
    ∧ (joinAt c.w.laneok c.w.stack = none → c.w.handles = true →
      LeadsFrom .join s c (entered c.w { code := 0x08, value := 0 } c.w.pc false))

/-- The divergence stack: rcv, a dividing bq, and join. -/
def Obligations.Divergence : Prop := RcvPushes ∧ BqDiverges ∧ JoinReturns

/-- R43, R210: split starts an access slice at its target with a copy of the uniform registers, where the warp has none. -/
def Sys2Proof.Machine.SplitStartsASlice : Prop :=
  ∀ (off : BitVec 20) (s : State) (c : Ctx), ready (.split off) s = some c → c.w.slice = none →
    (targetOf c off).toNat < 2 ^ 55 → LeadsFrom (.split off) s c { c.w with
      pc := c.nextPc
      slice := some { pc := targetOf c off, sregs := c.w.sregs, badSregs := c.w.badSregs, fault := none, stopped := false } }

/-- R45, R215: exit in a slice ends the slice; in a warp with something outstanding the warp waits; in a warp with nothing
outstanding the warp ends. -/
def Sys2Proof.Machine.ExitEnds : Prop :=
  ∀ (s : State) (c : Ctx), ready .exit s = some c →
    (c.slice = true → LeadsFrom .exit s c { c.w with slice := none })
    ∧ (c.slice = false → c.w.stack = [] → c.w.ops ≠ [] → ∃ v k, LeadsFrom .exit s c v ∧ v = { c.w with wait := some k }
        ∧ k.kind = .exitDrain)
    ∧ (c.slice = false → c.w.stack = [] → c.w.ops = [] → c.w.sq = [] → s.copiesOf c.wid = [] →
        exec .exit s = .next ((s.coreEvent c.p.core 1).endWarp c.wid))

/-- The start of an access slice, and the end of slices and warps. -/
def Obligations.StreamsStartAndEnd : Prop := SplitStartsASlice ∧ ExitEnds

/-! ## Traps and control registers -/

/-- R238, R370-R372: trap and brk complete. Where the warp can handle a trap they enter the handler: cr.cause, cr.epc (the next
instruction), cr.eval and cr.status are written, control goes to cr.tvec, and nothing else changes. Where it cannot, the trap stops
the warp and its fault domain is abandoned. -/
def Sys2Proof.Machine.TrapInstructionsEnterTheHandler : Prop :=
  ∀ (s : State) (c : Ctx),
    (∀ (a : SOp) (code : BitVec 6) (k : Word), ready (.trap a code k) s = some c → ∃ t, exec (.trap a code k) s = .next t
      ∧ (c.w.handles = true → OnlyWarp c.wid s t ∧ tget t.warps c.wid =
          some (entered c.w { code := 0x10, value := (c.sv a).setWidth 64, swcode := code } c.nextPc false))
      ∧ (c.w.handles = false → t = ((s.coreEvent c.core 1).trapAt c.wid
          { code := 0x10, value := (c.sv a).setWidth 64, swcode := code } c.nextPc false false).abandonFor c.w))
    ∧ (ready .brk s = some c → ∃ t, exec .brk s = .next t
      ∧ (c.w.handles = true → OnlyWarp c.wid s t ∧ tget t.warps c.wid =
          some (entered c.w { code := 0x11, value := 0 } c.nextPc false))
      ∧ (c.w.handles = false → t = ((s.coreEvent c.core 1).trapAt c.wid { code := 0x11, value := 0 } c.nextPc false false).abandonFor
          c.w))

/-- R140, R152, R378: an instruction that the checks at issue forbid takes their trap at its own address, with its first word as the
value, and has no other effect. -/
def Sys2Proof.Machine.IllegalInstructionsTrap : Prop :=
  ∀ (i : Instr) (s : State) (wid : Nat) (w : Warp) (p : Part) (code : BitVec 8), Reaches i s wid w p → w.handles = true →
    s.illegal w p false i = some code →
    ∃ t, exec i s = .next t ∧ OnlyWarp wid s t
      ∧ tget t.warps wid = some (entered w { code := code, value := (firstWord i).setWidth 64 } w.pc false)

/-- R134: a word of an unassigned point takes trap 0x01 with that word as its value. -/
def Sys2Proof.Machine.UnassignedOpcodeTraps : Prop :=
  ∀ (x : Word) (s : State) (wid : Nat) (w : Warp) (p : Part), Reaches (.unassignedOpcode x) s wid w p → w.handles = true →
    ∃ t, exec (.unassignedOpcode x) s = .next t ∧ OnlyWarp wid s t
      ∧ tget t.warps wid = some (entered w { code := 0x01, value := x.setWidth 64 } w.pc false)

/-- Instructions that the checks at issue do not let through. -/
def Obligations.IssueChecksTrap : Prop := IllegalInstructionsTrap ∧ UnassignedOpcodeTraps

/-- R371, R372: a trap that finds a handler running, or none, stops its warp and appends a FAULT entry to the journal; no other
warp changes. -/
def Sys2Proof.Machine.UnhandledTrapStopsTheWarp : Prop :=
  ∀ (s : State) (wid : Nat) (w : Warp) (t : Trap) (epc : DWord) (imp sl : Bool), tget s.warps wid = some w → w.handles = false →
    w.stopped = false → tget (s.trapAt wid t epc imp sl).warps wid = some { w with stopped := true, wait := none }
    ∧ (∀ j, j ≠ wid → tget (s.trapAt wid t epc imp sl).warps j = tget s.warps j)
    ∧ (s.trapAt wid t epc imp sl).journal.head? = some ⟨s.nextSeq, s.gtime.toNat, 0x81, BitVec.ofNat 24 t.code.toNat, 0,
        BitVec.ofNat 64 (mgmtBase + 0x20000 + s.nextSeq % 512 * 64)⟩

/-- Software traps, and traps without a handler. -/
def Obligations.TrapsEnterTheHandler : Prop := TrapInstructionsEnterTheHandler ∧ UnhandledTrapStopsTheWarp

/-- R239, R374: eret in a handler goes to cr.epc and clears the status but died; where the trap was the slice's, sres restarts the slice,
and otherwise the slice and its queues end. Outside a handler it takes trap 0x01. -/
def Sys2Proof.Machine.EretReturns : Prop :=
  firstWord .eret = 0xE2000000 ∧ ∀ (s : State) (c : Ctx), ready .eret s = some c →
    (c.w.handles = true →
      LeadsFrom .eret s c (entered c.w { code := 0x01, value := 0xE2000000 } c.w.pc false))
    ∧ (c.w.status.getLsbD 0 = true →
      (c.w.status.getLsbD 2 = false → LeadsFrom .eret s c { c.w with pc := c.w.epc, status := c.w.status &&& 0x10 })
      ∧ (c.w.status.getLsbD 2 = true → c.w.status.getLsbD 3 = true → LeadsFrom .eret s c { c.w with
          pc := c.w.epc, status := c.w.status &&& 0x10
          slice := c.w.slice.map fun x => { x with fault := none, stopped := false } })
      ∧ (c.w.status.getLsbD 2 = true → c.w.status.getLsbD 3 = false → LeadsFrom .eret s c { c.w with
          pc := c.w.epc, status := c.w.status &&& 0x10, slice := none, aq := Vector.replicate 4 [], sq := [] }))

/-- R371, R385: at the boundary of a warp's own stream a fault of its slice is delivered: the slice bits of cr.status are set, and
the slice stops. -/
def Sys2Proof.Machine.SliceFaultIsDelivered : Prop :=
  ∀ (s : State) (wid : Nat) (w : Warp) (y : Slice) (f : Trap) (r : List Turn), s.agenda = .issue wid :: r →
    tget s.warps wid = some w → s.mayAct w = true → w.wait = none → w.slice = some y → y.fault = some f → w.handles = true →
    ∃ t v, step s = .next t ∧ tget t.warps wid = some v ∧ v.pc = w.tvec ∧ v.epc = w.pc &&& 0x007FFFFFFFFFFFFC ∧ v.eval = f.value
      ∧ v.status = (w.status &&& 0x10) ||| 0x0D ∧ v.slice = some { y with fault := none, stopped := true }
      ∧ v.vregs = w.vregs ∧ v.sregs = w.sregs ∧ ∀ a, t.mem.get a = s.mem.get a

/-- The return from a handler, and the delivery of a slice's fault. -/
def Obligations.HandlersReturn : Prop := EretReturns ∧ SliceFaultIsDelivered

/-- R145, R370: movc from a control register of one word writes it to the destination; of two words, to a register pair. -/
def Sys2Proof.Machine.MovcReads : Prop :=
  ∀ (d : SOp) (n : BitVec 11) (s : State) (c : Ctx) (f : Ctx → DWord), ready (.movcRead d n) s = some c →
    crValue n.toNat = some f →
    (crSpan n = some 1 → ∃ v, LeadsFrom (.movcRead d n) s c v ∧ SregWritten false d ((f c).setWidth 32) c.nextPc c.w v)
    ∧ (crSpan n = some 2 → ∃ v k, LeadsFrom (.movcRead d n) s c v ∧ d = .s k
        ∧ v = { c.w with pc := c.nextPc, sregs := v.sregs, badSregs := v.badSregs }
        ∧ ∀ j : Fin 63, v.sregs[j] = if j.val = k.val then (f c).setWidth 32
            else if j.val = k.val + 1 then (f c >>> 32).setWidth 32 else c.w.sregs[j])

/-- R8, R145, R243, R370: movc to a control register writes the bits that software may write; a shape register keeps its defined
bits; a write to a read-only register changes nothing but the program counter. -/
def Sys2Proof.Machine.MovcWrites : Prop :=
  ∀ (a : SOp) (n : BitVec 11) (k : Word) (s : State) (c : Ctx), ready (.movcWrite a n k) s = some c →
    let x : DWord := if crSpan n = some 2 then c.sv64 a else (c.sv a).setWidth 64
    (n.toNat < 0x020 → LeadsFrom (.movcWrite a n k) s c { crAfter n.toNat x c.w with pc := c.nextPc })
    ∧ (0x020 ≤ n.toNat → ∃ t, exec (.movcWrite a n k) s = .next t ∧ tget t.warps c.wid = some { c.w with pc := c.nextPc }
        ∧ t.shapeOf c.w.part c.pt (n.toNat - 0x020) = (x.setWidth 32 &&& 0x1FFF01FF) ∧ t.mem = s.mem
        ∧ ∀ j, j ≠ tshapeKey c.w.part c.pt (n.toNat - 0x020) → tget t.tshape j = tget s.tshape j)

/-- Reads and writes of the control registers. -/
def Obligations.ControlRegisters : Prop := MovcReads ∧ MovcWrites

/-! ## Memory instructions -/

/-- R185-R187, R192: a load whose lanes pass the checks leaves one operation outstanding on the loads counter, with an access for
each active lane; an ordered one acquires with the natural scope of its space. Registers and memory stay as they are. -/
def Sys2Proof.Machine.LoadsIssue : Prop :=
  ∀ (i : Instr) (o : FormM) (off : Word) (s s1 : State) (c : Ctx) (as : List Acc), loadForm i = some (o, off) →
    ready i s = some c → c.s.counter c.wid c.w .loads < 63 →
    c.checkAccess c.act o.space .r (sizeBytes o.size) (c.ea o.space o.a off) = (s1, .ok as) → c.rowsHeld as = false →
    Leaves i s (c.with s1) ((c.with s1).op .loads (.load o.size o.d) o.space as c.act
      (if o.order then some (natScope o.space) else none) none)

/-- R111, R185, R186, R188, R192: a store whose lanes pass the checks leaves one operation outstanding on the stores counter, with
the data that the lanes hold now; an ordered one is a release first. -/
def Sys2Proof.Machine.StoresIssue : Prop :=
  ∀ (i : Instr) (o : FormM) (off : Word) (s s1 : State) (c e : Ctx) (as : List Acc), storeForm i = some (o, off) →
    ready i s = some c → c.s.counter c.wid c.w .stores < 63 →
    c.checkAccess c.act o.space .w (sizeBytes o.size) (c.ea o.space o.a off) = (s1, .ok as) → c.rowsHeld as = false →
    releasedIf o.order (c.with s1) = some e →
    Leaves i s e (e.op .stores .store o.space (accessData (e.storeData o.size o.d) as) e.act none
      (if o.order then some (natScope o.space) else none))

/-- R189-R192: an atomic whose lanes pass the checks leaves one operation outstanding on the loads counter, with its operands; a
release form is a release first. -/
def Sys2Proof.Machine.AtomicsIssue : Prop :=
  ∀ (i : Instr) (o : FormM) (od : Ord) (k : OpKind) (x : VOp) (y : Option VOp) (s s1 : State) (c e : Ctx) (as : List Acc),
    atomForm i = some (o, od, k, x, y) → ready i s = some c → c.s.counter c.wid c.w .loads < 63 →
    c.checkAccess c.act o.space .rw (sizeBytes o.size) (c.ea o.space o.a 0) = (s1, .ok as) → c.rowsHeld as = false →
    releasedIf (ordRel od).isSome (c.with s1) = some e →
    Leaves i s e (e.op .loads k o.space (as.map fun a => { a with
        data := c.atomArg o.size x a.lane
        new := y.elim 0 fun z => c.atomArg o.size z a.lane }) e.act (ordAcq od) (ordRel od))

/-- Loads, stores and atomics that pass their checks. -/
def Obligations.LoadsAndStoresIssue : Prop := LoadsIssue ∧ StoresIssue ∧ AtomicsIssue

/-- R44, R195, R196: qld reserves the next slot of its queue and leaves a load outstanding; qst takes the head of sq0 and leaves a
store of it outstanding. -/
def Obligations.QueueAccessesIssue : Prop :=
  (∀ (n : Fin 4) (o : FormQ) (s s1 : State) (c : Ctx) (as : List Acc), ready (.qld n o) s = some c →
    (c.w.aq[n]).length < 8 → c.s.counter c.wid c.w .loads < 63 →
    c.checkAccess c.w.laneok o.space .r (sizeBytes o.size) (c.qea o) = (s1, .ok as) → c.rowsHeld as = false →
    ∃ v x, LeadsFrom (.qld n o) s (c.with s1) v ∧ v.ops = c.w.ops ++ [x] ∧ x.ctr = .loads ∧ x.accs = as
      ∧ x.kind = .qld n c.w.nextTicket o.size ∧ v.vregs = c.w.vregs ∧ v.sregs = c.w.sregs ∧ v.sq = c.w.sq
      ∧ ∀ k : Fin 4, v.aq[k] = if k = n then c.w.aq[n] ++ [⟨c.w.nextTicket, false, Vector.replicate 32 0, c.w.laneok⟩] else c.w.aq[k])
  ∧ ∀ (o : FormQ) (s s1 : State) (c : Ctx) (q : QEntry) (r : List QEntry) (as : List Acc), ready (.qst o) s = some c →
    c.w.sq = q :: r → c.s.counter c.wid c.w .stores < 63 →
    c.checkAccess (q.mask &&& c.w.laneok) o.space .w (sizeBytes o.size) (c.qea o) = (s1, .ok as) → c.rowsHeld as = false →
    ∃ v x, LeadsFrom (.qst o) s (c.with s1) v ∧ v.ops = c.w.ops ++ [x] ∧ x.ctr = .stores ∧ x.kind = .store
      ∧ x.accs = accessData (fun l => (q.row[Fin.ofNat 32 l]).toNat) as ∧ v.sq = r ∧ v.aq = c.w.aq ∧ v.vregs = c.w.vregs
      ∧ v.sregs = c.w.sregs

/-- R186: a load, a store or an atomic of a warp's own stream whose lanes fail a check takes the trap that decides, at the
instruction, and leaves no operation outstanding. -/
def Obligations.FailedAccessesTrap : Prop :=
  ∀ (i : Instr) (o : FormM) (off : Word) (need : Need) (s s1 : State) (c : Ctx) (t : Trap),
    ((loadForm i = some (o, off) ∧ need = .r ∧ c.s.counter c.wid c.w .loads < 63)
      ∨ (storeForm i = some (o, off) ∧ need = .w ∧ c.s.counter c.wid c.w .stores < 63)
      ∨ ((∃ x, atomForm i = some (o, x)) ∧ off = 0 ∧ need = .rw ∧ c.s.counter c.wid c.w .loads < 63)) →
    ready i s = some c → c.checkAccess c.act o.space need (sizeBytes o.size) (c.ea o.space o.a off) = (s1, .error t) →
    c.w.handles = true →
    LeadsFrom i s (c.with s1) (entered c.w t c.w.pc false)

/-! ## Completion of memory operations -/

/-- R109, R192: an outstanding operation that no earlier one holds back completes at its event, by the one operation that performs
accesses and retires them. -/
def Sys2Proof.Machine.OperationsComplete : Prop :=
  ∀ (s : State) (wid op : Nat) (w : Warp) (o : OutOp), s.readyOp wid op = some (w, o) →
    (o.ctr = .loads → exec (.loadComplete wid op) s = .next (s.completeOp wid w o))
    ∧ (o.ctr = .stores → exec (.storeComplete wid op) s = .next (s.completeOp wid w o))
    ∧ (o.ctr = .tiles → exec (.tileOpComplete wid op) s = .next (s.completeOp wid w o))

/-- R187, R192: LOAD_COMPLETE of a load from the part's scratchpad or from global memory gives the lane's destination registers the bytes
that memory holds, zero- or sign-extended as the size says; the operation is outstanding no more, and no byte of memory changes. -/
def Sys2Proof.Machine.LoadsDeliverBytes : Prop :=
  ∀ (s : State) (wid op : Nat) (w : Warp) (o : OutOp) (a : Acc) (z : Size) (n : Fin 120),
    OneAccess s wid op w o a → o.ctr = .loads → o.kind = .load z (.v n) → a.off = 0 → n.val + sizeSpan z ≤ 120 →
    ∃ t v, exec (.loadComplete wid op) s = .next t ∧ tget t.warps wid = some v ∧ v.ops = w.ops.filter (·.id != o.id)
      ∧ (∀ (k : Fin 120) (l : Lane), v.vregs[k][l] =
          if n.val ≤ k.val ∧ k.val < n.val + sizeSpan z ∧ (o.mask &&& w.laneok).getLsbD l.val then
            loadedWord z (k.val - n.val) (if l.val = a.lane then leNat (s.mem.read a.place.loc a.n) else 0)
          else w.vregs[k][l])
      ∧ v.pc = w.pc ∧ v.sregs = w.sregs ∧ v.preds = w.preds ∧ ∀ x, t.mem.get x = s.mem.get x

/-- The completion of operations, and what a load delivers. -/
def Obligations.LoadsComplete : Prop := OperationsComplete ∧ LoadsDeliverBytes

/-- R188, R192: STORE_COMPLETE of a store to the part's scratchpad or to global memory writes the data to exactly its bytes; the
operation is outstanding no more, and no register of the warp changes. -/
def Sys2Proof.Machine.StoresWriteTheirBytes : Prop :=
  ∀ (s : State) (wid op : Nat) (w : Warp) (o : OutOp) (a : Acc),
    OneAccess s wid op w o a → o.ctr = .stores → o.kind = .store →
    ∃ t v, exec (.storeComplete wid op) s = .next t ∧ WroteBytes s t a.place.loc a.n a.data
      ∧ tget t.warps wid = some v ∧ v = { w with ops := w.ops.filter (·.id != o.id) } ∧ t.mem.wf = true

/-- R79, R190-R192: LOAD_COMPLETE of an atomic on a word of the part's scratchpad or of global memory gives the lane the value that
memory held, and leaves in exactly its bytes the new value, where the operation writes one. Of the atomics, only .fmin and .fmax set
flags: nv, where an operand is a signalling NaN. -/
def Sys2Proof.Machine.AtomicsUpdateTheirWord : Prop :=
  ∀ (s : State) (wid op : Nat) (w : Warp) (o : OutOp) (a : Acc) (n : Fin 120),
    OneAccess s wid op w o a → o.ctr = .loads → a.off = 0 → a.n = 4 →
    ((∃ p, o.kind = .atom p .w (.v n)) ∨ o.kind = .cas .w (.v n)) →
    let old := leNat (s.mem.read a.place.loc 4)
    let minmax := o.kind = .atom .fmin .w (.v n) ∨ o.kind = .atom .fmax .w (.v n)
    let snan := (dec32 (BitVec.ofNat 32 old)).isSNan || (dec32 (BitVec.ofNat 32 a.data)).isSNan
    ∃ t v, exec (.loadComplete wid op) s = .next t ∧ tget t.warps wid = some v
      ∧ (∀ l : Lane, (o.mask &&& w.laneok).getLsbD l.val → l.val = a.lane → v.vregs[n][l] = BitVec.ofNat 32 old)
      ∧ (∀ k : Fin 120, k ≠ n → v.vregs[k] = w.vregs[k]) ∧ v.ops = w.ops.filter (·.id != o.id)
      ∧ (¬ minmax → v.fflags = w.fflags) ∧ (minmax → v.fflags = w.fflags ||| (if snan then flNv else 0))
      ∧ match rmwNew o.kind a old with
        | some y => WroteBytes s t a.place.loc 4 y
        | none => ∀ x, t.mem.get x = s.mem.get x

/-- R192, R202, R254: TILE_OP_COMPLETE of a tld puts the bytes that memory holds into its piece of the tile, and that of a tst or a cst
writes the data to exactly its bytes of memory, in the part's scratchpad or in global memory. -/
def Sys2Proof.Machine.TileAccessesMoveBytes : Prop :=
  ∀ (s : State) (wid op : Nat) (w : Warp) (o : OutOp) (a : Acc), OneAccess s wid op w o a → o.ctr = .tiles →
    (∀ t, o.kind = .tld t → a.n = 8 → a.off = 0 → 4096 * t + 8 * a.lane + 8 ≤ 0x100000 → ∃ u, exec (.tileOpComplete wid op) s = .next u
      ∧ WroteBytes s u (matrixLoc w.part (w.wslot.toNat % 16) (4096 * t) + 8 * a.lane) 8 (leNat (s.mem.read a.place.loc 8)))
    ∧ (∀ t, (o.kind = .tst t ∨ o.kind = .cst) → ∃ u, exec (.tileOpComplete wid op) s = .next u
      ∧ WroteBytes s u a.place.loc a.n a.data)

/-- What a store, an atomic and a tile operation leave in memory. -/
def Obligations.StoresComplete : Prop := StoresWriteTheirBytes ∧ AtomicsUpdateTheirWord ∧ TileAccessesMoveBytes

/-! ## Tiles, matrices and caches -/

/-- The pieces of the tile that a `tld` or `tst` names, by number and address (R202). -/
def Sys2Proof.Machine.tileOf (c : Ctx) (o : FormT) : List (Nat × Nat) :=
  tilePieces o.space (c.uaddr o.space o.a) (c.sv o.b).toInt (shapeW (c.s.shapeOf c.w.part c.pt o.t.val))
    (shapeRows (c.s.shapeOf c.w.part c.pt o.t.val))

/-- The pieces of the rows that a `cst` writes. -/
def Sys2Proof.Machine.drainOf (c : Ctx) (sp : Space) (d a b : SOp) : List (Nat × Nat) :=
  drainPieces sp (c.uaddr sp a) (c.sv b).toInt (drainRow ((c.sv d).toNat % 16))

/-- R201, R202, R244: tld completes: where its counter and its tile are free and its addresses pass the checks, it leaves one operation
outstanding on the tile counter, with an access for each 8 bytes. So it does for every tile in the part's own scratchpad. -/
def Sys2Proof.Machine.TldIssues : Prop :=
  ∀ (o : FormT) (s : State) (c : Ctx), ready (.tld o) s = some c → c.s.counter c.wid c.w .tiles < 63 → c.chainRuns = false →
    c.tileLoading o.t.val = false → c.tileInUse o.t.val = false → (c.uaddr o.space o.a) % 16 = 0 → (c.sv o.b).toNat % 16 = 0 →
    (∀ as, (c.placeTile c.s o.space .r (tileOf c o)).2 = .ok as → c.rowsHeld as = false →
      let e := c.with (c.placeTile c.s o.space .r (tileOf c o)).1
      Leaves (.tld o) s e (e.op .tiles (.tld o.t.val) o.space as 0 none none))
    ∧ (o.space = .s → OwnPieces c 8 (tileOf c o) →
      Leaves (.tld o) s c (c.op .tiles (.tld o.t.val) .s (ownAccs c 8 (tileOf c o)) 0 none none))

/-- R201, R202: tst completes: where its counter is free, its tile is neither loaded nor bad and its addresses pass the checks, it
leaves one operation outstanding on the tile counter, with the bytes that the tile holds now. -/
def Sys2Proof.Machine.TstIssues : Prop :=
  ∀ (o : FormT) (s : State) (c : Ctx), ready (.tst o) s = some c → c.s.counter c.wid c.w .tiles < 63 → c.chainRuns = false →
    c.tileLoading o.t.val = false → c.s.bad = [] → (c.uaddr o.space o.a) % 16 = 0 → (c.sv o.b).toNat % 16 = 0 →
    let held (t : State) (as : List Acc) : List Acc :=
      as.map fun a => { a with data := t.load (matrixLoc c.w.part c.pt (4096 * o.t.val) + 8 * a.lane) 8 }
    (∀ as, (c.placeTile c.s o.space .w (tileOf c o)).2 = .ok as → c.rowsHeld as = false →
      let e := c.with (c.placeTile c.s o.space .w (tileOf c o)).1
      Leaves (.tst o) s e (e.op .tiles (.tst o.t.val) o.space (held e.s as) 0 none none))
    ∧ (o.space = .s → OwnPieces c 8 (tileOf c o) →
      Leaves (.tst o) s c (c.op .tiles (.tst o.t.val) .s (held s (ownAccs c 8 (tileOf c o))) 0 none none))

/-- The drain leaves an operation of these accesses outstanding, clears the accumulator, with its checksums, where the drain word asks for it
and only there, and occupies the engine. -/
def Sys2Proof.Machine.Drains (i : Instr) (s : State) (c : Ctx) (n : Nat) (d : SOp) (u : State) (as : List Acc) : Prop :=
  ∃ t v x, exec i s = .next t ∧ tget t.warps c.wid = some v ∧ v.ops = c.w.ops ++ [x] ∧ x.kind = .cst ∧ x.ctr = .tiles
    ∧ x.accs.map (fun a => { a with data := 0 }) = as ∧ v.pc = c.nextPc ∧ v.vregs = c.w.vregs ∧ v.sregs = c.w.sregs
    ∧ tget t.engine (engineKey c.w.part c.pt) = some [] ∧ ((c.sv d).getLsbD 18 = false → ∀ y, t.mem.get y = u.mem.get y)
    ∧ ((c.sv d).getLsbD 18 = true → u.mem.wf = true → ∀ y, t.mem.get y =
        if c.accumAt n ≤ y ∧ y < c.accumAt n + accumSize then 0 else u.mem.get y)

/-- R252-R254: cst completes: where the engine and its counter are free, its drain word and its addresses pass the checks and no
element of the accumulator fails a tested checksum, it leaves one operation outstanding on the tile counter. -/
def Sys2Proof.Machine.CstIssues : Prop :=
  ∀ (cn : Fin 4) (sp : Space) (d a b : SOp) (k : Word) (s : State) (c : Ctx),
    ready (.cst cn sp d a b k) s = some c → engineFree c → c.s.counter c.wid c.w .tiles < 63 → c.s.bad = [] →
    drainOk (c.sv d) = true → (c.uaddr sp a) % 8 = 0 → (c.sv b).toNat % 8 = 0 →
    c.rangeOk sp (bounding (c.uaddr sp a) 32 (drainRow ((c.sv d).toNat % 16)) (c.sv b).toInt).1
      (bounding (c.uaddr sp a) 32 (drainRow ((c.sv d).toNat % 16)) (c.sv b).toInt).2 = true →
    (∀ as, let u := (c.placeDrain c.s sp (drainOf c sp d a b)).1
      (c.placeDrain c.s sp (drainOf c sp d a b)).2 = .ok as →
      (∀ x ∈ as, u.lockMeets c.w.slot c.core (lockKey c.w c.p sp x.addr) 8 true = false) →
      ((c.sv d).getLsbD 16 = true → (u.accum (c.accumAt cn.val)).failing = none) → c.rowsHeld as = false →
      Drains (.cst cn sp d a b k) s c cn.val d u as)
    ∧ (sp = .s → OwnPieces c 8 (drainOf c .s d a b) →
      ((c.sv d).getLsbD 16 = true → (s.accum (c.accumAt cn.val)).failing = none) →
      Drains (.cst cn sp d a b k) s c cn.val d s (ownAccs c 8 (drainOf c .s d a b)))

/-- Tile loads, tile stores, and drains. -/
def Obligations.TileAccessesIssue : Prop := TldIssues ∧ TstIssues ∧ CstIssues

/-- R73, R246-R250: mma with a good format word adds the product of its tiles to its accumulator and occupies the engine with them;
no byte outside the accumulator changes. -/
def Sys2Proof.Machine.MmaMultiplies : Prop :=
  ∀ (q : Fin 8) (fw : VOp) (cn : Fin 4) (ta tb : Fin 8) (k : Word) (s : State) (c : Ctx) (w : Word),
    ready (.mma q fw cn ta tb k) s = some c → engineFree c → c.tileLoading ta.val = false → c.tileLoading tb.val = false →
    c.s.bad = [] → c.w.laneok &&& ~~~c.act = 0 → c.formatWord fw = .ok w →
    let r := matMul w (tileRows (fwFa w) (s.bytesAt (c.tileAt ta.val) 4096)) (tileRows (fwFb w) (s.bytesAt (c.tileAt tb.val) 4096))
      (s.accum (c.accumAt cn.val))
    ∃ t v, exec (.mma q fw cn ta tb k) s = .next t ∧ tget t.warps c.wid = some v ∧ Popped (.mma q fw cn ta tb k) c.w v
      ∧ v = { c.w with pc := c.nextPc, fflags := c.w.fflags ||| r.2, aq := v.aq }
      ∧ tget t.engine (engineKey c.w.part c.pt) = some [ta.val, tb.val]
      ∧ t.mem = s.mem.write (c.accumAt cn.val) r.1.bytes

/-- R246, R247, R249, R380, R388: mma in which a live lane takes no part takes trap 0x08 with those lanes; one whose format word is not
accepted takes 0x09 with it; one whose left tile carries bad check bits in the bytes that its format takes up takes 0x0B. None
multiplies. -/
def Sys2Proof.Machine.MmaChecks : Prop :=
  ∀ (q : Fin 8) (fw : VOp) (cn : Fin 4) (ta tb : Fin 8) (k : Word) (s : State) (c : Ctx),
    ready (.mma q fw cn ta tb k) s = some c → engineFree c → c.tileLoading ta.val = false → c.tileLoading tb.val = false →
    c.w.handles = true →
    (c.s.bad = [] → c.act ≠ 0 → c.w.laneok &&& ~~~c.act ≠ 0 → LeadsFrom (.mma q fw cn ta tb k) s c
      (entered c.w { code := 0x08, value := (c.w.laneok &&& ~~~c.act).setWidth 64 } c.w.pc false))
    ∧ (∀ w, c.s.bad = [] → c.act ≠ 0 → c.w.laneok &&& ~~~c.act = 0 → c.formatWord fw = .error w →
      LeadsFrom (.mma q fw cn ta tb k) s c (entered c.w { code := 0x09, value := w.setWidth 64 } c.w.pc false))
    ∧ (∀ w, c.formatWord fw = .ok w → (∀ l ∈ lanesOf c.act, c.s.badLane c.wid (spanRegs [(fw, 1)]) l.val = false) →
      c.s.badIn (c.tileAt ta.val) (rowsSize (fwFa w)) = true →
      ∃ t v, exec (.mma q fw cn ta tb k) s = .next t ∧ tget t.warps c.wid = some v ∧ v.pc = c.w.tvec
        ∧ v.cause = BitVec.ofNat 32 (0x0B + 2 ^ 8 * 32) ∧ v.epc = c.w.pc &&& 0x007FFFFFFFFFFFFC)

/-- R256-R260: a round of a weight chain whose block is fetched and breaks no rule has the block's effect and gives its successor: MAC
multiplies a tile by the payload's weights into an accumulator, ZERO clears an accumulator with its checksums, TILE fills a tile with the
payload. Nothing else of the matrix state or of memory changes, and no warp does. -/
def Sys2Proof.Machine.WeightBlocksAct : Prop :=
  ∀ (s s1 s2 : State) (w : Warp) (b : DWord) (hb pay : List Byte) (nx : Option DWord), s.fetchBeats w b 1 = (s1, .ok hb) →
    let h := headerOf hb
    h.wrong = false → (h.op = 1 → fwOk h.fmt = true) → h.beats = h.size → h.next b = .ok nx →
    s1.fetchBeats w (b + 64) h.beats = (s2, .ok pay) → (h.op = 1 → h.comp = 1 → nibblesOk (fwFb h.fmt) pay = true) →
    s2.bad = [] → s2.mem.wf = true →
    let tile := matrixLoc w.part (w.wslot.toNat % 16) (4096 * h.ta)
    let acc := accumLoc w.part (w.wslot.toNat % 16) h.cn
    let r := matMul h.fmt (tileRows (fwFa h.fmt) (s2.bytesAt tile 4096)) (weightCols h.comp (fwFb h.fmt) pay) (s2.accum acc)
    ∃ s3, s.chainRound w b = (s3, .ok nx) ∧ s3.warps = s2.warps
      ∧ (h.op = 1 → s3.mem = s2.mem.write acc r.1.bytes)
      ∧ (h.op = 2 → ∀ a, s3.mem.get a = if acc ≤ a ∧ a < acc + accumSize then 0 else s2.mem.get a)
      ∧ (h.op = 3 → ∀ a, s3.mem.get a = if tile ≤ a ∧ a < tile + 4096 then pay.getD (a - tile) 0 else s2.mem.get a)

/-- R258: the weights that a payload encodes. A dense one holds the 32 column rows; of a two-of-four one each group of four weights has the
two values of its group at the two indices that its nibble gives, and zeros elsewhere. -/
def Sys2Proof.Machine.PayloadsDecode : Prop :=
  ∀ (t : Nat) (bs : List Byte), t ≤ 3 → weightCols 0 t bs = tileRows t bs
    ∧ (bs.length = 64 * weightBeats 1 t → ∀ j < 32, ∃ col, (weightCols 1 t bs)[j]? = some col ∧ col.length = rowLen t
        ∧ ∀ g < rowLen t / 4, ∀ i < 4,
          let vals := elems t ((bs.drop (j * (rowSize t / 2))).take (rowSize t / 2))
          let nib := (bs.getD (16 * rowSize t + j * (rowLen t / 8) + g / 2) 0).toNat / 16 ^ (g % 2) % 16
          col[4 * g + i]? = if i = nib % 4 then vals[2 * g]? else if i = nib / 4 then vals[2 * g + 1]? else some (.num 0))

/-- The matrix multiply, its checks, and the blocks of weight chains. -/
def Obligations.MatrixMultiply : Prop := MmaMultiplies ∧ MmaChecks ∧ WeightBlocksAct ∧ PayloadsDecode

/-- R244, R250, R251: czero writes zero to the accumulators that it names and to nothing else, and occupies the engine. -/
def Obligations.CzeroClears : Prop :=
  ∀ (m : BitVec 4) (s : State) (c : Ctx), ready (.czero m) s = some c → engineFree c → s.mem.wf = true →
    ∃ t, exec (.czero m) s = .next t ∧ tget t.warps c.wid = some (passed c) ∧ tget t.engine (engineKey c.w.part c.pt) = some []
      ∧ (∀ n k, n < 4 → m.getLsbD n = true → k < accumSize → t.mem.get (accumLoc c.w.part c.pt n + k) = 0)
      ∧ ∀ a, (∀ n, n < 4 → m.getLsbD n = true →
            a < accumLoc c.w.part c.pt n ∨ accumLoc c.w.part c.pt n + accumSize ≤ a) → t.mem.get a = s.mem.get a

/-- The cache instruction completes: the next instruction follows, no register and no byte of memory changes, and where it leaves an
operation, that one is outstanding. -/
def Sys2Proof.Machine.CacheEffect (i : Instr) (s : State) (c : Ctx) (ops : List OutOp) (p : Part) : Prop :=
  ∃ t v, exec i s = .next t ∧ tget t.warps c.wid = some v ∧ v.pc = c.nextPc ∧ v.vregs = c.w.vregs ∧ v.sregs = c.w.sregs
    ∧ t.mem = s.mem ∧ v.ops = c.w.ops ++ ops ∧ tget t.parts c.w.part = some p

/-- R192, R203: cflush and cflush.all complete: they leave a write-back of their range outstanding on the stores counter. cinv and
cinv.all complete: they drop the clean lines of their range at once, and count as a store where the range holds a dirty line. -/
def Sys2Proof.Machine.CacheInstructionsComplete : Prop :=
  ∀ (s : State) (c : Ctx), c.s.counter c.wid c.w .stores < 63 →
    let back (r : Nat × Nat) (inv : Bool) : OutOp := c.op .stores (.flush r.1 r.2 inv) .p [] 0 none none
    let left (r : Nat × Nat) : List OutOp := if dirtyIn c.p r then [back r true] else []
    (∀ a b k, ready (.cflush a b k) s = some c →
      CacheEffect (.cflush a b k) s c [back ((c.sv64 a).toNat, (c.sv b).toNat) false] c.p)
    ∧ (ready .cflushAll s = some c → CacheEffect .cflushAll s c [back (0, 2 ^ 64) false] c.p)
    ∧ (∀ a b k, ready (.cinv a b k) s = some c → let r := ((c.sv64 a).toNat, (c.sv b).toNat)
      CacheEffect (.cinv a b k) s c (left r) (dropClean r c.p))
    ∧ (ready .cinvAll s = some c → CacheEffect .cinvAll s c (left (0, 2 ^ 64)) (dropClean (0, 2 ^ 64) c.p))

/-- R204: pref completes whatever its address: the next instruction follows, and no register changes. Where the address does not
translate it has no other effect than the translation; a prefetch into the L2 or the MSC changes no L1 and no warp. -/
def Sys2Proof.Machine.PrefetchGoesOn : Prop :=
  ∀ (a : SOp) (lvl : PrefLvl) (s : State) (c : Ctx), ready (.pref a lvl) s = some c →
    let r := c.s.translate c.w.slot c.core c.die .r (BitVec.ofNat 64 ((c.sv64 a).toNat / 128 * 128))
    ∃ t v, exec (.pref a lvl) s = .next t ∧ tget t.warps c.wid = some v ∧ v.pc = c.nextPc ∧ v.vregs = c.w.vregs
      ∧ v.sregs = c.w.sregs ∧ v.preds = c.w.preds
      ∧ (∀ x, r.2 = .error x → v = passed c ∧ OnlyWarp c.wid r.1 t)
      ∧ (lvl ≠ .l1 → v = passed c ∧ t.parts = s.parts ∧ ∀ j, j ≠ c.wid → tget t.warps j = tget s.warps j)

/-- Write-back, invalidation and prefetch. -/
def Obligations.CacheControl : Prop := CacheInstructionsComplete ∧ PrefetchGoesOn

/-! ## Barriers, fences and waits -/

/-- R111, R216, R217: bar and barc of a warp that was not spawned and stands on no path are releases, and then arrivals: the warp
waits, the arrival is recorded, and the barrier is looked at. A barc of a block of one part is a bar. -/
def Sys2Proof.Machine.BarriersArrive : Prop :=
  ∀ (s : State) (c e : Ctx), c.w.spawned = false → hasPath c.w.stack = false → released c = some e →
    (∀ d a k, ready (.bar d a none k) s = some c → exec (.bar d a none k) s = .next (e.arrive none 0 none))
    ∧ (∀ (d : Fin 63) a op k, ready (.bar (.s d) a (some op) k) s = some c →
        exec (.bar (.s d) a (some op) k) s = .next (e.arrive (some op) (e.sv a) (some d)))
    ∧ (ready .barc s = some c → e.blockParts = 1 → exec .barc s = .next (e.arrive none 0 none))
    ∧ (ready .barc s = some c → e.blockParts ≠ 1 → exec .barc s = .next (((e.wait .barc).modBlock e.w.block fun b =>
        { b with barc := b.barc ++ [(e.wid, firstWord .barc)] }).barcCheck e.w.block))

/-- R216: the first arrival at a barrier at which another participant is missing waits there: the part remembers it, and nothing else
of the warp changes. -/
def Sys2Proof.Machine.BarWaitsForTheOthers : Prop :=
  ∀ (s : State) (c e : Ctx) (d a : SOp) (k : Word) (p : Part) (j : Nat) (u : Warp), ready (.bar d a none k) s = some c →
    c.w.spawned = false → hasPath c.w.stack = false → released c = some e → tget e.s.warps e.wid = some e.w →
    tget e.s.parts e.w.part = some p → p.bar = [] → j ≠ e.wid → (j, u) ∈ e.s.warps → u.part = e.w.part → u.spawned = false →
    u.ended = false →
    ∃ t, exec (.bar d a none k) s = .next t
      ∧ tget t.warps e.wid = some { e.w with wait := some ⟨.bar, (Instr.bar d a none k).length, e.s.gtime.toNat⟩ }
      ∧ tget t.parts e.w.part = some { p with bar := [⟨e.wid, none, 0, none, firstWord (.bar d a none k)⟩] } ∧ t.mem = e.s.mem

/-- R75, R183, R216: the last participant's bar with a payload completes the instance: it and every arrived warp go on behind their bar, each
with the combination of all payloads by warp index in its destination, and with the flags of that combination. -/
def Sys2Proof.Machine.BarCompletes : Prop :=
  ∀ (s : State) (c e : Ctx) (d : Fin 63) (a : SOp) (op : FoldOp) (k : Word) (p : Part), ready (.bar (.s d) a (some op) k) s = some c →
    c.w.spawned = false → hasPath c.w.stack = false → released c = some e → tget e.s.warps e.wid = some e.w →
    tget e.s.parts e.w.part = some p →
    let all := p.bar ++ [⟨e.wid, some op, e.sv a, some d, firstWord (.bar (.s d) a (some op) k)⟩]
    (∀ x ∈ e.s.warps, x.2.part = e.w.part → x.2.spawned = false → x.2.ended = false → ∃ b ∈ all, b.wid = x.1) →
    (∀ b ∈ p.bar, b.op = some op) → (all.map (·.wid)).Nodup →
    let at_ (i : Nat) := all.find? fun b => (tget e.s.warps b.wid).elim false fun v => v.index.toNat == i
    let r := foldTree op 6 ((List.range 64).map fun i => (at_ i).map (·.payload))
    ∃ t q, exec (.bar (.s d) a (some op) k) s = .next t ∧ tget t.parts e.w.part = some q ∧ q.bar = [] ∧ t.mem = e.s.mem
      ∧ (∃ v, tget t.warps e.wid = some v ∧ v.wait = none ∧ v.pc = e.w.pc + BitVec.ofNat 64 (Instr.bar (.s d) a (some op) k).length
          ∧ v.sregs = e.w.sregs.set d r.1 ∧ v.fflags = e.w.fflags ||| r.2)
      ∧ ∀ b ∈ p.bar, ∀ x u g, b.d = some x → tget e.s.warps b.wid = some u → u.wait = some g → ∃ v, tget t.warps b.wid = some v
          ∧ v.wait = none ∧ v.pc = u.pc + BitVec.ofNat 64 g.len ∧ v.sregs = u.sregs.set x r.1 ∧ v.fflags = u.fflags ||| r.2

/-- Arrival, waiting and completion at the barriers of parts and blocks. -/
def Obligations.BlockBarriers : Prop := BarriersArrive ∧ BarWaitsForTheOthers ∧ BarCompletes

/-- R218, R219: an arrival of `n` at a phase-bit barrier word takes `n` from the pending count; the last one reloads it and turns the
phase bit over; the expected count stays. -/
def Sys2Proof.Machine.PhaseBarrierCounts : Prop :=
  ∀ x n : Nat, x < 2 ^ 32 → n ≤ pbPending x →
    pbExpected (pbArrive x n) = pbExpected x
    ∧ pbPending (pbArrive x n) = (if n = pbPending x then pbExpected x else pbPending x - n)
    ∧ pbPhase (pbArrive x n) = (if n = pbPending x then !pbPhase x else pbPhase x)

/-- Where the word at an address of .s, or of .c, lies: in the part's own scratchpad, or in that of another part of its block, on a core that
serves (R92, R219). -/
def Sys2Proof.Machine.PbWord (c : Ctx) (cl : Bool) (a loc : Nat) : Prop :=
  (cl = false ∧ a + 4 ≤ c.p.scratch ∧ a + 4 ≤ 0x100000 ∧ loc = scratchLoc c.w.part a)
  ∨ (cl = true ∧ a / 2 ^ 20 = c.p.num ∧ a % 2 ^ 20 + 4 ≤ c.p.scratch ∧ loc = scratchLoc c.w.part (a % 2 ^ 20))
  ∨ (cl = true ∧ a / 2 ^ 20 ≠ c.p.num ∧ ∃ id q, c.s.partNumbered c.w.block (a / 2 ^ 20) = some (id, q) ∧ a % 2 ^ 20 + 4 ≤ q.scratch
      ∧ c.s.coreUp q.core = true ∧ loc = scratchLoc id (a % 2 ^ 20))

/-- R92, R111, R219: pbarr on a word of its own scratchpad or of another part's of its block, with enough pending arrivals, is a release,
gives its destination the word as it was, and leaves the arrival in exactly its four bytes. -/
def Sys2Proof.Machine.PbarrArrives : Prop :=
  ∀ (cl : Bool) (o : FormG) (s : State) (c : Ctx) (d : Fin 63) (loc : Nat), ready (.pbarr cl o) s = some c → o.d = .s d → AtRest c →
    (c.sv o.a).toNat % 4 = 0 → PbWord c cl (c.sv o.a).toNat loc →
    s.lockMeets c.w.slot c.core (lockKey c.w c.p (if cl then .c else .s) (c.sv o.a).toNat) 4 true = false → s.bad = [] →
    s.mem.wf = true →
    let x := s.load loc 4
    let n := (c.sv o.b).toNat
    pbExpected x ≠ 0 → n ≠ 0 → n ≤ pbPending x →
    ∃ t, exec (.pbarr cl o) s = .next t ∧ tget t.warps c.wid = some (wrote c d (BitVec.ofNat 32 x))
      ∧ WroteBytes s t loc 4 (pbArrive x n)

/-- R92, R220: pbwait on a word of its own scratchpad or of another part's of its block goes on as an acquire where the phase bit differs
from the low bit of b; where it equals it, the warp waits. -/
def Sys2Proof.Machine.PbwaitWaitsForThePhase : Prop :=
  ∀ (cl : Bool) (a b : SOp) (k : Word) (s : State) (c : Ctx) (loc : Nat), ready (.pbwait cl a b k) s = some c →
    (c.sv a).toNat % 4 = 0 → PbWord c cl (c.sv a).toNat loc →
    s.lockMeets c.w.slot c.core (lockKey c.w c.p (if cl then .c else .s) (c.sv a).toNat) 4 false = false → s.bad = [] →
    c.readWaits loc 4 = false →
    let bit := (c.sv b).getLsbD 0
    (pbPhase (s.load loc 4) ≠ bit → LeadsAcquiring (.pbwait cl a b k) s c (passed c))
    ∧ (pbPhase (s.load loc 4) = bit →
        Waits (.pbwait cl a b k) s c (.pbwait loc (if cl then .c else .s) ((c.sv a).setWidth 64) bit))

/-- Phase-bit barriers. -/
def Obligations.PhaseBarriers : Prop := PhaseBarrierCounts ∧ PbarrArrives ∧ PbwaitWaitsForThePhase

/-- R111, R221: a fence of a scope beyond the warp is a release and an acquire, and goes on. -/
def Sys2Proof.Machine.FencesReleaseAndAcquire : Prop :=
  ∀ (sc : Scope) (s : State) (c e : Ctx), ready (.fence sc) s = some c → sc ≠ .warp → released c = some e →
    tget e.s.warps e.wid = some e.w → LeadsAcquiring (.fence sc) s e (passed e)

/-- R117, R192, R194: waitc with its four counters within the limits goes on, as an acquire where it waits for copies; otherwise the
warp waits with the limits. -/
def Sys2Proof.Machine.WaitcWaitsForTheCounters : Prop :=
  ∀ (l st cp t : BitVec 6) (s : State) (c : Ctx), ready (.waitc l st cp t) s = some c →
    let within := s.counter c.wid c.w .loads ≤ l.toNat ∧ s.counter c.wid c.w .stores ≤ st.toNat
      ∧ s.counter c.wid c.w .copies ≤ cp.toNat ∧ s.counter c.wid c.w .tiles ≤ t.toNat
    (within → c.w.issued[(2 : Fin 4)] ≤ cp.toNat → LeadsFrom (.waitc l st cp t) s c (passed c))
    ∧ (within → cp.toNat < c.w.issued[(2 : Fin 4)] → LeadsAcquiring (.waitc l st cp t) s c (passed c))
    ∧ (¬ within → Waits (.waitc l st cp t) s c (.waitc l.toNat st.toNat cp.toNat t.toNat c.w.issued))

/-- Fences, and waits for the counters. -/
def Obligations.FencesAndCounterWaits : Prop := FencesReleaseAndAcquire ∧ WaitcWaitsForTheCounters

/-- R222, R223: waitw whose word already meets its condition goes on as an acquire with 0 in its destination; one whose word does not
waits, or, where its die's wait table is full, goes on with 1. A misaligned address takes trap 0x03. -/
def Obligations.WaitwWatches : Prop :=
  ∀ (d : Fin 63) (a b : SOp) (cc : Cond) (s : State) (c : Ctx), ready (.waitw (.s d) a b cc) s = some c →
    ((c.sv64 a).toNat % 8 ≠ 0 → c.w.handles = true →
      LeadsFrom (.waitw (.s d) a b cc) s c (entered c.w { code := 0x03, value := c.sv64 a } c.w.pc false))
    ∧ ∀ (s1 s2 : State) (p : Place) (hit : Bool), (c.sv64 a).toNat % 8 = 0 →
      c.s.translate c.w.slot c.core c.die .r (c.sv64 a) = (s1, .ok p) →
      s1.lockMeets c.w.slot c.core (c.sv64 a).toNat 8 false = false → c.readWaits p.loc 8 = false →
      s1.readWatched p cc (c.sv64 b) = (.ok hit, s2) →
      (hit = true → LeadsAcquiring (.waitw (.s d) a b cc) s (c.with s2) (wrote c d 0))
      ∧ (hit = false → s2.waitEntries c.die < 256 →
          Waits (.waitw (.s d) a b cc) s (c.with s2) (.waitw d (c.sv64 a) (c.sv64 b) cc))
      ∧ (hit = false → 256 ≤ s2.waitEntries c.die → ∃ t, exec (.waitw (.s d) a b cc) s = .next t
          ∧ tget t.warps c.wid = some (wrote c d 1) ∧ t.mem = s2.mem)

/-- R117, R224: sleept waits while its promise lies in the future; once it does not, it goes on, as an acquire where a copy of the
warp gave the promise and has finished, and takes trap 0x07 where that copy has not. -/
def Obligations.SleeptSleeps : Prop :=
  ∀ (a : SOp) (k : Word) (s : State) (c : Ctx), ready (.sleept a k) s = some c →
    let p := c.sv a
    let ahead := (s.gtime.setWidth 32 - p).slt 0
    (ahead = true → Waits (.sleept a k) s c (.sleept p))
    ∧ (ahead = false → s.copyOfPromise c.wid p = none → LeadsFrom (.sleept a k) s c (passed c))
    ∧ (∀ y, ahead = false → s.copyOfPromise c.wid p = some y → y.finished = true → LeadsAcquiring (.sleept a k) s c (passed c))
    ∧ (∀ y, ahead = false → s.copyOfPromise c.wid p = some y → y.finished = false → c.w.handles = true →
        LeadsFrom (.sleept a k) s c (entered c.w { code := 0x07, value := p.setWidth 64 } c.w.pc false))

/-- R111, R117, R197-R200: a copy that passes its checks completes: it is a release, leaves its promise in its destination, counts on
the copies counter, and is recorded with the ranges that its locks hold and its first four chunks running. One that moves nothing is
finished at once and holds no lock. -/
def Obligations.CopiesStart : Prop :=
  ∀ (d : Fin 63) (a : SOp) (dsp ssp : Space) (s : State) (c e : Ctx) (sr dr : Int × Int), ready (.copy (.s d) a dsp ssp) s = some c →
    CopyPasses c e a dsp ssp sr dr → tget e.s.warps e.wid = some e.w →
    let x := c.desc a dsp ssp
    let now := e.s.gtime.toNat
    let p := if x.len * x.rows = 0 then now else max now (e.w.lastPromise.getD now) + 1024 + (x.len * x.rows + 63) / 64
    ∃ t v y, exec (.copy (.s d) a dsp ssp) s = .next t ∧ tget t.warps e.wid = some v
      ∧ v = { wrote e d (BitVec.ofNat 32 p) with
              issued := e.w.issued.set 2 (e.w.issued[(2 : Fin 4)] + 1)
              lastPromise := if x.len * x.rows = 0 then e.w.lastPromise else some p }
      ∧ t.copies = e.s.copies ++ [(e.s.nextId, y)] ∧ t.mem = e.s.mem
      ∧ y.wid = e.wid ∧ y.dsp = dsp ∧ y.ssp = ssp ∧ y.src = BitVec.ofNat 64 x.src ∧ y.dst = BitVec.ofNat 64 x.dst ∧ y.len = x.len
      ∧ y.rows = x.rows ∧ y.promise = BitVec.ofNat 32 p ∧ y.running = List.range (min 4 ((x.len * x.rows + 4095) / 4096))
      ∧ (x.len * x.rows = 0 → y.finished = true ∧ y.srcKeys = [] ∧ y.dstKeys = [])
      ∧ (x.len * x.rows ≠ 0 → y.finished = false ∧ y.srcKeys = c.keyRanges ssp sr.1 sr.2 ∧ y.dstKeys = c.keyRanges dsp dr.1 dr.2)

/-! ## Spawning, arrays, sample groups, chains and scan tests -/

/-- R46, R226: a spawn with active lanes, of a part with a legal budget, with aligned entries, room for its pairs and nothing
outstanding, goes on after its active lanes' pairs, in ascending order, have been added to the bins of its core. With no active lane it
only goes on (R379). -/
def Sys2Proof.Machine.SpawnAddsItsPairs : Prop :=
  ∀ (q : Fin 8) (a b : VOp) (k : Word) (s : State) (c : Ctx), ready (.spawn q a b k) s = some c →
    let v : Warp := { c.w with pc := c.nextPc, aq := (popQueues (namedQueues (opnds (.spawn q a b k)).vs) c.w).aq }
    (lanesOf c.act = [] → LeadsFrom (.spawn q a b k) s c v)
    ∧ (lanesOf c.act ≠ [] → budgetOk c.p.spawnRegs.toNat = true → (∀ l ∈ lanesOf c.act, (c.v a l).toNat % 4 = 0) → c.w.ops = [] →
      s.pendingPairs c.w.slot c.die + (lanesOf c.act).length ≤ 65536 →
      ∃ t0 : State, tget t0.warps c.wid = some v ∧ OnlyWarp c.wid s t0
        ∧ exec (.spawn q a b k) s = .next (((lanesOf c.act).foldl (fun t l => t.addPair c.w.slot c.core c.w.part
          (BitVec.ofNat 64 (c.w.pc.toNat / 2 ^ 32 % 2 ^ 23 * 2 ^ 32 + (c.v a l).toNat)) (c.v b l)) t0).orderOf c.w.slot (Fin.ofNat 8 c.die)))

/-- R46: a pair whose key has no bin on its core opens a free one of 32, of which the lowest is the model's choice (log 76), or, where none
is free, has the oldest bin released as a warp and takes it over; one whose key has a bin joins it behind the others, and the 32nd pair
releases the bin as a warp. The bins of a core stand in the order in which their first pairs came. -/
def Sys2Proof.Machine.PairsFillBins : Prop :=
  ∀ (s : State) (slot : Fin 8) (core pid : Nat) (entry : DWord) (arg : Word),
    ((s.binsOn slot core).find? (fun b => b.part == pid && b.entry == entry) = none → (s.binsOn slot core).length < 32 →
      ∃ k < 32, k ∉ (s.binsOn slot core).map (·.index) ∧ (∀ j < k, j ∈ (s.binsOn slot core).map (·.index))
        ∧ s.addPair slot core pid entry arg = { s with bins := s.bins ++ [⟨core, k, pid, entry, [arg], s.ctxTime slot⟩] })
    ∧ (∀ b r, (s.binsOn slot core).find? (fun b => b.part == pid && b.entry == entry) = none → s.binsOn slot core = b :: r →
      (∀ k, k < 32 → k ∈ (s.binsOn slot core).map (·.index)) → s.addPair slot core pid entry arg = { s with
        bins := (s.bins.filter (· != b)) ++ [⟨core, b.index, pid, entry, [arg], s.ctxTime slot⟩]
        released := s.released ++ [⟨slot, dieOfCore b.core, b.core, b.index, b.part, b.entry, b.args⟩] })
    ∧ ∀ b, (s.binsOn slot core).find? (fun b => b.part == pid && b.entry == entry) = some b →
      (b.args.length + 1 < 32 → s.addPair slot core pid entry arg =
        { s with bins := s.bins.map fun y => if y = b then { b with args := b.args ++ [arg] } else y })
      ∧ (32 ≤ b.args.length + 1 →
        (s.addPair slot core pid entry arg).released = s.released ++
          [⟨slot, dieOfCore b.core, b.core, b.index, b.part, b.entry, b.args ++ [arg]⟩])

/-- Spawns, and the bins that their pairs fill. -/
def Obligations.Spawning : Prop := SpawnAddsItsPairs ∧ PairsFillBins

/-- R234, R286, R382: a dlaunch with nothing outstanding and room in its die's queue takes trap 0x03 at a misaligned image or barrier
address, and the trap of a right that it lacks to one of them, but not that of lost data. Where it passes these checks and its release
completes, it launches. A warp with nothing to release completes: its destination receives the launch number modulo 65,536, and an
instance is queued on each stack of its mask. -/
def Sys2Proof.Machine.DlaunchQueuesInstances : Prop :=
  ∀ (d : Fin 63) (a : SOp) (s : State) (c : Ctx), ready (.dlaunch (.s d) a) s = some c → s.queuedOn c.w.slot c.die < 1024 →
    c.w.ops = [] →
    let i : Instr := .dlaunch (.s d) a
    let r (k : Nat) : Word := sgetAt c.sregs a k
    let image := r 1 ++ r 0
    let barrier := r 3 ++ r 2
    let u := s.translate c.w.slot c.core c.die .r image
    let v := u.1.translate c.w.slot c.core c.die .rw barrier
    let allowed (x : Except (BitVec 8) Place) : Prop := ∀ k, x = .error k → k = 0x0B
    (image.toNat % 64 ≠ 0 → c.w.handles = true → LeadsFrom i s c (entered c.w { code := 0x03, value := image } c.w.pc false))
    ∧ (image.toNat % 64 = 0 → barrier.toNat % 8 ≠ 0 → c.w.handles = true →
        LeadsFrom i s c (entered c.w { code := 0x03, value := barrier } c.w.pc false))
    ∧ (image.toNat % 64 = 0 → barrier.toNat % 8 = 0 →
      (∀ k, u.2 = .error k → k ≠ 0x0B → c.w.handles = true →
        LeadsFrom i s (c.with u.1) (entered c.w { code := k, value := image } c.w.pc false))
      ∧ (∀ k, allowed u.2 → v.2 = .error k → k ≠ 0x0B → c.w.handles = true →
        LeadsFrom i s (c.with v.1) (entered c.w { code := k, value := barrier } c.w.pc false))
      ∧ (∀ e, allowed u.2 → allowed v.2 → released (c.with v.1) = some e →
        exec i s = .next (e.launchArray (.s d) image barrier (r 5 ++ r 4) (r 6) (r 7)))
      ∧ (allowed u.2 → allowed v.2 → AtRest c → ∃ t, exec i s = .next t
        ∧ tget t.warps c.wid = some (wrote c d (BitVec.ofNat 32 (s.nextLaunch c.w.slot % 65536)))
        ∧ ∀ k < 32, (r 6).getLsbD k = true → ∃ x ∈ t.insts, x.2.slot = c.w.slot ∧ x.2.stack = k ∧ x.2.state = .queued
          ∧ x.2.handle = some (s.nextLaunch c.w.slot) ∧ x.2.image = image ∧ x.2.barrier = barrier ∧ x.2.param = r 5 ++ r 4
          ∧ x.2.arg = r 7))

/-- R234: what a launch that completes leaves in its warp: the number, and the next instruction. -/
def Sys2Proof.Machine.LaunchGivesItsNumber : Prop :=
  ∀ (e : Ctx) (d : Fin 63) (image barrier param : DWord) (mask arg : Word), tget e.s.warps e.wid = some e.w → e.slice = false →
    (opnds e.i).vs = [] →
    tget (e.launchArray (.s d) image barrier param mask arg).warps e.wid =
      some (wrote e d (BitVec.ofNat 32 (e.s.nextLaunch e.w.slot % 65536)))

/-- Launches of array programs. -/
def Obligations.ArrayLaunches : Prop := DlaunchQueuesInstances ∧ LaunchGivesItsNumber

/-- R235, R236: dsig gives a token to, or aborts, the instances of its handle's launch; dstat reads the state of the instance of its
handle and stack, 3 where there is none. Each goes on, and changes nothing else. -/
def Sys2Proof.Machine.ArraySignalsAndStatus : Prop :=
  ∀ (s : State) (c : Ctx),
    (∀ a b k, ready (.dsigTok a b k) s = some c → ∃ t, exec (.dsigTok a b k) s = .next
        { t with insts := tmap s.insts fun i => if s.ofHandle c.w.slot (c.sv a) i then i.tokenIn (c.sv b) else i }
        ∧ tget t.warps c.wid = some (passed c) ∧ OnlyWarp c.wid s t)
    ∧ (∀ a k, ready (.dsigAbort a k) s = some c → ∃ t, exec (.dsigAbort a k) s = .next
        { t with insts := tmap s.insts fun i =>
            if s.ofHandle c.w.slot (c.sv a) i ∧ i.state ≠ .ended then { i with aborted := true } else i }
        ∧ tget t.warps c.wid = some (passed c) ∧ OnlyWarp c.wid s t)
    ∧ ∀ (d : Fin 63) a b k, ready (.dstat ⟨.s d, a, b, k⟩) s = some c →
        LeadsFrom (.dstat ⟨.s d, a, b, k⟩) s c (wrote c d
          ((s.insts.find? fun i => s.ofHandle c.w.slot (c.sv a) i.2 && i.2.stack == (c.sv b).toNat % 32).elim 3 fun i =>
            i.2.statWord))

/-- R236: the word of dstat: 0 queued, 1 running, 2 ended, with bit 2 for an abort, and bit 3 and the cause in bits 15..8 for a
fault. -/
def Sys2Proof.Machine.StatusWordOfAnInstance : Prop :=
  ∀ i : Inst, (i.state = .queued → i.statWord = 0) ∧ (i.state = .running → i.statWord = 1)
    ∧ (i.state = .ended → (i.statWord &&& 3) = 2 ∧ i.statWord.getLsbD 2 = i.aborted ∧ i.statWord.getLsbD 3 = i.faulted
        ∧ (i.faulted = true → i.statWord.extractLsb' 8 8 = i.cause))

/-- Signals to array programs, and their status. -/
def Obligations.ArrayControl : Prop := ArraySignalsAndStatus ∧ StatusWordOfAnInstance

/-- R229, R233: an sgfork with nothing outstanding at a misaligned address takes trap 0x03. At a good address it reads the record's
header: a count that is 0 or above 256 gives status 1 once the release completes; otherwise it reads the whole record, and what it
forks, or the status that it gives, follows from that record alone. -/
def Sys2Proof.Machine.SgforkForks : Prop :=
  ∀ (d : Fin 63) (a : SOp) (s : State) (c : Ctx), ready (.sgfork (.s d) a) s = some c → c.w.ops = [] →
    ((c.sv64 a).toNat % 64 ≠ 0 → c.w.handles = true →
      LeadsFrom (.sgfork (.s d) a) s c (entered c.w { code := 0x03, value := c.sv64 a } c.w.pc false))
    ∧ ∀ (s1 s2 : State) (p : Place) (hb : List Byte), (c.sv64 a).toNat % 64 = 0 →
      c.s.translate c.w.slot c.core c.die .rw (c.sv64 a) = (s1, .ok p) → p.tier = 0 → s1.readMem p 64 = (.bytes hb, s2) →
      ((groupCount hb = 0 ∨ 256 < groupCount hb) → ∀ e, released (c.with s2) = some e →
        LeadsFrom (.sgfork (.s d) a) s e (wrote e d 1))
      ∧ (1 ≤ groupCount hb → groupCount hb ≤ 256 → ∀ (s3 s4 : State) (q : Place) (bs : List Byte) (e : Ctx),
        s2.translate c.w.slot c.core c.die .rw (c.sv64 a + BitVec.ofNat 64 (48 + 16 * groupCount hb)) = (s3, .ok q) → q.tier = 0 →
        s3.readRecord c.w.slot .r (c.sv64 a).toNat 16 (4 + groupCount hb) = (s4, some bs) →
        released (c.with s4) = some e →
        exec (.sgfork (.s d) a) s = .next (e.fork (.s d) (c.sv64 a) bs))

/-- R229: a fork of a record that is not valid gives status 1; of one whose launch record is not accepted, 2; where the die's group
unit runs 1,024 groups, 3; and otherwise 0, with a group of running members created. -/
def Sys2Proof.Machine.ForkStatuses : Prop :=
  ∀ (e : Ctx) (d : Fin 63) (va : DWord) (bs : List Byte), e.slice = false → (opnds e.i).vs = [] →
    tget e.s.warps e.wid = some e.w →
    (groupValid bs = false → tget (e.fork (.s d) va bs).warps e.wid = some (wrote e d 1)
      ∧ (e.fork (.s d) va bs).groups = e.s.groups)
    ∧ ∀ (s1 : State) (l : Launch) (b : Block) (n : Node), groupValid bs = true →
      e.s.readLaunch e.w.slot (recField bs 0x10 8) = (s1, some l) → tget e.s.blocks e.w.block = some b →
      tget s1.nodes b.node = some n →
      (l.accepted n.eff.store = false → tget (e.fork (.s d) va bs).warps e.wid = some (wrote e d 2)
        ∧ (e.fork (.s d) va bs).groups = s1.groups)
      ∧ (l.accepted n.eff.store = true → 1024 ≤ s1.groupsOn e.w.slot e.die →
          tget (e.fork (.s d) va bs).warps e.wid = some (wrote e d 3) ∧ (e.fork (.s d) va bs).groups = s1.groups)
      ∧ (l.accepted n.eff.store = true → s1.groupsOn e.w.slot e.die < 1024 → n.draining = false →
          ∃ t g, (e.fork (.s d) va bs) = t ∧ tget t.warps e.wid = some (wrote e d 0)
            ∧ t.groups = s1.groups ++ [(s1.nextId + 1, g)] ∧ g.record = va ∧ g.n = groupCount bs
            ∧ g.members = List.replicate (groupCount bs) (.running, 0) ∧ g.node = s1.nextId ∧ g.done = false)

/-- The fork of a sample group. -/
def Obligations.GroupForks : Prop := SgforkForks ∧ ForkStatuses

/-- R230: sgreward, once its release completes, gives status 0 and reports the member where the warp's block is a running member; 1
where the block is no member of a running group; 2 where the member is final. -/
def Sys2Proof.Machine.SgrewardReports : Prop :=
  ∀ (d : Fin 63) (b : SOp) (k : Word) (s : State) (c e : Ctx), ready (.sgreward (.s d) b k) s = some c → released c = some e →
    tget e.s.warps e.wid = some e.w →
    (e.s.memberOf e.w = none → LeadsFrom (.sgreward (.s d) b k) s e (wrote e d 1))
    ∧ ∀ gid i g m, e.s.memberOf e.w = some (gid, i) → tget e.s.groups gid = some g → g.done = false → g.members[i]? = some m →
      (m.1 ≠ .running → LeadsFrom (.sgreward (.s d) b k) s e (wrote e d 2))
      ∧ (m.1 = .running → ∃ t h, exec (.sgreward (.s d) b k) s = .next t ∧ tget t.warps e.wid = some (wrote e d 0)
          ∧ tget t.groups gid = some h ∧ h.members[i]? = some (.reported, e.sv b)
          ∧ (∀ j, j ≠ i → h.members[j]? = g.members[j]?) ∧ t.mem = e.s.mem)

/-- R231: sgcancel goes on with status 1 where no running group has the record or the member, 2 where the member is final, and 0 where
it cancels the member. -/
def Sys2Proof.Machine.SgcancelCancels : Prop :=
  ∀ (d : Fin 63) (a b : SOp) (k : Word) (s : State) (c : Ctx), ready (.sgcancel (.s d) a b k) s = some c →
    (s.runningGroup c.w.slot (c.sv64 a) = none → LeadsFrom (.sgcancel (.s d) a b k) s c (wrote c d 1))
    ∧ ∀ gid g, s.runningGroup c.w.slot (c.sv64 a) = some (gid, g) →
      (g.n ≤ (c.sv b).toNat → LeadsFrom (.sgcancel (.s d) a b k) s c (wrote c d 1))
      ∧ ∀ m, (c.sv b).toNat < g.n → g.members[(c.sv b).toNat]? = some m →
        (m.1 ≠ .running → LeadsFrom (.sgcancel (.s d) a b k) s c (wrote c d 2))
        ∧ (m.1 = .running → ∃ t, tget t.warps c.wid = some (wrote c d 0) ∧ OnlyWarp c.wid s t
            ∧ exec (.sgcancel (.s d) a b k) s = .next (t.endMember gid (c.sv b).toNat .cancelled))

/-- R109, R111, R233: sgwait at a record whose done bit is set goes on as an acquire with 0; where the bit is clear the warp waits
while a group with that record runs, and otherwise goes on with 1. It reads once no earlier acquire, and no earlier access to the
record's first word, is outstanding. At a misaligned address it takes trap 0x03. -/
def Sys2Proof.Machine.SgwaitWaits : Prop :=
  ∀ (d : Fin 63) (a : SOp) (s : State) (c : Ctx), ready (.sgwait (.s d) a) s = some c →
    ((c.sv64 a).toNat % 64 ≠ 0 → c.w.handles = true →
      LeadsFrom (.sgwait (.s d) a) s c (entered c.w { code := 0x03, value := c.sv64 a } c.w.pc false))
    ∧ ∀ (s1 s2 : State) (p : Place) (hit : Bool), (c.sv64 a).toNat % 64 = 0 →
      c.s.translate c.w.slot c.core c.die .r (c.sv64 a) = (s1, .ok p) → p.tier = 0 → c.readWaits p.loc 4 = false →
      s1.readDone p = (some hit, s2) →
      (hit = true → LeadsAcquiring (.sgwait (.s d) a) s (c.with s2) (wrote c d 0))
      ∧ (hit = false → (s2.runningGroup c.w.slot (c.sv64 a)).isSome = true →
          Waits (.sgwait (.s d) a) s (c.with s2) (.sgwait d (c.sv64 a)))
      ∧ (hit = false → s2.runningGroup c.w.slot (c.sv64 a) = none → LeadsFrom (.sgwait (.s d) a) s (c.with s2) (wrote c d 1))

/-- R231, R417, R420: a member becomes final without a report: its state and no reward stand in the group, the other members keep
theirs, and where its block has been placed every warp of the block is stopped, with no wait and no pending error. -/
def Sys2Proof.Machine.MembersEnd : Prop :=
  ∀ (gid i : Nat) (st : MemberState) (s : State) (g : Group), tget s.groups gid = some g → i < g.members.length →
    ∃ u : State, (tget u.groups gid).map (·.members) = some (g.members.set i (st, 0)) ∧ u.warps = s.warps ∧ u.mem = s.mem
      ∧ (s.memberBlock gid i = none → s.endMember gid i st = u.groupCheck gid)
      ∧ ∀ b k, s.memberBlock gid i = some b → tget s.blocks b = some k →
        s.endMember gid i st = u.stopBlock b
        ∧ ((tget (s.endMember gid i st).blocks b).map (·.stopping)) = some true
        ∧ ∀ wid w, tget s.warps wid = some w → w.block = b → ∃ v, tget (s.endMember gid i st).warps wid = some v
          ∧ v.stopped = true ∧ v.wait = none ∧ v.errs = [] ∧ v.pc = w.pc ∧ v.sregs = w.sregs ∧ v.vregs = w.vregs

/-- R228, R232, R420: a group that is ready completes. Its record holds done with the count and the flags, the mean and the variance of
the rewards, the three counts, and of every member the reward, the advantage and the state; every byte outside these fields is as it
was; and the group's node ends COMPLETED, or ABANDONED where the group was killed. Mean, variance and the advantage of a member with a
nonzero variance are those of Machine/Group.lean. -/
def Sys2Proof.Machine.GroupsComplete : Prop :=
  ∀ (gid : Nat) (s : State) (g : Group) (nd : Node) (base : Nat), tget s.groups gid = some g → s.groupReady gid g = true →
    tget s.nodes g.node = some nd → nd.kind = .group → nd.status = none → g.members.length = g.n → g.n ≤ 256 →
    RecordAt s g.slot g.record.toNat (0x40 + 16 * g.n) base → Clean s → s.mem.wf = true →
    let t := s.groupCheck gid
    let rs := rewards g.members
    let mean := (meanVar rs).1
    let var := (meanVar rs).2
    let count (st : MemberState) : Nat := (g.members.filter fun m => m.1 == st).length
    let few := rs.length < 2
    let bad := nonfinite mean = true ∨ nonfinite var = true
    let flags := if rs = [] then 0 else if few then 0x40000 else if bad then 0x80000 else if var % 2 ^ 63 = 0 then 0x20000 else 0
    t.mem.read base 4 = leBytes 4 (flags + 0x10000 + g.n)
    ∧ t.mem.read (base + 0x18) 16 = leBytes 8 mean ++ leBytes 8 var
    ∧ t.mem.read (base + 0x28) 12 = leBytes 4 (count .reported) ++ leBytes 4 (count .cancelled) ++ leBytes 4 (count .timedOut)
    ∧ (∀ i m, g.members[i]? = some m → t.mem.read (base + 0x40 + 16 * i) 16 =
        leBytes 4 (if m.1 = .reported then m.2.toNat else 0)
        ++ leBytes 4 (match m.1 with
            | .cancelled => 0x7FC00001
            | .timedOut => 0x7FC00002
            | _ => if few then 0 else if bad then 0x7FC00000 else if var % 2 ^ 63 = 0 then 0
              else advantage (convert .fp32 .fp64 false .rne m.2.toNat).1 mean var g.eps)
        ++ leBytes 4 (memberCode m.1) ++ leBytes 4 0)
    ∧ (∀ a, (a < base ∨ base + 4 ≤ a ∧ a < base + 0x18 ∨ base + 0x34 ≤ a ∧ a < base + 0x40 ∨ base + 0x40 + 16 * g.n ≤ a) →
        t.mem.get a = s.mem.get a)
    ∧ (tget t.groups gid).map (·.done) = some true
    ∧ (tget t.nodes g.node).bind (·.status) = some (if g.killed then .abandoned else .completed)
    ∧ t.warps = s.warps

/-- Rewards, cancellations and waits of sample groups, the end of a member, and the record of a group that completes. -/
def Obligations.GroupMembers : Prop := SgrewardReports ∧ SgcancelCancels ∧ SgwaitWaits ∧ MembersEnd ∧ GroupsComplete

/-- R260, R261: wdrun with a free engine and no tile operation of its partition outstanding starts its chain at an aligned block: the
warp waits with the block's address, no block counted, and its limit. -/
def Obligations.WdrunStartsAChain : Prop :=
  ∀ (d : Fin 63) (a b : SOp) (k : Word) (s : State) (c : Ctx), ready (.wdrun ⟨.s d, a, b, k⟩) s = some c → engineFree c →
    c.tilesMove = false →
    ((c.sv64 a).toNat % 64 = 0 → Waits (.wdrun ⟨.s d, a, b, k⟩) s c (.chain (c.sv64 a) 0 (c.sv b) d))
    ∧ ((c.sv64 a).toNat % 64 ≠ 0 → c.w.handles = true →
        LeadsFrom (.wdrun ⟨.s d, a, b, k⟩) s c (entered c.w { code := 0x03, value := c.sv64 a } c.w.pc false))

/-- R240, R446, R447: the scan-test operations. `.hold` of a free neighbour takes it with status 0, and it holds no votes; a core that is
no neighbour gives 1, one that another block holds, or in service with a part, 2. `.chunk` of a held core that no block is ready for waits
10 µs; a chunk above 19 gives 7, and begins the matches of a fenced core anew (log 61); a core that is not held gives 4. `.appeal` of a
held core that is fenced and has matched every chunk makes it appealing for 64 periods, still held; without every match it gives 6, as of
a core in service; without the hold 4; of a removed core 0, with the refusal appended. `.free` ends the hold, and gives 4 without one. -/
def Sys2Proof.Machine.ScanOperations : Prop :=
  ∀ (d : Fin 63) (a b : SOp) (k : Word) (s : State) (c : Ctx), d.val + 1 < 63 →
    let o : FormG := ⟨.s d, a, b, k⟩
    let t := (c.sv a).toNat
    let two (x y : Word) : Warp := { c.w with
      pc := c.nextPc, sregs := (c.w.sregs.set d x).setIfInBounds (d.val + 1) y
      badSregs := (c.w.badSregs.filter (· != d.val)).filter (· != d.val + 1) }
    (ready (.stestHold o) s = some c → c.holdStatus t = 0 → ∃ u, exec (.stestHold o) s = .next u
        ∧ tget u.warps c.wid = some (two 0 0) ∧ (u.coreFence t).holder = some c.w.block ∧ (u.coreFence t).matched = 0 ∧ (∀ x, u.votesAgainst t x = false)
        ∧ ∀ y, y < fenceTable ∨ fenceTable + 24576 ≤ y → u.mem.get y = s.mem.get y)
    ∧ ((∃ x ∈ neighbours c.core, x.2 = t) → (∀ b, (c.s.coreFence t).holder = some b → b = c.w.block) →
        ((c.s.coreFence t).state = .inService → c.s.hasPart t = false) → c.holdStatus t = 0)
    ∧ (ready (.stestHold o) s = some c → (∀ x ∈ neighbours c.core, x.2 ≠ t) → LeadsFrom (.stestHold o) s c (two 1 0))
    ∧ (∀ y ∈ neighbours c.core, ready (.stestHold o) s = some c → y.2 = t →
        (∃ b, (c.s.coreFence t).holder = some b ∧ b ≠ c.w.block) ∨ (c.s.coreFence t).state = .inService ∧ c.s.hasPart t = true →
        LeadsFrom (.stestHold o) s c (two 2 0))
    ∧ (ready (.stestChunk o) s = some c → (c.sv b).toNat ≤ 19 → s.heldBy t c.w.block = true → c.s.wanted t = false →
        Waits (.stestChunk o) s c (.chunk t (c.sv b).toNat d (s.gtime.toNat + 10000)))
    ∧ (ready (.stestAppeal o) s = some c → (s.coreFence t).state = .fenced → (s.coreFence t).holder = some c.w.block →
        (s.coreFence t).matched = allChunks →
        LeadsFrom (.stestAppeal o) s (c.with (s.openAppeal t)) (two 0 0))
    ∧ ((s.openAppeal t).coreFence t).state = .appealing
    ∧ ((s.openAppeal t).coreFence t).appealLeft = 64
    ∧ ((s.openAppeal t).coreFence t).seq = 0
    ∧ ((s.openAppeal t).coreFence t).holder = (s.coreFence t).holder
    ∧ (ready (.stestChunk o) s = some c → 19 < (c.sv b).toNat → c.s.wanted t = false →
        (s.heldBy t c.w.block = false → LeadsFrom (.stestChunk o) s c (two 7 0))
        ∧ (s.heldBy t c.w.block = true → (s.coreFence t).state ≠ .appealing → ∃ u, exec (.stestChunk o) s = .next u
            ∧ tget u.warps c.wid = some (two 7 0)
            ∧ ((s.coreFence t).state = .fenced → (u.coreFence t).matched = 0 ∧ (u.coreFence t).holder = some c.w.block)))
    ∧ (ready (.stestChunk o) s = some c → (c.sv b).toNat ≤ 19 → c.s.wanted t = false → s.heldBy t c.w.block = false →
        LeadsFrom (.stestChunk o) s c (two 4 0))
    ∧ (ready (.stestAppeal o) s = some c → c.s.wanted t = false →
        ((s.coreFence t).state = .inService → LeadsFrom (.stestAppeal o) s c (two 6 0))
        ∧ ((s.coreFence t).state = .fenced → s.heldBy t c.w.block = false → LeadsFrom (.stestAppeal o) s c (two 4 0))
        ∧ ((s.coreFence t).state = .fenced → s.heldBy t c.w.block = true → (s.coreFence t).matched ≠ allChunks →
            LeadsFrom (.stestAppeal o) s c (two 6 0))
        ∧ ((s.coreFence t).state = .removed → LeadsFrom (.stestAppeal o) s (c.with (s.fenceLog t 4 7)) (two 0 0)))
    ∧ (ready (.stestFree o) s = some c → c.s.wanted t = false → s.heldBy t c.w.block = false → LeadsFrom (.stestFree o) s c (two 4 0))
    ∧ ((s.endHold t).coreFence t).holder = none
    ∧ (ready (.stestFree o) s = some c → s.heldBy t c.w.block = true → c.s.wanted t = false → ∃ u, tget u.warps c.wid = some (two 0 0) ∧ OnlyWarp c.wid s u
        ∧ exec (.stestFree o) s = .next (u.endHold t).gateCheck)

/-- R240, R437, R447: the end of a chunk's 10 µs. Its warp goes on with 4 where its block no longer holds the target; with 0 and the
signature where it is the expected one, and the chunk counts as matched; with 5 and the signature where it is not: the hold ends, and
the target, unless it is removed already, is fenced, removed and out of the map. Where a block of priority 0 is ready for the target
the chunk ends with 3, and the hold with it. -/
def Sys2Proof.Machine.ScanChunksEnd : Prop :=
  ∀ (wid : Nat) (s : State) (w : Warp) (t k : Nat) (d : Fin 63) (till len since : Nat), d.val + 1 < 63 →
    s.waiting wid = some (w, ⟨.chunk t k d till, len, since⟩) → till ≤ s.gtime.toNat → (s.warps.map (·.1)).Nodup →
    let got := Config.producedSig t k s.choices
    let gone (u : State) (x y : Word) : Prop := ∃ v, tget u.warps wid = some v ∧ v.wait = none ∧ v.pc = w.pc + BitVec.ofNat 64 len
      ∧ v.sregs = (w.sregs.set d x).setIfInBounds (d.val + 1) y
    (({ s with armed := none }).wanted t = false →
      (s.heldBy t w.block = false → ∃ u, exec (.stestChunkEnd wid) s = .next u ∧ gone u 4 0 ∧ u.cores = s.cores ∧ u.mem = s.mem)
      ∧ (s.heldBy t w.block = true → got = Config.expectedSig t k → ∃ u, exec (.stestChunkEnd wid) s = .next u ∧ gone u 0 got
          ∧ (u.coreFence t).holder = some w.block
          ∧ (u.coreFence t).matched = (s.coreFence t).matched ||| BitVec.ofNat 20 (2 ^ k))
      ∧ (s.heldBy t w.block = true → got ≠ Config.expectedSig t k → (s.coreFence t).state = .removed →
          ∃ u, exec (.stestChunkEnd wid) s = .next u ∧ gone u 5 got ∧ (u.coreFence t).holder = none
            ∧ (u.coreFence t).state = .removed ∧ u.outOfMap = s.outOfMap)
      ∧ (s.heldBy t w.block = true → got ≠ Config.expectedSig t k → (s.coreFence t).state ≠ .removed →
          ∃ u, exec (.stestChunkEnd wid) s = .next (((u.abandonCore t).fenceLog t 5).alert).gateCheck ∧ gone u 5 got
            ∧ (u.coreFence t).holder = none ∧ (u.coreFence t).state = .removed ∧ t ∈ u.outOfMap ∧ u.mapEpoch = s.mapEpoch + 1))
    ∧ (({ s with armed := none }).wanted t = true → ∃ u, exec (.stestChunkEnd wid) s = .next u ∧ gone u 3 0
        ∧ (u.coreFence t).holder = none ∧ (u.coreFence t).state = .inService)

/-- The scan-test operations and the end of a chunk. -/
def Obligations.ScanTestOperations : Prop := ScanOperations ∧ ScanChunksEnd

/-! ## Device steps: waits, copies, engines, spawning -/

/-- R33, R194, R220, R222-R224, R233: the event that ends a wait whose condition holds lets the warp go on behind the waiting
instruction, with the result that the instruction promised. -/
def Sys2Proof.Machine.WaitsEnd : Prop :=
  ∀ (s : State) (wid : Nat) (w : Warp) (k : Waiting), s.waiting wid = some (w, k) →
    let up : Warp := { w with wait := none, pc := w.pc + BitVec.ofNat 64 k.len }
    let got (d : Fin 63) (x : Word) : Warp := { up with sregs := w.sregs.set d x, badSregs := w.badSregs.filter (· != d.val) }
    (∀ l st cp t n, k.kind = .waitc l st cp t n → s.countsOk wid w l st cp t = true → w.errs = [] →
      ∃ u, exec (.waitcEnd wid) s = .next u ∧ tget u.warps wid = some up ∧ u.mem = s.mem)
    ∧ (∀ d a v cc p s1, k.kind = .waitw d a v cc → s.watchedPlace w a = some p → p.tier = 0 →
        s.readWatched p cc v = (.ok true, s1) →
        ∃ u, exec (.waitwWake wid) s = .next u ∧ tget u.warps wid = some (got d 0) ∧ u.mem = s1.mem)
    ∧ (∀ d a v cc p s1, k.kind = .waitw d a v cc → s.watchedPlace w a = some p → p.tier ≠ 0 →
        max k.since w.polled + 1024 ≤ s.gtime.toNat →
        (s.modWarp wid fun x => { x with polled := s.gtime.toNat }).readWatched p cc v = (.ok true, s1) →
        ∃ u, exec (.waitwRemotePoll wid) s = .next u ∧ tget u.warps wid = some { got d 0 with polled := s.gtime.toNat }
          ∧ u.mem = s1.mem)
    ∧ (∀ id off sp p a bit, k.kind = .pbwait (scratchLoc id off) sp a bit → off < 0x100000 → tget s.parts id = some p →
        s.coreUp p.core = true → s.bad = [] → pbPhase (s.load (scratchLoc id off) 4) ≠ bit →
        ∃ u, exec (.pbwaitWake wid) s = .next u ∧ tget u.warps wid = some up ∧ u.mem = s.mem)
    ∧ (∀ d va p s1, k.kind = .sgwait d va → s.watchedPlace w va = some p → s.readDone p = (some true, s1) →
        ∃ u, exec (.sgwaitWake wid) s = .next u ∧ tget u.warps wid = some (got d 0) ∧ u.mem = s1.mem)
    ∧ (∀ p, k.kind = .sleept p → (s.gtime.setWidth 32 - p).slt 0 = false → s.copyOfPromise wid p = none → w.errs = [] →
        ∃ u, exec (.sleeptWake wid) s = .next u ∧ tget u.warps wid = some up ∧ u.mem = s.mem)
    ∧ (k.kind = .exitDrain → s.drained wid w = true → exec (.exitDrainEnd wid) s = .next (s.endWarp wid))

/-- R33, R194, R220, R222-R224, R233: the event of a wait whose condition does not hold changes nothing but what its reading of the
watched word does, and what a remote reading counts from; before 1,024 ns there is none. -/
def Sys2Proof.Machine.UnmetWaitsStay : Prop :=
  ∀ (s : State) (wid : Nat) (w : Warp) (k : Waiting), s.waiting wid = some (w, k) →
    (∀ l st cp t n, k.kind = .waitc l st cp t n → s.countsOk wid w l st cp t = false → exec (.waitcEnd wid) s = .next s)
    ∧ (∀ id off sp a bit, k.kind = .pbwait (scratchLoc id off) sp a bit → s.bad = [] →
        pbPhase (s.load (scratchLoc id off) 4) = bit → exec (.pbwaitWake wid) s = .next s)
    ∧ (∀ p, k.kind = .sleept p → (s.gtime.setWidth 32 - p).slt 0 = true → exec (.sleeptWake wid) s = .next s)
    ∧ (∀ d a v cc p, k.kind = .waitw d a v cc → s.watchedPlace w a = some p →
        let late := max k.since w.polled + 1024 ≤ s.gtime.toNat
        let u := s.modWarp wid fun x => { x with polled := s.gtime.toNat }
        (p.tier ≠ 0 → exec (.waitwWake wid) s = .next s)
        ∧ (p.tier = 0 → exec (.waitwRemotePoll wid) s = .next s)
        ∧ (p.tier ≠ 0 → ¬ late → exec (.waitwRemotePoll wid) s = .next s)
        ∧ (∀ s1, p.tier = 0 → s.readWatched p cc v = (.ok false, s1) → exec (.waitwWake wid) s = .next s1)
        ∧ (∀ s1, p.tier ≠ 0 → late → u.readWatched p cc v = (.ok false, s1) → exec (.waitwRemotePoll wid) s = .next s1))
    ∧ (∀ d va p s1, k.kind = .sgwait d va → s.watchedPlace w va = some p → s.readDone p = (some false, s1) →
        (s1.runningGroup w.slot va).isSome = true → exec (.sgwaitWake wid) s = .next s1)
    ∧ (k.kind = .exitDrain → s.drained wid w = false → exec (.exitDrainEnd wid) s = .next s)

/-- R222, R223, R233: a waitw whose re-reading fails ends with the trap of the failure, at its own address, and so does one whose core may
reach the word no longer, with 0x0C (the latter also where its address translates no longer, which is log 15's reading); an sgwait whose
record cannot be read takes 0x0B, and one whose group runs no longer and is not done goes on with 1. -/
def Sys2Proof.Machine.FailedWaitsTrap : Prop :=
  ∀ (s : State) (wid : Nat) (w : Warp) (k : Waiting), s.waiting wid = some (w, k) →
    (∀ d a v cc, k.kind = .waitw d a v cc → w.handles = true →
      (∀ p s1 code, s.watchedPlace w a = some p → p.tier = 0 → s.readWatched p cc v = (.error code, s1) →
        ∃ t, exec (.waitwWake wid) s = .next t ∧ tget t.warps wid = some (entered w { code := code, value := a } w.pc false))
      ∧ (∀ p s1 code, s.watchedPlace w a = some p → p.tier ≠ 0 → max k.since w.polled + 1024 ≤ s.gtime.toNat →
        (s.modWarp wid fun x => { x with polled := s.gtime.toNat }).readWatched p cc v = (.error code, s1) →
        ∃ t, exec (.waitwRemotePoll wid) s = .next t
          ∧ tget t.warps wid = some { entered w { code := code, value := a } w.pc false with polled := s.gtime.toNat })
      ∧ (∀ p, s.ctxPlace w.slot a.toNat = some p → s.mayTouch (some (s.coreOf w)) .r p = false →
        ∃ t, exec (if p.tier = 0 then .waitwWake wid else .waitwRemotePoll wid) s = .next t
          ∧ tget t.warps wid = some (entered w { code := 0x0C, value := a } w.pc false) ∧ t.mem = s.mem)
      ∧ (s.ctxPlace w.slot a.toNat = none → ∃ t, exec (.waitwWake wid) s = .next t
          ∧ tget t.warps wid = some (entered w { code := 0x0C, value := a } w.pc false) ∧ t.mem = s.mem))
    ∧ (∀ d va p s1, k.kind = .sgwait d va → s.watchedPlace w va = some p →
      (s.readDone p = (none, s1) → w.handles = true → ∃ t, exec (.sgwaitWake wid) s = .next t
        ∧ tget t.warps wid = some (entered w { code := 0x0B, value := va } w.pc false))
      ∧ (s.readDone p = (some false, s1) → s1.runningGroup w.slot va = none → ∃ t, exec (.sgwaitWake wid) s = .next t
        ∧ tget t.warps wid = some { w with wait := none, pc := w.pc + BitVec.ofNat 64 k.len, sregs := w.sregs.set d 1,
                                           badSregs := w.badSregs.filter (· != d.val) } ∧ t.mem = s1.mem))

/-- The events of waits: which end, which stay, and which fail. -/
def Obligations.WaitsEndOrStay : Prop := WaitsEnd ∧ UnmetWaitsStay ∧ FailedWaitsTrap

/-- R104, R117, R199, R329, R392: the event of a running chunk that no earlier copy holds back, that waits for no migration and that no gang
switch pauses moves the chunk and settles the copy: without an error the chunk leaves the running ones, the next one that is left starts,
and the copy finishes with its last chunk. -/
def Sys2Proof.Machine.ChunksEnd : Prop :=
  (∀ (id k : Nat) (s : State) (c : Copy) (w : Warp) (p : Part) (b : Block), tget s.copies id = some c → tget s.warps c.wid = some w →
    tget s.parts w.part = some p → s.running = some c.slot → tget s.blocks w.block = some b → b.resident = true → s.switching = false →
    k ∈ c.running → s.copyWaits id c = false → (∀ x ∈ c.words k, s.wordStalls c x = false) →
    exec (.copyChunkDone id k) s =
      .next (((s.moveChunk w p c k).1.modCopy id (chunkEnded k (s.moveChunk w p c k).2)).copyFinished id))
  ∧ ∀ (k : Nat) (c : Copy), c.error = none →
    (chunkEnded k none c).error = none
    ∧ (chunkEnded k none c).running = (c.running.filter (· != k)) ++ (if c.next < chunksOf c.len c.rows then [c.next] else [])
    ∧ (chunkEnded k none c).finished = (chunkEnded k none c).running.isEmpty
    ∧ ∀ t : Trap, (chunkEnded k (some t) c).error = some (k, t) ∧ (chunkEnded k (some t) c).running = c.running.filter (· != k)

/-- R197, R199: COPY_CHUNK_DONE of a chunk of a copy of one row within the part's own scratchpad, none of which has been moved, completes:
the chunk's bytes of the destination hold what those of the source held, in their order; every other byte of memory stays; the chunk runs
no more, and no error is left. -/
def Sys2Proof.Machine.ChunksMoveTheirBytes : Prop :=
  ∀ (id k : Nat) (s : State) (c : Copy) (w : Warp) (p : Part) (b : Block), tget s.copies id = some c → tget s.warps c.wid = some w →
    tget s.parts w.part = some p → s.running = some c.slot → tget s.blocks w.block = some b → b.resident = true → s.switching = false →
    w.ended = false → k ∈ c.running → k < c.next → s.copyWaits id c = false → c.fetched = [] → c.moved = [] → c.error = none →
    c.ssp = .s → c.dsp = .s → c.rows = 1 → c.src.toNat % 4 = 0 → c.dst.toNat % 4 = 0 → c.len % 4 = 0 →
    c.src.toNat + c.len ≤ p.scratch → c.dst.toNat + c.len ≤ p.scratch → p.scratch ≤ 0x100000 → s.bad = [] → s.mem.wf = true →
    let n := min c.len (4096 * k + 4096) - 4096 * k
    let src := scratchLoc w.part (c.src.toNat + 4096 * k)
    let dst := scratchLoc w.part (c.dst.toNat + 4096 * k)
    ∃ t y, exec (.copyChunkDone id k) s = .next t ∧ tget t.copies id = some y ∧ y.error = none ∧ k ∉ y.running
      ∧ ∀ a, t.mem.get a = if dst ≤ a ∧ a < dst + n then s.mem.get (src + (a - dst)) else s.mem.get a

/-- The end of a copy's chunks, and the bytes that they move. -/
def Obligations.CopyChunksEnd : Prop := ChunksEnd ∧ ChunksMoveTheirBytes

/-- R46, R47, R227, R250, R260-R262, R327, R447: the end of a matrix operation frees its engine; a weight block that is over leads to
the next one, or ends the chain with its registers written, as does the limit; a scan chunk that has run its time ends; the bin of a
core whose timer passed first is released as a warp; a released warp is placed where there is room for it. -/
def Obligations.EngineEvents : Prop :=
  (∀ (core part : Nat) (s : State) (r : Fin 8), s.running = some r → ∃ e, exec (.matrixOpEnd core part) s = .next { s with engine := e }
    ∧ ∀ pid p, (pid, p) ∈ s.parts → p.core = core → s.slotOfPart pid = some r → tget e (engineKey pid part) = none)
  ∧ (∀ (wid : Nat) (s : State) (w : Warp) (b : DWord) (n lim : Word) (d : Fin 63) (len t : Nat),
    s.waiting wid = some (w, ⟨.chain b n lim d, len, t⟩) → w.ops.all (·.slice) = true →
    (lim ≠ 0 → n = lim → exec (.weightBlockFetched wid) s = .next (s.modWarp wid fun x => endWait (chainRegs d.val n 1 b x)))
    ∧ ((lim = 0 ∨ n ≠ lim) → ∀ s1,
      (∀ nx, s.chainRound w b = (s1, .ok (some nx)) → exec (.weightBlockFetched wid) s =
        .next (s1.modWarp wid fun x => { x with wait := some ⟨.chain nx (n + 1) lim d, len, t⟩ }))
      ∧ (s.chainRound w b = (s1, .ok none) → exec (.weightBlockFetched wid) s =
        .next (s1.modWarp wid fun x => endWait (chainRegs d.val (n + 1) 0 0 x)))
      ∧ (∀ st, s.chainRound w b = (s1, .error st) → exec (.weightBlockFetched wid) s = .next (s1.chainEnd wid w d.val n st b))))
  ∧ (∀ (wid : Nat) (s : State) (w : Warp) (t k : Nat) (d : Fin 63) (till len since : Nat),
    s.waiting wid = some (w, ⟨.chunk t k d till, len, since⟩) → till ≤ s.gtime.toNat →
    (({ s with armed := none }).wanted t = false → exec (.stestChunkEnd wid) s = .next (s.endChunk wid t k d w))
    ∧ (({ s with armed := none }).wanted t = true → exec (.stestChunkEnd wid) s = .next (s.preemptHold t)))
  ∧ (∀ (core bin : Nat) (s : State) (r : Fin 8) (c : Context) (b : Bin), s.running = some r → s.ctxs[r] = some c →
    (s.binsOn r core).find? (fun b => b.index == bin) = some b → b.since + max 1 c.bintimer.toNat ≤ c.time →
    s.switching = false → (∀ y ∈ s.binsOn r core, b.since < y.since ∨ (b.since = y.since ∧ b.index ≤ y.index)) →
    ∃ t, exec (.spawnBinTimer core bin) s = .next t ∧ t.bins = s.bins.filter (· != b)
      ∧ t.released = s.released ++ [⟨r, dieOfCore b.core, b.core, b.index, b.part, b.entry, b.args⟩] ∧ t.mem = s.mem)
  ∧ ∀ (die : Fin 8) (s : State) (slot : Fin 8) (r : Released) (p : Part) (k a : Nat), s.running = some slot → s.released = [r] →
    r.slot = slot → r.die = die.val → s.switching = false → s.spawnRoom r = some (p, k, a) →
    ∃ t, exec (.spawnWarpPlace die.val) s = .next t ∧ t.released = [] ∧ t.warps = ((s.newPbase slot).2.addWarp
      (spawnedWarp r p r.part k a (s.newPbase slot).1)).warps

/-! ## Device steps: scheduling -/

/-- R17, R320, R322, R325, R330, R416, R445: NODE_START of the node that the scheduler starts next: a region or group starts; a kernel
launch or a self-test starts with its record where the record is accepted, and otherwise ends LAUNCHERR; an array node queues its
instances, or is completed where its mask is 0; a collective starts on a free engine; a node whose dependency failed is abandoned with
everything below it. That NODE_START is the step which abandons it is log 45's choice, and that the free engine is the lowest one is
log 54's. -/
def Obligations.NodesStart : Prop :=
  ∀ (nid : Nat) (s : State) (n : Node), tget s.nodes nid = some n →
    (s.doomed n = true → exec (.nodeStart nid) s = .next (s.abandonUnstarted nid))
    ∧ (s.doomed n = false → s.mayStart n.slot = true → s.nextStart n.slot = some nid →
      ((n.kind = .region ∨ n.kind = .group) → ∃ t, exec (.nodeStart nid) s = .next t
          ∧ tget t.nodes nid = some { n with started := true, readySince := none } ∧ t.mem = s.mem)
      ∧ (∀ s1 l, (n.kind = .launch ∨ n.kind = .selftest ∧ selftestOk n l = true) → s.readLaunch n.slot n.body.toNat = (s1, some l) →
          l.accepted n.eff.store = true → ∃ t, exec (.nodeStart nid) s = .next t ∧ t.mem = s1.mem
            ∧ tget t.nodes nid = some { n with started := true, readySince := none, launch := some l,
                                               totalBlocks := l.gx * l.gy * l.gz })
      ∧ (∀ s1, (n.kind = .launch ∨ n.kind = .selftest) → s.readLaunch n.slot n.body.toNat = (s1, none) → n.status = none →
          ∃ t, exec (.nodeStart nid) s = .next t ∧ (tget t.nodes nid).bind (·.status) = some .launcherr)
      ∧ (n.kind = .array → n.kp0 ≠ 0 → ∃ t, exec (.nodeStart nid) s = .next t ∧ t.mem = s.mem
          ∧ t.insts.length = s.insts.length + ((List.range 32).filter fun k => n.kp0.getLsbD k).length)
      ∧ (n.kind = .array → n.kp0 = 0 → n.status = none → s.wordMoves n = false →
          ∃ t, exec (.nodeStart nid) s = .next t ∧ (tget t.nodes nid).bind (·.status) = some .completed)
      ∧ (∀ engine s1 bs c, n.kind = .collective → s.freeEngine n.slot = some engine →
          s.readRecordBy (some (engineMaster engine)) n.slot .r n.body.toNat 64 1 = (s1, some bs) →
          collOf nid engine s1.choices bs = some c →
          ∃ t, exec (.nodeStart nid) s = .next t ∧ t.mem = s1.mem
            ∧ t.collectives = s1.collectives ++ [(s1.nextId, c.fill (s1.slotTime n.slot))]))

/-- R35, R325: BLOCK_PLACE for the first node in the scheduler's order that can have a block placed puts its next block where its
parts fit, and the node counts the block. -/
def Obligations.BlocksArePlaced : Prop :=
  ∀ (nid : Nat) (s : State) (n : Node) (l : Launch) (i : Nat) (xs : List (Nat × List Nat × Layout)), tget s.nodes nid = some n →
    n.launch = some l → s.nextIndex nid n = some i →
    ((s.schedOrder n.slot).find? fun x => (s.placeable x).isSome || (s.wantsBlock x.1 x.2 && (s.preemptFor x).isSome)).map (·.1)
      = some nid →
    s.returnFirst n = false → s.placeable (nid, n) = some xs →
    exec (.blockPlace nid) s = .next (s.putBlock nid n l i xs)
    ∧ ((tget (s.putBlock nid n l i xs).nodes nid).map (·.nextBlock)) = some (i + 1)
    ∧ ∃ b, (s.nextId, b) ∈ (s.putBlock nid n l i xs).blocks ∧ b.node = nid ∧ b.index = i ∧ b.resident = true

/-- R104, R120, R320, R325, R373, R416-R418: a started node whose work has ended becomes final with the status that its work earned, once
no migration would stall its completion word; a killed one whose work has stopped becomes ABANDONED. -/
def Obligations.NodesEnd : Prop :=
  ∀ (nid : Nat) (s : State) (n : Node), tget s.nodes nid = some n → n.status = none →
    (s.doomed n = false → n.started = true → n.killing = false → s.workOver nid n = true → s.wordMoves n = false →
      ∃ t, exec (.nodeComplete nid) s = .next t ∧ (tget t.nodes nid).bind (·.status) = some (s.finalStatus nid n))
    ∧ (n.killing = true → n.kind ≠ .group → tget ((s.sweep nid).sweepGroup nid).nodes nid = some n →
        ((s.sweep nid).sweepGroup nid).stopped nid n = true → ((s.sweep nid).sweepGroup nid).wordMoves n = false →
        ∃ t, exec (.workStopComplete nid) s = .next t ∧ (tget t.nodes nid).bind (·.status) = some .abandoned)

/-- R50, R55, R126, R231: a child whose time slice is over yields to its next sibling; a parked block is swapped out, and returns where
there is room; a group's deadline ends its running members. -/
def Obligations.SlicesSwapsAndDeadlines : Prop :=
  (∀ (nid p j : Nat) (s : State) (n m : Node), tget s.nodes nid = some n → n.parent = some p → n.status = none →
    s.running = some n.slot → n.eff.slice ≠ 0 → n.eff.slice ≤ n.used → p ≠ nid → tget s.nodes p = some m →
    s.yieldTo p nid n = some j →
    ∃ t, exec (.timeSliceExpiry nid) s = .next t ∧ tget t.nodes nid = some { n with used := 0 }
      ∧ tget t.nodes p = some { m with turn := j } ∧ t.mem = s.mem)
  ∧ (∀ (bid : Nat) (s : State) (b : Block), tget s.blocks bid = some b → s.parked bid b = true →
    ∃ t, exec (.parkedBlockSwap bid) s = .next t
      ∧ tget t.blocks bid = some { b with resident := false, out := s.gtime.toNat })
  ∧ (∀ (bid : Nat) (s : State) (b : Block) (n : Node) (xs : List (Nat × Layout)), tget s.blocks bid = some b →
    s.onTurn b.slot = true → b.resident = false → b.stopping = false → b.together = false → tget s.nodes b.node = some n →
    s.placeBack b n = some xs →
    ∃ t, exec (.swappedBlockReturn bid) s = .next t ∧ tget t.blocks bid = some { b with resident := true } ∧ t.mem = s.mem)
  ∧ ∀ (gid : Nat) (s : State) (g : Group) (c : Context) (t : Nat), tget s.groups gid = some g → g.deadline = some t → g.done = false →
    s.onTurn g.slot = true → s.ctxs[g.slot] = some c → t ≤ c.time → g.n = 1 → g.members = [(.running, 0)] →
    exec (.groupDeadline gid) s = .next (s.endMember gid 0 .timedOut)

/-- R104, R126, R328, R329, R331, R346, R422: from its target time on an armed gang switch takes place once the outgoing slot's
collectives are quiet and none of its accesses waits for a migration: the incoming slot runs, nothing is armed, no point stands above its ceiling, and the SWITCHED entry names both slots and the
target, and the effect of a command that came meanwhile follows; before, it does nothing. A switch not over in time is marked late. -/
def Obligations.GangSwitches : Prop :=
  ∀ (s : State) (a : Armed), s.armed = some a →
    (a.time ≤ s.gtime.toNat → (∀ o, s.running = some o → s.collsQuiet o a = true ∧ s.settled o = true) →
      (s.deferred = [] → ∃ t e, exec .gangSwitch s = .next t ∧ t.armed = none ∧ t.running = a.slot ∧ t.deferred = []
        ∧ (∀ d : Fin 8, (t.corePoints[d]).toNat ≤ (t.ceilings[d]).toNat) ∧ t.journal.head? = some e
        ∧ e.cmd = BitVec.ofNat 32 (0x80 + slotCode a.slot * 256 + slotCode s.running * 4096)
        ∧ e.result = (if a.late || a.time + 250000 < s.gtime.toNat then 6 else 0) ∧ e.arg = BitVec.ofNat 64 a.time)
      ∧ (∀ c ws, s.deferred = [⟨10, c, ws⟩] → (ws[2]).toNat < 65536 → ∃ t, exec .gangSwitch s = .next t ∧ t.deferred = []
        ∧ t.running = a.slot ∧ t.counterTable = some (BitVec.ofNat 64 ((ws[0]).toNat + 2 ^ 32 * (ws[1]).toNat))
        ∧ t.counterThreshold = BitVec.ofNat 16 (ws[2]).toNat))
    ∧ (∀ o, s.running = some o → (s.collsQuiet o a = false ∨ s.settled o = false) → exec .gangSwitch s = .next s)
    ∧ (s.gtime.toNat < a.time → exec .gangSwitch s = .next s)
    ∧ (a.late = false → a.time + 250000 < s.gtime.toNat → ∃ t, exec .switchOverrun s = .next t
        ∧ t.armed = some { a with late := true } ∧ t.mem = s.mem)

/-! ## Device steps: host commands, the endpoint and the mailbox -/

/-- R102, R287, R316, R323, R324: CREATE makes a context resident in a free slot, DESTROY empties a slot that neither runs nor is armed,
and QUIESCE sets or clears the slot's mark; each is answered with 0, or with the code of what is wrong and no other effect. -/
def Sys2Proof.Machine.ContextCommands : Prop :=
  ∀ (s : State) (c : HostCmd), Takes s c →
    (∀ k : Fin 8, c.slot.toNat = k.val →
      (∀ x, s.ctxs[k] = none → s.contextArgs c = some x →
        Answers (.create c) s c 1 0 0 { s with ctxs := s.ctxs.set k (some x) }
        ∧ x.key.toNat = s.argAt c 2 ∧ x.ptRoot = s.argPair c 0 ∧ x.save = s.argPair c 3 ∧ x.time = 0 ∧ x.quiesced = false)
      ∧ (s.ctxs[k] = none → s.contextArgs c = none → Answers (.create c) s c 1 3 0 s)
      ∧ (5 < s.argAt c 5 % 16 → s.contextArgs c = none)
      ∧ (s.ctxs[k] ≠ none → Answers (.create c) s c 1 2 0 s)
      ∧ (∀ x, s.ctxs[k] = some x → s.running ≠ some k → (∀ a, s.armed = some a → a.incoming ≠ k.val) →
          ∃ u, Answers (.destroy c) s c 2 0 0 u ∧ u.ctxs = s.ctxs.set k none ∧ (∀ y ∈ u.warps, y.2.slot ≠ k)
            ∧ (∀ y ∈ u.nodes, y.2.slot ≠ k) ∧ (∀ e ∈ u.cache, e.key ≠ x.key)
            ∧ ∀ y, y < fenceTable ∨ fenceTable + 24576 ≤ y →
              u.mem.get y = if slotWindow k.val y then State.reset.mem.get y else s.mem.get y)
      ∧ (s.ctxs[k] ≠ none → s.running = some k ∨ (∃ a, s.armed = some a ∧ a.incoming = k.val) →
          Answers (.destroy c) s c 2 4 0 s)
      ∧ (s.ctxs[k] = none → Answers (.destroy c) s c 2 2 0 s)
      ∧ (∀ x, s.ctxs[k] = some x →
          (s.argAt c 0 = 1 → Answers (.quiesce c) s c 3 0 0 { s with ctxs := s.ctxs.set k (some { x with quiesced := true }) })
          ∧ (s.argAt c 0 = 0 →
              Answers (.quiesceResume c) s c 3 0 0 { s with ctxs := s.ctxs.set k (some { x with quiesced := false }) })
          ∧ (2 ≤ s.argAt c 0 → Answers (if s.argAt c 0 % 2 = 1 then .quiesce c else .quiesceResume c) s c 3 3 0 s))
      ∧ (s.ctxs[k] = none → Answers (if s.argAt c 0 % 2 = 1 then .quiesce c else .quiesceResume c) s c 3 2 0 s))
    ∧ (8 ≤ c.slot.toNat → Answers (.create c) s c 1 2 0 s ∧ Answers (.destroy c) s c 2 2 0 s
        ∧ Answers (if s.argAt c 0 % 2 = 1 then .quiesce c else .quiesceResume c) s c 3 2 0 s)

/-- R103, R316, R319, R328: ARM arms one switch to a resident slot, or to none, at least 10 µs ahead; DISARM takes back an armed switch
before its time; QUERY gives the slots' summary; CONFIG sets the page counters' table and threshold; an unlisted code is BADCMD. -/
def Sys2Proof.Machine.ModuleCommands : Prop :=
  ∀ (s : State) (c : HostCmd), Takes s c →
    let t := s.argPair c 0
    let n := s.argAt c 2
    (8 < n → Answers (.arm c) s c 6 3 0 s)
    ∧ (n ≤ 8 → t < s.gtime.toNat + 10000 → Answers (.arm c) s c 6 6 0 s)
    ∧ (n ≤ 8 → s.gtime.toNat + 10000 ≤ t → s.armed ≠ none → Answers (.arm c) s c 6 4 0 s)
    ∧ (s.gtime.toNat + 10000 ≤ t → s.armed = none →
        (n = 8 → Answers (.arm c) s c 6 0 0 { s with armed := some ⟨t, 8, false⟩ })
        ∧ ∀ k : Fin 8, k.val = n →
          (s.ctxs[k] = none ∨ s.running = some k → Answers (.arm c) s c 6 2 0 s)
          ∧ (s.ctxs[k] ≠ none → s.running ≠ some k → Answers (.arm c) s c 6 0 0 { s with armed := some ⟨t, n, false⟩ }))
    ∧ (s.armed ≠ none → Answers (.disarm c) s c 7 0 0 { s with armed := none })
    ∧ (s.armed = none → Answers (.disarm c) s c 7 5 0 s)
    ∧ (s.argAt c 0 = 0 → Answers (.querySlots c) s c 8 0 s.slotSummary s)
    ∧ (2 ≤ s.argAt c 0 → Answers (.querySlots c) s c 8 3 0 s)
    ∧ (∀ k : Fin 8, s.slotSummary.testBit k.val = (s.ctxs[k]).isSome
        ∧ s.slotSummary.testBit (8 + k.val) = (s.ctxs[k]).elim false (·.quiesced))
    ∧ (n < 65536 → Answers (.config c) s c 10 0 0 { s with counterTable := some (BitVec.ofNat 64 t), counterThreshold := BitVec.ofNat 16 n })
    ∧ (65536 ≤ n → Answers (.config c) s c 10 3 0 s)
    ∧ (∀ op : BitVec 8, op = 0 ∨ 10 < op.toNat → Answers (.badcmd c op) s c op.toNat 1 0 s)

/-- R319, R321, R415-R417: SUBMIT of a tree that R321 accepts adds its nodes, and of any other is REJECTED; QUERY of a node gives its
summary; TEARDOWN of a node that is not final drains or kills its subtree; a node that is not there, or is final, is NOTFOUND. That a bad
mode is answered before a missing node is the model's reading, and so is that the journal holds the command word without its reserved
bits (log 49). -/
def Sys2Proof.Machine.TreeCommands : Prop :=
  ∀ (s : State) (c : HostCmd) (k : Fin 8) (x : Context), Takes s c → c.slot.toNat = k.val → s.ctxs[k] = some x →
    (∀ s1 xs, s.readTree k treeFuel [(s.argPair c 0, 0)] [] = (s1, some xs) →
      (s1.treeOk k xs = true → Answers (.submit c) s c 4 0 0 (s1.addTree k x.defaults xs))
      ∧ (s1.treeOk k xs = false → Answers (.submit c) s c 4 7 0 s1))
    ∧ (∀ s1, s.readTree k treeFuel [(s.argPair c 0, 0)] [] = (s1, none) → Answers (.submit c) s c 4 7 0 s1)
    ∧ (∀ n m, s.argAt c 0 = 1 → s.queryAt k (s.argPair c 2) = some (n, m) →
        Answers (.queryNode c) s c 8 0 (s.nodeSummary n m) s)
    ∧ (s.argAt c 0 = 1 → s.queryAt k (s.argPair c 2) = none → Answers (.queryNode c) s c 8 5 0 s)
    ∧ (∀ n m, s.nodeAt k (s.argPair c 0) = some (n, m) → m.status = none →
        let u := s.settleNodes n
        (s.argAt c 2 = 0 → Answers (.teardownDrain c) s c 5 0 (min (abandonedSince u (drainMode n u) n) 0xFFFFFF) (drainMode n u))
        ∧ (s.argAt c 2 = 1 → Answers (.teardownKill c) s c 5 0 (min (abandonedSince u (u.kill k n) n) 0xFFFFFF) (u.kill k n)))
    ∧ (s.nodeAt k (s.argPair c 0) = none ∨ (∃ n m, s.nodeAt k (s.argPair c 0) = some (n, m) ∧ m.status ≠ none) →
        (s.argAt c 2 = 0 → Answers (.teardownDrain c) s c 5 5 0 s) ∧ (s.argAt c 2 = 1 → Answers (.teardownKill c) s c 5 5 0 s))
    ∧ (2 ≤ s.argAt c 2 → Answers (if s.argAt c 2 % 2 = 1 then .teardownKill c else .teardownDrain c) s c 5 3 0 s)

/-- R102, R287, R318, R329: INVALIDATE with arguments in range makes its window busy and starts the purge; the purge ends once no access
uses an old translation and no switch is under way: no TLB holds an entry of the range, and the command's entry follows. -/
def Sys2Proof.Machine.PurgeCommands : Prop :=
  ∀ (s : State),
    (∀ c : HostCmd, Takes s c → s.argAt c 0 < 256 → s.argAt c 1 < 2 → ∃ t p, exec (.invalidate c) s = .next t ∧ t.purges = [p]
      ∧ p.key.toNat = s.argAt c 0 ∧ p.images = (s.argAt c 1 == 1) ∧ p.base = s.argPair c 2 ∧ p.len = s.argPair c 4
      ∧ ((t.windows[c.win])[15]).getLsbD 31 = true ∧ t = { s with windows := t.windows, purges := [p] })
    ∧ (∀ c : HostCmd, Takes s c → 256 ≤ s.argAt c 0 ∨ 2 ≤ s.argAt c 1 → Answers (.invalidate c) s c 9 3 0 s)
    ∧ ∀ p, s.purges = [p] →
      (s.switching = true ∨ s.usesOld p = true → exec .invalidateComplete s = .next s)
      ∧ (s.switching = false → s.usesOld p = false → ∃ t, exec .invalidateComplete s = .next t ∧ t.purges = []
          ∧ (∀ e ∈ t.tlb, p.hits e = false) ∧ (∀ e ∈ s.tlb, p.hits e = false → e ∈ t.tlb)
          ∧ ((t.windows[p.win])[15]).getLsbD 31 = false
          ∧ t.journal.head? = some ⟨s.nextSeq, s.gtime.toNat, p.word14, 0, 0, p.arg⟩)

/-- R122, R314, R315, R318, R329: a command that comes while the processor is held up, or behind another, waits with its window busy,
whatever it is; a window that is busy ignores it. The first one of the queue is taken once nothing holds the processor up, and a command
that is taken during a gang switch is answered, with its effect kept for the switch's end. -/
def Sys2Proof.Machine.CommandsWaitTheirTurn : Prop :=
  ∀ (s : State) (c : HostCmd), s.booted = true →
    (∀ i op, (i, op) ∈ [(Instr.create c, 1), (.destroy c, 2), (.submit c, 4), (.arm c, 6), (.disarm c, 7), (.invalidate c, 9),
        (.config c, 10)] → s.queue.head? ≠ some (c, op) →
      (s.busyWindow c.win = true → exec i s = .next s)
      ∧ (s.busyWindow c.win = false → s.held = true ∨ s.queue ≠ [] → ∃ t, exec i s = .next t ∧ t.queue = s.queue ++ [(c, op)]
          ∧ t.busyWindow c.win = true ∧ t = { s with windows := t.windows, queue := t.queue }))
    ∧ (∀ r, s.queue = (c, 10) :: r → s.held = true → exec (.config c) s = .next s)
    ∧ (∀ r, s.queue = (c, 10) :: r → s.held = false → s.argAt c 2 < 65536 →
        (s.switching = false → Answers (.config c) s c 10 0 0 { s with
          queue := r, counterTable := some (BitVec.ofNat 64 (s.argPair c 0)), counterThreshold := BitVec.ofNat 16 (s.argAt c 2) })
        ∧ (s.switching = true →
          Answers (.config c) s c 10 0 0 { s with queue := r, deferred := s.deferred ++ [⟨10, c, s.windows[c.win]⟩] }))

/-- The commands of the submission windows: contexts, the switch and the module, trees, and purges. The order of two failing checks of one
command, and the command word that the journal holds, are the model's readings where R316 and R415 leave them open (log 49). -/
def Obligations.HostCommandsAnswer : Prop :=
  ContextCommands ∧ ModuleCommands ∧ TreeCommands ∧ PurgeCommands ∧ CommandsWaitTheirTurn

/-- R8, R23, R122, R124, R314, R317, R333, R394: a BAR0 write reaches words 0 to 13 of an idle window, and WBASE where no write of the
host is stalled; a BAR2 read that the host may make answers the bytes, one that it may not answers Unsupported Request, and one of an
unavailable page Completer Abort; a BAR2 write to one populated page of a stack writes exactly its bytes, but for the doorbell's
read-only field, the fault records and the fence state table (R376, R438); a read outside every register answers Unsupported Request, and one of a register its value. -/
def Obligations.HostWindowsReachMemory : Prop :=
  ∀ s : State, s.booted = true →
    (∀ (w : Fin 16) (n : Fin 14) (v : Word), s.busyWindow w = false →
      exec (.registerWrite (64 * w.val + 4 * n.val) v) s =
        .next { s with windows := s.windows.set w ((s.windows[w]).setIfInBounds n.val v) })
    ∧ (∀ (w : Fin 16) (n : Fin 14) (v : Word), s.busyWindow w = true → exec (.registerWrite (64 * w.val + 4 * n.val) v) s = .next s)
    ∧ (∀ v, exec (.registerWrite 0x1014 v) s = .next (if s.hostStalled then s else { s with wbase := v.setWidth 20 }))
    ∧ (∀ off len, off + len ≤ 2 ^ 32 → (pagesOf (s.windowAddr off) (max len 1)).all (s.mayReach hostMaster .r) = true →
        s.migration = none →
        ((pagesOf (s.windowAddr off) (max len 1)).all isStack = true → Clean s → ∃ t, exec (.memoryWindowRead off len) s = .next t
          ∧ t.reply = .data (s.bytesAt (s.windowAddr off) len) false ∧ t.mem = s.mem ∧ t.warps = s.warps)
        ∧ (∀ p, pagesOf (s.windowAddr off) (max len 1) = [p] → s.physFails p = true →
          ∃ t, exec (.memoryWindowRead off len) s = .next t ∧ t.reply = .completerAbort ∧ t.warps = s.warps))
    ∧ (∀ off len, (2 ^ 32 < off + len ∨ (pagesOf (s.windowAddr off) (max len 1)).all (s.mayReach hostMaster .r) = false) →
        exec (.memoryWindowRead off len) s = .next { s with reply := .unsupported })
    ∧ (∀ off (bs : List Byte), bs ≠ [] → s.windowAddr off % 65536 + bs.length ≤ 65536 → off + bs.length ≤ 2 ^ 32 →
        s.mayReach hostMaster .w (s.windowAddr off) = true → isStack (s.windowAddr off) = true → s.migration = none →
        Clean s → (∃ t, exec (.memoryWindowWrite off bs) s = .next t
          ∧ t.mem = s.mem.write (s.windowAddr off) (s.keepResult (s.windowAddr off) bs) ∧ t.warps = s.warps)
        ∧ ∀ (i : Nat) b, bs[i]? = some b → (s.keepResult (s.windowAddr off) bs)[i]? =
            some (let a := s.windowAddr off + i
              if a = mgmtBase + 3 then (b &&& 0x80) ||| (s.mem.get (mgmtBase + 3) &&& 0x7F)
              else if (mgmtBase + 0x20000 ≤ a ∧ a < mgmtBase + 0x28000) ∨ (fenceTable ≤ a ∧ a < fenceTable + 24576) then s.mem.get a
              else b))
    ∧ (∀ off, exec (.unsupportedRequest off) s =
        .next (if off < 0x400 ∨ (0x1000 ≤ off ∧ off < 0x1018) then s else { s with reply := .unsupported }))
    ∧ (∀ (w : Fin 16) (n : Fin 16), s.registerRead (64 * w.val + 4 * n.val) =
        { s with reply := .data (leBytes 4 (if n = 14 then 0 else ((s.windows[w])[n]).toNat)) false })
    ∧ s.registerRead 0x1014 = { s with reply := .data (leBytes 4 s.wbase.toNat) false }

/-- R334, R335, R340, R341, R343-R346, R437: a mailbox request in the doorbell is handled by the event of its code, and its result posted;
a code that R334 does not list is BADARG; without a request the events do nothing. That POWER brings points above a new ceiling down at
once, unless a switch holds them, is the model's choice (log 46), and so is which buffers the management processor accepts (log 34). -/
def Obligations.MailboxRequestsAreAnswered : Prop :=
  ∀ s : State, s.mem.wf = true →
    let code := s.doorbell % 256
    let a := s.mailArg
    let bs := s.bytesAt (s.mailPair 0) (a 2)
    (s.requested = true →
      (6 < code → Posts .mailboxBadarg s 3 s)
      ∧ (code = 1 → bufferOk (s.mailPair 8) 32768 = false → Posts .attest s 3 s)
      ∧ (code = 1 → bufferOk (s.mailPair 8) 32768 = true → Posts .attest s 0
          (s.writeBuffer (s.mailPair 8)
            (let r := Config.attestReport (s.bytesAt (mgmtBase + 0x40) 32) Config.moduleNumber.val s.measure.toList
               (Config.factoryDigest :: s.fieldDigest.toList) s.gtime.toNat
             (r ++ Config.reportSignature r).take 32768)))
      ∧ (code = 2 → 72 < a 0 % 128 → Posts .access s 3 s)
      ∧ (code = 2 → a 0 % 128 ≤ 72 →
          (s.accessNew = none → exec .access s = .next { s with
            accessNew := some (a 0 % 128 * 65536 + a 1 % 65536, BitVec.ofNat 32 (a 2) &&& 0xFF0F) })
          ∧ ∀ k e, s.accessNew = some (k, e) →
            (s.outFor (k / 65536) (k % 65536) = true → exec .access s = .next s)
            ∧ (s.outFor (k / 65536) (k % 65536) = false →
              Posts .access s 0 { s with accessNew := none, access := tset s.access k e }))
      ∧ (code = 3 → a 0 < 3000 ∨ 12000 < a 0 ∨ 2 ^ 24 ≤ a 1 → Posts .power s 3 s)
      ∧ (code = 3 → 3000 ≤ a 0 → a 0 ≤ 12000 → a 1 < 2 ^ 24 → ∃ u, Posts .power s 0 u ∧ u.cap.toNat = a 0
          ∧ (∀ d : Fin 8, (u.ceilings[d]).toNat = a 1 / 2 ^ (3 * d.val) % 8
              ∧ (u.corePoints[d]).toNat =
                if s.switching then (s.corePoints[d]).toNat else min (s.corePoints[d]).toNat (u.ceilings[d]).toNat)
          ∧ u = { s with cap := u.cap, ceilings := u.ceilings, corePoints := u.corePoints })
      ∧ (code = 4 → bufferOk (s.mailPair 0) (a 2) = false → Posts .record s 3 s)
      ∧ (code = 4 → bufferOk (s.mailPair 0) (a 2) = true → Clean s →
          (Config.recordVerifies bs = false → Posts .record s 8 s)
          ∧ (Config.recordVerifies bs = true → s.recordAllowed bs = false → Posts .record s 7 s)
          ∧ (Config.recordVerifies bs = true → s.recordAllowed bs = true → Config.recordDrops bs = [] → Quiet s → NoAppeals s →
              Posts .record s 0 { s with floors := Config.recordFloors bs, fieldDigest := some (shake256 bs) })
          ∧ (∀ c : Fin 1536, Config.recordVerifies bs = true → s.recordAllowed bs = true → Config.recordDrops bs = [c] → c.val ∉ s.outOfMap →
              Posts .record s 0 (({ s.removeCore c.val with floors := Config.recordFloors bs, fieldDigest := some (shake256 bs) }).gateCheck)
              ∧ ((s.removeCore c.val).coreFence c.val).state = .removed ∧ c.val ∈ (s.removeCore c.val).outOfMap
              ∧ (s.removeCore c.val).mapEpoch = s.mapEpoch + 1))
      ∧ (code = 5 → bufferOk (s.mailPair 0) (8 * 25088) = true → a 2 % 2 = 0 →
          Posts .counters s 0 (s.writeBuffer (s.mailPair 0) s.counterBytes))
      ∧ (code = 5 → bufferOk (s.mailPair 0) (8 * 25088) = false → Posts .counters s 3 s)
      ∧ (code = 5 → bufferOk (s.mailPair 0) (8 * 25088) = true → a 2 % 2 = 1 → s.mailPair 3 + 4 * 25088 ≤ mgmtBase →
          let sel (n : Nat) : Nat := s.load (s.mailPair 3 + 4 * n) 4
          let ok (n : Nat) : Prop := sel n / 256 % 256 ≤ (if n < 24576 then 6 else 4) ∧ sel n / 16 % 16 ≤ 8
          ((∀ n, n < 25088 → ok n) → ∃ u : State, Posts .counters s 0 (u.writeBuffer (s.mailPair 0) u.counterBytes) ∧ u.counters = []
            ∧ (∀ n, n < 25088 → tget u.selects n = some (BitVec.ofNat 32 (sel n) &&& 0xFFF0))
            ∧ u = { s with selects := u.selects, counters := [] })
          ∧ ((∃ n, n < 25088 ∧ ¬ ok n) → Posts .counters s 3 s))
      ∧ (code = 6 → bufferOk (s.mailPair 0) 1024 = true → Posts .links s 0 (s.countRetries.writeBuffer (s.mailPair 0)
          ((Config.linksReport (s.countRetries.loam.toList.map fun p => (p.state, p.peer, p.retried))).take 1024)))
      ∧ (code = 6 → bufferOk (s.mailPair 0) 1024 = false → Posts .links s 3 s))
    ∧ (s.requested = false → ∀ i ∈ [Instr.attest, .access, .power, .record, .counters, .links, .mailboxBadarg],
        exec i s = .next s)

/-- R25, R324, R334, R342-R344, R437: module reset leaves no context, no node, no block and no warp, and clears the doorbell; it keeps
the DRAM of the stacks below the management area, global time, the logical core map and the records in force; the module is booted
exactly when all of its images verify with a security version that is not below its floor. -/
def Obligations.ModuleResetBoots : Prop :=
  ∀ s : State, ∃ t, exec .moduleReset s = .next t ∧ t.ctxs = Vector.replicate 8 none ∧ t.running = none ∧ t.nodes = []
    ∧ t.blocks = [] ∧ t.warps = [] ∧ t.copies = [] ∧ t.armed = none ∧ t.tlb = [] ∧ t.journal = [] ∧ t.gtime = s.gtime
    ∧ t.outOfMap = s.outOfMap ∧ t.floors = s.floors ∧ t.fieldDigest = s.fieldDigest
    ∧ (∀ a, a < mgmtBase → t.mem.get a = s.mem.get a) ∧ (s.mem.wf = true → t.doorbell = 0)
    ∧ (t.booted = true ↔ ∀ k : Fin 5,
        Config.imagesVerify (s.choices + k.val) = true ∧ s.floors[k] ≤ Config.imageVersion (s.choices + k.val))

/-! ## Device steps: peers, links, migration and power -/

/-- R123, R336, R339: a peer's request for an own stack below the management area that fits R336 and that the tables allow is
performed: a write writes its bytes, a read leaves memory, an atomic its new value; any other request has no effect. -/
def Sys2Proof.Machine.PeerRequests : Prop :=
  ∀ (s : State) (r : PeerReq),
    (s.booted = true → peerFits r = true → r.addr + r.size ≤ mgmtBase →
      (pagesOf r.addr r.size).all (s.mayReach (0x4000 + r.src.val) (peerNeed r.op)) = true → s.migration = none → Clean s →
      ∃ t, exec (.peerRequest r) s = .next t ∧ t.warps = s.warps ∧ match r.op with
        | .read => t.mem = s.mem
        | .write bs => t.mem = s.mem.write r.addr bs
        | .atom o y => t.mem = s.mem.write r.addr (leBytes r.size (atomNew o r.size (s.load r.addr r.size) y.toNat))
        | .cas x y => t.mem = if s.load r.addr r.size = x.toNat % 256 ^ r.size then s.mem.write r.addr (leBytes r.size y.toNat)
            else s.mem)
    ∧ (s.booted = false ∨ peerFits r = false ∨ mgmtBase < r.addr + r.size
        ∨ (pagesOf r.addr r.size).all (s.mayReach (0x4000 + r.src.val) (peerNeed r.op)) = false →
      exec (.peerRequest r) s = .next s)

/-- R394-R396: a timeout of an outstanding request to a peer marks that request as unanswered; one of a request to the capacity tier
marks every request that is out to its page, and makes the page unavailable; with nothing outstanding neither does anything. Which of
the outstanding requests times out is a free choice (log 47). -/
def Sys2Proof.Machine.Timeouts : Prop :=
  ∀ (s : State) (wid op : Nat),
    (∀ x, s.outstanding wid op (fun p => p.tier == 2) = some x →
      ∃ t, exec (.peerTimeout wid op) s = .next t ∧ t.mem = s.mem ∧ t.cxl = s.cxl
        ∧ (∀ a w, x = .acc a → tget s.warps wid = some w → tget t.warps wid = some { w with ops := w.ops.map fun o =>
            if o.id = op then { o with accs := o.accs.map fun b => if b = a then b.lose else b } else o })
        ∧ ∀ n p c, x = .unit n p → tget s.copies op = some c → tget t.copies op = some { c with lost := c.lost ++ [(n, p.tier)] })
    ∧ (s.outstanding wid op (fun p => p.tier == 2) = none → exec (.peerTimeout wid op) s = .next s)
    ∧ (∀ x q, s.outstanding wid op (fun p => p.tier == 1 && !(s.linkFails p).1) = some x → capPortOf x.place.pa = some q →
      ∃ t, exec (.cxlTimeout wid op) s = .next t
        ∧ t.warps = (({ s with choices := s.choices + 1 }).loseAll (onPage x.place.pa)).warps
        ∧ t.copies = (({ s with choices := s.choices + 1 }).loseAll (onPage x.place.pa)).copies
        ∧ if 256 ≤ (s.cxl[q]).pages.length then (t.cxl[q]).unavailable = true
          else (t.cxl[q]).pages = (s.cxl[q]).pages ++ [x.place.pa / 65536])
    ∧ (s.outstanding wid op (fun p => p.tier == 1 && !(s.linkFails p).1) = none → exec (.cxlTimeout wid op) s = .next s)

/-- R26, R335, R346, R394, R395: a CXL port that goes down is unavailable from then on, with one MEMERR entry of kind 6, and its
requests are unanswered; a Loam port changes its state and peer; an operating point changes within its ceiling while no switch holds it
off, a stack's downward only after the cores', where the order of clocks is log 55's. That the ceilings give way to 7 with the cap alert
is log 46's choice. -/
def Sys2Proof.Machine.LinksAndPoints : Prop :=
  ∀ s : State,
    (∀ q : Fin 8, (s.cxl[q]).down = false → (s.cxl[q]).unavailable = false → ∃ t e, exec (.cxlLinkDown q) s = .next t
      ∧ (t.cxl[q]).down = true ∧ t.journal.head? = some e ∧ e.cmd = 0x82 ∧ e.detail = 6 ∧ e.arg = BitVec.ofNat 64 q.val
      ∧ t.warps = (s.loseAll (onPort q)).warps ∧ t.copies = (s.loseAll (onPort q)).copies)
    ∧ (∀ q : Fin 8, (s.cxl[q]).down = true → exec (.cxlLinkDown q) s = .next s)
    ∧ (∀ p : Fin 24, exec (.loamLinkDown p) s =
        .next { s.loseAll (onLoam p) with loam := s.loam.set p { s.loam[p] with state := 0 } })
    ∧ (∀ (p : Fin 24) (m : Fin 16384),
        exec (.loamLinkUp p m) s = .next { s with loam := s.loam.set p { s.loam[p] with state := 2, peer := m } })
    ∧ (s.switching = false → ∀ (d : Fin 8) x,
        exec (.operatingPointChange (.die d x)) s = .next (if x ≤ s.ceilings[d] then { s with corePoints := s.corePoints.set d x } else s))
    ∧ (s.switching = false → ∀ (k : Fin 32) x, (s.stackPoints[k] < x → s.coresLowered = true) →
        exec (.operatingPointChange (.stack k x)) s = .next { s with stackPoints := s.stackPoints.set k x })
    ∧ (∀ (k : Fin 32) x, s.stackPoints[k] < x → s.coresLowered = false → exec (.operatingPointChange (.stack k x)) s = .next s)
    ∧ (s.switching = true → (∀ (d : Fin 8) x, exec (.operatingPointChange (.die d x)) s = .next s)
        ∧ ∀ (k : Fin 32) x, exec (.operatingPointChange (.stack k x)) s = .next s)
    ∧ ((∀ d : Fin 8, s.corePoints[d] = s.ceilings[d]) → exec (.operatingPointChange .capAlert) s =
        .next { s with msix := s.msix ++ [3], ceilings := Vector.replicate 8 7 })

/-- R104, R397: a migration moves its page block by block, each block to the same offset of the new page, and ends with the leaf at
the new address and mig clear. -/
def Sys2Proof.Machine.Migrations : Prop :=
  ∀ (s : State) (m : Migration), s.migration = some m → s.usesOld m.purge (fun a => !a.place.mig) = false →
    (m.next * 512 < levelSize m.level → Clean s →
      let src := m.old + 512 * m.next
      let dst := m.new + 512 * m.next
      s.mayReach migrationMaster .r src = true → s.mayReach migrationMaster .w dst = true → isStack src = true → isStack dst = true →
      ∃ t, exec (.migration m.slot m.va m.new) s = .next t ∧ t.migration = some { m with next := m.next + 1 }
        ∧ t.mem = s.mem.write dst (s.mem.read src 512))
    ∧ (levelSize m.level ≤ m.next * 512 → m.stalled = [] → m.entry + 8 ≤ physTop → Clean s →
        ∃ t, exec (.migration m.slot m.va m.new) s = .next t ∧ t.migration = none
          ∧ t.mem = s.mem.write m.entry (leBytes 8 (remapped (BitVec.ofNat 64 (s.load m.entry 8)) m.new).toNat)
          ∧ (remapped (BitVec.ofNat 64 (s.load m.entry 8)) m.new).getLsbD 7 = false)

/-- Peers, timeouts, ports and operating points, and migration; with the choices of logs 35, 46, 47 and 55. -/
def Obligations.OutsideEventsArrive : Prop := PeerRequests ∧ Timeouts ∧ LinksAndPoints ∧ Migrations

/-! ## Device steps: arrays -/

/-- R280, R286, R287, R309: the oldest queued instance of an array is placed in the lowest free run of slabs once its image is accepted;
an image that is not accepted leaves it faulted with cause 0x01. -/
def Sys2Proof.Machine.InstancesStart : Prop :=
  ∀ (s : State) (n : Nat) (i : Inst) (s1 : State) (bs : List Byte), tget s.insts n = some i → s.onTurn i.slot = true →
    s.firstQueued i.slot i.stack = some n → (∀ x, tget s.nodes i.node = some x → s.barred i.node x = false) →
    s.imageBytes i = (s1, some bs) →
    (imageOf bs i.param = none → ∃ t, exec (.decoftInstanceStart n) s = .next t ∧ t.mem = s1.mem
      ∧ tget t.insts n = some { i with faulted := true, cause := 0x01 })
    ∧ ∀ m b, imageOf bs i.param = some m → s1.freeRun i.slot i.stack m.slabs = some b → s1.slabsAllowed i.node m.slabs = true →
      (m.claims.any fun x => s1.bankTaken i.slot i.stack (8 * b + x)) = false →
      ∃ t j, exec (.decoftInstanceStart n) s = .next t ∧ tget t.insts n = some j ∧ j.state = .running ∧ j.img = some m ∧ j.base = b
        ∧ t.mem = s1.mem

/-- R104, R290, R406, R410: an instance that is complete, aborted or stuck with a fault ends with its status, once no migration would
stall its completion record or its barrier word; its banks go back, and it keeps the cause of a fault. That its clocks count the one in
which it ends is log 31's choice, and that an abort after a fault gives status 1 is log 48's. -/
def Sys2Proof.Machine.InstancesEnd : Prop :=
  (∀ (s : State) (n : Nat) (i : Inst) (st : Nat), tget s.insts n = some i → s.onTurn i.slot = true →
    s.pageMoves i.slot (i.param.toNat + 64 * i.stack) 64 = false → s.pageMoves i.slot i.barrier.toNat 8 = false → i.ending = some st →
    ∃ t j, exec (.instanceComplete n) s = .next t ∧ tget t.insts n = some j ∧ j.state = .ended ∧ j.aborted = i.aborted
      ∧ j.faulted = (st == 2) ∧ j.cause = (if st = 2 then i.cause else 0) ∧ j.banksHeld = [] ∧ j.units = []
      ∧ (i.state = .running → j.clocks = i.clocks + s.ranFor i + 1))
  ∧ ∀ i : Inst, (i.state = .running → i.aborted = true → i.ending = some 1)
    ∧ (i.state = .running → i.aborted = false → i.faulted = false → i.complete = true → i.ending = some 0)
    ∧ (i.state = .running → i.aborted = false → i.faulted = false → i.complete = false → i.ending = none)
    ∧ (i.state = .running → i.aborted = false → i.faulted = true → i.stuck = true → i.ending = some 2)

/-- R267, R268, R296-R298, R401: FU_FIRE gives a unit its turn; an element-wise entry whose inputs all hold data, whose outputs accept
and whose checks find nothing consumes them and sends, on every output, one token of the element results, which carries each of them.
A damaged token at an input starts a replay instead. -/
def Sys2Proof.Machine.UnitsFire : Prop :=
  (∀ (s : State) (n u : Nat) (i : Inst), tget s.insts n = some i → s.runs i = true →
    exec (.fuFire n u) s = .next ((s.withReplay n i (i.fuTurn u).1).passed n u i (i.fuTurn u).2))
  ∧ (∀ (i : Inst) (u : Nat) (x : Firing) (hs : List (Nat × Token)), i.live u = true → i.inputError u = none →
    (i.answer u).absorb u = i → i.firing u = some x → i.finished u x.st = false → tget i.bankWork u = none → x.st.branch = false →
    x.e.bk ≠ 2 → x.e.op < 0x1A → i.accepts u x.e.outs = true → x.st.upset = false →
    x.heads x.e.pins = some hs → hs ≠ [] → (∀ h ∈ hs, h.2.kind = 0) →
    let r := (List.range (fillOf hs)).map fun k =>
      fuElem x.e (x.src x.e.ew hs x.e.sa k) (x.src x.e.ew hs x.e.sb k) (x.src x.e.ew hs x.e.sc k)
    i.fuTurn u = (x.after ((i.consumeAll u x.e.pins).sendAll u x.e.outs (dataToken x.e.ew (r.map (·.1))))
      (some (if ownControl x.e.op then (if r.any (·.2) then 1 else 0) else 1)), none))
  ∧ (∀ (i : Inst) (u : Nat), i.live u = false → i.fuTurn u = (i, none))
  ∧ (∀ (i : Inst) (u : Nat) (c : BitVec 8), i.live u = true → i.inputError u = some c → i.fuTurn u = (i.replayAll u c, none))
  ∧ (∀ (i : Inst) (u : Nat) (x : Firing), i.live u = true → i.inputError u = none → (i.answer u).absorb u = i → i.firing u = some x →
    x.st.branch = false → x.e.bk ≠ 2 → i.accepts u x.e.outs = false → i.fuTurn u = (i, none))
  ∧ ∀ (w : Nat) (xs : List Nat) (r : BitVec 6), w ≤ 2 → xs.length ≤ elCount w →
    (dataToken w xs).valid w = xs.map (· % 2 ^ elBits w) ∧ ({ dataToken w xs with route := r } : Token).error r = none

/-- R268, R271, R401, R402, R405: the oldest token in transit on a channel, where its residues and route are good, reaches its receiver:
a data token the copy whose turn it is, any other token every copy, each behind what it holds, but for one that it has consumed before a
replay. A bad one starts a replay, or faults the region. -/
def Sys2Proof.Machine.TokensArrive : Prop :=
  (∀ (s : State) (n k : Nat) (i : Inst) (r : Route) (t : Token) (ts : List Token), tget s.insts n = some i → s.runs i = true →
    i.routeAt k = some r → (i.chan k).transit = t :: ts → (i.live r.su = true ∨ i.live r.du = true) →
    (t.error r.rid = none → ∃ u j, exec (.tokenTransit n k) s = .next u ∧ tget u.insts n = some j
      ∧ j.chan k = ({ i.chan k with transit := ts } : Chan).arrive t ∧ u.mem = s.mem)
    ∧ ∀ c, t.error r.rid = some c → exec (.tokenTransit n k) s = .next (s.withReplay n i (i.replayAll r.du c)))
  ∧ ∀ (c : Chan) (t : Token) (j : Nat), j < c.ins.length →
    (c.arrive t).intake j = (if t.kind ≠ 0 ∨ j = c.deal then
      (if (c.intake j).skip = 0 then { c.intake j with queue := (c.intake j).queue ++ [t] }
        else { c.intake j with skip := (c.intake j).skip - 1 }) else c.intake j)
    ∧ (t.kind = 0 → (c.arrive t).deal = (c.deal + 1) % c.ins.length) ∧ (t.kind = 1 → (c.arrive t).deal = 0)

/-- R279, R304, R409: a bank tile serves the oldest request of the unit whose turn it is, and the units take turns: a read leaves the
tile, any other request writes its one word. -/
def Sys2Proof.Machine.BanksServe : Prop :=
  (∀ (s : State) (n bank u tile : Nat) (i : Inst) (q : BankReq), tget s.insts n = some i →
    s.placed i = true → i.bankTurn bank = some u → ((i.bankQueue u).find? fun q => q.bank == bank) = some q →
    (i.banksHeld.find? fun b => b.1 == bank) = some (bank, tile) → tile < 64 → q.word < 2 ^ 15 → Clean s →
    let a := bankLoc i.slot.val i.stack tile (q.word * 4)
    let old := BitVec.ofNat 32 (s.load a 4)
    ∃ t, exec (.bankAccess n bank) s = .next t ∧ tget t.insts n = some (i.served u bank old)
      ∧ t.mem = if q.op = .read then s.mem else s.mem.write a (leBytes 4 (q.result old).toNat))
  ∧ ∀ (i : Inst) (bank u v : Nat), (i.asking bank = [u] → i.bankTurn bank = some u)
    ∧ (i.asking bank = [u, v] → u < v → (tget i.bankLast bank = some u → i.bankTurn bank = some v)
      ∧ (tget i.bankLast bank = some v → i.bankTurn bank = some u))

/-- R272-R275, R278, R403: an affine read port issues its next run of elements; an affine write port writes the next run of the elements
that it holds; a returned read leaves the elements that do not fill a token; a scatter-add applies its batch at its end marker. -/
def Sys2Proof.Machine.PortsAct : Prop :=
  ∀ (s : State) (n port : Nat) (i : Inst) (a : Apr) (st : PortSt), PortActs s n port i a st →
    let x : Port := ⟨n, 512 + port, i, a, st⟩
    (∀ s1 p, a.mode = 0 → a.wr = false → st.ended = false → st.iter < iterations a.counts → (x.addrAt st.iter).toNat % a.size = 0 →
      i.generatorHeld (512 + port) = false → s.portPlace i .r (x.addrAt st.iter) = (s1, .ok p) → Clean s1 →
      let k := max 1 (x.runAt st.iter)
      ∃ t j, exec (.streamPortAccess n port) s = .next t ∧ tget t.insts n = some j ∧ t.mem = s1.mem
        ∧ tget j.ports (512 + port) = some { st with
            items := st.items ++ .read p.loc k a.size none :: x.marksAt (st.iter + k), iter := st.iter + k })
    ∧ (∀ s1 p, a.mode = 0 → a.wr = true → st.buf ≠ [] → st.iter < iterations a.counts →
      (st.iter = 0 ∨ st.iter = st.marked ∨ levelsDone a.counts st.iter = 0) → (x.addrAt st.iter).toNat % a.size = 0 →
      s.portPlace i .w (x.addrAt st.iter) = (s1, .ok p) → p.mig = false → p.loc + 64 ≤ physTop →
      Clean s1 →
      let k := min st.buf.length (max 1 (x.runAt st.iter))
      ((st.buf.take k).flatMap (leBytes a.size)).length ≤ 64 →
      ∃ t j, exec (.streamPortAccess n port) s = .next t ∧ tget t.insts n = some j
        ∧ t.mem = s1.mem.write p.loc ((st.buf.take k).flatMap (leBytes a.size))
        ∧ tget j.ports (512 + port) = some { st with buf := st.buf.drop k, iter := st.iter + k })
    ∧ (∀ us adr k z, a.mode = 0 → a.wr = false → tget i.units (512 + port) = some us → us.select = none →
      st.items = [.read adr k z none] → 0 < z → Clean s →
      let els := st.buf ++ unpackN z k (s.bytesAt adr (k * z))
      els.length < 2 * elCount x.width → i.accepts (512 + port) [0] = true →
      ∃ t j, exec (.streamDataReturn n port) s = .next t ∧ tget t.insts n = some j ∧ t.mem = s.mem
        ∧ tget j.ports (512 + port) = some { st with items := [], buf := els.drop (els.length / elCount x.width * elCount x.width) })
    ∧ ∀ t0 t1 : Token, a.mode = 4 → i.head (512 + port) 0 = some t0 → i.head (512 + port) 1 = some t1 → t0.kind = 1 → t1.kind = 1 →
      (t0.lev ≠ t1.lev → ∃ t j, exec (.scatterAddBatch n port) s = .next t ∧ tget t.insts n = some j ∧ j.faulted = true)
      ∧ (t0.lev = t1.lev → t0.lev.getLsbD 0 = true → x.heldUp t0.lev = false → ∃ s0 : State, tget s0.insts n = some i ∧ s0.mem = s.mem
        ∧ exec (.scatterAddBatch n port) s = .next (x.batch s0 t0.lev))
      ∧ (t0.lev = t1.lev → t0.lev.getLsbD 0 = false → x.heldUp t0.lev = false → ∃ t, exec (.scatterAddBatch n port) s = .next t
        ∧ t.mem = s.mem)

/-- The arrays' instances, units, channels, bank tiles and stream ports; an instance's clocks and the status of an abort after a fault are
the choices of logs 31 and 48. -/
def Obligations.ArraysRun : Prop := InstancesStart ∧ InstancesEnd ∧ UnitsFire ∧ TokensArrive ∧ BanksServe ∧ PortsAct

/-! ## Device steps: collectives and fencing -/

/-- R330, R331, R336, R422, R423: an acknowledged chunk leaves the ones in flight, and the next are issued, never more than 64 at a time;
a refused or lost one waits, and is sent again 16 µs later; over a failed link there is no answer; after 4 ms the collective gives up; a
chunk that arrives for the running context is written, and any other is not. That what is left of this module's own part of a chunk is
moved when it is acknowledged, and that a chunk of which a unit has been written is refused no more, are the model's choices (log 29);
that a unit of an arriving chunk waits for the end of a migration as a store does is log 23's. -/
def Obligations.CollectivesMoveChunks : Prop :=
  (∀ (s : State) (nid k : Nat) (r : Fin 8) (c : Collective) (x : Chunk), s.collOn nid = some (r, c) →
    let now := s.slotTime r
    ((c.inflight.find? fun y => y.num == k) = some x →
      (∀ s1, s.ranksUp r c (c.partners k) = (s1, false) → ∀ b, exec (.collectiveChunkAck nid k b) s = .next s1)
      ∧ (∀ s1, s.ranksUp r c (c.partners k) = (s1, true) →
        (c.begun k = false → exec (.collectiveChunkAck nid k true) s = .next (s1.modColl nid fun y => { y with
          inflight := c.inflight.filter fun z => z.num != k
          unacked := if y.givenUp then [] else y.unacked ++ [{ x with last := now }] }))
        ∧ (c.begun k = true → exec (.collectiveChunkAck nid k true) s = .next s1)
        ∧ (∀ s2, s1.localChunk r c k = (s2, true) → exec (.collectiveChunkAck nid k false) s =
          .next (s2.modColl nid fun y => s2.fillColl now { y with inflight := c.inflight.filter fun z => z.num != k }))
        ∧ (∀ s2, s1.localChunk r c k = (s2, false) → exec (.collectiveChunkAck nid k false) s = .next s2)
        ∧ (c.toRead k = [] → (c.chunkAt k).1 ≠ c.rank → s1.localChunk r c k = (s1, true)))
      ∧ (c.op.toNat < 2 → (c.chunkAt k).1 = c.rank → s.ranksUp r c (c.partners k) = (s, true))
      ∧ (now < x.last + 16000 → exec (.chunkResend nid k) s = .next s)
      ∧ (x.last + 16000 ≤ now → exec (.chunkResend nid k) s = .next (s.modColl nid fun y => { y with
          inflight := y.inflight.filter fun z => z.num != k
          unacked := if y.givenUp then [] else y.unacked ++ [{ x with last := now }] })))
    ∧ ((c.inflight.find? fun y => y.num == k) = none → (c.unacked.find? fun y => y.num == k) = some x → x.last + 16000 ≤ now →
        c.givenUp = false → c.inflight.length < 64 → s.switching = false → exec (.chunkResend nid k) s =
          .next (s.modColl nid fun y => { y with
            unacked := y.unacked.filter fun z => z.num != k, inflight := y.inflight ++ [{ x with last := now }] }))
    ∧ (((c.unacked ++ c.again ++ c.inflight).find? fun y => y.num == k) = some x → x.first + 4000000 ≤ now →
        exec (.collectiveGiveUp nid k) s = .next (s.modColl nid fun y => { y with givenUp := true, unacked := [], again := [] })))
  ∧ (∀ (c : Collective) (now : Nat), c.inflight.length ≤ 64 → (c.fill now).inflight.length ≤ 64 ∧ (c.fill now).next ≤ max c.next c.total)
  ∧ ∀ (s : State) (key : BitVec 8) (src : Fin 16384) (addr : Nat) (data : List Byte) (r : Fin 8) (c : Context),
    s.running = some r → s.ctxs[r] = some c →
    (c.key ≠ key ∨ s.switching = true → exec (.collectiveChunkReceive key src addr data) s = .next s)
    ∧ ∀ s1 p, c.key = key → s.switching = false → data ≠ [] → data.length ≤ 8 - addr % 8 →
      s.translate r (16384 + src.val) 0 .w (BitVec.ofNat 64 addr) = (s1, .ok p) →
      (∀ y s2, p.mig = false → s1.ioWrite p data = (y, s2) → exec (.collectiveChunkReceive key src addr data) s = .next s2)
      ∧ (p.mig = true → p.tier ≤ 1 →
        exec (.collectiveChunkReceive key src addr data) s = .next (s1.stallWrite (.peer src.val) p data))

/-- R427-R429, R446: a live core's beat that is due carries the next sequence number, is well formed, and is on its way to every neighbour; a
well-formed beat that arrives is accepted, a malformed one sets a babble vote for 16 periods, a third span without one a silence vote (of a core
that may hold votes), and each period takes one from a vote. -/
def Sys2Proof.Machine.HeartbeatsAreWatched : Prop :=
  ∀ (s : State) (c : Fin 1536),
    (s.isLive c = true → (s.coreFence c).beatAt + 4096 ≤ s.clkOf c → ∃ t, exec (.heartbeatSend c) s = .next t
      ∧ t.coreFence c = { s.coreFence c with seq := (s.coreFence c).seq + 1, issuedSince := 0, beatAt := s.clkOf c }
      ∧ (∀ d x, neighbour c d = some x →
          (t.coreFence x).inbox[dirIx (dirFlip d)] = (s.coreFence x).inbox[dirIx (dirFlip d)] ++ [s.beatOf c])
      ∧ t.warps = s.warps ∧ t.gtime = s.gtime)
    ∧ (∀ q, (q = none ∨ q = some ((s.coreFence c).seq - 1)) → beatOk (s.beatOf c) c q = true)
    ∧ (s.isLive c = false → exec (.heartbeatSend c) s = .next s)
    ∧ (∀ d x (p : BitVec 128), neighbour c d = some x → s.mayArrive c d x p = false → exec (.heartbeatReceive c d p) s = .next s)
    ∧ (∀ d x (p : BitVec 128), neighbour c d = some x → s.isLive c = true → s.unjudged x = false → (s.coreFence x).state = .inService →
      s.mayArrive c d x p = true →
      let w := watchOf s c d
      let early := w.lastClk.elim false fun t => s.clkOf c < t + 1024
      (beatOk p x w.lastSeq = true → early = false → Quiet ((s.arrived c d p).modFence c fun g => { g with
          watch := g.watch.set (dirIx d) (Watch.accept p (s.clkOf c) false w) }) →
        ∃ t, exec (.heartbeatReceive c d p) s = .next t ∧ (watchOf t c d).miss = 0
          ∧ (watchOf t c d).lastSeq = some (p.extractLsb' 32 16) ∧ (watchOf t c d).digest = p.extractLsb' 64 64
          ∧ (watchOf t c d).vote = w.vote)
      ∧ ((beatOk p x w.lastSeq = false ∨ early = true) → (s.coreFence c).mayVote = true →
          Quiet ((s.arrived c d p).modFence c fun g => { g with
            watch := g.watch.set (dirIx d) ((Watch.babbled (beatOk p x w.lastSeq) p (s.clkOf c) w).accuse .babble) }) →
          ∃ t, exec (.heartbeatReceive c d p) s = .next t ∧ (watchOf t c d).vote = .babble ∧ (watchOf t c d).left = 16
            ∧ (watchOf t c d).miss = if beatOk p x w.lastSeq then 0 else w.miss))
    ∧ (∀ d x, neighbour c d = some x → s.isLive c = true → (s.coreFence x).holder = none → (s.coreFence c).mayVote = true →
      let w := watchOf s c d
      w.since + 4096 * (w.miss + 1) ≤ s.clkOf c → w.vote = .none →
      Quiet (s.modFence c fun g => { g with watch := g.watch.set (dirIx d) (Watch.missed true w) }) →
      ∃ t, exec (.heartbeatMiss c d) s = .next t ∧ (watchOf t c d).miss = w.miss + 1
        ∧ (watchOf t c d).vote = (if 3 ≤ w.miss + 1 then .silent else .none))
    ∧ (s.isLive c = true → (s.coreFence c).periodAt + 4096 ≤ s.clkOf c → Quiet s → NoAppeals s → Quiet (s.modFence c fun g => { g with
          periodAt := s.clkOf c, appealLeft := g.appealLeft - 1, watch := Vector.ofFn fun i => (g.watch[i]).period }) →
        ∃ t, exec (.votePeriod c) s = .next t ∧ ∀ d,
          ((watchOf s c d).vote ≠ .none → 2 ≤ (watchOf s c d).left → (watchOf t c d).left = (watchOf s c d).left - 1
            ∧ (watchOf t c d).vote = (watchOf s c d).vote)
          ∧ ((watchOf s c d).left ≤ 1 → (watchOf t c d).vote = .none))

/-- R430-R432, R436-R438: fencing takes a core in service out of service and heads the journal with an entry of kind 1; its router may
be reset; an appeal that runs out is fenced again with kind 4; a core that cannot be fenced by vote is reported with kind 6 and an
alert, and then removed. -/
def Sys2Proof.Machine.CoresAreFenced : Prop :=
  ∀ (s : State) (c : Fin 1536),
    ((s.coreFence c).state = .inService → s.recentFences (s.coreFence c) < 2 →
      ((s.fenceCore c).coreFence c).state = .fenced
      ∧ ∃ e, (s.fenceCore c).journal.head? = some e ∧ e.cmd = 0x83 ∧ e.detail = BitVec.ofNat 24 (65536 + c.val))
    ∧ (s.isLive c = false → (s.coreFence c).routerOff = false → ∃ t, exec (.routerReset c) s = .next t
        ∧ t.coreFence c = { s.coreFence c with routerOff := true })
    ∧ (s.isLive c = true → exec (.routerReset c) s = .next s)
    ∧ ((s.coreFence c).state = .appealing → (s.coreFence c).appealLeft = 0 → Quiet (s.fenceCore c) → NoAppeals (s.fenceCore c) →
        ∃ t e, exec (.appealTimeout c) s = .next t
        ∧ (t.coreFence c).state = .fenced ∧ t.journal.head? = some e ∧ e.cmd = 0x83 ∧ e.detail = BitVec.ofNat 24 (4 * 65536 + c.val))
    ∧ (∀ x r, ((s.voters c).filter fun y => 16 ≤ (watchOf s y.2 (dirFlip y.1)).soleFor) = x :: r → (s.coreFence c).state = .inService →
        (s.liveNeighbours c).length < 2 →
        ((watchOf s x.2 (dirFlip x.1)).soleFor < 1000 → ∃ t e, exec (.solitarySuspect c) s = .next t ∧ t.journal.head? = some e
          ∧ e.cmd = 0x83 ∧ e.detail = BitVec.ofNat 24 (6 * 65536 + c.val) ∧ t.msix = s.msix ++ [0, 3])
        ∧ (1000 ≤ (watchOf s x.2 (dirFlip x.1)).soleFor → Quiet (s.removeCore c) → ∃ t, exec (.solitarySuspect c) s = .next t
          ∧ (t.coreFence c).state = .removed ∧ c.val ∈ t.outOfMap ∧ t.mapEpoch = s.mapEpoch + 1))
    ∧ (Quiet s → s.gateCheck = s.readmits)

/-- The heartbeats of the cores, their votes and their fencing. Which packets may arrive, besides those sent, is log 28's choice, and
that the removal of a core which cannot be fenced by vote is a second SOLITARY_SUSPECT step is log 44's. -/
def Obligations.CoresWatchEachOther : Prop := HeartbeatsAreWatched ∧ CoresAreFenced

/-! ## The machine as a whole -/

/-- R133, R371, R378: where the words at the program counter of the stream whose turn it is decode to an instruction, no register of
it is held by an outstanding operation and no error is due, the step is `exec` of that instruction in the state that the fetches
leave; a device's turn is `exec` of that device step. What a fetch reads are the bytes of memory at the translated address. -/
def Obligations.StepRunsTheDecodedInstruction : Prop :=
  (∀ (s : State) (wid : Nat) (w : Warp) (slice : Bool) (r : List Turn) (pc : DWord) (w0 e k : Word) (s2 s3 : State) (i : Instr) (n : Nat),
    s.agenda = (if slice then .slice wid else .issue wid) :: r → tget s.warps wid = some w → StandsAt s w slice pc →
    let t : State := { s with agenda := r, agent := if slice then .slice wid else .warp wid }
    FetchesWords t w pc w0 e k s2 s3 → heldBy wid w slice w0 e = false → dueOf w slice w0 e = none →
    decode (wordsInRow w0 e k) = .ok (i, n) → step s = exec i s3)
  ∧ (∀ (s : State) (i : Instr) (r : List Turn), s.agenda = .device i :: r → i.isDevice = true → step s = exec i { s with agenda := r })
  ∧ (∀ (s : State) (w : Warp) (va : DWord) (s1 : State) (p : Place),
    s.translate w.slot (s.coreOf w) (dieOfCore (s.coreOf w)) .x va = (s1, .ok p) → p.tier = 0 → p.ce = false → Clean s1 →
    ∃ s2, s.fetchWord w va = (.ok (BitVec.ofNat 32 (leNat (s1.bytesAt p.loc 4))), s2) ∧ s2.mem = s1.mem ∧ s2.warps = s1.warps)

/-- R25, R324, R329, R430, R436: a tick moves global time on, and the context time of the running slot alone, up to the target time of an
armed switch, once the gates have decided; where no gate has a majority and no core appeals, memory and warps stay. -/
def Obligations.TicksMoveTime : Prop :=
  ∀ (s : State) (ns : Nat) (r : List Turn), s.agenda = .tick ns :: r → ∃ t, step s = .next t
    ∧ t.gtime = s.gtime + BitVec.ofNat 64 ns
    ∧ (Quiet s → NoAppeals s → t.mem = s.mem ∧ t.warps = s.warps ∧ t.journal = s.journal
      ∧ ∀ k : Fin 8, t.ctxs[k] = if s.running = some k then (s.ctxs[k]).map fun c =>
          { c with time := c.time + (match s.armed with
            | none => ns
            | some a => min ns (a.time - s.gtime.toNat)) } else s.ctxs[k])

/-- R134, R146, R147, R247: words written out bit by bit from the encoding tables decode to the instructions that they stand for. -/
def Obligations.WrittenWordsDecode : Prop :=
  decode [0x30604103] = .ok (.fadd ⟨3, .v 1, .v 2, .v 3, 0⟩, 1)
  ∧ decode [0x3000417F, 0x3FC00000] = .ok (.fadd ⟨0, .v 1, .v 2, .lit, 0x3FC00000⟩, 2)
  ∧ decode [0x20088286] = .ok (.icmp 0 2 .lt (.v 5) (.v 6) 0, 1)
  ∧ decode [0x50020229] = .ok (.ld ⟨0, .v 8, .v 4, .w, .g, true, 0⟩, 1)
  ∧ decode [0x800C4140] = .ok (.sadd ⟨.s 3, .s 4, .s 5, 0⟩, 1)
  ∧ decode [0x04024103, 0x08000000] = .ok (.imad ⟨0, .v 9, .v 2, .v 3, .v 4, 0⟩, 2)
  ∧ decode [0xE1005003] = .ok (.trap (.s 5) 3 0, 1)
  ∧ decode [0xE2000000] = .ok (.eret, 1)
  ∧ decode [0x0A000000] = .ok (.unassignedOpcode 0x0A000000, 1)
  ∧ decode [0x90100000] = .error .reservedBits

/-- R133, R140-R147: decoding the words of a well-formed instruction gives the instruction back, with the number of its words, whatever
words follow. -/
def Obligations.DecodeUndoesEncode : Prop :=
  ∀ (i : Instr) (r : List Word), i.isDevice = false → WellFormed i → decode (encode i ++ r) = .ok (i, (encode i).length)

/-- R133, R134: what the decoder accepts is a well-formed instruction, and its encoding keeps every bit of the first word, of the
extension word, and of a literal word that the instruction can use. -/
def Obligations.EncodeUndoesDecode : Prop :=
  ∀ (ws : List Word) (i : Instr) (n : Nat), decode ws = .ok (i, n) →
    WellFormed i ∧ i.isDevice = false ∧ n = (encode i).length ∧ n ≤ ws.length ∧ (encode i).head? = ws.head?
    ∧ (hasExt ((firstWord i).toNat / 0x1000000) = true → (encode i)[1]? = ws[1]?)
    ∧ (i.lit ≠ 0 → (encode i)[n - 1]? = ws[n - 1]?)

/-- R58: the edge results of integer division, remainder, `iabs` and shifts, in lanes and in uniform registers; none raises a trap or
a flag. No instruction divides register pairs. -/
def Obligations.IntegerEdgeResults : Prop :=
  (∀ (i : Instr) (s : State) (c : Ctx) (n : Fin 120) (l : Lane), c.act.getLsbD l.val = true → ready i s = some c →
    let gives (r : Word) : Prop :=
      ∃ t v, exec i s = .next t ∧ tget t.warps c.wid = some v ∧ v.vregs[n][l] = r ∧ v.fflags = c.w.fflags ∧ v.pc = c.nextPc
    (∀ o : FormA, o.d = .v n →
      let x := c.v o.a l
      let y := c.v o.b l
      let low : Word := 0x80000000
      ((i = .idiv o ∨ i = .idivU o) → y = 0 → gives 0xFFFFFFFF)
      ∧ ((i = .irem o ∨ i = .iremU o) → y = 0 → gives x)
      ∧ (i = .idiv o → x = low → y = 0xFFFFFFFF → gives x)
      ∧ (i = .irem o → x = low → y = 0xFFFFFFFF → gives 0)
      ∧ (i = .idiv o → y ≠ 0 → ¬ (x = low ∧ y = 0xFFFFFFFF) → ∃ q, gives q ∧ q.toInt = x.toInt.tdiv y.toInt)
      ∧ (i = .irem o → y ≠ 0 → ¬ (x = low ∧ y = 0xFFFFFFFF) → ∃ r, gives r ∧ x.toInt = x.toInt.tdiv y.toInt * y.toInt + r.toInt)
      ∧ ((i = .shl o ∨ i = .shr o) → 32 ≤ y.toNat → gives 0)
      ∧ (i = .shrA o → 32 ≤ y.toNat → gives (if x.getLsbD 31 then 0xFFFFFFFF else 0)))
    ∧ ∀ o : FormA1, o.d = .v n → i = .iabs o → c.v o.a l = 0x80000000 → gives 0x80000000)
  ∧ ∀ (i : Instr) (s : State) (c : Ctx) (o : FormG), ready i s = some c → 32 ≤ (c.sv o.b).toNat →
    let gives (r : Word) : Prop :=
      ∃ t v, exec i s = .next t ∧ tget t.warps c.wid = some v ∧ SregWritten c.slice o.d r c.nextPc { c.w with aq := v.aq } v
    ((i = .sshl o ∨ i = .sshr o) → gives 0)
    ∧ (i = .sshrA o → gives (if (c.sv o.a).getLsbD 31 then 0xFFFFFFFF else 0))

/-- R8, R47, R243, R314, R317, R323, R324, R333, R340, R344-R346: what the manual gives the module at reset; and every core in service,
which no rule gives as a reset value: the signed factory record decides it, and the model has it name every core (log 10). -/
def Obligations.ResetValues : Prop :=
  let s := State.reset
  (∀ k : Fin 8, s.ctxs[k] = none) ∧ s.running = none ∧ s.armed = none ∧ s.journal = [] ∧ s.nextSeq = 0 ∧ s.wbase = 0
  ∧ (∀ (w n : Fin 16), (s.windows[w])[n] = 0) ∧ (∀ m : Fin 8, s.measure[m] = 0)
  ∧ (∀ target master, target ≤ 72 → master < 65536 → s.accessEntry target master =
      if master / 16384 = 0 ∨ master / 16384 = 2 then 0x0000FF0F else 0)
  ∧ s.cap = Config.capAtReset ∧ (∀ d : Fin 8, s.ceilings[d] = 7) ∧ (∀ d : Fin 8, s.newestFirst[d] = false)
  ∧ (∀ part pt t, s.shapeOf part pt t = 0x00800020) ∧ (∀ c, (s.coreFence c).state = .inService) ∧ s.warps = []

/-- R8, R317: the invariant of memory and journal holds at reset. -/
def Obligations.InvariantAtReset : Prop := Inv State.reset

/-- Every step keeps the canonical form of memory and the size of the journal (R317). -/
def Obligations.EveryStepKeepsTheInvariant : Prop := ∀ s t : State, Inv s → step s = .next t → Inv t

/-- R25: global time moves by the time that a tick says, and every other step leaves it. -/
def Obligations.OnlyTicksMoveGlobalTime : Prop :=
  ∀ s t : State, step s = .next t → t.gtime = s.gtime ∨ ∃ ns, s.nextTurn.1 = .tick ns ∧ t.gtime = s.gtime + BitVec.ofNat 64 ns
end

