-- ==== Sys2Proof/Laws/Memory.lean ====
section
/-! SUPPORT. The laws of the byte memory and of tables: a read after a write, the addresses that a write leaves alone, and the
canonical form, which every operation on memory keeps. -/

namespace Sys2Proof.Machine

/-! ## Cells -/

theorem cellGet_cellSet_self (cs : List Host.Cell) (a : Nat) (b : Byte) (lo : Nat) (h : cellsWf lo cs = true) :
    cellGet (cellSet cs a b) a = b := by
  induction cs generalizing lo with
  | nil => by_cases hb : b = Memory.unlisted <;> simp [cellSet, cellGet, hb]
  | cons p r ih =>
    obtain ⟨j, x⟩ := p
    simp only [cellsWf, Bool.and_eq_true, decide_eq_true_eq, bne_iff_ne] at h
    have low : ∀ {m : Nat} {l : List Host.Cell}, cellsWf m l = true → a < m → cellGet l a = Memory.unlisted := by
      intro m l
      induction l generalizing m with
      | nil => intros; rfl
      | cons q t iht =>
        obtain ⟨k, y⟩ := q
        simp only [cellsWf, Bool.and_eq_true, decide_eq_true_eq]
        intro hw hm
        rw [cellGet, if_neg (by omega)]
        exact iht hw.2 (by omega)
    unfold cellSet
    split
    · split
      · rw [cellGet, if_neg (by omega), low h.2 (by omega)]; simp_all
      · simp [cellGet]
    · split
      · split
        · rw [low h.2 (by omega)]; simp_all
        · simp [cellGet]
      · rw [cellGet, if_neg (by omega)]; exact ih _ h.2

/-- An address that no cell names. -/
theorem cellGet_unlisted (a : Nat) : ∀ cs : List Host.Cell, (∀ x ∈ cs, x.1 ≠ a) → cellGet cs a = Memory.unlisted
  | [], _ => rfl
  | x :: r, h => by
    obtain ⟨j, b⟩ := x
    rw [cellGet, if_neg (h _ (List.mem_cons_self ..))]
    exact cellGet_unlisted a r fun y hy => h y (List.mem_cons_of_mem _ hy)

theorem cellGet_cellSet_other (cs : List Host.Cell) (a c : Nat) (b : Byte) (h : c ≠ a) :
    cellGet (cellSet cs a b) c = cellGet cs c := by
  induction cs with
  | nil => by_cases hb : b = Memory.unlisted <;> simp [cellSet, cellGet, hb, Ne.symm h]
  | cons p r ih =>
    obtain ⟨j, x⟩ := p
    unfold cellSet
    split
    · split
      · rfl
      · rw [cellGet, if_neg (Ne.symm h)]
    · split
      · split
        · rw [cellGet, if_neg (by omega)]
        · rw [cellGet, if_neg (Ne.symm h), cellGet, if_neg (by omega)]
      · rw [cellGet, cellGet, ih]

theorem cellsWf_weaken {lo hi : Nat} {cs : List Host.Cell} (h : cellsWf hi cs = true) (hl : lo ≤ hi) : cellsWf lo cs = true := by
  cases cs with
  | nil => rfl
  | cons p r =>
    obtain ⟨j, x⟩ := p
    simp only [cellsWf, Bool.and_eq_true, decide_eq_true_eq] at h ⊢
    exact ⟨⟨by omega, h.1.2⟩, h.2⟩

theorem cellsWf_cellSet {lo : Nat} {cs : List Host.Cell} {a : Nat} {b : Byte} (h : cellsWf lo cs = true) (ha : lo ≤ a) :
    cellsWf lo (cellSet cs a b) = true := by
  induction cs generalizing lo with
  | nil =>
    unfold cellSet
    split
    · rfl
    · simp [cellsWf, *]
  | cons p r ih =>
    obtain ⟨j, x⟩ := p
    have h0 := h
    simp only [cellsWf, Bool.and_eq_true, decide_eq_true_eq, bne_iff_ne] at h
    unfold cellSet
    split
    · split
      · exact h0
      · simp only [cellsWf, Bool.and_eq_true, decide_eq_true_eq, bne_iff_ne]
        exact ⟨⟨ha, by assumption⟩, ⟨by omega, h.1.2⟩, h.2⟩
    · split
      · split
        · exact cellsWf_weaken h.2 (by omega)
        · simp only [cellsWf, Bool.and_eq_true, decide_eq_true_eq, bne_iff_ne]
          exact ⟨⟨ha, by assumption⟩, by simp_all⟩
      · simp only [cellsWf, Bool.and_eq_true, decide_eq_true_eq, bne_iff_ne]
        exact ⟨h.1, ih h.2 (by omega)⟩

theorem cellsWf_filter {lo : Nat} {cs : List Host.Cell} (f : Host.Cell → Bool) (h : cellsWf lo cs = true) :
    cellsWf lo (cs.filter f) = true := by
  induction cs generalizing lo with
  | nil => rfl
  | cons p r ih =>
    obtain ⟨j, x⟩ := p
    simp only [cellsWf, Bool.and_eq_true, decide_eq_true_eq] at h
    rw [List.filter_cons]
    split
    · simp only [cellsWf, Bool.and_eq_true, decide_eq_true_eq]
      exact ⟨h.1, ih h.2⟩
    · exact cellsWf_weaken (ih h.2) (by omega)

/-! ## Memory -/

theorem Memory.get_set_self (m : Memory) (a : Nat) (b : Byte) (h : m.wf = true) : (m.set a b).get a = b :=
  cellGet_cellSet_self _ _ _ 0 h

theorem Memory.get_set_other (m : Memory) (a c : Nat) (b : Byte) (h : c ≠ a) : (m.set a b).get c = m.get c :=
  cellGet_cellSet_other _ _ _ _ h

theorem Memory.wf_set (m : Memory) (a : Nat) (b : Byte) (h : m.wf = true) : (m.set a b).wf = true :=
  cellsWf_cellSet h (Nat.zero_le a)

theorem Memory.wf_filter (m : Memory) (f : Host.Cell → Bool) (h : m.wf = true) : (Memory.mk (m.cells.filter f)).wf = true :=
  cellsWf_filter f h

theorem Memory.wf_write (bs : List Byte) (m : Memory) (a : Nat) (h : m.wf = true) : (m.write a bs).wf = true := by
  induction bs generalizing m a with
  | nil => exact h
  | cons b r ih => exact ih _ _ (m.wf_set a b h)

theorem Memory.get_write_outside (bs : List Byte) (m : Memory) (a c : Nat) (h : c < a ∨ a + bs.length ≤ c) :
    (m.write a bs).get c = m.get c := by
  induction bs generalizing m a with
  | nil => rfl
  | cons b r ih =>
    simp only [List.length_cons] at h
    rw [Memory.write, ih _ _ (by omega), Memory.get_set_other _ _ _ _ (by omega)]

theorem Memory.get_write_inside (bs : List Byte) (m : Memory) (a i : Nat) (h : m.wf = true) (hi : i < bs.length) :
    (m.write a bs).get (a + i) = bs[i] := by
  induction bs generalizing m a i with
  | nil => simp at hi
  | cons b r ih =>
    cases i with
    | zero =>
      rw [Memory.write, Memory.get_write_outside _ _ _ _ (by omega)]
      exact m.get_set_self a b h
    | succ k =>
      have e : a + (k + 1) = a + 1 + k := by omega
      rw [Memory.write, e, ih _ _ _ (m.wf_set a b h) (by simpa using hi)]
      simp

theorem Memory.read_length (m : Memory) (a n : Nat) : (m.read a n).length = n := by
  induction n generalizing a with
  | zero => rfl
  | succ k ih => simp [Memory.read, ih]

/-- A read of bytes just written answers them. -/
theorem Memory.read_write (bs : List Byte) (m : Memory) (a : Nat) (h : m.wf = true) : (m.write a bs).read a bs.length = bs := by
  induction bs generalizing m a with
  | nil => rfl
  | cons b r ih =>
    have e := ih (m.set a b) (a + 1) (m.wf_set a b h)
    rw [List.length_cons, Memory.read, Memory.write, e, Memory.get_write_outside _ _ _ _ (by omega), m.get_set_self a b h]

/-! ## Bytes and numbers -/

theorem leBytes_length (n x : Nat) : (leBytes n x).length = n := by
  induction n generalizing x with
  | zero => rfl
  | succ k ih => simp [leBytes, ih]

theorem leNat_leBytes (n x : Nat) : leNat (leBytes n x) = x % 256 ^ n := by
  induction n generalizing x with
  | zero => simp [leBytes, leNat, Nat.mod_one]
  | succ k ih =>
    have e : 256 ^ (k + 1) = 256 * 256 ^ k := by rw [Nat.pow_succ, Nat.mul_comm]
    rw [leBytes, leNat, ih, BitVec.toNat_ofNat, e, Nat.mod_mul]

/-! ## Tables -/

variable {α : Type}

theorem tget_tset_self (t : Tab α) (k : Nat) (v : α) : tget (tset t k v) k = some v := by
  induction t with
  | nil => simp [tset, tget]
  | cons p r ih => obtain ⟨j, u⟩ := p; by_cases h : j = k <;> simp [tset, tget, h, ih]

theorem tget_tset_other (t : Tab α) (k j : Nat) (v : α) (h : j ≠ k) : tget (tset t k v) j = tget t j := by
  induction t with
  | nil => simp [tset, tget, Ne.symm h]
  | cons p r ih =>
    obtain ⟨i, u⟩ := p
    by_cases hi : i = k
    · subst hi; simp [tset, tget, Ne.symm h]
    · simp [tset, tget, hi, ih]

theorem tget_tmod_self (t : Tab α) (k : Nat) (f : α → α) : tget (tmod t k f) k = (tget t k).map f := by
  induction t with
  | nil => rfl
  | cons p r ih => obtain ⟨j, u⟩ := p; by_cases h : j = k <;> simp [tmod, tget, h, ih]

theorem tget_tmod_other (t : Tab α) (k j : Nat) (f : α → α) (h : j ≠ k) : tget (tmod t k f) j = tget t j := by
  induction t with
  | nil => rfl
  | cons p r ih =>
    obtain ⟨i, u⟩ := p
    by_cases hi : i = k
    · subst hi; simp [tmod, tget, Ne.symm h]
    · simp [tmod, tget, hi, ih]

theorem tget_tmod_of_some {t : Tab α} {k : Nat} {v : α} (f : α → α) (h : tget t k = some v) : tget (tmod t k f) k = some (f v) := by
  rw [tget_tmod_self, h]; rfl

theorem tget_tmap (t : Tab α) (k : Nat) (f : α → α) : tget (tmap t f) k = (tget t k).map f := by
  induction t with
  | nil => rfl
  | cons p r ih =>
    obtain ⟨j, u⟩ := p
    by_cases h : j = k
    · simp [tmap, tget, h]
    · have : tget (tmap r f) k = (tget r k).map f := ih
      simp only [tmap] at this
      simp [tmap, tget, h, this]

end Sys2Proof.Machine
end

