-- ==== Sys2Proof/Laws/State.lean ====
section
/-! SUPPORT. What each update of the state leaves in each field: one lemma for each field of each update, true by unfolding. -/

namespace Sys2Proof.Machine

/-! ## modWarp -/

@[simp] theorem State.modWarp_agenda (s : State) (k : Nat) (f : Warp → Warp) : (s.modWarp k f).agenda = s.agenda := rfl
@[simp] theorem State.modWarp_agent (s : State) (k : Nat) (f : Warp → Warp) : (s.modWarp k f).agent = s.agent := rfl
@[simp] theorem State.modWarp_choices (s : State) (k : Nat) (f : Warp → Warp) : (s.modWarp k f).choices = s.choices := rfl
@[simp] theorem State.modWarp_nextId (s : State) (k : Nat) (f : Warp → Warp) : (s.modWarp k f).nextId = s.nextId := rfl
@[simp] theorem State.modWarp_gtime (s : State) (k : Nat) (f : Warp → Warp) : (s.modWarp k f).gtime = s.gtime := rfl
@[simp] theorem State.modWarp_mem (s : State) (k : Nat) (f : Warp → Warp) : (s.modWarp k f).mem = s.mem := rfl
@[simp] theorem State.modWarp_bad (s : State) (k : Nat) (f : Warp → Warp) : (s.modWarp k f).bad = s.bad := rfl
@[simp] theorem State.modWarp_poison (s : State) (k : Nat) (f : Warp → Warp) : (s.modWarp k f).poison = s.poison := rfl
@[simp] theorem State.modWarp_flips (s : State) (k : Nat) (f : Warp → Warp) : (s.modWarp k f).flips = s.flips := rfl
@[simp] theorem State.modWarp_merging (s : State) (k : Nat) (f : Warp → Warp) : (s.modWarp k f).merging = s.merging := rfl
@[simp] theorem State.modWarp_reported (s : State) (k : Nat) (f : Warp → Warp) : (s.modWarp k f).reported = s.reported := rfl
@[simp] theorem State.modWarp_tlb (s : State) (k : Nat) (f : Warp → Warp) : (s.modWarp k f).tlb = s.tlb := rfl
@[simp] theorem State.modWarp_access (s : State) (k : Nat) (f : Warp → Warp) : (s.modWarp k f).access = s.access := rfl
@[simp] theorem State.modWarp_accessNew (s : State) (k : Nat) (f : Warp → Warp) : (s.modWarp k f).accessNew = s.accessNew := rfl
@[simp] theorem State.modWarp_counterTable (s : State) (k : Nat) (f : Warp → Warp) : (s.modWarp k f).counterTable = s.counterTable := rfl
@[simp] theorem State.modWarp_counterThreshold (s : State) (k : Nat) (f : Warp → Warp) : (s.modWarp k f).counterThreshold = s.counterThreshold := rfl
@[simp] theorem State.modWarp_ringUnread (s : State) (k : Nat) (f : Warp → Warp) : (s.modWarp k f).ringUnread = s.ringUnread := rfl
@[simp] theorem State.modWarp_ringLost (s : State) (k : Nat) (f : Warp → Warp) : (s.modWarp k f).ringLost = s.ringLost := rfl
@[simp] theorem State.modWarp_windows (s : State) (k : Nat) (f : Warp → Warp) : (s.modWarp k f).windows = s.windows := rfl
@[simp] theorem State.modWarp_queue (s : State) (k : Nat) (f : Warp → Warp) : (s.modWarp k f).queue = s.queue := rfl
@[simp] theorem State.modWarp_deferred (s : State) (k : Nat) (f : Warp → Warp) : (s.modWarp k f).deferred = s.deferred := rfl
@[simp] theorem State.modWarp_journal (s : State) (k : Nat) (f : Warp → Warp) : (s.modWarp k f).journal = s.journal := rfl
@[simp] theorem State.modWarp_nextSeq (s : State) (k : Nat) (f : Warp → Warp) : (s.modWarp k f).nextSeq = s.nextSeq := rfl
@[simp] theorem State.modWarp_wbase (s : State) (k : Nat) (f : Warp → Warp) : (s.modWarp k f).wbase = s.wbase := rfl
@[simp] theorem State.modWarp_msix (s : State) (k : Nat) (f : Warp → Warp) : (s.modWarp k f).msix = s.msix := rfl
@[simp] theorem State.modWarp_reply (s : State) (k : Nat) (f : Warp → Warp) : (s.modWarp k f).reply = s.reply := rfl
@[simp] theorem State.modWarp_booted (s : State) (k : Nat) (f : Warp → Warp) : (s.modWarp k f).booted = s.booted := rfl
@[simp] theorem State.modWarp_measure (s : State) (k : Nat) (f : Warp → Warp) : (s.modWarp k f).measure = s.measure := rfl
@[simp] theorem State.modWarp_floors (s : State) (k : Nat) (f : Warp → Warp) : (s.modWarp k f).floors = s.floors := rfl
@[simp] theorem State.modWarp_fieldDigest (s : State) (k : Nat) (f : Warp → Warp) : (s.modWarp k f).fieldDigest = s.fieldDigest := rfl
@[simp] theorem State.modWarp_outOfMap (s : State) (k : Nat) (f : Warp → Warp) : (s.modWarp k f).outOfMap = s.outOfMap := rfl
@[simp] theorem State.modWarp_mapEpoch (s : State) (k : Nat) (f : Warp → Warp) : (s.modWarp k f).mapEpoch = s.mapEpoch := rfl
@[simp] theorem State.modWarp_counters (s : State) (k : Nat) (f : Warp → Warp) : (s.modWarp k f).counters = s.counters := rfl
@[simp] theorem State.modWarp_selects (s : State) (k : Nat) (f : Warp → Warp) : (s.modWarp k f).selects = s.selects := rfl
@[simp] theorem State.modWarp_cap (s : State) (k : Nat) (f : Warp → Warp) : (s.modWarp k f).cap = s.cap := rfl
@[simp] theorem State.modWarp_ceilings (s : State) (k : Nat) (f : Warp → Warp) : (s.modWarp k f).ceilings = s.ceilings := rfl
@[simp] theorem State.modWarp_corePoints (s : State) (k : Nat) (f : Warp → Warp) : (s.modWarp k f).corePoints = s.corePoints := rfl
@[simp] theorem State.modWarp_stackPoints (s : State) (k : Nat) (f : Warp → Warp) : (s.modWarp k f).stackPoints = s.stackPoints := rfl
@[simp] theorem State.modWarp_dieClk (s : State) (k : Nat) (f : Warp → Warp) : (s.modWarp k f).dieClk = s.dieClk := rfl
@[simp] theorem State.modWarp_stackClk (s : State) (k : Nat) (f : Warp → Warp) : (s.modWarp k f).stackClk = s.stackClk := rfl
@[simp] theorem State.modWarp_loam (s : State) (k : Nat) (f : Warp → Warp) : (s.modWarp k f).loam = s.loam := rfl
@[simp] theorem State.modWarp_cxl (s : State) (k : Nat) (f : Warp → Warp) : (s.modWarp k f).cxl = s.cxl := rfl
@[simp] theorem State.modWarp_ctxs (s : State) (k : Nat) (f : Warp → Warp) : (s.modWarp k f).ctxs = s.ctxs := rfl
@[simp] theorem State.modWarp_running (s : State) (k : Nat) (f : Warp → Warp) : (s.modWarp k f).running = s.running := rfl
@[simp] theorem State.modWarp_armed (s : State) (k : Nat) (f : Warp → Warp) : (s.modWarp k f).armed = s.armed := rfl
@[simp] theorem State.modWarp_purges (s : State) (k : Nat) (f : Warp → Warp) : (s.modWarp k f).purges = s.purges := rfl
@[simp] theorem State.modWarp_migration (s : State) (k : Nat) (f : Warp → Warp) : (s.modWarp k f).migration = s.migration := rfl
@[simp] theorem State.modWarp_cores (s : State) (k : Nat) (f : Warp → Warp) : (s.modWarp k f).cores = s.cores := rfl
@[simp] theorem State.modWarp_newestFirst (s : State) (k : Nat) (f : Warp → Warp) : (s.modWarp k f).newestFirst = s.newestFirst := rfl
@[simp] theorem State.modWarp_cache (s : State) (k : Nat) (f : Warp → Warp) : (s.modWarp k f).cache = s.cache := rfl
@[simp] theorem State.modWarp_nodes (s : State) (k : Nat) (f : Warp → Warp) : (s.modWarp k f).nodes = s.nodes := rfl
@[simp] theorem State.modWarp_blocks (s : State) (k : Nat) (f : Warp → Warp) : (s.modWarp k f).blocks = s.blocks := rfl
@[simp] theorem State.modWarp_parts (s : State) (k : Nat) (f : Warp → Warp) : (s.modWarp k f).parts = s.parts := rfl
@[simp] theorem State.modWarp_warps (s : State) (k : Nat) (f : Warp → Warp) : (s.modWarp k f).warps = tmod s.warps k f := rfl
@[simp] theorem State.modWarp_copies (s : State) (k : Nat) (f : Warp → Warp) : (s.modWarp k f).copies = s.copies := rfl
@[simp] theorem State.modWarp_bins (s : State) (k : Nat) (f : Warp → Warp) : (s.modWarp k f).bins = s.bins := rfl
@[simp] theorem State.modWarp_released (s : State) (k : Nat) (f : Warp → Warp) : (s.modWarp k f).released = s.released := rfl
@[simp] theorem State.modWarp_groups (s : State) (k : Nat) (f : Warp → Warp) : (s.modWarp k f).groups = s.groups := rfl
@[simp] theorem State.modWarp_collectives (s : State) (k : Nat) (f : Warp → Warp) : (s.modWarp k f).collectives = s.collectives := rfl
@[simp] theorem State.modWarp_insts (s : State) (k : Nat) (f : Warp → Warp) : (s.modWarp k f).insts = s.insts := rfl
@[simp] theorem State.modWarp_handOvers (s : State) (k : Nat) (f : Warp → Warp) : (s.modWarp k f).handOvers = s.handOvers := rfl
@[simp] theorem State.modWarp_deltas (s : State) (k : Nat) (f : Warp → Warp) : (s.modWarp k f).deltas = s.deltas := rfl
@[simp] theorem State.modWarp_tshape (s : State) (k : Nat) (f : Warp → Warp) : (s.modWarp k f).tshape = s.tshape := rfl
@[simp] theorem State.modWarp_engine (s : State) (k : Nat) (f : Warp → Warp) : (s.modWarp k f).engine = s.engine := rfl

/-! ## modPart -/

@[simp] theorem State.modPart_agenda (s : State) (k : Nat) (f : Part → Part) : (s.modPart k f).agenda = s.agenda := rfl
@[simp] theorem State.modPart_agent (s : State) (k : Nat) (f : Part → Part) : (s.modPart k f).agent = s.agent := rfl
@[simp] theorem State.modPart_choices (s : State) (k : Nat) (f : Part → Part) : (s.modPart k f).choices = s.choices := rfl
@[simp] theorem State.modPart_nextId (s : State) (k : Nat) (f : Part → Part) : (s.modPart k f).nextId = s.nextId := rfl
@[simp] theorem State.modPart_gtime (s : State) (k : Nat) (f : Part → Part) : (s.modPart k f).gtime = s.gtime := rfl
@[simp] theorem State.modPart_mem (s : State) (k : Nat) (f : Part → Part) : (s.modPart k f).mem = s.mem := rfl
@[simp] theorem State.modPart_bad (s : State) (k : Nat) (f : Part → Part) : (s.modPart k f).bad = s.bad := rfl
@[simp] theorem State.modPart_poison (s : State) (k : Nat) (f : Part → Part) : (s.modPart k f).poison = s.poison := rfl
@[simp] theorem State.modPart_flips (s : State) (k : Nat) (f : Part → Part) : (s.modPart k f).flips = s.flips := rfl
@[simp] theorem State.modPart_merging (s : State) (k : Nat) (f : Part → Part) : (s.modPart k f).merging = s.merging := rfl
@[simp] theorem State.modPart_reported (s : State) (k : Nat) (f : Part → Part) : (s.modPart k f).reported = s.reported := rfl
@[simp] theorem State.modPart_tlb (s : State) (k : Nat) (f : Part → Part) : (s.modPart k f).tlb = s.tlb := rfl
@[simp] theorem State.modPart_access (s : State) (k : Nat) (f : Part → Part) : (s.modPart k f).access = s.access := rfl
@[simp] theorem State.modPart_accessNew (s : State) (k : Nat) (f : Part → Part) : (s.modPart k f).accessNew = s.accessNew := rfl
@[simp] theorem State.modPart_counterTable (s : State) (k : Nat) (f : Part → Part) : (s.modPart k f).counterTable = s.counterTable := rfl
@[simp] theorem State.modPart_counterThreshold (s : State) (k : Nat) (f : Part → Part) : (s.modPart k f).counterThreshold = s.counterThreshold := rfl
@[simp] theorem State.modPart_ringUnread (s : State) (k : Nat) (f : Part → Part) : (s.modPart k f).ringUnread = s.ringUnread := rfl
@[simp] theorem State.modPart_ringLost (s : State) (k : Nat) (f : Part → Part) : (s.modPart k f).ringLost = s.ringLost := rfl
@[simp] theorem State.modPart_windows (s : State) (k : Nat) (f : Part → Part) : (s.modPart k f).windows = s.windows := rfl
@[simp] theorem State.modPart_queue (s : State) (k : Nat) (f : Part → Part) : (s.modPart k f).queue = s.queue := rfl
@[simp] theorem State.modPart_deferred (s : State) (k : Nat) (f : Part → Part) : (s.modPart k f).deferred = s.deferred := rfl
@[simp] theorem State.modPart_journal (s : State) (k : Nat) (f : Part → Part) : (s.modPart k f).journal = s.journal := rfl
@[simp] theorem State.modPart_nextSeq (s : State) (k : Nat) (f : Part → Part) : (s.modPart k f).nextSeq = s.nextSeq := rfl
@[simp] theorem State.modPart_wbase (s : State) (k : Nat) (f : Part → Part) : (s.modPart k f).wbase = s.wbase := rfl
@[simp] theorem State.modPart_msix (s : State) (k : Nat) (f : Part → Part) : (s.modPart k f).msix = s.msix := rfl
@[simp] theorem State.modPart_reply (s : State) (k : Nat) (f : Part → Part) : (s.modPart k f).reply = s.reply := rfl
@[simp] theorem State.modPart_booted (s : State) (k : Nat) (f : Part → Part) : (s.modPart k f).booted = s.booted := rfl
@[simp] theorem State.modPart_measure (s : State) (k : Nat) (f : Part → Part) : (s.modPart k f).measure = s.measure := rfl
@[simp] theorem State.modPart_floors (s : State) (k : Nat) (f : Part → Part) : (s.modPart k f).floors = s.floors := rfl
@[simp] theorem State.modPart_fieldDigest (s : State) (k : Nat) (f : Part → Part) : (s.modPart k f).fieldDigest = s.fieldDigest := rfl
@[simp] theorem State.modPart_outOfMap (s : State) (k : Nat) (f : Part → Part) : (s.modPart k f).outOfMap = s.outOfMap := rfl
@[simp] theorem State.modPart_mapEpoch (s : State) (k : Nat) (f : Part → Part) : (s.modPart k f).mapEpoch = s.mapEpoch := rfl
@[simp] theorem State.modPart_counters (s : State) (k : Nat) (f : Part → Part) : (s.modPart k f).counters = s.counters := rfl
@[simp] theorem State.modPart_selects (s : State) (k : Nat) (f : Part → Part) : (s.modPart k f).selects = s.selects := rfl
@[simp] theorem State.modPart_cap (s : State) (k : Nat) (f : Part → Part) : (s.modPart k f).cap = s.cap := rfl
@[simp] theorem State.modPart_ceilings (s : State) (k : Nat) (f : Part → Part) : (s.modPart k f).ceilings = s.ceilings := rfl
@[simp] theorem State.modPart_corePoints (s : State) (k : Nat) (f : Part → Part) : (s.modPart k f).corePoints = s.corePoints := rfl
@[simp] theorem State.modPart_stackPoints (s : State) (k : Nat) (f : Part → Part) : (s.modPart k f).stackPoints = s.stackPoints := rfl
@[simp] theorem State.modPart_dieClk (s : State) (k : Nat) (f : Part → Part) : (s.modPart k f).dieClk = s.dieClk := rfl
@[simp] theorem State.modPart_stackClk (s : State) (k : Nat) (f : Part → Part) : (s.modPart k f).stackClk = s.stackClk := rfl
@[simp] theorem State.modPart_loam (s : State) (k : Nat) (f : Part → Part) : (s.modPart k f).loam = s.loam := rfl
@[simp] theorem State.modPart_cxl (s : State) (k : Nat) (f : Part → Part) : (s.modPart k f).cxl = s.cxl := rfl
@[simp] theorem State.modPart_ctxs (s : State) (k : Nat) (f : Part → Part) : (s.modPart k f).ctxs = s.ctxs := rfl
@[simp] theorem State.modPart_running (s : State) (k : Nat) (f : Part → Part) : (s.modPart k f).running = s.running := rfl
@[simp] theorem State.modPart_armed (s : State) (k : Nat) (f : Part → Part) : (s.modPart k f).armed = s.armed := rfl
@[simp] theorem State.modPart_purges (s : State) (k : Nat) (f : Part → Part) : (s.modPart k f).purges = s.purges := rfl
@[simp] theorem State.modPart_migration (s : State) (k : Nat) (f : Part → Part) : (s.modPart k f).migration = s.migration := rfl
@[simp] theorem State.modPart_cores (s : State) (k : Nat) (f : Part → Part) : (s.modPart k f).cores = s.cores := rfl
@[simp] theorem State.modPart_newestFirst (s : State) (k : Nat) (f : Part → Part) : (s.modPart k f).newestFirst = s.newestFirst := rfl
@[simp] theorem State.modPart_cache (s : State) (k : Nat) (f : Part → Part) : (s.modPart k f).cache = s.cache := rfl
@[simp] theorem State.modPart_nodes (s : State) (k : Nat) (f : Part → Part) : (s.modPart k f).nodes = s.nodes := rfl
@[simp] theorem State.modPart_blocks (s : State) (k : Nat) (f : Part → Part) : (s.modPart k f).blocks = s.blocks := rfl
@[simp] theorem State.modPart_parts (s : State) (k : Nat) (f : Part → Part) : (s.modPart k f).parts = tmod s.parts k f := rfl
@[simp] theorem State.modPart_warps (s : State) (k : Nat) (f : Part → Part) : (s.modPart k f).warps = s.warps := rfl
@[simp] theorem State.modPart_copies (s : State) (k : Nat) (f : Part → Part) : (s.modPart k f).copies = s.copies := rfl
@[simp] theorem State.modPart_bins (s : State) (k : Nat) (f : Part → Part) : (s.modPart k f).bins = s.bins := rfl
@[simp] theorem State.modPart_released (s : State) (k : Nat) (f : Part → Part) : (s.modPart k f).released = s.released := rfl
@[simp] theorem State.modPart_groups (s : State) (k : Nat) (f : Part → Part) : (s.modPart k f).groups = s.groups := rfl
@[simp] theorem State.modPart_collectives (s : State) (k : Nat) (f : Part → Part) : (s.modPart k f).collectives = s.collectives := rfl
@[simp] theorem State.modPart_insts (s : State) (k : Nat) (f : Part → Part) : (s.modPart k f).insts = s.insts := rfl
@[simp] theorem State.modPart_handOvers (s : State) (k : Nat) (f : Part → Part) : (s.modPart k f).handOvers = s.handOvers := rfl
@[simp] theorem State.modPart_deltas (s : State) (k : Nat) (f : Part → Part) : (s.modPart k f).deltas = s.deltas := rfl
@[simp] theorem State.modPart_tshape (s : State) (k : Nat) (f : Part → Part) : (s.modPart k f).tshape = s.tshape := rfl
@[simp] theorem State.modPart_engine (s : State) (k : Nat) (f : Part → Part) : (s.modPart k f).engine = s.engine := rfl

/-! ## modBlock -/

@[simp] theorem State.modBlock_agenda (s : State) (k : Nat) (f : Block → Block) : (s.modBlock k f).agenda = s.agenda := rfl
@[simp] theorem State.modBlock_agent (s : State) (k : Nat) (f : Block → Block) : (s.modBlock k f).agent = s.agent := rfl
@[simp] theorem State.modBlock_choices (s : State) (k : Nat) (f : Block → Block) : (s.modBlock k f).choices = s.choices := rfl
@[simp] theorem State.modBlock_nextId (s : State) (k : Nat) (f : Block → Block) : (s.modBlock k f).nextId = s.nextId := rfl
@[simp] theorem State.modBlock_gtime (s : State) (k : Nat) (f : Block → Block) : (s.modBlock k f).gtime = s.gtime := rfl
@[simp] theorem State.modBlock_mem (s : State) (k : Nat) (f : Block → Block) : (s.modBlock k f).mem = s.mem := rfl
@[simp] theorem State.modBlock_bad (s : State) (k : Nat) (f : Block → Block) : (s.modBlock k f).bad = s.bad := rfl
@[simp] theorem State.modBlock_poison (s : State) (k : Nat) (f : Block → Block) : (s.modBlock k f).poison = s.poison := rfl
@[simp] theorem State.modBlock_flips (s : State) (k : Nat) (f : Block → Block) : (s.modBlock k f).flips = s.flips := rfl
@[simp] theorem State.modBlock_merging (s : State) (k : Nat) (f : Block → Block) : (s.modBlock k f).merging = s.merging := rfl
@[simp] theorem State.modBlock_reported (s : State) (k : Nat) (f : Block → Block) : (s.modBlock k f).reported = s.reported := rfl
@[simp] theorem State.modBlock_tlb (s : State) (k : Nat) (f : Block → Block) : (s.modBlock k f).tlb = s.tlb := rfl
@[simp] theorem State.modBlock_access (s : State) (k : Nat) (f : Block → Block) : (s.modBlock k f).access = s.access := rfl
@[simp] theorem State.modBlock_accessNew (s : State) (k : Nat) (f : Block → Block) : (s.modBlock k f).accessNew = s.accessNew := rfl
@[simp] theorem State.modBlock_counterTable (s : State) (k : Nat) (f : Block → Block) : (s.modBlock k f).counterTable = s.counterTable := rfl
@[simp] theorem State.modBlock_counterThreshold (s : State) (k : Nat) (f : Block → Block) : (s.modBlock k f).counterThreshold = s.counterThreshold := rfl
@[simp] theorem State.modBlock_ringUnread (s : State) (k : Nat) (f : Block → Block) : (s.modBlock k f).ringUnread = s.ringUnread := rfl
@[simp] theorem State.modBlock_ringLost (s : State) (k : Nat) (f : Block → Block) : (s.modBlock k f).ringLost = s.ringLost := rfl
@[simp] theorem State.modBlock_windows (s : State) (k : Nat) (f : Block → Block) : (s.modBlock k f).windows = s.windows := rfl
@[simp] theorem State.modBlock_queue (s : State) (k : Nat) (f : Block → Block) : (s.modBlock k f).queue = s.queue := rfl
@[simp] theorem State.modBlock_deferred (s : State) (k : Nat) (f : Block → Block) : (s.modBlock k f).deferred = s.deferred := rfl
@[simp] theorem State.modBlock_journal (s : State) (k : Nat) (f : Block → Block) : (s.modBlock k f).journal = s.journal := rfl
@[simp] theorem State.modBlock_nextSeq (s : State) (k : Nat) (f : Block → Block) : (s.modBlock k f).nextSeq = s.nextSeq := rfl
@[simp] theorem State.modBlock_wbase (s : State) (k : Nat) (f : Block → Block) : (s.modBlock k f).wbase = s.wbase := rfl
@[simp] theorem State.modBlock_msix (s : State) (k : Nat) (f : Block → Block) : (s.modBlock k f).msix = s.msix := rfl
@[simp] theorem State.modBlock_reply (s : State) (k : Nat) (f : Block → Block) : (s.modBlock k f).reply = s.reply := rfl
@[simp] theorem State.modBlock_booted (s : State) (k : Nat) (f : Block → Block) : (s.modBlock k f).booted = s.booted := rfl
@[simp] theorem State.modBlock_measure (s : State) (k : Nat) (f : Block → Block) : (s.modBlock k f).measure = s.measure := rfl
@[simp] theorem State.modBlock_floors (s : State) (k : Nat) (f : Block → Block) : (s.modBlock k f).floors = s.floors := rfl
@[simp] theorem State.modBlock_fieldDigest (s : State) (k : Nat) (f : Block → Block) : (s.modBlock k f).fieldDigest = s.fieldDigest := rfl
@[simp] theorem State.modBlock_outOfMap (s : State) (k : Nat) (f : Block → Block) : (s.modBlock k f).outOfMap = s.outOfMap := rfl
@[simp] theorem State.modBlock_mapEpoch (s : State) (k : Nat) (f : Block → Block) : (s.modBlock k f).mapEpoch = s.mapEpoch := rfl
@[simp] theorem State.modBlock_counters (s : State) (k : Nat) (f : Block → Block) : (s.modBlock k f).counters = s.counters := rfl
@[simp] theorem State.modBlock_selects (s : State) (k : Nat) (f : Block → Block) : (s.modBlock k f).selects = s.selects := rfl
@[simp] theorem State.modBlock_cap (s : State) (k : Nat) (f : Block → Block) : (s.modBlock k f).cap = s.cap := rfl
@[simp] theorem State.modBlock_ceilings (s : State) (k : Nat) (f : Block → Block) : (s.modBlock k f).ceilings = s.ceilings := rfl
@[simp] theorem State.modBlock_corePoints (s : State) (k : Nat) (f : Block → Block) : (s.modBlock k f).corePoints = s.corePoints := rfl
@[simp] theorem State.modBlock_stackPoints (s : State) (k : Nat) (f : Block → Block) : (s.modBlock k f).stackPoints = s.stackPoints := rfl
@[simp] theorem State.modBlock_dieClk (s : State) (k : Nat) (f : Block → Block) : (s.modBlock k f).dieClk = s.dieClk := rfl
@[simp] theorem State.modBlock_stackClk (s : State) (k : Nat) (f : Block → Block) : (s.modBlock k f).stackClk = s.stackClk := rfl
@[simp] theorem State.modBlock_loam (s : State) (k : Nat) (f : Block → Block) : (s.modBlock k f).loam = s.loam := rfl
@[simp] theorem State.modBlock_cxl (s : State) (k : Nat) (f : Block → Block) : (s.modBlock k f).cxl = s.cxl := rfl
@[simp] theorem State.modBlock_ctxs (s : State) (k : Nat) (f : Block → Block) : (s.modBlock k f).ctxs = s.ctxs := rfl
@[simp] theorem State.modBlock_running (s : State) (k : Nat) (f : Block → Block) : (s.modBlock k f).running = s.running := rfl
@[simp] theorem State.modBlock_armed (s : State) (k : Nat) (f : Block → Block) : (s.modBlock k f).armed = s.armed := rfl
@[simp] theorem State.modBlock_purges (s : State) (k : Nat) (f : Block → Block) : (s.modBlock k f).purges = s.purges := rfl
@[simp] theorem State.modBlock_migration (s : State) (k : Nat) (f : Block → Block) : (s.modBlock k f).migration = s.migration := rfl
@[simp] theorem State.modBlock_cores (s : State) (k : Nat) (f : Block → Block) : (s.modBlock k f).cores = s.cores := rfl
@[simp] theorem State.modBlock_newestFirst (s : State) (k : Nat) (f : Block → Block) : (s.modBlock k f).newestFirst = s.newestFirst := rfl
@[simp] theorem State.modBlock_cache (s : State) (k : Nat) (f : Block → Block) : (s.modBlock k f).cache = s.cache := rfl
@[simp] theorem State.modBlock_nodes (s : State) (k : Nat) (f : Block → Block) : (s.modBlock k f).nodes = s.nodes := rfl
@[simp] theorem State.modBlock_blocks (s : State) (k : Nat) (f : Block → Block) : (s.modBlock k f).blocks = tmod s.blocks k f := rfl
@[simp] theorem State.modBlock_parts (s : State) (k : Nat) (f : Block → Block) : (s.modBlock k f).parts = s.parts := rfl
@[simp] theorem State.modBlock_warps (s : State) (k : Nat) (f : Block → Block) : (s.modBlock k f).warps = s.warps := rfl
@[simp] theorem State.modBlock_copies (s : State) (k : Nat) (f : Block → Block) : (s.modBlock k f).copies = s.copies := rfl
@[simp] theorem State.modBlock_bins (s : State) (k : Nat) (f : Block → Block) : (s.modBlock k f).bins = s.bins := rfl
@[simp] theorem State.modBlock_released (s : State) (k : Nat) (f : Block → Block) : (s.modBlock k f).released = s.released := rfl
@[simp] theorem State.modBlock_groups (s : State) (k : Nat) (f : Block → Block) : (s.modBlock k f).groups = s.groups := rfl
@[simp] theorem State.modBlock_collectives (s : State) (k : Nat) (f : Block → Block) : (s.modBlock k f).collectives = s.collectives := rfl
@[simp] theorem State.modBlock_insts (s : State) (k : Nat) (f : Block → Block) : (s.modBlock k f).insts = s.insts := rfl
@[simp] theorem State.modBlock_handOvers (s : State) (k : Nat) (f : Block → Block) : (s.modBlock k f).handOvers = s.handOvers := rfl
@[simp] theorem State.modBlock_deltas (s : State) (k : Nat) (f : Block → Block) : (s.modBlock k f).deltas = s.deltas := rfl
@[simp] theorem State.modBlock_tshape (s : State) (k : Nat) (f : Block → Block) : (s.modBlock k f).tshape = s.tshape := rfl
@[simp] theorem State.modBlock_engine (s : State) (k : Nat) (f : Block → Block) : (s.modBlock k f).engine = s.engine := rfl

/-! ## modNode -/

@[simp] theorem State.modNode_agenda (s : State) (k : Nat) (f : Node → Node) : (s.modNode k f).agenda = s.agenda := rfl
@[simp] theorem State.modNode_agent (s : State) (k : Nat) (f : Node → Node) : (s.modNode k f).agent = s.agent := rfl
@[simp] theorem State.modNode_choices (s : State) (k : Nat) (f : Node → Node) : (s.modNode k f).choices = s.choices := rfl
@[simp] theorem State.modNode_nextId (s : State) (k : Nat) (f : Node → Node) : (s.modNode k f).nextId = s.nextId := rfl
@[simp] theorem State.modNode_gtime (s : State) (k : Nat) (f : Node → Node) : (s.modNode k f).gtime = s.gtime := rfl
@[simp] theorem State.modNode_mem (s : State) (k : Nat) (f : Node → Node) : (s.modNode k f).mem = s.mem := rfl
@[simp] theorem State.modNode_bad (s : State) (k : Nat) (f : Node → Node) : (s.modNode k f).bad = s.bad := rfl
@[simp] theorem State.modNode_poison (s : State) (k : Nat) (f : Node → Node) : (s.modNode k f).poison = s.poison := rfl
@[simp] theorem State.modNode_flips (s : State) (k : Nat) (f : Node → Node) : (s.modNode k f).flips = s.flips := rfl
@[simp] theorem State.modNode_merging (s : State) (k : Nat) (f : Node → Node) : (s.modNode k f).merging = s.merging := rfl
@[simp] theorem State.modNode_reported (s : State) (k : Nat) (f : Node → Node) : (s.modNode k f).reported = s.reported := rfl
@[simp] theorem State.modNode_tlb (s : State) (k : Nat) (f : Node → Node) : (s.modNode k f).tlb = s.tlb := rfl
@[simp] theorem State.modNode_access (s : State) (k : Nat) (f : Node → Node) : (s.modNode k f).access = s.access := rfl
@[simp] theorem State.modNode_accessNew (s : State) (k : Nat) (f : Node → Node) : (s.modNode k f).accessNew = s.accessNew := rfl
@[simp] theorem State.modNode_counterTable (s : State) (k : Nat) (f : Node → Node) : (s.modNode k f).counterTable = s.counterTable := rfl
@[simp] theorem State.modNode_counterThreshold (s : State) (k : Nat) (f : Node → Node) : (s.modNode k f).counterThreshold = s.counterThreshold := rfl
@[simp] theorem State.modNode_ringUnread (s : State) (k : Nat) (f : Node → Node) : (s.modNode k f).ringUnread = s.ringUnread := rfl
@[simp] theorem State.modNode_ringLost (s : State) (k : Nat) (f : Node → Node) : (s.modNode k f).ringLost = s.ringLost := rfl
@[simp] theorem State.modNode_windows (s : State) (k : Nat) (f : Node → Node) : (s.modNode k f).windows = s.windows := rfl
@[simp] theorem State.modNode_queue (s : State) (k : Nat) (f : Node → Node) : (s.modNode k f).queue = s.queue := rfl
@[simp] theorem State.modNode_deferred (s : State) (k : Nat) (f : Node → Node) : (s.modNode k f).deferred = s.deferred := rfl
@[simp] theorem State.modNode_journal (s : State) (k : Nat) (f : Node → Node) : (s.modNode k f).journal = s.journal := rfl
@[simp] theorem State.modNode_nextSeq (s : State) (k : Nat) (f : Node → Node) : (s.modNode k f).nextSeq = s.nextSeq := rfl
@[simp] theorem State.modNode_wbase (s : State) (k : Nat) (f : Node → Node) : (s.modNode k f).wbase = s.wbase := rfl
@[simp] theorem State.modNode_msix (s : State) (k : Nat) (f : Node → Node) : (s.modNode k f).msix = s.msix := rfl
@[simp] theorem State.modNode_reply (s : State) (k : Nat) (f : Node → Node) : (s.modNode k f).reply = s.reply := rfl
@[simp] theorem State.modNode_booted (s : State) (k : Nat) (f : Node → Node) : (s.modNode k f).booted = s.booted := rfl
@[simp] theorem State.modNode_measure (s : State) (k : Nat) (f : Node → Node) : (s.modNode k f).measure = s.measure := rfl
@[simp] theorem State.modNode_floors (s : State) (k : Nat) (f : Node → Node) : (s.modNode k f).floors = s.floors := rfl
@[simp] theorem State.modNode_fieldDigest (s : State) (k : Nat) (f : Node → Node) : (s.modNode k f).fieldDigest = s.fieldDigest := rfl
@[simp] theorem State.modNode_outOfMap (s : State) (k : Nat) (f : Node → Node) : (s.modNode k f).outOfMap = s.outOfMap := rfl
@[simp] theorem State.modNode_mapEpoch (s : State) (k : Nat) (f : Node → Node) : (s.modNode k f).mapEpoch = s.mapEpoch := rfl
@[simp] theorem State.modNode_counters (s : State) (k : Nat) (f : Node → Node) : (s.modNode k f).counters = s.counters := rfl
@[simp] theorem State.modNode_selects (s : State) (k : Nat) (f : Node → Node) : (s.modNode k f).selects = s.selects := rfl
@[simp] theorem State.modNode_cap (s : State) (k : Nat) (f : Node → Node) : (s.modNode k f).cap = s.cap := rfl
@[simp] theorem State.modNode_ceilings (s : State) (k : Nat) (f : Node → Node) : (s.modNode k f).ceilings = s.ceilings := rfl
@[simp] theorem State.modNode_corePoints (s : State) (k : Nat) (f : Node → Node) : (s.modNode k f).corePoints = s.corePoints := rfl
@[simp] theorem State.modNode_stackPoints (s : State) (k : Nat) (f : Node → Node) : (s.modNode k f).stackPoints = s.stackPoints := rfl
@[simp] theorem State.modNode_dieClk (s : State) (k : Nat) (f : Node → Node) : (s.modNode k f).dieClk = s.dieClk := rfl
@[simp] theorem State.modNode_stackClk (s : State) (k : Nat) (f : Node → Node) : (s.modNode k f).stackClk = s.stackClk := rfl
@[simp] theorem State.modNode_loam (s : State) (k : Nat) (f : Node → Node) : (s.modNode k f).loam = s.loam := rfl
@[simp] theorem State.modNode_cxl (s : State) (k : Nat) (f : Node → Node) : (s.modNode k f).cxl = s.cxl := rfl
@[simp] theorem State.modNode_ctxs (s : State) (k : Nat) (f : Node → Node) : (s.modNode k f).ctxs = s.ctxs := rfl
@[simp] theorem State.modNode_running (s : State) (k : Nat) (f : Node → Node) : (s.modNode k f).running = s.running := rfl
@[simp] theorem State.modNode_armed (s : State) (k : Nat) (f : Node → Node) : (s.modNode k f).armed = s.armed := rfl
@[simp] theorem State.modNode_purges (s : State) (k : Nat) (f : Node → Node) : (s.modNode k f).purges = s.purges := rfl
@[simp] theorem State.modNode_migration (s : State) (k : Nat) (f : Node → Node) : (s.modNode k f).migration = s.migration := rfl
@[simp] theorem State.modNode_cores (s : State) (k : Nat) (f : Node → Node) : (s.modNode k f).cores = s.cores := rfl
@[simp] theorem State.modNode_newestFirst (s : State) (k : Nat) (f : Node → Node) : (s.modNode k f).newestFirst = s.newestFirst := rfl
@[simp] theorem State.modNode_cache (s : State) (k : Nat) (f : Node → Node) : (s.modNode k f).cache = s.cache := rfl
@[simp] theorem State.modNode_nodes (s : State) (k : Nat) (f : Node → Node) : (s.modNode k f).nodes = tmod s.nodes k f := rfl
@[simp] theorem State.modNode_blocks (s : State) (k : Nat) (f : Node → Node) : (s.modNode k f).blocks = s.blocks := rfl
@[simp] theorem State.modNode_parts (s : State) (k : Nat) (f : Node → Node) : (s.modNode k f).parts = s.parts := rfl
@[simp] theorem State.modNode_warps (s : State) (k : Nat) (f : Node → Node) : (s.modNode k f).warps = s.warps := rfl
@[simp] theorem State.modNode_copies (s : State) (k : Nat) (f : Node → Node) : (s.modNode k f).copies = s.copies := rfl
@[simp] theorem State.modNode_bins (s : State) (k : Nat) (f : Node → Node) : (s.modNode k f).bins = s.bins := rfl
@[simp] theorem State.modNode_released (s : State) (k : Nat) (f : Node → Node) : (s.modNode k f).released = s.released := rfl
@[simp] theorem State.modNode_groups (s : State) (k : Nat) (f : Node → Node) : (s.modNode k f).groups = s.groups := rfl
@[simp] theorem State.modNode_collectives (s : State) (k : Nat) (f : Node → Node) : (s.modNode k f).collectives = s.collectives := rfl
@[simp] theorem State.modNode_insts (s : State) (k : Nat) (f : Node → Node) : (s.modNode k f).insts = s.insts := rfl
@[simp] theorem State.modNode_handOvers (s : State) (k : Nat) (f : Node → Node) : (s.modNode k f).handOvers = s.handOvers := rfl
@[simp] theorem State.modNode_deltas (s : State) (k : Nat) (f : Node → Node) : (s.modNode k f).deltas = s.deltas := rfl
@[simp] theorem State.modNode_tshape (s : State) (k : Nat) (f : Node → Node) : (s.modNode k f).tshape = s.tshape := rfl
@[simp] theorem State.modNode_engine (s : State) (k : Nat) (f : Node → Node) : (s.modNode k f).engine = s.engine := rfl

/-! ## modInst -/

@[simp] theorem State.modInst_agenda (s : State) (k : Nat) (f : Inst → Inst) : (s.modInst k f).agenda = s.agenda := rfl
@[simp] theorem State.modInst_agent (s : State) (k : Nat) (f : Inst → Inst) : (s.modInst k f).agent = s.agent := rfl
@[simp] theorem State.modInst_choices (s : State) (k : Nat) (f : Inst → Inst) : (s.modInst k f).choices = s.choices := rfl
@[simp] theorem State.modInst_nextId (s : State) (k : Nat) (f : Inst → Inst) : (s.modInst k f).nextId = s.nextId := rfl
@[simp] theorem State.modInst_gtime (s : State) (k : Nat) (f : Inst → Inst) : (s.modInst k f).gtime = s.gtime := rfl
@[simp] theorem State.modInst_mem (s : State) (k : Nat) (f : Inst → Inst) : (s.modInst k f).mem = s.mem := rfl
@[simp] theorem State.modInst_bad (s : State) (k : Nat) (f : Inst → Inst) : (s.modInst k f).bad = s.bad := rfl
@[simp] theorem State.modInst_poison (s : State) (k : Nat) (f : Inst → Inst) : (s.modInst k f).poison = s.poison := rfl
@[simp] theorem State.modInst_flips (s : State) (k : Nat) (f : Inst → Inst) : (s.modInst k f).flips = s.flips := rfl
@[simp] theorem State.modInst_merging (s : State) (k : Nat) (f : Inst → Inst) : (s.modInst k f).merging = s.merging := rfl
@[simp] theorem State.modInst_reported (s : State) (k : Nat) (f : Inst → Inst) : (s.modInst k f).reported = s.reported := rfl
@[simp] theorem State.modInst_tlb (s : State) (k : Nat) (f : Inst → Inst) : (s.modInst k f).tlb = s.tlb := rfl
@[simp] theorem State.modInst_access (s : State) (k : Nat) (f : Inst → Inst) : (s.modInst k f).access = s.access := rfl
@[simp] theorem State.modInst_accessNew (s : State) (k : Nat) (f : Inst → Inst) : (s.modInst k f).accessNew = s.accessNew := rfl
@[simp] theorem State.modInst_counterTable (s : State) (k : Nat) (f : Inst → Inst) : (s.modInst k f).counterTable = s.counterTable := rfl
@[simp] theorem State.modInst_counterThreshold (s : State) (k : Nat) (f : Inst → Inst) : (s.modInst k f).counterThreshold = s.counterThreshold := rfl
@[simp] theorem State.modInst_ringUnread (s : State) (k : Nat) (f : Inst → Inst) : (s.modInst k f).ringUnread = s.ringUnread := rfl
@[simp] theorem State.modInst_ringLost (s : State) (k : Nat) (f : Inst → Inst) : (s.modInst k f).ringLost = s.ringLost := rfl
@[simp] theorem State.modInst_windows (s : State) (k : Nat) (f : Inst → Inst) : (s.modInst k f).windows = s.windows := rfl
@[simp] theorem State.modInst_queue (s : State) (k : Nat) (f : Inst → Inst) : (s.modInst k f).queue = s.queue := rfl
@[simp] theorem State.modInst_deferred (s : State) (k : Nat) (f : Inst → Inst) : (s.modInst k f).deferred = s.deferred := rfl
@[simp] theorem State.modInst_journal (s : State) (k : Nat) (f : Inst → Inst) : (s.modInst k f).journal = s.journal := rfl
@[simp] theorem State.modInst_nextSeq (s : State) (k : Nat) (f : Inst → Inst) : (s.modInst k f).nextSeq = s.nextSeq := rfl
@[simp] theorem State.modInst_wbase (s : State) (k : Nat) (f : Inst → Inst) : (s.modInst k f).wbase = s.wbase := rfl
@[simp] theorem State.modInst_msix (s : State) (k : Nat) (f : Inst → Inst) : (s.modInst k f).msix = s.msix := rfl
@[simp] theorem State.modInst_reply (s : State) (k : Nat) (f : Inst → Inst) : (s.modInst k f).reply = s.reply := rfl
@[simp] theorem State.modInst_booted (s : State) (k : Nat) (f : Inst → Inst) : (s.modInst k f).booted = s.booted := rfl
@[simp] theorem State.modInst_measure (s : State) (k : Nat) (f : Inst → Inst) : (s.modInst k f).measure = s.measure := rfl
@[simp] theorem State.modInst_floors (s : State) (k : Nat) (f : Inst → Inst) : (s.modInst k f).floors = s.floors := rfl
@[simp] theorem State.modInst_fieldDigest (s : State) (k : Nat) (f : Inst → Inst) : (s.modInst k f).fieldDigest = s.fieldDigest := rfl
@[simp] theorem State.modInst_outOfMap (s : State) (k : Nat) (f : Inst → Inst) : (s.modInst k f).outOfMap = s.outOfMap := rfl
@[simp] theorem State.modInst_mapEpoch (s : State) (k : Nat) (f : Inst → Inst) : (s.modInst k f).mapEpoch = s.mapEpoch := rfl
@[simp] theorem State.modInst_counters (s : State) (k : Nat) (f : Inst → Inst) : (s.modInst k f).counters = s.counters := rfl
@[simp] theorem State.modInst_selects (s : State) (k : Nat) (f : Inst → Inst) : (s.modInst k f).selects = s.selects := rfl
@[simp] theorem State.modInst_cap (s : State) (k : Nat) (f : Inst → Inst) : (s.modInst k f).cap = s.cap := rfl
@[simp] theorem State.modInst_ceilings (s : State) (k : Nat) (f : Inst → Inst) : (s.modInst k f).ceilings = s.ceilings := rfl
@[simp] theorem State.modInst_corePoints (s : State) (k : Nat) (f : Inst → Inst) : (s.modInst k f).corePoints = s.corePoints := rfl
@[simp] theorem State.modInst_stackPoints (s : State) (k : Nat) (f : Inst → Inst) : (s.modInst k f).stackPoints = s.stackPoints := rfl
@[simp] theorem State.modInst_dieClk (s : State) (k : Nat) (f : Inst → Inst) : (s.modInst k f).dieClk = s.dieClk := rfl
@[simp] theorem State.modInst_stackClk (s : State) (k : Nat) (f : Inst → Inst) : (s.modInst k f).stackClk = s.stackClk := rfl
@[simp] theorem State.modInst_loam (s : State) (k : Nat) (f : Inst → Inst) : (s.modInst k f).loam = s.loam := rfl
@[simp] theorem State.modInst_cxl (s : State) (k : Nat) (f : Inst → Inst) : (s.modInst k f).cxl = s.cxl := rfl
@[simp] theorem State.modInst_ctxs (s : State) (k : Nat) (f : Inst → Inst) : (s.modInst k f).ctxs = s.ctxs := rfl
@[simp] theorem State.modInst_running (s : State) (k : Nat) (f : Inst → Inst) : (s.modInst k f).running = s.running := rfl
@[simp] theorem State.modInst_armed (s : State) (k : Nat) (f : Inst → Inst) : (s.modInst k f).armed = s.armed := rfl
@[simp] theorem State.modInst_purges (s : State) (k : Nat) (f : Inst → Inst) : (s.modInst k f).purges = s.purges := rfl
@[simp] theorem State.modInst_migration (s : State) (k : Nat) (f : Inst → Inst) : (s.modInst k f).migration = s.migration := rfl
@[simp] theorem State.modInst_cores (s : State) (k : Nat) (f : Inst → Inst) : (s.modInst k f).cores = s.cores := rfl
@[simp] theorem State.modInst_newestFirst (s : State) (k : Nat) (f : Inst → Inst) : (s.modInst k f).newestFirst = s.newestFirst := rfl
@[simp] theorem State.modInst_cache (s : State) (k : Nat) (f : Inst → Inst) : (s.modInst k f).cache = s.cache := rfl
@[simp] theorem State.modInst_nodes (s : State) (k : Nat) (f : Inst → Inst) : (s.modInst k f).nodes = s.nodes := rfl
@[simp] theorem State.modInst_blocks (s : State) (k : Nat) (f : Inst → Inst) : (s.modInst k f).blocks = s.blocks := rfl
@[simp] theorem State.modInst_parts (s : State) (k : Nat) (f : Inst → Inst) : (s.modInst k f).parts = s.parts := rfl
@[simp] theorem State.modInst_warps (s : State) (k : Nat) (f : Inst → Inst) : (s.modInst k f).warps = s.warps := rfl
@[simp] theorem State.modInst_copies (s : State) (k : Nat) (f : Inst → Inst) : (s.modInst k f).copies = s.copies := rfl
@[simp] theorem State.modInst_bins (s : State) (k : Nat) (f : Inst → Inst) : (s.modInst k f).bins = s.bins := rfl
@[simp] theorem State.modInst_released (s : State) (k : Nat) (f : Inst → Inst) : (s.modInst k f).released = s.released := rfl
@[simp] theorem State.modInst_groups (s : State) (k : Nat) (f : Inst → Inst) : (s.modInst k f).groups = s.groups := rfl
@[simp] theorem State.modInst_collectives (s : State) (k : Nat) (f : Inst → Inst) : (s.modInst k f).collectives = s.collectives := rfl
@[simp] theorem State.modInst_insts (s : State) (k : Nat) (f : Inst → Inst) : (s.modInst k f).insts = tmod s.insts k f := rfl
@[simp] theorem State.modInst_handOvers (s : State) (k : Nat) (f : Inst → Inst) : (s.modInst k f).handOvers = s.handOvers := rfl
@[simp] theorem State.modInst_deltas (s : State) (k : Nat) (f : Inst → Inst) : (s.modInst k f).deltas = s.deltas := rfl
@[simp] theorem State.modInst_tshape (s : State) (k : Nat) (f : Inst → Inst) : (s.modInst k f).tshape = s.tshape := rfl
@[simp] theorem State.modInst_engine (s : State) (k : Nat) (f : Inst → Inst) : (s.modInst k f).engine = s.engine := rfl

/-! ## modGroup -/

@[simp] theorem State.modGroup_agenda (s : State) (k : Nat) (f : Group → Group) : (s.modGroup k f).agenda = s.agenda := rfl
@[simp] theorem State.modGroup_agent (s : State) (k : Nat) (f : Group → Group) : (s.modGroup k f).agent = s.agent := rfl
@[simp] theorem State.modGroup_choices (s : State) (k : Nat) (f : Group → Group) : (s.modGroup k f).choices = s.choices := rfl
@[simp] theorem State.modGroup_nextId (s : State) (k : Nat) (f : Group → Group) : (s.modGroup k f).nextId = s.nextId := rfl
@[simp] theorem State.modGroup_gtime (s : State) (k : Nat) (f : Group → Group) : (s.modGroup k f).gtime = s.gtime := rfl
@[simp] theorem State.modGroup_mem (s : State) (k : Nat) (f : Group → Group) : (s.modGroup k f).mem = s.mem := rfl
@[simp] theorem State.modGroup_bad (s : State) (k : Nat) (f : Group → Group) : (s.modGroup k f).bad = s.bad := rfl
@[simp] theorem State.modGroup_poison (s : State) (k : Nat) (f : Group → Group) : (s.modGroup k f).poison = s.poison := rfl
@[simp] theorem State.modGroup_flips (s : State) (k : Nat) (f : Group → Group) : (s.modGroup k f).flips = s.flips := rfl
@[simp] theorem State.modGroup_merging (s : State) (k : Nat) (f : Group → Group) : (s.modGroup k f).merging = s.merging := rfl
@[simp] theorem State.modGroup_reported (s : State) (k : Nat) (f : Group → Group) : (s.modGroup k f).reported = s.reported := rfl
@[simp] theorem State.modGroup_tlb (s : State) (k : Nat) (f : Group → Group) : (s.modGroup k f).tlb = s.tlb := rfl
@[simp] theorem State.modGroup_access (s : State) (k : Nat) (f : Group → Group) : (s.modGroup k f).access = s.access := rfl
@[simp] theorem State.modGroup_accessNew (s : State) (k : Nat) (f : Group → Group) : (s.modGroup k f).accessNew = s.accessNew := rfl
@[simp] theorem State.modGroup_counterTable (s : State) (k : Nat) (f : Group → Group) : (s.modGroup k f).counterTable = s.counterTable := rfl
@[simp] theorem State.modGroup_counterThreshold (s : State) (k : Nat) (f : Group → Group) : (s.modGroup k f).counterThreshold = s.counterThreshold := rfl
@[simp] theorem State.modGroup_ringUnread (s : State) (k : Nat) (f : Group → Group) : (s.modGroup k f).ringUnread = s.ringUnread := rfl
@[simp] theorem State.modGroup_ringLost (s : State) (k : Nat) (f : Group → Group) : (s.modGroup k f).ringLost = s.ringLost := rfl
@[simp] theorem State.modGroup_windows (s : State) (k : Nat) (f : Group → Group) : (s.modGroup k f).windows = s.windows := rfl
@[simp] theorem State.modGroup_queue (s : State) (k : Nat) (f : Group → Group) : (s.modGroup k f).queue = s.queue := rfl
@[simp] theorem State.modGroup_deferred (s : State) (k : Nat) (f : Group → Group) : (s.modGroup k f).deferred = s.deferred := rfl
@[simp] theorem State.modGroup_journal (s : State) (k : Nat) (f : Group → Group) : (s.modGroup k f).journal = s.journal := rfl
@[simp] theorem State.modGroup_nextSeq (s : State) (k : Nat) (f : Group → Group) : (s.modGroup k f).nextSeq = s.nextSeq := rfl
@[simp] theorem State.modGroup_wbase (s : State) (k : Nat) (f : Group → Group) : (s.modGroup k f).wbase = s.wbase := rfl
@[simp] theorem State.modGroup_msix (s : State) (k : Nat) (f : Group → Group) : (s.modGroup k f).msix = s.msix := rfl
@[simp] theorem State.modGroup_reply (s : State) (k : Nat) (f : Group → Group) : (s.modGroup k f).reply = s.reply := rfl
@[simp] theorem State.modGroup_booted (s : State) (k : Nat) (f : Group → Group) : (s.modGroup k f).booted = s.booted := rfl
@[simp] theorem State.modGroup_measure (s : State) (k : Nat) (f : Group → Group) : (s.modGroup k f).measure = s.measure := rfl
@[simp] theorem State.modGroup_floors (s : State) (k : Nat) (f : Group → Group) : (s.modGroup k f).floors = s.floors := rfl
@[simp] theorem State.modGroup_fieldDigest (s : State) (k : Nat) (f : Group → Group) : (s.modGroup k f).fieldDigest = s.fieldDigest := rfl
@[simp] theorem State.modGroup_outOfMap (s : State) (k : Nat) (f : Group → Group) : (s.modGroup k f).outOfMap = s.outOfMap := rfl
@[simp] theorem State.modGroup_mapEpoch (s : State) (k : Nat) (f : Group → Group) : (s.modGroup k f).mapEpoch = s.mapEpoch := rfl
@[simp] theorem State.modGroup_counters (s : State) (k : Nat) (f : Group → Group) : (s.modGroup k f).counters = s.counters := rfl
@[simp] theorem State.modGroup_selects (s : State) (k : Nat) (f : Group → Group) : (s.modGroup k f).selects = s.selects := rfl
@[simp] theorem State.modGroup_cap (s : State) (k : Nat) (f : Group → Group) : (s.modGroup k f).cap = s.cap := rfl
@[simp] theorem State.modGroup_ceilings (s : State) (k : Nat) (f : Group → Group) : (s.modGroup k f).ceilings = s.ceilings := rfl
@[simp] theorem State.modGroup_corePoints (s : State) (k : Nat) (f : Group → Group) : (s.modGroup k f).corePoints = s.corePoints := rfl
@[simp] theorem State.modGroup_stackPoints (s : State) (k : Nat) (f : Group → Group) : (s.modGroup k f).stackPoints = s.stackPoints := rfl
@[simp] theorem State.modGroup_dieClk (s : State) (k : Nat) (f : Group → Group) : (s.modGroup k f).dieClk = s.dieClk := rfl
@[simp] theorem State.modGroup_stackClk (s : State) (k : Nat) (f : Group → Group) : (s.modGroup k f).stackClk = s.stackClk := rfl
@[simp] theorem State.modGroup_loam (s : State) (k : Nat) (f : Group → Group) : (s.modGroup k f).loam = s.loam := rfl
@[simp] theorem State.modGroup_cxl (s : State) (k : Nat) (f : Group → Group) : (s.modGroup k f).cxl = s.cxl := rfl
@[simp] theorem State.modGroup_ctxs (s : State) (k : Nat) (f : Group → Group) : (s.modGroup k f).ctxs = s.ctxs := rfl
@[simp] theorem State.modGroup_running (s : State) (k : Nat) (f : Group → Group) : (s.modGroup k f).running = s.running := rfl
@[simp] theorem State.modGroup_armed (s : State) (k : Nat) (f : Group → Group) : (s.modGroup k f).armed = s.armed := rfl
@[simp] theorem State.modGroup_purges (s : State) (k : Nat) (f : Group → Group) : (s.modGroup k f).purges = s.purges := rfl
@[simp] theorem State.modGroup_migration (s : State) (k : Nat) (f : Group → Group) : (s.modGroup k f).migration = s.migration := rfl
@[simp] theorem State.modGroup_cores (s : State) (k : Nat) (f : Group → Group) : (s.modGroup k f).cores = s.cores := rfl
@[simp] theorem State.modGroup_newestFirst (s : State) (k : Nat) (f : Group → Group) : (s.modGroup k f).newestFirst = s.newestFirst := rfl
@[simp] theorem State.modGroup_cache (s : State) (k : Nat) (f : Group → Group) : (s.modGroup k f).cache = s.cache := rfl
@[simp] theorem State.modGroup_nodes (s : State) (k : Nat) (f : Group → Group) : (s.modGroup k f).nodes = s.nodes := rfl
@[simp] theorem State.modGroup_blocks (s : State) (k : Nat) (f : Group → Group) : (s.modGroup k f).blocks = s.blocks := rfl
@[simp] theorem State.modGroup_parts (s : State) (k : Nat) (f : Group → Group) : (s.modGroup k f).parts = s.parts := rfl
@[simp] theorem State.modGroup_warps (s : State) (k : Nat) (f : Group → Group) : (s.modGroup k f).warps = s.warps := rfl
@[simp] theorem State.modGroup_copies (s : State) (k : Nat) (f : Group → Group) : (s.modGroup k f).copies = s.copies := rfl
@[simp] theorem State.modGroup_bins (s : State) (k : Nat) (f : Group → Group) : (s.modGroup k f).bins = s.bins := rfl
@[simp] theorem State.modGroup_released (s : State) (k : Nat) (f : Group → Group) : (s.modGroup k f).released = s.released := rfl
@[simp] theorem State.modGroup_groups (s : State) (k : Nat) (f : Group → Group) : (s.modGroup k f).groups = tmod s.groups k f := rfl
@[simp] theorem State.modGroup_collectives (s : State) (k : Nat) (f : Group → Group) : (s.modGroup k f).collectives = s.collectives := rfl
@[simp] theorem State.modGroup_insts (s : State) (k : Nat) (f : Group → Group) : (s.modGroup k f).insts = s.insts := rfl
@[simp] theorem State.modGroup_handOvers (s : State) (k : Nat) (f : Group → Group) : (s.modGroup k f).handOvers = s.handOvers := rfl
@[simp] theorem State.modGroup_deltas (s : State) (k : Nat) (f : Group → Group) : (s.modGroup k f).deltas = s.deltas := rfl
@[simp] theorem State.modGroup_tshape (s : State) (k : Nat) (f : Group → Group) : (s.modGroup k f).tshape = s.tshape := rfl
@[simp] theorem State.modGroup_engine (s : State) (k : Nat) (f : Group → Group) : (s.modGroup k f).engine = s.engine := rfl

/-! ## modCopy -/

@[simp] theorem State.modCopy_agenda (s : State) (k : Nat) (f : Copy → Copy) : (s.modCopy k f).agenda = s.agenda := rfl
@[simp] theorem State.modCopy_agent (s : State) (k : Nat) (f : Copy → Copy) : (s.modCopy k f).agent = s.agent := rfl
@[simp] theorem State.modCopy_choices (s : State) (k : Nat) (f : Copy → Copy) : (s.modCopy k f).choices = s.choices := rfl
@[simp] theorem State.modCopy_nextId (s : State) (k : Nat) (f : Copy → Copy) : (s.modCopy k f).nextId = s.nextId := rfl
@[simp] theorem State.modCopy_gtime (s : State) (k : Nat) (f : Copy → Copy) : (s.modCopy k f).gtime = s.gtime := rfl
@[simp] theorem State.modCopy_mem (s : State) (k : Nat) (f : Copy → Copy) : (s.modCopy k f).mem = s.mem := rfl
@[simp] theorem State.modCopy_bad (s : State) (k : Nat) (f : Copy → Copy) : (s.modCopy k f).bad = s.bad := rfl
@[simp] theorem State.modCopy_poison (s : State) (k : Nat) (f : Copy → Copy) : (s.modCopy k f).poison = s.poison := rfl
@[simp] theorem State.modCopy_flips (s : State) (k : Nat) (f : Copy → Copy) : (s.modCopy k f).flips = s.flips := rfl
@[simp] theorem State.modCopy_merging (s : State) (k : Nat) (f : Copy → Copy) : (s.modCopy k f).merging = s.merging := rfl
@[simp] theorem State.modCopy_reported (s : State) (k : Nat) (f : Copy → Copy) : (s.modCopy k f).reported = s.reported := rfl
@[simp] theorem State.modCopy_tlb (s : State) (k : Nat) (f : Copy → Copy) : (s.modCopy k f).tlb = s.tlb := rfl
@[simp] theorem State.modCopy_access (s : State) (k : Nat) (f : Copy → Copy) : (s.modCopy k f).access = s.access := rfl
@[simp] theorem State.modCopy_accessNew (s : State) (k : Nat) (f : Copy → Copy) : (s.modCopy k f).accessNew = s.accessNew := rfl
@[simp] theorem State.modCopy_counterTable (s : State) (k : Nat) (f : Copy → Copy) : (s.modCopy k f).counterTable = s.counterTable := rfl
@[simp] theorem State.modCopy_counterThreshold (s : State) (k : Nat) (f : Copy → Copy) : (s.modCopy k f).counterThreshold = s.counterThreshold := rfl
@[simp] theorem State.modCopy_ringUnread (s : State) (k : Nat) (f : Copy → Copy) : (s.modCopy k f).ringUnread = s.ringUnread := rfl
@[simp] theorem State.modCopy_ringLost (s : State) (k : Nat) (f : Copy → Copy) : (s.modCopy k f).ringLost = s.ringLost := rfl
@[simp] theorem State.modCopy_windows (s : State) (k : Nat) (f : Copy → Copy) : (s.modCopy k f).windows = s.windows := rfl
@[simp] theorem State.modCopy_queue (s : State) (k : Nat) (f : Copy → Copy) : (s.modCopy k f).queue = s.queue := rfl
@[simp] theorem State.modCopy_deferred (s : State) (k : Nat) (f : Copy → Copy) : (s.modCopy k f).deferred = s.deferred := rfl
@[simp] theorem State.modCopy_journal (s : State) (k : Nat) (f : Copy → Copy) : (s.modCopy k f).journal = s.journal := rfl
@[simp] theorem State.modCopy_nextSeq (s : State) (k : Nat) (f : Copy → Copy) : (s.modCopy k f).nextSeq = s.nextSeq := rfl
@[simp] theorem State.modCopy_wbase (s : State) (k : Nat) (f : Copy → Copy) : (s.modCopy k f).wbase = s.wbase := rfl
@[simp] theorem State.modCopy_msix (s : State) (k : Nat) (f : Copy → Copy) : (s.modCopy k f).msix = s.msix := rfl
@[simp] theorem State.modCopy_reply (s : State) (k : Nat) (f : Copy → Copy) : (s.modCopy k f).reply = s.reply := rfl
@[simp] theorem State.modCopy_booted (s : State) (k : Nat) (f : Copy → Copy) : (s.modCopy k f).booted = s.booted := rfl
@[simp] theorem State.modCopy_measure (s : State) (k : Nat) (f : Copy → Copy) : (s.modCopy k f).measure = s.measure := rfl
@[simp] theorem State.modCopy_floors (s : State) (k : Nat) (f : Copy → Copy) : (s.modCopy k f).floors = s.floors := rfl
@[simp] theorem State.modCopy_fieldDigest (s : State) (k : Nat) (f : Copy → Copy) : (s.modCopy k f).fieldDigest = s.fieldDigest := rfl
@[simp] theorem State.modCopy_outOfMap (s : State) (k : Nat) (f : Copy → Copy) : (s.modCopy k f).outOfMap = s.outOfMap := rfl
@[simp] theorem State.modCopy_mapEpoch (s : State) (k : Nat) (f : Copy → Copy) : (s.modCopy k f).mapEpoch = s.mapEpoch := rfl
@[simp] theorem State.modCopy_counters (s : State) (k : Nat) (f : Copy → Copy) : (s.modCopy k f).counters = s.counters := rfl
@[simp] theorem State.modCopy_selects (s : State) (k : Nat) (f : Copy → Copy) : (s.modCopy k f).selects = s.selects := rfl
@[simp] theorem State.modCopy_cap (s : State) (k : Nat) (f : Copy → Copy) : (s.modCopy k f).cap = s.cap := rfl
@[simp] theorem State.modCopy_ceilings (s : State) (k : Nat) (f : Copy → Copy) : (s.modCopy k f).ceilings = s.ceilings := rfl
@[simp] theorem State.modCopy_corePoints (s : State) (k : Nat) (f : Copy → Copy) : (s.modCopy k f).corePoints = s.corePoints := rfl
@[simp] theorem State.modCopy_stackPoints (s : State) (k : Nat) (f : Copy → Copy) : (s.modCopy k f).stackPoints = s.stackPoints := rfl
@[simp] theorem State.modCopy_dieClk (s : State) (k : Nat) (f : Copy → Copy) : (s.modCopy k f).dieClk = s.dieClk := rfl
@[simp] theorem State.modCopy_stackClk (s : State) (k : Nat) (f : Copy → Copy) : (s.modCopy k f).stackClk = s.stackClk := rfl
@[simp] theorem State.modCopy_loam (s : State) (k : Nat) (f : Copy → Copy) : (s.modCopy k f).loam = s.loam := rfl
@[simp] theorem State.modCopy_cxl (s : State) (k : Nat) (f : Copy → Copy) : (s.modCopy k f).cxl = s.cxl := rfl
@[simp] theorem State.modCopy_ctxs (s : State) (k : Nat) (f : Copy → Copy) : (s.modCopy k f).ctxs = s.ctxs := rfl
@[simp] theorem State.modCopy_running (s : State) (k : Nat) (f : Copy → Copy) : (s.modCopy k f).running = s.running := rfl
@[simp] theorem State.modCopy_armed (s : State) (k : Nat) (f : Copy → Copy) : (s.modCopy k f).armed = s.armed := rfl
@[simp] theorem State.modCopy_purges (s : State) (k : Nat) (f : Copy → Copy) : (s.modCopy k f).purges = s.purges := rfl
@[simp] theorem State.modCopy_migration (s : State) (k : Nat) (f : Copy → Copy) : (s.modCopy k f).migration = s.migration := rfl
@[simp] theorem State.modCopy_cores (s : State) (k : Nat) (f : Copy → Copy) : (s.modCopy k f).cores = s.cores := rfl
@[simp] theorem State.modCopy_newestFirst (s : State) (k : Nat) (f : Copy → Copy) : (s.modCopy k f).newestFirst = s.newestFirst := rfl
@[simp] theorem State.modCopy_cache (s : State) (k : Nat) (f : Copy → Copy) : (s.modCopy k f).cache = s.cache := rfl
@[simp] theorem State.modCopy_nodes (s : State) (k : Nat) (f : Copy → Copy) : (s.modCopy k f).nodes = s.nodes := rfl
@[simp] theorem State.modCopy_blocks (s : State) (k : Nat) (f : Copy → Copy) : (s.modCopy k f).blocks = s.blocks := rfl
@[simp] theorem State.modCopy_parts (s : State) (k : Nat) (f : Copy → Copy) : (s.modCopy k f).parts = s.parts := rfl
@[simp] theorem State.modCopy_warps (s : State) (k : Nat) (f : Copy → Copy) : (s.modCopy k f).warps = s.warps := rfl
@[simp] theorem State.modCopy_copies (s : State) (k : Nat) (f : Copy → Copy) : (s.modCopy k f).copies = tmod s.copies k f := rfl
@[simp] theorem State.modCopy_bins (s : State) (k : Nat) (f : Copy → Copy) : (s.modCopy k f).bins = s.bins := rfl
@[simp] theorem State.modCopy_released (s : State) (k : Nat) (f : Copy → Copy) : (s.modCopy k f).released = s.released := rfl
@[simp] theorem State.modCopy_groups (s : State) (k : Nat) (f : Copy → Copy) : (s.modCopy k f).groups = s.groups := rfl
@[simp] theorem State.modCopy_collectives (s : State) (k : Nat) (f : Copy → Copy) : (s.modCopy k f).collectives = s.collectives := rfl
@[simp] theorem State.modCopy_insts (s : State) (k : Nat) (f : Copy → Copy) : (s.modCopy k f).insts = s.insts := rfl
@[simp] theorem State.modCopy_handOvers (s : State) (k : Nat) (f : Copy → Copy) : (s.modCopy k f).handOvers = s.handOvers := rfl
@[simp] theorem State.modCopy_deltas (s : State) (k : Nat) (f : Copy → Copy) : (s.modCopy k f).deltas = s.deltas := rfl
@[simp] theorem State.modCopy_tshape (s : State) (k : Nat) (f : Copy → Copy) : (s.modCopy k f).tshape = s.tshape := rfl
@[simp] theorem State.modCopy_engine (s : State) (k : Nat) (f : Copy → Copy) : (s.modCopy k f).engine = s.engine := rfl

/-! ## clearMarks -/

@[simp] theorem State.clearMarks_agenda (s : State) (a n : Nat) : (s.clearMarks a n).agenda = s.agenda := rfl
@[simp] theorem State.clearMarks_agent (s : State) (a n : Nat) : (s.clearMarks a n).agent = s.agent := rfl
@[simp] theorem State.clearMarks_choices (s : State) (a n : Nat) : (s.clearMarks a n).choices = s.choices := rfl
@[simp] theorem State.clearMarks_nextId (s : State) (a n : Nat) : (s.clearMarks a n).nextId = s.nextId := rfl
@[simp] theorem State.clearMarks_gtime (s : State) (a n : Nat) : (s.clearMarks a n).gtime = s.gtime := rfl
@[simp] theorem State.clearMarks_mem (s : State) (a n : Nat) : (s.clearMarks a n).mem = s.mem := rfl
@[simp] theorem State.clearMarks_flips (s : State) (a n : Nat) : (s.clearMarks a n).flips = s.flips := rfl
@[simp] theorem State.clearMarks_merging (s : State) (a n : Nat) : (s.clearMarks a n).merging = s.merging := rfl
@[simp] theorem State.clearMarks_tlb (s : State) (a n : Nat) : (s.clearMarks a n).tlb = s.tlb := rfl
@[simp] theorem State.clearMarks_access (s : State) (a n : Nat) : (s.clearMarks a n).access = s.access := rfl
@[simp] theorem State.clearMarks_accessNew (s : State) (a n : Nat) : (s.clearMarks a n).accessNew = s.accessNew := rfl
@[simp] theorem State.clearMarks_counterTable (s : State) (a n : Nat) : (s.clearMarks a n).counterTable = s.counterTable := rfl
@[simp] theorem State.clearMarks_counterThreshold (s : State) (a n : Nat) : (s.clearMarks a n).counterThreshold = s.counterThreshold := rfl
@[simp] theorem State.clearMarks_ringUnread (s : State) (a n : Nat) : (s.clearMarks a n).ringUnread = s.ringUnread := rfl
@[simp] theorem State.clearMarks_ringLost (s : State) (a n : Nat) : (s.clearMarks a n).ringLost = s.ringLost := rfl
@[simp] theorem State.clearMarks_windows (s : State) (a n : Nat) : (s.clearMarks a n).windows = s.windows := rfl
@[simp] theorem State.clearMarks_queue (s : State) (a n : Nat) : (s.clearMarks a n).queue = s.queue := rfl
@[simp] theorem State.clearMarks_deferred (s : State) (a n : Nat) : (s.clearMarks a n).deferred = s.deferred := rfl
@[simp] theorem State.clearMarks_journal (s : State) (a n : Nat) : (s.clearMarks a n).journal = s.journal := rfl
@[simp] theorem State.clearMarks_nextSeq (s : State) (a n : Nat) : (s.clearMarks a n).nextSeq = s.nextSeq := rfl
@[simp] theorem State.clearMarks_wbase (s : State) (a n : Nat) : (s.clearMarks a n).wbase = s.wbase := rfl
@[simp] theorem State.clearMarks_msix (s : State) (a n : Nat) : (s.clearMarks a n).msix = s.msix := rfl
@[simp] theorem State.clearMarks_reply (s : State) (a n : Nat) : (s.clearMarks a n).reply = s.reply := rfl
@[simp] theorem State.clearMarks_booted (s : State) (a n : Nat) : (s.clearMarks a n).booted = s.booted := rfl
@[simp] theorem State.clearMarks_measure (s : State) (a n : Nat) : (s.clearMarks a n).measure = s.measure := rfl
@[simp] theorem State.clearMarks_floors (s : State) (a n : Nat) : (s.clearMarks a n).floors = s.floors := rfl
@[simp] theorem State.clearMarks_fieldDigest (s : State) (a n : Nat) : (s.clearMarks a n).fieldDigest = s.fieldDigest := rfl
@[simp] theorem State.clearMarks_outOfMap (s : State) (a n : Nat) : (s.clearMarks a n).outOfMap = s.outOfMap := rfl
@[simp] theorem State.clearMarks_mapEpoch (s : State) (a n : Nat) : (s.clearMarks a n).mapEpoch = s.mapEpoch := rfl
@[simp] theorem State.clearMarks_counters (s : State) (a n : Nat) : (s.clearMarks a n).counters = s.counters := rfl
@[simp] theorem State.clearMarks_selects (s : State) (a n : Nat) : (s.clearMarks a n).selects = s.selects := rfl
@[simp] theorem State.clearMarks_cap (s : State) (a n : Nat) : (s.clearMarks a n).cap = s.cap := rfl
@[simp] theorem State.clearMarks_ceilings (s : State) (a n : Nat) : (s.clearMarks a n).ceilings = s.ceilings := rfl
@[simp] theorem State.clearMarks_corePoints (s : State) (a n : Nat) : (s.clearMarks a n).corePoints = s.corePoints := rfl
@[simp] theorem State.clearMarks_stackPoints (s : State) (a n : Nat) : (s.clearMarks a n).stackPoints = s.stackPoints := rfl
@[simp] theorem State.clearMarks_dieClk (s : State) (a n : Nat) : (s.clearMarks a n).dieClk = s.dieClk := rfl
@[simp] theorem State.clearMarks_stackClk (s : State) (a n : Nat) : (s.clearMarks a n).stackClk = s.stackClk := rfl
@[simp] theorem State.clearMarks_loam (s : State) (a n : Nat) : (s.clearMarks a n).loam = s.loam := rfl
@[simp] theorem State.clearMarks_cxl (s : State) (a n : Nat) : (s.clearMarks a n).cxl = s.cxl := rfl
@[simp] theorem State.clearMarks_ctxs (s : State) (a n : Nat) : (s.clearMarks a n).ctxs = s.ctxs := rfl
@[simp] theorem State.clearMarks_running (s : State) (a n : Nat) : (s.clearMarks a n).running = s.running := rfl
@[simp] theorem State.clearMarks_armed (s : State) (a n : Nat) : (s.clearMarks a n).armed = s.armed := rfl
@[simp] theorem State.clearMarks_purges (s : State) (a n : Nat) : (s.clearMarks a n).purges = s.purges := rfl
@[simp] theorem State.clearMarks_migration (s : State) (a n : Nat) : (s.clearMarks a n).migration = s.migration := rfl
@[simp] theorem State.clearMarks_cores (s : State) (a n : Nat) : (s.clearMarks a n).cores = s.cores := rfl
@[simp] theorem State.clearMarks_newestFirst (s : State) (a n : Nat) : (s.clearMarks a n).newestFirst = s.newestFirst := rfl
@[simp] theorem State.clearMarks_cache (s : State) (a n : Nat) : (s.clearMarks a n).cache = s.cache := rfl
@[simp] theorem State.clearMarks_nodes (s : State) (a n : Nat) : (s.clearMarks a n).nodes = s.nodes := rfl
@[simp] theorem State.clearMarks_blocks (s : State) (a n : Nat) : (s.clearMarks a n).blocks = s.blocks := rfl
@[simp] theorem State.clearMarks_parts (s : State) (a n : Nat) : (s.clearMarks a n).parts = s.parts := rfl
@[simp] theorem State.clearMarks_warps (s : State) (a n : Nat) : (s.clearMarks a n).warps = s.warps := rfl
@[simp] theorem State.clearMarks_copies (s : State) (a n : Nat) : (s.clearMarks a n).copies = s.copies := rfl
@[simp] theorem State.clearMarks_bins (s : State) (a n : Nat) : (s.clearMarks a n).bins = s.bins := rfl
@[simp] theorem State.clearMarks_released (s : State) (a n : Nat) : (s.clearMarks a n).released = s.released := rfl
@[simp] theorem State.clearMarks_groups (s : State) (a n : Nat) : (s.clearMarks a n).groups = s.groups := rfl
@[simp] theorem State.clearMarks_collectives (s : State) (a n : Nat) : (s.clearMarks a n).collectives = s.collectives := rfl
@[simp] theorem State.clearMarks_insts (s : State) (a n : Nat) : (s.clearMarks a n).insts = s.insts := rfl
@[simp] theorem State.clearMarks_handOvers (s : State) (a n : Nat) : (s.clearMarks a n).handOvers = s.handOvers := rfl
@[simp] theorem State.clearMarks_deltas (s : State) (a n : Nat) : (s.clearMarks a n).deltas = s.deltas := rfl
@[simp] theorem State.clearMarks_tshape (s : State) (a n : Nat) : (s.clearMarks a n).tshape = s.tshape := rfl
@[simp] theorem State.clearMarks_engine (s : State) (a n : Nat) : (s.clearMarks a n).engine = s.engine := rfl

/-! ## bump and coreEvent -/

@[simp] theorem State.bump_agenda (s : State) (b n e k : Nat) : (s.bump b n e k).agenda = s.agenda := rfl
@[simp] theorem State.bump_agent (s : State) (b n e k : Nat) : (s.bump b n e k).agent = s.agent := rfl
@[simp] theorem State.bump_choices (s : State) (b n e k : Nat) : (s.bump b n e k).choices = s.choices := rfl
@[simp] theorem State.bump_nextId (s : State) (b n e k : Nat) : (s.bump b n e k).nextId = s.nextId := rfl
@[simp] theorem State.bump_gtime (s : State) (b n e k : Nat) : (s.bump b n e k).gtime = s.gtime := rfl
@[simp] theorem State.bump_mem (s : State) (b n e k : Nat) : (s.bump b n e k).mem = s.mem := rfl
@[simp] theorem State.bump_bad (s : State) (b n e k : Nat) : (s.bump b n e k).bad = s.bad := rfl
@[simp] theorem State.bump_poison (s : State) (b n e k : Nat) : (s.bump b n e k).poison = s.poison := rfl
@[simp] theorem State.bump_flips (s : State) (b n e k : Nat) : (s.bump b n e k).flips = s.flips := rfl
@[simp] theorem State.bump_merging (s : State) (b n e k : Nat) : (s.bump b n e k).merging = s.merging := rfl
@[simp] theorem State.bump_reported (s : State) (b n e k : Nat) : (s.bump b n e k).reported = s.reported := rfl
@[simp] theorem State.bump_tlb (s : State) (b n e k : Nat) : (s.bump b n e k).tlb = s.tlb := rfl
@[simp] theorem State.bump_access (s : State) (b n e k : Nat) : (s.bump b n e k).access = s.access := rfl
@[simp] theorem State.bump_accessNew (s : State) (b n e k : Nat) : (s.bump b n e k).accessNew = s.accessNew := rfl
@[simp] theorem State.bump_counterTable (s : State) (b n e k : Nat) : (s.bump b n e k).counterTable = s.counterTable := rfl
@[simp] theorem State.bump_counterThreshold (s : State) (b n e k : Nat) : (s.bump b n e k).counterThreshold = s.counterThreshold := rfl
@[simp] theorem State.bump_ringUnread (s : State) (b n e k : Nat) : (s.bump b n e k).ringUnread = s.ringUnread := rfl
@[simp] theorem State.bump_ringLost (s : State) (b n e k : Nat) : (s.bump b n e k).ringLost = s.ringLost := rfl
@[simp] theorem State.bump_windows (s : State) (b n e k : Nat) : (s.bump b n e k).windows = s.windows := rfl
@[simp] theorem State.bump_queue (s : State) (b n e k : Nat) : (s.bump b n e k).queue = s.queue := rfl
@[simp] theorem State.bump_deferred (s : State) (b n e k : Nat) : (s.bump b n e k).deferred = s.deferred := rfl
@[simp] theorem State.bump_journal (s : State) (b n e k : Nat) : (s.bump b n e k).journal = s.journal := rfl
@[simp] theorem State.bump_nextSeq (s : State) (b n e k : Nat) : (s.bump b n e k).nextSeq = s.nextSeq := rfl
@[simp] theorem State.bump_wbase (s : State) (b n e k : Nat) : (s.bump b n e k).wbase = s.wbase := rfl
@[simp] theorem State.bump_msix (s : State) (b n e k : Nat) : (s.bump b n e k).msix = s.msix := rfl
@[simp] theorem State.bump_reply (s : State) (b n e k : Nat) : (s.bump b n e k).reply = s.reply := rfl
@[simp] theorem State.bump_booted (s : State) (b n e k : Nat) : (s.bump b n e k).booted = s.booted := rfl
@[simp] theorem State.bump_measure (s : State) (b n e k : Nat) : (s.bump b n e k).measure = s.measure := rfl
@[simp] theorem State.bump_floors (s : State) (b n e k : Nat) : (s.bump b n e k).floors = s.floors := rfl
@[simp] theorem State.bump_fieldDigest (s : State) (b n e k : Nat) : (s.bump b n e k).fieldDigest = s.fieldDigest := rfl
@[simp] theorem State.bump_outOfMap (s : State) (b n e k : Nat) : (s.bump b n e k).outOfMap = s.outOfMap := rfl
@[simp] theorem State.bump_mapEpoch (s : State) (b n e k : Nat) : (s.bump b n e k).mapEpoch = s.mapEpoch := rfl
@[simp] theorem State.bump_selects (s : State) (b n e k : Nat) : (s.bump b n e k).selects = s.selects := rfl
@[simp] theorem State.bump_cap (s : State) (b n e k : Nat) : (s.bump b n e k).cap = s.cap := rfl
@[simp] theorem State.bump_ceilings (s : State) (b n e k : Nat) : (s.bump b n e k).ceilings = s.ceilings := rfl
@[simp] theorem State.bump_corePoints (s : State) (b n e k : Nat) : (s.bump b n e k).corePoints = s.corePoints := rfl
@[simp] theorem State.bump_stackPoints (s : State) (b n e k : Nat) : (s.bump b n e k).stackPoints = s.stackPoints := rfl
@[simp] theorem State.bump_dieClk (s : State) (b n e k : Nat) : (s.bump b n e k).dieClk = s.dieClk := rfl
@[simp] theorem State.bump_stackClk (s : State) (b n e k : Nat) : (s.bump b n e k).stackClk = s.stackClk := rfl
@[simp] theorem State.bump_loam (s : State) (b n e k : Nat) : (s.bump b n e k).loam = s.loam := rfl
@[simp] theorem State.bump_cxl (s : State) (b n e k : Nat) : (s.bump b n e k).cxl = s.cxl := rfl
@[simp] theorem State.bump_ctxs (s : State) (b n e k : Nat) : (s.bump b n e k).ctxs = s.ctxs := rfl
@[simp] theorem State.bump_running (s : State) (b n e k : Nat) : (s.bump b n e k).running = s.running := rfl
@[simp] theorem State.bump_armed (s : State) (b n e k : Nat) : (s.bump b n e k).armed = s.armed := rfl
@[simp] theorem State.bump_purges (s : State) (b n e k : Nat) : (s.bump b n e k).purges = s.purges := rfl
@[simp] theorem State.bump_migration (s : State) (b n e k : Nat) : (s.bump b n e k).migration = s.migration := rfl
@[simp] theorem State.bump_cores (s : State) (b n e k : Nat) : (s.bump b n e k).cores = s.cores := rfl
@[simp] theorem State.bump_newestFirst (s : State) (b n e k : Nat) : (s.bump b n e k).newestFirst = s.newestFirst := rfl
@[simp] theorem State.bump_cache (s : State) (b n e k : Nat) : (s.bump b n e k).cache = s.cache := rfl
@[simp] theorem State.bump_nodes (s : State) (b n e k : Nat) : (s.bump b n e k).nodes = s.nodes := rfl
@[simp] theorem State.bump_blocks (s : State) (b n e k : Nat) : (s.bump b n e k).blocks = s.blocks := rfl
@[simp] theorem State.bump_parts (s : State) (b n e k : Nat) : (s.bump b n e k).parts = s.parts := rfl
@[simp] theorem State.bump_warps (s : State) (b n e k : Nat) : (s.bump b n e k).warps = s.warps := rfl
@[simp] theorem State.bump_copies (s : State) (b n e k : Nat) : (s.bump b n e k).copies = s.copies := rfl
@[simp] theorem State.bump_bins (s : State) (b n e k : Nat) : (s.bump b n e k).bins = s.bins := rfl
@[simp] theorem State.bump_released (s : State) (b n e k : Nat) : (s.bump b n e k).released = s.released := rfl
@[simp] theorem State.bump_groups (s : State) (b n e k : Nat) : (s.bump b n e k).groups = s.groups := rfl
@[simp] theorem State.bump_collectives (s : State) (b n e k : Nat) : (s.bump b n e k).collectives = s.collectives := rfl
@[simp] theorem State.bump_insts (s : State) (b n e k : Nat) : (s.bump b n e k).insts = s.insts := rfl
@[simp] theorem State.bump_handOvers (s : State) (b n e k : Nat) : (s.bump b n e k).handOvers = s.handOvers := rfl
@[simp] theorem State.bump_deltas (s : State) (b n e k : Nat) : (s.bump b n e k).deltas = s.deltas := rfl
@[simp] theorem State.bump_tshape (s : State) (b n e k : Nat) : (s.bump b n e k).tshape = s.tshape := rfl
@[simp] theorem State.bump_engine (s : State) (b n e k : Nat) : (s.bump b n e k).engine = s.engine := rfl

@[simp] theorem State.coreEvent_agenda (s : State) (c e k : Nat) : (s.coreEvent c e k).agenda = s.agenda := by
  unfold State.coreEvent; split <;> rfl
@[simp] theorem State.coreEvent_agent (s : State) (c e k : Nat) : (s.coreEvent c e k).agent = s.agent := by
  unfold State.coreEvent; split <;> rfl
@[simp] theorem State.coreEvent_choices (s : State) (c e k : Nat) : (s.coreEvent c e k).choices = s.choices := by
  unfold State.coreEvent; split <;> rfl
@[simp] theorem State.coreEvent_nextId (s : State) (c e k : Nat) : (s.coreEvent c e k).nextId = s.nextId := by
  unfold State.coreEvent; split <;> rfl
@[simp] theorem State.coreEvent_gtime (s : State) (c e k : Nat) : (s.coreEvent c e k).gtime = s.gtime := by
  unfold State.coreEvent; split <;> rfl
@[simp] theorem State.coreEvent_mem (s : State) (c e k : Nat) : (s.coreEvent c e k).mem = s.mem := by
  unfold State.coreEvent; split <;> rfl
@[simp] theorem State.coreEvent_bad (s : State) (c e k : Nat) : (s.coreEvent c e k).bad = s.bad := by
  unfold State.coreEvent; split <;> rfl
@[simp] theorem State.coreEvent_poison (s : State) (c e k : Nat) : (s.coreEvent c e k).poison = s.poison := by
  unfold State.coreEvent; split <;> rfl
@[simp] theorem State.coreEvent_flips (s : State) (c e k : Nat) : (s.coreEvent c e k).flips = s.flips := by
  unfold State.coreEvent; split <;> rfl
@[simp] theorem State.coreEvent_merging (s : State) (c e k : Nat) : (s.coreEvent c e k).merging = s.merging := by
  unfold State.coreEvent; split <;> rfl
@[simp] theorem State.coreEvent_reported (s : State) (c e k : Nat) : (s.coreEvent c e k).reported = s.reported := by
  unfold State.coreEvent; split <;> rfl
@[simp] theorem State.coreEvent_tlb (s : State) (c e k : Nat) : (s.coreEvent c e k).tlb = s.tlb := by
  unfold State.coreEvent; split <;> rfl
@[simp] theorem State.coreEvent_access (s : State) (c e k : Nat) : (s.coreEvent c e k).access = s.access := by
  unfold State.coreEvent; split <;> rfl
@[simp] theorem State.coreEvent_accessNew (s : State) (c e k : Nat) : (s.coreEvent c e k).accessNew = s.accessNew := by
  unfold State.coreEvent; split <;> rfl
@[simp] theorem State.coreEvent_counterTable (s : State) (c e k : Nat) : (s.coreEvent c e k).counterTable = s.counterTable := by
  unfold State.coreEvent; split <;> rfl
@[simp] theorem State.coreEvent_counterThreshold (s : State) (c e k : Nat) : (s.coreEvent c e k).counterThreshold = s.counterThreshold := by
  unfold State.coreEvent; split <;> rfl
@[simp] theorem State.coreEvent_ringUnread (s : State) (c e k : Nat) : (s.coreEvent c e k).ringUnread = s.ringUnread := by
  unfold State.coreEvent; split <;> rfl
@[simp] theorem State.coreEvent_ringLost (s : State) (c e k : Nat) : (s.coreEvent c e k).ringLost = s.ringLost := by
  unfold State.coreEvent; split <;> rfl
@[simp] theorem State.coreEvent_windows (s : State) (c e k : Nat) : (s.coreEvent c e k).windows = s.windows := by
  unfold State.coreEvent; split <;> rfl
@[simp] theorem State.coreEvent_queue (s : State) (c e k : Nat) : (s.coreEvent c e k).queue = s.queue := by
  unfold State.coreEvent; split <;> rfl
@[simp] theorem State.coreEvent_deferred (s : State) (c e k : Nat) : (s.coreEvent c e k).deferred = s.deferred := by
  unfold State.coreEvent; split <;> rfl
@[simp] theorem State.coreEvent_journal (s : State) (c e k : Nat) : (s.coreEvent c e k).journal = s.journal := by
  unfold State.coreEvent; split <;> rfl
@[simp] theorem State.coreEvent_nextSeq (s : State) (c e k : Nat) : (s.coreEvent c e k).nextSeq = s.nextSeq := by
  unfold State.coreEvent; split <;> rfl
@[simp] theorem State.coreEvent_wbase (s : State) (c e k : Nat) : (s.coreEvent c e k).wbase = s.wbase := by
  unfold State.coreEvent; split <;> rfl
@[simp] theorem State.coreEvent_msix (s : State) (c e k : Nat) : (s.coreEvent c e k).msix = s.msix := by
  unfold State.coreEvent; split <;> rfl
@[simp] theorem State.coreEvent_reply (s : State) (c e k : Nat) : (s.coreEvent c e k).reply = s.reply := by
  unfold State.coreEvent; split <;> rfl
@[simp] theorem State.coreEvent_booted (s : State) (c e k : Nat) : (s.coreEvent c e k).booted = s.booted := by
  unfold State.coreEvent; split <;> rfl
@[simp] theorem State.coreEvent_measure (s : State) (c e k : Nat) : (s.coreEvent c e k).measure = s.measure := by
  unfold State.coreEvent; split <;> rfl
@[simp] theorem State.coreEvent_floors (s : State) (c e k : Nat) : (s.coreEvent c e k).floors = s.floors := by
  unfold State.coreEvent; split <;> rfl
@[simp] theorem State.coreEvent_fieldDigest (s : State) (c e k : Nat) : (s.coreEvent c e k).fieldDigest = s.fieldDigest := by
  unfold State.coreEvent; split <;> rfl
@[simp] theorem State.coreEvent_outOfMap (s : State) (c e k : Nat) : (s.coreEvent c e k).outOfMap = s.outOfMap := by
  unfold State.coreEvent; split <;> rfl
@[simp] theorem State.coreEvent_mapEpoch (s : State) (c e k : Nat) : (s.coreEvent c e k).mapEpoch = s.mapEpoch := by
  unfold State.coreEvent; split <;> rfl
@[simp] theorem State.coreEvent_selects (s : State) (c e k : Nat) : (s.coreEvent c e k).selects = s.selects := by
  unfold State.coreEvent; split <;> rfl
@[simp] theorem State.coreEvent_cap (s : State) (c e k : Nat) : (s.coreEvent c e k).cap = s.cap := by
  unfold State.coreEvent; split <;> rfl
@[simp] theorem State.coreEvent_ceilings (s : State) (c e k : Nat) : (s.coreEvent c e k).ceilings = s.ceilings := by
  unfold State.coreEvent; split <;> rfl
@[simp] theorem State.coreEvent_corePoints (s : State) (c e k : Nat) : (s.coreEvent c e k).corePoints = s.corePoints := by
  unfold State.coreEvent; split <;> rfl
@[simp] theorem State.coreEvent_stackPoints (s : State) (c e k : Nat) : (s.coreEvent c e k).stackPoints = s.stackPoints := by
  unfold State.coreEvent; split <;> rfl
@[simp] theorem State.coreEvent_dieClk (s : State) (c e k : Nat) : (s.coreEvent c e k).dieClk = s.dieClk := by
  unfold State.coreEvent; split <;> rfl
@[simp] theorem State.coreEvent_stackClk (s : State) (c e k : Nat) : (s.coreEvent c e k).stackClk = s.stackClk := by
  unfold State.coreEvent; split <;> rfl
@[simp] theorem State.coreEvent_loam (s : State) (c e k : Nat) : (s.coreEvent c e k).loam = s.loam := by
  unfold State.coreEvent; split <;> rfl
@[simp] theorem State.coreEvent_cxl (s : State) (c e k : Nat) : (s.coreEvent c e k).cxl = s.cxl := by
  unfold State.coreEvent; split <;> rfl
@[simp] theorem State.coreEvent_ctxs (s : State) (c e k : Nat) : (s.coreEvent c e k).ctxs = s.ctxs := by
  unfold State.coreEvent; split <;> rfl
@[simp] theorem State.coreEvent_running (s : State) (c e k : Nat) : (s.coreEvent c e k).running = s.running := by
  unfold State.coreEvent; split <;> rfl
@[simp] theorem State.coreEvent_armed (s : State) (c e k : Nat) : (s.coreEvent c e k).armed = s.armed := by
  unfold State.coreEvent; split <;> rfl
@[simp] theorem State.coreEvent_purges (s : State) (c e k : Nat) : (s.coreEvent c e k).purges = s.purges := by
  unfold State.coreEvent; split <;> rfl
@[simp] theorem State.coreEvent_migration (s : State) (c e k : Nat) : (s.coreEvent c e k).migration = s.migration := by
  unfold State.coreEvent; split <;> rfl
@[simp] theorem State.coreEvent_newestFirst (s : State) (c e k : Nat) : (s.coreEvent c e k).newestFirst = s.newestFirst := by
  unfold State.coreEvent; split <;> rfl
@[simp] theorem State.coreEvent_cache (s : State) (c e k : Nat) : (s.coreEvent c e k).cache = s.cache := by
  unfold State.coreEvent; split <;> rfl
@[simp] theorem State.coreEvent_nodes (s : State) (c e k : Nat) : (s.coreEvent c e k).nodes = s.nodes := by
  unfold State.coreEvent; split <;> rfl
@[simp] theorem State.coreEvent_blocks (s : State) (c e k : Nat) : (s.coreEvent c e k).blocks = s.blocks := by
  unfold State.coreEvent; split <;> rfl
@[simp] theorem State.coreEvent_parts (s : State) (c e k : Nat) : (s.coreEvent c e k).parts = s.parts := by
  unfold State.coreEvent; split <;> rfl
@[simp] theorem State.coreEvent_warps (s : State) (c e k : Nat) : (s.coreEvent c e k).warps = s.warps := by
  unfold State.coreEvent; split <;> rfl
@[simp] theorem State.coreEvent_copies (s : State) (c e k : Nat) : (s.coreEvent c e k).copies = s.copies := by
  unfold State.coreEvent; split <;> rfl
@[simp] theorem State.coreEvent_bins (s : State) (c e k : Nat) : (s.coreEvent c e k).bins = s.bins := by
  unfold State.coreEvent; split <;> rfl
@[simp] theorem State.coreEvent_released (s : State) (c e k : Nat) : (s.coreEvent c e k).released = s.released := by
  unfold State.coreEvent; split <;> rfl
@[simp] theorem State.coreEvent_groups (s : State) (c e k : Nat) : (s.coreEvent c e k).groups = s.groups := by
  unfold State.coreEvent; split <;> rfl
@[simp] theorem State.coreEvent_collectives (s : State) (c e k : Nat) : (s.coreEvent c e k).collectives = s.collectives := by
  unfold State.coreEvent; split <;> rfl
@[simp] theorem State.coreEvent_insts (s : State) (c e k : Nat) : (s.coreEvent c e k).insts = s.insts := by
  unfold State.coreEvent; split <;> rfl
@[simp] theorem State.coreEvent_handOvers (s : State) (c e k : Nat) : (s.coreEvent c e k).handOvers = s.handOvers := by
  unfold State.coreEvent; split <;> rfl
@[simp] theorem State.coreEvent_deltas (s : State) (c e k : Nat) : (s.coreEvent c e k).deltas = s.deltas := by
  unfold State.coreEvent; split <;> rfl
@[simp] theorem State.coreEvent_tshape (s : State) (c e k : Nat) : (s.coreEvent c e k).tshape = s.tshape := by
  unfold State.coreEvent; split <;> rfl
@[simp] theorem State.coreEvent_engine (s : State) (c e k : Nat) : (s.coreEvent c e k).engine = s.engine := by
  unfold State.coreEvent; split <;> rfl

/-! ## journalAdd -/

@[simp] theorem State.journalAdd_agenda (s : State) (c : Word) (d : BitVec 24) (r : BitVec 8) (a : DWord) :
    (s.journalAdd c d r a).agenda = s.agenda := by simp only [State.journalAdd]
@[simp] theorem State.journalAdd_agent (s : State) (c : Word) (d : BitVec 24) (r : BitVec 8) (a : DWord) :
    (s.journalAdd c d r a).agent = s.agent := by simp only [State.journalAdd]
@[simp] theorem State.journalAdd_choices (s : State) (c : Word) (d : BitVec 24) (r : BitVec 8) (a : DWord) :
    (s.journalAdd c d r a).choices = s.choices := by simp only [State.journalAdd]
@[simp] theorem State.journalAdd_nextId (s : State) (c : Word) (d : BitVec 24) (r : BitVec 8) (a : DWord) :
    (s.journalAdd c d r a).nextId = s.nextId := by simp only [State.journalAdd]
@[simp] theorem State.journalAdd_gtime (s : State) (c : Word) (d : BitVec 24) (r : BitVec 8) (a : DWord) :
    (s.journalAdd c d r a).gtime = s.gtime := by simp only [State.journalAdd]
@[simp] theorem State.journalAdd_bad (s : State) (c : Word) (d : BitVec 24) (r : BitVec 8) (a : DWord) :
    (s.journalAdd c d r a).bad = s.bad := by simp only [State.journalAdd]
@[simp] theorem State.journalAdd_poison (s : State) (c : Word) (d : BitVec 24) (r : BitVec 8) (a : DWord) :
    (s.journalAdd c d r a).poison = s.poison := by simp only [State.journalAdd]
@[simp] theorem State.journalAdd_flips (s : State) (c : Word) (d : BitVec 24) (r : BitVec 8) (a : DWord) :
    (s.journalAdd c d r a).flips = s.flips := by simp only [State.journalAdd]
@[simp] theorem State.journalAdd_merging (s : State) (c : Word) (d : BitVec 24) (r : BitVec 8) (a : DWord) :
    (s.journalAdd c d r a).merging = s.merging := by simp only [State.journalAdd]
@[simp] theorem State.journalAdd_reported (s : State) (c : Word) (d : BitVec 24) (r : BitVec 8) (a : DWord) :
    (s.journalAdd c d r a).reported = s.reported := by simp only [State.journalAdd]
@[simp] theorem State.journalAdd_tlb (s : State) (c : Word) (d : BitVec 24) (r : BitVec 8) (a : DWord) :
    (s.journalAdd c d r a).tlb = s.tlb := by simp only [State.journalAdd]
@[simp] theorem State.journalAdd_access (s : State) (c : Word) (d : BitVec 24) (r : BitVec 8) (a : DWord) :
    (s.journalAdd c d r a).access = s.access := by simp only [State.journalAdd]
@[simp] theorem State.journalAdd_accessNew (s : State) (c : Word) (d : BitVec 24) (r : BitVec 8) (a : DWord) :
    (s.journalAdd c d r a).accessNew = s.accessNew := by simp only [State.journalAdd]
@[simp] theorem State.journalAdd_counterTable (s : State) (c : Word) (d : BitVec 24) (r : BitVec 8) (a : DWord) :
    (s.journalAdd c d r a).counterTable = s.counterTable := by simp only [State.journalAdd]
@[simp] theorem State.journalAdd_counterThreshold (s : State) (c : Word) (d : BitVec 24) (r : BitVec 8) (a : DWord) :
    (s.journalAdd c d r a).counterThreshold = s.counterThreshold := by simp only [State.journalAdd]
@[simp] theorem State.journalAdd_ringUnread (s : State) (c : Word) (d : BitVec 24) (r : BitVec 8) (a : DWord) :
    (s.journalAdd c d r a).ringUnread = s.ringUnread := by simp only [State.journalAdd]
@[simp] theorem State.journalAdd_ringLost (s : State) (c : Word) (d : BitVec 24) (r : BitVec 8) (a : DWord) :
    (s.journalAdd c d r a).ringLost = s.ringLost := by simp only [State.journalAdd]
@[simp] theorem State.journalAdd_windows (s : State) (c : Word) (d : BitVec 24) (r : BitVec 8) (a : DWord) :
    (s.journalAdd c d r a).windows = s.windows := by simp only [State.journalAdd]
@[simp] theorem State.journalAdd_queue (s : State) (c : Word) (d : BitVec 24) (r : BitVec 8) (a : DWord) :
    (s.journalAdd c d r a).queue = s.queue := by simp only [State.journalAdd]
@[simp] theorem State.journalAdd_deferred (s : State) (c : Word) (d : BitVec 24) (r : BitVec 8) (a : DWord) :
    (s.journalAdd c d r a).deferred = s.deferred := by simp only [State.journalAdd]
@[simp] theorem State.journalAdd_wbase (s : State) (c : Word) (d : BitVec 24) (r : BitVec 8) (a : DWord) :
    (s.journalAdd c d r a).wbase = s.wbase := by simp only [State.journalAdd]
@[simp] theorem State.journalAdd_reply (s : State) (c : Word) (d : BitVec 24) (r : BitVec 8) (a : DWord) :
    (s.journalAdd c d r a).reply = s.reply := by simp only [State.journalAdd]
@[simp] theorem State.journalAdd_booted (s : State) (c : Word) (d : BitVec 24) (r : BitVec 8) (a : DWord) :
    (s.journalAdd c d r a).booted = s.booted := by simp only [State.journalAdd]
@[simp] theorem State.journalAdd_measure (s : State) (c : Word) (d : BitVec 24) (r : BitVec 8) (a : DWord) :
    (s.journalAdd c d r a).measure = s.measure := by simp only [State.journalAdd]
@[simp] theorem State.journalAdd_floors (s : State) (c : Word) (d : BitVec 24) (r : BitVec 8) (a : DWord) :
    (s.journalAdd c d r a).floors = s.floors := by simp only [State.journalAdd]
@[simp] theorem State.journalAdd_fieldDigest (s : State) (c : Word) (d : BitVec 24) (r : BitVec 8) (a : DWord) :
    (s.journalAdd c d r a).fieldDigest = s.fieldDigest := by simp only [State.journalAdd]
@[simp] theorem State.journalAdd_outOfMap (s : State) (c : Word) (d : BitVec 24) (r : BitVec 8) (a : DWord) :
    (s.journalAdd c d r a).outOfMap = s.outOfMap := by simp only [State.journalAdd]
@[simp] theorem State.journalAdd_mapEpoch (s : State) (c : Word) (d : BitVec 24) (r : BitVec 8) (a : DWord) :
    (s.journalAdd c d r a).mapEpoch = s.mapEpoch := by simp only [State.journalAdd]
@[simp] theorem State.journalAdd_counters (s : State) (c : Word) (d : BitVec 24) (r : BitVec 8) (a : DWord) :
    (s.journalAdd c d r a).counters = s.counters := by simp only [State.journalAdd]
@[simp] theorem State.journalAdd_selects (s : State) (c : Word) (d : BitVec 24) (r : BitVec 8) (a : DWord) :
    (s.journalAdd c d r a).selects = s.selects := by simp only [State.journalAdd]
@[simp] theorem State.journalAdd_cap (s : State) (c : Word) (d : BitVec 24) (r : BitVec 8) (a : DWord) :
    (s.journalAdd c d r a).cap = s.cap := by simp only [State.journalAdd]
@[simp] theorem State.journalAdd_ceilings (s : State) (c : Word) (d : BitVec 24) (r : BitVec 8) (a : DWord) :
    (s.journalAdd c d r a).ceilings = s.ceilings := by simp only [State.journalAdd]
@[simp] theorem State.journalAdd_corePoints (s : State) (c : Word) (d : BitVec 24) (r : BitVec 8) (a : DWord) :
    (s.journalAdd c d r a).corePoints = s.corePoints := by simp only [State.journalAdd]
@[simp] theorem State.journalAdd_stackPoints (s : State) (c : Word) (d : BitVec 24) (r : BitVec 8) (a : DWord) :
    (s.journalAdd c d r a).stackPoints = s.stackPoints := by simp only [State.journalAdd]
@[simp] theorem State.journalAdd_dieClk (s : State) (c : Word) (d : BitVec 24) (r : BitVec 8) (a : DWord) :
    (s.journalAdd c d r a).dieClk = s.dieClk := by simp only [State.journalAdd]
@[simp] theorem State.journalAdd_stackClk (s : State) (c : Word) (d : BitVec 24) (r : BitVec 8) (a : DWord) :
    (s.journalAdd c d r a).stackClk = s.stackClk := by simp only [State.journalAdd]
@[simp] theorem State.journalAdd_loam (s : State) (c : Word) (d : BitVec 24) (r : BitVec 8) (a : DWord) :
    (s.journalAdd c d r a).loam = s.loam := by simp only [State.journalAdd]
@[simp] theorem State.journalAdd_cxl (s : State) (c : Word) (d : BitVec 24) (r : BitVec 8) (a : DWord) :
    (s.journalAdd c d r a).cxl = s.cxl := by simp only [State.journalAdd]
@[simp] theorem State.journalAdd_ctxs (s : State) (c : Word) (d : BitVec 24) (r : BitVec 8) (a : DWord) :
    (s.journalAdd c d r a).ctxs = s.ctxs := by simp only [State.journalAdd]
@[simp] theorem State.journalAdd_running (s : State) (c : Word) (d : BitVec 24) (r : BitVec 8) (a : DWord) :
    (s.journalAdd c d r a).running = s.running := by simp only [State.journalAdd]
@[simp] theorem State.journalAdd_armed (s : State) (c : Word) (d : BitVec 24) (r : BitVec 8) (a : DWord) :
    (s.journalAdd c d r a).armed = s.armed := by simp only [State.journalAdd]
@[simp] theorem State.journalAdd_purges (s : State) (c : Word) (d : BitVec 24) (r : BitVec 8) (a : DWord) :
    (s.journalAdd c d r a).purges = s.purges := by simp only [State.journalAdd]
@[simp] theorem State.journalAdd_migration (s : State) (c : Word) (d : BitVec 24) (r : BitVec 8) (a : DWord) :
    (s.journalAdd c d r a).migration = s.migration := by simp only [State.journalAdd]
@[simp] theorem State.journalAdd_cores (s : State) (c : Word) (d : BitVec 24) (r : BitVec 8) (a : DWord) :
    (s.journalAdd c d r a).cores = s.cores := by simp only [State.journalAdd]
@[simp] theorem State.journalAdd_newestFirst (s : State) (c : Word) (d : BitVec 24) (r : BitVec 8) (a : DWord) :
    (s.journalAdd c d r a).newestFirst = s.newestFirst := by simp only [State.journalAdd]
@[simp] theorem State.journalAdd_cache (s : State) (c : Word) (d : BitVec 24) (r : BitVec 8) (a : DWord) :
    (s.journalAdd c d r a).cache = s.cache := by simp only [State.journalAdd]
@[simp] theorem State.journalAdd_nodes (s : State) (c : Word) (d : BitVec 24) (r : BitVec 8) (a : DWord) :
    (s.journalAdd c d r a).nodes = s.nodes := by simp only [State.journalAdd]
@[simp] theorem State.journalAdd_blocks (s : State) (c : Word) (d : BitVec 24) (r : BitVec 8) (a : DWord) :
    (s.journalAdd c d r a).blocks = s.blocks := by simp only [State.journalAdd]
@[simp] theorem State.journalAdd_parts (s : State) (c : Word) (d : BitVec 24) (r : BitVec 8) (a : DWord) :
    (s.journalAdd c d r a).parts = s.parts := by simp only [State.journalAdd]
@[simp] theorem State.journalAdd_warps (s : State) (c : Word) (d : BitVec 24) (r : BitVec 8) (a : DWord) :
    (s.journalAdd c d r a).warps = s.warps := by simp only [State.journalAdd]
@[simp] theorem State.journalAdd_copies (s : State) (c : Word) (d : BitVec 24) (r : BitVec 8) (a : DWord) :
    (s.journalAdd c d r a).copies = s.copies := by simp only [State.journalAdd]
@[simp] theorem State.journalAdd_bins (s : State) (c : Word) (d : BitVec 24) (r : BitVec 8) (a : DWord) :
    (s.journalAdd c d r a).bins = s.bins := by simp only [State.journalAdd]
@[simp] theorem State.journalAdd_released (s : State) (c : Word) (d : BitVec 24) (r : BitVec 8) (a : DWord) :
    (s.journalAdd c d r a).released = s.released := by simp only [State.journalAdd]
@[simp] theorem State.journalAdd_groups (s : State) (c : Word) (d : BitVec 24) (r : BitVec 8) (a : DWord) :
    (s.journalAdd c d r a).groups = s.groups := by simp only [State.journalAdd]
@[simp] theorem State.journalAdd_collectives (s : State) (c : Word) (d : BitVec 24) (r : BitVec 8) (a : DWord) :
    (s.journalAdd c d r a).collectives = s.collectives := by simp only [State.journalAdd]
@[simp] theorem State.journalAdd_insts (s : State) (c : Word) (d : BitVec 24) (r : BitVec 8) (a : DWord) :
    (s.journalAdd c d r a).insts = s.insts := by simp only [State.journalAdd]
@[simp] theorem State.journalAdd_handOvers (s : State) (c : Word) (d : BitVec 24) (r : BitVec 8) (a : DWord) :
    (s.journalAdd c d r a).handOvers = s.handOvers := by simp only [State.journalAdd]
@[simp] theorem State.journalAdd_deltas (s : State) (c : Word) (d : BitVec 24) (r : BitVec 8) (a : DWord) :
    (s.journalAdd c d r a).deltas = s.deltas := by simp only [State.journalAdd]
@[simp] theorem State.journalAdd_tshape (s : State) (c : Word) (d : BitVec 24) (r : BitVec 8) (a : DWord) :
    (s.journalAdd c d r a).tshape = s.tshape := by simp only [State.journalAdd]
@[simp] theorem State.journalAdd_engine (s : State) (c : Word) (d : BitVec 24) (r : BitVec 8) (a : DWord) :
    (s.journalAdd c d r a).engine = s.engine := by simp only [State.journalAdd]

end Sys2Proof.Machine
end

