-- ==== Sys2Proof/Laws/Issue.lean ====
section
/-! SUPPORT. What issuing does: an instruction that passes the checks has the effect of its body, and finishing it changes its warp
and little else. -/

namespace Sys2Proof.Machine

/-- What a context that has passed the checks is. -/
structure Issued (i : Instr) (s : State) (c : Ctx) : Prop where
  st : c.s = s
  instr : c.i = i
  mask : c.act = activeMask c.w (guardOf i)
  alive : c.live = c.w.laneok
  warp : tget s.warps c.wid = some c.w
  part : tget s.parts c.w.part = some c.p
  ok : passes i s c.wid c.w c.p c.slice = true
  agent : s.agent = if c.slice then .slice c.wid else .warp c.wid

theorem issued_of_readyBy {i : Instr} {s : State} {wid : Nat} {b : Bool} {c : Ctx} (h : readyBy i s wid b = some c)
    (ha : s.agent = if b then .slice wid else .warp wid) : Issued i s c := by
  unfold readyBy at h
  split at h
  · cases h
  · rename_i w hw
    split at h
    · cases h
    · rename_i p hp
      split at h
      · rename_i ok
        cases h
        exact ⟨rfl, rfl, rfl, rfl, hw, hp, ok, ha⟩
      · cases h

theorem issued_of_ready {i : Instr} {s : State} {c : Ctx} (h : ready i s = some c) : Issued i s c := by
  unfold ready at h
  split at h
  · cases h
  · rename_i ha; exact issued_of_readyBy h (by simpa using ha)
  · rename_i ha; exact issued_of_readyBy h (by simpa using ha)

/-- An instruction that passes the checks has the effect of its body. -/
theorem issue_ready {i : Instr} {s : State} {c : Ctx} (h : ready i s = some c) (body : Ctx → State) :
    issue i s body = .next (body c) := by
  have g := issued_of_ready h
  obtain ⟨cs, wid, w, p, slice, ci, act, live⟩ := c
  obtain ⟨rfl, rfl, hm, hl, hw, hp, ok, ha⟩ := g
  simp only at hm hl hw hp ok ha
  subst hm hl
  simp only [passes, Bool.and_eq_true, Bool.not_eq_true', Bool.or_eq_true, beq_iff_eq, Option.isNone_iff_eq_none] at ok
  obtain ⟨⟨⟨⟨⟨h1, h2⟩, h3⟩, h4⟩, h5⟩, h6⟩ := ok
  have key : issueBy ci cs wid slice body = .next (body ⟨cs, wid, w, p, slice, ci, activeMask w (guardOf ci), w.laneok⟩) := by
    cases slice <;> simp_all [issueBy, Ctx.run]
  cases slice <;> simp_all [issue]

/-- An instruction that an access slice may not execute is executing in a warp's own stream. -/
theorem Issued.noSlice {i : Instr} {s : State} {c : Ctx} (g : Issued i s c) (h : sliceMay i = false) : c.slice = false := by
  by_contra hs
  have ok := g.ok
  simp only [Bool.not_eq_false] at hs
  simp only [passes, hs, Bool.and_eq_true, Option.isNone_iff_eq_none] at ok
  have h3 := ok.1.1.1.2
  unfold State.illegal at h3
  simp only [h] at h3
  split at h3 <;> simp_all

/-- An instruction that only an access slice may execute is executing in a slice. -/
theorem Issued.inSlice {i : Instr} {s : State} {c : Ctx} (g : Issued i s c) (h : sliceOnly i = true) : c.slice = true := by
  by_contra hs
  have ok := g.ok
  simp only [Bool.not_eq_true] at hs
  simp only [passes, hs, Bool.and_eq_true, Option.isNone_iff_eq_none] at ok
  have h3 := ok.1.1.1.2
  unfold State.illegal at h3
  simp only [h] at h3
  split at h3 <;> simp_all

/-! ## Events and marks -/

theorem State.coreEvent_coreFence (s : State) (c e n k : Nat) :
    { (s.coreEvent c e n).coreFence k with issuedSince := 0 } = { s.coreFence k with issuedSince := 0 } := by
  unfold State.coreEvent
  simp only
  split
  · have hb : ∀ j, (s.bump (c * 16) 16 e n).coreFence j = s.coreFence j := fun j => rfl
    by_cases hk : k = c
    · subst hk
      simp only [State.coreFence, tget_tset_self, Option.getD_some]
      rfl
    · simp only [State.coreFence, tget_tset_other _ _ _ _ hk]
      rfl
  · rfl

/-- Registers written whole lose their marks, and nothing else changes. -/
theorem State.healRegs_eq (s : State) (ls : List Nat) :
    ∃ b r, s.healRegs ls = { s with bad := b, reported := r } ∧ (∀ a ∈ b, a ∈ s.bad) ∧ ∀ a ∈ r, a ∈ s.reported := by
  unfold State.healRegs
  split
  · exact ⟨s.bad, s.reported, rfl, fun _ h => h, fun _ h => h⟩
  · exact ⟨_, _, rfl, fun a h => (List.mem_filter.mp h).1, fun a h => (List.mem_filter.mp h).1⟩

/-! ## finish -/

/-- Finishing an instruction changes only its warp. -/
theorem Ctx.finishAt_only (c : Ctx) (a : DWord) (f : Warp → Warp) : OnlyWarp c.wid c.s (c.finishAt a f) := by
  unfold Ctx.finishAt
  simp only
  obtain ⟨b, r, e, hb, hr⟩ := State.healRegs_eq ((c.s.coreEvent c.core 1).modWarp c.wid
    fun w => setPc c.slice a (f (popQueues (namedQueues (opnds c.i).vs) w))) (spanLocs c.wid c.act (opnds c.i).vd ++ uniLocs c.wid c.slice (opnds c.i).sd)
  rw [e]
  have ce : c.s.coreEvent c.core 1 =
      { c.s with counters := (c.s.coreEvent c.core 1).counters, cores := (c.s.coreEvent c.core 1).cores } := by
    unfold State.coreEvent; simp only [if_true]; rfl
  refine ⟨?_, ?_, ?_, ?_, ?_⟩
  · rw [ce]; rfl
  · intro x; rw [ce]; rfl
  · intro j hj
    simp only [State.modWarp_warps, State.coreEvent_warps]
    exact tget_tmod_other _ _ _ _ hj
  · intro k
    exact c.s.coreEvent_coreFence c.core 1 1 k
  · rw [ce] at hb hr; exact ⟨hb, hr⟩

/-- The warp after an instruction has finished. -/
theorem Ctx.finishAt_warp {i : Instr} {s : State} {c : Ctx} (g : Issued i s c) (a : DWord) (f : Warp → Warp) :
    tget (c.finishAt a f).warps c.wid = some (setPc c.slice a (f (popQueues (namedQueues (opnds i).vs) c.w))) := by
  unfold Ctx.finishAt
  simp only
  obtain ⟨b, r, e, -, -⟩ := State.healRegs_eq ((c.s.coreEvent c.core 1).modWarp c.wid
    fun w => setPc c.slice a (f (popQueues (namedQueues (opnds c.i).vs) w))) (spanLocs c.wid c.act (opnds c.i).vd ++ uniLocs c.wid c.slice (opnds c.i).sd)
  rw [e]
  simp only [State.modWarp_warps, State.coreEvent_warps, g.st, g.instr]
  exact tget_tmod_of_some _ g.warp

theorem Ctx.finish_only (c : Ctx) (f : Warp → Warp) : OnlyWarp c.wid c.s (c.finish f) := c.finishAt_only _ f

theorem Ctx.finish_warp {i : Instr} {s : State} {c : Ctx} (g : Issued i s c) (f : Warp → Warp) :
    tget (c.finish f).warps c.wid = some (setPc c.slice c.nextPc (f (popQueues (namedQueues (opnds i).vs) c.w))) :=
  c.finishAt_warp g _ f

theorem popQueues_nil (w : Warp) : popQueues [] w = w := rfl

end Sys2Proof.Machine
end

