-- ==== Sys2Proof/Laws/Access.lean ====
section
/-! SUPPORT. What looking up, requesting, reading and releasing memory may change. `State.aside` leaves out everything that a walk, a
request, a read or a write-back may change on its way: two states with the same `aside` agree on all else. -/

namespace Sys2Proof.Machine

/-! ## What an access may change on its way -/

/-- The state without the free choices, the TLBs, the event counters, the bytes and marks of memory, the journal and the vectors, the
threshold ring, and the CXL ports. -/
def State.aside (s : State) : State :=
  { s with
    choices := 0, tlb := [], counters := [], mem := ⟨[]⟩, bad := [], poison := [], flips := [], merging := [], reported := [],
    journal := [], nextSeq := 0, msix := [], ringUnread := [], ringLost := false, cxl := Vector.replicate 8 ⟨false, false, []⟩ }

theorem aside_warps {s t : State} (h : t.aside = s.aside) : t.warps = s.warps := by have e := congrArg State.warps h; exact e
theorem aside_parts {s t : State} (h : t.aside = s.aside) : t.parts = s.parts := by have e := congrArg State.parts h; exact e
theorem aside_blocks {s t : State} (h : t.aside = s.aside) : t.blocks = s.blocks := by have e := congrArg State.blocks h; exact e
theorem aside_nodes {s t : State} (h : t.aside = s.aside) : t.nodes = s.nodes := by have e := congrArg State.nodes h; exact e
theorem aside_ctxs {s t : State} (h : t.aside = s.aside) : t.ctxs = s.ctxs := by have e := congrArg State.ctxs h; exact e
theorem aside_copies {s t : State} (h : t.aside = s.aside) : t.copies = s.copies := by have e := congrArg State.copies h; exact e
theorem aside_running {s t : State} (h : t.aside = s.aside) : t.running = s.running := by have e := congrArg State.running h; exact e
theorem aside_armed {s t : State} (h : t.aside = s.aside) : t.armed = s.armed := by have e := congrArg State.armed h; exact e
theorem aside_migration {s t : State} (h : t.aside = s.aside) : t.migration = s.migration := by have e := congrArg State.migration h; exact e

theorem foldl_aside {β : Type} {f : State → β → State} (hf : ∀ s b, (f s b).aside = s.aside) (l : List β) :
    ∀ s : State, (l.foldl f s).aside = s.aside := by
  induction l with
  | nil => exact fun s => rfl
  | cons b r ih => exact fun s => (ih (f s b)).trans (hf s b)

@[simp] theorem State.bump_aside (s : State) (a n e k : Nat) : (s.bump a n e k).aside = s.aside := rfl
@[simp] theorem State.dieEvent_aside (s : State) (d e k : Nat) : (s.dieEvent d e k).aside = s.aside := rfl
@[simp] theorem State.baseEvent_aside (s : State) (d e k : Nat) : (s.baseEvent d e k).aside = s.aside := rfl
@[simp] theorem State.journalAdd_aside (s : State) (c : Word) (d : BitVec 24) (r : BitVec 8) (a : DWord) :
    (s.journalAdd c d r a).aside = s.aside := by simp only [State.journalAdd, State.aside]
@[simp] theorem State.memerr_aside (s : State) (k a : Nat) : (s.memerr k a).aside = s.aside :=
  s.journalAdd_aside ..
@[simp] theorem State.choices_aside (s : State) (c : Nat) : ({ s with choices := c } : State).aside = s.aside := rfl
@[simp] theorem State.memerrWord_aside (s : State) (c : Nat) : (s.memerrWord c).aside = s.aside :=
  State.memerr_aside ..

@[simp] theorem State.poisonBlock_aside (s : State) (k b : Nat) : (s.poisonBlock k b).aside = s.aside := by
  unfold State.poisonBlock
  split
  · rfl
  · rw [State.memerr_aside]; rfl

@[simp] theorem State.reportWord_aside (s : State) (a : Nat) : (s.reportWord a).aside = s.aside := by
  unfold State.reportWord
  split
  · rw [State.poisonBlock_aside]; rfl
  · split
    · rfl
    · rw [State.memerr_aside]; rfl

/-- Meeting bad words marks and reports them. -/
@[simp] theorem State.meet_aside (s : State) (loc n : Nat) : (s.meet loc n).aside = s.aside :=
  foldl_aside State.reportWord_aside _ _

@[simp] theorem State.readDram_aside (s : State) (b : Nat) (n : Bool) : (s.readDram b n).aside = s.aside := by
  unfold State.readDram
  split
  · rfl
  · simp only
    split
    · rfl
    · split
      · rfl
      · rw [State.poisonBlock_aside]; rfl

@[simp] theorem State.mscWriteBack_aside (s : State) (b : Nat) : (s.mscWriteBack b).aside = s.aside := by
  have h : ∀ (u : State) (m : Tab (BitVec 512)), ({ u with merging := m } : State).aside = u.aside := fun _ _ => rfl
  unfold State.mscWriteBack
  simp only [h]
  split
  · rw [State.poisonBlock_aside]; exact s.readDram_aside b true
  · exact s.readDram_aside b true

@[simp] theorem State.mscEvict_aside (s : State) (m : Bool) : (s.mscEvict m).aside = s.aside := by
  refine foldl_aside (fun s b => ?_) _ _
  simp only
  split
  · rw [State.mscWriteBack_aside]; rfl
  · rfl

/-! ## Requests -/

@[simp] theorem State.postThreshold_aside (s : State) (page : Nat) : (s.postThreshold page).aside = s.aside := rfl

@[simp] theorem State.countPage_aside (s : State) (p : Place) (k : Bool) : (s.countPage p k).aside = s.aside := by
  have key : ∀ (c : Prop) [Decidable c] (d : Prop) [Decidable d] (m : Memory) (n : Nat), (if c then s
      else if d then State.postThreshold { s with mem := m } n else { s with mem := m }).aside = s.aside := by
    intro c _ d _ m n
    split
    · rfl
    · split <;> rfl
  unfold State.countPage
  split
  · rfl
  · exact key ..

@[simp] theorem State.mscAccess_aside (s : State) (p : Place) (k : Bool) : (s.mscAccess p k).aside = s.aside := by
  unfold State.mscAccess
  rw [State.mscEvict_aside, State.readDram_aside, State.countPage_aside]; rfl

/-- A request at an MSC or a port changes no more than its count and the MSC's own reads and write-backs change. -/
@[simp] theorem State.mscRequest_aside (s : State) (pa : Nat) : (s.mscRequest pa).aside = s.aside := by
  unfold State.mscRequest
  simp only
  split
  · exact s.mscAccess_aside ..
  · exact s.countPage_aside ..

/-! ## Translation -/

theorem walkFrom_aside (va : Nat) (ls : List (Nat × Nat)) : ∀ (s : State) (base : Nat), (walkFrom va ls s base).1.aside = s.aside := by
  induction ls with
  | nil => exact fun s base => rfl
  | cons x r ih =>
    intro s base
    obtain ⟨lv, sh⟩ := x
    unfold walkFrom
    simp only
    split
    · rw [State.meet_aside, State.mscRequest_aside]
    · split
      · exact s.mscRequest_aside _
      · split
        · exact s.mscRequest_aside _
        · split
          · exact s.mscRequest_aside _
          · split
            · rw [ih]; exact s.mscRequest_aside _
            · exact s.mscRequest_aside _

@[simp] theorem walk_aside (s : State) (root va : Nat) : (walk s root va).1.aside = s.aside := walkFrom_aside ..

@[simp] theorem State.fillTlb_aside (s : State) (t : TlbEntry) : (s.fillTlb t).aside = s.aside := by
  unfold State.fillTlb
  simp only
  split
  · rfl
  · split <;> rfl

@[simp] theorem State.fillPath_aside (s : State) (key : BitVec 8) (va : Nat) (e : DWord) (lv : Nat) (path : List TlbAt) :
    (s.fillPath key va e lv path).aside = s.aside := by
  refine foldl_aside (fun s b => ?_) _ _
  split
  · rfl
  · exact s.fillTlb_aside _

/-- Translation changes nothing beside what a walk and the TLBs' own use change. -/
@[simp] theorem State.translate_aside (s : State) (slot : Fin 8) (m d : Nat) (need : Need) (va : DWord) (n : Nat) :
    (s.translate slot m d need va n).1.aside = s.aside := by
  unfold State.translate
  split
  · rfl
  · rename_i c _
    split
    · rfl
    · simp only
      split
      · rw [State.dieEvent_aside, State.choices_aside]; exact walk_aside ..
      · have h : ∀ q : State, ∀ b : Bool, (if b then q else q.dieEvent d 2).aside = q.aside := by
          intro q b; cases b <;> rfl
        split
        · rw [h, State.choices_aside]; exact walk_aside ..
        · rw [State.fillPath_aside, h, State.choices_aside]; exact walk_aside ..

/-- Locating a piece of an access changes no more than translation does. -/
@[simp] theorem Ctx.locate_aside (c : Ctx) (s : State) (sp : Space) (need : Need) (addr n : Nat) :
    (c.locate s sp need addr n).1.aside = s.aside := by
  unfold Ctx.locate
  split
  · exact s.translate_aside ..
  · exact s.translate_aside ..
  · rfl

/-- Locating the pieces of a lane's access changes no more than translation does. -/
theorem Ctx.placeAll_aside (c : Ctx) (sp : Space) (need : Need) (l ea : Nat) (xs : List (Nat × Nat × Nat)) :
    ∀ s : State, (c.placeAll s sp need l ea xs).1.aside = s.aside := by
  induction xs with
  | nil => exact fun s => rfl
  | cons x r ih =>
    intro s
    obtain ⟨addr, off, n⟩ := x
    have h1 := c.locate_aside s sp need addr n
    unfold Ctx.placeAll
    split
    · rename_i e; rw [e] at h1; exact h1
    · rename_i s1 p e
      rw [e] at h1
      have h2 := ih s1
      split
      · rename_i e2; rw [e2] at h2; exact h2.trans h1
      · rename_i e2; rw [e2] at h2; exact h2.trans h1

/-- The checks of a lane's pieces change no more than translation does. -/
@[simp] theorem Ctx.placeLane_aside (c : Ctx) (s : State) (sp : Space) (need : Need) (l ea : Nat) (ps : List (Nat × Nat × Nat)) :
    (c.placeLane s sp need l ea ps).1.aside = s.aside := by
  have h1 := c.placeAll_aside sp need l ea ps s
  unfold Ctx.placeLane
  split
  · rename_i e; rw [e] at h1; exact h1
  · rename_i e
    rw [e] at h1
    split
    · exact h1
    · split <;> exact h1

/-- The checks of an access's lanes change no more than translation does. -/
theorem Ctx.checkLanes_aside (c : Ctx) (sp : Space) (need : Need) (n : Nat) (ea : Lane → Nat) (ls : List Lane) :
    ∀ s : State, (c.checkLanes s sp need n ea ls).1.aside = s.aside := by
  induction ls with
  | nil => exact fun s => rfl
  | cons l r ih =>
    intro s
    have h1 := c.placeLane_aside s sp need l.val (ea l) (pieces c.w sp l.val (ea l) n)
    unfold Ctx.checkLanes
    split
    · rfl
    · split
      · rename_i e; rw [e] at h1; exact h1
      · rename_i s1 a e
        rw [e] at h1
        have h2 := ih s1
        split
        · rename_i e2; rw [e2] at h2; exact h2.trans h1
        · rename_i e2; rw [e2] at h2; exact h2.trans h1

/-- The checks of R186 change no more than translation does. -/
@[simp] theorem Ctx.checkAccess_aside (c : Ctx) (m : Mask) (sp : Space) (need : Need) (n : Nat) (ea : Lane → Nat) :
    (c.checkAccess m sp need n ea).1.aside = c.s.aside := by
  unfold Ctx.checkAccess
  simp only
  split
  · rfl
  · exact c.checkLanes_aside ..

/-! ## Requests and reads -/

/-- A request changes memory only by what its count and the MSC's own reads and write-backs change. -/
@[simp] theorem State.request_aside (s : State) (p : Place) (w : Bool) : (s.request p w).aside = s.aside := by
  unfold State.request
  split
  · exact s.countPage_aside p true
  · split
    · rw [State.mscAccess_aside]; rfl
    · rfl

@[simp] theorem State.linkFails_aside (s : State) (p : Place) : (s.linkFails p).2.aside = s.aside := by
  unfold State.linkFails
  split
  · rfl
  · split
    · split <;> rfl
    · split
      · split
        · rfl
        · split <;> rfl
      · rfl

@[simp] theorem State.losePage_aside (s : State) (q : Fin 8) (page : Nat) : (s.losePage q page).aside = s.aside := by
  unfold State.losePage State.modCxl
  split <;> rw [State.memerr_aside] <;> rfl

@[simp] theorem State.ask_aside (s : State) (p : Place) : (s.ask p).2.aside = s.aside := by
  unfold State.ask
  simp only
  split
  · rfl
  · split
    · simp only
      split
      · rw [State.losePage_aside]; rfl
      · rfl
    · rfl

@[simp] theorem State.readPlace_aside (s : State) (p : Place) (n : Nat) : (s.readPlace p n).2.aside = s.aside := by
  unfold State.readPlace; split <;> rfl

@[simp] theorem State.readAt_aside (s : State) (p : Place) (n : Nat) : (s.readAt p n).2.aside = s.aside := by
  have h := s.linkFails_aside p
  unfold State.readAt
  split
  · rename_i e; rw [e] at h; exact h
  · rename_i e
    rw [e] at h
    split
    · rw [State.meet_aside]; exact h
    · simp only [State.readPlace_aside]; exact h

/-- A read of memory changes nothing beside what its request and the meeting of bad words change. -/
@[simp] theorem State.readMem_aside (s : State) (p : Place) (n : Nat) : (s.readMem p n).2.aside = s.aside := by
  unfold State.readMem; rw [State.readAt_aside, State.request_aside]

/-! ## Writes -/

/-- A byte written to the store changes memory, or the rows of one warp. -/
theorem State.putByte_eq (s : State) (loc : Nat) (b : Byte) :
    ∃ m w, s.putByte loc b = { s with mem := m, warps := w } ∧ ∀ j, (tget w j).isSome = (tget s.warps j).isSome := by
  unfold State.putByte
  split
  · rename_i wid off h
    refine ⟨_, _, rfl, fun j => ?_⟩
    by_cases hj : j = wid
    · subst hj; rw [tget_tmod_self]; cases tget s.warps j <;> rfl
    · rw [tget_tmod_other _ _ _ _ hj]
  · exact ⟨_, _, rfl, fun _ => rfl⟩

theorem State.putBytes_eq (bs : List Byte) : ∀ (s : State) (loc : Nat),
    ∃ m w, s.putBytes loc bs = { s with mem := m, warps := w } ∧ ∀ j, (tget w j).isSome = (tget s.warps j).isSome := by
  induction bs with
  | nil => exact fun s loc => ⟨_, _, rfl, fun _ => rfl⟩
  | cons b r ih =>
    intro s loc
    obtain ⟨m, w, h, g⟩ := s.putByte_eq loc b
    obtain ⟨m2, w2, h2, g2⟩ := ih (s.putByte loc b) (loc + 1)
    refine ⟨m2, w2, ?_, fun j => ?_⟩
    · show (s.putByte loc b).putBytes (loc + 1) r = _
      rw [h2, h]
    · rw [g2, h]; exact g j

theorem State.mergeBlock_aside (s : State) (loc n b : Nat) : (s.mergeBlock loc n b).aside = s.aside := by
  unfold State.mergeBlock
  simp only
  split
  · rfl
  · split <;> rfl

/-- A write to the store changes memory and its marks, and the rows of warps. -/
theorem State.store_aside (s : State) (loc : Nat) (bs : List Byte) :
    ∃ w, (s.store loc bs).aside = { s with warps := w }.aside ∧ ∀ j, (tget w j).isSome = (tget s.warps j).isSome := by
  unfold State.store
  split
  · exact ⟨_, rfl, fun _ => rfl⟩
  · obtain ⟨m, w, h, g⟩ := State.putBytes_eq bs s loc
    refine ⟨w, ?_, g⟩
    unfold State.mergeMarks
    rw [foldl_aside (fun t b => t.mergeBlock_aside loc bs.length b), h]
    rfl

/-- The store's cells below the windows and outside the register rows: a write of bytes there writes the byte memory. -/
theorem State.putBytes_mem (bs : List Byte) : ∀ (s : State) (loc : Nat), (∀ i, i < bs.length → locReg (loc + i) = none) →
    s.putBytes loc bs = { s with mem := s.mem.write loc bs } := by
  induction bs with
  | nil => exact fun s loc _ => rfl
  | cons b r ih =>
    intro s loc h
    have h0 : locReg loc = none := h 0 (by simp)
    show (s.putByte loc b).putBytes (loc + 1) r = _
    rw [ih _ _ fun i hi => by have := h (i + 1) (by simp; omega); rwa [show loc + (i + 1) = loc + 1 + i by omega] at this]
    unfold State.putByte
    rw [h0]
    rfl

/-- Reading bytes outside the register rows reads the byte memory. -/
theorem State.bytesAt_mem (n : Nat) : ∀ (s : State) (loc : Nat), (∀ i, i < n → locReg (loc + i) = none) →
    s.bytesAt loc n = s.mem.read loc n := by
  induction n with
  | zero => exact fun s loc _ => rfl
  | succ n ih =>
    intro s loc h
    have h0 : locReg loc = none := h 0 (by omega)
    show s.byteAt loc :: s.bytesAt (loc + 1) n = _
    rw [ih _ _ fun i hi => by have := h (i + 1) (by omega); rwa [show loc + (i + 1) = loc + 1 + i by omega] at this]
    unfold State.byteAt
    rw [h0]
    rfl

/-- A physical address lies in no register row. -/
theorem locReg_phys {loc : Nat} (h : loc < physTop) : locReg loc = none := by
  unfold locReg locWindow
  rw [if_pos h]

/-- The window's number and kind, from an address behind the physical ones. -/
theorem window_of {T K id kind off : Nat} (hk : kind < 8) (ho : off < K) :
    ¬ T + (id * 8 + kind) * K + off < T ∧ (T + (id * 8 + kind) * K + off - T) / K % 8 = kind := by
  have hK : 0 < K := by omega
  refine ⟨by rw [Nat.add_assoc]; exact Nat.not_lt.mpr (Nat.le_add_right _ _), ?_⟩
  rw [Nat.add_assoc, Nat.add_sub_cancel_left, Nat.mul_comm, Nat.mul_add_div hK, Nat.div_eq_of_lt ho]
  omega

/-- The window of an address behind the physical ones. -/
theorem locWindow_of {loc : Nat} (h : ¬ loc < physTop) :
    locWindow loc = some ((loc - physTop) / 2 ^ 44 % 8, (loc - physTop) / 2 ^ 47, (loc - physTop) % 2 ^ 44) := by
  unfold locWindow; rw [if_neg h]

/-- An address in a window of another kind than 5 lies in no register row. -/
theorem locReg_of {loc k : Nat} (h : ¬ loc < physTop) (hk : (loc - physTop) / 2 ^ 44 % 8 = k) (h5 : k ≠ 5) : locReg loc = none := by
  unfold locReg
  rw [locWindow_of h, hk]
  split
  · rename_i e; exact absurd (Prod.mk.inj (Option.some.inj e)).1 h5
  · rfl

theorem onchip_window {kind id off : Nat} (hk : kind < 8) (ho : off < 2 ^ 44) :
    ¬ onchip kind id off < physTop ∧ (onchip kind id off - physTop) / 2 ^ 44 % 8 = kind := window_of hk ho

theorem locReg_onchip {kind id off : Nat} (hk : kind < 8) (h5 : kind ≠ 5) (ho : off < 2 ^ 44) : locReg (onchip kind id off) = none :=
  locReg_of (onchip_window hk ho).1 (onchip_window hk ho).2 h5

/-! ## Where a page lies -/

/-- A field that contains another: the low bits of the wide one are the narrow one. -/
theorem fld_mod (e : DWord) (hi lo mid : Nat) (h : lo ≤ mid) (hm : mid ≤ hi) : fld e hi lo % 2 ^ (mid + 1 - lo) = fld e mid lo := by
  unfold fld
  rw [Nat.mod_mod_of_dvd]
  exact Nat.pow_dvd_pow 2 (by omega)

theorem fld_lt (e : DWord) (hi lo : Nat) : fld e hi lo < 2 ^ (hi + 1 - lo) := Nat.mod_lt _ (Nat.two_pow_pos _)

/-- The address of a leaf of the peer tier has 42 bits. -/
theorem peer_lt {e : DWord} {lv va : Nat} (h1 : lv = 1 → fld e 41 16 = 0) (h2 : lv = 2 → fld e 28 16 = 0) :
    fld e 41 16 * 65536 + va % 2 ^ levelBits lv < 2 ^ 42 := by
  have hf := fld_lt e 41 16
  have hm := Nat.mod_lt va (Nat.two_pow_pos (levelBits lv))
  unfold levelBits at hm ⊢
  by_cases l1 : lv = 1
  · simp only [l1, if_true, h1 l1] at hm ⊢; omega
  · by_cases l2 : lv = 2
    · have := fld_mod e 41 16 28 (by omega) (by omega)
      rw [h2 l2] at this
      simp only [l2, if_true] at hm ⊢
      norm_num at hm hf this ⊢
      omega
    · simp only [l1, l2, if_false] at hm ⊢
      norm_num at hm hf ⊢
      omega

/-- The bytes from the place of a leaf on lie in no register row. -/
theorem leafPlace_locReg {e : DWord} {lv va : Nat} (h : leafFaults e lv va = false) (i : Nat) (hi : i < 2 ^ 42) :
    locReg ((leafPlace e lv va).loc + i) = none := by
  have far : ∀ a : Nat, a < physTop → locReg (a + i) = none := by
    intro a ha
    by_cases hp : a + i < physTop
    · exact locReg_phys hp
    · refine locReg_of (k := 0) hp ?_ (by omega)
      have : a + i - physTop < 2 ^ 44 := by omega
      rw [Nat.div_eq_of_lt this]
  unfold leafFaults at h
  simp only [Bool.or_eq_false_iff, Bool.and_eq_false_iff, bne_eq_false_iff_eq, beq_eq_false_iff_ne, ne_eq] at h
  obtain ⟨⟨⟨⟨⟨⟨-, h3⟩, -⟩, h1⟩, h2⟩, h0⟩, hc⟩ := h
  unfold leafPlace at h0 hc ⊢
  by_cases ht : fld e 6 5 = 2
  · simp only [ht, if_true] at *
    have ha : fld e 41 16 * 65536 + va % 2 ^ levelBits lv < 2 ^ 42 := by
      refine peer_lt (fun l => ?_) (fun l => ?_)
      · rcases h1 with h1 | h1
        · exact absurd l h1
        · exact h1
      · rcases h2 with h2 | h2
        · exact absurd l h2
        · exact h2
    generalize fld e 41 16 * 65536 + va % 2 ^ levelBits lv = a at *
    have := @locReg_onchip 4 (fld e 55 42) (a + i) (by omega) (by omega) (by omega)
    unfold peerLoc
    have e2 : onchip 4 (fld e 55 42) a + i = onchip 4 (fld e 55 42) (a + i) := by unfold onchip; rw [Nat.add_assoc]
    rw [e2]; exact this
  · simp only [ht, if_false] at h0 hc ⊢
    refine far _ ?_
    generalize fld e 51 16 * 65536 + va % 2 ^ levelBits lv = a at h0 hc ⊢
    have lt4 := fld_lt e 6 5
    have h2' : fld e 6 5 = 0 ∨ fld e 6 5 = 1 := by
      have : fld e 6 5 < 4 := lt4
      omega
    have small : (2 : Nat) ^ 42 < physTop := by unfold physTop; exact Nat.pow_lt_pow_right (by omega) (by omega)
    rcases h2' with h | h
    · rcases h0 with h0 | h0
      · exact absurd h h0
      · simp only [isStack, Bool.not_eq_false', decide_eq_true_eq] at h0
        exact Nat.lt_trans h0 small
    · rcases hc with hc | hc
      · exact absurd h hc
      · have : isCapRange a = true := by
          by_contra hn
          simp only [Bool.not_eq_true] at hn
          simp [capPortOf, hn] at hc
        simp only [isCapRange, Bool.and_eq_true, decide_eq_true_eq] at this
        exact this.2

/-- The bytes from the place of a translated address on lie in no register row. -/
theorem State.translate_locReg {s s1 : State} {slot : Fin 8} {m d : Nat} {need : Need} {va : DWord} {n : Nat} {p : Place}
    (h : s.translate slot m d need va n = (s1, .ok p)) (i : Nat) (hi : i < 2 ^ 42) : locReg (p.loc + i) = none := by
  have leaf : ∀ (u : State) (key : BitVec 8) (e : DWord) (lv : Nat) (q : Place), u.checkLeaf key m need va.toNat e lv n = .ok q →
      locReg (q.loc + i) = none := by
    intro u key e lv q h
    unfold State.checkLeaf at h
    simp only at h
    split at h
    · cases h
    · rename_i hl
      simp only [Bool.not_eq_true] at hl
      split at h; · cases h
      split at h; · cases h
      split at h; · cases h
      split at h; · cases h
      cases h
      exact leafPlace_locReg hl i hi
  unfold State.translate at h
  split at h
  · cases h
  · simp only at h
    split at h
    · cases h
    · split at h
      · cases h
      · split at h
        · cases h
        · rename_i hq
          split at h
          · cases h; exact leaf _ _ _ _ _ hq
          · cases h; exact leaf _ _ _ _ _ hq

/-! ## Clean memory -/

theorem State.badIn_nil {s : State} (h : s.bad = []) (loc n : Nat) : s.badIn loc n = false := by
  simp [State.badIn, h]

theorem State.unreadable_nil {s : State} (h : s.bad = []) (hp : s.poison = []) (loc n : Nat) : s.unreadable loc n = false := by
  simp [State.unreadable, State.badIn, State.poisonIn, h, hp]

theorem State.meet_nil {s : State} (h : s.bad = []) (loc n : Nat) : s.meet loc n = s := by
  simp [State.meet, h]

theorem State.mergeMarks_nil {s : State} (h : s.flips = []) (hp : s.poison = []) (loc n : Nat) : s.mergeMarks loc n = s := by
  simp [State.mergeMarks, State.markedBlocks, h, hp]

/-- The state with other free choices, event counters and merged bytes. -/
def State.tallied (s : State) (k : Nat) (cs : Tab DWord) (m : Tab (BitVec 512)) : State :=
  { s with choices := k, counters := cs, merging := m }

/-- In memory without wrong bits, the replacing of dirty lines writes them back and marks nothing. -/
theorem State.mscEvict_nil (l : List Nat) (miss : Bool) : ∀ {s : State}, s.flips = [] → s.bad = [] →
    ∃ k m, l.foldl (fun t b =>
      let u := { t with choices := t.choices + 1 }
      if miss && Config.bit t.choices then u.mscWriteBack b else u) s = s.tallied k s.counters m := by
  induction l with
  | nil => exact fun _ _ => ⟨_, _, rfl⟩
  | cons b r ih =>
    intro s hf hb
    simp only [List.foldl_cons]
    split
    · have e : ({ s with choices := s.choices + 1 } : State).mscWriteBack b
          = s.tallied (s.choices + 1) s.counters (tdel s.merging b) := by
        simp [State.mscWriteBack, State.readDram, hf, hb, tget, State.tallied]
      rw [e]
      obtain ⟨k, m, h⟩ := ih (s := s.tallied (s.choices + 1) s.counters (tdel s.merging b)) hf hb
      exact ⟨k, m, h⟩
    · obtain ⟨k, m, h⟩ := ih (s := { s with choices := s.choices + 1 }) hf hb
      exact ⟨k, m, h⟩

/-- In memory without wrong bits and without access counters, a request at an MSC changes only what it tallies. -/
theorem State.mscRequest_nil {s : State} (hc : s.counterTable = none) (hf : s.flips = []) (hb : s.bad = []) (pa : Nat) :
    ∃ k cs m, s.mscRequest pa = s.tallied k cs m := by
  have count : ∀ (u : State) (p : Place) (k : Bool), u.counterTable = none → u.countPage p k = u := by
    intro u p k h; unfold State.countPage; rw [h]
  unfold State.mscRequest
  simp only
  split
  · unfold State.mscAccess
    simp only
    rw [count _ _ _ (by exact hc)]
    have e : ∀ (u : State) (b : Nat) (n : Bool), u.flips = [] → u.readDram b n = u := by
      intro u b n h; unfold State.readDram; rw [h]; rfl
    rw [e _ _ _ (by exact hf)]
    unfold State.mscEvict
    obtain ⟨k, m, h⟩ := State.mscEvict_nil _ _ (s := State.baseEvent { s with choices := s.choices + 1 } _ 1 _) hf hb
    exact ⟨k, _, m, h⟩
  · exact ⟨_, _, _, count _ _ _ hc⟩

/-- A walk in such memory changes only what its requests tally. -/
theorem walkFrom_nil (va : Nat) (ls : List (Nat × Nat)) : ∀ {s : State}, s.counterTable = none → s.flips = [] → s.bad = [] →
    ∀ base, ∃ k cs m, (walkFrom va ls s base).1 = s.tallied k cs m := by
  induction ls with
  | nil => exact fun _ _ _ base => ⟨_, _, _, rfl⟩
  | cons x r ih =>
    intro s hc hf hb base
    obtain ⟨lv, sh⟩ := x
    obtain ⟨k, cs, m, e⟩ := State.mscRequest_nil hc hf hb (base + va / 2 ^ sh % 8192 * 8)
    unfold walkFrom
    simp only [e]
    split
    · rw [State.meet_nil (by exact hb)]; exact ⟨_, _, _, rfl⟩
    · split
      · exact ⟨_, _, _, rfl⟩
      · split
        · exact ⟨_, _, _, rfl⟩
        · split
          · exact ⟨_, _, _, rfl⟩
          · split
            · obtain ⟨k2, cs2, m2, e2⟩ := ih (s := s.tallied k cs m) hc hf hb (fld _ 51 16 * 65536)
              exact ⟨k2, cs2, m2, e2⟩
            · exact ⟨_, _, _, rfl⟩

end Sys2Proof.Machine
end

