-- ==== Sys2Proof/Laws/Lane.lean ====
section
/-! SUPPORT. What the operand forms of lane and uniform instructions do to a warp: queues popped, destinations written, predicates
set. -/

namespace Sys2Proof.Machine

/-! ## Queues -/

/-- Popping queues changes the queues alone. -/
theorem popQueues_eq (qs : List (Fin 4)) (w : Warp) : popQueues qs w = { w with aq := (popQueues qs w).aq } := by
  induction qs generalizing w with
  | nil => rfl
  | cons q r ih =>
    have h := ih { w with aq := w.aq.set q (w.aq[q].drop 1) }
    simp only [popQueues, List.foldl_cons] at h ⊢
    rw [h]

theorem popQueues_aq (qs : List (Fin 4)) (w : Warp) (hq : qs.Nodup) (n : Fin 4) :
    (popQueues qs w).aq[n] = if qs.contains n then (w.aq[n]).drop 1 else w.aq[n] := by
  induction qs generalizing w with
  | nil => rfl
  | cons q r ih =>
    obtain ⟨h1, h2⟩ := List.nodup_cons.mp hq
    have h := ih { w with aq := w.aq.set q (w.aq[q].drop 1) } h2
    simp only [popQueues, List.foldl_cons] at h ⊢
    rw [h]
    by_cases e : n = q
    · subst e; simp [h1]
    · have e' : (q : ℕ) ≠ n := fun x => e (Fin.ext x.symm)
      simp [e, Vector.getElem_set_ne, e']

theorem namedQueues_nodup (vs : List (VOp × Nat)) : (namedQueues vs).Nodup := (List.nodup_finRange 4).filter _

theorem popped_setPc {i : Instr} {w : Warp} {a : DWord} {f : Warp → Warp} (hf : ∀ x, (f x).aq = x.aq) :
    Popped i w (setPc false a (f (popQueues (namedQueues (opnds i).vs) w))) := by
  intro n
  have : (setPc false a (f (popQueues (namedQueues (opnds i).vs) w))).aq = (popQueues (namedQueues (opnds i).vs) w).aq := by
    simp only [setPc, Bool.false_eq_true, if_false]; exact hf _
  rw [this]
  exact popQueues_aq _ _ (namedQueues_nodup _) n

/-! ## Lane destinations -/

theorem mixRow_get (m : Mask) (f : Lane → Word) (r : Row) (l : Lane) : (mixRow m f r)[l] = if m.getLsbD l.val then f l else r[l] := by
  simp [mixRow]

theorem dst_aq (m : Mask) (d : VOp) (f : Lane → Word) (w : Warp) : (dst m d f w).aq = w.aq := by
  cases d <;> simp only [dst]
  unfold setVreg; split <;> rfl

/-- Writing a destination touches the registers and sq0 alone. -/
theorem dst_eq (m : Mask) (d : VOp) (f : Lane → Word) (w : Warp) :
    dst m d f w = { w with vregs := (dst m d f w).vregs, sq := (dst m d f w).sq, nextTicket := (dst m d f w).nextTicket } := by
  cases d <;> simp only [dst]
  unfold setVreg; split <;> rfl

/-- The active lanes of the destination receive the values. -/
theorem dst_written (m : Mask) (d : VOp) (f : Lane → Word) (w v : Warp) (hv : v.vregs = w.vregs) (hs : v.sq = w.sq) :
    Written m d f w (dst m d f v) := by
  cases d with
  | v n =>
    simp only [Written, dst, setVreg, n.isLt, dif_pos]
    refine ⟨fun l => ?_, fun k hk => ?_, hs⟩
    · simp [mixRow, hv]
    · have e : (n : ℕ) ≠ k := fun x => hk (Fin.ext x.symm)
      simp [Vector.getElem_set_ne, e, hv]
  | sq =>
    refine ⟨hv, _, by simp only [dst]; rw [hs], rfl, rfl, fun l => ?_⟩
    rw [mixRow_get]; simp
  | _ => exact ⟨hv, hs⟩

/-- A warp's destination as a whole, through the end of its instruction. -/
theorem written_finish (i : Instr) (m : Mask) (d : VOp) (f : Lane → Word) (w : Warp) (a : DWord) :
    Written m d f w (setPc false a (dst m d f (popQueues (namedQueues (opnds i).vs) w))) := by
  have e := popQueues_eq (namedQueues (opnds i).vs) w
  have h := dst_written m d f w (popQueues (namedQueues (opnds i).vs) w) (by rw [e]) (by rw [e])
  simp only [setPc, Bool.false_eq_true, if_false]
  cases d <;> exact h

/-- What the warp keeps through a lane instruction. -/
theorem lane_keeps (i : Instr) (m : Mask) (d : VOp) (f : Lane → Word) (w : Warp) (a : DWord) (g : Flags) :
    let v := setPc false a (accrue (dst m d f (popQueues (namedQueues (opnds i).vs) w)) g)
    v = { w with pc := a, vregs := v.vregs, sq := v.sq, nextTicket := v.nextTicket, aq := v.aq, fflags := w.fflags ||| g } := by
  have e := popQueues_eq (namedQueues (opnds i).vs) w
  have h := dst_eq m d f (popQueues (namedQueues (opnds i).vs) w)
  simp only [setPc, Bool.false_eq_true, if_false, accrue]
  rw [h, e]

theorem accrue_zero (w : Warp) : accrue w 0 = w := by simp [accrue]

/-! ## Predicates -/

theorem maskOf_get (f : Lane → Bool) (l : Lane) : (maskOf f).getLsbD l.val = f l := by
  simp [maskOf]

theorem setPred_eq (w : Warp) (p : Fin 8) (m f : Mask) : setPred w p m f = { w with preds := (setPred w p m f).preds } := by
  unfold setPred; split <;> rfl

theorem setPred_written (w v : Warp) (p : Fin 8) (m f : Mask) (h : v.preds = w.preds) :
    PredWritten m p (fun l => f.getLsbD l.val) w (setPred v p m f) := by
  unfold setPred
  refine ⟨fun l hp => ?_, fun k hk => ?_⟩
  · rw [if_neg hp]
    simp only [Fin.getElem_fin, Vector.getElem_set_self, h, BitVec.getLsbD_or, BitVec.getLsbD_and, BitVec.getLsbD_not]
    cases m.getLsbD l.val <;> simp
  · split
    · simp only [h]
    · rename_i hp
      have e : (p : ℕ) ≠ k := by
        intro x
        have : k = p := Fin.ext x.symm
        rcases hk with hk | hk
        · exact hk this
        · exact hp (this ▸ hk)
      simp [Vector.getElem_set_ne, e, h]

/-! ## Uniform destinations -/

/-- The warp after a uniform instruction that names no queue. -/
theorem setS_written {w : Warp} {slice : Bool} {d : SOp} (x : Word) (a : DWord) (hd : d ≠ .lit)
    (hs : slice = true → w.slice.isSome) : SregWritten slice d x a w (setPc slice a (setS slice d x w)) := by
  cases d with
  | lit => exact absurd rfl hd
  | s n =>
    cases slice with
    | false =>
      simp only [SregWritten, setPc, setS, setSreg, Bool.false_eq_true, if_false, n.isLt, dif_pos]
    | true =>
      obtain ⟨y, hy⟩ := Option.isSome_iff_exists.mp (hs rfl)
      simp only [SregWritten, setPc, setS, if_true, hy, Option.map_some]
      exact ⟨y, rfl, rfl⟩

theorem setPc_went {w : Warp} {slice : Bool} (a : DWord) (hs : slice = true → w.slice.isSome) : WentTo slice a w (setPc slice a w) := by
  cases slice with
  | false => simp only [WentTo, setPc, Bool.false_eq_true, if_false]
  | true =>
    obtain ⟨y, hy⟩ := Option.isSome_iff_exists.mp (hs rfl)
    simp only [WentTo, setPc, if_true, hy, Option.map_some]
    exact ⟨y, rfl, rfl⟩

/-- A slice that issues is there. -/
theorem Issued.sliceThere {i : Instr} {s : State} {c : Ctx} (g : Issued i s c) (h : c.slice = true) : c.w.slice.isSome := by
  have ok := g.ok
  simp only [passes, h, Bool.and_eq_true, Bool.not_eq_true'] at ok
  have h1 := ok.1.1.1.1.1
  cases hw : c.w.slice with
  | some y => rfl
  | none => simp [State.blocked, hw] at h1

/-- A uniform destination of an instruction that issues is a register. -/
theorem Issued.destOk {i : Instr} {s : State} {c : Ctx} (g : Issued i s c) {d : SOp} {n : Nat} (h : (opnds i).sd = [(d, n)]) :
    d ≠ .lit := by
  have ok := g.ok
  simp only [passes, Bool.and_eq_true, Option.isNone_iff_eq_none] at ok
  have h3 := ok.1.1.1.2
  unfold State.illegal at h3
  intro hd
  simp only at h3
  rw [if_pos] at h3
  · cases h3
  · simp [codesOk, h, hd, sdstOk]

end Sys2Proof.Machine
end

