-- ==== Sys2Proof/Laws/PerInstr.lean ====
section
/-! SUPPORT. Facts about every instruction as syntax, one lemma for each: an instruction with words occupies 4, 8 or 12 bytes (R133). -/

namespace Sys2Proof.Laws.Length

/-- An instruction that is no device step occupies 4 to 12 bytes, a multiple of 4. -/
def Statement (i : Instr) : Prop := i.isDevice = false → 4 ≤ i.length ∧ i.length ≤ 12 ∧ i.length % 4 = 0

/-- What has a first word has at most an extension word and a literal word besides. -/
theorem of_head (i : Instr) (h : (encodeHead i).isSome = true) : Statement i := by
  intro _
  unfold Instr.length encode
  cases e : encodeHead i with
  | none => simp [e] at h
  | some p =>
    obtain ⟨w, x⟩ := p
    cases x <;> by_cases l : i.namesLit = true <;> simp [l]

theorem of_device (i : Instr) (h : i.isDevice = true) : Statement i := fun g => by simp [g] at h

theorem iadd (o : FormA) : Statement (.iadd o) := of_head _ rfl
theorem isub (o : FormA) : Statement (.isub o) := of_head _ rfl
theorem imul (o : FormA) : Statement (.imul o) := of_head _ rfl
theorem imulh (o : FormA) : Statement (.imulh o) := of_head _ rfl
theorem imulhU (o : FormA) : Statement (.imulhU o) := of_head _ rfl
theorem imad (o : FormA3) : Statement (.imad o) := of_head _ rfl
theorem idiv (o : FormA) : Statement (.idiv o) := of_head _ rfl
theorem idivU (o : FormA) : Statement (.idivU o) := of_head _ rfl
theorem irem (o : FormA) : Statement (.irem o) := of_head _ rfl
theorem iremU (o : FormA) : Statement (.iremU o) := of_head _ rfl
theorem imin (o : FormA) : Statement (.imin o) := of_head _ rfl
theorem iminU (o : FormA) : Statement (.iminU o) := of_head _ rfl
theorem imax (o : FormA) : Statement (.imax o) := of_head _ rfl
theorem imaxU (o : FormA) : Statement (.imaxU o) := of_head _ rfl
theorem iabs (o : FormA1) : Statement (.iabs o) := of_head _ rfl
theorem and (o : FormA) : Statement (.and o) := of_head _ rfl
theorem or (o : FormA) : Statement (.or o) := of_head _ rfl
theorem xor (o : FormA) : Statement (.xor o) := of_head _ rfl
theorem bmix (o : FormA3) (fn : BitVec 8) : Statement (.bmix o fn) := of_head _ rfl
theorem shl (o : FormA) : Statement (.shl o) := of_head _ rfl
theorem shr (o : FormA) : Statement (.shr o) := of_head _ rfl
theorem shrA (o : FormA) : Statement (.shrA o) := of_head _ rfl
theorem popc (o : FormA1) : Statement (.popc o) := of_head _ rfl
theorem clz (o : FormA1) : Statement (.clz o) := of_head _ rfl
theorem brev (o : FormA1) : Statement (.brev o) := of_head _ rfl
theorem bfe (o : FormA1) (sx : Bool) (len : BitVec 6) (pos : BitVec 5) : Statement (.bfe o sx len pos) := of_head _ rfl
theorem bfi (o : FormA) (len : BitVec 6) (pos : BitVec 5) : Statement (.bfi o len pos) := of_head _ rfl
theorem icmp (q qd : Fin 8) (cc : Cond) (a b : VOp) (k : Word) : Statement (.icmp q qd cc a b k) := of_head _ rfl
theorem fcmp (q qd : Fin 8) (cc : FCond) (a b : VOp) (k : Word) : Statement (.fcmp q qd cc a b k) := of_head _ rfl
theorem qand (o : FormL) : Statement (.qand o) := of_head _ rfl
theorem qor (o : FormL) : Statement (.qor o) := of_head _ rfl
theorem qxor (o : FormL) : Statement (.qxor o) := of_head _ rfl
theorem sel (qs : Fin 8) (d a b : VOp) (k : Word) : Statement (.sel qs d a b k) := of_head _ rfl
theorem movqRead (q : Fin 8) (d : VOp) : Statement (.movqRead q d) := of_head _ rfl
theorem movqWrite (q : Fin 8) (a : VOp) (k : Word) : Statement (.movqWrite q a k) := of_head _ rfl
theorem fadd (o : FormA) : Statement (.fadd o) := of_head _ rfl
theorem fsub (o : FormA) : Statement (.fsub o) := of_head _ rfl
theorem fmul (o : FormA) : Statement (.fmul o) := of_head _ rfl
theorem fmin (o : FormA) : Statement (.fmin o) := of_head _ rfl
theorem fmax (o : FormA) : Statement (.fmax o) := of_head _ rfl
theorem ffma (o : FormA3) (np nc : Bool) (rm : RMode) : Statement (.ffma o np nc rm) := of_head _ rfl
theorem fx (o : FormA3) (ty : FxTy) (op : FxOp) (na nb nc : Bool) (rm : RMode) : Statement (.fx o ty op na nb nc rm) := of_head _ rfl
theorem fdiv (o : FormA) (rm : RMode) : Statement (.fdiv o rm) := of_head _ rfl
theorem fsqrt (o : FormA1) : Statement (.fsqrt o) := of_head _ rfl
theorem frcp (o : FormA1) : Statement (.frcp o) := of_head _ rfl
theorem frsq (o : FormA1) : Statement (.frsq o) := of_head _ rfl
theorem fexp2 (o : FormA1) : Statement (.fexp2 o) := of_head _ rfl
theorem flog2 (o : FormA1) : Statement (.flog2 o) := of_head _ rfl
theorem fsin (o : FormA1) : Statement (.fsin o) := of_head _ rfl
theorem fcos (o : FormA1) : Statement (.fcos o) := of_head _ rfl
theorem cvt (o : FormA1) (st dt : Ty) (sat : Bool) (rm : RMode) (se de : BitVec 2) : Statement (.cvt o st dt sat rm se de) := of_head _ rfl
theorem mov (o : FormA1) : Statement (.mov o) := of_head _ rfl
theorem movs (q : Fin 8) (d : VOp) (a : SOp) (k : Word) : Statement (.movs q d a k) := of_head _ rfl
theorem xlane (o : FormA) (g : Fin 6) (mode : XMode) : Statement (.xlane o g mode) := of_head _ rfl
theorem vote (q : Fin 8) (d : SOp) (p : Fin 8) (mode : VoteMode) : Statement (.vote q d p mode) := of_head _ rfl
theorem lfold (q : Fin 8) (d : SOp) (a : VOp) (op : FoldOp) (k : Word) : Statement (.lfold q d a op k) := of_head _ rfl
theorem ld (o : FormM) : Statement (.ld o) := of_head _ rfl
theorem st (o : FormM) : Statement (.st o) := of_head _ rfl
theorem ldx (o : FormM) (off : Word) : Statement (.ldx o off) := of_head _ rfl
theorem stx (o : FormM) (off : Word) : Statement (.stx o off) := of_head _ rfl
theorem atom (o : FormM) (c : VOp) (op : AtomOp) (ord : Ord) : Statement (.atom o c op ord) := of_head _ rfl
theorem cas (o : FormM) (c e : VOp) (ord : Ord) : Statement (.cas o c e ord) := of_head _ rfl
theorem spawn (q : Fin 8) (a b : VOp) (k : Word) : Statement (.spawn q a b k) := of_head _ rfl
theorem mma (q : Fin 8) (fw : VOp) (cn : Fin 4) (ta tb : Fin 8) (k : Word) : Statement (.mma q fw cn ta tb k) := of_head _ rfl
theorem unassignedOpcode (w : Word) : Statement (.unassignedOpcode w) := of_head _ rfl
theorem sadd (o : FormG) : Statement (.sadd o) := of_head _ rfl
theorem ssub (o : FormG) : Statement (.ssub o) := of_head _ rfl
theorem smul (o : FormG) : Statement (.smul o) := of_head _ rfl
theorem sand (o : FormG) : Statement (.sand o) := of_head _ rfl
theorem sor (o : FormG) : Statement (.sor o) := of_head _ rfl
theorem sxor (o : FormG) : Statement (.sxor o) := of_head _ rfl
theorem sshl (o : FormG) : Statement (.sshl o) := of_head _ rfl
theorem sshr (o : FormG) : Statement (.sshr o) := of_head _ rfl
theorem sshrA (o : FormG) : Statement (.sshrA o) := of_head _ rfl
theorem smin (o : FormG) : Statement (.smin o) := of_head _ rfl
theorem sminU (o : FormG) : Statement (.sminU o) := of_head _ rfl
theorem smax (o : FormG) : Statement (.smax o) := of_head _ rfl
theorem smaxU (o : FormG) : Statement (.smaxU o) := of_head _ rfl
theorem smov (d a : SOp) (k : Word) : Statement (.smov d a k) := of_head _ rfl
theorem sfadd (o : FormG) (rm : RMode) : Statement (.sfadd o rm) := of_head _ rfl
theorem sfmul (o : FormG) (rm : RMode) : Statement (.sfmul o rm) := of_head _ rfl
theorem bra (off : BitVec 20) : Statement (.bra off) := of_head _ rfl
theorem bcc (cc : Cond) (off : BitVec 20) (a b : SOp) (k : Word) : Statement (.bcc cc off a b k) := of_head _ rfl
theorem bq (inv : Bool) (p : Fin 8) (off : BitVec 20) : Statement (.bq inv p off) := of_head _ rfl
theorem rcv (off : BitVec 20) : Statement (.rcv off) := of_head _ rfl
theorem join : Statement .join := of_head _ rfl
theorem call (off : BitVec 20) : Statement (.call off) := of_head _ rfl
theorem ret (a : SOp) : Statement (.ret a) := of_head _ rfl
theorem loop (c : Fin 16) (off : BitVec 20) : Statement (.loop c off) := of_head _ rfl
theorem exit : Statement .exit := of_head _ rfl
theorem split (off : BitVec 20) : Statement (.split off) := of_head _ rfl
theorem qld (n : Fin 4) (o : FormQ) : Statement (.qld n o) := of_head _ rfl
theorem qst (o : FormQ) : Statement (.qst o) := of_head _ rfl
theorem bar (d a : SOp) (op : Option FoldOp) (k : Word) : Statement (.bar d a op k) := of_head _ rfl
theorem barc : Statement .barc := of_head _ rfl
theorem pbarr (cl : Bool) (o : FormG) : Statement (.pbarr cl o) := of_head _ rfl
theorem pbwait (cl : Bool) (a b : SOp) (k : Word) : Statement (.pbwait cl a b k) := of_head _ rfl
theorem fence (sc : Scope) : Statement (.fence sc) := of_head _ rfl
theorem waitc (l s c t : BitVec 6) : Statement (.waitc l s c t) := of_head _ rfl
theorem waitw (d a b : SOp) (cc : Cond) : Statement (.waitw d a b cc) := of_head _ rfl
theorem sleept (a : SOp) (k : Word) : Statement (.sleept a k) := of_head _ rfl
theorem nop : Statement .nop := of_head _ rfl
theorem copy (d a : SOp) (dsp ssp : Space) : Statement (.copy d a dsp ssp) := of_head _ rfl
theorem tld (o : FormT) : Statement (.tld o) := of_head _ rfl
theorem tst (o : FormT) : Statement (.tst o) := of_head _ rfl
theorem czero (m : BitVec 4) : Statement (.czero m) := of_head _ rfl
theorem cst (cn : Fin 4) (space : Space) (d a b : SOp) (k : Word) : Statement (.cst cn space d a b k) := of_head _ rfl
theorem dlaunch (d a : SOp) : Statement (.dlaunch d a) := of_head _ rfl
theorem dsigTok (a b : SOp) (k : Word) : Statement (.dsigTok a b k) := of_head _ rfl
theorem dsigAbort (a : SOp) (k : Word) : Statement (.dsigAbort a k) := of_head _ rfl
theorem dstat (o : FormG) : Statement (.dstat o) := of_head _ rfl
theorem sgfork (d a : SOp) : Statement (.sgfork d a) := of_head _ rfl
theorem sgreward (d b : SOp) (k : Word) : Statement (.sgreward d b k) := of_head _ rfl
theorem sgcancel (d a b : SOp) (k : Word) : Statement (.sgcancel d a b k) := of_head _ rfl
theorem sgwait (d a : SOp) : Statement (.sgwait d a) := of_head _ rfl
theorem wdrun (o : FormG) : Statement (.wdrun o) := of_head _ rfl
theorem movcRead (d : SOp) (n : BitVec 11) : Statement (.movcRead d n) := of_head _ rfl
theorem movcWrite (a : SOp) (n : BitVec 11) (k : Word) : Statement (.movcWrite a n k) := of_head _ rfl
theorem trap (a : SOp) (code : BitVec 6) (k : Word) : Statement (.trap a code k) := of_head _ rfl
theorem eret : Statement .eret := of_head _ rfl
theorem brk : Statement .brk := of_head _ rfl
theorem cflush (a b : SOp) (k : Word) : Statement (.cflush a b k) := of_head _ rfl
theorem cflushAll : Statement .cflushAll := of_head _ rfl
theorem cinv (a b : SOp) (k : Word) : Statement (.cinv a b k) := of_head _ rfl
theorem cinvAll : Statement .cinvAll := of_head _ rfl
theorem pref (a : SOp) (lvl : PrefLvl) : Statement (.pref a lvl) := of_head _ rfl
theorem stestHold (o : FormG) : Statement (.stestHold o) := of_head _ rfl
theorem stestChunk (o : FormG) : Statement (.stestChunk o) := of_head _ rfl
theorem stestAppeal (o : FormG) : Statement (.stestAppeal o) := of_head _ rfl
theorem stestFree (o : FormG) : Statement (.stestFree o) := of_head _ rfl
theorem loadComplete (wid op : Nat) : Statement (.loadComplete wid op) := of_device _ rfl
theorem storeComplete (wid op : Nat) : Statement (.storeComplete wid op) := of_device _ rfl
theorem tileOpComplete (wid op : Nat) : Statement (.tileOpComplete wid op) := of_device _ rfl
theorem matrixOpEnd (core part : Nat) : Statement (.matrixOpEnd core part) := of_device _ rfl
theorem copyChunkDone (copy chunk : Nat) : Statement (.copyChunkDone copy chunk) := of_device _ rfl
theorem waitcEnd (wid : Nat) : Statement (.waitcEnd wid) := of_device _ rfl
theorem waitwWake (wid : Nat) : Statement (.waitwWake wid) := of_device _ rfl
theorem waitwRemotePoll (wid : Nat) : Statement (.waitwRemotePoll wid) := of_device _ rfl
theorem pbwaitWake (wid : Nat) : Statement (.pbwaitWake wid) := of_device _ rfl
theorem sgwaitWake (wid : Nat) : Statement (.sgwaitWake wid) := of_device _ rfl
theorem sleeptWake (wid : Nat) : Statement (.sleeptWake wid) := of_device _ rfl
theorem exitDrainEnd (wid : Nat) : Statement (.exitDrainEnd wid) := of_device _ rfl
theorem weightBlockFetched (wid : Nat) : Statement (.weightBlockFetched wid) := of_device _ rfl
theorem stestChunkEnd (wid : Nat) : Statement (.stestChunkEnd wid) := of_device _ rfl
theorem spawnBinTimer (core bin : Nat) : Statement (.spawnBinTimer core bin) := of_device _ rfl
theorem spawnWarpPlace (die : Nat) : Statement (.spawnWarpPlace die) := of_device _ rfl
theorem nodeStart (node : Nat) : Statement (.nodeStart node) := of_device _ rfl
theorem blockPlace (node : Nat) : Statement (.blockPlace node) := of_device _ rfl
theorem nodeComplete (node : Nat) : Statement (.nodeComplete node) := of_device _ rfl
theorem timeSliceExpiry (node : Nat) : Statement (.timeSliceExpiry node) := of_device _ rfl
theorem parkedBlockSwap (block : Nat) : Statement (.parkedBlockSwap block) := of_device _ rfl
theorem swappedBlockReturn (block : Nat) : Statement (.swappedBlockReturn block) := of_device _ rfl
theorem groupDeadline (group : Nat) : Statement (.groupDeadline group) := of_device _ rfl
theorem workStopComplete (node : Nat) : Statement (.workStopComplete node) := of_device _ rfl
theorem gangSwitch : Statement .gangSwitch := of_device _ rfl
theorem switchOverrun : Statement .switchOverrun := of_device _ rfl
theorem create (c : HostCmd) : Statement (.create c) := of_device _ rfl
theorem destroy (c : HostCmd) : Statement (.destroy c) := of_device _ rfl
theorem quiesce (c : HostCmd) : Statement (.quiesce c) := of_device _ rfl
theorem quiesceResume (c : HostCmd) : Statement (.quiesceResume c) := of_device _ rfl
theorem submit (c : HostCmd) : Statement (.submit c) := of_device _ rfl
theorem teardownDrain (c : HostCmd) : Statement (.teardownDrain c) := of_device _ rfl
theorem teardownKill (c : HostCmd) : Statement (.teardownKill c) := of_device _ rfl
theorem arm (c : HostCmd) : Statement (.arm c) := of_device _ rfl
theorem disarm (c : HostCmd) : Statement (.disarm c) := of_device _ rfl
theorem querySlots (c : HostCmd) : Statement (.querySlots c) := of_device _ rfl
theorem queryNode (c : HostCmd) : Statement (.queryNode c) := of_device _ rfl
theorem invalidate (c : HostCmd) : Statement (.invalidate c) := of_device _ rfl
theorem invalidateComplete : Statement .invalidateComplete := of_device _ rfl
theorem config (c : HostCmd) : Statement (.config c) := of_device _ rfl
theorem badcmd (c : HostCmd) (op : BitVec 8) : Statement (.badcmd c op) := of_device _ rfl
theorem registerWrite (off : Nat) (value : Word) : Statement (.registerWrite off value) := of_device _ rfl
theorem memoryWindowRead (off len : Nat) : Statement (.memoryWindowRead off len) := of_device _ rfl
theorem memoryWindowWrite (off : Nat) (data : List Byte) : Statement (.memoryWindowWrite off data) := of_device _ rfl
theorem unsupportedRequest (off : Nat) : Statement (.unsupportedRequest off) := of_device _ rfl
theorem attest : Statement .attest := of_device _ rfl
theorem access : Statement .access := of_device _ rfl
theorem power : Statement .power := of_device _ rfl
theorem record : Statement .record := of_device _ rfl
theorem counters : Statement .counters := of_device _ rfl
theorem links : Statement .links := of_device _ rfl
theorem mailboxBadarg : Statement .mailboxBadarg := of_device _ rfl
theorem moduleReset : Statement .moduleReset := of_device _ rfl
theorem peerRequest (r : PeerReq) : Statement (.peerRequest r) := of_device _ rfl
theorem peerTimeout (wid op : Nat) : Statement (.peerTimeout wid op) := of_device _ rfl
theorem cxlTimeout (wid op : Nat) : Statement (.cxlTimeout wid op) := of_device _ rfl
theorem cxlLinkDown (port : Fin 8) : Statement (.cxlLinkDown port) := of_device _ rfl
theorem migration (slot : Fin 8) (va : Nat) (pa : Nat) : Statement (.migration slot va pa) := of_device _ rfl
theorem decoftInstanceStart (inst : Nat) : Statement (.decoftInstanceStart inst) := of_device _ rfl
theorem fuFire (inst unit : Nat) : Statement (.fuFire inst unit) := of_device _ rfl
theorem tokenTransit (inst route : Nat) : Statement (.tokenTransit inst route) := of_device _ rfl
theorem streamPortAccess (inst port : Nat) : Statement (.streamPortAccess inst port) := of_device _ rfl
theorem streamDataReturn (inst port : Nat) : Statement (.streamDataReturn inst port) := of_device _ rfl
theorem scatterAddBatch (inst port : Nat) : Statement (.scatterAddBatch inst port) := of_device _ rfl
theorem bankAccess (inst bank : Nat) : Statement (.bankAccess inst bank) := of_device _ rfl
theorem instanceComplete (inst : Nat) : Statement (.instanceComplete inst) := of_device _ rfl
theorem collectiveChunkReceive (key : BitVec 8) (src : Fin 16384) (addr : Nat) (data : List Byte) : Statement (.collectiveChunkReceive key src addr data) := of_device _ rfl
theorem collectiveChunkAck (node chunk : Nat) (refused : Bool) : Statement (.collectiveChunkAck node chunk refused) := of_device _ rfl
theorem chunkResend (node chunk : Nat) : Statement (.chunkResend node chunk) := of_device _ rfl
theorem collectiveGiveUp (node chunk : Nat) : Statement (.collectiveGiveUp node chunk) := of_device _ rfl
theorem heartbeatSend (core : Fin 1536) : Statement (.heartbeatSend core) := of_device _ rfl
theorem heartbeatReceive (core : Fin 1536) (dir : Dir) (packet : BitVec 128) : Statement (.heartbeatReceive core dir packet) := of_device _ rfl
theorem heartbeatMiss (core : Fin 1536) (dir : Dir) : Statement (.heartbeatMiss core dir) := of_device _ rfl
theorem votePeriod (core : Fin 1536) : Statement (.votePeriod core) := of_device _ rfl
theorem routerReset (core : Fin 1536) : Statement (.routerReset core) := of_device _ rfl
theorem solitarySuspect (core : Fin 1536) : Statement (.solitarySuspect core) := of_device _ rfl
theorem appealTimeout (core : Fin 1536) : Statement (.appealTimeout core) := of_device _ rfl
theorem loamLinkDown (port : Fin 24) : Statement (.loamLinkDown port) := of_device _ rfl
theorem loamLinkUp (port : Fin 24) (peer : Fin 16384) : Statement (.loamLinkUp port peer) := of_device _ rfl
theorem operatingPointChange (p : PointOf) : Statement (.operatingPointChange p) := of_device _ rfl

end Sys2Proof.Laws.Length
end

