-- ==== Sys2Proof/Laws/Round.lean ====
section
/-! SUPPORT. Rounding: the magnitudes of a format in the order of their patterns, and what `roundMag` answers
(spec/03_numbers.md R59-R62). -/

namespace Sys2Proof.Machine

/-! ## Magnitudes -/

/-- The magnitude of pattern `x` without its sign, the exponents going on past the last. -/
def Fmt.mag (f : Fmt) (x : Nat) : ℚ :=
  if x < 2 ^ f.mb then x * 2 ^ (1 - (f.bias : Int) - f.mb)
  else ((x % 2 ^ f.mb + 2 ^ f.mb : Nat) : ℚ) * 2 ^ (((x / 2 ^ f.mb : Nat) : Int) - f.bias - f.mb)

theorem zpow2_succ (e : Int) : (2 : ℚ) ^ (e + 1) = 2 * 2 ^ e := by rw [zpow_add_one₀ (by norm_num)]; ring

theorem zpow2_pos (e : Int) : (0 : ℚ) < 2 ^ e := by positivity

/-- A significand of up to one bit more than the format's, at exponent field `b`. -/
theorem Fmt.mag_at (f : Fmt) (b k : Nat) (hb : 1 ≤ b) (hk : k ≤ 2 ^ (f.mb + 1)) (hn : 2 ^ f.mb ≤ k ∨ b = 1) :
    f.mag ((b - 1) * 2 ^ f.mb + k) = k * 2 ^ ((b : Int) - f.bias - f.mb) := by
  have hp : 0 < 2 ^ f.mb := Nat.two_pow_pos _
  obtain ⟨b, rfl⟩ : ∃ c, b = c + 1 := ⟨b - 1, by omega⟩
  simp only [Nat.add_sub_cancel]
  rw [pow_succ] at hk
  generalize hP : 2 ^ f.mb = P at *
  unfold Fmt.mag
  rw [hP]
  by_cases h1 : k < P
  · obtain rfl : b = 0 := by omega
    simp [h1]
  · have hge : ¬ b * P + k < P := by omega
    rw [if_neg hge]
    by_cases h2 : k < 2 * P
    · obtain ⟨j, rfl⟩ : ∃ j, k = P + j := ⟨k - P, by omega⟩
      have e : b * P + (P + j) = j + P * (b + 1) := by ring
      have hj : j < P := by omega
      rw [e, Nat.add_mul_mod_self_left, Nat.mod_eq_of_lt hj, Nat.add_mul_div_left _ _ hp, Nat.div_eq_of_lt hj]
      push_cast; ring_nf
    · obtain rfl : k = 2 * P := by omega
      have e : b * P + 2 * P = 0 + P * (b + 2) := by ring
      rw [e, Nat.add_mul_mod_self_left, Nat.zero_mod, Nat.add_mul_div_left _ _ hp, Nat.zero_div]
      push_cast
      have : (0 + ((b : Int) + 2) - f.bias - f.mb) = ((b : Int) + 1 - f.bias - f.mb) + 1 := by ring
      rw [this, zpow2_succ]; ring

theorem Fmt.mag_step (f : Fmt) (x : Nat) : f.mag x < f.mag (x + 1) := by
  have hp : 0 < 2 ^ f.mb := Nat.two_pow_pos _
  have key : ∃ b k, 1 ≤ b ∧ k < 2 ^ (f.mb + 1) ∧ (2 ^ f.mb ≤ k ∨ b = 1) ∧ x = (b - 1) * 2 ^ f.mb + k := by
    by_cases h : x < 2 ^ f.mb
    · exact ⟨1, x, le_rfl, by rw [pow_succ]; omega, .inr rfl, by simp⟩
    · have h1 : 1 ≤ x / 2 ^ f.mb := (Nat.one_le_div_iff hp).2 (by omega)
      have h2 := Nat.mod_lt x hp
      have h3 := Nat.div_add_mod x (2 ^ f.mb)
      refine ⟨x / 2 ^ f.mb, x % 2 ^ f.mb + 2 ^ f.mb, h1, by rw [pow_succ]; omega, .inl (by omega), ?_⟩
      obtain ⟨c, hc⟩ : ∃ c, x / 2 ^ f.mb = c + 1 := ⟨x / 2 ^ f.mb - 1, by omega⟩
      rw [hc] at h3 ⊢
      have e : 2 ^ f.mb * (c + 1) = c * 2 ^ f.mb + 2 ^ f.mb := by ring
      simp only [Nat.add_sub_cancel]
      omega
  obtain ⟨b, k, hb, hk, hn, rfl⟩ := key
  rw [f.mag_at b k hb (by omega) hn, Nat.add_assoc, f.mag_at b (k + 1) hb (by omega) (by omega)]
  have := zpow2_pos ((b : Int) - f.bias - f.mb)
  push_cast
  nlinarith

theorem Fmt.mag_mono (f : Fmt) : StrictMono f.mag := strictMono_nat_of_lt_succ f.mag_step

/-- The value of a pattern, by its sign and magnitude. -/
theorem decodeF_rat (f : Fmt) (y : Nat) : (decodeF f y).rat =
    if y % 2 ^ (f.eb + f.mb) < f.inf
    then some ((if y / 2 ^ (f.eb + f.mb) % 2 == 1 then -1 else 1) * f.mag (y % 2 ^ (f.eb + f.mb))) else none := by
  have hp : 0 < 2 ^ f.mb := Nat.two_pow_pos _
  have hex : y / 2 ^ f.mb % 2 ^ f.eb = y % 2 ^ (f.eb + f.mb) / 2 ^ f.mb := by
    rw [Nat.add_comm, Nat.pow_add, Nat.mod_mul_right_div_self]
  have hm : y % 2 ^ f.mb = y % 2 ^ (f.eb + f.mb) % 2 ^ f.mb :=
    (Nat.mod_mod_of_dvd _ (Nat.pow_dvd_pow 2 (by omega))).symm
  unfold decodeF
  rw [hex, hm]
  generalize y / 2 ^ (f.eb + f.mb) % 2 = sg
  have hx : y % 2 ^ (f.eb + f.mb) < 2 ^ (f.eb + f.mb) := Nat.mod_lt _ (Nat.two_pow_pos _)
  generalize y % 2 ^ (f.eb + f.mb) = x at *
  have hlt : x / 2 ^ f.mb < 2 ^ f.eb := by
    rw [Nat.div_lt_iff_lt_mul hp, ← Nat.pow_add]; exact hx
  have hi : x < f.inf ↔ x / 2 ^ f.mb < 2 ^ f.eb - 1 := by
    unfold Fmt.inf; rw [Nat.div_lt_iff_lt_mul hp]
  by_cases h1 : x / 2 ^ f.mb = 2 ^ f.eb - 1
  · have : ¬ x < f.inf := by rw [hi]; omega
    simp only [h1, if_true, this, if_false]
    split <;> rfl
  · have : x < f.inf := by rw [hi]; omega
    simp only [h1, if_false, this, if_true]
    by_cases h2 : x / 2 ^ f.mb = 0
    · have h3 : x < 2 ^ f.mb := (Nat.div_eq_zero_iff_lt hp).1 h2
      simp [h2, FVal.rat, Fmt.mag, h3, Nat.mod_eq_of_lt h3]
    · have h3 : ¬ x < 2 ^ f.mb := fun h => h2 ((Nat.div_eq_zero_iff_lt hp).2 h)
      simp [h2, FVal.rat, Fmt.mag, h3]
      split <;> ring

/-- A format of this machine: at least two exponent bits and one fraction bit. -/
structure Fmt.Ok (f : Fmt) : Prop where
  eb : 2 ≤ f.eb
  mb : 1 ≤ f.mb

theorem Fmt.Ok.bias2 {f : Fmt} (h : f.Ok) : 2 * f.bias + 2 = 2 ^ f.eb ∧ 1 ≤ f.bias := by
  obtain ⟨k, hk⟩ : ∃ k, f.eb = k + 2 := ⟨f.eb - 2, by have := h.eb; omega⟩
  have := Nat.one_le_two_pow (n := k)
  unfold Fmt.bias
  rw [hk]
  simp only [show k + 2 - 1 = k + 1 by omega, pow_succ]
  omega

theorem Fmt.inf_pos {f : Fmt} (h : f.Ok) : 2 ^ f.mb < f.inf - 1 ∧ f.inf < 2 ^ (f.eb + f.mb) := by
  have h1 := h.bias2
  have h2 : 2 ≤ 2 ^ f.mb := by simpa using Nat.pow_le_pow_right (n := 2) (by norm_num) h.mb
  unfold Fmt.inf
  rw [Nat.pow_add, ← h1.1]
  generalize 2 ^ f.mb = P at *
  have : (2 * f.bias + 2 - 1) * P = 2 * f.bias * P + P := by
    rw [show 2 * f.bias + 2 - 1 = 2 * f.bias + 1 by omega]; ring
  have e : (2 * f.bias + 2) * P = 2 * f.bias * P + P + P := by ring
  have : P ≤ f.bias * P := Nat.le_mul_of_pos_left _ h1.2
  have e2 : 2 * f.bias * P = 2 * (f.bias * P) := by ring
  omega

theorem Fmt.inf_even {f : Fmt} (h : f.Ok) : f.inf % 2 = 0 := by
  obtain ⟨k, hk⟩ : ∃ k, f.mb = k + 1 := ⟨f.mb - 1, by have := h.mb; omega⟩
  unfold Fmt.inf
  rw [hk, pow_succ, ← Nat.mul_assoc, Nat.mul_mod_left]

theorem Fmt.mag_inf {f : Fmt} (h : f.Ok) :
    f.mag f.inf = 2 ^ ((f.bias : Int) + 1) ∧ f.mag (f.inf - 1) = f.most ∧ 2 * (f.most + f.halfUnit) = f.most + f.mag f.inf := by
  have h1 := h.bias2
  have hp : 0 < 2 ^ f.mb := Nat.two_pow_pos _
  have a1 := f.mag_at (2 * f.bias) (2 ^ (f.mb + 1)) (by omega) le_rfl (.inl (by rw [pow_succ]; omega))
  have a2 := f.mag_at (2 * f.bias) (2 ^ (f.mb + 1) - 1) (by omega) (by omega) (.inl (by rw [pow_succ]; omega))
  have e1 : (2 * f.bias - 1) * 2 ^ f.mb + 2 ^ (f.mb + 1) = f.inf := by
    unfold Fmt.inf
    rw [← h1.1, pow_succ]
    obtain ⟨c, hc⟩ : ∃ c, f.bias = c + 1 := ⟨f.bias - 1, by omega⟩
    rw [hc, show 2 * (c + 1) - 1 = 2 * c + 1 by omega, show 2 * (c + 1) + 2 - 1 = 2 * c + 3 by omega]
    ring
  have e2 : (2 * f.bias - 1) * 2 ^ f.mb + (2 ^ (f.mb + 1) - 1) = f.inf - 1 := by
    have : 0 < 2 ^ (f.mb + 1) := Nat.two_pow_pos _
    omega
  have ex : ((2 * f.bias : Nat) : Int) - f.bias - f.mb = (f.bias : Int) - f.mb := by push_cast; ring
  rw [e1, ex] at a1
  rw [e2, ex] at a2
  have b1 : f.mag f.inf = 2 ^ ((f.bias : Int) + 1) := by
    rw [a1]; push_cast
    rw [← zpow_natCast, ← zpow_add₀ (by norm_num)]
    congr 1; push_cast; ring
  have b2 : f.mag (f.inf - 1) = f.most := by
    rw [a2, Fmt.most, Nat.cast_sub Nat.one_le_two_pow]; push_cast; rfl
  refine ⟨b1, b2, ?_⟩
  rw [a1, Fmt.most, Fmt.halfUnit]
  have : (2 : ℚ) ^ ((f.bias : Int) - f.mb) = 2 * 2 ^ ((f.bias : Int) - f.mb - 1) := by
    rw [← zpow2_succ]; congr 1; ring
  rw [this]; push_cast; ring

theorem Fmt.mag_normal (f : Fmt) : f.mag (2 ^ f.mb) = 2 ^ (1 - (f.bias : Int)) := by
  have := f.mag_at 1 (2 ^ f.mb) le_rfl (by rw [pow_succ]; omega) (.inr rfl)
  simp only [Nat.sub_self, Nat.zero_mul, Nat.zero_add] at this
  rw [this]; push_cast
  rw [← zpow_natCast, ← zpow_add₀ (by norm_num)]
  congr 1; ring

theorem Fmt.holds_iff {f : Fmt} (h : f.Ok) (p : ℚ) : f.holds p ↔ ∃ x, x < f.inf ∧ (p = f.mag x ∨ p = -f.mag x) := by
  constructor
  · rintro ⟨y, hy⟩
    rw [decodeF_rat] at hy
    split at hy
    · rename_i hlt
      refine ⟨_, hlt, ?_⟩
      simp only [Option.some.injEq] at hy
      subst hy
      split
      · right; ring
      · left; ring
    · exact absurd hy (by simp)
  · have hi := (Fmt.inf_pos h).2
    rintro ⟨x, hx, hp⟩
    have hx2 : x < 2 ^ (f.eb + f.mb) := by omega
    rcases hp with rfl | rfl
    · refine ⟨x, ?_⟩
      rw [decodeF_rat, Nat.mod_eq_of_lt hx2, Nat.div_eq_of_lt hx2, if_pos hx]; simp
    · refine ⟨2 ^ (f.eb + f.mb) + x, ?_⟩
      rw [decodeF_rat, Nat.add_mod_left, Nat.mod_eq_of_lt hx2, Nat.add_div_left _ (Nat.two_pow_pos _), Nat.div_eq_of_lt hx2, if_pos hx]
      simp

theorem Fmt.mag_nonneg (f : Fmt) (x : Nat) : 0 ≤ f.mag x := by unfold Fmt.mag; split <;> positivity

/-- What the sign bit before a magnitude stands for. -/
theorem decodeF_signed {f : Fmt} (h : f.Ok) (s : Bool) (x : Nat) (hx : x < f.inf) :
    (decodeF f (f.sign s + x)).rat = some (if s then -f.mag x else f.mag x) ∧ f.sign s + x < 2 ^ (f.eb + f.mb + 1)
      ∧ (f.sign s + x) / 2 ^ (f.eb + f.mb) = if s then 1 else 0 := by
  have hi := (Fmt.inf_pos h).2
  have hx2 : x < 2 ^ (f.eb + f.mb) := by omega
  have hp : 0 < 2 ^ (f.eb + f.mb) := Nat.two_pow_pos _
  rw [decodeF_rat]
  cases s
  · simp only [Fmt.sign, Bool.false_eq_true, if_false, Nat.zero_add, Nat.mod_eq_of_lt hx2, Nat.div_eq_of_lt hx2, if_pos hx, pow_succ]
    exact ⟨by simp, by omega, trivial⟩
  · simp only [Fmt.sign, if_true, Nat.add_mod_left, Nat.mod_eq_of_lt hx2, Nat.add_div_left _ hp, Nat.div_eq_of_lt hx2, if_pos hx, pow_succ]
    exact ⟨by simp, by omega, trivial⟩

theorem decodeF_infinite {f : Fmt} (h : f.Ok) (s : Bool) :
    decodeF f (f.sign s + f.inf) = .inf s ∧ f.sign s + f.inf < 2 ^ (f.eb + f.mb + 1)
      ∧ (f.sign s + f.inf) / 2 ^ (f.eb + f.mb) = if s then 1 else 0 := by
  have hi := (Fmt.inf_pos h).2
  have hp : 0 < 2 ^ (f.eb + f.mb) := Nat.two_pow_pos _
  have hm : 0 < 2 ^ f.mb := Nat.two_pow_pos _
  have hq : (f.sign s + f.inf) / 2 ^ (f.eb + f.mb) = if s then 1 else 0 := by
    cases s
    · simp [Fmt.sign, Nat.div_eq_of_lt hi]
    · simp [Fmt.sign, Nat.add_div_left _ hp, Nat.div_eq_of_lt hi]
  have h2 : (f.sign s + f.inf) % 2 ^ f.mb = 0 := by
    cases s <;> simp [Fmt.sign, Fmt.inf, Nat.pow_add, Nat.add_mod]
  have h3 : (f.sign s + f.inf) / 2 ^ f.mb % 2 ^ f.eb = 2 ^ f.eb - 1 := by
    have hl : 2 ^ f.eb - 1 < 2 ^ f.eb := by have := Nat.two_pow_pos f.eb; omega
    rw [← Nat.mod_mul_right_div_self, ← Nat.pow_add, Nat.add_comm f.mb]
    have : (f.sign s + f.inf) % 2 ^ (f.eb + f.mb) = f.inf := by
      cases s
      · simp [Fmt.sign, Nat.mod_eq_of_lt hi]
      · simp [Fmt.sign, Nat.mod_eq_of_lt hi]
    rw [this, Fmt.inf, Nat.mul_div_cancel _ hm]
  refine ⟨?_, ?_, hq⟩
  · unfold decodeF
    rw [hq, h2, h3]
    cases s <;> simp
  · rw [pow_succ]
    cases s <;> simp only [Fmt.sign, Bool.false_eq_true, if_false, if_true] <;> omega

/-- When a magnitude `w` between two neighbouring ones goes to the upper one. -/
def goesUp (f : Fmt) (rm : RMode) (s : Bool) (P : Nat) (w : ℚ) : Prop :=
  match rm with
  | .rne => f.mag P + f.mag (P + 1) < 2 * w ∨ (f.mag P + f.mag (P + 1) = 2 * w ∧ P % 2 = 1)
  | .rtz => False
  | .rdn => s = true ∧ w ≠ f.mag P
  | .rup => s = false ∧ w ≠ f.mag P

/-- A signed magnitude. -/
def signed (s : Bool) (w : ℚ) : ℚ := if s then -w else w

theorem abs_signed (s : Bool) {w : ℚ} (h : 0 ≤ w) : |signed s w| = w := by
  cases s <;> simp [signed, abs_of_nonneg h]

/-- The finite case: a magnitude goes to one of its neighbours. -/
theorem rounds_finite {f : Fmt} (h : f.Ok) (rm : RMode) (s : Bool) (P X : Nat) (w : ℚ) (h0 : 0 < w) (h1 : f.mag P ≤ w) (h2 : w < f.mag (P + 1))
    (hX : (goesUp f rm s P w → X = P + 1) ∧ (¬ goesUp f rm s P w → X = P)) (hf : X < f.inf) :
    f.rounds rm (signed s w) (f.sign s + X) (decodeF f (f.sign s + X)) := by
  obtain ⟨hd, -, -⟩ := decodeF_signed h s X hf
  have hpar : (f.sign s + X) % 2 = X % 2 := by
    cases s
    · simp [Fmt.sign]
    · obtain ⟨k, hk⟩ : ∃ k, f.eb + f.mb = k + 1 := ⟨f.eb + f.mb - 1, by have := h.mb; omega⟩
      simp only [Fmt.sign, if_true, hk, pow_succ]; omega
  have hin := Fmt.mag_inf h
  cases hdec : decodeF f (f.sign s + X) with
  | nan b => rw [hdec] at hd; simp [FVal.rat] at hd
  | inf b => rw [hdec] at hd; simp [FVal.rat] at hd
  | fin a m e =>
    rw [hdec] at hd
    have hP : P < f.inf := by
      rcases Classical.em (goesUp f rm s P w) with g | g
      · have := hX.1 g; omega
      · have := hX.2 g; omega
    have dich : ∀ x, f.mag x ≤ f.mag P ∨ f.mag (P + 1) ≤ f.mag x := fun x => by
      rcases Nat.lt_or_ge P x with hx | hx
      · exact .inr (f.mag_mono.monotone hx)
      · exact .inl (f.mag_mono.monotone hx)
    have hw : |signed s w| = w := abs_signed s h0.le
    have hq : ∀ q, (FVal.fin a m e).rat = some q → q = signed s (f.mag X) := fun q hq => by
      rw [hd] at hq; cases s <;> simp_all [signed]
    intro q hq'
    obtain rfl := hq q hq'
    have hXn := f.mag_nonneg X
    have hPn := f.mag_nonneg P
    have hstep := f.mag_step P
    cases rm with
    | rne =>
      dsimp only
      constructor
      · rw [hw]
        have hle : P + 1 ≤ f.inf := hP
        rcases Nat.lt_or_ge (P + 1) f.inf with hlt | hge
        · have e1 : f.mag (P + 1) ≤ f.mag (f.inf - 1) := f.mag_mono.monotone (by omega)
          have e2 := f.mag_step (f.inf - 1)
          rw [show f.inf - 1 + 1 = f.inf by omega] at e2
          linarith [hin.2.1, hin.2.2]
        · have hPe : P = f.inf - 1 := by omega
          have hno : ¬ goesUp f .rne s P w := fun g => by have := hX.1 g; omega
          simp only [goesUp, not_or, not_and, not_lt] at hno
          have hodd : P % 2 = 1 := by have := Fmt.inf_even h; omega
          have e3 : f.mag (P + 1) = f.mag f.inf := by congr 1; omega
          have e4 : f.mag P = f.most := by rw [hPe]; exact hin.2.1
          have : 2 * w ≠ f.mag P + f.mag (P + 1) := fun g => hno.2 g.symm hodd
          have : 2 * w < f.mag P + f.mag (P + 1) := lt_of_le_of_ne hno.1 this
          linarith [hin.2.2]
      · intro p hp
        obtain ⟨x, hx, hp⟩ := (Fmt.holds_iff h p).1 hp
        have hxn := f.mag_nonneg x
        have hfar : |f.mag X - w| ≤ |f.mag x - w| ∧ (|f.mag X - w| = |f.mag x - w| → f.mag x ≠ f.mag X → X % 2 = 0) := by
          rcases Classical.em (goesUp f .rne s P w) with g | g
          · obtain rfl := hX.1 g
            simp only [goesUp] at g
            rw [abs_of_pos (show 0 < f.mag (P + 1) - w by linarith)]
            rcases dich x with hd' | hd'
            · rw [abs_of_nonpos (show f.mag x - w ≤ 0 by linarith)]
              refine ⟨by rcases g with g | g <;> linarith [g], fun he _ => ?_⟩
              rcases g with g | g
              · exfalso; linarith
              · omega
            · rw [abs_of_pos (show 0 < f.mag x - w by linarith)]
              exact ⟨by linarith, fun he hne => absurd (by linarith) hne⟩
          · obtain rfl := hX.2 g
            simp only [goesUp, not_or, not_and, not_lt] at g
            rw [abs_of_nonpos (show f.mag X - w ≤ 0 by linarith)]
            rcases dich x with hd' | hd'
            · rw [abs_of_nonpos (show f.mag x - w ≤ 0 by linarith)]
              exact ⟨by linarith, fun he hne => absurd (by linarith) hne⟩
            · rw [abs_of_pos (show 0 < f.mag x - w by linarith)]
              refine ⟨by linarith, fun he _ => ?_⟩
              have := g.2 (by linarith)
              omega
        have hopp : |f.mag X - w| < |-f.mag x - w| ∨ f.mag x = 0 := by
          rcases eq_or_lt_of_le hxn with e | e
          · exact .inr e.symm
          · left
            have hz := hfar.1
            rw [abs_of_neg (show -f.mag x - w < 0 by linarith)]
            have : |f.mag x - w| < f.mag x + w := by rw [abs_lt]; constructor <;> linarith
            linarith
        have sub : ∀ u v : ℚ, |signed s u - signed s v| = |u - v| := fun u v => by
          cases s
          · simp [signed]
          · simp only [signed, if_true]; rw [← abs_neg]; congr 1; ring
        have hp' : p = signed s (f.mag x) ∨ p = signed s (-f.mag x) := by
          cases s <;> simp only [signed, Bool.false_eq_true, if_false, if_true, neg_neg]
          · exact hp
          · exact hp.symm
        have sinj : ∀ u v : ℚ, signed s u ≠ signed s v → u ≠ v := fun u v hn he => hn (by rw [he])
        rw [hpar]
        rcases hp' with rfl | rfl
        · rw [sub, sub]; exact ⟨hfar.1, fun e n => hfar.2 e (sinj _ _ n)⟩
        · rw [sub, sub]
          rcases hopp with o | o
          · exact ⟨o.le, fun e _ => absurd e o.ne⟩
          · rw [o] at hfar ⊢; rw [neg_zero]
            exact ⟨hfar.1, fun e n => hfar.2 e (sinj _ _ n)⟩
    | rtz =>
      obtain rfl := hX.2 (by simp [goesUp])
      dsimp only
      rw [hw, abs_signed s hXn]
      refine ⟨h1, fun p hp hle => ?_⟩
      obtain ⟨x, hx, hp⟩ := (Fmt.holds_iff h p).1 hp
      have : |p| = f.mag x := by rcases hp with rfl | rfl <;> simp [abs_of_nonneg (f.mag_nonneg x)]
      rw [this] at hle ⊢
      rcases dich x with hd' | hd'
      · exact hd'
      · linarith
    | rdn =>
      dsimp only
      cases s with
      | false =>
        obtain rfl := hX.2 (by simp [goesUp])
        simp only [signed, Bool.false_eq_true, if_false]
        refine ⟨h1, fun p hp hle => ?_⟩
        obtain ⟨x, hx, rfl | rfl⟩ := (Fmt.holds_iff h p).1 hp
        · rcases dich x with hd' | hd'
          · exact hd'
          · linarith
        · linarith [f.mag_nonneg x]
      | true =>
        simp only [signed, if_true]
        by_cases he : w = f.mag P
        · obtain rfl := hX.2 (by simp [goesUp, he])
          rw [he]; exact ⟨le_rfl, fun p _ hle => hle⟩
        · obtain rfl := hX.1 (by simp [goesUp, he])
          refine ⟨by linarith, fun p hp hle => ?_⟩
          obtain ⟨x, hx, rfl | rfl⟩ := (Fmt.holds_iff h p).1 hp
          · linarith [f.mag_nonneg x]
          · rcases dich x with hd' | hd'
            · have : f.mag P < w := lt_of_le_of_ne h1 (Ne.symm he)
              linarith
            · linarith
    | rup =>
      dsimp only
      cases s with
      | true =>
        obtain rfl := hX.2 (by simp [goesUp])
        simp only [signed, if_true]
        refine ⟨by linarith, fun p hp hle => ?_⟩
        obtain ⟨x, hx, rfl | rfl⟩ := (Fmt.holds_iff h p).1 hp
        · linarith [f.mag_nonneg x]
        · rcases dich x with hd' | hd'
          · linarith
          · linarith
      | false =>
        simp only [signed, Bool.false_eq_true, if_false]
        by_cases he : w = f.mag P
        · obtain rfl := hX.2 (by simp [goesUp, he])
          rw [he]; exact ⟨le_rfl, fun p _ hle => hle⟩
        · obtain rfl := hX.1 (by simp [goesUp, he])
          refine ⟨by linarith, fun p hp hle => ?_⟩
          obtain ⟨x, hx, rfl | rfl⟩ := (Fmt.holds_iff h p).1 hp
          · rcases dich x with hd' | hd'
            · have : f.mag P < w := lt_of_le_of_ne h1 (Ne.symm he)
              linarith
            · exact hd'
          · linarith [f.mag_nonneg x]

theorem signed_inj {s : Bool} {u v : ℚ} : signed s u = signed s v ↔ u = v := by
  cases s <;> simp [signed]

theorem signed_neg {s : Bool} {w : ℚ} (h : 0 < w) : signed s w < 0 ↔ s = true := by
  cases s
  · simp [signed, h.le]
  · simp [signed, h]

theorem flags_low (a b : Bool) : ((flag a flNx ||| flag b flUnf) &&& flNx ≠ 0 ↔ a = true)
    ∧ ((flag a flNx ||| flag b flUnf) &&& flUnf ≠ 0 ↔ b = true) ∧ (flag a flNx ||| flag b flUnf) &&& flOvf = 0
    ∧ (flag a flNx ||| flag b flUnf) &&& ~~~(flNx ||| flUnf ||| flOvf) = 0 := by
  cases a <;> cases b <;> decide

/-- A magnitude between two neighbours, with its choice of one of them, is rounded. -/
theorem roundsTo_of {f : Fmt} (h : f.Ok) (rm : RMode) (s i : Bool) (P X : Nat) (w : ℚ) (h0 : 0 < w) (h1 : f.mag P ≤ w)
    (h2 : w < f.mag (P + 1)) (hX : (goesUp f rm s P w → X = P + 1) ∧ (¬ goesUp f rm s P w → X = P)) (hi : i = true ↔ w ≠ f.mag P) :
    RoundsTo f rm (signed s w) (if f.inf ≤ X then (overflowTo f s rm, flOvf ||| flNx)
      else (f.sign s + X, flag i flNx ||| flag (i && X < 2 ^ f.mb) flUnf)) := by
  have hin := Fmt.mag_inf h
  have hip := Fmt.inf_pos h
  have hm : 0 < 2 ^ f.mb := Nat.two_pow_pos _
  have k1 : (flOvf ||| flNx) &&& flNx ≠ 0 := by decide
  have k2 : ¬ (flOvf ||| flNx) &&& flUnf ≠ 0 := by decide
  have k3 : (flOvf ||| flNx) &&& flOvf ≠ 0 := by decide
  have k4 : (flOvf ||| flNx) &&& ~~~(flNx ||| flUnf ||| flOvf) = 0 := by decide
  have hnorm := f.mag_normal
  have hsg : (if signed s w < 0 then (1 : Nat) else 0) = if s then 1 else 0 := by simp only [signed_neg h0]
  have hstep := f.mag_step P
  by_cases hf : f.inf ≤ X
  · rw [if_pos hf]
    have hPX : X ≤ P + 1 := by
      rcases Classical.em (goesUp f rm s P w) with g | g
      · rw [hX.1 g]
      · rw [hX.2 g]; omega
    have hbig : f.most < w := by
      rcases Nat.lt_or_ge P f.inf with hl | hl
      · have hPe : P = f.inf - 1 := by omega
        have hup : goesUp f rm s P w := by
          by_contra g
          have := hX.2 g
          omega
        have hne : w ≠ f.mag P := by
          intro e
          cases rm <;> simp only [goesUp] at hup
          · rcases hup with g | g <;> linarith [g]
          · exact hup.2 e
          · exact hup.2 e
        have : f.mag P < w := lt_of_le_of_ne h1 (Ne.symm hne)
        rw [hPe, hin.2.1] at this; exact this
      · have := f.mag_step (f.inf - 1)
        rw [show f.inf - 1 + 1 = f.inf by omega, hin.2.1] at this
        have := f.mag_mono.monotone hl
        linarith
    have hstop : ¬ goesUp f rm s P w → f.mag f.inf ≤ w := fun g =>
      le_trans (f.mag_mono.monotone (by rw [← hX.2 g]; exact hf)) h1
    have fin (hto : overflowTo f s rm = f.sign s + (f.inf - 1)) (hno : ¬ goesUp f rm s P w)
        (hn : f.rounds rm (signed s w) (f.sign s + (f.inf - 1)) (decodeF f (f.sign s + (f.inf - 1)))) :
        RoundsTo f rm (signed s w) (overflowTo f s rm, flOvf ||| flNx) := by
      obtain ⟨a1, a2, a3⟩ := decodeF_signed h s (f.inf - 1) (by omega)
      have a1' : (decodeF f (f.sign s + (f.inf - 1))).rat = some (signed s f.most) := by rw [a1, hin.2.1]; rfl
      rw [hto]
      refine ⟨a2, by rw [a3, hsg], hn, ?_, ?_, ?_, k4⟩
      · simp only [a1', ne_eq, Option.some.injEq, signed_inj]
        exact iff_of_true k1 hbig.ne
      · refine iff_of_false k2 ?_
        rintro ⟨q, hq, -, hlt⟩
        rw [a1', Option.some.injEq] at hq
        have : 0 ≤ f.most := hin.2.1 ▸ f.mag_nonneg _
        rw [← hq, abs_signed s this, ← hnorm, ← hin.2.1, f.mag_mono.lt_iff_lt] at hlt
        omega
      · refine iff_of_true k3 (.inr ?_)
        rw [abs_signed s h0.le, ← hin.1]; exact hstop hno
    have inf (hto : overflowTo f s rm = f.sign s + f.inf) (hn : f.rounds rm (signed s w) (f.sign s + f.inf) (.inf s)) :
        RoundsTo f rm (signed s w) (overflowTo f s rm, flOvf ||| flNx) := by
      obtain ⟨a1, a2, a3⟩ := decodeF_infinite h s
      rw [hto]
      refine ⟨a2, by rw [a3, hsg], by rw [a1]; exact hn, ?_, ?_, ?_, k4⟩
      · rw [a1]; exact iff_of_true k1 (by simp [FVal.rat])
      · rw [a1]; exact iff_of_false k2 (by simp [FVal.rat])
      · rw [a1]; exact iff_of_true k3 (.inl rfl)
    have below (q : ℚ) (hq : f.holds q) : |q| ≤ f.most := by
      obtain ⟨x, hx, hp⟩ := (Fmt.holds_iff h q).1 hq
      have : |q| = f.mag x := by rcases hp with rfl | rfl <;> simp [abs_of_nonneg (f.mag_nonneg x)]
      rw [this, ← hin.2.1]; exact f.mag_mono.monotone (by omega)
    have toFin (hr : ∀ b m e, decodeF f (f.sign s + (f.inf - 1)) = .fin b m e → (FVal.fin b m e).rat = some (signed s f.most) →
        f.rounds rm (signed s w) (f.sign s + (f.inf - 1)) (.fin b m e)) :
        f.rounds rm (signed s w) (f.sign s + (f.inf - 1)) (decodeF f (f.sign s + (f.inf - 1))) := by
      obtain ⟨a1, -, -⟩ := decodeF_signed h s (f.inf - 1) (by omega)
      rw [hin.2.1] at a1
      cases hdec : decodeF f (f.sign s + (f.inf - 1)) with
      | nan b => rw [hdec] at a1; simp [FVal.rat] at a1
      | inf b => rw [hdec] at a1; simp [FVal.rat] at a1
      | fin b m e => rw [hdec] at a1; exact hr b m e hdec a1
    cases rm with
    | rne =>
      refine inf rfl ?_
      simp only [Fmt.rounds]
      rw [abs_signed s h0.le]
      rcases Classical.em (goesUp f .rne s P w) with g | g
      · have hge : f.inf - 1 ≤ P := by have := hX.1 g; omega
        have e1 := f.mag_mono.monotone hge
        have e2 := f.mag_mono.monotone (show f.inf ≤ P + 1 by omega)
        rw [hin.2.1] at e1
        simp only [goesUp] at g
        have : f.mag P + f.mag (P + 1) ≤ 2 * w := by rcases g with g | g <;> linarith [g]
        linarith [hin.2.2]
      · linarith [hstop g, hin.2.2, hbig]
    | rtz =>
      refine fin rfl (by simp [goesUp]) (toFin fun b m e _ hr => ?_)
      intro q hq
      rw [hr, Option.some.injEq] at hq
      subst hq
      have hp : 0 ≤ f.most := hin.2.1 ▸ f.mag_nonneg _
      dsimp only
      rw [abs_signed s h0.le, abs_signed s hp]
      exact ⟨hbig.le, fun p hp _ => below p hp⟩
    | rdn =>
      cases s with
      | true =>
        refine inf rfl ?_
        simp only [Fmt.rounds, signed, if_true]; linarith
      | false =>
        refine fin rfl (by simp [goesUp]) (toFin fun b m e _ hr => ?_)
        intro q hq
        rw [hr, Option.some.injEq] at hq
        subst hq
        simp only [signed, Bool.false_eq_true, if_false]
        exact ⟨hbig.le, fun p hp _ => le_trans (le_abs_self p) (below p hp)⟩
    | rup =>
      cases s with
      | false =>
        refine inf rfl ?_
        simpa only [Fmt.rounds, signed, Bool.false_eq_true, if_false] using hbig
      | true =>
        refine fin rfl (by simp [goesUp]) (toFin fun b m e _ hr => ?_)
        intro q hq
        rw [hr, Option.some.injEq] at hq
        subst hq
        simp only [signed, if_true]
        exact ⟨by linarith, fun p hp _ => by have := neg_abs_le p; linarith [below p hp]⟩
  · rw [if_neg hf]
    have hf' : X < f.inf := by omega
    obtain ⟨a1, a2, a3⟩ := decodeF_signed h s X hf'
    have a1' : (decodeF f (f.sign s + X)).rat = some (signed s (f.mag X)) := a1
    obtain ⟨b1, b2, b3, b4⟩ := flags_low i (i && X < 2 ^ f.mb)
    have hinx : i = true ↔ f.mag X ≠ w := by
      rw [hi]
      rcases Classical.em (goesUp f rm s P w) with g | g
      · refine iff_of_true ?_ (by rw [hX.1 g]; exact h2.ne')
        intro e
        cases rm <;> simp only [goesUp] at g
        · rcases g with g | g <;> linarith [g]
        · exact g.2 e
        · exact g.2 e
      · rw [hX.2 g]; exact ne_comm
    refine ⟨a2, by rw [a3, hsg], rounds_finite h rm s P X w h0 h1 h2 hX hf', ?_, ?_, ?_, b4⟩
    · rw [b1, hinx, a1', ne_eq, ne_eq, Option.some.injEq, signed_inj]
    · rw [b2, a1']
      simp only [Bool.and_eq_true, decide_eq_true_eq, hinx, Option.some.injEq, exists_eq_left', ne_eq, signed_inj,
        abs_signed s (f.mag_nonneg X), ← hnorm, f.mag_mono.lt_iff_lt]
    · rw [b3, a1']
      refine iff_of_false (by simp) ?_
      rintro (e | e)
      · simp at e
      · rw [abs_signed s h0.le, ← hin.1] at e
        have hP : P + 1 ≤ f.inf := by
          rcases Classical.em (goesUp f rm s P w) with g | g
          · have := hX.1 g; omega
          · have := hX.2 g; omega
        have := f.mag_mono.monotone hP
        linarith

/-- The exact magnitude that `roundMag` rounds: `m * 2 ^ e`, or something in the unit above it. -/
def Exact (m : Nat) (e : Int) (st : Bool) (w : ℚ) : Prop :=
  if st then m * 2 ^ e < w ∧ w < (m + 1) * 2 ^ e else w = m * 2 ^ e

/-- The truncated significand lies in the format's range. -/
theorem trunc_range {m mb d up : Nat} (hm : m ≠ 0) (h : Nat.log2 m + up ≤ mb + d) :
    m * 2 ^ up / 2 ^ d < 2 ^ (mb + 1) ∧ (Nat.log2 m + up = mb + d → 2 ^ mb ≤ m * 2 ^ up / 2 ^ d) := by
  have hd : 0 < 2 ^ d := Nat.two_pow_pos _
  have hu : 0 < 2 ^ up := Nat.two_pow_pos _
  constructor
  · rw [Nat.div_lt_iff_lt_mul hd]
    have h1 : m < 2 ^ (Nat.log2 m + 1) := Nat.lt_log2_self
    calc m * 2 ^ up < 2 ^ (Nat.log2 m + 1) * 2 ^ up := Nat.mul_lt_mul_of_pos_right h1 hu
      _ = 2 ^ (Nat.log2 m + 1 + up) := by rw [← Nat.pow_add]
      _ ≤ 2 ^ (mb + 1 + d) := Nat.pow_le_pow_right (by norm_num) (by omega)
      _ = 2 ^ (mb + 1) * 2 ^ d := by rw [Nat.pow_add]
  · intro he
    rw [Nat.le_div_iff_mul_le hd, ← Nat.pow_add, ← he, Nat.pow_add]
    exact Nat.mul_le_mul_right _ (Nat.log2_self_le hm)

/-- `roundMag` rounds a magnitude once, by the mode (R60, R62). -/
theorem roundMag_spec {f : Fmt} (h : f.Ok) (s : Bool) (m : Nat) (e : Int) (st : Bool) (rm : RMode) (w : ℚ) (hm : m ≠ 0)
    (hst : st = true → f.mb + 2 ≤ Nat.log2 m) (hw : Exact m e st w) : RoundsTo f rm (signed s w) (roundMag f s m e st rm) := by
  have hpe := zpow2_pos e
  unfold roundMag
  rw [if_neg (by simp [hm])]
  simp only []
  generalize hq : max ((Nat.log2 m : Int) + e) (1 - (f.bias : Int)) - f.mb = q
  have hbe : ((q + f.mb + f.bias).toNat : Int) = q + f.mb + f.bias := Int.toNat_of_nonneg (by omega)
  have hb1 : 1 ≤ (q + f.mb + f.bias).toNat := by omega
  generalize hbb : (q + f.mb + f.bias).toNat = be at *
  have hrange := trunc_range (m := m) (mb := f.mb) (d := (q - e).toNat) (up := (e - q).toNat) hm (by omega)
  have hnorm : 2 ^ f.mb ≤ m * 2 ^ (e - q).toNat / 2 ^ (q - e).toNat ∨ be = 1 := by
    rcases le_total (1 - (f.bias : Int)) ((Nat.log2 m : Int) + e) with g | g
    · left; exact hrange.2 (by omega)
    · right; omega
  have hD : 0 < 2 ^ (q - e).toNat := Nat.two_pow_pos _
  have hsplit := Nat.div_add_mod (m * 2 ^ (e - q).toNat) (2 ^ (q - e).toNat)
  have hrlt := Nat.mod_lt (m * 2 ^ (e - q).toNat) hD
  have hscale : (2 : ℚ) ^ q * 2 ^ (e - q).toNat = 2 ^ e * 2 ^ (q - e).toNat := by
    rw [← zpow_natCast, ← zpow_natCast, ← zpow_add₀ (by norm_num), ← zpow_add₀ (by norm_num)]
    congr 1; omega
  have hdst : (q - e).toNat = 0 → st = false := by
    intro hd
    by_contra hc
    have := hst (by simpa using hc)
    omega
  have hupd : (q - e).toNat ≠ 0 → (e - q).toNat = 0 := by omega
  have hhalf : (q - e).toNat ≠ 0 → 2 * (2 ^ (q - e).toNat / 2) = 2 ^ (q - e).toNat := by
    intro hd
    obtain ⟨k, hk⟩ : ∃ k, (q - e).toNat = k + 1 := ⟨(q - e).toNat - 1, by omega⟩
    rw [hk, pow_succ]; omega
  generalize m * 2 ^ (e - q).toNat / 2 ^ (q - e).toNat = m1 at *
  generalize m * 2 ^ (e - q).toNat % 2 ^ (q - e).toNat = r at *
  generalize hdd : (q - e).toNat = d at *
  generalize (e - q).toNat = up at *
  have hzq : (2 : ℚ) ^ q = 2 ^ ((be : Int) - f.bias - f.mb) := by congr 1; omega
  have hmP : f.mag ((be - 1) * 2 ^ f.mb + m1) = m1 * 2 ^ q := by
    rw [f.mag_at be m1 hb1 hrange.1.le hnorm, hzq]
  have hmP1 : f.mag ((be - 1) * 2 ^ f.mb + m1 + 1) = (m1 + 1) * 2 ^ q := by
    rw [Nat.add_assoc, f.mag_at be (m1 + 1) hb1 hrange.1 (by omega), hzq]; push_cast; rfl
  have hodd : ((be - 1) * 2 ^ f.mb + m1) % 2 = m1 % 2 := by
    obtain ⟨k, hk⟩ : ∃ k, f.mb = k + 1 := ⟨f.mb - 1, by have := h.mb; omega⟩
    rw [hk, pow_succ, ← Nat.mul_assoc]; omega
  have hpq := zpow2_pos q
  obtain ⟨W, rfl⟩ : ∃ W : ℚ, w = W * 2 ^ e := ⟨w / 2 ^ e, by field_simp⟩
  have hW : (m : ℚ) ≤ W ∧ W < m + 1 ∧ (W = m ↔ st = false) := by
    unfold Exact at hw
    cases st
    · simp only [Bool.false_eq_true, if_false] at hw
      have : W = m := mul_right_cancel₀ hpe.ne' hw
      rw [this]; exact ⟨le_rfl, by linarith, by simp⟩
    · simp only [if_true] at hw
      have a := lt_of_mul_lt_mul_right hw.1 hpe.le
      have b := lt_of_mul_lt_mul_right hw.2 hpe.le
      exact ⟨a.le, b, by simp [a.ne']⟩
  have hWpos : 0 < W := by
    have : (0 : ℚ) < m := by exact_mod_cast Nat.pos_of_ne_zero hm
    linarith
  generalize hPe : (be - 1) * 2 ^ f.mb + m1 = P at *
  have hX (c : Bool) : (be - 1) * 2 ^ f.mb + (if c = true then m1 + 1 else m1) = if c = true then P + 1 else P := by
    cases c <;> simp [← hPe, Nat.add_assoc]
  rw [hX]
  by_cases hd0 : d = 0
  · obtain rfl := hd0
    have hs0 := hdst rfl
    subst hs0
    have hr0 : r = 0 := by simpa using hrlt
    have hWm : W = m := hW.2.2.2 rfl
    have hwP : W * 2 ^ e = f.mag P := by
      rw [hmP, hWm]
      simp only [pow_zero, mul_one] at hscale
      have hm1 : (m1 : ℚ) = m * 2 ^ up := by
        have : m1 = m * 2 ^ up := by simpa [hr0] using hsplit
        rw [this]; push_cast; rfl
      rw [hm1, ← hscale]; ring
    have hno : ¬ goesUp f rm s P (W * 2 ^ e) := by
      rw [hwP]
      have := f.mag_step P
      cases rm <;> simp only [goesUp, ne_eq, not_true_eq_false, and_false, not_false_eq_true]
      push Not; exact ⟨by linarith, fun g => by linarith⟩
    refine roundsTo_of h rm s _ P _ _ (mul_pos hWpos hpe) hwP.ge (hwP ▸ f.mag_step P) ?_ ?_
    · exact ⟨fun g => absurd g hno, fun _ => by simp⟩
    · simp [hr0, hwP]
  · have hup0 := hupd hd0
    subst hup0
    have hh := hhalf hd0
    generalize hH : 2 ^ d / 2 = H at *
    simp only [pow_zero, mul_one] at hscale hsplit
    have hsplitq : (m : ℚ) = 2 * H * m1 + r := by
      rw [← hsplit, ← hh]; push_cast; ring
    have hqe : (2 : ℚ) ^ q = 2 * H * 2 ^ e := by
      rw [hscale, mul_comm]; congr 1; exact_mod_cast hh.symm
    have hrq : (r : ℚ) + 1 ≤ 2 * H := by
      have : r + 1 ≤ 2 * H := by omega
      exact_mod_cast this
    have e1 : f.mag P = 2 * H * m1 * 2 ^ e := by rw [hmP, hqe]; ring
    have e2 : f.mag (P + 1) = (2 * H * m1 + 2 * H) * 2 ^ e := by rw [hmP1, hqe]; ring
    have hinx : (r != 0 || st) = true ↔ W * 2 ^ e ≠ f.mag P := by
      rw [e1, ne_eq, mul_left_inj' hpe.ne']
      cases st
      · have := hW.2.2.2 rfl
        rw [this, hsplitq]
        simp
      · have hne : W ≠ m := fun g => by simpa using hW.2.2.1 g
        have hlt : (m : ℚ) < W := lt_of_le_of_ne hW.1 (Ne.symm hne)
        have hr : (0 : ℚ) ≤ r := by positivity
        simp only [Bool.or_true, true_iff]
        intro g; linarith
    have hgo : roundsUp rm s st (m1 % 2 == 1) r H = true ↔ goesUp f rm s P (W * 2 ^ e) := by
      cases rm with
      | rtz => simp [roundsUp, goesUp]
      | rdn => simp only [roundsUp, goesUp, Bool.and_eq_true, hinx]
      | rup => simp only [roundsUp, goesUp, Bool.and_eq_true, hinx, Bool.not_eq_true']
      | rne =>
        have c1 : f.mag P + f.mag (P + 1) < 2 * (W * 2 ^ e) ↔ (H : ℚ) < W - 2 * H * m1 := by
          rw [e1, e2]
          constructor
          · intro g
            have : (2 * H * m1 + (2 * H * m1 + 2 * H)) * 2 ^ e < (2 * W) * 2 ^ e := by linarith
            have := lt_of_mul_lt_mul_right this hpe.le
            linarith
          · intro g
            have : (2 * H * m1 + (2 * H * m1 + 2 * H)) * (2 : ℚ) ^ e < (2 * W) * 2 ^ e := mul_lt_mul_of_pos_right (by linarith) hpe
            linarith
        have c2 : f.mag P + f.mag (P + 1) = 2 * (W * 2 ^ e) ↔ (H : ℚ) = W - 2 * H * m1 := by
          rw [e1, e2]
          constructor
          · intro g
            have : (2 * H * m1 + (2 * H * m1 + 2 * H)) * 2 ^ e = (2 * W) * 2 ^ e := by linarith
            have := mul_right_cancel₀ hpe.ne' this
            linarith
          · intro g
            have : (2 * H * m1 + (2 * H * m1 + 2 * H)) = 2 * W := by linarith
            linear_combination this * 2 ^ e
        simp only [goesUp, c1, c2, hodd, roundsUp, Bool.or_eq_true, Bool.and_eq_true, decide_eq_true_eq, beq_iff_eq]
        have a1 : (r : ℚ) ≤ W - 2 * H * m1 := by linarith [hW.1]
        have a2 : W - 2 * H * m1 < r + 1 := by linarith [hW.2.1]
        cases st
        · have a3 : W - 2 * H * m1 = r := by linarith [hW.2.2.2 rfl]
          rw [a3]
          simp only [Nat.cast_lt, Nat.cast_inj, Bool.false_eq_true, false_or]
        · have a3 : (r : ℚ) < W - 2 * H * m1 := lt_of_le_of_ne a1 fun g => by
            have : W = m := by linarith
            simpa using hW.2.2.1 this
          constructor
          · rintro (g | ⟨g, -⟩)
            · left; have : (H : ℚ) < r := by exact_mod_cast g
              linarith
            · left; have : (H : ℚ) = r := by exact_mod_cast g
              linarith
          · rintro (g | ⟨g, -⟩)
            · have : (H : ℚ) < r + 1 := by linarith
              have : H < r + 1 := by exact_mod_cast this
              rcases Nat.lt_or_ge H r with k | k
              · exact .inl k
              · exact .inr ⟨by omega, .inl rfl⟩
            · have b1 : (r : ℚ) < H := by rw [g]; exact a3
              have b2 : (H : ℚ) < r + 1 := by rw [g]; exact a2
              have b1' : r < H := by exact_mod_cast b1
              have b2' : H < r + 1 := by exact_mod_cast b2
              omega
    have hcond : (roundsUp rm s st (m1 % 2 == 1) (if d = 0 then 0 else r) H && d != 0) = true ↔ goesUp f rm s P (W * 2 ^ e) := by
      rw [if_neg hd0, ← hgo]; simp [hd0]
    have hr : (0 : ℚ) ≤ r := by positivity
    refine roundsTo_of h rm s _ P _ _ (mul_pos hWpos hpe) ?_ ?_ ⟨fun g => if_pos (hcond.2 g), fun g => if_neg fun k => g (hcond.1 k)⟩ hinx
    · rw [e1]; exact mul_le_mul_of_nonneg_right (by linarith [hW.1]) hpe.le
    · rw [e2]; exact mul_lt_mul_of_pos_right (by linarith [hW.2.1]) hpe

/-- An exact signed number that is not zero, rounded once. -/
theorem roundInt_spec {f : Fmt} (h : f.Ok) (v : Int) (e : Int) (zs : Bool) (rm : RMode) (hv : v ≠ 0) :
    RoundsTo f rm (v * 2 ^ e) (roundInt f v e zs rm) := by
  have hs : ((v : Int) : ℚ) * 2 ^ e = signed (decide (v < 0)) (v.natAbs * 2 ^ e) := by
    rcases lt_or_ge v 0 with g | g
    · have : ((v.natAbs : Int) : ℚ) = -v := by rw [Int.ofNat_natAbs_of_nonpos g.le]; push_cast; rfl
      simp only [signed, g, decide_true, if_true]
      rw [← Int.cast_natCast v.natAbs, this]; ring
    · have : ((v.natAbs : Int) : ℚ) = v := by rw [Int.natAbs_of_nonneg g]
      simp only [signed, not_lt.2 g, decide_false, Bool.false_eq_true, if_false]
      rw [← Int.cast_natCast v.natAbs, this]
  rw [roundInt, if_neg hv, hs]
  exact roundMag_spec h _ _ e false rm _ (by omega) (by simp) (by simp [Exact])

theorem Fmt.ok_fp16 : fp16.Ok := ⟨by decide, by decide⟩
theorem Fmt.ok_bf16 : bf16.Ok := ⟨by decide, by decide⟩
theorem Fmt.ok_fp32 : fp32.Ok := ⟨by decide, by decide⟩
theorem Fmt.ok_fp64 : fp64.Ok := ⟨by decide, by decide⟩

end Sys2Proof.Machine
end

