-- ==== Sys2Proof/Laws/Stream.lean ====
section
/-! SUPPORT. The ways in which an instruction can end: it finishes, waits, leaves an operation outstanding, releases, or takes a
trap. Each lemma says what is left of the issuing warp and that nothing else changes. -/

namespace Sys2Proof.Machine

/-! ## One warp -/

/-- Counting an event changes no warp and no byte. -/
theorem State.coreEvent_only (s : State) (wid c e n : Nat) : OnlyWarp wid s (s.coreEvent c e n) := by
  have ce : s.coreEvent c e n = { s with counters := (s.coreEvent c e n).counters, cores := (s.coreEvent c e n).cores } := by
    unfold State.coreEvent; simp only; split <;> rfl
  refine ⟨?_, ?_, ?_, ?_, ?_⟩
  · rw [ce]
  · intro x; rw [ce]
  · intro j hj; rw [ce]
  · intro k; exact s.coreEvent_coreFence c e n k
  · rw [ce]; exact ⟨fun _ h => h, fun _ h => h⟩

/-- A change of the warp keeps everything else as it was. -/
theorem OnlyWarp.modWarp {s t : State} {wid : Nat} (h : OnlyWarp wid s t) (f : Warp → Warp) : OnlyWarp wid s (t.modWarp wid f) := by
  refine ⟨?_, h.bytes, ?_, h.fences, h.marks⟩
  · conv_lhs => rw [h.rest]
    rfl
  · intro j hj; rw [← h.others j hj]; simp only [State.modWarp_warps]; exact tget_tmod_other _ _ _ _ hj

theorem OnlyWarp.refl (wid : Nat) (s : State) : OnlyWarp wid s s :=
  ⟨rfl, fun _ => rfl, fun _ _ => rfl, fun _ => rfl, fun _ h => h, fun _ h => h⟩

theorem OnlyWarp.trans {wid : Nat} {s u t : State} (a : OnlyWarp wid s u) (b : OnlyWarp wid u t) : OnlyWarp wid s t := by
  refine ⟨?_, fun x => by rw [b.bytes, a.bytes], fun j hj => by rw [b.others j hj, a.others j hj], fun k => by rw [b.fences, a.fences],
    fun x hx => a.marks.1 x (b.marks.1 x hx), fun x hx => a.marks.2 x (b.marks.2 x hx)⟩
  conv_lhs => rw [b.rest]
  conv_lhs => rw [a.rest]

/-! ## Finishing -/

/-- The warp after an instruction has finished, in any state that holds the issuing warp. -/
theorem Ctx.finishAt_tget (e : Ctx) (hw : tget e.s.warps e.wid = some e.w) (a : DWord) (f : Warp → Warp) :
    tget (e.finishAt a f).warps e.wid = some (setPc e.slice a (f (popQueues (namedQueues (opnds e.i).vs) e.w))) := by
  unfold Ctx.finishAt
  simp only
  obtain ⟨b, r, h, -, -⟩ := State.healRegs_eq ((e.s.coreEvent e.core 1).modWarp e.wid
    fun w => setPc e.slice a (f (popQueues (namedQueues (opnds e.i).vs) w))) (spanLocs e.wid e.act (opnds e.i).vd ++ uniLocs e.wid e.slice (opnds e.i).sd)
  rw [h]
  simp only [State.modWarp_warps, State.coreEvent_warps]
  exact tget_tmod_of_some _ hw

/-! ## Waiting -/

theorem Ctx.wait_tget (e : Ctx) (hw : tget e.s.warps e.wid = some e.w) (k : WaitKind) :
    tget (e.wait k).warps e.wid = some { e.w with wait := some ⟨k, e.i.length, e.s.gtime.toNat⟩ } := by
  simp only [Ctx.wait, State.modWarp_warps, State.coreEvent_warps]; exact tget_tmod_of_some _ hw

theorem Ctx.wait_only (e : Ctx) (k : WaitKind) : OnlyWarp e.wid e.s (e.wait k) := (State.coreEvent_only ..).modWarp _

/-! ## Outstanding operations -/

theorem Ctx.push_tget (e : Ctx) (hw : tget e.s.warps e.wid = some e.w) (k : Ctr) (kind : OpKind) (sp : Space) (as : List Acc) (m : Mask)
    (acq rel : Option Scope) (f : Warp → Warp) : tget (e.push k kind sp as m acq rel f).warps e.wid =
      some (setPc e.slice e.nextPc (addOp k (e.op k kind sp as m acq rel) (f (popQueues (namedQueues (opnds e.i).vs) e.w)))) := by
  simp only [Ctx.push, State.modWarp_warps, State.coreEvent_warps]; exact tget_tmod_of_some _ hw

theorem Ctx.push_only (e : Ctx) (k : Ctr) (kind : OpKind) (sp : Space) (as : List Acc) (m : Mask) (acq rel : Option Scope)
    (f : Warp → Warp) : OnlyWarp e.wid e.s (e.push k kind sp as m acq rel f) := (State.coreEvent_only ..).modWarp _

/-! ## Traps -/

/-- A trap that the warp handles: the warp stands in its handler, and nothing else changes (R371). -/
theorem State.deliver_handled {s : State} {wid : Nat} {w : Warp} (hw : tget s.warps wid = some w) (hh : w.handles = true) (hst : w.stopped = false) (t : Trap)
    (epc : DWord) (imp sl : Bool) : tget (s.deliver wid t epc imp sl).warps wid = some (enterHandler w t epc imp sl)
      ∧ OnlyWarp wid s (s.deliver wid t epc imp sl) := by
  have e : s.deliver wid t epc imp sl = (s.coreEvent (s.coreOf w) 4).modWarp wid fun x => enterHandler x t epc imp sl := by
    simp only [State.deliver, hw, State.trapAt, hh, hst, if_true, Bool.false_eq_true, if_false, State.abandonFor]
  rw [e]
  refine ⟨?_, (State.coreEvent_only ..).modWarp _⟩
  simp only [State.modWarp_warps, State.coreEvent_warps]
  exact tget_tmod_of_some _ hw

/-- A trap of an instruction of the warp's own stream. -/
theorem Ctx.raiseFull_deliver {e : Ctx} (hs : e.slice = false) (t : Trap) : e.raiseFull t = e.s.deliver e.wid t e.w.pc false false := by
  simp [Ctx.raiseFull, Ctx.pc, hs]

/-! ## Releases -/

/-- The stream in another state that holds its warp. -/
theorem Ctx.with_s (c : Ctx) (s : State) : (c.with s).s = s := by unfold Ctx.with; split <;> rfl
theorem Ctx.with_wid (c : Ctx) (s : State) : (c.with s).wid = c.wid := by unfold Ctx.with; split <;> rfl
theorem Ctx.with_i (c : Ctx) (s : State) : (c.with s).i = c.i := by unfold Ctx.with; split <;> rfl
theorem Ctx.with_slice (c : Ctx) (s : State) : (c.with s).slice = c.slice := by unfold Ctx.with; split <;> rfl
theorem Ctx.with_act (c : Ctx) (s : State) : (c.with s).act = c.act := by unfold Ctx.with; split <;> rfl
theorem Ctx.with_w {c : Ctx} {s : State} {w : Warp} (h : tget s.warps c.wid = some w) : (c.with s).w = w := by
  unfold Ctx.with; rw [h]
theorem Ctx.with_p {c : Ctx} {s : State} {w : Warp} (h : tget s.warps c.wid = some w) : (c.with s).p = (tget s.parts w.part).getD c.p := by
  unfold Ctx.with; rw [h]

/-- A stream in a state that keeps its warp and its part is the same stream in that state. -/
theorem Ctx.with_same {c : Ctx} {s : State} (h : tget s.warps c.wid = some c.w) (hp : tget s.parts c.w.part = some c.p) :
    c.with s = { c with s := s } := by
  unfold Ctx.with; rw [h]; simp only [hp, Option.getD_some]

/-- Stores that a link may lose change memory, or the rows of warps. -/
theorem State.storeSome_aside (bs : List Byte) : ∀ (i : Nat) (s : State) (ch loc : Nat),
    ∃ w, (s.storeSome ch loc i bs).aside = { s with warps := w }.aside ∧ ∀ j, (tget w j).isSome = (tget s.warps j).isSome := by
  induction bs with
  | nil => exact fun i s ch loc => ⟨_, rfl, fun _ => rfl⟩
  | cons b r ih =>
    intro i s ch loc
    unfold State.storeSome
    split
    · obtain ⟨m, w, e, g⟩ := s.putByte_eq loc b
      obtain ⟨w2, e2, g2⟩ := ih (i + 1) (s.putByte loc b) ch (loc + 1)
      refine ⟨w2, by rw [e2, e]; rfl, fun j => ?_⟩
      rw [g2, e]; exact g j
    · exact ih (i + 1) s ch (loc + 1)

theorem State.storeLost_aside (s : State) (p : Place) (bs : List Byte) :
    ∃ w, (s.storeLost p bs).aside = { s with warps := w }.aside ∧ ∀ j, (tget w j).isSome = (tget s.warps j).isSome := by
  unfold State.storeLost
  split
  · obtain ⟨w, e, g⟩ := State.storeSome_aside bs (p.loc % 8) { s with choices := s.choices + 1 } s.choices p.loc
    exact ⟨w, by rw [e]; rfl, g⟩
  · exact ⟨_, rfl, fun _ => rfl⟩

/-- The rows of warps are all that a change of `warps` over states that agree aside can change. -/
theorem aside_warps_trans {s t u : State} {w : Tab Warp} (a : t.aside = s.aside) (b : u.aside = { t with warps := w }.aside) :
    u.aside = { s with warps := w }.aside := by
  have e : { t with warps := w }.aside = { t.aside with warps := w } := rfl
  rw [b, e, a]; rfl

@[simp] theorem State.poisonLine_aside (s : State) (p : Place) (b : List Nat) : (s.poisonLine p b).aside = s.aside := by
  unfold State.poisonLine; split <;> simp

/-- A line's write-back changes the rows and the pending errors of warps, beside what its walk and its request change. -/
theorem State.writeBack_aside (s : State) (wid : Nat) (l : L1Line) :
    ∃ w, (s.writeBack wid l).1.aside = { s with warps := w }.aside ∧ ∀ i, (tget w i).isSome = (tget s.warps i).isSome := by
  have some_mod : ∀ (t : Tab Warp) (k : Nat) (f : Warp → Warp) (i : Nat), (tget (tmod t k f) i).isSome = (tget t i).isSome := by
    intro t k f i
    by_cases hi : i = k
    · subst hi; rw [tget_tmod_self]; cases tget t i <;> rfl
    · rw [tget_tmod_other _ _ _ _ hi]
  have warps : ∀ {t u : State}, t.aside = u.aside → t.warps = u.warps := aside_warps
  unfold State.writeBack
  split
  · exact ⟨_, rfl, fun _ => rfl⟩
  · rename_i w _
    simp only
    have h1 : (s.translate w.slot (s.coreOf w) (dieOfCore (s.coreOf w)) .w (BitVec.ofNat 64 (l.line * 128))).1.aside = s.aside :=
      s.translate_aside ..
    split
    · rename_i e; rw [e] at h1; exact ⟨s.warps, h1, fun _ => rfl⟩
    · rename_i s1 p0 e
      rw [e] at h1
      simp only at h1
      split
      · exact ⟨s.warps, h1, fun _ => rfl⟩
      · have h2 : ((s1.ask p0).2.request (s1.ask p0).1 true).aside = s.aside := by
          rw [State.request_aside, State.ask_aside]; exact h1
        have h3 := ((s1.ask p0).2.request (s1.ask p0).1 true).linkFails_aside (s1.ask p0).1
        rw [h2] at h3
        split
        · rename_i s3 e3
          rw [e3] at h3
          simp only at h3
          obtain ⟨x, e4, g4⟩ := s3.storeLost_aside (s1.ask p0).1 l.data
          simp only
          generalize (l.badWords.filter fun k => (s1.ask p0).1.lost && Config.bitAt s3.choices (k / 2)) = gone
          rw [← State.poisonLine_aside (s3.storeLost (s1.ask p0).1 l.data) (s1.ask p0).1 gone] at e4
          generalize (s3.storeLost (s1.ask p0).1 l.data).poisonLine (s1.ask p0).1 gone = u at e4 ⊢
          have e5 : ∀ pe, (u.addErr wid pe).aside = { u.aside with warps := (u.addErr wid pe).warps } := fun _ => rfl
          refine ⟨_, by rw [e5, e4, show ({ s3 with warps := x } : State).aside = { s3.aside with warps := x } from rfl, h3]; rfl, fun i => ?_⟩
          show (tget (tmod u.warps wid _) i).isSome = _
          rw [some_mod, warps e4]
          exact (g4 i).trans (by rw [warps h3])
        · rename_i s3 e3
          rw [e3] at h3
          simp only at h3
          obtain ⟨x, e4, g4⟩ := s3.store_aside (s1.ask p0).1.loc l.data
          refine ⟨x, ?_, fun i => by rw [g4, warps h3]⟩
          simp only
          rw [State.poisonLine_aside]; exact aside_warps_trans h3 e4

/-- What a release's write-backs may change: beside what each write-back changes, the lines of the part. -/
theorem State.releaseLines_aside (pid wid : Nat) (ls : List L1Line) : ∀ s : State,
    ∃ w ps, (s.releaseLines pid wid ls).1.aside = { s with warps := w, parts := ps }.aside
      ∧ (∀ i, (tget w i).isSome = (tget s.warps i).isSome)
      ∧ ∀ i, (tget ps i).map (fun p => { p with l1 := [] }) = (tget s.parts i).map (fun p => { p with l1 := [] }) := by
  induction ls with
  | nil => exact fun s => ⟨_, _, rfl, fun _ => rfl, fun _ => rfl⟩
  | cons l r ih =>
    intro s
    unfold State.releaseLines
    obtain ⟨w, h1, g1⟩ := s.writeBack_aside wid l
    have same : ∀ {t : State}, t.aside = { s with warps := w }.aside → t.aside = { s with warps := w, parts := s.parts }.aside :=
      fun h => h
    split
    · split
      · rename_i s1 home e
        rw [e] at h1
        simp only at h1
        obtain ⟨w2, ps, h2, g2, p2⟩ := ih (s1.modPart pid fun p => modLine p l.line l.owner (cleaned home))
        have hw : s1.warps = w := aside_warps h1
        have hp : s1.parts = s.parts := (aside_parts h1 : _ = ({ s with warps := w } : State).parts)
        refine ⟨w2, ps, ?_, fun i => ?_, fun i => ?_⟩
        · rw [h2]
          show { s1.aside with warps := w2, parts := ps } = _
          rw [h1]; rfl
        · rw [g2]; show (tget s1.warps i).isSome = _; rw [hw, g1]
        · rw [p2]
          show (tget (tmod s1.parts pid _) i).map _ = _
          rw [hp]
          by_cases hi : i = pid
          · subst hi; rw [tget_tmod_self]; cases tget s.parts i <;> rfl
          · rw [tget_tmod_other _ _ _ _ hi]
      · rename_i s1 _ e
        rw [e] at h1
        exact ⟨w, s.parts, h1, g1, fun _ => rfl⟩
      · rename_i s1 _ e
        rw [e] at h1
        exact ⟨w, s.parts, h1, g1, fun _ => rfl⟩
    · exact ih s

/-- A release of a stream with nothing earlier outstanding, whose write-backs are all performed and that has no error to deliver, has its
effect in the state that they leave (R111, R125). -/
theorem Ctx.release_of {c : Ctx} {s1 : State} (ho : c.w.ops = []) (hb : c.s.backStalled c.wid = false)
    (hr : c.s.releaseLines c.w.part c.wid c.p.l1 = (s1, .done)) (he : (c.with s1).w.hnd = true ∨ (c.with s1).w.errs = [])
    (body : Ctx → State) : c.release body = body (c.with s1) := by
  unfold Ctx.release Ctx.quiet
  rw [hr]
  rcases he with he | he <;> simp [ho, hb, he, dueError]

end Sys2Proof.Machine
end

