-- ==== Sys2Proof/Machine/Bch.lean ====
section
/-! DEFINITION. The sidecar of a DRAM block: its extended BCH code over GF(2^13), the parity and the poison bit (spec/04_memory.md R97;
log 57). Polynomials over GF(2) are numbers, bit `k` the coefficient of x^k. -/

namespace Sys2Proof.Machine

/-! ## The field -/

/-- A field element times α, under the primitive polynomial x^13 + x^4 + x^3 + x + 1. -/
def gfDouble (a : Nat) : Nat := if a < 4096 then 2 * a else (2 * a) ^^^ 0x201B

/-- The product of two field elements, of which the second has so many bits. -/
def gfMul (a b : Nat) : Nat → Nat
  | 0 => 0
  | n + 1 => (if b % 2 = 1 then a else 0) ^^^ gfMul (gfDouble a) (b / 2) n

/-- α^n. -/
def gfAlpha : Nat → Nat
  | 0 => 1
  | n + 1 => gfDouble (gfAlpha n)

/-! ## The generator -/

/-- A polynomial over the field, lowest coefficient first, times x + c. -/
def timesRoot (c : Nat) (p : List Nat) : List Nat :=
  ((0 :: p).zip (p ++ [0])).map fun x => x.1 ^^^ gfMul c x.2 13

/-- A field element and its squares, so many of them: the conjugates of an element. -/
def conjugates : Nat → Nat → List Nat
  | 0, _ => []
  | n + 1, a => a :: conjugates n (gfMul a a 13)

/-- A polynomial over GF(2) from its coefficients. -/
def polyOf : List Nat → Nat
  | [] => 0
  | c :: r => c + 2 * polyOf r

/-- The minimal polynomial of an element of degree 13. -/
def minimalPoly (a : Nat) : Nat := polyOf ((conjugates 13 a).foldl (fun p c => timesRoot c p) [1])

/-- The product of two polynomials over GF(2), of which the second has so many coefficients. -/
def polyMul (a b : Nat) : Nat → Nat
  | 0 => 0
  | n + 1 => (if b % 2 = 1 then a else 0) ^^^ polyMul (2 * a) (b / 2) n

/-- The product of the minimal polynomials of α, α^3, …, α^31: degree 208. -/
def bchGenerator : Nat := (List.range 16).foldl (fun g k => polyMul g (minimalPoly (gfAlpha (2 * k + 1))) 14) 1

/-! ## The code -/

/-- One information bit enters the remainder, the highest first. -/
def bchStep (g r : Nat) (bit : Bool) : Nat :=
  let s := 2 * r % 2 ^ 208
  if (decide (2 ^ 207 ≤ r)) != bit then s ^^^ (g % 2 ^ 208) else s

/-- The information bits of a block: its data bits, and the poison bit as bit 4,096. -/
def infoBits (data : List Byte) (poison : Bool) : List Bool :=
  (data.flatMap fun b => (List.range 8).map b.getLsbD) ++ [poison]

/-- The remainder of the information bits; bit `i` of them is the coefficient of x^(208 + i) (log 57). -/
def bchRemainder (bits : List Bool) : Nat :=
  let g := bchGenerator
  bits.reverse.foldl (bchStep g) 0

/-- The number of ones is odd. -/
def oddOnes (bits : List Bool) : Bool := bits.foldl (fun a b => a != b) false

/-- The sidecar of a block (R97): remainder, parity of the other 4,305 bits, the poison bit, and zeros. -/
def sidecar (data : List Byte) (poison : Bool) : BitVec 256 :=
  let bits := infoBits data poison
  let r := bchRemainder bits
  let parity := oddOnes bits != oddOnes ((List.range 208).map fun k => r / 2 ^ k % 2 == 1)
  BitVec.ofNat 256 (r + (if parity then 2 ^ 208 else 0) + (if poison then 2 ^ 209 else 0))

/-- The sidecar that the memory-side cache writes with a block (R96, R97). -/
def State.sidecarOf (s : State) (block : Nat) : BitVec 256 := sidecar (s.bytesAt (block * 512) 512) (s.poison.contains block)

end Sys2Proof.Machine
end

