-- ==== Sys2Proof/Tests/Slice0.lean ====
section
/-! SUPPORT. Tests of the model: words of the encoding tables, single steps whose results come from the manual, and for every
statement with premises a state and operands that meet them. -/

set_option maxRecDepth 100000

namespace Sys2Proof.Tests

open Sys2Proof Sys2Proof.Machine

set_option Elab.async false
/-! ## States to start from -/

/-- A warp at address 0x20000 in a block of a running context whose table maps every address to itself (log 3), with its turn taken. -/
def base : State := { State.reset.placeWords [] with agenda := [], agent := .warp 3 }

/-- The same with another warp. -/
def withW (f : Warp → Warp) : State := base.modWarp 3 f

/-- A warp whose registers v2, v3 and v4 hold `x`, `y` and `z` in every lane. -/
def vs (x y z : Word) (w : Warp) : Warp :=
  { w with vregs := ((w.vregs.set 2 (Vector.replicate 32 x)).set 3 (Vector.replicate 32 y)).set 4 (Vector.replicate 32 z) }

/-- A warp whose registers s2 to s5 hold `a`, `b`, `x` and `y`. -/
def ss (a b x y : Word) (w : Warp) : Warp :=
  { w with sregs := (((w.sregs.set 2 a).set 3 b).set 4 x).set 5 y }

/-- A warp with a handler at 0x300. -/
def handler (w : Warp) : Warp := { w with tvec := 0x300 }

/-- A warp in its handler. -/
def inHandler (status : BitVec 5) (w : Warp) : Warp := { w with tvec := 0x300, status := status, epc := 0x500 }

/-- Predicates q1 and q2. -/
def qs (a b : Mask) (w : Warp) : Warp := { w with preds := (w.preds.set 1 a).set 2 b }

/-- A warp with an access slice whose turn it is. -/
def sliceBase (f : Slice → Slice) : State :=
  { (withW fun w => { w with slice := some (f { pc := 0x20000, sregs := w.sregs, badSregs := w.badSregs, fault := none, stopped := false }) }) with
    agent := .slice 3 }

/-- The state after an instruction. -/
def after (i : Instr) (s : State) : Option State := match exec i s with
  | .next t => some t
  | _ => none

/-- A property of the warp after an instruction. -/
def leaves (i : Instr) (s : State) (p : Warp → Bool) : Bool := ((after i s).bind fun t => tget t.warps 3).any p

/-- Lane 31 of v1 after an instruction. -/
def gives (i : Instr) (s : State) (x : Word) : Bool := leaves i s fun w => w.vregs[(1 : Fin 120)][(31 : Fin 32)] == x

/-- s1 after an instruction. -/
def givesS (i : Instr) (s : State) (x : Word) : Bool := leaves i s fun w => w.sregs[(1 : Fin 63)] == x

/-- The premise of the statements about an instruction, with more that its operands meet. -/
def isMet (i : Instr) (s : State) (p : Ctx → Bool) : Bool := (ready i s).any p

/-- The same for a result with its state. -/
def okWith {α ε : Type} (r : State × Except ε α) (p : State → α → Bool) : Bool := match r with
  | (s, .ok a) => p s a
  | _ => false

/-- Nothing carries bad check bits, and no page's accesses are counted. -/
def clean (s : State) : Bool := s.bad.isEmpty && s.poison.isEmpty && s.flips.isEmpty && s.counterTable == none

theorem clean_is_Clean (s : State) (h : clean s = true) : Clean s := by
  simp only [clean, Bool.and_eq_true, List.isEmpty_iff, beq_iff_eq] at h
  exact ⟨h.1.1.1, h.1.1.2, h.1.2, h.2⟩

/-- Operands v1, v2, v3. -/
def fa : FormA := ⟨0, .v 1, .v 2, .v 3, 0⟩
/-- Operands v1, v2. -/
def fa1 : FormA1 := ⟨0, .v 1, .v 2, 0⟩
/-- Operands v1, v2, v3, v4. -/
def fa3 : FormA3 := ⟨0, .v 1, .v 2, .v 3, .v 4, 0⟩
/-- Operands s1, s2, s3. -/
def fg : FormG := ⟨.s 1, .s 2, .s 3, 0⟩
/-- A word of a space in v2, to or from v1. -/
def fm (sp : Space) (order : Bool) : FormM := ⟨0, .v 1, .v 2, .w, sp, order, 0⟩

/-! ## Well-formedness: each check refuses a term that fails it -/

theorem smoke_literal_without_source : ¬ WellFormed (.iadd ⟨0, .v 1, .v 2, .v 3, 7⟩) := by decide +kernel
theorem smoke_literal_with_source : WellFormed (.iadd ⟨0, .v 1, .v 2, .lit, 7⟩) := by decide +kernel
theorem smoke_fx_sqrt_has_no_second_source :
    ¬ WellFormed (.fx ⟨0, .v 1, .v 2, .lit, .v 0, 7⟩ .f32 .sqrt false false false .rne) := by decide +kernel
theorem smoke_assigned_point : ¬ WellFormed (.unassignedOpcode 0x90000000) := by decide +kernel
theorem smoke_plain_bar_names_s0 : ¬ WellFormed (.bar (.s 1) (.s 0) none 0) := by decide +kernel

/-! ## Words written out from the encoding tables (R135-R138, R146, R147) -/

theorem words_integer : ∀ x ∈ ([([0x00A04103], .iadd ⟨5, .v 1, .v 2, .v 3, 0⟩),
    ([0x01A04103], .isub ⟨5, .v 1, .v 2, .v 3, 0⟩),
    ([0x02A04103], .imul ⟨5, .v 1, .v 2, .v 3, 0⟩),
    ([0x03A04103], .imulh ⟨5, .v 1, .v 2, .v 3, 0⟩),
    ([0x0BA04103], .imulhU ⟨5, .v 1, .v 2, .v 3, 0⟩),
    ([0x05A04103], .idiv ⟨5, .v 1, .v 2, .v 3, 0⟩),
    ([0x0CA04103], .idivU ⟨5, .v 1, .v 2, .v 3, 0⟩),
    ([0x06A04103], .irem ⟨5, .v 1, .v 2, .v 3, 0⟩),
    ([0x0DA04103], .iremU ⟨5, .v 1, .v 2, .v 3, 0⟩),
    ([0x07A04103], .imin ⟨5, .v 1, .v 2, .v 3, 0⟩),
    ([0x0EA04103], .iminU ⟨5, .v 1, .v 2, .v 3, 0⟩),
    ([0x08A04103], .imax ⟨5, .v 1, .v 2, .v 3, 0⟩),
    ([0x0FA04103], .imaxU ⟨5, .v 1, .v 2, .v 3, 0⟩),
    ([0x04024103, 0x08000000], .imad ⟨0, .v 9, .v 2, .v 3, .v 4, 0⟩),
    ([0x09004100], .iabs ⟨0, .v 1, .v 2, 0⟩)] : List (List Word × Instr)), decode x.1 = .ok (x.2, x.1.length) := by decide +kernel

theorem words_bits : ∀ x ∈ ([([0x101DFC7F, 0xFFFFFFFE], .and ⟨0, .v 119, .aq 0, .lit, 0xFFFFFFFE⟩),
    ([0x111DFC7F, 0xFFFFFFFE], .or ⟨0, .v 119, .aq 0, .lit, 0xFFFFFFFE⟩),
    ([0x121DFC7F, 0xFFFFFFFE], .xor ⟨0, .v 119, .aq 0, .lit, 0xFFFFFFFE⟩),
    ([0x141DFC7F, 0xFFFFFFFE], .shl ⟨0, .v 119, .aq 0, .lit, 0xFFFFFFFE⟩),
    ([0x151DFC7F, 0xFFFFFFFE], .shr ⟨0, .v 119, .aq 0, .lit, 0xFFFFFFFE⟩),
    ([0x1B1DFC7F, 0xFFFFFFFE], .shrA ⟨0, .v 119, .aq 0, .lit, 0xFFFFFFFE⟩),
    ([0x13004103, 0x08000096], .bmix ⟨0, .v 1, .v 2, .v 3, .v 4, 0⟩ 0x96),
    ([0x161F3E80], .popc ⟨0, .sq, .lane, 0⟩),
    ([0x171F3E80], .clz ⟨0, .sq, .lane, 0⟩),
    ([0x181F3E80], .brev ⟨0, .sq, .lane, 0⟩),
    ([0x19014300, 0x00004804], .bfe ⟨0, .v 5, .v 6, 0⟩ true 8 4),
    ([0x1A004103, 0x00000408], .bfi ⟨0, .v 1, .v 2, .v 3, 0⟩ 4 8)] : List (List Word × Instr)), decode x.1 = .ok (x.2, x.1.length) := by decide +kernel

theorem words_predicates : ∀ x ∈ ([([0x2005BE88], .icmp 0 1 .ltu .lane (.v 8) 0),
    ([0x212DC103], .fcmp 1 3 .uno (.v 2) (.v 3) 0),
    ([0x220E0082], .qand ⟨0, 3, true, false, 1, 2⟩),
    ([0x239D0305], .qor ⟨4, 7, false, true, 6, 5⟩),
    ([0x24070103], .qxor ⟨0, 1, true, true, 2, 3⟩),
    ([0x25404184], .sel 2 (.v 1) (.v 3) (.v 4) 0),
    ([0x26014000], .movqRead 0 (.v 5)),
    ([0x26000281], .movqWrite 0 (.v 5) 0)] : List (List Word × Instr)), decode x.1 = .ok (x.2, x.1.length) := by decide +kernel

theorem words_floating : ∀ x ∈ ([([0x30604103], .fadd ⟨3, .v 1, .v 2, .v 3, 0⟩),
    ([0x31008082], .fsub ⟨0, .v 2, .v 1, .v 2, 0⟩),
    ([0x32008082], .fmul ⟨0, .v 2, .v 1, .v 2, 0⟩),
    ([0x33008082], .fmin ⟨0, .v 2, .v 1, .v 2, 0⟩),
    ([0x34008082], .fmax ⟨0, .v 2, .v 1, .v 2, 0⟩),
    ([0x35004103, 0x08000009], .ffma ⟨0, .v 1, .v 2, .v 3, .v 4, 0⟩ true false .rtz),
    ([0x36008206, 0x10005300], .fx ⟨0, .v 2, .v 4, .v 6, .v 8, 0⟩ .f64 .fma false false false .rne),
    ([0x37004103, 0x00000003], .fdiv ⟨0, .v 1, .v 2, .v 3, 0⟩ .rup),
    ([0x38004100], .fsqrt ⟨0, .v 1, .v 2, 0⟩),
    ([0x39004100], .frcp ⟨0, .v 1, .v 2, 0⟩),
    ([0x3A004100], .frsq ⟨0, .v 1, .v 2, 0⟩),
    ([0x3B004100], .fexp2 ⟨0, .v 1, .v 2, 0⟩),
    ([0x3C004100], .flog2 ⟨0, .v 1, .v 2, 0⟩),
    ([0x3D004100], .fsin ⟨0, .v 1, .v 2, 0⟩),
    ([0x3E004100], .fcos ⟨0, .v 1, .v 2, 0⟩),
    ([0x3F004100, 0x40002000], .cvt ⟨0, .v 1, .v 2, 0⟩ .fp32 .t8 false .rne 0 2)] : List (List Word × Instr)), decode x.1 = .ok (x.2, x.1.length) := by decide +kernel

theorem words_exchange : ∀ x ∈ ([([0x40007F00], .mov ⟨0, .v 1, .zero, 0⟩),
    ([0x41020080], .movs 0 (.v 8) (.s 1) 0),
    ([0x4201C3FF, 0x0000000F, 0x00000001], .xlane ⟨0, .v 7, .v 7, .lit, 1⟩ 3 .xor),
    ([0x43014102], .vote 0 (.s 5) 2 .any),
    ([0x44008188], .lfold 0 (.s 2) (.v 3) .fadd 0)] : List (List Word × Instr)), decode x.1 = .ok (x.2, x.1.length) := by decide +kernel

theorem words_memory : ∀ x ∈ ([([0x50020229], .ld ⟨0, .v 8, .v 4, .w, .g, true, 0⟩),
    ([0x50007FA2, 0x00000040], .ld ⟨0, .v 1, .lit, .w, .s, false, 0x40⟩),
    ([0x51024229], .st ⟨0, .v 9, .v 4, .w, .g, true, 0⟩),
    ([0x5200C328, 0x00000040], .ldx ⟨0, .v 3, .v 6, .w, .g, false, 0⟩ 0x40),
    ([0x5320C328, 0x00000040], .stx ⟨1, .v 3, .v 6, .w, .g, false, 0⟩ 0x40),
    ([0x54004228, 0x04000090], .atom ⟨0, .v 1, .v 4, .w, .g, false, 0⟩ (.v 2) .add (.rel .sys)),
    ([0x55008228, 0x0C1C0098], .cas ⟨0, .v 2, .v 4, .w, .g, false, 0⟩ (.v 6) (.v 7) (.ar .sys)),
    ([0x60000082], .spawn 0 (.v 1) (.v 2) 0),
    ([0x61025001], .mma 0 (.v 9) 1 0 1 0),
    ([0xFFFFFFFF], .unassignedOpcode 0xFFFFFFFF)] : List (List Word × Instr)), decode x.1 = .ok (x.2, x.1.length) := by decide +kernel

theorem words_uniform : ∀ x ∈ ([([0x800C4140], .sadd ⟨.s 3, .s 4, .s 5, 0⟩),
    ([0x810C4140], .ssub ⟨.s 3, .s 4, .s 5, 0⟩),
    ([0x820C4140], .smul ⟨.s 3, .s 4, .s 5, 0⟩),
    ([0x830C4140], .sand ⟨.s 3, .s 4, .s 5, 0⟩),
    ([0x840C4140], .sor ⟨.s 3, .s 4, .s 5, 0⟩),
    ([0x850C4140], .sxor ⟨.s 3, .s 4, .s 5, 0⟩),
    ([0x860C4140], .sshl ⟨.s 3, .s 4, .s 5, 0⟩),
    ([0x87F81080], .sshr ⟨.s 62, .s 1, .s 2, 0⟩),
    ([0x87F81081], .sshrA ⟨.s 62, .s 1, .s 2, 0⟩),
    ([0x880420C0], .smin ⟨.s 1, .s 2, .s 3, 0⟩),
    ([0x880420C1], .sminU ⟨.s 1, .s 2, .s 3, 0⟩),
    ([0x890420C0], .smax ⟨.s 1, .s 2, .s 3, 0⟩),
    ([0x890420C1], .smaxU ⟨.s 1, .s 2, .s 3, 0⟩),
    ([0x8A07F000, 0x00000009], .smov (.s 1) .lit 9),
    ([0x8B0420C1], .sfadd ⟨.s 1, .s 2, .s 3, 0⟩ .rtz),
    ([0x8C0420C2], .sfmul ⟨.s 1, .s 2, .s 3, 0⟩ .rdn)] : List (List Word × Instr)), decode x.1 = .ok (x.2, x.1.length) := by decide +kernel

theorem words_control : ∀ x ∈ ([([0x900FFFFD], .bra 0xFFFFD),
    ([0x91900008, 0x00000083], .bcc .geu 8 (.s 2) (.s 3) 0),
    ([0x92900003], .bq true 1 3),
    ([0x93000006], .rcv 6),
    ([0x94000000], .join),
    ([0x95080000], .call 0x80000),
    ([0x9603C000], .ret (.s 60)),
    ([0x976FFFF7], .loop 6 0xFFFF7),
    ([0x98000000], .exit),
    ([0x99000004], .split 4),
    ([0xA0046FE2, 0x00000004], .qld 1 ⟨.s 6, .lit, .g, .w, 4⟩),
    ([0xA1006FE2, 0x00000004], .qst ⟨.s 6, .lit, .g, .w, 4⟩)] : List (List Word × Instr)), decode x.1 = .ok (x.2, x.1.length) := by decide +kernel

theorem words_waits : ∀ x ∈ ([([0xB0105008], .bar (.s 4) (.s 5) (some .fadd) 0),
    ([0xB000003F], .bar (.s 0) (.s 0) none 0),
    ([0xB1000000], .barc),
    ([0xB20C4FC0, 0x00000001], .pbarr false ⟨.s 3, .s 4, .lit, 1⟩),
    ([0xB3004140], .pbwait false (.s 4) (.s 5) 0),
    ([0xB4000004], .fence .sys),
    ([0xB5FFF03F], .waitc 63 63 0 63),
    ([0xB6004189], .waitw (.s 0) (.s 4) (.s 6) .geu),
    ([0xB7006000], .sleept (.s 6) 0),
    ([0xB8000000], .nop)] : List (List Word × Instr)), decode x.1 = .ok (x.2, x.1.length) := by decide +kernel

theorem words_engines : ∀ x ∈ ([([0xC021000C], .copy (.s 8) (.s 16) .s .g),
    ([0xC10841A0], .tld ⟨2, .s 4, .s 6, .g, 0⟩),
    ([0xC20C4188], .tst ⟨3, .s 4, .s 6, .s, 0⟩),
    ([0xC3000002], .czero 2),
    ([0xC4204189], .cst 1 .s (.s 8) (.s 4) (.s 6) 0),
    ([0xC8090000], .dlaunch (.s 2) (.s 16)),
    ([0xCA0C2FC0, 0x00000005], .dstat ⟨.s 3, .s 2, .lit, 5⟩),
    ([0xD00C4000], .sgfork (.s 3) (.s 4)),
    ([0xD10C0140], .sgreward (.s 3) (.s 5) 0),
    ([0xD30C4000], .sgwait (.s 3) (.s 4)),
    ([0xD20C4180], .sgcancel (.s 3) (.s 4) (.s 6) 0),
    ([0xD8404FC0, 0x00000000], .wdrun ⟨.s 16, .s 4, .lit, 0⟩)] : List (List Word × Instr)), decode x.1 = .ok (x.2, x.1.length) := by decide +kernel

theorem words_system : ∀ x ∈ ([([0xE0100018], .movcRead (.s 4) 0x018),
    ([0xE0003805], .movcWrite (.s 3) 0x005 0),
    ([0xE1005003], .trap (.s 5) 3 0),
    ([0xC90020C0], .dsigTok (.s 2) (.s 3) 0),
    ([0xC9002001], .dsigAbort (.s 2) 0),
    ([0xE4004FC0, 0x00000080], .cflush (.s 4) .lit 0x80),
    ([0xE4000001], .cflushAll),
    ([0xE5004180], .cinv (.s 4) (.s 6) 0),
    ([0xE5000001], .cinvAll),
    ([0xE6004002], .pref (.s 4) .msc),
    ([0xE2000000], .eret),
    ([0xE3000000], .brk),
    ([0xE72020C1], .stestChunk ⟨.s 8, .s 2, .s 3, 0⟩),
    ([0xE7200080], .stestHold ⟨.s 8, .s 0, .s 2, 0⟩),
    ([0xE7200002], .stestAppeal ⟨.s 8, .s 0, .s 0, 0⟩),
    ([0xE7200083], .stestFree ⟨.s 8, .s 0, .s 2, 0⟩)] : List (List Word × Instr)), decode x.1 = .ok (x.2, x.1.length) := by decide +kernel

/-! ## Integer instructions of the lanes -/

theorem test_iadd_wraps : gives (.iadd fa) (withW (vs 0xFFFFFFFF 2 0)) 1 = true := by decide +kernel
theorem test_isub_order : gives (.isub fa) (withW (vs 3 5 0)) 0xFFFFFFFE = true := by decide +kernel
theorem test_imul_low : gives (.imul fa) (withW (vs 0x10001 0x10001 0)) 0x00020001 = true := by decide +kernel
theorem test_imulh_signed : gives (.imulh fa) (withW (vs 0xFFFFFFFF 2 0)) 0xFFFFFFFF = true := by decide +kernel
theorem test_imulhU : gives (.imulhU fa) (withW (vs 0xFFFFFFFF 2 0)) 1 = true := by decide +kernel
theorem test_imad : gives (.imad fa3) (withW (vs 3 5 7)) 22 = true := by decide +kernel
theorem test_idiv_truncates : gives (.idiv fa) (withW (vs 0xFFFFFFF9 2 0)) 0xFFFFFFFD = true := by decide +kernel
/-- R58: a quotient by zero is all ones. -/
theorem test_idiv_by_zero : gives (.idiv fa) (withW (vs 5 0 0)) 0xFFFFFFFF = true := by decide +kernel
theorem test_idivU : gives (.idivU fa) (withW (vs 0xFFFFFFF9 2 0)) 0x7FFFFFFC = true := by decide +kernel
/-- R58: the remainder has the sign of the dividend. -/
theorem test_irem_sign : gives (.irem fa) (withW (vs 0xFFFFFFF9 2 0)) 0xFFFFFFFF = true := by decide +kernel
theorem test_irem_by_zero : gives (.irem fa) (withW (vs 5 0 0)) 5 = true := by decide +kernel
theorem test_iremU : gives (.iremU fa) (withW (vs 0xFFFFFFF9 2 0)) 1 = true := by decide +kernel
theorem test_imin_signed : gives (.imin fa) (withW (vs 0xFFFFFFFF 1 0)) 0xFFFFFFFF = true := by decide +kernel
theorem test_iminU : gives (.iminU fa) (withW (vs 0xFFFFFFFF 1 0)) 1 = true := by decide +kernel
theorem test_imax_signed : gives (.imax fa) (withW (vs 0xFFFFFFFF 1 0)) 1 = true := by decide +kernel
theorem test_imaxU : gives (.imaxU fa) (withW (vs 0xFFFFFFFF 1 0)) 0xFFFFFFFF = true := by decide +kernel
theorem test_iabs : gives (.iabs fa1) (withW (vs 0xFFFFFFFB 0 0)) 5 = true := by decide +kernel
theorem test_and : gives (.and fa) (withW (vs 12 10 0)) 8 = true := by decide +kernel
theorem test_or : gives (.or fa) (withW (vs 12 10 0)) 14 = true := by decide +kernel
theorem test_xor : gives (.xor fa) (withW (vs 12 10 0)) 6 = true := by decide +kernel
/-- R168: the manual's own example, "a and not c". -/
theorem test_bmix : gives (.bmix fa3 0x0A) (withW (vs 0xFF00FF00 0x12345678 0xF0F0F0F0)) 0x0F000F00 = true := by decide +kernel
theorem test_shl_by_32 : gives (.shl fa) (withW (vs 1 32 0)) 0 = true := by decide +kernel
theorem test_shr : gives (.shr fa) (withW (vs 0x80000000 31 0)) 1 = true := by decide +kernel
theorem test_shrA_beyond : gives (.shrA fa) (withW (vs 0x80000000 40 0)) 0xFFFFFFFF = true := by decide +kernel
theorem test_popc : gives (.popc fa1) (withW (vs 0xF000000F 0 0)) 8 = true := by decide +kernel
theorem test_clz_of_zero : gives (.clz fa1) (withW (vs 0 0 0)) 32 = true := by decide +kernel
theorem test_brev : gives (.brev fa1) (withW (vs 1 0 0)) 0x80000000 = true := by decide +kernel
/-- R170: the manual's own examples. -/
theorem test_bfe_signed : gives (.bfe fa1 true 8 4) (withW (vs 0xAB0 0 0)) 0xFFFFFFAB = true := by decide +kernel
theorem test_bfe : gives (.bfe fa1 false 8 4) (withW (vs 0xAB0 0 0)) 0xAB = true := by decide +kernel
theorem test_bfi : gives (.bfi fa 4 8) (withW (vs 5 0xFFFFFFFF 0)) 0xFFFFF5FF = true := by decide +kernel

/-! ## Predicates and moves -/

theorem test_icmp_ltu :
    leaves (.icmp 0 1 .ltu (.v 2) (.v 3) 0) (withW (vs 1 0xFFFFFFFF 0)) (fun w => w.preds[(1 : Fin 8)] == 0xFFFFFFFF) = true := by decide +kernel
theorem test_icmp_lt :
    leaves (.icmp 0 1 .lt (.v 2) (.v 3) 0) (withW (vs 1 0xFFFFFFFF 0)) (fun w => w.preds[(1 : Fin 8)] == 0) = true := by decide +kernel
/-- R148: −0 equals +0. -/
theorem test_fcmp_zeros :
    leaves (.fcmp 0 1 .eq (.v 2) (.v 3) 0) (withW (vs 0x80000000 0 0)) (fun w => w.preds[(1 : Fin 8)] == 0xFFFFFFFF) = true := by decide +kernel
/-- R148: a comparison with a NaN is unordered. -/
theorem test_fcmp_nan :
    leaves (.fcmp 0 1 .ne (.v 2) (.v 3) 0) (withW (vs 0x7FC00000 0 0)) (fun w => w.preds[(1 : Fin 8)] == 0xFFFFFFFF) = true := by decide +kernel

theorem test_qand :
    leaves (.qand ⟨0, 3, true, false, 1, 2⟩) (withW (qs 0xC 0xA)) (fun w => w.preds[(3 : Fin 8)] == 2) = true := by decide +kernel
theorem test_qor :
    leaves (.qor ⟨0, 3, false, false, 1, 2⟩) (withW (qs 0xC 0xA)) (fun w => w.preds[(3 : Fin 8)] == 0xE) = true := by decide +kernel
theorem test_qxor_ignores_q0 :
    leaves (.qxor ⟨0, 0, false, false, 1, 2⟩) (withW (qs 0xC 0xA)) (fun w => w.preds[(0 : Fin 8)] == 0) = true := by decide +kernel
theorem test_sel : gives (.sel 1 (.v 1) (.v 2) (.v 3) 0) (withW fun w => qs 0x80000000 0 (vs 5 6 0 w)) 5 = true := by decide +kernel
theorem test_movq_reads : gives (.movqRead 0 (.v 1)) (withW (qs 0x80000000 0)) 3 = true := by decide +kernel
theorem test_movq_writes :
    leaves (.movqWrite 0 (.v 2) 0) (withW (vs 0x83 0 0)) (fun w => w.preds[(1 : Fin 8)] == 0xFFFFFFFF && w.preds[(0 : Fin 8)] == 0
      && w.preds[(7 : Fin 8)] == 0xFFFFFFFF && w.preds[(2 : Fin 8)] == 0) = true := by decide +kernel
theorem test_mov_lane : gives (.mov ⟨0, .v 1, .lane, 0⟩) base 31 = true := by decide +kernel
theorem test_movs : gives (.movs 0 (.v 1) (.s 2) 0) (withW (ss 9 0 0 0)) 9 = true := by decide +kernel
/-- A guard that is false leaves the destination. -/
theorem test_guard : gives (.mov ⟨2, .v 1, .v 2, 0⟩) (withW (vs 7 0 0)) 0 = true := by decide +kernel
/-- R181: with groups of 32, lane l receives the value of lane l + 1, and lane 31 that of lane 0. -/
theorem test_xlane_rot : gives (.xlane ⟨0, .v 1, .lane, .lit, 1⟩ 5 .rot) base 0 = true := by decide +kernel
theorem test_xlane_rev : gives (.xlane ⟨0, .v 1, .lane, .lit, 0⟩ 5 .rev) base 0 = true := by decide +kernel
theorem test_vote_ballot :
    givesS (.vote 0 (.s 1) 1 .ballot) (withW fun w => { qs 0xFF 0 w with laneok := 0xF }) 0xF = true := by decide +kernel
/-- R206: the manual's own example: lane 0 holds 2^24 and lanes 1 to 31 each 1.0. -/
theorem test_lfold_fadd : givesS (.lfold 0 (.s 1) (.v 2) .fadd 0)
    (withW fun w => { w with vregs := w.vregs.set 2 ((Vector.replicate 32 0x3F800000).set 0 0x4B800000) }) 0x4B80000F = true := by decide +kernel

/-! ## Floating point -/

theorem test_fadd : gives (.fadd fa) (withW (vs 0x3F800000 0x40000000 0)) 0x40400000 = true := by decide +kernel
theorem test_fsub : gives (.fsub fa) (withW (vs 0x3F800000 0x40000000 0)) 0xBF800000 = true := by decide +kernel
theorem test_fmul_infinity_by_zero : gives (.fmul fa) (withW (vs 0x7F800000 0 0)) 0x7FC00000 = true := by decide +kernel
theorem test_fmin_zeros : gives (.fmin fa) (withW (vs 0 0x80000000 0)) 0x80000000 = true := by decide +kernel
theorem test_fmax_number_over_nan : gives (.fmax fa) (withW (vs 0x7FC00000 0x3F800000 0)) 0x3F800000 = true := by decide +kernel
theorem test_ffma : gives (.ffma fa3 true false .rtz) (withW (vs 0x40000000 0x40400000 0x3F800000)) 0xC0A00000 = true := by decide +kernel
theorem test_fdiv_by_zero : leaves (.fdiv fa .rne) (withW (vs 0x3F800000 0 0))
    (fun w => w.vregs[(1 : Fin 120)][(31 : Fin 32)] == 0x7F800000 && w.fflags == flDz) = true := by decide +kernel
theorem test_fdiv_rounds_up : gives (.fdiv fa .rup) (withW (vs 0x3F800000 0x40400000 0)) 0x3EAAAAAB = true := by decide +kernel
theorem test_fsqrt : gives (.fsqrt fa1) (withW (vs 0x40800000 0 0)) 0x40000000 = true := by decide +kernel
theorem test_frcp : gives (.frcp fa1) (withW (vs 0x40800000 0 0)) 0x3E800000 = true := by decide +kernel
theorem test_frsq : gives (.frsq fa1) (withW (vs 0x40800000 0 0)) 0x3F000000 = true := by decide +kernel
theorem test_fexp2 : gives (.fexp2 fa1) (withW (vs 0x40400000 0 0)) 0x41000000 = true := by decide +kernel
theorem test_flog2 : gives (.flog2 fa1) (withW (vs 0x41000000 0 0)) 0x40400000 = true := by decide +kernel
theorem test_fsin_of_zero : gives (.fsin fa1) (withW (vs 0x80000000 0 0)) 0x80000000 = true := by decide +kernel
theorem test_fcos_of_zero : gives (.fcos fa1) (withW (vs 0 0 0)) 0x3F800000 = true := by decide +kernel
theorem test_fx_halves : gives (.fx ⟨0, .v 1, .v 2, .v 3, .v 0, 0⟩ .f16x2 .add false false false .rne)
    (withW (vs 0x3C004000 0x3C003C00 0)) 0x40004200 = true := by decide +kernel
theorem test_fx_double : leaves (.fx ⟨0, .v 6, .v 2, .v 4, .v 0, 0⟩ .f64 .mul false false false .rne)
    (withW fun w => { vs 0 0x40000000 0 w with vregs := (vs 0 0x40000000 0 w).vregs.set 5 (Vector.replicate 32 0x40080000) })
    (fun w => w.vregs[(7 : Fin 120)][(31 : Fin 32)] == 0x40180000) = true := by decide +kernel
/-- R179: the manual's own example. -/
theorem test_cvt_tapered : leaves (.cvt fa1 .fp32 .t8 false .rne 0 2)
    (withW fun w => { vs 0x40533333 0 0 w with vregs := (vs 0x40533333 0 0 w).vregs.set 1 (Vector.replicate 32 0x11223344) })
    (fun w => w.vregs[(1 : Fin 120)][(31 : Fin 32)] == 0x115A3344 && w.fflags == flNx) = true := by decide +kernel

/-! ## Witnesses: lanes -/

theorem witness_LaneArithmeticResults : ∀ i ∈ [Instr.iadd fa, .isub fa, .imul fa, .imulh fa, .imulhU fa, .imad fa3, .idiv fa,
    .idivU fa, .irem fa, .iremU fa, .imin fa, .iminU fa, .imax fa, .imaxU fa, .iabs fa1, .iadd ⟨0, .sq, .lane, .lit, 7⟩],
    (arithValue i).isSome = true ∧ (ready i base).isSome = true := by decide +kernel
theorem witness_LaneBitsResults : ∀ i ∈ [Instr.and fa, .or fa, .xor fa, .bmix fa3 1, .shl fa, .shr fa, .shrA fa, .popc fa1,
    .clz fa1, .brev fa1, .bfe fa1 true 32 0, .bfi fa 1 31], (bitsValue i).isSome = true ∧ (ready i base).isSome = true := by decide +kernel
theorem witness_LaneMoveResults : ∀ i ∈ [Instr.sel 1 (.v 1) (.v 2) (.v 3) 0, .movqRead 0 (.v 1), .mov fa1, .movs 0 (.v 1) (.s 2) 0],
    (moveValue i).isSome = true ∧ (ready i base).isSome = true := by decide +kernel
theorem witness_LaneExchanges : ∀ m ∈ [XMode.from, .rot, .rev, .xor],
    (ready (.xlane fa 5 m) base).isSome = true ∧ base.bad = [] := by decide +kernel
theorem witness_LaneFloatResults : ∀ i ∈ [Instr.fadd fa, .fsub fa, .fmul fa, .fmin fa, .fmax fa, .ffma fa3 true true .rup,
    .fdiv fa .rne, .fsqrt fa1, .frcp fa1, .frsq fa1, .fexp2 fa1, .flog2 fa1, .fsin fa1, .fcos fa1,
    .fx fa3 .f32 .fma false false false .rne, .cvt fa1 .fp32 .s32 false .rne 0 0, .cvt ⟨0, .v 1, .v 2, 0⟩ .fp64 .t6 true .rne 0 3],
    (floatValue i).isSome = true ∧ (ready i base).isSome = true := by decide +kernel
theorem witness_LaneWideResults : ∀ i ∈ [Instr.fx ⟨0, .v 2, .v 4, .v 6, .v 8, 0⟩ .f64 .fma false false true .rne,
    .cvt ⟨0, .v 4, .v 3, 0⟩ .fp32 .fp64 false .rne 0 0], (wideValue i).isSome = true ∧ (ready i base).isSome = true := by decide +kernel
/-- R60: 1 + 2^-24 lies half way between two values of fp32, and rounds to the even one. -/
theorem witness_RoundsOnce : (decodeF fp32 0x3F800000).rat = some 1 ∧ (decodeF fp32 0x33800000).rat = some (1 / 2 ^ 24)
    ∧ (decodeF fp32 0xBF800000).rat = some (-1) ∧ (1 : ℚ) + 1 / 2 ^ 24 ≠ 0 ∧ (1 : ℚ) * (1 / 2 ^ 24) ≠ 0 ∧ (1 : ℚ) + -1 = 0 := by
  have h1 : decodeF fp32 0x3F800000 = .fin false 0x800000 (-23) := by decide +kernel
  have h2 : decodeF fp32 0x33800000 = .fin false 0x800000 (-47) := by decide +kernel
  have h3 : decodeF fp32 0xBF800000 = .fin true 0x800000 (-23) := by decide +kernel
  rw [h1, h2, h3]
  norm_num [FVal.rat]
theorem test_rounds_to_even : addV fp32 .rne (decodeF fp32 0x3F800000) (decodeF fp32 0x33800000) = (0x3F800000, flNx) := by decide +kernel

theorem witness_PredicateResults : ∀ i ∈ [Instr.icmp 0 1 .lt (.v 2) (.v 3) 0, .fcmp 0 1 .lt (.v 2) (.v 3) 0,
    .qand ⟨0, 3, true, false, 1, 2⟩, .qor ⟨0, 3, true, false, 1, 2⟩, .qxor ⟨0, 0, true, false, 1, 2⟩],
    (predValue i).isSome = true ∧ (ready i base).isSome = true := by decide +kernel
theorem witness_MovqWritesPredicates : (ready (.movqWrite 0 (.v 2) 0) base).isSome = true := by decide +kernel
theorem witness_UniformResults : ∀ i ∈ [Instr.sadd fg, .ssub fg, .smul fg, .sand fg, .sor fg, .sxor fg, .sshl fg, .sshr fg,
    .sshrA fg, .smin fg, .sminU fg, .smax fg, .smaxU fg, .smov (.s 1) .lit 3, .sfadd fg .rdn, .sfmul fg .rup,
    .vote 0 (.s 1) 2 .ballot, .vote 0 (.s 1) 2 .all, .vote 0 (.s 1) 2 .any, .lfold 0 (.s 1) (.v 2) .minu 0],
    (uniformValue i).isSome = true ∧ (ready i base).isSome = true := by decide +kernel

theorem witness_UniformResults_in_a_slice : (ready (.sadd fg) (sliceBase id)).isSome = true := by decide +kernel

theorem witness_IntegerEdgeResults : (∀ i ∈ [Instr.idiv fa, .idivU fa, .irem fa, .iremU fa],
      isMet i (withW (vs 5 0 0)) (fun c => c.act.getLsbD 31 && c.v (.v 3) (31 : Fin 32) == 0) = true)
    ∧ (∀ i ∈ [Instr.idiv fa, .irem fa], isMet i (withW (vs 0x80000000 0xFFFFFFFF 0))
      (fun c => c.act.getLsbD 31 && c.v (.v 2) (31 : Fin 32) == 0x80000000 && c.v (.v 3) (31 : Fin 32) == 0xFFFFFFFF) = true
      ∧ isMet i (withW (vs 0x80000000 1 0)) (fun c => c.act.getLsbD 31 && c.v (.v 3) (31 : Fin 32) == 1) = true)
    ∧ (∀ i ∈ [Instr.shl fa, .shr fa, .shrA fa], isMet i (withW (vs 1 32 0))
      (fun c => c.act.getLsbD 31 && c.v (.v 3) (31 : Fin 32) == 32) = true)
    ∧ isMet (.iabs fa1) (withW (vs 0x80000000 0 0)) (fun c => c.act.getLsbD 31 && c.v (.v 2) (31 : Fin 32) == 0x80000000) = true
    ∧ (∀ i ∈ [Instr.sshl fg, .sshr fg, .sshrA fg], isMet i (withW (ss 1 32 0 0)) (fun c => c.sv (.s 3) == 32) = true) := by
  decide +kernel

/-! ## Uniform instructions -/

theorem test_ssub : givesS (.ssub fg) (withW (ss 3 5 0 0)) 0xFFFFFFFE = true := by decide +kernel
theorem test_sadd_literal : givesS (.sadd ⟨.s 1, .s 2, .lit, 2⟩) (withW (ss 0xFFFFFFFF 0 0 0)) 1 = true := by decide +kernel
theorem test_smul : givesS (.smul fg) (withW (ss 0x10000 0x10001 0 0)) 0x10000 = true := by decide +kernel
theorem test_sshl_by_32 : givesS (.sshl fg) (withW (ss 1 32 0 0)) 0 = true := by decide +kernel
theorem test_sshr_by_31 : givesS (.sshr fg) (withW (ss 0x80000000 31 0 0)) 1 = true := by decide +kernel
theorem test_sshrA : givesS (.sshrA fg) (withW (ss 0x80000000 31 0 0)) 0xFFFFFFFF = true := by decide +kernel
theorem test_smin : givesS (.smin fg) (withW (ss 0xFFFFFFFF 1 0 0)) 0xFFFFFFFF = true := by decide +kernel
theorem test_sminU : givesS (.sminU fg) (withW (ss 0xFFFFFFFF 1 0 0)) 1 = true := by decide +kernel
theorem test_sfadd_rounds_up : givesS (.sfadd fg .rup) (withW (ss 0x3F800000 0x33000000 0 0)) 0x3F800001 = true := by decide +kernel
theorem test_sfmul : givesS (.sfmul fg .rne) (withW (ss 0x40000000 0x40400000 0 0)) 0x40C00000 = true := by decide +kernel

/-! ## Control -/

/-- Where the warp goes. -/
def goesTo (i : Instr) (s : State) (a : DWord) : Bool := leaves i s fun w => w.pc == a

/-- R139: the target is the address of the first word plus 4 × off; 0xFFFFD is −3. -/
theorem test_bra_back : goesTo (.bra 0xFFFFD) base 0x1FFF4 = true := by decide +kernel
theorem test_bcc_taken : goesTo (.bcc .ltu 3 (.s 2) (.s 3) 0) (withW (ss 1 0xFFFFFFFF 0 0)) 0x2000C = true := by decide +kernel
theorem test_bcc_not_taken : goesTo (.bcc .lt 3 (.s 2) (.s 3) 0) (withW (ss 1 0xFFFFFFFF 0 0)) 0x20008 = true := by decide +kernel
theorem test_bq_all_lanes : goesTo (.bq true 1 3) base 0x2000C = true := by decide +kernel
/-- R213: on equal counts the side at the lower address runs first. -/
theorem test_bq_divides : leaves (.bq false 1 3) (withW fun w => { qs 0x0000FFFF 0 w with stack := [.reconv 0x30000 0xFFFFFFFF []] })
    (fun w => w.pc == 0x20004 && w.path == 0xFFFF0000 && (match w.stack with
      | .path a m _ :: _ => a == 0x2000C && m == 0x0000FFFF
      | _ => false)) = true := by decide +kernel
theorem test_rcv_pushes : leaves (.rcv 6) base (fun w => w.pc == 0x20004 && (match w.stack with
      | [.reconv a m _] => a == 0x20018 && m == 0xFFFFFFFF
      | _ => false)) = true := by decide +kernel
theorem test_join_runs_the_other_path : leaves .join (withW fun w => { w with path := 3, stack := [.path 0x400 0xC []] })
    (fun w => w.pc == 0x400 && w.path == 0xC && w.stack.isEmpty) = true := by decide +kernel
theorem test_call_links : leaves (.call 4) base (fun w => w.pc == 0x20010 && w.sregs[(60 : Fin 63)] == 0x20004
    && w.sregs[(61 : Fin 63)] == 0) = true := by decide +kernel
theorem test_ret : goesTo (.ret (.s 2)) (withW (ss 0x400 1 0 0)) 0x100000400 = true := by decide +kernel
/-- R209: a counter of 0 becomes 0xFFFF_FFFF and branches; a counter of 1 falls through. -/
theorem test_loop_of_zero : leaves (.loop 2 0xFFFFF) base (fun w => w.pc == 0x1FFFC && w.sregs[(2 : Fin 63)] == 0xFFFFFFFF) = true := by
  decide +kernel
theorem test_loop_ends : goesTo (.loop 2 0xFFFFF) (withW (ss 1 0 0 0)) 0x20004 = true := by decide +kernel
theorem test_split : leaves (.split 4) base (fun w => w.pc == 0x20004 && (w.slice.any fun y => y.pc == 0x20010)) = true := by decide +kernel
theorem test_exit_ends_the_warp : ((after .exit base).any fun t => (tget t.warps 3).isNone) = true := by decide +kernel
theorem test_exit_waits_for_operations : leaves .exit
    (withW fun w => { w with ops := [⟨0, .stores, 1, .store, .s, [], 1, none, none, [], false, [], 0, none, 0⟩] })
    (fun w => w.pc == 0x20000 && (w.wait.any fun k => k.kind == .exitDrain)) = true := by decide +kernel
theorem test_nop : goesTo .nop base 0x20004 = true := by decide +kernel

/-- One division of the path and what encloses it. -/
def divided (w : Warp) : Warp := { qs 0x0000FFFF 0 w with stack := [.reconv 0x30000 0xFFFFFFFF []] }

/-- An address of 2^55 in s2 and s3, and one that is no multiple of 4 in s4 and s5. -/
def badAddresses (w : Warp) : Warp := handler (ss 0 0x00800000 0x402 0 w)

/-- A warp near the top of its address space. -/
def nearTop (w : Warp) : Warp := { handler w with pc := 0x007FFFFFFFFFFFFC }

theorem witness_BranchesGoToTheirTargets : ∀ i ∈ [Instr.bra 0xFFFFD, .bcc .eq 3 (.s 2) (.s 3) 0, .bq true 1 0x80000, .ret (.s 2)],
    isMet i (withW fun w => { w with pc := 0x400000 }) (fun c => (jumpTo i c).any fun a => a.toNat < 2 ^ 55 && a.toNat % 4 == 0)
      = true := by decide +kernel
theorem witness_BranchesGoToTheirTargets_at_the_top :
    isMet (.bra 0) (withW nearTop) (fun c => (jumpTo (.bra 0) c).any fun a => a.toNat == 2 ^ 55 - 4) = true := by decide +kernel
theorem witness_PlainInstructionsGoOn : (ready .nop base).isSome = true
    ∧ isMet (.bcc .ne 3 (.s 2) (.s 3) 0) base (fun c => !icond .ne (c.sv (.s 2)) (c.sv (.s 3))) = true
    ∧ isMet (.bq false 1 3) base (fun c => takenLanes c false 1 == 0) = true
    ∧ isMet (.fence .warp) base (fun c => c.w.ops.isEmpty) = true := by decide +kernel
theorem witness_CallLinks : isMet (.call 4) base (fun c => (targetOf c 4).toNat < 2 ^ 55) = true
    ∧ isMet (.call 0) (withW nearTop) (fun c => (targetOf c 0).toNat == 2 ^ 55 - 4) = true := by decide +kernel
theorem witness_LoopCounts :
    isMet (.loop 2 1) base (fun c => c.sv (.s 2) - 1 == 0xFFFFFFFF && (targetOf c 1).toNat < 2 ^ 55) = true
    ∧ isMet (.loop 2 1) (withW (ss 1 0 0 0)) (fun c => c.sv (.s 2) - 1 == 0) = true := by decide +kernel
theorem witness_BadTargetsTrap :
    isMet (.bra 1) (withW nearTop) (fun c => !c.slice && c.w.handles && (jumpTo (.bra 1) c).any fun a => a.toNat == 2 ^ 55) = true
    ∧ isMet (.ret (.s 2)) (withW badAddresses)
      (fun c => !c.slice && c.w.handles && (jumpTo (.ret (.s 2)) c).any fun a => a.toNat == 2 ^ 55) = true
    ∧ isMet (.ret (.s 4)) (withW badAddresses)
      (fun c => !c.slice && c.w.handles && (jumpTo (.ret (.s 4)) c).any fun a => a.toNat < 2 ^ 55 && a.toNat % 4 != 0) = true := by decide +kernel
theorem witness_RcvPushes :
    isMet (.rcv 6) (withW fun w => { handler w with stack := List.replicate 79 (.path 0 0 []) })
      (fun c => (targetOf c 6).toNat < 2 ^ 55 && c.w.stack.length < 80) = true
    ∧ isMet (.rcv 6) (withW fun w => { handler w with stack := List.replicate 80 (.path 0 0 []) })
      (fun c => (targetOf c 6).toNat < 2 ^ 55 && decide (80 ≤ c.w.stack.length) && c.w.handles) = true := by decide +kernel

/-- The premises of a dividing `bq`. -/
def divides (c : Ctx) : Bool :=
  (targetOf c 3).toNat < 2 ^ 55 && takenLanes c false 1 != 0 && leftLanes c false 1 != 0 && !c.w.stack.isEmpty && c.w.stack.length < 80

theorem witness_BqDiverges :
    isMet (.bq false 1 3) (withW divided) (fun c => divides c && lanesIn (leftLanes c false 1) == lanesIn (takenLanes c false 1)
      && c.nextPc.toNat < (targetOf c 3).toNat) = true
    ∧ isMet (.bq false 1 3) (withW fun w => { divided w with preds := w.preds.set 1 0x0001FFFF })
      (fun c => divides c && lanesIn (leftLanes c false 1) < lanesIn (takenLanes c false 1)) = true := by decide +kernel
theorem witness_JoinReturns :
    isMet .join (withW fun w => { w with stack := [.path 0x400 0xC []] }) (fun c => match joinAt c.w.laneok c.w.stack with
      | some (.path _ _ _, _) => true
      | _ => false) = true
    ∧ isMet .join (withW fun w => { w with stack := [.reconv 0x400 0xC []] }) (fun c => c.w.ops.isEmpty
      && match joinAt c.w.laneok c.w.stack with
      | some (.reconv _ _ _, _) => true
      | _ => false) = true
    ∧ isMet .join (withW handler) (fun c => (joinAt c.w.laneok c.w.stack).isNone && c.w.handles) = true := by decide +kernel
theorem witness_SplitStartsASlice : isMet (.split 4) base (fun c => c.w.slice.isNone && (targetOf c 4).toNat < 2 ^ 55) = true := by decide +kernel

/-- An operation that has issued and not completed. -/
def op0 : OutOp := ⟨0, .stores, 1, .store, .s, [], 1, none, none, [], false, [], 0, none, 0⟩

theorem witness_ExitEnds : isMet .exit (sliceBase id) (fun c => c.slice) = true
    ∧ isMet .exit (withW fun w => { w with ops := [op0] }) (fun c => !c.slice && c.w.stack.isEmpty && !c.w.ops.isEmpty) = true
    ∧ isMet .exit base (fun c => !c.slice && c.w.stack.isEmpty && c.w.ops.isEmpty && c.w.sq.isEmpty && (base.copiesOf c.wid).isEmpty)
      = true := by decide +kernel

/-! ## Traps and control registers -/

/-- R238: cr.epc holds the address of the next instruction. -/
theorem test_trap : leaves (.trap (.s 2) 3 0) (withW fun w => handler (ss 9 0 0 0 w))
    (fun w => w.pc == 0x300 && w.epc == 0x20004 && w.eval == 9 && w.cause == 0x00032010 && w.status == 1) = true := by decide +kernel
theorem test_brk : leaves .brk (withW handler) (fun w => w.pc == 0x300 && w.epc == 0x20004 && w.eval == 0 && w.cause == 0x2011) = true := by
  decide +kernel
theorem test_eret : leaves .eret (withW (inHandler 0x11)) (fun w => w.pc == 0x500 && w.status == 0x10) = true := by decide +kernel
theorem test_eret_outside : leaves .eret (withW handler) (fun w => w.pc == 0x300 && w.epc == 0x20000 && w.eval == 0xE2000000
    && w.cause == 0x2001) = true := by decide +kernel
theorem test_movc_reads : givesS (.movcRead (.s 1) 0x006) base 0xFFFFFFFF = true := by decide +kernel
theorem test_movc_writes : leaves (.movcWrite (.s 2) 0x004 0) (withW (ss 0x407 0xFFFFFFFF 0 0)) (fun w => w.tvec == 0x007FFFFF00000404) = true := by
  decide +kernel
/-- R382: an unassigned word takes trap 0x01 with the word. -/
theorem test_unassigned : leaves (.unassignedOpcode 0xFFFFFFFF) (withW handler) (fun w => w.pc == 0x300 && w.cause == 0x2001
    && w.eval == 0xFFFFFFFF) = true := by decide +kernel

/-- The premises of the statements about instructions that do not pass the checks at issue. -/
def reaches (i : Instr) (s : State) (code : BitVec 8) : Bool :=
  (tget s.warps 3).any fun w => (tget s.parts w.part).any fun p =>
    s.agent == .warp 3 && !s.blocked 3 w false i && (dueError w i).isNone && w.handles && s.illegal w p false i == some code

theorem witness_TrapInstructionsEnterTheHandler : ∀ i ∈ [Instr.trap (.s 2) 63 0, .trap .lit 3 7, .brk],
    isMet i (withW handler) (fun c => c.w.handles) = true ∧ isMet i base (fun c => !c.w.handles) = true := by decide +kernel
theorem witness_IllegalInstructionsTrap :
    reaches (.iadd ⟨0, .aq 0, .v 1, .v 2, 0⟩) (withW handler) 0x01 = true
    ∧ reaches (.ld ⟨0, .v 8, .v 10, .q16, .g, false, 0⟩) (withW handler) 0x02 = true
    ∧ reaches (.qld 0 ⟨.s 6, .lit, .g, .w, 4⟩) (withW handler) 0x01 = true := by decide +kernel
theorem witness_UnassignedOpcodeTraps : reaches (.unassignedOpcode 0x0A000000) (withW handler) 0x01 = true := by decide +kernel
theorem witness_UnhandledTrapStopsTheWarp :
    ((tget base.warps 3).any fun w => !w.handles) = true
    ∧ ((tget (withW (inHandler 1)).warps 3).any fun w => !w.handles) = true := by decide +kernel
theorem witness_EretReturns :
    isMet .eret (withW handler) (fun c => c.w.handles) = true
    ∧ isMet .eret (withW (inHandler 1)) (fun c => c.w.status.getLsbD 0 && !c.w.status.getLsbD 2) = true
    ∧ isMet .eret (withW (inHandler 0x0D)) (fun c => c.w.status.getLsbD 0 && c.w.status.getLsbD 2 && c.w.status.getLsbD 3) = true
    ∧ isMet .eret (withW (inHandler 0x05)) (fun c => c.w.status.getLsbD 0 && c.w.status.getLsbD 2 && !c.w.status.getLsbD 3) = true := by
  decide +kernel

/-- A slice with a fault that its warp has not taken. -/
def sliceFaults : State :=
  { (withW fun w => { handler w with slice := some ⟨0x20000, w.sregs, [], some { code := 0x05, value := 9 }, false⟩ }) with
    agenda := [.issue 3] }

theorem witness_SliceFaultIsDelivered : ((tget sliceFaults.warps 3).any fun w => sliceFaults.mayAct w && w.wait.isNone
    && (w.slice.any fun y => y.fault.isSome) && w.handles) = true := by decide +kernel
theorem witness_MovcReads : (∀ n ∈ [(0x000 : BitVec 11), 0x001, 0x005, 0x006, 0x009, 0x00A, 0x00B, 0x00C, 0x00D, 0x00E, 0x010],
      (ready (.movcRead (.s 1) n) base).isSome = true ∧ (crValue n.toNat).isSome = true ∧ crSpan n = some 1)
    ∧ ∀ n ∈ [(0x002 : BitVec 11), 0x003, 0x004, 0x018],
      (ready (.movcRead (.s 2) n) base).isSome = true ∧ (crValue n.toNat).isSome = true ∧ crSpan n = some 2 := by decide +kernel
theorem witness_MovcWrites : (∀ n ∈ [(0x000 : BitVec 11), 0x001, 0x002, 0x003, 0x004, 0x005, 0x006, 0x018, 0x019],
      (ready (.movcWrite (.s 2) n 0) base).isSome = true ∧ n.toNat < 0x020)
    ∧ ∀ n ∈ [(0x020 : BitVec 11), 0x027], (ready (.movcWrite (.s 2) n 0) base).isSome = true ∧ 0x020 ≤ n.toNat := by decide +kernel

/-! ## Memory -/

/-- A warp whose part has 4 KiB of scratchpad. -/
def store4k (f : Warp → Warp) : State := (withW f).modPart 2 fun p => { p with scratch := 0x1000 }

/-- With bytes in memory. -/
def poke (loc n v : Nat) (s : State) : State := { s with mem := s.mem.write loc (leBytes n v) }

/-- v2 holds `a` in every lane, v3 zero, and v1 and v4 hold `x`. -/
def addr (a x : Word) (w : Warp) : Warp :=
  { vs a 0 x w with vregs := (vs a 0 x w).vregs.set 1 (Vector.replicate 32 x) }

/-- Only lane 31 is on the path. -/
def lane31 (w : Warp) : Warp := { w with path := 0x80000000 }

/-- The state after an instruction and the completion of the operation that it leaves. -/
def done (i ev : Instr) (s : State) : Option State := (after i s).bind fun t => after ev t

theorem test_ld_sign_extends : ((done (.ld ⟨0, .v 1, .v 2, .sb, .s, false, 0⟩) (.loadComplete 3 0)
      (poke (scratchLoc 2 5) 1 0x80 (store4k fun w => lane31 (addr 5 0 w)))).bind fun t => tget t.warps 3).any
    (fun w => w.vregs[(1 : Fin 120)][(31 : Fin 32)] == 0xFFFFFF80 && w.ops.isEmpty) = true := by decide +kernel
theorem test_ldx_offset : ((done (.ldx (fm .s false) 0xFFFFFFFC) (.loadComplete 3 0)
      (poke (scratchLoc 2 4) 4 0x12345678 (store4k fun w => lane31 (addr 8 0 w)))).bind fun t => tget t.warps 3).any
    (fun w => w.vregs[(1 : Fin 120)][(31 : Fin 32)] == 0x12345678) = true := by decide +kernel
theorem test_st_bytes : (done (.st ⟨0, .v 1, .v 2, .h, .s, false, 0⟩) (.storeComplete 3 0)
      (store4k fun w => lane31 (addr 6 0x12345678 w))).any
    (fun t => t.mem.read (scratchLoc 2 5) 4 == [0, 0x78, 0x56, 0]) = true := by decide +kernel
theorem test_st_global : (done (.stx (fm .g false) 4) (.storeComplete 3 0) (withW fun w => lane31 (addr 0x30000 7 w))).any
    (fun t => t.mem.get 0x30004 == 7) = true := by decide +kernel
/-- R186: a misaligned address takes trap 0x03 with the lane and the address. -/
theorem test_ld_misaligned : leaves (.ld (fm .s false)) (store4k fun w => handler (addr 6 0 w))
    (fun w => w.pc == 0x300 && w.cause == 0x00000003 && w.eval == 6 && w.epc == 0x20000) = true := by decide +kernel
theorem test_atom_adds : ((done (.atom (fm .s false) (.v 4) .add .relaxed) (.loadComplete 3 0)
      (poke (scratchLoc 2 8) 4 40 (store4k fun w => lane31 (addr 8 2 w))))).any
    (fun t => t.mem.get (scratchLoc 2 8) == 42 && (tget t.warps 3).any fun w => w.vregs[(1 : Fin 120)][(31 : Fin 32)] == 40) = true := by
  decide +kernel
theorem test_cas_compares : ((done (.cas (fm .s false) (.v 3) (.v 4) .relaxed) (.loadComplete 3 0)
      (poke (scratchLoc 2 8) 4 40 (store4k fun w => lane31 (addr 8 2 w))))).any
    (fun t => t.mem.get (scratchLoc 2 8) == 40) = true := by decide +kernel
/-- R195, R196: `qld` reserves a slot of its queue. -/
theorem test_qld : ((after (.qld 1 ⟨.lit, .s 2, .s, .w, 8⟩) ((sliceBase id).modPart 2 fun p => { p with scratch := 0x1000 })).bind
      fun t => tget t.warps 3).any
    (fun w => (w.aq[(1 : Fin 4)]).length == 1 && w.ops.length == 1) = true := by decide +kernel

theorem witness_LoadsIssue : ∀ x ∈ [(Instr.ld (fm .s true), Space.s, (0 : Word)), (.ldx (fm .s false) 0xFFFFFFFC, .s, 0xFFFFFFFC),
      (.ld (fm .g false), .g, 0)],
    (loadForm x.1).isSome = true ∧ isMet x.1 (store4k fun w => lane31 (addr 0x100 0 w)) (fun c => c.s.counter c.wid c.w .loads < 63
      && okWith (c.checkAccess c.act x.2.1 .r 4 (c.ea x.2.1 (.v 2) x.2.2)) fun _ as => as.length == 1 && !c.rowsHeld as) = true := by decide +kernel
theorem witness_StoresIssue : isMet (.stx (fm .g false) 4) (withW fun w => lane31 (addr 0x30000 0 w))
    (fun c => c.s.counter c.wid c.w .stores < 63 && okWith (c.checkAccess c.act .g .w 4 (c.ea .g (.v 2) 4))
      fun s1 as => !c.rowsHeld as && (releasedIf false (c.with s1)).isSome) = true := by decide +kernel
theorem witness_StoresIssue_as_a_release : isMet (.st (fm .s true)) (store4k fun w => lane31 (addr 0x100 0 w))
    (fun c => c.s.counter c.wid c.w .stores < 63 && okWith (c.checkAccess c.act .s .w 4 (c.ea .s (.v 2) 0))
      fun s1 as => !c.rowsHeld as && (releasedIf true (c.with s1)).isSome) = true := by decide +kernel
theorem witness_AtomicsIssue : ∀ i ∈ [Instr.atom (fm .s false) (.v 4) .add .relaxed, .atom (fm .s false) (.v 4) .add (.rel .sys),
      .cas (fm .s false) (.v 3) (.v 4) (.ar .core)],
    (atomForm i).any (fun f => isMet i (store4k fun w => lane31 (addr 0x100 0 w)) fun c => c.s.counter c.wid c.w .loads < 63
      && okWith (c.checkAccess c.act .s .rw 4 (c.ea .s (.v 2) 0)) fun s1 as => !c.rowsHeld as
        && (releasedIf (ordRel f.2.1).isSome (c.with s1)).isSome) = true := by decide +kernel

/-- An access slice of a part with scratchpad. -/
def sliceStore (f : Warp → Warp) : State := ((sliceBase id).modPart 2 fun p => { p with scratch := 0x1000 }).modWarp 3 f

/-- An entry of a queue. -/
def entry0 : QEntry := ⟨0, true, Vector.replicate 32 9, 0x80000000⟩

theorem witness_QueueAccessesIssue :
    isMet (.qld 1 ⟨.lit, .s 2, .s, .w, 8⟩) (sliceStore id) (fun c => (c.w.aq[(1 : Fin 4)]).length < 8 && c.s.counter c.wid c.w .loads < 63
      && okWith (c.checkAccess c.w.laneok .s .r 4 (c.qea ⟨.lit, .s 2, .s, .w, 8⟩)) fun s1 as => !c.rowsHeld as && (tget s1.warps 3).isSome) = true
    ∧ isMet (.qst ⟨.lit, .s 2, .s, .w, 8⟩) (sliceStore fun w => { w with sq := [entry0] }) (fun c => c.w.sq.length == 1
      && c.s.counter c.wid c.w .stores < 63
      && okWith (c.checkAccess (entry0.mask &&& c.w.laneok) .s .w 4 (c.qea ⟨.lit, .s 2, .s, .w, 8⟩)) fun s1 as =>
        !c.rowsHeld as && (tget s1.warps 3).isSome) = true := by decide +kernel
theorem witness_FailedAccessesTrap :
    isMet (.ld (fm .s false)) (store4k fun w => handler (addr 6 0 w)) (fun c => c.w.handles && c.s.counter c.wid c.w .loads < 63
      && match c.checkAccess c.act .s .r 4 (c.ea .s (.v 2) 0) with
        | (_, .error _) => true
        | _ => false) = true
    ∧ isMet (.st (fm .s false)) (store4k fun w => handler (addr 0x1000 0 w)) (fun c => c.w.handles && c.s.counter c.wid c.w .stores < 63
      && match c.checkAccess c.act .s .w 4 (c.ea .s (.v 2) 0) with
        | (_, .error t) => t.code == 0x05
        | _ => false) = true
    ∧ isMet (.atom (fm .s false) (.v 3) .add .relaxed) (store4k fun w => handler (addr 6 0 w)) (fun c => c.w.handles
      && c.s.counter c.wid c.w .loads < 63 && match c.checkAccess c.act .s .rw 4 (c.ea .s (.v 2) 0) with
        | (_, .error t) => t.code == 0x03
        | _ => false) = true := by decide +kernel

/-- One operation of lane 31 on the part's scratchpad, outstanding. -/
def oneOp (k : Ctr) (kind : OpKind) (n data : Nat) : OutOp :=
  ⟨0, k, 1, kind, .s, [⟨31, 0, 8, onchipPlace (scratchLoc 2 8), n, data, 0⟩], 0x80000000, none, none, [], false, [], 0, none, 0⟩

/-- A warp with it. -/
def pending (o : OutOp) : State := store4k fun w => { w with ops := [o] }

/-- The premises of `OwnAccess`, for that operation. -/
def owns (o : OutOp) : Bool := ((pending o).readyOp 3 0).any fun x =>
  x.2 == o && x.2.space == .s && x.2.accs.length == 1 && x.2.accs.all (fun a => a.place == onchipPlace (scratchLoc 2 8) && 8 + a.n ≤ 0x100000)
    && (pending o).bad.isEmpty && (pending o).poison.isEmpty && (pending o).mem.wf && !x.1.ended && x.2.acq.isNone

theorem witness_OperationsComplete :
    ((pending (oneOp .loads (.load .w (.v 1)) 4 0)).readyOp 3 0).isSome = true
    ∧ ((pending (oneOp .stores .store 4 0)).readyOp 3 0).isSome = true
    ∧ ((pending (oneOp .tiles (.tst 0) 4 0)).readyOp 3 0).isSome = true := by decide +kernel
theorem witness_LoadsDeliverBytes : ∀ z ∈ [Size.b, .h, .w, .d, .q16, .sb, .sh],
    owns (oneOp .loads (.load z (.v 116)) (sizeBytes z) 0) = true ∧ 116 + sizeSpan z ≤ 120 := by decide +kernel
theorem witness_StoresWriteTheirBytes : ∀ n ∈ [1, 2, 4, 8, 16], owns (oneOp .stores .store n 0x12345678) = true := by decide +kernel
theorem witness_AtomicsUpdateTheirWord : ∀ k ∈ [OpKind.atom .add .w (.v 1), .cas .w (.v 1)], owns (oneOp .loads k 4 3) = true := by decide +kernel
theorem witness_AtomicsUpdateTheirWord_minimum : ∀ k ∈ [OpKind.atom .fmin .w (.v 1), .atom .fmax .w (.v 1)], owns (oneOp .loads k 4 0x7F800001) = true := by
  decide +kernel
theorem witness_TileAccessesMoveBytes : ∀ k ∈ [OpKind.tld 7, .tst 0, .cst], owns (oneOp .tiles k 8 5) = true ∧ 4096 * 7 + 8 * 31 + 8 ≤ 0x100000 := by
  decide +kernel

/-- A word of the stack tier. -/
def stackWord : Place := ⟨0x30000, 0x30000, 0, 0, false, false, 0, false, false⟩

/-- One operation of lane 31 on that word, outstanding. -/
def globalOp (k : Ctr) (kind : OpKind) (n data : Nat) : OutOp :=
  ⟨0, k, 1, kind, .g, [⟨31, 0, 0x30000, stackWord, n, data, 0⟩], 0x80000000, none, none, [], false, [], 0, none, 0⟩

/-- The premises of `GlobalAccess`, for that operation. -/
def opens (o : OutOp) : Bool := ((pending o).readyOp 3 0).any fun x =>
  x.2 == o && x.2.space == .g && x.2.accs.length == 1 && x.2.accs.all (fun a => a.place == stackWord && a.place.loc + a.n ≤ physTop)
    && clean (pending o) && ((tget (pending o).parts x.1.part).all fun p => p.l1.isEmpty) && (pending o).mem.wf && !x.1.ended && x.2.acq.isNone

theorem witness_GlobalAccess : ∀ x ∈ [(Ctr.loads, OpKind.load .q16 (.v 1), 16), (.stores, .store, 16), (.loads, .atom .add .w (.v 1), 4),
    (.loads, .cas .w (.v 1), 4), (.tiles, .tld 0, 8), (.tiles, .tst 0, 8), (.tiles, .cst, 8)], opens (globalOp x.1 x.2.1 x.2.2 5) = true := by
  decide +kernel

/-! ## Tiles, matrices and caches -/

/-- Tile 0 of the partition has one row of 16 bytes. -/
def smallTile (s : State) : State := { s with tshape := [(tshapeKey 2 0 0, 0x00100001)] }

/-- Operands of a tile access in the part's scratchpad. -/
def ft : FormT := ⟨0, .s 2, .s 3, .s, 0⟩

theorem test_tld : (done (.tld ft) (.tileOpComplete 3 0)
      (smallTile (poke (scratchLoc 2 0x20) 16 0x1122334455667788 (store4k (ss 0x20 0 0 0))))).any
    (fun t => t.mem.read (matrixLoc 2 0 0) 8 == [0x88, 0x77, 0x66, 0x55, 0x44, 0x33, 0x22, 0x11]) = true := by decide +kernel
theorem test_tst : (done (.tst ft) (.tileOpComplete 3 0)
      (smallTile (poke (matrixLoc 2 0 0) 16 0x55 (store4k (ss 0x20 0 0 0))))).any
    (fun t => t.mem.get (scratchLoc 2 0x20) == 0x55) = true := by decide +kernel
theorem test_mma_needs_every_lane : leaves (.mma 1 (.v 2) 0 0 1 0) (withW fun w => handler (qs 1 0 w))
    (fun w => w.pc == 0x300 && w.cause == 0x2008 && w.eval == 0xFFFFFFFE) = true := by decide +kernel
theorem test_czero_occupies : (after (.czero 2) base).any (fun t => tget t.engine (engineKey 2 0) == some []) = true := by decide +kernel
theorem test_cst_rejects_its_word : leaves (.cst 0 .s (.s 2) (.s 4) (.s 3) 0) (store4k fun w => handler (ss 5 0 0 0 w))
    (fun w => w.pc == 0x300 && w.cause == 0x2009 && w.eval == 5) = true := by decide +kernel

/-- The engine and the tiles are free, and no word of the module carries bad check bits. -/
def free (c : Ctx) : Bool :=
  !c.engineBusy && c.s.bad.isEmpty && c.s.counter c.wid c.w .tiles < 63 && (List.range 8).all fun t => !c.tileLoading t && !c.tileInUse t

theorem witness_TileAccessesIssue : ∀ x ∈ [(Instr.tld ft, Need.r), (.tst ft, .w)],
    isMet x.1 (smallTile (store4k (ss 0x20 0x10 0 0))) (fun c => free c && c.uaddr .s (.s 2) % 16 == 0 && (c.sv (.s 3)).toNat % 16 == 0
      && okWith (c.placeTile c.s .s x.2 (tilePieces .s (c.uaddr .s (.s 2)) (c.sv (.s 3)).toInt (shapeW (c.s.shapeOf c.w.part c.pt 0))
        (shapeRows (c.s.shapeOf c.w.part c.pt 0)))) fun _ as => !c.rowsHeld as && as.length == 2
        && (tilePieces .s (c.uaddr .s (.s 2)) (c.sv (.s 3)).toInt (shapeW (c.s.shapeOf c.w.part c.pt 0))
          (shapeRows (c.s.shapeOf c.w.part c.pt 0))).all (fun y => y.2 + 8 ≤ c.p.scratch) && c.s.copies.isEmpty) = true := by decide +kernel

/-- A drain to T6 from s4 on with pitch s3: 32 rows of 24 bytes, one after the other. -/
def drainT6 : State := store4k (ss 1 24 0x100 0)

theorem witness_TileAccessesIssue_drain :
    isMet (.cst 0 .s (.s 2) (.s 4) (.s 3) 0) drainT6 (fun c => free c && drainOk (c.sv (.s 2)) && c.uaddr .s (.s 4) % 8 == 0
      && (c.sv (.s 3)).toNat % 8 == 0 && !(c.sv (.s 2)).getLsbD 16
      && (let r := bounding (c.uaddr .s (.s 4)) 32 (drainRow ((c.sv (.s 2)).toNat % 16)) (c.sv (.s 3)).toInt
          c.rangeOk .s r.1 r.2)
      && okWith (c.placeDrain c.s .s (drainPieces .s (c.uaddr .s (.s 4)) (c.sv (.s 3)).toInt (drainRow ((c.sv (.s 2)).toNat % 16))))
        fun s1 as => as.length == 96 && !c.rowsHeld as && (tget s1.warps 3).isSome
          && as.all fun x => !s1.lockMeets c.w.slot c.core (lockKey c.w c.p .s x.addr) 8 true) = true := by decide +kernel
/-- The same with the accumulator cleared. -/
theorem witness_TileAccessesIssue_clearing :
    isMet (.cst 3 .s (.s 2) (.s 4) (.s 3) 0) (store4k (ss 0x40001 24 0x100 0)) (fun c => free c && drainOk (c.sv (.s 2)) && (c.sv (.s 2)).getLsbD 18
      && okWith (c.placeDrain c.s .s (drainPieces .s (c.uaddr .s (.s 4)) (c.sv (.s 3)).toInt (drainRow ((c.sv (.s 2)).toNat % 16))))
        fun s1 as => as.length == 96 && !c.rowsHeld as && s1.mem.wf) = true := by decide +kernel

theorem witness_MmaMultiplies : isMet (.mma 0 (.v 2) 1 0 1 0) base (fun c => free c && c.w.laneok &&& ~~~c.act == 0
    && (c.formatWord (.v 2) matches .ok _)) = true := by decide +kernel
theorem witness_MmaChecks :
    isMet (.mma 1 (.v 2) 1 0 1 0) (withW fun w => handler (qs 1 0 w)) (fun c => free c && c.w.handles && c.act != 0
      && c.w.laneok &&& ~~~c.act != 0) = true
    ∧ isMet (.mma 0 (.v 2) 1 0 1 0) (withW fun w => handler (vs 0x80000000 0 0 w)) (fun c => free c && c.w.handles
      && c.act != 0 && c.w.laneok &&& ~~~c.act == 0 && (c.formatWord (.v 2) matches .error _)) = true
    ∧ isMet (.mma 0 (.v 2) 1 0 1 0) ({ (withW handler) with bad := [matrixLoc 2 0 0] }) (fun c => c.w.handles
      && !c.engineBusy && !c.tileLoading 0 && !c.tileLoading 1 && (match c.formatWord (.v 2) with
        | .ok w => c.s.badIn (c.tileAt 0) (rowsSize (fwFa w))
        | _ => false)
      && (lanesOf c.act).all fun l => !c.s.badLane c.wid (spanRegs [(.v 2, 1)]) l.val) = true := by decide +kernel
theorem witness_CzeroClears : ∀ m ∈ [(1 : BitVec 4), 15], isMet (.czero m) base (fun c => free c && base.mem.wf) = true := by decide +kernel
/-- The premises of a round of a weight chain at 0x30000 whose block breaks no rule. -/
def blockActs (s : State) (op : Nat) : Bool := (tget s.warps 3).any fun w => okWith (s.fetchBeats w 0x30000 1) fun s1 hb =>
  let h := headerOf hb
  h.op == op && !h.wrong && h.beats == h.size && (h.op != 1 || fwOk h.fmt) && (match h.next 0x30000 with
      | .ok _ => true
      | _ => false)
    && okWith (s1.fetchBeats w (0x30000 + 64) h.beats) fun s2 pay => (h.op != 1 || h.comp != 1 || nibblesOk (fwFb h.fmt) pay) && s2.bad.isEmpty && s2.mem.wf

theorem witness_WeightBlocksAct : blockActs (poke 0x30000 4 0x57000002 base) 2 = true := by decide +kernel
theorem witness_PayloadsDecode : ∀ t ≤ 3, (List.replicate (64 * weightBeats 1 t) (0 : Byte)).length = 64 * weightBeats 1 t := by
  intro t _; simp

/-- A line of the part's L1 at address 0x400. -/
def line0 (dirty : Bool) : L1Line := ⟨8, List.replicate 128 0, [], [], [], dirty, if dirty then some 3 else none, none⟩

theorem test_cinv_drops_clean_lines : (after (.cinv (.s 2) (.s 4) 0)
      ((withW (ss 0x400 0 128 0)).modPart 2 fun p => { p with l1 := [line0 false] })).any
    (fun t => (tget t.parts 2).any fun p => p.l1.isEmpty) = true := by decide +kernel
theorem test_cflush_counts : leaves .cflushAll base (fun w => w.ops.length == 1 && w.ops.all fun o => o.ctr == .stores) = true := by decide +kernel
theorem test_pref_goes_on : goesTo (.pref (.s 2) .l2) base 0x20004 = true := by decide +kernel

theorem witness_CacheInstructionsComplete : ∀ i ∈ [Instr.cflush (.s 2) (.s 4) 0, .cflushAll, .cinv (.s 2) .lit 0x80, .cinvAll],
    isMet i (withW (ss 0x400 0 128 0)) (fun c => c.s.counter c.wid c.w .stores < 63) = true
    ∧ isMet i ((withW (ss 0x400 0 128 0)).modPart 2 fun p => { p with l1 := [line0 true] })
      (fun c => c.s.counter c.wid c.w .stores < 63 && dirtyIn c.p (0x400, 128)) = true := by decide +kernel
theorem witness_PrefetchGoesOn : isMet (.pref (.s 2) .l1) base (fun _ => true) = true
    ∧ isMet (.pref (.s 2) .l1) (withW (ss 0 0x00800000 0 0)) (fun c =>
      match c.s.translate c.w.slot c.core c.die .r (BitVec.ofNat 64 ((c.sv64 (.s 2)).toNat / 128 * 128)) with
      | (s1, .error _) => (tget s1.warps 3).isSome
      | _ => false) = true := by decide +kernel

/-! ## Barriers, fences and waits -/

/-- A second warp of the block. -/
def twoWarps (f : Warp → Warp) : State :=
  let s := withW f
  { s with warps := s.warps ++ [(4, { Warp.placed 0 1 2 0x30000 with wslot := 1 })] }

theorem test_bar_of_one_warp : goesTo (.bar (.s 0) (.s 0) none 0) base 0x20004 = true := by decide +kernel
theorem test_bar_waits : leaves (.bar (.s 0) (.s 0) none 0) (twoWarps id) (fun w => w.pc == 0x20000
    && w.wait.any fun k => k.kind == .bar) = true := by decide +kernel
/-- R216: the payload of the one participant is the result. -/
theorem test_bar_payload : givesS (.bar (.s 1) (.s 2) (some .maxu) 0) (withW (ss 7 0 0 0)) 7 = true := by decide +kernel
theorem test_barc_of_one_part : goesTo .barc base 0x20004 = true := by decide +kernel
/-- R219: the last of two arrivals reloads the count and turns the phase over. -/
theorem test_pbarr_last : (after (.pbarr false ⟨.s 1, .s 2, .lit, 1⟩) (poke (scratchLoc 2 8) 4 0x00002001 (store4k (ss 8 0 0 0)))).any
    (fun t => leNat (t.mem.read (scratchLoc 2 8) 4) == 0x80002002
      && (tget t.warps 3).any fun w => w.sregs[(1 : Fin 63)] == 0x00002001) = true := by decide +kernel
theorem test_pbwait_waits : leaves (.pbwait false (.s 2) (.s 3) 0) (store4k (ss 8 0 0 0)) (fun w => w.wait.isSome && w.pc == 0x20000) = true := by
  decide +kernel
theorem test_fence : goesTo (.fence .sys) base 0x20004 = true := by decide +kernel
theorem test_waitc_goes_on : goesTo (.waitc 0 0 0 0) base 0x20004 = true := by decide +kernel
theorem test_waitw_hit : leaves (.waitw (.s 1) (.s 2) (.s 4) .geu) (poke 0x30000 8 5 (withW (ss 0x30000 0 5 0)))
    (fun w => w.pc == 0x20004 && w.sregs[(1 : Fin 63)] == 0) = true := by decide +kernel
theorem test_waitw_waits : leaves (.waitw (.s 1) (.s 2) (.s 4) .geu) (poke 0x30000 8 4 (withW (ss 0x30000 0 5 0)))
    (fun w => w.pc == 0x20000 && w.wait.isSome) = true := by decide +kernel
theorem test_sleept_of_a_passed_promise : goesTo (.sleept (.s 2) 0) { base with gtime := 5 } 0x20004 = true := by decide +kernel

/-- The premises of a release. -/
def releases (c : Ctx) : Bool := (released c).isSome

/-- A barrier may be met. -/
def mayMeet (c : Ctx) : Bool := !c.w.spawned && !hasPath c.w.stack && releases c

theorem witness_BarriersArrive : ∀ i ∈ [Instr.bar (.s 0) (.s 0) none 0, .bar (.s 1) (.s 2) (some .fadd) 0, .barc],
    isMet i base (fun c => mayMeet c && c.blockParts == 1) = true := by decide +kernel
theorem witness_BarriersArrive_in_a_cluster :
    isMet .barc (base.modBlock 1 fun b => { b with parts := [2, 5] }) (fun c => mayMeet c && c.blockParts == 2) = true := by decide +kernel
theorem witness_BarWaitsForTheOthers : isMet (.bar (.s 0) (.s 0) none 0) (twoWarps id) (fun c => mayMeet c
    && (tget c.s.parts 2).any fun p => p.bar.isEmpty
      && (tget c.s.warps 4).any fun u => u.part == c.w.part && !u.spawned && !u.ended) = true := by decide +kernel
/-- Another warp has arrived with payload 5 for its s6, and waits. -/
def arrived4 : State :=
  let s := twoWarps (ss 7 0 0 0)
  ({ s with warps := s.warps.map fun (x : Nat × Warp) => if x.1 = 4 then (4, waitFor4 x.2) else x }).modPart 2 fun p => { p with bar := [⟨4, some .add, 5, some 6, 0⟩] }
where
  waitFor4 (w : Warp) : Warp := { w with wait := some ⟨.bar, 4, 0⟩, index := 1 }

theorem test_bar_completes : (after (.bar (.s 1) (.s 2) (some .add) 0) arrived4).any (fun t =>
    (tget t.warps 3).any (fun w => w.sregs[(1 : Fin 63)] == 12 && w.pc == 0x20004)
      && (tget t.warps 4).any fun w => w.sregs[(6 : Fin 63)] == 12 && w.pc == 0x30004 && w.wait.isNone) = true := by decide +kernel
theorem witness_BarCompletes : isMet (.bar (.s 1) (.s 2) (some .add) 0) arrived4 (fun c => mayMeet c && (released c).any fun e =>
    (tget e.s.parts e.w.part).any fun p => p.bar.map (fun b => (b.wid, b.op, b.d)) == [(4, some .add, some 6)]
      && e.s.warps.all (fun x => x.1 == e.wid || p.bar.any fun b => b.wid == x.1)
      && (tget e.s.warps 4).any fun u => u.wait.isSome) = true := by decide +kernel

theorem witness_PhaseBarrierCounts : pbPending 0x00002001 = 1 ∧ 1 ≤ pbPending 0x00002001 ∧ (0x00002001 : Nat) < 2 ^ 32
    ∧ 0 ≤ pbPending 0x80002000 := by decide +kernel

/-- The premises of the statements about an own barrier word at s2. -/
def barrierWord (write : Bool) (c : Ctx) : Bool :=
  let a := (c.sv (.s 2)).toNat
  a % 4 == 0 && a + 4 ≤ c.p.scratch && !c.s.lockMeets c.w.slot c.core (lockKey c.w c.p .s a) 4 write && c.s.bad.isEmpty && c.s.mem.wf
    && !c.readWaits (scratchLoc c.w.part a) 4

/-- The premises of `pbarr`, and a warp at rest. -/
def arrives (x : Nat) : Bool :=
  isMet (.pbarr false ⟨.s 1, .s 2, .lit, 1⟩) (poke (scratchLoc 2 0xFFC) 4 x (store4k (ss 0xFFC 0 0 0)))
    fun c => barrierWord true c && pbExpected (c.s.load (scratchLoc 2 0xFFC) 4) != 0 && 1 ≤ pbPending (c.s.load (scratchLoc 2 0xFFC) 4)
      && c.w.ops.isEmpty && c.p.l1.isEmpty && c.s.migration.isNone

theorem witness_PbarrArrives : ∀ x ∈ [(0x00002001 : Nat), 0x00002002], arrives x = true := by decide +kernel
theorem witness_PbwaitWaitsForThePhase :
    isMet (.pbwait false (.s 2) (.s 3) 0) (store4k (ss 8 0 0 0))
      (fun c => barrierWord false c && pbPhase (c.s.load (scratchLoc 2 8) 4) == (c.sv (.s 3)).getLsbD 0) = true
    ∧ isMet (.pbwait false (.s 2) (.s 3) 0) (store4k (ss 8 1 0 0))
      (fun c => barrierWord false c && pbPhase (c.s.load (scratchLoc 2 8) 4) != (c.sv (.s 3)).getLsbD 0) = true := by decide +kernel
/-- A second part of the block, on core 1, with 4 KiB of scratchpad. -/
def twoParts (f : Warp → Warp) : State :=
  let s := (store4k f).modBlock 1 fun b => { b with parts := [2, 5] }
  { s with parts := s.parts ++ (((tget s.parts 2).map fun p => (5, { p with core := 1, num := 1 })).toList) }

/-- The places of words of .c: the last word of the own part, and of the other. -/
theorem witness_PbWord :
    isMet (.pbwait true (.s 2) (.s 3) 0) (twoParts (ss 0xFFC 0 0 0)) (fun c => (c.sv (.s 2)).toNat / 2 ^ 20 == c.p.num
      && decide ((c.sv (.s 2)).toNat % 2 ^ 20 + 4 ≤ c.p.scratch) && c.blockParts == 2) = true
    ∧ isMet (.pbwait true (.s 2) (.s 3) 0) (twoParts (ss 0x100FFC 0 0 0)) (fun c => (c.sv (.s 2)).toNat / 2 ^ 20 != c.p.num
      && ((c.s.partNumbered c.w.block 1).any fun x => x.1 == 5 && decide (0xFFC + 4 ≤ x.2.scratch) && c.s.coreUp x.2.core)
      && !c.s.lockMeets c.w.slot c.core (lockKey c.w c.p .c 0x100FFC) 4 true && !c.readWaits (scratchLoc 5 0xFFC) 4) = true
    ∧ isMet (.pbarr true ⟨.s 1, .s 2, .lit, 1⟩) (poke (scratchLoc 5 0xFFC) 4 0x2001 (twoParts (ss 0x100FFC 0 0 0))) (fun c =>
      ((c.s.partNumbered c.w.block 1).any fun x => x.1 == 5) && pbPending (c.s.load (scratchLoc 5 0xFFC) 4) == 1
        && !c.s.lockMeets c.w.slot c.core (lockKey c.w c.p .c 0x100FFC) 4 true && c.w.ops.isEmpty && c.p.l1.isEmpty) = true := by decide +kernel
theorem test_pbarr_of_another_part : (after (.pbarr true ⟨.s 1, .s 2, .lit, 1⟩) (poke (scratchLoc 5 0xFFC) 4 0x2001 (twoParts (ss 0x100FFC 0 0 0)))).any
    (fun t => leNat (t.mem.read (scratchLoc 5 0xFFC) 4) == 0x80002002) = true := by decide +kernel

theorem witness_FencesReleaseAndAcquire : ∀ sc ∈ [Scope.core, .clu, .mod, .sys],
    isMet (.fence sc) base (fun c => (released c).any fun e => (tget e.s.warps 3).isSome) = true := by decide +kernel

/-- A warp with three stores outstanding. -/
def threeStores (w : Warp) : Warp := { w with ops := [op0, { op0 with id := 1 }, { op0 with id := 2 }] }

theorem witness_WaitcWaitsForTheCounters :
    isMet (.waitc 0 3 0 0) (withW threeStores) (fun c => c.s.countsOk c.wid c.w 0 3 0 0 && c.w.issued[(2 : Fin 4)] ≤ 0) = true
    ∧ isMet (.waitc 0 0 0 0) (withW fun w => { w with issued := w.issued.set 2 1 })
      (fun c => c.s.countsOk c.wid c.w 0 0 0 0 && 0 < c.w.issued[(2 : Fin 4)]) = true
    ∧ isMet (.waitc 0 2 0 0) (withW threeStores) (fun c => !c.s.countsOk c.wid c.w 0 2 0 0) = true := by decide +kernel

/-- The premises of a `waitw` that reads its word. -/
def reads (s : State) (hit : Bool) : Bool := isMet (.waitw (.s 1) (.s 2) (.s 4) .geu) s fun c => (c.sv64 (.s 2)).toNat % 8 == 0
  && okWith (c.s.translate c.w.slot c.core c.die .r (c.sv64 (.s 2))) fun s1 p =>
    !s1.lockMeets c.w.slot c.core (c.sv64 (.s 2)).toNat 8 false && !c.readWaits p.loc 8 && match s1.readWatched p .geu (c.sv64 (.s 4)) with
      | (.ok h, s2) => h == hit && (tget s2.warps 3).isSome && s2.waitEntries c.die < 256
      | _ => false

theorem witness_WaitwWatches :
    isMet (.waitw (.s 1) (.s 2) (.s 4) .geu) (withW fun w => handler (ss 0x30004 0 5 0 w))
      (fun c => (c.sv64 (.s 2)).toNat % 8 != 0 && c.w.handles) = true
    ∧ reads (poke 0x30000 8 5 (withW (ss 0x30000 0 5 0))) true = true
    ∧ reads (poke 0x30000 8 4 (withW (ss 0x30000 0 5 0))) false = true := by decide +kernel

/-- A warp that watches a word. -/
def watcher (n : Nat) : Nat × Warp := (10 + n, { Warp.placed 0 1 2 0 with wait := some ⟨.waitw 0 0x30000 5 .geu, 4, 0⟩ })

theorem witness_WaitwWatches_full_table :
    256 ≤ ({ base with warps := base.warps ++ (List.range 256).map watcher } : State).waitEntries 0 := by decide +kernel
theorem witness_SleeptSleeps :
    isMet (.sleept (.s 2) 0) (withW (ss 5 0 0 0)) (fun c => (c.s.gtime.setWidth 32 - c.sv (.s 2)).slt 0) = true
    ∧ isMet (.sleept (.s 2) 0) { (withW (ss 5 0 0 0)) with gtime := 5 } (fun c => !(c.s.gtime.setWidth 32 - c.sv (.s 2)).slt 0
      && (c.s.copyOfPromise c.wid (c.sv (.s 2))).isNone) = true := by decide +kernel

/-- A copy of the warp with a promise of 5. -/
def copy5 (finished : Bool) : Copy :=
  ⟨0, 3, 0, 1, .s, .g, 0x30000, 0x100, 64, 1, 0, 0, 5, [], [], [], [], [], 1, if finished then [] else [0], none, finished, false⟩

theorem witness_SleeptSleeps_with_a_copy : ∀ f ∈ [true, false],
    isMet (.sleept (.s 2) 0) { (withW fun w => handler (ss 5 0 0 0 w)) with gtime := 5, copies := [(7, copy5 f)] } (fun c =>
      !(c.s.gtime.setWidth 32 - c.sv (.s 2)).slt 0 && c.w.handles
        && (c.s.copyOfPromise c.wid (c.sv (.s 2))).any fun y => y.finished == f) = true := by decide +kernel

/-! ## Copies and spawning -/

/-- A descriptor in s16 to s23 of a copy of 64 bytes in one row from 0x30000 to 0x100 of the scratchpad. -/
def descriptor (w : Warp) : Warp :=
  { w with sregs := (((w.sregs.set 16 0x30000).set 18 0x100).set 20 64).set 21 1 }

theorem test_copy_starts : (after (.copy (.s 1) (.s 16) .s .g) (store4k descriptor)).any
    (fun t => t.copies.length == 1 && (tget t.warps 3).any fun w => w.sregs[(1 : Fin 63)] == 1025 && w.pc == 0x20004) = true := by decide +kernel
theorem test_copy_misaligned : leaves (.copy (.s 1) (.s 16) .s .g) (store4k fun w =>
      handler { descriptor w with sregs := (descriptor w).sregs.set 20 6 })
    (fun w => w.pc == 0x300 && w.cause == 0x2003 && w.eval == 6) = true := by decide +kernel

theorem witness_CopiesStart : isMet (.copy (.s 1) (.s 16) .s .g) (store4k descriptor) (fun c =>
    let x := c.desc (.s 16) .s .g
    let sr := bounding x.src x.rows x.len x.spitch
    let dr := bounding x.dst x.rows x.len x.dpitch
    c.s.counter c.wid c.w .copies < 63 && x.aligned.all (· % 4 == 0) && x.moves && c.rangeOk .g sr.1 sr.2 && c.rangeOk .s dr.1 dr.2
      && !meetsAny (c.keyRanges .g sr.1 sr.2) (c.keyRanges .s dr.1 dr.2) && decide (c.s.locksUsed c.w.slot c.core ≤ 30)
      && (released c).any fun e => (tget e.s.warps 3).isSome) = true := by decide +kernel

theorem test_spawn_opens_a_bin : (after (.spawn 0 (.v 2) (.v 3) 0) (withW fun w => lane31 (vs 0x400 9 0 w))).any
    (fun t => t.bins.map (fun b => (b.index, b.entry, b.args)) == [(0, 0x400, [9])]) = true := by decide +kernel
theorem test_spawn_misaligned : leaves (.spawn 0 (.v 2) (.v 3) 0) (withW fun w => handler (vs 0x402 9 0 w))
    (fun w => w.pc == 0x300 && w.cause == 0x0003 && w.eval == 0x402) = true := by decide +kernel

theorem witness_SpawnAddsItsPairs_without_lanes : isMet (.spawn 1 (.v 2) (.v 3) 0) base (fun c => (lanesOf c.act).isEmpty) = true := by
  decide +kernel
theorem witness_SpawnAddsItsPairs : isMet (.spawn 0 (.v 2) (.v 3) 0) (withW (vs 0x400 9 0)) (fun c => budgetOk c.p.spawnRegs.toNat
    && !(lanesOf c.act).isEmpty && c.w.ops.isEmpty && ((lanesOf c.act).all fun l => (c.v (.v 2) l).toNat % 4 == 0)
    && decide (c.s.pendingPairs c.w.slot c.die + (lanesOf c.act).length ≤ 65536)) = true := by decide +kernel

/-- Bins of the part, the one for entry 0x400 with `n` pairs. -/
def bins (n : Nat) : State := { base with bins := [⟨0, 0, 2, 0x800, [1], 0⟩, ⟨0, 1, 2, 0x400, List.replicate n 7, 0⟩] }

theorem witness_PairsFillBins :
    (((bins 1).binsOn 0 0).find? fun b => b.part == 2 && b.entry == 0xC00) = none ∧ ((bins 1).binsOn 0 0).length < 32
    ∧ (((bins 30).binsOn 0 0).find? fun b => b.part == 2 && b.entry == 0x400).any (fun b => b.args.length + 1 < 32) = true
    ∧ (((bins 31).binsOn 0 0).find? fun b => b.part == 2 && b.entry == 0x400).any (fun b => 32 ≤ b.args.length + 1) = true := by decide +kernel
/-- 32 bins of the core, as many as it has. -/
theorem witness_PairsFillBins_all_in_use :
    (let s := { base with bins := (List.range 32).map fun k => ⟨0, k, 2, BitVec.ofNat 64 (0x800 + 4 * k), [1], k⟩ };
      ((s.binsOn 0 0).find? fun b => b.part == 2 && b.entry == 0x400) = none ∧ (s.binsOn 0 0).length = 32
      ∧ ∀ k < 32, k ∈ (s.binsOn 0 0).map (·.index)) := by decide +kernel

/-! ## Arrays -/

/-- A launch on stacks 0 and 31 of the image at 0x40000 with the barrier word at 0x30000. -/
def launchOf2 (w : Warp) : Warp := { w with sregs := ((w.sregs.set 16 0x40000).set 18 0x30000).set 22 0x80000001 }

theorem test_dlaunch : (after (.dlaunch (.s 1) (.s 16)) (withW launchOf2)).any
    (fun t => t.insts.map (fun i => (i.2.stack, i.2.state, i.2.handle)) == [(0, .queued, some 0), (31, .queued, some 0)]) = true := by decide +kernel
theorem test_dstat_of_none : givesS (.dstat ⟨.s 1, .s 2, .s 3, 0⟩) base 3 = true := by decide +kernel

/-- An instance of launch 0 on stack 5. -/
def inst5 : Inst := Inst.queued 0 (some 0) 0 5 0x40000 0x30000 0 0 0
/-- A context that has launched it. -/
def launched (i : Inst) : State :=
  { base with insts := [(9, i)], ctxs := base.ctxs.set 0 (some { Context.placed with nextLaunch := 1 }) }

theorem test_dsig_abort : (after (.dsigAbort (.s 2) 0) (launched inst5)).any
    (fun t => t.insts.all fun i => i.2.aborted) = true := by decide +kernel
theorem test_dsig_token : (after (.dsigTok (.s 2) .lit 7) (launched inst5)).any
    (fun t => t.insts.all fun i => i.2.early == [7]) = true := by decide +kernel
theorem test_dstat_of_a_fault : givesS (.dstat ⟨.s 1, .s 2, .lit, 5⟩)
    (launched { inst5 with state := .ended, faulted := true, cause := 0x12 }) 0x120A = true := by decide +kernel

theorem witness_DlaunchQueuesInstances : isMet (.dlaunch (.s 1) (.s 16)) (withW launchOf2) (fun c =>
    let r (k : Nat) : Word := sgetAt c.sregs (.s 16) k
    c.s.queuedOn c.w.slot c.die < 1024 && (r 0).toNat % 64 == 0 && (r 2).toNat % 8 == 0 && c.w.ops.isEmpty
      && okWith (c.s.translate c.w.slot c.core c.die .r (r 1 ++ r 0)) fun s1 _ =>
        okWith (s1.translate c.w.slot c.core c.die .rw (r 3 ++ r 2)) fun s2 _ => (released (c.with s2)).isSome
      && c.p.l1.isEmpty && c.s.migration.isNone && (r 6).getLsbD 31) = true := by decide +kernel

/-- The registers of a `dlaunch` of an image at `a` with a barrier word at `b`, in a warp with a handler. -/
def launchAt (a b : DWord) (w : Warp) : Warp := handler { w with
  sregs := (((w.sregs.set 16 (a.setWidth 32)).set 17 ((a >>> 32).setWidth 32)).set 18 (b.setWidth 32)).set 19 ((b >>> 32).setWidth 32) }

theorem witness_DlaunchQueuesInstances_traps :
    isMet (.dlaunch (.s 1) (.s 16)) (withW (launchAt 0x40020 0x30000)) (fun c => c.w.handles && (sgetAt c.sregs (.s 16) 0).toNat % 64 != 0) = true
    ∧ isMet (.dlaunch (.s 1) (.s 16)) (withW (launchAt 0x40000 0x30004)) (fun c => c.w.handles && (sgetAt c.sregs (.s 16) 0).toNat % 64 == 0
      && (sgetAt c.sregs (.s 16) 2).toNat % 8 != 0) = true
    ∧ isMet (.dlaunch (.s 1) (.s 16)) (withW (launchAt (2 ^ 55) 0x30000)) (fun c => c.w.handles
      && match (c.s.translate c.w.slot c.core c.die .r (2 ^ 55)).2 with
        | .error k => k != 0x0B
        | _ => false) = true
    ∧ isMet (.dlaunch (.s 1) (.s 16)) (withW (launchAt 0x40000 (2 ^ 55))) (fun c => c.w.handles
      && okWith (c.s.translate c.w.slot c.core c.die .r 0x40000) fun s1 _ => match (s1.translate c.w.slot c.core c.die .rw (2 ^ 55)).2 with
        | .error k => k != 0x0B
        | _ => false) = true := by decide +kernel
theorem witness_LaunchGivesItsNumber : isMet (.dlaunch (.s 1) (.s 16)) (withW launchOf2) (fun c =>
    (tget c.s.warps c.wid).isSome && !c.slice && (opnds c.i).vs.isEmpty) = true := by decide +kernel
theorem witness_ArraySignalsAndStatus : ∀ i ∈ [Instr.dsigTok (.s 2) .lit 7, .dsigAbort (.s 2) 0, .dstat ⟨.s 1, .s 2, .lit, 5⟩],
    (ready i (launched inst5)).isSome = true := by decide +kernel
theorem witness_StatusWordOfAnInstance : inst5.state = .queued ∧ ({ inst5 with state := .running } : Inst).state = .running
    ∧ ({ inst5 with state := .ended, faulted := true, aborted := true } : Inst).state = .ended := by decide +kernel

/-! ## Sample groups -/

/-- A record at 0x30000 of one member with the launch record at 0x38000: one warp of role 0 with 8 registers. -/
def records (n : Nat) (s : State) : State :=
  poke 0x38028 4 0x00000801 (poke 0x38000 4 0x0000001F (poke 0x30010 8 0x38000 (poke 0x30000 4 n s)))

/-- A warp whose node has a store budget of 64 KiB, with the record's address in s2 and s3. -/
def forker (n : Nat) : State :=
  ((records n (withW (ss 0x30000 0 0 0)))).modNode 0 fun x => { x with eff := { x.eff with store := 65536 } }

theorem test_sgfork : (after (.sgfork (.s 1) (.s 2)) (forker 1)).any
    (fun t => t.groups.map (fun g => (g.2.record, g.2.n, g.2.node)) == [(0x30000, 1, 4)]
      && (tget t.nodes 4).any (fun n => n.kind == .group && n.started && n.totalBlocks == 1)
      && (tget t.warps 3).any fun w => w.sregs[(1 : Fin 63)] == 0) = true := by decide +kernel
theorem test_sgfork_of_no_member : givesS (.sgfork (.s 1) (.s 2)) (forker 0) 1 = true := by decide +kernel

/-- The premises of a fork that reads its record, with more of the fork's own. -/
def forks (s : State) (p : Ctx → List Byte → Bool) : Bool := isMet (.sgfork (.s 1) (.s 2)) s fun c => c.w.ops.isEmpty
  && (c.sv64 (.s 2)).toNat % 64 == 0 && okWith (c.s.translate c.w.slot c.core c.die .rw (c.sv64 (.s 2))) fun s1 q =>
    q.tier == 0 && match s1.readMem q 64 with
      | (.bytes hb, s2) => 1 ≤ groupCount hb && groupCount hb ≤ 256
        && okWith (s2.translate c.w.slot c.core c.die .rw (c.sv64 (.s 2) + BitVec.ofNat 64 (48 + 16 * groupCount hb))) fun s3 r =>
          r.tier == 0 && match s3.readRecord c.w.slot .r (c.sv64 (.s 2)).toNat 16 (4 + groupCount hb) with
            | (s4, some bs) => (released (c.with s4)).any fun e => p e bs
            | _ => false
      | _ => false

theorem witness_SgforkForks : forks (forker 1) (fun _ _ => true) = true
    ∧ isMet (.sgfork (.s 1) (.s 2)) (withW fun w => handler (ss 0x30020 0 0 0 w))
      (fun c => c.w.ops.isEmpty && (c.sv64 (.s 2)).toNat % 64 != 0 && c.w.handles) = true := by decide +kernel

/-- The premises of the status of a valid record. -/
def readsLaunch (accepted room : Bool) (e : Ctx) (bs : List Byte) : Bool :=
  !e.slice && (opnds e.i).vs.isEmpty && groupValid bs && match e.s.readLaunch e.w.slot (recField bs 0x10 8) with
    | (s1, some l) => (tget e.s.blocks e.w.block).any fun b => (tget s1.nodes b.node).any fun n =>
      l.accepted n.eff.store == accepted && decide (s1.groupsOn e.w.slot e.die < 1024) == room && !n.draining && (tget s1.warps e.wid).isSome
    | _ => false

/-- A running group of the record's address plus `k`. -/
def group1 (k : Nat) : Group := ⟨0, BitVec.ofNat 64 (0x30000 + k), 0, 0, 1, 0, none, [(.running, 0)], false, false⟩

theorem witness_ForkStatuses :
    forks (poke 0x30002 2 1 (forker 1) |> poke 0x30004 4 0xBF800000) (fun e bs => !groupValid bs && !e.slice && (opnds e.i).vs.isEmpty) = true
    ∧ forks (forker 1) (readsLaunch true true) = true
    ∧ forks (records 1 (withW (ss 0x30000 0 0 0))) (readsLaunch false true) = true := by decide +kernel
theorem witness_ForkStatuses_full_unit :
    forks { forker 1 with groups := (List.range 1024).map fun k => (100 + k, group1 (64 + k)) } (readsLaunch true false) = true := by
  decide +kernel

/-- A block that is member 0 of a group in a state. -/
def member (m : MemberState) : State :=
  { (withW (ss 0x30000 0 0 5)).modBlock 1 (fun b => { b with member := some (20, 0) }) with
    groups := [(20, { group1 0 with members := [(m, 0)] })] }

theorem test_sgreward : (after (.sgreward (.s 1) (.s 5) 0) (member .running)).any
    (fun t => (tget t.groups 20).any fun g => g.members == [(.reported, 5)]) = true := by decide +kernel
theorem test_sgcancel_again : givesS (.sgcancel (.s 1) (.s 2) (.s 4) 0) (member .reported) 2 = true := by decide +kernel
theorem test_sgwait_of_no_group : givesS (.sgwait (.s 1) (.s 2)) (withW (ss 0x30000 0 0 0)) 1 = true := by decide +kernel
theorem test_sgwait_of_a_done_record : givesS (.sgwait (.s 1) (.s 2)) (poke 0x30000 4 0x10001 (withW (ss 0x30000 0 0 0))) 0 = true := by decide +kernel

theorem witness_SgrewardReports :
    isMet (.sgreward (.s 1) (.s 5) 0) base (fun c => (released c).any fun e => (e.s.memberOf e.w).isNone) = true
    ∧ isMet (.sgreward (.s 1) (.s 5) 0) (member .running) (fun c => (released c).any fun e => e.s.memberOf e.w == some (20, 0)
      && (tget e.s.groups 20).any fun g => !g.done && g.members[0]?.any fun m => m.1 == .running) = true
    ∧ isMet (.sgreward (.s 1) (.s 5) 0) (member .cancelled) (fun c => (released c).any fun e => e.s.memberOf e.w == some (20, 0)
      && (tget e.s.groups 20).any fun g => !g.done && g.members[0]?.any fun m => m.1 != .running) = true := by decide +kernel
theorem witness_SgcancelCancels :
    isMet (.sgcancel (.s 1) (.s 2) (.s 4) 0) base (fun c => (c.s.runningGroup c.w.slot (c.sv64 (.s 2))).isNone) = true
    ∧ isMet (.sgcancel (.s 1) (.s 2) .lit 1) (member .running) (fun c => (c.s.runningGroup c.w.slot (c.sv64 (.s 2))).any fun g =>
      g.2.n ≤ (c.sv .lit).toNat) = true
    ∧ (∀ m ∈ [MemberState.running, .timedOut], isMet (.sgcancel (.s 1) (.s 2) (.s 4) 0) (member m) (fun c =>
      (c.s.runningGroup c.w.slot (c.sv64 (.s 2))).any fun g => (c.sv (.s 4)).toNat < g.2.n
        && g.2.members[(c.sv (.s 4)).toNat]?.any fun x => x.1 == m) = true) := by decide +kernel

/-- The premises of a `sgwait` that reads its record. -/
def waitsGroup (s : State) (hit running : Bool) : Bool := isMet (.sgwait (.s 1) (.s 2)) s fun c =>
  (c.sv64 (.s 2)).toNat % 64 == 0 && okWith (c.s.translate c.w.slot c.core c.die .r (c.sv64 (.s 2))) fun s1 p => p.tier == 0
    && !c.readWaits p.loc 4 && match s1.readDone p with
      | (some h, s2) => h == hit && (tget s2.warps 3).isSome && (s2.runningGroup c.w.slot (c.sv64 (.s 2))).isSome == running
      | _ => false

theorem witness_SgwaitWaits : waitsGroup (poke 0x30000 4 0x10001 (withW (ss 0x30000 0 0 0))) true false = true
    ∧ waitsGroup (member .running) false true = true ∧ waitsGroup (withW (ss 0x30000 0 0 0)) false false = true
    ∧ isMet (.sgwait (.s 1) (.s 2)) (withW fun w => handler (ss 0x30020 0 0 0 w)) (fun c => c.w.handles && (c.sv64 (.s 2)).toNat % 64 != 0)
      = true := by decide +kernel
/-- A group of one member that is not placed. -/
def unplacedGroup : State := { base with groups := [(20, group1 0)] }

theorem witness_MembersEnd : (tget (member .running).groups 20).any (fun g => g.members.length == 1)
    && ((member .running).memberBlock 20 0 == some 1) && ((tget (member .running).blocks 1).isSome)
    && (tget (member .running).warps 3).any (fun w => w.block == 1)
    && (tget unplacedGroup.groups 20).any (fun g => g.members.length == 1) && (unplacedGroup.memberBlock 20 0).isNone = true := by decide +kernel

/-- A group of one member that has reported, whose block has ended. -/
def reportedGroup : State := { base with
  nodes := [(0, { Node.placed with kind := .group })], blocks := [], parts := [], warps := []
  groups := [(20, { group1 0 with members := [(.reported, 0x3F800000)] })] }

theorem witness_RecordAt : RecordAt reportedGroup 0 0x30000 0x50 0x30000 where
  inside := by decide
  walks := by
    intro t hc ht hm i hi
    have hctx : t.ctxs[(0 : Fin 8)] = some Context.placed := by rw [hc]; rfl
    obtain ⟨k, cs, m, e⟩ := State.mscRequest_nil ht.counts ht.bits ht.words (0x10000 + 0 % 8192 * 8)
    have hbytes : ∀ j, j < 8 → t.mem.get (0x10000 + j) = reportedGroup.mem.get (0x10000 + j) := fun j hj => hm _ (.inl (by omega))
    have hload : (t.tallied k cs m).load 0x10000 8 = identityLeaf := by
      have h1 : (t.tallied k cs m).bytesAt 0x10000 8 = (t.tallied k cs m).mem.read 0x10000 8 :=
        State.bytesAt_mem 8 _ _ fun i hi => locReg_phys (by unfold physTop; omega)
      have h2 : (t.tallied k cs m).mem = t.mem := rfl
      unfold State.load
      rw [h1, h2]
      have h3 : t.mem.read 0x10000 8 = reportedGroup.mem.read 0x10000 8 := by
        have := hbytes 0; have := hbytes 1; have := hbytes 2; have := hbytes 3; have := hbytes 4; have := hbytes 5; have := hbytes 6; have := hbytes 7
        simp_all [Memory.read]
      rw [h3]; decide +kernel
    have hun : (t.tallied k cs m).unreadable 0x10000 8 = false := State.unreadable_nil ht.words ht.blocks _ _
    have hdiv : (0x30000 + i) / 2 ^ 55 = 0 := by omega
    have hix : (0x30000 + i) / 2 ^ 42 % 8192 = 0 := by omega
    refine ⟨leafPlace (BitVec.ofNat 64 identityLeaf) 1 (0x30000 + i), ?_, ?_⟩
    · unfold State.ctxPlace State.ctxWalk
      rw [hctx]
      simp only [hdiv, bne_self_eq_false, Bool.false_eq_true, if_false, walk, treeLevels]
      unfold walkFrom
      simp only [hix]
      have hr : Context.placed.ptRoot + 0 * 8 = 0x10000 := rfl
      have he : t.mscRequest 0x10000 = t.tallied k cs m := e
      have h1 : fld (BitVec.ofNat 64 identityLeaf) 0 0 ≠ 0 := by decide
      have h2 : fld (BitVec.ofNat 64 identityLeaf) 10 10 = 1 := by decide
      rw [hr, he, hun, hload, if_neg (by decide), if_neg h1, if_pos h2]
      have h3 : ∀ i < 0x50, leafFaults (BitVec.ofNat 64 identityLeaf) 1 (0x30000 + i) = false := by decide +kernel
      simp [h3 i hi]
    · have : ∀ i < 0x50, let p := leafPlace (BitVec.ofNat 64 identityLeaf) 1 (0x30000 + i)
          p.pa = 0x30000 + i ∧ p.loc = 0x30000 + i ∧ p.tier = 0 ∧ p.mig = false := by decide +kernel
      exact this i hi

theorem witness_GroupsComplete : (tget reportedGroup.groups 20).any (fun g => reportedGroup.groupReady 20 g && g.record == 0x30000
    && g.members.length == g.n && (tget reportedGroup.nodes g.node).any fun n => n.kind == .group && n.status.isNone)
      && clean reportedGroup && reportedGroup.mem.wf = true := by decide +kernel
theorem test_group_completes : (let t := reportedGroup.groupCheck 20
    leNat (t.mem.read 0x30000 4) == 0x50001 && leNat (t.mem.read 0x30018 8) == 0x3FF0000000000000
      && t.mem.read 0x30040 16 == leBytes 4 0x3F800000 ++ leBytes 4 0 ++ leBytes 4 1 ++ leBytes 4 0) = true := by decide +kernel

/-! ## Weight chains and scan tests -/

theorem test_wdrun_waits : leaves (.wdrun ⟨.s 8, .s 2, .s 4, 0⟩) (withW (ss 0x30000 0 0 0)) (fun w => w.pc == 0x20000 && w.wait.isSome) = true := by
  decide +kernel
/-- A state whose work is a self-test (R240). -/
def service (s : State) : State := s.modNode 0 fun n => { n with kind := .selftest }

theorem test_stest_hold : (after (.stestHold ⟨.s 8, .lit, .s 2, 1⟩) (service base)).any
    (fun t => (t.coreFence 1).holder == some 1 && (tget t.warps 3).any fun w => w.sregs[(8 : Fin 63)] == 0) = true := by decide +kernel
/-- R240: status 1 is NOTNEIGHBOUR. -/
theorem test_stest_hold_far : leaves (.stestHold ⟨.s 8, .lit, .s 2, 2⟩) (service base) (fun w => w.sregs[(8 : Fin 63)] == 1) = true := by decide +kernel

theorem witness_WdrunStartsAChain :
    isMet (.wdrun ⟨.s 8, .s 2, .s 4, 0⟩) (withW (ss 0x30000 0 0 0)) (fun c => free c && !c.tilesMove && (c.sv64 (.s 2)).toNat % 64 == 0) = true
    ∧ isMet (.wdrun ⟨.s 8, .s 2, .s 4, 0⟩) (withW fun w => handler (ss 0x30020 0 0 0 w)) (fun c => free c && !c.tilesMove && c.w.handles
      && (c.sv64 (.s 2)).toNat % 64 != 0) = true := by decide +kernel

/-- Core 1 held by the block. -/
def holding (st : CoreState) (m : BitVec 20) : State :=
  { (service (withW (ss 0 19 0 0))) with cores := [(1, { CoreFence.fresh with holder := some 1, state := st, matched := m })] }

theorem witness_ScanTestOperations :
    isMet (.stestHold ⟨.s 8, .lit, .s 2, 1⟩) (service base) (fun c => c.holdStatus (c.sv .lit).toNat == 0) = true
    ∧ isMet (.stestChunk ⟨.s 8, .lit, .s 3, 1⟩) (holding .inService 0) (fun c => (c.sv (.s 3)).toNat == 19
      && c.s.heldBy (c.sv .lit).toNat c.w.block && !c.s.wanted (c.sv .lit).toNat) = true
    ∧ isMet (.stestAppeal ⟨.s 8, .lit, .s 0, 1⟩) (holding .fenced (BitVec.allOnes 20)) (fun c =>
      let f := c.s.coreFence (c.sv .lit).toNat
      f.state == .fenced && f.holder == some c.w.block && f.matched == allChunks
        && (tget (c.s.openAppeal (c.sv .lit).toNat).warps c.wid).isSome) = true
    ∧ isMet (.stestFree ⟨.s 8, .lit, .s 0, 1⟩) (holding .inService 0) (fun c => c.s.heldBy (c.sv .lit).toNat c.w.block
      && !c.s.wanted (c.sv .lit).toNat) = true := by decide +kernel
theorem witness_ScanOperations_statuses :
    isMet (.stestHold ⟨.s 8, .lit, .s 2, 2⟩) (service base) (fun c => (neighbours c.core).all fun x => x.2 != (c.sv .lit).toNat) = true
    ∧ isMet (.stestHold ⟨.s 8, .lit, .s 2, 1⟩) { (service base) with cores := [(1, { CoreFence.fresh with holder := some 7 })] } (fun c =>
      ((neighbours c.core).any fun x => x.2 == 1) && (c.s.coreFence 1).holder == some 7 && c.w.block != 7) = true
    ∧ isMet (.stestHold ⟨.s 8, .lit, .s 2, 1⟩) (service { (twoParts id) with warps := base.warps }) (fun c =>
      ((neighbours c.core).any fun x => x.2 == 1) && (c.s.coreFence 1).state == .inService && c.s.hasPart 1) = true
    ∧ isMet (.stestHold ⟨.s 8, .lit, .s 2, 1⟩) (service base) (fun c => ((neighbours c.core).any fun x => x.2 == 1)
      && (c.s.coreFence 1).holder.isNone && !c.s.hasPart 1) = true
    ∧ (∀ st ∈ [CoreState.fenced, .inService], isMet (.stestChunk ⟨.s 8, .lit, .s 3, 1⟩) ((holding st 5).modWarp 3 (ss 0 20 0 0)) (fun c =>
      decide (19 < (c.sv (.s 3)).toNat) && c.s.heldBy 1 c.w.block && !c.s.wanted 1) = true)
    ∧ isMet (.stestChunk ⟨.s 8, .lit, .s 3, 1⟩) (service (withW (ss 0 20 0 0))) (fun c => decide (19 < (c.sv (.s 3)).toNat)
      && !c.s.heldBy 1 c.w.block && !c.s.wanted 1) = true
    ∧ isMet (.stestChunk ⟨.s 8, .lit, .s 3, 1⟩) (service (withW (ss 0 19 0 0))) (fun c => decide ((c.sv (.s 3)).toNat ≤ 19)
      && !c.s.heldBy 1 c.w.block && !c.s.wanted 1) = true
    ∧ isMet (.stestAppeal ⟨.s 8, .lit, .s 0, 1⟩) (holding .inService 0) (fun c => (c.s.coreFence 1).state == .inService && !c.s.wanted 1) = true
    ∧ isMet (.stestAppeal ⟨.s 8, .lit, .s 0, 2⟩) (holding .fenced 0) (fun c => (c.s.coreFence 2).state == .inService && !c.s.wanted 2) = true
    ∧ isMet (.stestAppeal ⟨.s 8, .lit, .s 0, 1⟩) (holding .fenced 5) (fun c => (c.s.coreFence 1).state == .fenced && c.s.heldBy 1 c.w.block
      && (c.s.coreFence 1).matched != allChunks && !c.s.wanted 1) = true
    ∧ isMet (.stestAppeal ⟨.s 8, .lit, .s 0, 1⟩) { (service base) with cores := [(1, { CoreFence.fresh with state := .fenced })] } (fun c =>
      (c.s.coreFence 1).state == .fenced && !c.s.heldBy 1 c.w.block && !c.s.wanted 1) = true
    ∧ isMet (.stestAppeal ⟨.s 8, .lit, .s 0, 1⟩) (holding .removed 0) (fun c => (c.s.coreFence 1).state == .removed && !c.s.wanted 1) = true
    ∧ isMet (.stestFree ⟨.s 8, .lit, .s 0, 1⟩) (service base) (fun c => !c.s.heldBy 1 c.w.block && !c.s.wanted 1) = true := by decide +kernel

theorem test_stest_appeal_of_a_removed_core : (after (.stestAppeal ⟨.s 8, .lit, .s 0, 1⟩) (holding .removed 0)).any (fun t =>
    t.journal.map (fun e => (e.detail, e.result)) == [(0x40001, 7)] && (tget t.warps 3).any fun w => w.sregs[(8 : Fin 63)] == 0) = true := by
  decide +kernel

/-! ## Events of waits, copies and engines -/

/-- A warp that waits. -/
def waitFor (k : WaitKind) (w : Warp) : Warp := { w with wait := some ⟨k, 4, 0⟩ }

/-- The wait of warp 3. -/
def isWaiting (s : State) (p : Warp → Waiting → Bool) : Bool := (s.waiting 3).any fun x => p x.1 x.2

theorem test_waitc_end : leaves (.waitcEnd 3) (withW (waitFor (.waitc 0 0 0 0 (Vector.replicate 4 0)))) (fun w => w.wait.isNone && w.pc == 0x20004) = true := by
  decide +kernel
theorem test_waitw_wake : leaves (.waitwWake 3) (poke 0x30000 8 5 (withW (waitFor (.waitw 1 0x30000 5 .geu))))
    (fun w => w.wait.isNone && w.pc == 0x20004) = true := by decide +kernel
theorem test_waitw_wake_stays : leaves (.waitwWake 3) (poke 0x30000 8 4 (withW (waitFor (.waitw 1 0x30000 5 .geu)))) (fun w => w.wait.isSome)
    = true := by decide +kernel
theorem test_waitw_remote_poll_of_a_stack_word : leaves (.waitwRemotePoll 3)
    (poke 0x30000 8 5 (withW (waitFor (.waitw 1 0x30000 5 .geu)))) (fun w => w.wait.isSome) = true := by decide +kernel
theorem test_pbwait_wake : leaves (.pbwaitWake 3) (poke (scratchLoc 2 8) 4 0x80002002 (withW (waitFor (.pbwait (scratchLoc 2 8) .s 8 false))))
    (fun w => w.wait.isNone && w.pc == 0x20004) = true := by decide +kernel
theorem test_sgwait_wake : leaves (.sgwaitWake 3) (poke 0x30000 4 0x10001 (withW (waitFor (.sgwait 1 0x30000))))
    (fun w => w.wait.isNone && w.pc == 0x20004) = true := by decide +kernel
theorem test_sleept_wake : leaves (.sleeptWake 3) { (withW (waitFor (.sleept 5))) with gtime := 5 } (fun w => w.wait.isNone) = true := by decide +kernel
theorem test_exit_drain_end : ((after (.exitDrainEnd 3) (withW (waitFor .exitDrain))).any fun t => (tget t.warps 3).isNone) = true := by decide +kernel

theorem witness_WaitsEnd :
    isWaiting (withW (waitFor (.waitc 0 0 0 0 (Vector.replicate 4 0)))) (fun w _ => (withW id).countsOk 3 w 0 0 0 0 && w.errs.isEmpty) = true
    ∧ (let s := poke 0x30000 8 5 (withW (waitFor (.waitw 1 0x30000 5 .geu)))
      isWaiting s (fun w _ => (s.ctxPlace w.slot 0x30000).any fun p => p.tier == 0 && match s.readWatched p .geu 5 with
        | (.ok h, s1) => h && (tget s1.warps 3).isSome
        | _ => false)) = true
    ∧ (let s := poke (scratchLoc 2 0xFFFFC) 4 0x80002002 (withW (waitFor (.pbwait (scratchLoc 2 0xFFFFC) .s 8 false)))
      isWaiting s (fun _ _ => (tget s.parts 2).any fun p => s.coreUp p.core && s.bad.isEmpty
        && pbPhase (s.load (scratchLoc 2 0xFFFFC) 4) != false)) = true
    ∧ (let s := poke 0x30000 4 0x10001 (withW (waitFor (.sgwait 1 0x30000)))
      isWaiting s (fun w _ => (s.ctxPlace w.slot 0x30000).any fun p => match s.readDone p with
        | (some h, s1) => h && (tget s1.warps 3).isSome
        | _ => false)) = true
    ∧ (let s : State := { (withW (waitFor (.sleept 5))) with gtime := 5 }
      isWaiting s (fun w _ => !(s.gtime.setWidth 32 - (5 : Word)).slt 0 && (s.copyOfPromise 3 5).isNone && w.errs.isEmpty)) = true
    ∧ (let s := withW (waitFor .exitDrain)
      isWaiting s (fun w _ => s.drained 3 w)) = true := by decide +kernel

/-- A context whose table has one leaf of a peer module's memory (R99). -/
def remote (f : Warp → Warp) : State := poke 0x10000 8 (2 ^ 56 + 2 ^ 42 + 2 ^ 10 + 0x5F) (withW f)

theorem witness_WaitsEnd_remote_place : ((remote id).ctxPlace 0 0x30000).any (fun p => p.tier == 2 && p.module == 1) = true := by decide +kernel

/-- A word of a peer, where a link leads to it, the peer does not refuse and its answer comes, meets `geu` 0 whatever it holds. -/
theorem witness_WaitsEnd_remote (l : Fin 24) (s : State) (p : Place) (ht : p.tier = 2) (hl : p.lost = false) (hrf : p.refused = false)
    (hr : Config.route (Fin.ofNat 16384 p.module) = some l) (hu : s.loam[l].state = 2)
    (hp : ∀ n, Config.peerRefuses p.key n = false) (hc : Config.bit s.choices = false) (hb : s.bad = []) (hq : s.poison = []) :
    ∃ s1, s.readWatched p .geu 0 = (.ok true, s1) ∧ s1.warps = s.warps := by
  have hf : ∀ t : State, t.loam = s.loam → t.linkFails p = (false, { t with choices := t.choices + 1 }) := by
    intro t h
    unfold State.linkFails
    simp only [ht, hl, hrf, hr, h, hu, hp]
    simp
  simp [State.readWatched, State.readMem, State.readAt, State.ask, State.request, State.unreadable, State.badIn, State.poisonIn,
    State.readPlace, icond, ht, hf, hc, hb, hq, BitVec.ule]

theorem witness_UnmetWaitsStay :
    isWaiting (withW fun w => waitFor (.waitc 0 0 0 0 (Vector.replicate 4 0)) (threeStores w)) (fun w _ => !(withW threeStores).countsOk 3 w 0 0 0 0) = true
    ∧ (let s := withW (waitFor (.pbwait (scratchLoc 2 8) .s 8 false))
      isWaiting s (fun _ _ => s.bad.isEmpty && pbPhase (s.load (scratchLoc 2 8) 4) == false)) = true
    ∧ (let s := withW (waitFor (.sleept 5))
      isWaiting s (fun _ _ => (s.gtime.setWidth 32 - (5 : Word)).slt 0)) = true
    ∧ (let s := withW fun w => waitFor .exitDrain (threeStores w)
      isWaiting s (fun w _ => !s.drained 3 w)) = true := by decide +kernel
theorem witness_UnmetWaitsStay_watched :
    (let s := poke 0x30000 8 4 (withW (waitFor (.waitw 1 0x30000 5 .geu)));
      isWaiting s (fun w _ => (s.watchedPlace w 0x30000).any fun p => p.tier == 0 && match s.readWatched p .geu 5 with
        | (.ok h, _) => !h
        | _ => false)) = true
    ∧ (let s := remote (waitFor (.waitw 1 0x30000 5 .geu));
      isWaiting s (fun w k => ((s.ctxPlace w.slot 0x30000).any fun p => p.tier != 0) && !decide (max k.since w.polled + 1024 ≤ s.gtime.toNat))) = true
    ∧ (let s := (member .running).modWarp 3 (waitFor (.sgwait 1 0x30000));
      isWaiting s (fun w _ => (s.watchedPlace w 0x30000).any fun p => match s.readDone p with
        | (some h, s1) => !h && (s1.runningGroup w.slot 0x30000).isSome
        | _ => false)) = true := by decide +kernel

theorem witness_FailedWaitsTrap :
    (let s := { (withW fun w => handler (waitFor (.waitw 1 0x30000 5 .geu) w)) with poison := [0x180] };
      isWaiting s (fun w _ => w.handles && (s.watchedPlace w 0x30000).any fun p => p.tier == 0 && match s.readWatched p .geu 5 with
        | (.error code, _) => code == 0x0B
        | _ => false)) = true
    ∧ (let s := { (withW fun w => handler (waitFor (.waitw 1 0x30000 5 .geu) w)) with access := [(0, 0xFF0E)] };
      isWaiting s (fun w _ => w.handles && (s.ctxPlace w.slot 0x30000).any fun p => !s.mayTouch (some (s.coreOf w)) .r p)) = true
    ∧ (let s := withW fun w => handler (waitFor (.waitw 1 (2 ^ 55) 5 .geu) w);
      isWaiting s (fun w _ => w.handles && (s.ctxPlace w.slot (2 ^ 55)).isNone)) = true
    ∧ (let s := { (withW fun w => handler (waitFor (.sgwait 1 0x30000) w)) with poison := [0x180] };
      isWaiting s (fun w _ => w.handles && (s.watchedPlace w 0x30000).any fun p => (s.readDone p).1.isNone)) = true
    ∧ (let s := withW (waitFor (.sgwait 1 0x30000));
      isWaiting s (fun w _ => (s.watchedPlace w 0x30000).any fun p => match s.readDone p with
        | (some h, s1) => !h && (s1.runningGroup w.slot 0x30000).isNone
        | _ => false)) = true := by decide +kernel
theorem test_waitw_refused : leaves (.waitwWake 3) { (withW fun w => handler (waitFor (.waitw 1 0x30000 5 .geu) w)) with access := [(0, 0xFF0E)] }
    (fun w => w.wait.isNone && w.pc == 0x300 && w.cause == 0x200C) = true := by decide +kernel

/-- A copy of one chunk of 64 bytes to the scratchpad. -/
def copying : State := { (poke 0x30000 4 0x11223344 (store4k id)) with copies := [(7, copy5 false)] }

/-- A copy reads its first 8-byte unit, and then writes it (R115, R199). -/
theorem test_copy_unit : (let t := moveEarly 7 1 (moveEarly 7 0 copying)
    leNat (t.mem.read (scratchLoc 2 0x100) 8) == 0x11223344 && (tget t.copies 7).any fun c => c.moved == [0]) = true := by decide +kernel

theorem witness_CopyChunksEnd : (tget copying.copies 7).any (fun c => (tget copying.warps c.wid).any fun w => (tget copying.parts w.part).isSome
      && copying.running == some c.slot && ((tget copying.blocks w.block).any fun b => b.resident) && c.running.contains 0
      && !copying.copyWaits 7 c && (c.words 0).all fun x => !copying.wordStalls c x) = true
    ∧ (copy5 false).error = none := by decide +kernel
/-- The second chunk of a copy of 4,100 bytes within the scratchpad, with the first running too. -/
def copying2 : State := { (store4k id).modPart 2 (fun p => { p with scratch := 0x10000 }) with
  copies := [(7, { copy5 false with dsp := .s, ssp := .s, src := 0x2000, dst := 0xEFFC, len := 4100, rows := 1, next := 2, running := [0, 1] })] }

theorem witness_ChunksMoveTheirBytes : (tget copying2.copies 7).any (fun c => (tget copying2.warps c.wid).any fun w =>
    (tget copying2.parts w.part).any (fun p => decide (c.dst.toNat + c.len ≤ p.scratch) && decide (c.src.toNat + c.len ≤ p.scratch))
      && copying2.running == some c.slot && ((tget copying2.blocks w.block).any fun b => b.resident) && [0, 1].all (c.running.contains ·)
      && !copying2.copyWaits 7 c && c.fetched.isEmpty && c.moved.isEmpty && c.error.isNone && c.src.toNat % 4 == 0 && c.dst.toNat % 4 == 0
      && c.len % 4 == 0 && !w.ended) && !copying2.switching && copying2.bad.isEmpty && copying2.mem.wf = true := by decide +kernel

theorem test_matrix_op_end : (after (.matrixOpEnd 0 0) { base with engine := [(engineKey 2 0, [0])] }).any (fun t => t.engine.isEmpty) = true := by
  decide +kernel
theorem test_spawn_bin_timer : (after (.spawnBinTimer 0 1) ((bins 3).modNode 0 id)).any (fun t => t.bins.length == 2) = true := by decide +kernel
/-- A weight block of operation 2 clears an accumulator and has no payload (R257). -/
theorem test_weight_block : leaves (.weightBlockFetched 3) (poke 0x30000 4 0x57000002 (withW (waitFor (.chain 0x30000 0 0 8))))
    (fun w => w.wait.isNone && w.sregs[(8 : Fin 63)] == 1 && w.sregs[(9 : Fin 63)] == 0) = true := by decide +kernel
theorem test_stest_chunk_runs_10_us : leaves (.stestChunkEnd 3) (withW (waitFor (.chunk 1 0 8 10000))) (fun w => w.wait.isSome) = true := by
  decide +kernel
theorem test_spawned_warp : (after (.spawnWarpPlace 0) { (base.modPart 2 fun p => { p with region := [0] }) with
      released := [⟨0, 0, 0, 0, 2, 0x400, [7, 8]⟩] }).any
    (fun t => t.released.isEmpty && t.warps.any fun w => w.2.spawned && w.2.pc == 0x400 && w.2.laneok == 3
      && w.2.vregs[(0 : Fin 120)][(1 : Fin 32)] == 8) = true := by decide +kernel

/-- The context's time has passed the timer of a bin. -/
def late (n : Nat) : State := { bins n with ctxs := base.ctxs.set 0 (some { Context.placed with time := 5000 }) }

theorem witness_EngineEvents :
    base.running = some 0
    ∧ (let s := poke 0x30000 4 0x57000002 (withW (waitFor (.chain 0x30000 0 0 8)))
      isWaiting s (fun w _ => w.ops.isEmpty && match s.chainRound w 0x30000 with
        | (_, .ok none) => true
        | _ => false)) = true
    ∧ (let s := poke 0x30010 8 0x41 (poke 0x30000 4 0x57000002 (withW (waitFor (.chain 0x30000 0 5 8))))
      isWaiting s (fun w _ => w.ops.isEmpty && match s.chainRound w 0x30000 with
        | (_, .ok (some _)) => true
        | _ => false)) = true
    ∧ isWaiting (withW (waitFor (.chain 0x30000 5 5 8))) (fun w _ => w.ops.isEmpty) = true
    ∧ isWaiting (withW (waitFor (.chain (2 ^ 55) 0 0 8))) (fun w _ => w.ops.isEmpty && match (base.chainRound w (2 ^ 55)).2 with
      | .error _ => true
      | _ => false) = true
    ∧ isWaiting { (withW (waitFor (.chunk 1 0 8 10000))) with gtime := 10000 } (fun _ _ => true) = true
    ∧ (((late 3).binsOn 0 0).find? fun b => b.index == 0).any (fun b => decide (b.since + max 1 Context.placed.bintimer.toNat ≤ 5000)
      && ((late 3).binsOn 0 0).all fun y => decide (b.since < y.since ∨ (b.since = y.since ∧ b.index ≤ y.index))) = true
    ∧ (late 3).switching = false
    ∧ (base.spawnRoom ⟨0, 0, 0, 0, 2, 0x400, [7, 8]⟩).isSome = true := by decide +kernel
/-! ## Scheduling -/

/-- A module whose running context holds these nodes and no work. -/
def withNodes (xs : Tab Node) : State := { base with nodes := xs, blocks := [], parts := [], warps := [], nextId := 10 }

/-- A node that has not started, with its record at 0x38000 and a store budget of 64 KiB. -/
def fresh (k : NodeKind) : Node :=
  { Node.placed with kind := k, started := false, nextBlock := 0, totalBlocks := 0, body := 0x38000, eff := ⟨0, 1, 65536, 0, 0, 0⟩ }

/-- The launch record at 0x38000: one warp of role 0 with 8 registers. -/
def oneWarp (s : State) : State := poke 0x38028 4 0x00000801 (poke 0x38000 4 0x0000001F s)

/-- A broadcast of 512 bytes from rank 0 of 2 (R330), at 0x38000. -/
def broadcast (s : State) : State :=
  poke 0x38020 8 0x3C000 (poke 0x38018 8 0x3B000 (poke 0x38010 8 0x3A000 (poke 0x38008 8 128 (poke 0x38000 8 0x0002000000000040 s))))

theorem test_node_start : (after (.nodeStart 0) (oneWarp (withNodes [(0, fresh .launch)]))).any (fun t =>
    (tget t.nodes 0).any fun n => n.started && n.totalBlocks == 1 && n.launch.any fun l => l.threads == 32) = true := by decide +kernel
theorem test_node_start_without_a_warp : (after (.nodeStart 0) (withNodes [(0, fresh .launch)])).any (fun t =>
    (tget t.nodes 0).any fun n => n.status == some .launcherr) = true := by decide +kernel

/-- The node that the scheduler starts next. -/
def starts (s : State) (p : State → Node → Bool) : Bool := (tget s.nodes 0).any fun n => !s.doomed n && s.mayStart n.slot
  && s.nextStart n.slot == some 0 && p s n

theorem witness_NodesStart :
    (let s := withNodes [(0, { fresh .launch with deps := [1] }), (1, { Node.placed with status := some .abandoned })];
      (tget s.nodes 0).any fun n => s.doomed n) = true
    ∧ starts (withNodes [(0, fresh .region)]) (fun _ n => n.kind == .region) = true
    ∧ starts (withNodes [(0, fresh .group)]) (fun _ n => n.kind == .group) = true
    ∧ starts (oneWarp (withNodes [(0, fresh .launch)])) (fun s n => match s.readLaunch n.slot n.body.toNat with
      | (s1, some l) => l.accepted n.eff.store && (tget s1.nodes 0).isSome
      | _ => false) = true
    ∧ starts (withNodes [(0, fresh .launch)]) (fun s n => n.status.isNone && match s.readLaunch n.slot n.body.toNat with
      | (s1, none) => (tget s1.nodes 0).isSome
      | _ => false) = true
    ∧ starts (withNodes [(0, { fresh .array with kp0 := 0x80000001 })]) (fun _ n => n.kp0 != 0) = true
    ∧ starts (withNodes [(0, fresh .array)]) (fun _ n => n.kp0 == 0 && n.status.isNone) = true
    ∧ starts (oneWarp (withNodes [(0, { fresh .selftest with kp1 := 17 })])) (fun s n => match s.readLaunch n.slot n.body.toNat with
      | (_, some l) => l.accepted n.eff.store && selftestOk n l
      | _ => false) = true
    ∧ starts (broadcast (withNodes [(0, fresh .collective)])) (fun s n => s.freeEngine n.slot == some 0
      && match s.readRecordBy (some (engineMaster 0)) n.slot .r n.body.toNat 64 1 with
        | (s1, some bs) => (collOf 0 0 s1.choices bs).isSome
        | _ => false) = true := by decide +kernel
theorem witness_NodesStart_words :
    starts (withNodes [(0, fresh .array)]) (fun s n => n.kp0 == 0 && n.status.isNone && !s.wordMoves n) = true := by decide +kernel

/-- A launch of one block of one warp with 8 registers. -/
def oneLaunch : Launch := ⟨false, 0, 1, 32, 0, 0, 1, 1, 1, [⟨0x400, 0, 8, 1⟩, ⟨0, 0, 0, 0⟩, ⟨0, 0, 0, 0⟩]⟩

/-- A started self-test of core 17, whose block goes to a neighbour. -/
def selftest : Node := { fresh .selftest with launch := some oneLaunch, started := true, totalBlocks := 1, kp1 := 17 }

theorem test_block_place : (after (.blockPlace 0) (withNodes [(0, selftest)])).any (fun t =>
    (t.warps.map fun w => (w.2.pc, w.2.sregs[(0 : Fin 63)])) == [(0x400, 17)]
      && (t.parts.map fun p => p.2.core) == [1]) = true := by decide +kernel

theorem witness_BlocksArePlaced :
    (let s := withNodes [(0, selftest)];
      (tget s.nodes 0).any fun n => n.launch.isSome && s.nextIndex 0 n == some 0
        && ((s.schedOrder n.slot).find? fun x => (s.placeable x).isSome || (s.wantsBlock x.1 x.2 && (s.preemptFor x).isSome)).map (·.1)
            == some 0
        && !s.returnFirst n && (s.placeable (0, n)).isSome) = true := by decide +kernel

/-- A chunk on core 1, held by the block, whose time is over. -/
def chunked (st : CoreState) : State := { ((holding st 0).modWarp 3 (waitFor (.chunk 1 0 8 10000))) with gtime := 10000 }

/-- The same where a priority-0 launch that only core 1 has room for waits. -/
def wanted1 : State := { (chunked .inService) with
  nodes := (chunked .inService).nodes ++ [(9, { selftest with kp1 := 2, parent := none, root := 9 })]
  cores := [(1, { CoreFence.fresh with holder := some 1 }), (3, { CoreFence.fresh with state := .removed }), (18, { CoreFence.fresh with state := .removed })] }

theorem witness_ScanChunksEnd :
    (∀ st ∈ [CoreState.inService, .fenced, .removed], isWaiting (chunked st) (fun w k => k.kind == .chunk 1 0 8 10000 && (chunked st).heldBy 1 w.block
      && !({ chunked st with armed := none } : State).wanted 1 && ((chunked st).warps.map (·.1)) == [3]) = true)
    ∧ (let s := { chunked .inService with cores := [] }; isWaiting s (fun w _ => !s.heldBy 1 w.block && !({ s with armed := none } : State).wanted 1) = true)
    ∧ isWaiting wanted1 (fun w _ => wanted1.heldBy 1 w.block && ({ wanted1 with armed := none } : State).wanted 1) = true := by decide +kernel
/-- R447: with a block of priority 0 ready for the target, the chunk ends with 3. -/
theorem test_stest_chunk_aborted : leaves (.stestChunkEnd 3) wanted1 (fun w => w.wait.isNone && w.sregs[(8 : Fin 63)] == 3) = true := by decide +kernel
theorem witness_EngineEvents_wanted : isWaiting wanted1 (fun _ k => k.kind == .chunk 1 0 8 10000 && ({ wanted1 with armed := none } : State).wanted 1) = true := by
  decide +kernel

theorem test_node_complete : (after (.nodeComplete 0) (withNodes [(0, { Node.placed with kind := .region })])).any (fun t =>
    (tget t.nodes 0).any fun n => n.status == some .completed) = true := by decide +kernel
theorem test_work_stop_complete : (after (.workStopComplete 0) (withNodes [(0, { Node.placed with killing := true, spoiled := true })])).any
    (fun t => (tget t.nodes 0).any fun n => n.status == some .abandoned) = true := by decide +kernel

theorem witness_NodesEnd :
    (let s := withNodes [(0, Node.placed)];
      (tget s.nodes 0).any fun n => n.status.isNone && !s.doomed n && n.started && !n.killing && s.workOver 0 n) = true
    ∧ (let s := withNodes [(0, { Node.placed with killing := true })];
      (tget s.nodes 0).any fun n => n.status.isNone && n.killing && n.kind != .group && ((s.sweep 0).sweepGroup 0).stopped 0 n
        && (tget ((s.sweep 0).sweepGroup 0).nodes 0).isSome) = true := by decide +kernel
theorem witness_NodesEnd_words :
    (let s := withNodes [(0, Node.placed)]; (tget s.nodes 0).any fun n => s.workOver 0 n && !s.wordMoves n) = true
    ∧ (let s := withNodes [(0, { Node.placed with killing := true })];
      (tget s.nodes 0).any fun n => ((s.sweep 0).sweepGroup 0).stopped 0 n && !((s.sweep 0).sweepGroup 0).wordMoves n) = true := by decide +kernel

/-- Two sibling regions, the first of which has used up its slice. -/
def siblings : State := withNodes [(0, { Node.placed with kind := .region }),
  (1, { fresh .region with parent := some 0, started := true, used := 1000, eff := ⟨0, 1, 0, 0, 1000, 0⟩ }), (2, { fresh .region with parent := some 0 })]

theorem test_time_slice : (after (.timeSliceExpiry 1) siblings).any (fun t => (t.children 0).length == 2
    && (t.nodes.map fun n => (n.2.turn, n.2.used)) == [(1, 0), (0, 0), (0, 0)]) = true := by decide +kernel

/-- A block whose one warp has waited in `pbwait` for 64 µs. -/
def parkedBlock : State :=
  { (withW fun w => { waitFor (.pbwait (scratchLoc 2 8) .s 8 false) w with rcount := 8 }) with gtime := 64000 }

/-- The same block swapped out, in a self-test whose cores are free. -/
def awayBlock : State := (parkedBlock.modBlock 1 fun b => { b with resident := false })

theorem test_parked_block_swap : (after (.parkedBlockSwap 1) parkedBlock).any (fun t => (tget t.blocks 1).any fun b => !b.resident) = true := by
  decide +kernel
theorem test_swapped_block_return : (after (.swappedBlockReturn 1) awayBlock).any (fun t => (tget t.blocks 1).any fun b => b.resident)
    = true := by decide +kernel

/-- A group with one member and a deadline. -/
def timed : State := { base with groups := [(20, { group1 0 with deadline := some 5 })],
                                 ctxs := base.ctxs.set 0 (some { Context.placed with time := 5 }) }

theorem test_group_deadline : (after (.groupDeadline 20) timed).any (fun t => t.groups.all fun g => g.2.members == [(.timedOut, 0)]) = true := by
  decide +kernel

theorem witness_SlicesSwapsAndDeadlines :
    (tget siblings.nodes 1).any (fun n => n.parent == some 0 && n.status.isNone && siblings.running == some n.slot && n.eff.slice != 0
      && decide (n.eff.slice ≤ n.used) && (tget siblings.nodes 0).isSome
      && (siblings.yieldTo 0 1 n).isSome) = true
    ∧ (tget parkedBlock.blocks 1).any (fun b => parkedBlock.parked 1 b) = true
    ∧ (tget awayBlock.blocks 1).any (fun b => awayBlock.onTurn b.slot && !b.resident && !b.stopping
      && (tget awayBlock.nodes b.node).any fun n => (awayBlock.placeBack b n).isSome) = true
    ∧ (tget timed.groups 20).any (fun g => g.deadline == some 5 && !g.done && timed.running == some g.slot
      && (timed.ctxs[g.slot]).any (fun c => decide (5 ≤ c.time)) && g.n == 1 && g.members == [(.running, 0)]) = true := by decide +kernel
theorem witness_SlicesSwapsAndDeadlines_alone : (tget awayBlock.blocks 1).any (fun b => !b.together) = true
    ∧ (tget timed.groups 20).any (fun g => timed.onTurn g.slot) = true := by decide +kernel

/-- A switch to no slot at 5 ns. -/
def arming (late : Bool) (now : DWord) : State := { base with armed := some ⟨5, 8, late⟩, gtime := now }

theorem test_gang_switch : (after .gangSwitch (arming false 5)).any (fun t => t.running.isNone && t.armed.isNone
    && (t.journal.map fun e => (e.cmd, e.result)) == [(0x880, 0)]) = true := by decide +kernel
theorem test_gang_switch_early : (after .gangSwitch (arming false 4)).any (fun t => t.running.isSome && t.journal.isEmpty) = true := by decide +kernel
theorem test_switch_overrun : (after .switchOverrun (arming false 250006)).any (fun t => t.msix == [3] && t.armed == some ⟨5, 8, true⟩)
    = true := by decide +kernel

theorem witness_GangSwitches : (arming false 5).armed = some ⟨5, 8, false⟩ ∧ 5 ≤ (arming false 5).gtime.toNat
    ∧ (arming false 5).running = some 0 ∧ (arming false 5).collsQuiet 0 ⟨5, 8, false⟩ = true ∧ (arming false 5).deferred = []
    ∧ (let s : State := { arming false 5 with nodes := [(0, Node.placed)], collectives := [(5, ⟨0, 0, 0, 0, 4, 2, 0, 128, 0, 0, 0, 2, [⟨1, 0, 0⟩], [], [], false, [], []⟩)] }
       s.running = some 0 ∧ s.collsQuiet 0 ⟨5, 8, false⟩ = false)
    ∧ (let s : State := { arming false 5 with deferred := [⟨10, ⟨5, 0x1234, 0, 0⟩, Vector.replicate 16 65535⟩] }
       s.deferred.length = 1 ∧ ((Vector.replicate 16 (65535 : Word))[2]).toNat < 65536)
    ∧ (arming false 4).gtime.toNat < 5 ∧ 5 + 250000 < (arming false 250006).gtime.toNat := by decide +kernel
/-- The same with a write-back of warp 3 that a migration stalls. -/
def unsettled : State := { arming false 5 with
  migration := some ⟨0, 1, 0x50000, 0x10000, 3, 0x50000, 0x60000, 1, [⟨.warp 3, 0x50000, 4, .write [1, 0, 0, 0], []⟩]⟩ }

theorem witness_GangSwitches_settled : (arming false 5).settled 0 = true ∧ unsettled.running = some 0 ∧ unsettled.settled 0 = false := by decide +kernel

/-! ## Host commands, the endpoint and the mailbox -/

/-- A booted module whose window 5 holds these arguments, with contexts in slot 0, which runs, and in slot 1. -/
def commanded (xs : List Word) : State :=
  { base with booted := true, ctxs := base.ctxs.set 1 (some { Context.placed with key := 2 })
              windows := base.windows.set 5 (Vector.ofFn fun k : Fin 16 => xs.getD k.val 0) }

/-- Word 14 of window 5 for a slot. -/
def forSlot (n : BitVec 4) : HostCmd := ⟨5, 0x1234, 0, n⟩

/-- The result and the detail of the newest journal entry. -/
def answers (i : Instr) (s : State) : Option (BitVec 8 × BitVec 24) :=
  ((after i s).bind fun t => t.journal.head?).map fun e => (e.result, e.detail)

/-- The command processor takes a command of window 5. -/
def takes (s : State) : Bool := s.booted && !s.held && s.queue.isEmpty && !s.busyWindow 5 && !s.switching

theorem takes_is_Takes (s : State) (n : BitVec 4) (h : takes s = true) : Takes s (forSlot n) := by
  simp only [takes, Bool.and_eq_true, List.isEmpty_iff, Bool.not_eq_true'] at h
  exact ⟨h.1.1.1.1, h.1.1.1.2, h.1.1.2, h.1.2, h.2⟩

/-- Arguments of CREATE: the root at 0x10000, a key, the save area at 0, one core and 1 KiB of store. -/
def creating (key : Word) : List Word := [0x10000, 0, key, 0, 0, 0, 1, 1024]

theorem test_create : (after (.create (forSlot 2)) (commanded (creating 3))).any (fun t => (t.ctxs[(2 : Fin 8)]).any (·.key == 3)
    && t.journal.map (fun e => (e.cmd, e.result)) == [(0x12340201, 0)] && t.msix == [0]) = true := by decide +kernel
theorem test_create_key_in_use : answers (.create (forSlot 2)) (commanded (creating 1)) = some (3, 0) := by decide +kernel
theorem test_destroy : (after (.destroy (forSlot 1)) (commanded [])).any (fun t => (t.ctxs[(1 : Fin 8)]).isNone) = true := by decide +kernel
theorem test_destroy_running : answers (.destroy (forSlot 0)) (commanded []) = some (4, 0) := by decide +kernel
theorem test_quiesce : (after (.quiesce (forSlot 1)) (commanded [1])).any (fun t => (t.ctxs[(1 : Fin 8)]).any (·.quiesced)) = true := by
  decide +kernel
theorem test_quiesce_resume : answers (.quiesceResume (forSlot 1)) (commanded [0]) = some (0, 0) := by decide +kernel

theorem witness_ContextCommands :
    (let s := commanded (creating 3); takes s = true ∧ s.ctxs[(2 : Fin 8)] = none ∧ (s.contextArgs (forSlot 2)).isSome = true)
    ∧ (let s := commanded (creating 2); takes s = true ∧ s.ctxs[(2 : Fin 8)] = none ∧ s.contextArgs (forSlot 2) = none)
    ∧ (let s := commanded [1]; takes s = true ∧ (s.ctxs[(1 : Fin 8)]).isSome = true ∧ s.running ≠ some 1 ∧ s.armed = none
      ∧ s.argAt (forSlot 1) 0 = 1)
    ∧ (let s := commanded [0]; takes s = true ∧ (s.ctxs[(0 : Fin 8)]).isSome = true ∧ s.running = some 0 ∧ s.argAt (forSlot 0) 0 = 0)
    ∧ (let s := { commanded [2] with armed := some ⟨9, 1, false⟩ }; takes s = true ∧ (s.ctxs[(1 : Fin 8)]).isSome = true
      ∧ s.armed = some ⟨9, 1, false⟩ ∧ 2 ≤ s.argAt (forSlot 1) 0)
    ∧ (let s := commanded [0, 0, 9, 0, 0, 6]; 5 < s.argAt (forSlot 2) 5 % 16) ∧ 8 ≤ (forSlot 15).slot.toNat := by
  decide +kernel

/-- Arguments of ARM: the time and the incoming slot. -/
def armAt (t n : Word) : State := commanded [t, 0, n]

theorem test_arm : (after (.arm (forSlot 0)) (armAt 10000 1)).any (fun t => t.armed == some ⟨10000, 1, false⟩) = true := by decide +kernel
theorem test_arm_late : answers (.arm (forSlot 0)) (armAt 9999 1) = some (6, 0) := by decide +kernel
theorem test_disarm : (after (.disarm (forSlot 0)) { armAt 0 0 with armed := some ⟨1, 1, false⟩ }).any (fun t => t.armed.isNone) = true := by
  decide +kernel
theorem test_disarm_nothing : answers (.disarm (forSlot 0)) (armAt 0 0) = some (5, 0) := by decide +kernel
/-- R319: slots 0 and 1 are resident, slot 0 runs. -/
theorem test_query_slots : answers (.querySlots (forSlot 0)) (commanded []) = some (0, 0x400003) := by decide +kernel
theorem test_config : (after (.config (forSlot 0)) (commanded [0x5000, 0, 7])).any (fun t => t.counterTable == some 0x5000
    && t.counterThreshold == 7) = true := by decide +kernel
theorem test_badcmd : answers (.badcmd (forSlot 0) 11) (commanded []) = some (1, 0) := by decide +kernel

theorem witness_ModuleCommands :
    (let s := armAt 10000 9; takes s = true ∧ 8 < s.argAt (forSlot 0) 2)
    ∧ (let s := armAt 9999 8; s.argAt (forSlot 0) 2 ≤ 8 ∧ s.argPair (forSlot 0) 0 < s.gtime.toNat + 10000)
    ∧ (let s := { armAt 10000 8 with armed := some ⟨1, 1, false⟩ };
        takes s = true ∧ s.argAt (forSlot 0) 2 ≤ 8 ∧ s.gtime.toNat + 10000 ≤ s.argPair (forSlot 0) 0 ∧ s.armed ≠ none ∧ s.gtime.toNat < 1)
    ∧ (let s := armAt 10000 8;
        s.gtime.toNat + 10000 ≤ s.argPair (forSlot 0) 0 ∧ s.armed = none ∧ s.argAt (forSlot 0) 2 = 8)
    ∧ (let s := armAt 10000 7; s.argAt (forSlot 0) 2 = 7 ∧ s.ctxs[(7 : Fin 8)] = none)
    ∧ (let s := armAt 10000 0; s.argAt (forSlot 0) 2 = 0 ∧ s.running = some 0)
    ∧ (let s := armAt 10000 1; s.argAt (forSlot 0) 2 = 1 ∧ (s.ctxs[(1 : Fin 8)]).isSome = true ∧ s.running ≠ some 1)
    ∧ (let s := commanded [0, 0, 65535]; s.argAt (forSlot 0) 0 = 0 ∧ s.argAt (forSlot 0) 2 < 65536)
    ∧ (let s := commanded [2, 0, 65536]; 2 ≤ s.argAt (forSlot 0) 0 ∧ 65536 ≤ s.argAt (forSlot 0) 2) := by
  decide +kernel

theorem test_submit : (after (.submit (forSlot 0)) (commanded [0x30000])).any (fun t => (tget t.nodes 4).any fun n =>
    n.kind == .region && n.started && n.addr == 0x30000) = true := by decide +kernel
theorem test_submit_rejected : answers (.submit (forSlot 0)) (commanded [0x30001]) = some (7, 0) := by decide +kernel
/-- R319: a running kernel launch of one block. -/
theorem test_query_node : answers (.queryNode (forSlot 0)) (commanded [1]) = some (0, 0x10120) := by decide +kernel
theorem test_teardown_not_found : answers (.teardownDrain (forSlot 0)) (commanded [8]) = some (5, 0) := by decide +kernel
theorem test_teardown_kill : (after (.teardownKill (forSlot 0)) (commanded [0, 0, 1])).any (fun t => (tget t.nodes 0).any (·.killing)
    && (tget t.warps 3).any (·.stopped)) = true := by decide +kernel

theorem witness_TreeCommands :
    (let s := commanded [0x30000]; takes s = true ∧ (s.ctxs[(0 : Fin 8)]).isSome = true ∧ (match s.readTree 0 treeFuel [(s.argPair (forSlot 0) 0, 0)] [] with
      | (s1, some xs) => s1.treeOk 0 xs
      | _ => false) = true)
    ∧ (let s := commanded [0x30001]; (match s.readTree 0 treeFuel [(s.argPair (forSlot 0) 0, 0)] [] with
      | (_, none) => true
      | _ => false) = true)
    ∧ (let s := commanded [1]; s.argAt (forSlot 0) 0 = 1 ∧ (s.queryAt 0 (s.argPair (forSlot 0) 2)).isSome = true)
    ∧ (let s := commanded [1, 0, 8]; s.argAt (forSlot 0) 0 = 1 ∧ (s.queryAt 0 (s.argPair (forSlot 0) 2)).isNone = true)
    ∧ (let s := commanded []; (s.nodeAt 0 (s.argPair (forSlot 0) 0)).any (fun n => n.2.status.isNone) = true ∧ s.argAt (forSlot 0) 2 = 0)
    ∧ (let s := commanded [0, 0, 1]; (s.nodeAt 0 (s.argPair (forSlot 0) 0)).any (fun n => n.2.status.isNone) = true
      ∧ s.argAt (forSlot 0) 2 = 1)
    ∧ (let s := commanded [8]; (s.nodeAt 0 (s.argPair (forSlot 0) 0)).isNone = true ∧ s.argAt (forSlot 0) 2 = 0)
    ∧ (let s := commanded [0, 0, 2]; 2 ≤ s.argAt (forSlot 0) 2)
    ∧ (let s := (commanded []).modNode 0 fun n => { n with status := some .completed };
        (s.nodeAt 0 (s.argPair (forSlot 0) 0)).any (fun n => n.2.status.isSome) = true)
    ∧ (let s := commanded [8, 0, 1]; (s.nodeAt 0 (s.argPair (forSlot 0) 0)).isNone = true ∧ s.argAt (forSlot 0) 2 = 1) := by
  decide +kernel

/-- A purge of pages 0x10000 to 0x1FFFF of key 1. -/
def purge : Purge := ⟨0x12340009, 1, 1, false, 0x10000, 0x10000, 5⟩

theorem test_invalidate : (after (.invalidate (forSlot 0)) (commanded [1, 0, 0x10000, 0, 0x10000])).any (fun t => t.purges.any
    (fun p => p.key == 1 && p.base == 0x10000) && t.busyWindow 5 && t.journal.isEmpty) = true := by decide +kernel
theorem test_invalidate_complete : (after .invalidateComplete { base with purges := [purge], tlb := [⟨.core 0, 1, 1, 1, 4, 0⟩, ⟨.core 0, 1, 2, 1, 4, 0⟩] }).any
    (fun t => t.tlb.map (·.page) == [2] && t.purges.isEmpty) = true := by decide +kernel

theorem witness_PurgeCommands :
    (let s := commanded [255, 1]; takes s = true ∧ s.argAt (forSlot 0) 0 < 256 ∧ s.argAt (forSlot 0) 1 < 2)
    ∧ (let s := commanded [256, 0]; takes s = true ∧ 256 ≤ s.argAt (forSlot 0) 0)
    ∧ (let s := commanded [255, 2]; takes s = true ∧ 2 ≤ s.argAt (forSlot 0) 1)
    ∧ (arming false 5).switching = true
    ∧ State.usesOld { base with purges := [purge] } purge (fun _ => true) = false
    ∧ (let s := withW fun w => { w with ops := [⟨0, .stores, 1, .store, .g, [⟨0, 0, 0x10000, ⟨0x10000, 0x10000, 0, 0, false, false, 0, false, false⟩, 4, 0, 0⟩], 1,
        none, none, [], false, [], 0, none, 0⟩] }; State.usesOld { s with purges := [purge] } purge (fun _ => true) = true) := by
  decide +kernel

/-- A module whose command processor a purge holds up, with CONFIG of window 5 waiting. -/
def queued (xs : List Word) : State := { commanded xs with queue := [(forSlot 0, 10)] }

theorem witness_CommandsWaitTheirTurn :
    (let s := { commanded [] with purges := [purge] };
        s.booted = true ∧ s.busyWindow 5 = false ∧ s.held = true ∧ s.queue.head? ≠ some (forSlot 0, 10))
    ∧ (let s := { commanded [] with queue := [(⟨4, 0, 0, 0⟩, 6)] };
        s.busyWindow 5 = false ∧ s.queue ≠ [] ∧ s.queue.head? ≠ some (forSlot 0, 10))
    ∧ (let s := commanded [0, 0, 0, 0, 0, 0, 0, 0, 0, 0, 0, 0, 0, 0, 0, 0x80000000]; s.busyWindow 5 = true)
    ∧ (let s := { queued [] with purges := [purge] }; s.queue = [(forSlot 0, 10)] ∧ s.held = true)
    ∧ (let s := queued [1, 2, 65535]; s.held = false ∧ s.argAt (forSlot 0) 2 < 65536 ∧ s.switching = false)
    ∧ (let s := { queued [1, 2, 3] with armed := some ⟨0, 8, false⟩ }; s.held = false ∧ s.switching = true) := by decide +kernel

/-- A CONFIG that comes during a gang switch is answered, and takes effect when the switch ends (R329). -/
theorem test_config_is_deferred : (done (.config (forSlot 0)) .gangSwitch { commanded [0x5000, 0, 7] with armed := some ⟨0, 8, false⟩ }).any
    (fun t => t.counterThreshold == 7 && t.deferred.isEmpty) = true := by decide +kernel

theorem test_register_write : (after (.registerWrite 0x104 7) (commanded [])).any (fun t => (t.windows[(4 : Fin 16)])[(1 : Fin 16)] == 7) = true := by
  decide +kernel
theorem test_memory_window_read : (after (.memoryWindowRead 0x30000 4) (poke 0x30000 4 0x01020304 (commanded []))).any
    (fun t => t.reply == .data [4, 3, 2, 1] false) = true := by decide +kernel
theorem test_memory_window_write : (after (.memoryWindowWrite 0x30000 [4, 3]) (commanded [])).any
    (fun t => leNat (t.mem.read 0x30000 4) == 0x0304) = true := by decide +kernel
theorem test_unsupported : (after (.unsupportedRequest 0x400) (commanded [])).any (fun t => t.reply == .unsupported) = true := by decide +kernel

theorem witness_HostWindowsReachMemory :
    (let s := commanded []; s.booted = true ∧ s.busyWindow 15 = false ∧ clean s = true ∧ s.migration = none
      ∧ (pagesOf (s.windowAddr 0xFFFFFF00) 256).all (s.mayReach hostMaster .r) = true
      ∧ (pagesOf (s.windowAddr 0xFFFFFF00) 256).any s.physFails = false
      ∧ s.mayReach hostMaster .w (s.windowAddr 0xFFFFFFFF) = true ∧ s.physFails (s.windowAddr 0xFFFFFFFF) = false
      ∧ s.windowAddr 0xFFFFFFFF % 65536 + 1 ≤ 65536)
    ∧ (let s := commanded [];
        (pagesOf (s.windowAddr 0xFFFFFF00) 256).all isStack = true ∧ isStack (s.windowAddr 0xFFFFFFFF) = true)
    ∧ (let s := { commanded [] with access := [(0 * 65536 + hostMaster, 0)] };
        s.booted = true ∧ (pagesOf (s.windowAddr 0) 1).all (s.mayReach hostMaster .r) = false) := by
  decide +kernel
/-- The memory window over the management area: a byte of the fault records, one of the fence state table, and one of neither. -/
theorem witness_HostWindowsReachMemory_read_only : ∀ x ∈ [(0x20000, true), (0x30000, true), (0x35FFF, true), (0x36000, false)],
    (let s := { commanded [] with wbase := BitVec.ofNat 20 (mgmtBase / 2 ^ 32) }
     let a := s.windowAddr (mgmtBase % 2 ^ 32 + x.1)
     decide ((mgmtBase + 0x20000 ≤ a ∧ a < mgmtBase + 0x28000) ∨ (fenceTable ≤ a ∧ a < fenceTable + 24576))) = x.2 := by decide +kernel

/-- A request with its arguments in the mailbox of a booted module. -/
def mailed (code : Nat) (xs : List Nat) : State :=
  (xs.zipIdx.foldl (fun s x => poke (mgmtBase + 0x40 + 4 * x.2) 4 x.1 s) (poke mgmtBase 4 code (commanded [])))

theorem test_mailbox_badarg : (after .mailboxBadarg (mailed 7 [])).any (fun t => t.msix == [2]) = true := by
  decide +kernel
/-- R341: the request is open until nothing is out that the old entry admitted, and then answered. -/
theorem test_access : (done .access .access (mailed 2 [72, 65535, 0x10001])).any (fun t => t.access == [(72 * 65536 + 65535, 1)]
    && t.accessNew.isNone && t.msix == [2]) = true := by decide +kernel
theorem test_power : (after .power (mailed 3 [3000, 5])).any (fun t => t.cap == 3000 && t.ceilings[(0 : Fin 8)] == 5) = true := by
  decide +kernel

/-- A request of a code whose arguments meet a condition. -/
def asks (code : Nat) (xs : List Nat) (p : State → Bool) : Bool :=
  let s := mailed code xs
  s.mem.wf && s.requested && s.doorbell % 256 == code && p s

theorem witness_MailboxRequestsAreAnswered :
    asks 7 [] (fun _ => true) = true
    ∧ asks 1 [0, 0, 0, 0, 0, 0, 0, 0, 0, 0xFFFFFFFF] (fun s => !bufferOk (s.mailPair 8) 32768) = true
    ∧ asks 1 [0, 0, 0, 0, 0, 0, 0, 0, 0x30000, 0] (fun s => bufferOk (s.mailPair 8) 32768) = true
    ∧ asks 2 [73, 0, 0] (fun s => decide (72 < s.mailArg 0 % 128)) = true
    ∧ asks 2 [72, 0, 0] (fun s => decide (s.mailArg 0 % 128 ≤ 72)) = true
    ∧ asks 3 [2999, 0] (fun s => decide (s.mailArg 0 < 3000)) = true
    ∧ asks 3 [12000, 0xFFFFFF] (fun s => decide (3000 ≤ s.mailArg 0) && decide (s.mailArg 0 ≤ 12000) && decide (s.mailArg 1 < 2 ^ 24)
      && s.armed.isNone) = true
    ∧ asks 4 [0x30000, 0, 16] (fun s => bufferOk (s.mailPair 0) (s.mailArg 2) && s.bad.isEmpty && s.poison.isEmpty) = true
    ∧ asks 5 [0x30000, 0, 0] (fun s => bufferOk (s.mailPair 0) (8 * 25088) && s.mailArg 2 % 2 == 0) = true
    ∧ asks 6 [0x30000, 0] (fun s => bufferOk (s.mailPair 0) 1024) = true
    ∧ (let s := commanded []; s.mem.wf && !s.requested) = true := by decide +kernel
theorem witness_MailboxRequestsAreAnswered_selects :
    asks 5 [0x30000, 0, 1, 0x100000, 0] (fun s => bufferOk (s.mailPair 0) (8 * 25088) && s.mailArg 2 % 2 == 1
      && decide (s.mailPair 3 + 4 * 25088 ≤ mgmtBase)) = true
    ∧ (poke 0x100000 4 0x700 (mailed 5 [0x30000, 0, 1, 0x100000, 0])).load 0x100000 4 / 256 % 256 = 7 := by decide +kernel

/-- Where nothing below the management area is written, every select is 0. -/
theorem witness_MailboxRequestsAreAnswered_all_selects : ∀ n < 25088, (mailed 5 [0x30000, 0, 1, 0x100000, 0]).load (0x100000 + 4 * n) 4 = 0 := by
  have hs : ∀ x ∈ (mailed 5 [0x30000, 0, 1, 0x100000, 0]).mem.cells, x.1 < 0x100000 ∨ 0x100000 + 4 * 25088 ≤ x.1 := by decide +kernel
  intro n hn
  have hg : ∀ i, i < 4 → (mailed 5 [0x30000, 0, 1, 0x100000, 0]).mem.get (0x100000 + 4 * n + i) = 0 := fun i hi =>
    cellGet_unlisted _ _ fun x hx h => by have := hs x hx; omega
  unfold State.load
  rw [State.bytesAt_mem 4 _ _ fun i hi => locReg_phys (by unfold physTop; omega)]
  have h0 := hg 0 (by decide); have h1 := hg 1 (by decide); have h2 := hg 2 (by decide); have h3 := hg 3 (by decide)
  rw [Nat.add_zero] at h0
  rw [Nat.add_assoc] at h1 h2 h3
  simp [Memory.read, leNat, Nat.add_assoc, h0, h1, h2, h3]

/-! ## Peers, links, migration and power -/

/-- A module whose stack 0 admits module 1. -/
def peered : State := { commanded [] with access := [(0x4001, 0xFF0F)] }

theorem test_peer_write : (after (.peerRequest ⟨1, 1, 0x30000, 2, .write [4, 3]⟩) peered).any (fun t => leNat (t.mem.read 0x30000 2) == 0x0304)
    = true := by decide +kernel
theorem test_peer_refused : (after (.peerRequest ⟨1, 1, 0x30000, 2, .write [4, 3]⟩) (commanded [])).any (fun t => leNat (t.mem.read 0x30000 2) == 0)
    = true := by decide +kernel

/-- The premises of a request that is performed. -/
def admitted (r : PeerReq) : Bool := peered.booted && peerFits r && decide (r.addr + r.size ≤ mgmtBase)
  && (pagesOf r.addr r.size).all (peered.mayReach (0x4000 + r.src.val) (peerNeed r.op))

theorem witness_PeerRequests : admitted ⟨1, 1, 0x30000, 128, .read⟩ = true ∧ admitted ⟨1, 1, 0x1FFFFFFFFF, 1, .write [7]⟩ = true
    ∧ admitted ⟨1, 1, 0x30008, 8, .atom .add 1⟩ = true ∧ admitted ⟨1, 1, 0x3000C, 4, .cas 0 1⟩ = true
    ∧ peered.migration = none ∧ clean peered = true ∧ base.booted = false ∧ peerFits ⟨1, 1, 0x30000, 129, .read⟩ = false
    ∧ (pagesOf 0x30000 4).all ((commanded []).mayReach 0x4001 .r) = false := by
  decide +kernel

/-- A store of a word to a place. -/
def storeTo (p : Place) : OutOp := ⟨0, .stores, 1, .store, .g, [⟨0, 0, 0x30000, p, 4, 0, 0⟩], 1, none, none, [], false, [], 0, none, 0⟩

/-- A warp with one outstanding store of a word to a place. -/
def storing (p : Place) : State :=
  withW fun w => { w with ops := [storeTo p] }

/-- A word of module 1. -/
def peerWord : Place := ⟨2 ^ 47, 2 ^ 47, 2, 1, false, false, 0, false, false⟩
/-- The first word of the capacity tier. -/
def capWord : Place := ⟨2 ^ 46, 2 ^ 46, 1, 0, false, false, 0, false, false⟩

theorem witness_Timeouts : ((storing peerWord).outstanding 3 0 fun p => p.tier == 2).isSome = true
    ∧ (base.outstanding 3 0 fun p => p.tier == 2) = none
    ∧ (base.outstanding 3 0 fun p => p.tier == 1 && !(base.linkFails p).1) = none := by
  refine ⟨?_, by decide +kernel, by decide +kernel⟩
  have h : (storing peerWord).waiters 3 0 (fun p => p.tier == 2) = [.acc ⟨0, 0, 0x30000, peerWord, 4, 0, 0⟩] := by decide +kernel
  simp [State.outstanding, h, Nat.mod_one]

/-- The premises for an operation of the capacity tier, on a page that its port serves. -/
theorem witness_Timeouts_capacity (q : Fin 8) (hq : capPortOf capWord.pa = some q) :
    ((storing capWord).outstanding 3 0 fun p => p.tier == 1 && !((storing capWord).linkFails p).1)
      = some (.acc ⟨0, 0, 0x30000, capWord, 4, 0, 0⟩) := by
  have hp : ∀ k : Fin 8, (storing capWord).cxl[k] = ⟨false, false, []⟩ := by decide +kernel
  have hf : ((storing capWord).linkFails capWord).1 = false := by
    unfold State.linkFails
    simp only [hq, show capWord.lost = false from rfl, show capWord.refused = false from rfl, show capWord.tier = 1 from rfl, if_pos]
    simp [hp]
  have hg : ∀ f : Place → Bool, f capWord = true →
      (storing capWord).waiters 3 0 f = [.acc ⟨0, 0, 0x30000, capWord, 4, 0, 0⟩] := by
    intro f h
    let w : Warp := { Warp.placed 0 1 2 (BitVec.ofNat 64 textAt) with ops := [storeTo capWord] }
    have e : (storing capWord).waiters 3 0 f = ((storing capWord).waitingAccs 3 w (storeTo capWord) f).map .acc := rfl
    have hm : mayComplete w (storeTo capWord) = true := by decide +kernel
    have ho : (storing capWord).goesOut 3 w (storeTo capWord) ⟨0, 0, 0x30000, capWord, 4, 0, 0⟩ = true := by decide +kernel
    rw [e, State.waitingAccs, if_pos hm]
    simp [storeTo, h, ho, show capWord.lost = false from rfl, show capWord.refused = false from rfl] at ho ⊢
  rw [State.outstanding, hg _ (by simp [hf]; rfl)]
  simp [Nat.mod_one]

theorem test_cxl_link_down : (after (.cxlLinkDown 2) base).any (fun t => t.journal.map (fun e => (e.cmd, e.detail, e.arg)) == [(0x82, 6, 2)]) = true := by
  decide +kernel
theorem test_loam_link : (after (.loamLinkUp 23 5) base).any (fun t => (t.loam[(23 : Fin 24)]).peer == 5) = true := by decide +kernel
theorem test_operating_point : (after (.operatingPointChange (.die 7 7)) base).any (fun t => t.corePoints[(7 : Fin 8)] == 7) = true := by decide +kernel

theorem witness_LinksAndPoints :
    (base.cxl[(0 : Fin 8)]).down = false ∧ (base.cxl[(0 : Fin 8)]).unavailable = false ∧ base.switching = false
    ∧ base.stackPoints[(0 : Fin 32)] < (1 : BitVec 2) ∧ base.coresLowered = false
    ∧ ({ base with corePoints := base.corePoints.set 7 1 } : State).coresLowered = true
    ∧ (7 : BitVec 3) ≤ base.ceilings[(7 : Fin 8)] ∧ (arming false 5).switching = true
    ∧ (let s := { base with ceilings := Vector.replicate 8 0 }; ∀ d : Fin 8, s.corePoints[d] = s.ceilings[d])
    ∧ (let s := { base with cxl := base.cxl.set 0 ⟨true, false, []⟩ }; (s.cxl[(0 : Fin 8)]).down = true) := by decide +kernel

/-- A migration of the 64 KiB page at 0x50000 to 0x60000, at block `n`. -/
def migrating (n : Nat) : State :=
  { (poke 0x50000 4 0x11223344 base) with migration := some ⟨0, 1, 0x50000, 0x10000, 3, 0x50000, 0x60000, n, []⟩ }

theorem test_migration_copies_a_block : (after (.migration 0 0x50000 0x60000) (migrating 0)).any
    (fun t => leNat (t.mem.read 0x60000 4) == 0x11223344 && t.migration.any fun m => m.next == 1) = true := by decide +kernel
theorem test_migration_ends : (after (.migration 0 0x50000 0x60000) (migrating 128)).any
    (fun t => t.migration.isNone && leNat (t.mem.read 0x10000 8) == identityLeaf + 0x60000) = true := by decide +kernel

theorem witness_Migrations :
    (migrating 127).migration.any (fun m => !(migrating 127).usesOld m.purge (fun a => !a.place.mig) && decide (m.next * 512 < levelSize m.level)
      && (migrating 127).bad.isEmpty && (migrating 127).poison.isEmpty
      && (let src := m.old + 512 * m.next; let dst := m.new + 512 * m.next
        (migrating 127).mayReach migrationMaster .r src && (migrating 127).mayReach migrationMaster .w dst && !(migrating 127).physFails src
          && !(migrating 127).physFails dst && decide (src + 512 ≤ physTop) && decide (dst + 512 ≤ physTop))) = true
    ∧ (migrating 128).migration.any (fun m => !(migrating 128).usesOld m.purge (fun a => !a.place.mig) && decide (levelSize m.level ≤ m.next * 512)
      && m.stalled.isEmpty && decide (m.entry + 8 ≤ physTop)) = true := by decide +kernel

/-! ## Collectives and fencing -/

/-- A broadcast of one chunk to each of two ranks, with these chunks in flight and unacknowledged, at a context time. -/
def sending (inflight unacked : List Chunk) (now : Nat) : State :=
  { withNodes [(0, { fresh .collective with started := true })] with
    collectives := [(5, ⟨0, 0, 0, 0, 4, 2, 0, 2, 0x3A000, 0x3B000, 0x3C000, 2, inflight, unacked, [], false, [], []⟩)]
    ctxs := base.ctxs.set 0 (some { Context.placed with time := now }) }

/-- The chunk for the own rank is moved locally when it is acknowledged (R330). -/
theorem test_chunk_ack : (after (.collectiveChunkAck 0 0 false) (poke 0x3A000 4 0x11223344 (sending [⟨0, 0, 0⟩] [] 5))).any
    (fun t => t.collectives.all (fun c => c.2.inflight.isEmpty) && leNat (t.mem.read 0x3B000 4) == 0x11223344) = true := by decide +kernel
theorem test_chunk_resend : (after (.chunkResend 0 1) (sending [] [⟨1, 0, 0⟩] 16000)).any
    (fun t => t.collectives.all fun c => c.2.inflight == [⟨1, 0, 16000⟩]) = true := by decide +kernel
theorem test_collective_give_up : (after (.collectiveGiveUp 0 1) (sending [] [⟨1, 0, 0⟩] 4000000)).any
    (fun t => t.collectives.all fun c => c.2.givenUp && c.2.over) = true := by decide +kernel
theorem test_chunk_receive : (after (.collectiveChunkReceive 1 1 0x30000 [4, 3]) peered).any (fun t => leNat (t.mem.read 0x30000 2) == 0x0304)
    = true := by decide +kernel

theorem witness_CollectivesMoveChunks :
    ((sending [⟨1, 0, 0⟩] [] 15999).collOn 0).any (fun x => x.2.inflight.any (fun y => y.num == 1) && (x.2.chunkAt 1).1 != x.2.rank
      && decide ((sending [⟨1, 0, 0⟩] [] 15999).slotTime x.1 < 0 + 16000)) = true
    ∧ ((sending [] [⟨1, 0, 0⟩] 16000).collOn 0).any (fun x => (x.2.inflight.find? fun y => y.num == 1).isNone
      && (x.2.unacked.find? fun y => y.num == 1).isSome && decide (0 + 16000 ≤ (sending [] [⟨1, 0, 0⟩] 16000).slotTime x.1) && !x.2.givenUp
      && decide (x.2.inflight.length < 64)) = true ∧ (sending [] [⟨1, 0, 0⟩] 16000).switching = false
    ∧ ((sending [] [⟨1, 0, 0⟩] 4000000).collOn 0).any (fun x => ((x.2.unacked ++ x.2.again ++ x.2.inflight).find? fun y => y.num == 1).isSome
      && decide (0 + 4000000 ≤ (sending [] [⟨1, 0, 0⟩] 4000000).slotTime x.1)) = true
    ∧ peered.running = some 0 ∧ (peered.ctxs[(0 : Fin 8)]).any (fun c => c.key == 1 && c.key != 2) = true
    ∧ okWith (peered.translate 0 16385 0 .w (BitVec.ofNat 64 0x30000)) (fun _ p => !p.mig && p.tier ≤ 1) = true ∧ peered.switching = false := by decide +kernel
/-- The chunk of the broadcast for its own rank, whose table of ranks cannot be read. -/
def noRanks : Collective := ⟨0, 0, 0, 0, 4, 2, 0, 2, 0x3A000, 0x3B000, 2 ^ 55, 2, [⟨1, 0, 0⟩], [], [], false, [], []⟩

theorem witness_CollectivesMoveChunks_links :
    (((sending [⟨1, 0, 0⟩] [] 5).ranksUp 0 noRanks (noRanks.partners 1)).2 = false)
    ∧ (((sending [⟨0, 0, 0⟩] [] 5).ranksUp 0 noRanks (noRanks.partners 0)).2 = true)
    ∧ (noRanks.chunkAt 0).1 = noRanks.rank ∧ (noRanks.chunkAt 1).1 ≠ noRanks.rank := by decide +kernel
theorem witness_CollectivesMoveChunks_begun : ({ noRanks with moved := [noRanks.unitKey 0 0x3B000] } : Collective).begun 0 = true
    ∧ noRanks.begun 0 = false ∧ ({ noRanks with fetched := [(noRanks.unitKey 1 0x3A000, [0, 0, 0, 0])] } : Collective).toRead 1 = [] := by decide +kernel

/-- 4,096 core clocks of die 0 after reset. -/
def clocked : State := { base with dieClk := base.dieClk.set 0 655360 }

/-- The same with a beat on its way to core `c` from direction `d`. -/
def beaten (c : Nat) (d : Dir) (p : BitVec 128) : State :=
  clocked.modFence c fun g => { g with inbox := g.inbox.set (dirIx d) [p] }

theorem test_heartbeat_send : (after (.heartbeatSend 17) clocked).any (fun t => (t.coreFence 17).seq == 1 && (t.coreFence 17).beatAt == 4096)
    = true := by decide +kernel
/-- R428: the beat of core 18 reaches core 17 from the east. -/
theorem test_heartbeat_receive : (after (.heartbeatReceive 17 .e (clocked.beatOf 18)) (beaten 17 .e (clocked.beatOf 18))).any (fun t => (watchOf t 17 .e).lastSeq == some 0
    && (watchOf t 17 .e).vote == .none) = true := by decide +kernel
theorem test_heartbeat_babble : (after (.heartbeatReceive 17 .e 0) clocked).any (fun t => (watchOf t 17 .e).vote == .babble) = true := by
  decide +kernel
theorem test_heartbeat_miss : (after (.heartbeatMiss 17 .e) clocked).any (fun t => (watchOf t 17 .e).miss == 1) = true := by decide +kernel

/-- Core 17 holds a vote against core 18 with `n` periods left. -/
def voting (n : Nat) : State :=
  { clocked with cores := [(17, { CoreFence.fresh with watch := CoreFence.fresh.watch.set 1 { Watch.fresh with vote := .silent, left := n } })] }

theorem test_vote_period : (after (.votePeriod 17) (voting 2)).any (fun t => (watchOf t 17 .e).left == 1) = true := by decide +kernel

theorem witness_HeartbeatsAreWatched :
    clocked.isLive 17 = true ∧ (clocked.coreFence 17).beatAt + 4096 ≤ clocked.clkOf 17 ∧ neighbour 17 .e = some 18
    ∧ clocked.unjudged 18 = false ∧ (beaten 17 .e (clocked.beatOf 18)).mayArrive 17 .e 18 (clocked.beatOf 18) = true
    ∧ clocked.mayArrive 17 .e 18 0 = true ∧ clocked.mayArrive 17 .e 18 (clocked.beatOf 18) = false ∧ (clocked.coreFence 18).state = .inService ∧ (clocked.coreFence 17).mayVote = true
    ∧ beatOk (clocked.beatOf 18) 18 (watchOf clocked 17 .e).lastSeq = true ∧ (watchOf clocked 17 .e).lastClk = none
    ∧ Quiet (clocked.modFence 17 fun g => { g with watch := g.watch.set (dirIx .e) (Watch.accept (clocked.beatOf 18) (clocked.clkOf 17) false
        (watchOf clocked 17 .e)) })
    ∧ beatOk 0 18 (watchOf clocked 17 .e).lastSeq = false
    ∧ Quiet (clocked.modFence 17 fun g => { g with watch := g.watch.set (dirIx .e) (Watch.accuse .babble (watchOf clocked 17 .e)) })
    ∧ (clocked.coreFence 18).holder = none
    ∧ (watchOf clocked 17 .e).since + 4096 * ((watchOf clocked 17 .e).miss + 1) ≤ clocked.clkOf 17 ∧ (watchOf clocked 17 .e).vote = .none
    ∧ Quiet (clocked.modFence 17 fun g => { g with watch := g.watch.set (dirIx .e) (Watch.missed true (watchOf clocked 17 .e)) })
    ∧ ((voting 2).coreFence 17).periodAt + 4096 ≤ (voting 2).clkOf 17 ∧ (voting 2).isLive 17 = true
    ∧ Quiet ((voting 2).modFence 17 fun g => { g with periodAt := (voting 2).clkOf 17, appealLeft := g.appealLeft - 1,
                                                      watch := Vector.ofFn fun i => (g.watch[i]).period }) := by
  simp only [Quiet]; decide +kernel
/-- Core 17 has had a beat of core 18 at this very clock. -/
def beatenTwice : State := (beaten 17 .e (clocked.beatOf 18)).modFence 17 fun g => { g with
  watch := g.watch.set (dirIx .e) (seen (g.watch[dirIx .e])) }
where
  seen (w : Watch) : Watch := { w with lastClk := some (clocked.clkOf 17) }

theorem witness_HeartbeatsAreWatched_early : (watchOf beatenTwice 17 .e).lastClk.elim false (fun t => decide (beatenTwice.clkOf 17 < t + 1024)) = true
    ∧ beatOk (clocked.beatOf 18) 18 (watchOf beatenTwice 17 .e).lastSeq = true ∧ beatenTwice.mayArrive 17 .e 18 (clocked.beatOf 18) = true
    ∧ (beatenTwice.coreFence 17).mayVote = true
    ∧ Quiet ((beatenTwice.arrived 17 .e (clocked.beatOf 18)).modFence 17 fun g => { g with
        watch := g.watch.set (dirIx .e) ((Watch.babbled true (clocked.beatOf 18) (beatenTwice.clkOf 17) (watchOf beatenTwice 17 .e)).accuse .babble) })
    ∧ Quiet (voting 2) ∧ NoAppeals (voting 2) := by simp only [Quiet, NoAppeals]; decide +kernel

/-- Core 17 in a state. -/
def core17 (st : CoreState) : State := { base with cores := [(17, { CoreFence.fresh with state := st })] }

/-- Corner core 0 has one live neighbour, core 1, whose vote against it has stood for `n` periods. -/
def corner (n : Nat) : State :=
  { base with cores := [(16, { CoreFence.fresh with state := .removed }),
      (1, { CoreFence.fresh with watch := CoreFence.fresh.watch.set 3 { Watch.fresh with vote := .silent, left := 5, soleFor := n } })] }

theorem test_router_reset : (after (.routerReset 17) (core17 .fenced)).any (fun t => (t.coreFence 17).routerOff) = true := by decide +kernel
theorem test_appeal_timeout : (after (.appealTimeout 17) (core17 .appealing)).any (fun t => (t.coreFence 17).state == .fenced
    && t.journal.map (·.detail) == [0x40011]) = true := by decide +kernel
theorem test_solitary_suspect : (after (.solitarySuspect 0) (corner 16)).any (fun t => t.journal.map (·.detail) == [0x60000]
    && t.msix == [0, 3]) = true := by decide +kernel

theorem witness_CoresAreFenced :
    (base.coreFence 17).state = .inService ∧ base.recentFences (base.coreFence 17) < 2
    ∧ (core17 .fenced).isLive 17 = false ∧ ((core17 .fenced).coreFence 17).routerOff = false
    ∧ Quiet ((core17 .appealing).fenceCore 17) ∧ Quiet ((corner 1000).removeCore 0) ∧ Quiet base
    ∧ ((core17 .appealing).coreFence 17).state = .appealing ∧ ((core17 .appealing).coreFence 17).appealLeft = 0
    ∧ ((corner 16).voters 0).map (fun y => (y.2, (watchOf (corner 16) y.2 (dirFlip y.1)).soleFor)) = [(1, 16)]
    ∧ ((corner 999).voters 0).map (fun y => (y.2, (watchOf (corner 999) y.2 (dirFlip y.1)).soleFor)) = [(1, 999)]
    ∧ ((corner 1000).voters 0).map (fun y => (y.2, (watchOf (corner 1000) y.2 (dirFlip y.1)).soleFor)) = [(1, 1000)]
    ∧ ((corner 16).coreFence 0).state = .inService ∧ ((corner 16).liveNeighbours 0).length < 2
    ∧ ((corner 1000).coreFence 0).state = .inService ∧ ((corner 1000).liveNeighbours 0).length < 2 := by
  simp only [Quiet]; decide +kernel
theorem witness_CoresAreFenced_no_appeals : NoAppeals ((core17 .appealing).fenceCore 17) ∧ NoAppeals { base with agenda := [.tick 7] } := by
  simp only [NoAppeals]; decide +kernel

/-! ## Codes -/

/-- The published first bytes of SHAKE256 of the empty string: 46 b9 dd 2b 0b a8 8d 13. -/
theorem test_shake256_of_nothing : (shake256 []).toNat % 2 ^ 64 = 0x138DA80B2BDDB946 := by decide +kernel
/-- R97: the generator has degree 208, and the check bits of a block are those that a division apart from this model gives. -/
theorem test_bch_generator : bchGenerator / 2 ^ 208 = 1 := by decide +kernel
theorem test_sidecar : sidecar ((List.range 512).map fun k => BitVec.ofNat 8 (k * 7 + 3)) true =
    1620243655698529435609332522246962561930334133459921261683865279#256 := by decide +kernel

/-! ## Arrays -/

/-- A running instance of one context on stack 5. -/
def running5 (c : ImgCtx) (units : Tab UnitSt) : Inst :=
  { inst5 with state := .running, img := some ⟨1, 0xFFFF, 0, [c]⟩, units := units }

/-- A module with this one instance, number 9, whose node may hold one slab. -/
def withInst (i : Inst) : State :=
  { (base.modNode 0 fun n => { n with eff := { n.eff with slabs := 1 } }) with insts := [(9, i)] }

/-- The instance after a device step. -/
def instAfter (i : Instr) (s : State) (p : Inst → Bool) : Bool := ((after i s).bind fun t => tget t.insts 9).any p

/-- Bytes at 0x40000 in the configuration cache of stack 5. -/
def imaged (bs : List Byte) (s : State) : State := { s with cache := [⟨5, 1, 0x40000, bs⟩] }

/-- An image of one slab with one empty context (R309). -/
def emptyImage : List Byte := leBytes 64 (64 * 2 ^ 32 + 0x4400FFFF)

theorem test_instance_start : instAfter (.decoftInstanceStart 9) (imaged emptyImage (withInst inst5)) (fun i => i.state == .running && i.slabs == 1) = true := by
  decide +kernel
theorem test_instance_start_without_an_image : instAfter (.decoftInstanceStart 9) (imaged [] (withInst inst5)) (fun i => i.faulted && i.cause == 0x01) = true := by
  decide +kernel

/-- The premises of the start of an instance. -/
def instStarts (s : State) (p : State → Option Image → Bool) : Bool := (tget s.insts 9).any fun i => s.onTurn i.slot
  && s.firstQueued i.slot i.stack == some 9 && (tget s.nodes i.node).elim true (fun x => !s.barred i.node x)
  && match s.imageBytes i with
    | (s1, some bs) => (tget s1.insts 9).isSome && p s1 (imageOf bs i.param)
    | _ => false

theorem witness_InstancesStart :
    instStarts (imaged [] (withInst inst5)) (fun _ m => m.isNone) = true
    ∧ instStarts (imaged emptyImage (withInst inst5)) (fun s1 m => m.any fun x => s1.freeRun 0 5 x.slabs == some 0 && s1.slabsAllowed 0 x.slabs
      && !(x.claims.any fun b => s1.bankTaken 0 5 (8 * 0 + b))) = true := by decide +kernel

/-- An instance whose one unit has nothing left to do. -/
def idle : Inst := running5 ⟨[], [], [], [], [], []⟩ [(0, UnitSt.fresh)]

theorem test_instance_complete : instAfter (.instanceComplete 9) (withInst idle) (fun i => i.statWord == 2) = true := by decide +kernel
theorem test_instance_abort : instAfter (.instanceComplete 9) (withInst { idle with aborted := true }) (fun i => i.statWord == 6) = true := by
  decide +kernel

theorem witness_InstancesEnd : (withInst idle).onTurn idle.slot = true ∧ idle.ending = some 0
    ∧ ({ idle with aborted := true } : Inst).ending = some 1 ∧ ({ idle with faulted := true } : Inst).ending = some 2
    ∧ ({ idle with faulted := true } : Inst).stuck = true ∧ idle.complete = true := by decide +kernel
theorem witness_InstancesEnd_pages : (withInst idle).pageMoves idle.slot (idle.param.toNat + 64 * idle.stack) 64 = false
    ∧ (withInst idle).pageMoves idle.slot idle.barrier.toNat 8 = false := by decide +kernel

/-- An FU that subtracts 2 from the elements of its input 0 (R294, R298), from unit 1 to unit 2. -/
def subtractor (q transit : List Token) : Inst :=
  { running5 ⟨[⟨[0x2808610000000000], [2], [0], 0, 1, 1⟩], [⟨1, 0, 1, 0, 0, 0⟩, ⟨2, 0, 0, 0, 2, 0⟩], [], [], [], []⟩
      [(0, UnitSt.fresh), (1, UnitSt.fresh)] with chans := [(0, { Chan.fresh 1 1 with transit := transit, ins := [{ Intake.fresh with queue := q }] })] }

theorem test_fu_fire : instAfter (.fuFire 9 0) (withInst (subtractor [{ dataToken 0 [7, 1] with route := 1 }] [])) (fun i =>
    (i.chan 1).transit.map (fun t => (t.valid 0, t.route)) == [([5, 0xFFFFFFFF], 2)] && ((i.chan 0).intake 0).queue.isEmpty) = true := by decide +kernel

theorem witness_UnitsFire :
    (withInst (subtractor [] [])).runs (subtractor [] []) = true
    ∧ (let i := subtractor [dataToken 0 [7, 1]] []; (i.answer 0).absorb 0 = i)
    ∧ (let i := subtractor [{ dataToken 0 [7, 1] with route := 1 }] []; (i.firing 0).any (fun x => i.live 0 && i.accepts 0 x.e.outs
      && i.inputError 0 == none && !x.st.upset && !i.finished 0 x.st && (tget i.bankWork 0).isNone
      && !x.st.branch && x.e.bk != 2 && decide (x.e.op < 0x1A)
      && (x.heads x.e.pins).any fun hs => !hs.isEmpty && hs.all fun h => h.2.kind == 0) = true)
    ∧ ((2 : Nat) ≤ 2 ∧ (List.replicate 32 255).length ≤ elCount 2) := by
  refine ⟨by decide, rfl, by decide +kernel, by decide⟩
/-- A token of a wrong route at the subtractor's input. -/
theorem witness_UnitsFire_damaged : (let i := subtractor [{ dataToken 0 [7, 1] with route := 3 }] []
    i.live 0 = true ∧ i.inputError 0 = some 0x03) := by decide +kernel

/-- The token on the first route of the subtractor. -/
def onRoute1 (xs : List Nat) (r : BitVec 6) : Token := { dataToken 0 xs with route := r }

theorem test_token_transit : instAfter (.tokenTransit 9 0) (withInst (subtractor [] [onRoute1 [7] 1])) (fun i =>
    ((i.chan 0).intake 0).queue.length == 1 && (i.chan 0).transit.isEmpty) = true := by decide +kernel
theorem test_token_of_a_wrong_route : instAfter (.tokenTransit 9 0) (withInst (subtractor [] [onRoute1 [7] 3])) (fun i => i.replays == 1) = true := by
  decide +kernel

theorem witness_TokensArrive : ∀ r ∈ [(1 : BitVec 6), 3],
    (let i := subtractor [] [onRoute1 [7] r]; (withInst i).runs i = true ∧ (i.routeAt 0).isSome = true ∧ (i.chan 0).transit.isEmpty = false
      ∧ i.live 0 = true ∧ 0 < (i.chan 0).ins.length ∧ ((i.routeAt 0).any fun x => (onRoute1 [7] r).error x.rid == if r = 1 then none else some 0x03) = true) := by
  decide +kernel

/-- Unit 0 asks bank 0 for a word. -/
def asking (op : BankOp) (word : Nat) : Inst :=
  { subtractor [] [] with bankWork := [(0, [⟨[(⟨0, word, op, 5⟩, none)], 1⟩])], banksHeld := [(0, 63)] }

theorem witness_BanksServe : ∀ op ∈ [BankOp.read, .write, .sadd],
    (let i := asking op 0x7FFF; (withInst i).placed i = true ∧ i.asking 0 = [0] ∧ i.bankTurn 0 = some 0
      ∧ ((i.bankQueue 0).find? fun q => q.bank == 0) = some ⟨0, 0x7FFF, op, 5⟩
      ∧ (i.banksHeld.find? fun b => b.1 == 0) = some (0, 63) ∧ clean (withInst i) = true) := by
  decide +kernel

/-- Port 0 of an instance with one access pattern, fed by unit 0. -/
def porting (a : Apr) (st : PortSt) (q0 q1 : List Token) : Inst :=
  { running5 ⟨[], [⟨1, 0, 0, 0, 512, 0⟩, ⟨2, 0, 0, 1, 512, 1⟩], [], [a], [], []⟩ [(512, UnitSt.fresh)] with
    ports := [(512, st)], chans := [(0, { Chan.fresh 1 1 with ins := [{ Intake.fresh with queue := q0 }] }),
                                  (1, { Chan.fresh 1 1 with ins := [{ Intake.fresh with queue := q1 }] })] }

/-- Four words from 0x30000 on (R308), read or written. -/
def words4 (wr : Bool) : Apr := ⟨if wr then 0x300000 else 0x100000, 0, 0x30000, 0, 0, 0, [0x0000000300000004, 0, 0, 0]⟩
/-- A scatter-add to words from 0x30000 on. -/
def scatter : Apr := ⟨0x100004, 0x01000000, 0x30000, 4, 0, 0, [0, 0, 0, 0]⟩

def reading : Inst := porting (words4 false) (PortSt.start (words4 false) 0) [] []
def writing : Inst := porting (words4 true) { PortSt.start (words4 true) 0 with buf := [1, 2] } [] []
def returning : Inst := porting (words4 false) { PortSt.start (words4 false) 0 with items := [.read 0x30000 2 4 none] } [] []
def marked (l0 l1 : BitVec 4) : Inst := porting scatter (PortSt.start scatter 0) [{ endToken l0 with route := 1 }] [{ endToken l1 with route := 2 }]

theorem test_scatter_markers_differ : instAfter (.scatterAddBatch 9 0) (withInst (marked 1 3)) (fun i => i.faulted && i.cause == 0x0B) = true := by
  decide +kernel

theorem reading_acts : PortActs (withInst reading) 9 0 reading (words4 false) (PortSt.start (words4 false) 0) :=
  ⟨rfl, by decide, rfl, rfl, rfl, rfl, by decide +kernel, by decide +kernel⟩
theorem writing_acts : PortActs (withInst writing) 9 0 writing (words4 true) { PortSt.start (words4 true) 0 with buf := [1, 2] } :=
  ⟨rfl, by decide, rfl, rfl, rfl, rfl, by decide +kernel, by decide +kernel⟩
theorem returning_acts : PortActs (withInst returning) 9 0 returning (words4 false)
    { PortSt.start (words4 false) 0 with items := [.read 0x30000 2 4 none] } :=
  ⟨rfl, by decide, rfl, rfl, rfl, rfl, by decide +kernel, by decide +kernel⟩
theorem marked_acts (l : Bool) : PortActs (withInst (marked 1 (if l then 1 else 3))) 9 0 (marked 1 (if l then 1 else 3)) scatter (PortSt.start scatter 0) := by
  cases l <;> exact ⟨rfl, by decide, rfl, rfl, rfl, rfl, by decide +kernel, by decide +kernel⟩

theorem witness_PortsAct :
    (let x : Port := ⟨9, 512, reading, words4 false, PortSt.start (words4 false) 0⟩
     (x.st.iter < iterations x.a.counts ∧ (x.addrAt x.st.iter).toNat % x.a.size = 0)
      ∧ reading.generatorHeld 512 = false
      ∧ okWith ((withInst reading).portPlace reading .r (x.addrAt x.st.iter)) (fun s1 _ => clean s1) = true)
    ∧ (let x : Port := ⟨9, 512, writing, words4 true, { PortSt.start (words4 true) 0 with buf := [1, 2] }⟩
      okWith ((withInst writing).portPlace writing .w (x.addrAt x.st.iter)) (fun s1 p => !p.mig && decide (p.loc + 64 ≤ physTop) && clean s1
        && decide (((x.st.buf.take (min x.st.buf.length (max 1 (x.runAt x.st.iter)))).flatMap (leBytes x.a.size)).length ≤ 64)) = true)
    ∧ (tget returning.units 512).any (fun u => u.select.isNone) = true ∧ clean (withInst returning) = true
    ∧ (let x : Port := ⟨9, 512, returning, words4 false, PortSt.start (words4 false) 0⟩
       (unpackN 4 2 ((withInst returning).bytesAt 0x30000 8)).length < 2 * elCount x.width ∧ returning.accepts 512 [0] = true)
    ∧ ((marked 1 1).head 512 0).any (fun t => t.kind == 1 && t.lev == 1) = true
    ∧ ((marked 1 1).head 512 1).any (fun t => t.kind == 1 && t.lev == 1) = true
    ∧ ((marked 1 3).head 512 1).any (fun t => t.kind == 1 && t.lev == 3) = true
    ∧ Port.heldUp ⟨9, 512, marked 1 1, scatter, PortSt.start scatter 0⟩ 1 = false := by decide +kernel

/-! ## The machine as a whole -/

/-- The add that is placed (R138) is what the first step executes. -/
theorem test_step_runs_the_placed_word : (match step (State.reset.withFetchWord 32 0x00004103) with
    | .next t => (tget t.warps 3).any fun w => w.pc == 0x20004
    | _ => false) = true := by decide +kernel

theorem witness_StepRunsTheDecodedInstruction :
    (let s := State.reset.withFetchWord 32 0x00004103
     let t : State := { s with agenda := [], agent := .warp 3 }
     s.agenda = [.issue 3] ∧ (tget s.warps 3).any (fun w => s.mayAct w && w.pc == 0x20000 && w.wait.isNone && (sliceFault w).isNone
      && !heldBy 3 w false 0x00004103 0 && (dueOf w false 0x00004103 0).isNone
      && match t.fetchWord w 0x20000 with
        | (.ok w0, _) => w0 == 0x00004103 && !hasExt (w0.toNat / 0x1000000) && !hasLit w0.toNat 0
        | _ => false) = true
      ∧ (match decode (wordsInRow 0x00004103 0 0) with
        | .ok (.iadd _, 1) => true
        | _ => false) = true)
    ∧ (sliceBase id).mayAct (Warp.placed 0 1 2 0x20000) = true ∧ ((tget (sliceBase id).warps 3).bind (·.slice)).any (fun y => !y.stopped
      && y.fault.isNone && y.pc == 0x20000) = true
    ∧ Instr.isDevice .gangSwitch = true
    ∧ okWith (base.translate 0 0 0 .x 0x20000) (fun s1 p => p.tier == 0 && !p.ce && s1.bad.isEmpty && s1.poison.isEmpty) = true := by
  decide +kernel

theorem witness_TicksMoveTime : ({ base with agenda := [.tick 7] } : State).agenda = .tick 7 :: []
    ∧ Quiet { base with agenda := [.tick 7] } := by simp only [Quiet]; decide +kernel
theorem test_tick : (match step { base with agenda := [.tick 7] } with
    | .next t => t.gtime == 7 && (t.ctxs[(0 : Fin 8)]).any fun c => c.time == 7
    | _ => false) = true := by decide +kernel

theorem witness_DecodeUndoesEncode : Instr.isDevice (.iadd fa) = false ∧ WellFormed (.iadd fa) := by decide +kernel
theorem witness_EncodeUndoesDecode : (match decode [0x3000417F, 0x3FC00000] with
    | .ok (i, 2) => i.lit != 0
    | _ => false) = true := by decide +kernel
theorem witness_EveryStepKeepsTheInvariant : Inv (State.reset.withFetchWord 32 0x00004103) := by
  refine ⟨by decide, by decide⟩

end Sys2Proof.Tests
end

section
/-! PROOF. The module at reset: what the manual gives it, and its invariant (R8, R317). -/

namespace Sys2Proof.Machine

/-! ## Tables that reset leaves empty -/

/-- A target's entry that ACCESS has never written and is not writing is the one of reset, which the master's class gives (R340). -/
theorem State.accessEntry_unwritten {s : State} {target master : Nat} (ht : tget s.access (target * 65536 + master) = none)
    (hn : s.accessNew = none) :
    s.accessEntry target master = if master / 16384 = 0 ∨ master / 16384 = 2 then 0x0000FF0F else 0 := by
  simp [State.accessEntry, ht, hn]

/-- A core that nothing has been noted about, and that the logical core map names, is in service (R438; log 10). -/
theorem State.coreFence_unmentioned {s : State} {c : Nat} (ht : tget s.cores c = none) (hm : s.outOfMap.contains c = false) :
    s.coreFence c = CoreFence.fresh := by
  rw [State.coreFence, ht, hm]; rfl

/-- A shape register that has not been written reads its reset value (R243). -/
theorem State.shapeOf_unwritten {s : State} {part pt t : Nat} (h : tget s.tshape (tshapeKey part pt t) = none) :
    s.shapeOf part pt t = 0x00800020 := by
  rw [State.shapeOf, h]; rfl

/-! ## Reset -/

/-- Settles O57: the fields are written out in `State.reset`, and its tables of access entries, cores and shapes are empty. -/
theorem resetValues : Obligations.ResetValues := by
  unfold Obligations.ResetValues
  refine ⟨fun k => ?_, rfl, rfl, rfl, rfl, rfl, fun w n => ?_, fun m => ?_, fun target master _ _ => ?_, rfl, fun d => ?_, fun d => ?_,
    fun part pt t => State.shapeOf_unwritten rfl, fun c => ?_, rfl⟩
  · exact Vector.getElem_replicate _
  · exact (congrArg (·[n]) (Vector.getElem_replicate _)).trans (Vector.getElem_replicate _)
  · exact Vector.getElem_replicate _
  · exact State.accessEntry_unwritten rfl rfl
  · exact Vector.getElem_replicate _
  · exact Vector.getElem_replicate _
  · exact congrArg CoreFence.state (State.coreFence_unmentioned rfl rfl)

/-- Settles O58: nothing is listed in memory at reset, and the journal is empty. -/
theorem invariantAtReset : Obligations.InvariantAtReset := ⟨rfl, Nat.zero_le 2048⟩

end Sys2Proof.Machine
end

section
/-! SUPPORT. The registers of BAR0, one law for each kind of access (R314, R333). -/

namespace Sys2Proof.Machine

/-! ## Words and bytes -/

theorem bytesOfWord_eq_leBytes (w : Word) : bytesOfWord w = leBytes 4 w.toNat := by
  have byte : ∀ k, BitVec.extractLsb' (8 * k) 8 w = BitVec.ofNat 8 (w.toNat / 256 ^ k) := by
    intro k
    apply BitVec.eq_of_toNat_eq
    rw [BitVec.extractLsb'_toNat, BitVec.toNat_ofNat, Nat.shiftRight_eq_div_pow, Nat.pow_mul]
  simpa [bytesOfWord, leBytes, Nat.div_div_eq_div_mul] using And.intro (byte 0) ⟨byte 1, byte 2, byte 3⟩

/-! ## Offsets of window words -/

/-- The offset of word `n` of window `w` names that window and that word (R314). -/
theorem windowOffset_fields (w n : Fin 16) : (64 * w.val + 4 * n.val) % 4 = 0 ∧ 64 * w.val + 4 * n.val < 0x400
    ∧ Fin.ofNat 16 ((64 * w.val + 4 * n.val) / 64) = w ∧ (64 * w.val + 4 * n.val) % 64 / 4 = n.val := by
  refine ⟨by omega, by omega, Fin.ext ?_, by omega⟩
  rw [Fin.val_ofNat]
  omega

/-! ## Writes -/

/-- A write to one of the words 0 to 13 of a window takes effect unless the window is busy (R314). -/
theorem registerWrite_window {s : State} (hb : s.booted = true) (w : Fin 16) (n : Fin 14) (v : Word) :
    registerWrite (64 * w.val + 4 * n.val) v s =
      if s.busyWindow w then s else { s with windows := s.windows.set w ((s.windows[w]).setIfInBounds n.val v) } := by
  obtain ⟨h4, hlt, hw, hn⟩ := windowOffset_fields w (n.castLE (by omega))
  simp only [Fin.val_castLE] at h4 hlt hw hn
  unfold registerWrite
  simp only [hb, h4, hlt, hw, hn, n.isLt]
  cases s.busyWindow w <;> rfl

/-- A write of WBASE takes effect unless a write of the host is stalled (R122, R124, R333). -/
theorem registerWrite_wbase {s : State} (hb : s.booted = true) (v : Word) :
    registerWrite 0x1014 v s = if s.hostStalled then s else { s with wbase := v.setWidth 20 } := by
  unfold registerWrite
  simp only [hb]
  cases s.hostStalled <;> rfl

/-! ## Reads -/

theorem State.hasRegister_booted {s : State} (hb : s.booted = true) (off : Nat) :
    s.hasRegister off = true ↔ off < 0x400 ∨ 0x1000 ≤ off ∧ off < 0x1018 := by
  simp [State.hasRegister, hb]

theorem State.registerRead_register {s : State} {off : Nat} (h4 : off % 4 = 0) (hr : s.hasRegister off = true) :
    s.registerRead off = { s with reply := .data (leBytes 4 (s.registerAt off).toNat) false } := by
  unfold State.registerRead
  rw [hr, ← bytesOfWord_eq_leBytes, if_pos (by simp [h4])]

theorem State.registerRead_outside {s : State} {off : Nat} (hr : s.hasRegister off = false) :
    s.registerRead off = { s with reply := .unsupported } := by
  unfold State.registerRead
  rw [hr, if_neg (by simp)]

/-- Word 14 of a window is write-only; every other word reads as it stands (R8, R314). -/
theorem State.registerAt_window {s : State} (hb : s.booted = true) (w n : Fin 16) :
    s.registerAt (64 * w.val + 4 * n.val) = if n = 14 then 0 else (s.windows[w])[n] := by
  obtain ⟨-, hlt, hw, hn⟩ := windowOffset_fields w n
  have hn14 : n.val = 14 ↔ n = 14 := by omega
  unfold State.registerAt
  simp only [hb, hlt, hw, hn, hn14, Bool.not_true, Bool.false_eq_true, if_false, if_true]
  rw [Vector.getElem?_eq_getElem n.isLt]
  rfl

/-- The upper half of WBASE holds its window number (R333). -/
theorem State.registerAt_wbase {s : State} (hb : s.booted = true) : (s.registerAt 0x1014).toNat = s.wbase.toNat := by
  have hlt := s.wbase.isLt
  simp only [State.registerAt, hb]
  norm_num
  omega

/-- UNSUPPORTED_REQUEST: an offset outside every register is refused, and one of a register is not its business (R23). -/
theorem unsupportedRequest_booted {s : State} (hb : s.booted = true) (off : Nat) :
    unsupportedRequest off s = if off < 0x400 ∨ (0x1000 ≤ off ∧ off < 0x1018) then s else { s with reply := .unsupported } := by
  unfold unsupportedRequest
  have hr := State.hasRegister_booted hb off
  by_cases h : s.hasRegister off = true
  · rw [if_pos h, if_pos (hr.mp h)]
  · rw [if_neg h, if_neg (mt hr.mpr h), State.registerRead_outside (by simpa using h)]

end Sys2Proof.Machine
end

section
/-! SUPPORT. Requests at a physical address (R22, R333, R395): what they leave in clean memory, and which of them fail. -/

namespace Sys2Proof.Machine

/-! ## Requests at an MSC -/

/-- Requests at MSCs and ports change no more than one of them does. -/
@[simp] theorem State.mscRequests_aside (s : State) (pa n : Nat) : (s.mscRequests pa n).aside = s.aside :=
  foldl_aside State.mscRequest_aside _ _

theorem Clean.tallied {s : State} (hc : Clean s) (k : Nat) (cs : Tab DWord) (m : Tab (BitVec 512)) : Clean (s.tallied k cs m) :=
  ⟨hc.words, hc.blocks, hc.bits, hc.counts⟩

/-- In clean memory, any number of requests at MSCs change only what they tally. -/
theorem State.mscRequests_clean {s : State} (hc : Clean s) (pa n : Nat) : ∃ k cs m, s.mscRequests pa n = s.tallied k cs m := by
  unfold State.mscRequests
  generalize blocksOf pa (max n 1) = l
  induction l generalizing s with
  | nil => exact ⟨_, _, _, rfl⟩
  | cons b r ih =>
    obtain ⟨k, cs, m, e⟩ := State.mscRequest_nil hc.counts hc.bits hc.words b
    rw [List.foldl_cons, e]
    obtain ⟨k2, cs2, m2, e2⟩ := ih (hc.tallied k cs m)
    exact ⟨k2, cs2, m2, e2⟩

/-- Reading bytes does not see what requests tally. -/
theorem State.bytesAt_tallied (s : State) (k : Nat) (cs : Tab DWord) (m : Tab (BitVec 512)) (n : Nat) :
    ∀ loc, (s.tallied k cs m).bytesAt loc n = s.bytesAt loc n := by
  induction n with
  | zero => exact fun _ => rfl
  | succ n ih => exact fun loc => congrArg (s.byteAt loc :: ·) (ih (loc + 1))

/-! ## Stacks answer every request -/

/-- A request to a stack travels on no link, so it cannot time out. -/
theorem State.ask_stack (s : State) {pa : Nat} (h : isStack pa = true) : s.ask (physPlace pa) = (physPlace pa, s) := by
  simp [State.ask, physPlace, h]

theorem State.linkFails_stack (s : State) {pa : Nat} (h : isStack pa = true) : s.linkFails (physPlace pa) = (false, s) := by
  simp [State.linkFails, physPlace, h]

theorem State.askPages_stack (s : State) (ps : List Nat) (h : ps.all isStack = true) : s.askPages ps = (s, false) := by
  induction ps with
  | nil => rfl
  | cons p r ih =>
    rw [List.all_cons, Bool.and_eq_true] at h
    unfold State.askPages
    simp only [s.ask_stack h.1, s.linkFails_stack h.1, ih h.2, Bool.or_false]

/-! ## Pages and ports that do not answer -/

/-- A request to a page that its port does not serve is not sent, and fails (R395). -/
theorem State.askPages_failed {s : State} {p : Nat} (h : (s.linkFails (physPlace p)).1 = true) : (s.askPages [p]).2 = true := by
  have e : s.ask (physPlace p) = (physPlace p, s) := by
    unfold State.ask
    rw [if_pos (by simp [h])]
  simp only [State.askPages, e, h, Bool.true_or]

@[simp] theorem State.askPages_aside (ps : List Nat) : ∀ s : State, (s.askPages ps).1.aside = s.aside := by
  induction ps with
  | nil => exact fun _ => rfl
  | cons p r ih => exact fun s => (ih _).trans (s.ask_aside _)

/-- Counting a page's accesses leaves the CXL ports. -/
theorem State.countPage_cxl (s : State) (p : Place) (k : Bool) : (s.countPage p k).cxl = s.cxl := by
  unfold State.countPage
  split
  · rfl
  · simp only [State.postThreshold, apply_ite State.cxl, ite_self]

/-- Requests for a range behind the stacks leave the CXL ports. -/
theorem State.mscRequests_cxl (s : State) {pa : Nat} (n : Nat) (h : isStack pa = false) : (s.mscRequests pa n).cxl = s.cxl := by
  have above : ∀ b ∈ blocksOf pa (max n 1), isStack b = false := by
    intro b hb
    obtain ⟨i, -, rfl⟩ := List.mem_map.mp hb
    simp only [isStack, decide_eq_false_iff_not, not_lt] at h ⊢
    exact le_max_of_le_left h
  unfold State.mscRequests
  generalize blocksOf pa (max n 1) = l at above
  induction l generalizing s with
  | nil => rfl
  | cons b r ih =>
    have hb : isStack b = false := above b (List.mem_cons_self ..)
    rw [List.foldl_cons, ih _ fun x hx => above x (List.mem_cons_of_mem _ hx)]
    simp only [State.mscRequest, hb, Bool.false_eq_true, if_false, State.countPage_cxl]

/-- Whether a request to the capacity tier fails is a matter of its port alone. -/
theorem State.linkFails_of_cxl {s t : State} {pa : Nat} (hs : isStack pa = false) (hc : t.cxl = s.cxl) :
    (t.linkFails (physPlace pa)).1 = (s.linkFails (physPlace pa)).1 := by
  simp only [State.linkFails, physPlace, hs, hc, Bool.false_eq_true, if_false, if_true, Bool.or_self]
  cases capPortOf pa <;> rfl

/-- The first of a range's pages is the one in which the range begins. -/
theorem pagesOf_single {pa n p : Nat} (h : pagesOf pa n = [p]) : p = pa / 65536 * 65536 := by
  unfold pagesOf at h
  obtain ⟨m, hm⟩ : ∃ m, (pa + n - 1) / 65536 + 1 - pa / 65536 = m + 1 := by
    rcases hk : (pa + n - 1) / 65536 + 1 - pa / 65536 with _ | m
    · rw [hk] at h; cases h
    · exact ⟨m, rfl⟩
  rw [hm, List.range_succ_eq_map, List.map_cons] at h
  simpa using (List.cons.inj h).1.symm

/-! ## Writes to clean memory -/

/-- A write below the windows of the on-chip memories, to clean memory, writes its bytes. -/
theorem State.store_clean {s : State} (hc : Clean s) {pa : Nat} {bs : List Byte} (ht : pa + bs.length ≤ physTop) :
    s.store pa bs = ({ s with mem := s.mem.write pa bs } : State).clearMarks pa bs.length := by
  unfold State.store
  rw [State.badIn_nil hc.words, Bool.and_false, if_neg Bool.false_ne_true, State.putBytes_mem bs s pa fun i hi => locReg_phys (by omega)]
  refine State.mergeMarks_nil ?_ ?_ _ _
  exacts [hc.bits, hc.blocks]

/-- A write to a stack, which nothing stalls, to clean memory, writes its bytes. -/
theorem State.physRequest_write {s : State} (hc : Clean s) (hm : s.migration = none) (who : Requester) {pa : Nat} (n : Nat)
    {bs : List Byte} (hs : isStack pa = true) (ht : pa + bs.length ≤ physTop) :
    s.physRequest who pa n (.write bs) = ({ s with mem := s.mem.write pa bs } : State).clearMarks pa bs.length := by
  rw [← State.store_clean hc ht]
  simp only [State.physRequest, hm, State.physPerform, State.physWrite, s.ask_stack hs, s.linkFails_stack hs, Bool.false_eq_true, if_false]

end Sys2Proof.Machine
end

section
/-! PROOF. The host's windows: BAR0 reaches the registers and BAR2 the memory (R23, R314, R333). -/

namespace Sys2Proof.Machine

/-! ## Reads of the memory window -/

/-- A read beyond the window, or of a page that the host may not read, is refused (R23, R333, R339). -/
theorem memoryWindowRead_refused {s : State} {off len : Nat} (h : 2 ^ 32 < off + len
    ∨ (pagesOf (s.windowAddr off) (max len 1)).all (s.mayReach hostMaster .r) = false) :
    memoryWindowRead off len s = { s with reply := .unsupported } := by
  unfold memoryWindowRead
  rw [if_pos]
  rcases h with h | h
  · simp only [h, decide_true, Bool.or_true, Bool.true_or]
  · simp only [h, Bool.not_false, Bool.or_true]

section
variable {s : State} {off len : Nat} (hb : s.booted = true) (hm : s.migration = none) (hl : off + len ≤ 2 ^ 32)
  (hr : (pagesOf (s.windowAddr off) (max len 1)).all (s.mayReach hostMaster .r) = true)
include hb hm hl hr

/-- A read that the host may make, and that waits for no write, is sent to each page (R333). -/
theorem memoryWindowRead_sent : memoryWindowRead off len s =
    let a := (s.mscRequests (s.windowAddr off) len).askPages (pagesOf (s.windowAddr off) (max len 1))
    if a.2 then { a.1 with reply := .completerAbort }
    else
      { a.1.meet (s.windowAddr off) len with
        reply := .data (a.1.bytesAt (s.windowAddr off) len) (a.1.unreadable (s.windowAddr off) len)
        ringUnread := a.1.ringUnread.filter fun k => !ringEntry (s.windowAddr off) len k } := by
  have hbehind : s.behind .host (s.windowAddr off) len false = false := by simp only [State.behind, hm, Option.elim_none]
  unfold memoryWindowRead
  simp only [hb, hr, hbehind, Nat.not_lt.mpr hl, Bool.not_true, decide_false, Bool.or_self, Bool.false_eq_true, if_false]

/-- A read of stacks with clean memory answers their bytes. -/
theorem memoryWindowRead_stack (hs : (pagesOf (s.windowAddr off) (max len 1)).all isStack = true) (hc : Clean s) :
    (memoryWindowRead off len s).reply = .data (s.bytesAt (s.windowAddr off) len) false ∧ (memoryWindowRead off len s).mem = s.mem
      ∧ (memoryWindowRead off len s).warps = s.warps := by
  obtain ⟨k, cs, m, e⟩ := State.mscRequests_clean hc (s.windowAddr off) len
  have hc' := hc.tallied k cs m
  rw [memoryWindowRead_sent hb hm hl hr]
  simp only [e, State.askPages_stack _ _ hs, State.meet_nil hc'.words, State.unreadable_nil hc'.words hc'.blocks, State.bytesAt_tallied,
    Bool.false_eq_true, if_false]
  exact ⟨trivial, rfl, rfl⟩

/-- A read of one page that is unavailable is aborted (R394, R395). -/
theorem memoryWindowRead_unavailable {p : Nat} (hp : pagesOf (s.windowAddr off) (max len 1) = [p]) (hf : s.physFails p = true) :
    (memoryWindowRead off len s).reply = .completerAbort ∧ (memoryWindowRead off len s).warps = s.warps := by
  simp only [State.physFails, Bool.and_eq_true, Bool.not_eq_true'] at hf
  obtain ⟨hp0, hlink⟩ := hf
  have hpa : isStack (s.windowAddr off) = false := by
    have := pagesOf_single hp
    simp only [isStack, decide_eq_false_iff_not, not_lt] at hp0 ⊢
    omega
  have hask := State.askPages_failed (s := s.mscRequests (s.windowAddr off) len) (p := p)
    ((State.linkFails_of_cxl hp0 (s.mscRequests_cxl len hpa)).trans hlink)
  rw [memoryWindowRead_sent hb hm hl hr]
  simp only [hp, hask, if_true]
  exact ⟨trivial, aside_warps ((State.askPages_aside ..).trans (State.mscRequests_aside ..))⟩

end

/-! ## Writes of the memory window -/

theorem State.keepResult_length (s : State) (pa : Nat) (bs : List Byte) : (s.keepResult pa bs).length = bs.length :=
  List.length_mapIdx

/-- A host write leaves the read-only fields of the management area as memory holds them, and writes every other byte (R8, R334, R376,
R438). -/
theorem State.keepResult_get (s : State) (pa : Nat) {bs : List Byte} {i : Nat} {b : Byte} (h : bs[i]? = some b) :
    (s.keepResult pa bs)[i]? = some (let a := pa + i
      if a = mgmtBase + 3 then (b &&& 0x80) ||| (s.mem.get (mgmtBase + 3) &&& 0x7F)
      else if (mgmtBase + 0x20000 ≤ a ∧ a < mgmtBase + 0x28000) ∨ (fenceTable ≤ a ∧ a < fenceTable + 24576) then s.mem.get a
      else b) := by
  have phys : ∀ a, a < physTop → s.byteAt a = s.mem.get a := fun a ha => by rw [State.byteAt, locReg_phys ha]
  have hro : readOnlyByte (pa + i) = true ↔
      (mgmtBase + 0x20000 ≤ pa + i ∧ pa + i < mgmtBase + 0x28000) ∨ (fenceTable ≤ pa + i ∧ pa + i < fenceTable + 24576) := by
    unfold readOnlyByte fenceTable
    generalize mgmtBase = base
    simp only [Bool.or_eq_true, Bool.and_eq_true, decide_eq_true_eq]
  rw [State.keepResult, List.getElem?_mapIdx, h, Option.map_some]
  simp only [hro, phys (mgmtBase + 3) (by norm_num [mgmtBase, physTop])]
  congr 2
  split
  · rename_i hin
    exact phys _ (by unfold mgmtBase fenceTable mgmtBase at hin; unfold physTop; omega)
  · rfl

/-- A write within one page that the host may write is one request (R333). -/
theorem State.writePages_one (s : State) (who : Requester) {may : State → Nat → Bool} (n : Nat) {pa : Nat} {bs : List Byte}
    (hfit : pa % 65536 + bs.length ≤ 65536) (hmay : may s pa = true) :
    s.writePages who may (n + 1) pa bs = (s.mscRequests pa bs.length).physRequest who pa bs.length (.write bs) := by
  have hk : bs.length ≤ 65536 - pa % 65536 := by omega
  unfold State.writePages
  simp only [hmay, hk, if_true, Nat.min_eq_right, List.take_of_length_le]

/-- A write to one page of a stack, with clean memory, writes what `keepResult` leaves of its bytes (R8, R333). -/
theorem memoryWindowWrite_stack {s : State} {off : Nat} {bs : List Byte} (hb : s.booted = true) (hm : s.migration = none)
    (hfit : s.windowAddr off % 65536 + bs.length ≤ 65536) (hl : off + bs.length ≤ 2 ^ 32)
    (hw : s.mayReach hostMaster .w (s.windowAddr off) = true) (hs : isStack (s.windowAddr off) = true) (hc : Clean s) :
    (memoryWindowWrite off bs s).mem = s.mem.write (s.windowAddr off) (s.keepResult (s.windowAddr off) bs)
      ∧ (memoryWindowWrite off bs s).warps = s.warps := by
  have hlen := s.keepResult_length (s.windowAddr off) bs
  have htop : s.windowAddr off + (s.keepResult (s.windowAddr off) bs).length ≤ physTop := by
    simp only [isStack, decide_eq_true_eq] at hs
    unfold physTop
    omega
  obtain ⟨k, cs, m, e⟩ := State.mscRequests_clean hc (s.windowAddr off) bs.length
  unfold memoryWindowWrite
  simp only [hb, Nat.not_lt.mpr hl, Bool.not_true, decide_false, Bool.or_self, Bool.false_eq_true, if_false]
  rw [s.writePages_one .host _ (by rw [hlen]; exact hfit) hw, hlen, e,
    State.physRequest_write (hc.tallied k cs m) hm .host bs.length hs htop]
  exact ⟨rfl, rfl⟩

/-! ## The host's windows -/

/-- Settles O44, clause by clause from the laws of the BAR0 registers and of the memory window. -/
theorem hostWindowsReachMemory : Obligations.HostWindowsReachMemory := by
  unfold Obligations.HostWindowsReachMemory
  intro s hb
  refine ⟨fun w n v hw => ?_, fun w n v hw => ?_, fun v => ?_, fun off len hl hr hm => ⟨fun hs hc => ?_, fun p hp hf => ?_⟩,
    fun off len h => ?_, fun off bs _ hfit hl hw hs hm hc => ⟨?_, fun i b => s.keepResult_get _⟩, fun off => ?_, fun w n => ?_, ?_⟩
  · exact congrArg _ ((registerWrite_window hb w n v).trans (if_neg (by simp [hw])))
  · exact congrArg _ ((registerWrite_window hb w n v).trans (if_pos hw))
  · exact congrArg _ (registerWrite_wbase hb v)
  · exact ⟨_, rfl, memoryWindowRead_stack hb hm hl hr hs hc⟩
  · exact ⟨_, rfl, memoryWindowRead_unavailable hb hm hl hr hp hf⟩
  · exact congrArg _ (memoryWindowRead_refused h)
  · exact ⟨_, rfl, memoryWindowWrite_stack hb hm hfit hl hw hs hc⟩
  · exact congrArg _ (unsupportedRequest_booted hb off)
  · obtain ⟨h4, hlt, -, -⟩ := windowOffset_fields w n
    rw [State.registerRead_register h4 ((State.hasRegister_booted hb _).mpr (.inl hlt)), State.registerAt_window hb,
      apply_ite BitVec.toNat]
    rfl
  · rw [State.registerRead_register rfl ((State.hasRegister_booted hb _).mpr (by decide)), State.registerAt_wbase hb]

end Sys2Proof.Machine
end

section
/-! SUPPORT. Global time (R25): each operation of the model leaves it, one law for each operation in the order of the definitions. Only
`State.tick` moves it. -/

namespace Sys2Proof.Machine

/-! ## States that agree aside, folds, and results with a state -/

theorem aside_gtime {s t : State} (h : t.aside = s.aside) : t.gtime = s.gtime := by have e := congrArg State.gtime h; exact e

/-- A fold keeps what each of its steps keeps. -/
theorem foldl_keeps {σ β α : Type} (g : σ → α) {f : σ → β → σ} (hf : ∀ s b, g (f s b) = g s) (l : List β) :
    ∀ s : σ, g (l.foldl f s) = g s := by
  induction l with
  | nil => exact fun _ => rfl
  | cons b r ih => exact fun s => (ih (f s b)).trans (hf s b)

theorem foldl_gtime {β : Type} {f : State → β → State} (hf : ∀ s b, (f s b).gtime = s.gtime) (l : List β) (s : State) :
    (l.foldl f s).gtime = s.gtime := foldl_keeps State.gtime hf l s

theorem fst_gtime {α : Type} {p : State × α} {t : State} {a : α} (e : p = (t, a)) : t.gtime = p.1.gtime := by rw [e]

theorem snd_gtime {α : Type} {p : α × State} {t : State} {a : α} (e : p = (a, t)) : t.gtime = p.2.gtime := by rw [e]

/-! ## Store -/

@[simp] theorem State.putByte_gtime (s : State) (loc : Nat) (b : Byte) : (s.putByte loc b).gtime = s.gtime := by
  unfold State.putByte
  split <;> rfl

@[simp] theorem State.putBytes_gtime (bs : List Byte) : ∀ (s : State) (loc : Nat), (s.putBytes loc bs).gtime = s.gtime := by
  induction bs with
  | nil => exact fun _ _ => rfl
  | cons b r ih => exact fun s loc => (ih _ _).trans (s.putByte_gtime loc b)

@[simp] theorem State.mergeBlock_gtime (s : State) (loc n b : Nat) :
    (s.mergeBlock loc n b).gtime = s.gtime := aside_gtime (State.mergeBlock_aside ..)

@[simp] theorem State.mergeMarks_gtime (s : State) (loc n : Nat) : (s.mergeMarks loc n).gtime = s.gtime := by
  unfold State.mergeMarks
  exact (foldl_gtime (fun s b => s.mergeBlock_gtime loc n b) _ _).trans (s.clearMarks_gtime loc n)

@[simp] theorem State.store_gtime (s : State) (loc : Nat) (bs : List Byte) : (s.store loc bs).gtime = s.gtime := by
  unfold State.store
  split <;> simp

@[simp] theorem State.flip_gtime (s : State) : s.flip.2.gtime = s.gtime := by simp [State.flip]

/-! ## Translate -/

@[simp] theorem State.memerr_gtime (s : State) (kind arg : Nat) : (s.memerr kind arg).gtime = s.gtime := aside_gtime (State.memerr_aside ..)

@[simp] theorem State.memerrWord_gtime (s : State) (core : Nat) :
    (s.memerrWord core).gtime = s.gtime := aside_gtime (State.memerrWord_aside ..)

@[simp] theorem State.poisonBlock_gtime (s : State) (kind b : Nat) :
    (s.poisonBlock kind b).gtime = s.gtime := aside_gtime (State.poisonBlock_aside ..)

@[simp] theorem State.reportWord_gtime (s : State) (a : Nat) : (s.reportWord a).gtime = s.gtime := aside_gtime (State.reportWord_aside ..)

@[simp] theorem State.meet_gtime (s : State) (loc n : Nat) : (s.meet loc n).gtime = s.gtime := aside_gtime (State.meet_aside ..)

@[simp] theorem State.dieEvent_gtime (s : State) (die event : Nat) (by_ : Nat) :
    (s.dieEvent die event by_).gtime = s.gtime := aside_gtime (State.dieEvent_aside ..)

@[simp] theorem State.baseEvent_gtime (s : State) (stack event : Nat) (by_ : Nat) :
    (s.baseEvent stack event by_).gtime = s.gtime := aside_gtime (State.baseEvent_aside ..)

@[simp] theorem State.readDram_gtime (s : State) (b : Nat) (needed : Bool) :
    (s.readDram b needed).gtime = s.gtime := aside_gtime (State.readDram_aside ..)

@[simp] theorem State.mscWriteBack_gtime (s : State) (b : Nat) :
    (s.mscWriteBack b).gtime = s.gtime := aside_gtime (State.mscWriteBack_aside ..)

@[simp] theorem State.mscEvict_gtime (s : State) (miss : Bool) : (s.mscEvict miss).gtime = s.gtime := aside_gtime (State.mscEvict_aside ..)

@[simp] theorem State.postThreshold_gtime (s : State) (page : Nat) :
    (s.postThreshold page).gtime = s.gtime := aside_gtime (State.postThreshold_aside ..)

@[simp] theorem State.countPage_gtime (s : State) (p : Place) (asked : Bool) :
    (s.countPage p asked).gtime = s.gtime := aside_gtime (State.countPage_aside ..)

@[simp] theorem State.mscAccess_gtime (s : State) (p : Place) (asked : Bool) :
    (s.mscAccess p asked).gtime = s.gtime := aside_gtime (State.mscAccess_aside ..)

@[simp] theorem State.mscRequest_gtime (s : State) (pa : Nat) : (s.mscRequest pa).gtime = s.gtime := aside_gtime (State.mscRequest_aside ..)

@[simp] theorem walkFrom_gtime (va : Nat) (ls : List (Nat × Nat)) (s : State) (base : Nat) :
    (walkFrom va ls s base).1.gtime = s.gtime := aside_gtime (walkFrom_aside ..)

@[simp] theorem walk_gtime (s : State) (root va : Nat) : (walk s root va).1.gtime = s.gtime := aside_gtime (walk_aside ..)

@[simp] theorem State.fillTlb_gtime (s : State) (t : TlbEntry) : (s.fillTlb t).gtime = s.gtime := aside_gtime (State.fillTlb_aside ..)

@[simp] theorem State.fillPath_gtime (s : State) (key : BitVec 8) (va : Nat) (e : DWord) (lv : Nat) (path : List TlbAt) :
    (s.fillPath key va e lv path).gtime = s.gtime := aside_gtime (State.fillPath_aside ..)

@[simp] theorem State.translate_gtime (s : State) (slot : Fin 8) (master die : Nat) (need : Need) (va : DWord) (n : Nat) :
    (s.translate slot master die need va n).1.gtime = s.gtime := aside_gtime (State.translate_aside ..)

@[simp] theorem State.linkFails_gtime (s : State) (p : Place) : (s.linkFails p).2.gtime = s.gtime := aside_gtime (State.linkFails_aside ..)

@[simp] theorem State.request_gtime (s : State) (p : Place) (write : Bool) :
    (s.request p write).gtime = s.gtime := aside_gtime (State.request_aside ..)

@[simp] theorem State.modCxl_gtime (s : State) (q : Fin 8) (f : CxlPort → CxlPort) :
    (s.modCxl q f).gtime = s.gtime := by simp [State.modCxl]

@[simp] theorem State.losePage_gtime (s : State) (q : Fin 8) (page : Nat) :
    (s.losePage q page).gtime = s.gtime := aside_gtime (State.losePage_aside ..)

@[simp] theorem State.ask_gtime (s : State) (p : Place) : (s.ask p).2.gtime = s.gtime := aside_gtime (State.ask_aside ..)

@[simp] theorem State.readPlace_gtime (s : State) (p : Place) (n : Nat) :
    (s.readPlace p n).2.gtime = s.gtime := aside_gtime (State.readPlace_aside ..)

/-! ## Mesh -/

@[simp] theorem State.writeFence_gtime (s : State) (c : Nat) : (s.writeFence c).gtime = s.gtime := by simp [State.writeFence]

@[simp] theorem State.modFence_gtime (s : State) (c : Nat) (f : CoreFence → CoreFence) :
    (s.modFence c f).gtime = s.gtime := by simp [State.modFence]

@[simp] theorem State.alert_gtime (s : State) : s.alert.gtime = s.gtime := by simp [State.alert]

@[simp] theorem State.fenceLog_gtime (s : State) (c kind : Nat) (result : BitVec 8) :
    (s.fenceLog c kind result).gtime = s.gtime := by simp [State.fenceLog]

@[simp] theorem State.eachWatch_gtime (s : State) (c : Nat) (f : Watch → Watch) : (s.eachWatch c f).gtime = s.gtime :=
  foldl_gtime (fun _ _ => by simp) _ _

@[simp] theorem State.endHold_gtime (s : State) (c : Nat) : (s.endHold c).gtime = s.gtime := by
  unfold State.endHold
  split <;> simp

@[simp] theorem State.endHoldsOf_gtime (s : State) (bid : Nat) : (s.endHoldsOf bid).gtime = s.gtime :=
  foldl_gtime (fun _ _ => by simp) _ _

/-! ## Lines -/

@[simp] theorem State.addErr_gtime (s : State) (wid : Nat) (e : PendErr) : (s.addErr wid e).gtime = s.gtime := by simp [State.addErr]

@[simp] theorem State.storeSome_gtime (ch : Nat) (bs : List Byte) :
    ∀ (s : State) (loc i : Nat), (s.storeSome ch loc i bs).gtime = s.gtime := by
  induction bs with
  | nil => exact fun _ _ _ => rfl
  | cons b r ih =>
    intro s loc i
    rw [State.storeSome, ih]
    split <;> simp

@[simp] theorem State.storeLost_gtime (s : State) (p : Place) (bs : List Byte) : (s.storeLost p bs).gtime = s.gtime := by
  unfold State.storeLost
  split <;> simp

@[simp] theorem State.poisonLine_gtime (s : State) (p : Place) (badWords : List Nat) :
    (s.poisonLine p badWords).gtime = s.gtime := aside_gtime (State.poisonLine_aside ..)

@[simp] theorem State.writeBack_gtime (s : State) (wid : Nat) (l : L1Line) : (s.writeBack wid l).1.gtime = s.gtime := by
  unfold State.writeBack
  grind [State.translate_gtime, State.ask_gtime, State.request_gtime, State.linkFails_gtime, State.poisonLine_gtime,
    State.storeLost_gtime, State.addErr_gtime, State.store_gtime]

@[simp] theorem State.stallWrite_gtime (s : State) (who : Requester) (p : Place) (data : List Byte) (badWords : List Nat) :
    (s.stallWrite who p data badWords).gtime = s.gtime := by
  unfold State.stallWrite
  split <;> simp

@[simp] theorem State.cleanLine_gtime (s : State) (pid : Nat) (l : L1Line) : (s.cleanLine pid l).gtime = s.gtime := by
  unfold State.cleanLine
  grind [State.writeBack_gtime, State.modPart_gtime, State.stallWrite_gtime]

@[simp] theorem State.makeRoom_gtime (pid set n : Nat) : ∀ s : State, (s.makeRoom pid set n).1.gtime = s.gtime := by
  induction n with
  | zero => exact fun _ => rfl
  | succ n ih =>
    intro s
    unfold State.makeRoom
    grind [State.cleanLine_gtime, State.modPart_gtime]

@[simp] theorem State.placeLine_gtime (s : State) (pid : Nat) (l : L1Line) : (s.placeLine pid l).1.gtime = s.gtime := by
  unfold State.placeLine
  grind [State.makeRoom_gtime, State.modPart_gtime]

@[simp] theorem State.discardGlobal_gtime (s : State) (pid : Nat) : (s.discardGlobal pid).gtime = s.gtime := by simp [State.discardGlobal]

@[simp] theorem State.releaseLines_gtime (pid wid : Nat) (ls : List L1Line) :
    ∀ s : State, (s.releaseLines pid wid ls).1.gtime = s.gtime := by
  induction ls with
  | nil => exact fun _ => rfl
  | cons l r ih =>
    intro s
    unfold State.releaseLines
    grind [State.writeBack_gtime, State.modPart_gtime]

@[simp] theorem State.readOnchip_gtime (s : State) (a : Acc) : (s.readOnchip a).2.gtime = s.gtime := by
  unfold State.readOnchip
  (repeat' split) <;> simp

@[simp] theorem State.readAt_gtime (s : State) (p : Place) (n : Nat) :
    (s.readAt p n).2.gtime = s.gtime := aside_gtime (State.readAt_aside ..)

@[simp] theorem State.readMem_gtime (s : State) (p : Place) (n : Nat) :
    (s.readMem p n).2.gtime = s.gtime := aside_gtime (State.readMem_aside ..)

@[simp] theorem State.writeAt_gtime (s : State) (p : Place) (bs : List Byte) : (s.writeAt p bs).2.gtime = s.gtime := by
  unfold State.writeAt
  grind [State.linkFails_gtime, State.storeLost_gtime, State.store_gtime]

@[simp] theorem State.writeMem_gtime (s : State) (p : Place) (bs : List Byte) :
    (s.writeMem p bs).2.gtime = s.gtime := by simp [State.writeMem]

@[simp] theorem State.ioRequest_gtime (s : State) (p : Place) : (s.ioRequest p).gtime = s.gtime := by
  unfold State.ioRequest
  (repeat' split) <;> simp

@[simp] theorem State.ioRead_gtime (s : State) (p : Place) (n : Nat) : (s.ioRead p n).2.gtime = s.gtime := by simp [State.ioRead]

@[simp] theorem State.ioWrite_gtime (s : State) (p : Place) (bs : List Byte) : (s.ioWrite p bs).2.gtime = s.gtime := by simp [State.ioWrite]

@[simp] theorem State.meetLine_gtime (s : State) (pid core : Nat) (l : L1Line) (ks : List Nat) :
    (s.meetLine pid core l ks).gtime = s.gtime := by
  unfold State.meetLine
  refine foldl_gtime (fun t k => ?_) _ _
  split <;> simp

@[simp] theorem State.readGlobal_gtime (s : State) (pid core : Nat) (a : Acc) : (s.readGlobal pid core a).2.gtime = s.gtime := by
  have hm : ∀ (f : Option L1Line) (g : L1Line → List Nat), (f.elim s fun l => s.meetLine pid core l (g l)).gtime = s.gtime := by
    intro f g
    cases f <;> simp
  unfold State.readGlobal
  simp only
  split
  · rfl
  · split
    · next bs s1 e =>
      have h1 : s1.gtime = s.gtime := by simp [snd_gtime e, hm]
      split <;> simp [h1]
    · simp [hm]

@[simp] theorem State.writeGlobal_gtime (s : State) (pid : Nat) (a : Acc) (bs : List Byte) :
    (s.writeGlobal pid a bs).2.gtime = s.gtime := by
  unfold State.writeGlobal
  grind [State.writeMem_gtime, State.modPart_gtime]

@[simp] theorem State.missPriv_gtime (s : State) (pid wid core : Nat) (a : Acc) : (s.missPriv pid wid core a).2.gtime = s.gtime := by
  unfold State.missPriv
  grind [State.readMem_gtime, State.coreEvent_gtime, State.placeLine_gtime]

@[simp] theorem State.hitPriv_gtime (s : State) (l : L1Line) (a : Acc) : (s.hitPriv l a).2.gtime = s.gtime := by
  unfold State.hitPriv
  grind

@[simp] theorem State.readPriv_gtime (s : State) (pid wid core : Nat) (a : Acc) : (s.readPriv pid wid core a).2.gtime = s.gtime := by
  unfold State.readPriv
  grind [State.hitPriv_gtime, State.modPart_gtime, State.meetLine_gtime, State.missPriv_gtime]

@[simp] theorem State.allocPriv_gtime (s : State) (pid wid core : Nat) (a : Acc) (bs : List Byte) :
    (s.allocPriv pid wid core a bs).2.gtime = s.gtime := by
  unfold State.allocPriv
  grind [State.request_gtime, State.coreEvent_gtime, State.linkFails_gtime, State.writeMem_gtime, State.placeLine_gtime]

@[simp] theorem State.writePriv_gtime (s : State) (pid wid core : Nat) (a : Acc) (bs : List Byte) :
    (s.writePriv pid wid core a bs).2.gtime = s.gtime := by
  unfold State.writePriv
  grind [State.modPart_gtime, State.meetLine_gtime, State.allocPriv_gtime]

@[simp] theorem State.writeOnchip_gtime (s : State) (a : Acc) (bs : List Byte) : (s.writeOnchip a bs).2.gtime = s.gtime := by
  unfold State.writeOnchip
  (repeat' split) <;> simp

/-! ## Work -/

@[simp] theorem State.ctxWalk_gtime (s : State) (slot : Fin 8) (va : Nat) : (s.ctxWalk slot va).1.gtime = s.gtime := by
  unfold State.ctxWalk
  grind [walk_gtime]

@[simp] theorem State.storeVa_gtime (s : State) (slot : Fin 8) (va : Nat) (bs : List Byte) (master : Option Nat) :
    (s.storeVa slot va bs master).gtime = s.gtime := by
  unfold State.storeVa
  grind [State.ctxWalk_gtime, State.stallWrite_gtime, State.ioWrite_gtime]

@[simp] theorem State.setStatus_gtime (s : State) (nid : Nat) (st : Status) : (s.setStatus nid st).gtime = s.gtime := by
  unfold State.setStatus
  (repeat' split) <;> simp

@[simp] theorem State.orderOf_gtime (s : State) (slot : Fin 8) (die : Fin 8) :
    (s.orderOf slot die).gtime = s.gtime := by simp [State.orderOf]

@[simp] theorem State.reorder_gtime (s : State) (slot : Fin 8) : (s.reorder slot).gtime = s.gtime := by
  unfold State.reorder
  split
  · exact foldl_gtime (fun t d => t.orderOf_gtime slot d) _ _
  · rfl

@[simp] theorem State.stopBlock_gtime (s : State) (bid : Nat) : (s.stopBlock bid).gtime = s.gtime := by
  unfold State.stopBlock
  split <;> simp

@[simp] theorem State.killNode_gtime (s : State) (nid : Nat) : (s.killNode nid).gtime = s.gtime := by
  unfold State.killNode
  split
  · rfl
  · split
    · rfl
    · split
      · exact s.setStatus_gtime ..
      · exact foldl_gtime (fun t p => t.stopBlock_gtime _) _ _

@[simp] theorem State.abandonDomain_gtime (s : State) (slot : Fin 8) (domain : BitVec 16) : (s.abandonDomain slot domain).gtime = s.gtime :=
  foldl_gtime (fun _ _ => by simp) _ _

/-! ## Ops -/

@[simp] theorem State.faultRecord_gtime (s : State) (w : Warp) (t : Trap) (epc : DWord) :
    (s.faultRecord w t epc).gtime = s.gtime := by simp [State.faultRecord]

@[simp] theorem State.trapAt_gtime (s : State) (wid : Nat) (t : Trap) (epc : DWord) (imp slice : Bool) :
    (s.trapAt wid t epc imp slice).gtime = s.gtime := by
  unfold State.trapAt
  (repeat' split) <;> simp

@[simp] theorem State.abandonFor_gtime (s : State) (w : Warp) : (s.abandonFor w).gtime = s.gtime := by
  unfold State.abandonFor
  (repeat' split) <;> simp

@[simp] theorem State.deliver_gtime (s : State) (wid : Nat) (t : Trap) (epc : DWord) (imp slice : Bool) :
    (s.deliver wid t epc imp slice).gtime = s.gtime := by
  unfold State.deliver
  split <;> simp

@[simp] theorem State.eretWarp_gtime (s : State) (wid : Nat) : (s.eretWarp wid).gtime = s.gtime := by simp [State.eretWarp]

/-! ## Group -/

@[simp] theorem State.writeMembers_gtime (slot : Fin 8) (record count mean var : Nat) (eps : Word) (ms : List (MemberState × Word)) :
    ∀ (s : State) (i : Nat), (s.writeMembers slot record count mean var eps i ms).1.gtime = s.gtime := by
  induction ms with
  | nil => exact fun _ _ => rfl
  | cons m r ih => exact fun s i => (ih _ _).trans (s.storeVa_gtime ..)

@[simp] theorem State.groupCheck_gtime (s : State) (gid : Nat) : (s.groupCheck gid).gtime = s.gtime := by
  unfold State.groupCheck
  (repeat' split) <;> simp

@[simp] theorem State.drainGroup_gtime (s : State) (gid placed : Nat) :
    (s.drainGroup gid placed).gtime = s.gtime := by simp [State.drainGroup]

/-! ## Endings -/

@[simp] theorem State.barFails_gtime (s : State) (as : List Arrival) : (s.barFails as).gtime = s.gtime := by
  unfold State.barFails
  refine (foldl_gtime (fun t a => ?_) _ _).trans (foldl_gtime (fun t a => ?_) _ _) <;> split <;> simp

@[simp] theorem State.barCheck_gtime (s : State) (pid : Nat) : (s.barCheck pid).gtime = s.gtime := by
  unfold State.barCheck
  split
  · rfl
  · split
    · rfl
    · split
      · rfl
      · simp only
        split
        · exact foldl_gtime (fun t b => by simp) _ _
        · simp

@[simp] theorem State.barcCheck_gtime (s : State) (bid : Nat) : (s.barcCheck bid).gtime = s.gtime := by
  unfold State.barcCheck
  split
  · rfl
  · simp only
    split
    · rfl
    · exact (foldl_gtime (fun t p => t.discardGlobal_gtime p) _ _).trans (foldl_gtime (fun t y => t.modWarp_gtime ..) _ _)

@[simp] theorem State.removeBlock_gtime (s : State) (bid : Nat) (b : Block) : (s.removeBlock bid b).gtime = s.gtime := by
  unfold State.removeBlock
  split <;> simp

@[simp] theorem State.blockCheck_gtime (s : State) (bid : Nat) : (s.blockCheck bid).gtime = s.gtime := by
  unfold State.blockCheck
  (repeat' split) <;> simp

@[simp] theorem State.endWarp_gtime (s : State) (wid : Nat) : (s.endWarp wid).gtime = s.gtime := by
  unfold State.endWarp
  split <;> simp

@[simp] theorem State.killLanes_gtime (s : State) (wid : Nat) (m : Mask) : (s.killLanes wid m).gtime = s.gtime := by
  unfold State.killLanes
  (repeat' split) <;> simp

/-! ## Layout -/

@[simp] theorem State.newPbase_gtime (s : State) (slot : Fin 8) : (s.newPbase slot).2.gtime = s.gtime := by simp [State.newPbase]

@[simp] theorem State.addWarp_gtime (s : State) (w : Warp) : (s.addWarp w).gtime = s.gtime := by simp [State.addWarp]

/-! ## Launch -/

@[simp] theorem State.recordPlace_gtime (s : State) (slot : Fin 8) (need : Need) (va : Nat) (master : Option Nat) :
    (s.recordPlace slot need va master).1.gtime = s.gtime := by
  unfold State.recordPlace
  grind [walk_gtime]

@[simp] theorem State.readParts_gtime (master : Option Nat) (slot : Fin 8) (need : Need) (xs : List (Nat × Nat)) :
    ∀ s : State, (s.readParts master slot need xs).1.gtime = s.gtime := by
  induction xs with
  | nil => exact fun _ => rfl
  | cons x r ih =>
    intro s
    unfold State.readParts
    (repeat' split) <;> grind [State.recordPlace_gtime, State.ioRead_gtime]

@[simp] theorem State.readRecordBy_gtime (master : Option Nat) (slot : Fin 8) (need : Need) (k n : Nat) :
    ∀ (s : State) (va : Nat), (s.readRecordBy master slot need va k n).1.gtime = s.gtime := by
  induction n with
  | zero => exact fun _ _ => rfl
  | succ n ih =>
    intro s va
    unfold State.readRecordBy
    (repeat' split) <;> grind [State.readParts_gtime]

@[simp] theorem State.readRecord_gtime (s : State) (slot : Fin 8) (need : Need) (va k n : Nat) :
    (s.readRecord slot need va k n).1.gtime = s.gtime := by simp [State.readRecord]

@[simp] theorem State.readLaunch_gtime (s : State) (slot : Fin 8) (va : Nat) : (s.readLaunch slot va).1.gtime = s.gtime := by
  unfold State.readLaunch
  grind [State.readRecord_gtime]

/-! ## Collective -/

theorem ChunkRun.read_gtime (slot : Fin 8) (c : Collective) (k : Nat) (r : ChunkRun) (u : Nat × Nat) :
    (r.read slot c k u).s.gtime = r.s.gtime := by
  unfold ChunkRun.read
  grind [State.translate_gtime, State.ioRead_gtime]

theorem ChunkRun.write_gtime (slot : Fin 8) (c : Collective) (k : Nat) (bs : List Byte) (r : ChunkRun) (u : Nat × Nat) :
    (r.write slot c k bs u).s.gtime = r.s.gtime := by
  unfold ChunkRun.write
  grind [State.translate_gtime, State.ioWrite_gtime]

@[simp] theorem State.chunkRun_gtime (s : State) (c : Collective) : (s.chunkRun c).s.gtime = s.gtime := rfl

@[simp] theorem State.localChunk_gtime (s : State) (slot : Fin 8) (c : Collective) (k : Nat) :
    (s.localChunk slot c k).1.gtime = s.gtime := by
  have hr := foldl_keeps (fun r : ChunkRun => r.s.gtime) (ChunkRun.read_gtime slot c k)
  have hw := fun bs => foldl_keeps (fun r : ChunkRun => r.s.gtime) (ChunkRun.write_gtime slot c k bs)
  unfold State.localChunk
  simp only
  split <;> simp [hr, hw]

@[simp] theorem State.rankUp_gtime (s : State) (slot : Fin 8) (c : Collective) (r : Nat) : (s.rankUp slot c r).1.gtime = s.gtime := by
  unfold State.rankUp
  grind [State.readRecordBy_gtime]

@[simp] theorem State.ranksUp_gtime (slot : Fin 8) (c : Collective) (l : List Nat) :
    ∀ s : State, (s.ranksUp slot c l).1.gtime = s.gtime := by
  induction l with
  | nil => exact fun _ => rfl
  | cons r l ih =>
    intro s
    unfold State.ranksUp
    grind [State.rankUp_gtime]

@[simp] theorem State.modColl_gtime (s : State) (nid : Nat) (f : Collective → Collective) :
    (s.modColl nid f).gtime = s.gtime := by simp [State.modColl]

@[simp] theorem chunkEarly_gtime (nid n : Nat) (s : State) : (chunkEarly nid n s).gtime = s.gtime := by
  unfold chunkEarly
  split
  · rfl
  · simp only
    split
    · rfl
    · split
      · rfl
      · next t e =>
        have ht : t.s.gtime = s.gtime := by
          split at e
          · obtain ⟨u, -, rfl⟩ := Option.map_eq_some_iff.mp e
            simp [ChunkRun.read_gtime]
          · split at e
            · cases e
            · obtain ⟨u, -, rfl⟩ := Option.map_eq_some_iff.mp e
              simp [ChunkRun.write_gtime]
        split <;> simp [ht]

@[simp] theorem collectiveChunkAck_gtime (nid k : Nat) (refused : Bool) (s : State) :
    (collectiveChunkAck nid k refused s).gtime = s.gtime := by
  unfold collectiveChunkAck
  grind [State.ranksUp_gtime, State.modColl_gtime, State.localChunk_gtime]

@[simp] theorem chunkResend_gtime (nid k : Nat) (s : State) : (chunkResend nid k s).gtime = s.gtime := by
  unfold chunkResend
  grind [State.modColl_gtime]

@[simp] theorem collectiveGiveUp_gtime (nid k : Nat) (s : State) : (collectiveGiveUp nid k s).gtime = s.gtime := by
  unfold collectiveGiveUp
  (repeat' split) <;> simp

@[simp] theorem State.arrive_gtime (slot : Fin 8) (peer n : Nat) :
    ∀ (s : State) (va : Nat) (bs : List Byte), (s.arrive slot peer va bs n).gtime = s.gtime := by
  induction n with
  | zero => exact fun _ _ _ => rfl
  | succ n ih =>
    intro s va bs
    unfold State.arrive
    grind [State.translate_gtime, State.stallWrite_gtime, State.ioWrite_gtime]

@[simp] theorem collectiveChunkReceive_gtime (key : BitVec 8) (src : Fin 16384) (addr : Nat) (data : List Byte) (s : State) :
    (collectiveChunkReceive key src addr data s).gtime = s.gtime := by
  unfold collectiveChunkReceive
  (repeat' split) <;> simp

/-! ## Issue -/

@[simp] theorem State.healRegs_gtime (s : State) (locs : List Nat) : (s.healRegs locs).gtime = s.gtime := by
  unfold State.healRegs
  split <;> simp

@[simp] theorem Ctx.finishAt_gtime (c : Ctx) (a : DWord) (f : Warp → Warp) : (c.finishAt a f).gtime = c.s.gtime := by simp [Ctx.finishAt]

@[simp] theorem Ctx.finish_gtime (c : Ctx) (f : Warp → Warp) : (c.finish f).gtime = c.s.gtime := by simp [Ctx.finish]

@[simp] theorem Ctx.stall_gtime (c : Ctx) : c.stall.gtime = c.s.gtime := by simp [Ctx.stall]

@[simp] theorem Ctx.raiseFull_gtime (c : Ctx) (t : Trap) : (c.raiseFull t).gtime = c.s.gtime := by
  unfold Ctx.raiseFull
  split <;> simp

@[simp] theorem Ctx.raise_gtime (c : Ctx) (code : BitVec 8) (value : DWord) : (c.raise code value).gtime = c.s.gtime := by simp [Ctx.raise]

@[simp] theorem Ctx.raiseLane_gtime (c : Ctx) (code : BitVec 8) (value : DWord) (l : Lane) :
    (c.raiseLane code value l).gtime = c.s.gtime := by simp [Ctx.raiseLane]

@[simp] theorem State.meetRegs_gtime (s : State) (wid : Nat) (regs : List Nat) (m : Mask) : (s.meetRegs wid regs m).gtime = s.gtime :=
  foldl_gtime (fun _ _ => foldl_gtime (fun u _ => u.meet_gtime ..) _ _) _ _

theorem Ctx.withoutLanes_gtime (c : Ctx) (m : Mask) {body : Ctx → State} (hb : ∀ d, (body d).gtime = d.s.gtime) :
    (c.withoutLanes m body).gtime = c.s.gtime := by
  unfold Ctx.withoutLanes
  grind [State.killLanes_gtime, State.meetRegs_gtime]

@[simp] theorem State.deliverErr_gtime (s : State) (wid : Nat) (pc : DWord) (e : PendErr) :
    (s.deliverErr wid pc e).gtime = s.gtime := by simp [State.deliverErr]

theorem Ctx.run_gtime (c : Ctx) {body : Ctx → State} (hb : ∀ d, (body d).gtime = d.s.gtime) : (c.run body).gtime = c.s.gtime := by
  have hm : c.meetUniform.s.gtime = c.s.gtime := foldl_gtime State.reportWord_gtime _ _
  unfold Ctx.run
  grind [Ctx.raise_gtime, Ctx.stall_gtime, Ctx.withoutLanes_gtime]

/-! ## Fetch -/

@[simp] theorem State.fetchWord_gtime (s : State) (w : Warp) (va : DWord) : (s.fetchWord w va).2.gtime = s.gtime := by
  unfold State.fetchWord
  grind [State.translate_gtime, State.ask_gtime, State.readMem_gtime]

@[simp] theorem State.raiseIn_gtime (s : State) (wid : Nat) (slice : Bool) (pc : DWord) (code : BitVec 8) (value : DWord) :
    (s.raiseIn wid slice pc code value).gtime = s.gtime := by
  unfold State.raiseIn
  split <;> simp

@[simp] theorem State.nextTurn_gtime (s : State) : s.nextTurn.2.gtime = s.gtime := by
  unfold State.nextTurn
  split <;> simp

/-! ## Access -/

@[simp] theorem Ctx.locate_gtime (c : Ctx) (s : State) (sp : Space) (need : Need) (addr n : Nat) :
    (c.locate s sp need addr n).1.gtime = s.gtime := aside_gtime (Ctx.locate_aside ..)

@[simp] theorem Ctx.placeAll_gtime (c : Ctx) (s : State) (sp : Space) (need : Need) (l ea : Nat) (xs : List (Nat × Nat × Nat)) :
    (c.placeAll s sp need l ea xs).1.gtime = s.gtime := aside_gtime (c.placeAll_aside ..)

@[simp] theorem Ctx.placeLane_gtime (c : Ctx) (s : State) (sp : Space) (need : Need) (l ea : Nat) (ps : List (Nat × Nat × Nat)) :
    (c.placeLane s sp need l ea ps).1.gtime = s.gtime := aside_gtime (Ctx.placeLane_aside ..)

@[simp] theorem Ctx.checkLanes_gtime (c : Ctx) (s : State) (sp : Space) (need : Need) (n : Nat) (ea : Lane → Nat) (ls : List Lane) :
    (c.checkLanes s sp need n ea ls).1.gtime = s.gtime := aside_gtime (c.checkLanes_aside ..)

@[simp] theorem Ctx.checkAccess_gtime (c : Ctx) (m : Mask) (sp : Space) (need : Need) (n : Nat) (ea : Lane → Nat) :
    (c.checkAccess m sp need n ea).1.gtime = c.s.gtime := aside_gtime (Ctx.checkAccess_aside ..)

theorem Ctx.release_gtime (c : Ctx) {body : Ctx → State} (hb : ∀ d, (body d).gtime = d.s.gtime) :
    (c.release body).gtime = c.s.gtime := by
  unfold Ctx.release
  grind [Ctx.stall_gtime, State.releaseLines_gtime, Ctx.raise_gtime, State.deliverErr_gtime, Ctx.with_s]

@[simp] theorem Ctx.push_gtime (c : Ctx) (k : Ctr) (kind : OpKind) (sp : Space) (as : List Acc) (m : Mask) (acq rel : Option Scope)
    (f : Warp → Warp) :
    (c.push k kind sp as m acq rel f).gtime = c.s.gtime := by simp [Ctx.push]

theorem Ctx.checked_gtime (c : Ctx) (m : Mask) (sp : Space) (need : Need) (n : Nat) (ea : Lane → Nat) {body : Ctx → List Acc → State}
    (hb : ∀ d as, (body d as).gtime = d.s.gtime) : (c.checked m sp need n ea body).gtime = c.s.gtime := by
  unfold Ctx.checked
  grind [Ctx.raiseFull_gtime, Ctx.checkAccess_gtime, Ctx.with_s]

theorem Ctx.releaseIf_gtime (c : Ctx) (r : Bool) {body : Ctx → State} (hb : ∀ d, (body d).gtime = d.s.gtime) :
    (c.releaseIf r body).gtime = c.s.gtime := by
  unfold Ctx.releaseIf
  grind [Ctx.release_gtime]

/-! ## Waits -/

@[simp] theorem Ctx.wait_gtime (c : Ctx) (k : WaitKind) : (c.wait k).gtime = c.s.gtime := by simp [Ctx.wait]

@[simp] theorem Ctx.finishAcq_gtime (c : Ctx) (f : Warp → Warp) : (c.finishAcq f).gtime = c.s.gtime := by simp [Ctx.finishAcq]

@[simp] theorem State.endWaitAcq_gtime (s : State) (wid : Nat) (w : Warp) (f : Warp → Warp) :
    (s.endWaitAcq wid w f).gtime = s.gtime := by simp [State.endWaitAcq]

theorem Ctx.barChecked_gtime (c : Ctx) {body : State} (hb : body.gtime = c.s.gtime) : (c.barChecked body).gtime = c.s.gtime := by
  unfold Ctx.barChecked
  split <;> simp [hb]

@[simp] theorem Ctx.arrive_gtime (c : Ctx) (op : Option FoldOp) (payload : Word) (d : Option (Fin 63)) :
    (c.arrive op payload d).gtime = c.s.gtime := by simp [Ctx.arrive]

theorem Ctx.pbChecked_gtime (c : Ctx) (cl write : Bool) (a : Word) {body : Place → State} (hb : ∀ p, (body p).gtime = c.s.gtime) :
    (c.pbChecked cl write a body).gtime = c.s.gtime := by
  unfold Ctx.pbChecked
  grind [Ctx.raise_gtime, State.meet_gtime, Ctx.with_s]

@[simp] theorem Ctx.pbFenced_gtime (c : Ctx) (d : SOp) : (c.pbFenced d).gtime = c.s.gtime := by simp [Ctx.pbFenced]

@[simp] theorem pbwaitWake_gtime (wid : Nat) (s : State) : (pbwaitWake wid s).gtime = s.gtime := by
  unfold pbwaitWake
  grind [State.deliver_gtime, State.meet_gtime, State.endWaitAcq_gtime]

@[simp] theorem waitcEnd_gtime (wid : Nat) (s : State) : (waitcEnd wid s).gtime = s.gtime := by
  unfold waitcEnd
  grind [State.deliverErr_gtime, State.modWarp_gtime, State.endWaitAcq_gtime]

@[simp] theorem State.readWatched_gtime (s : State) (p : Place) (cc : Cond) (v : DWord) : (s.readWatched p cc v).2.gtime = s.gtime := by
  unfold State.readWatched
  grind [State.ask_gtime, State.readMem_gtime]

@[simp] theorem Ctx.watch_gtime (c : Ctx) (d : Fin 63) (a : DWord) (p : Place) (cc : Cond) (v : DWord) :
    (c.watch d a p cc v).gtime = c.s.gtime := by
  unfold Ctx.watch
  split
  · next s1 e => simp [Ctx.with_s, snd_gtime e]
  · next s1 e => simp [Ctx.with_s, snd_gtime e]
  · next s1 e =>
    simp only
    split <;> simp [Ctx.with_s, snd_gtime e]

@[simp] theorem State.unwatch_gtime (s : State) (wid : Nat) (w : Warp) (a : DWord) (code : BitVec 8) :
    (s.unwatch wid w a code).gtime = s.gtime := by simp [State.unwatch]

@[simp] theorem State.rewatch_gtime (s : State) (wid : Nat) (w : Warp) (d : Fin 63) (a v : DWord) (cc : Cond) (p : Place) :
    (s.rewatch wid w d a v cc p).gtime = s.gtime := by
  unfold State.rewatch
  grind [State.readWatched_gtime, State.unwatch_gtime, State.endWaitAcq_gtime]

@[simp] theorem waitwWake_gtime (wid : Nat) (s : State) : (waitwWake wid s).gtime = s.gtime := by
  unfold waitwWake
  (repeat' split) <;> simp

@[simp] theorem waitwPoll_gtime (wid : Nat) (s : State) : (waitwPoll wid s).gtime = s.gtime := by
  unfold waitwPoll
  (repeat' split) <;> simp

@[simp] theorem sleeptWake_gtime (wid : Nat) (s : State) : (sleeptWake wid s).gtime = s.gtime := by
  unfold sleeptWake
  (repeat' split) <;> simp

/-! ## SampleGroup -/

theorem Ctx.recordChecked_gtime (c : Ctx) (need : Need) (va : DWord) {body : Ctx → Place → State}
    (hb : ∀ d p, (body d p).gtime = d.s.gtime) : (c.recordChecked need va body).gtime = c.s.gtime := by
  unfold Ctx.recordChecked
  grind [Ctx.raise_gtime, State.translate_gtime, Ctx.with_s]

@[simp] theorem State.clearMembers_gtime (slot : Fin 8) (va n : Nat) : ∀ s : State, (s.clearMembers slot va n).gtime = s.gtime := by
  induction n with
  | zero => exact fun _ => rfl
  | succ n ih => exact fun s => (ih _).trans (s.storeVa_gtime ..)

@[simp] theorem State.forkGroup_gtime (s : State) (slot : Fin 8) (die : Nat) (va : DWord) (bs : List Byte) (l : Launch) (pid : Nat)
    (p : Node) :
    (s.forkGroup slot die va bs l pid p).gtime = s.gtime := by
  unfold State.forkGroup
  (repeat' split) <;> simp

@[simp] theorem Ctx.fork_gtime (c : Ctx) (d : SOp) (va : DWord) (bs : List Byte) : (c.fork d va bs).gtime = c.s.gtime := by
  have hl := c.s.readLaunch_gtime c.w.slot (recField bs 0x10 8)
  unfold Ctx.fork
  simp only
  split
  · simp
  · split
    · next s1 l pid e _ =>
      have h1 : s1.gtime = c.s.gtime := by rw [← hl, e]
      (repeat' split) <;> simp [h1, Ctx.with_s]
    · next s1 _ _ e _ => 
      rw [Ctx.finish_gtime, Ctx.with_s, ← hl, e]

theorem Ctx.lastPage_gtime (c : Ctx) (va : DWord) (n : Nat) {body : Ctx → State} (hb : ∀ d, (body d).gtime = d.s.gtime) :
    (c.lastPage va n body).gtime = c.s.gtime := by
  unfold Ctx.lastPage
  grind [State.translate_gtime, Ctx.raise_gtime, Ctx.with_s]

@[simp] theorem Ctx.forkChecked_gtime (c : Ctx) (d : SOp) (va : DWord) (p : Place) : (c.forkChecked d va p).gtime = c.s.gtime := by
  unfold Ctx.forkChecked
  split
  · next hb s1 e =>
    have h1 : (c.with s1).s.gtime = c.s.gtime := by simp [Ctx.with_s, snd_gtime e]
    simp only
    split
    · exact (Ctx.release_gtime _ fun x => x.finish_gtime _).trans h1
    · refine (Ctx.lastPage_gtime _ va _ fun f => ?_).trans h1
      split
      · next s2 bs e2 => rw [Ctx.release_gtime _ fun x => x.fork_gtime d va bs, Ctx.with_s, fst_gtime e2, State.readRecord_gtime]
      · next s2 e2 => rw [Ctx.raise_gtime, Ctx.with_s, fst_gtime e2, State.readRecord_gtime]
  · next s1 e => simp [Ctx.with_s, snd_gtime e]

@[simp] theorem State.endMember_gtime (s : State) (gid i : Nat) (st : MemberState) : (s.endMember gid i st).gtime = s.gtime := by
  unfold State.endMember
  grind [State.modGroup_gtime, State.stopBlock_gtime, State.groupCheck_gtime]

@[simp] theorem State.reward_gtime (s : State) (w : Warp) (x : Word) : (s.reward w x).2.gtime = s.gtime := by
  unfold State.reward
  (repeat' split) <;> simp

@[simp] theorem groupDeadline_gtime (gid : Nat) (s : State) : (groupDeadline gid s).gtime = s.gtime := by
  unfold groupDeadline
  split
  · rfl
  · split
    · rfl
    · split
      · rfl
      · refine foldl_gtime (fun t i => ?_) _ _
        split <;> simp

@[simp] theorem State.readDone_gtime (s : State) (p : Place) : (s.readDone p).2.gtime = s.gtime := by
  unfold State.readDone
  grind [State.readMem_gtime]

@[simp] theorem sgwaitWake_gtime (wid : Nat) (s : State) : (sgwaitWake wid s).gtime = s.gtime := by
  unfold sgwaitWake
  grind [State.readDone_gtime, State.deliver_gtime, State.modWarp_gtime, State.endWaitAcq_gtime]

/-! ## Sched -/

@[simp] theorem State.started_gtime (s : State) (nid : Nat) (f : Node → Node) : (s.started nid f).gtime = s.gtime := by
  simp [State.started]

@[simp] theorem State.abandonUnstarted_gtime (s : State) (nid : Nat) : (s.abandonUnstarted nid).gtime = s.gtime :=
  foldl_gtime (fun _ _ => by simp) _ _

@[simp] theorem State.startLaunch_gtime (s : State) (nid : Nat) (n : Node) : (s.startLaunch nid n).gtime = s.gtime := by
  unfold State.startLaunch
  grind [State.readLaunch_gtime, State.started_gtime, State.setStatus_gtime]

@[simp] theorem State.queueInsts_gtime (s : State) (mask : Word) (mk : Nat → Inst) :
    (s.queueInsts mask mk).gtime = s.gtime := by simp [State.queueInsts]

@[simp] theorem State.startArray_gtime (s : State) (nid : Nat) (n : Node) : (s.startArray nid n).gtime = s.gtime := by
  unfold State.startArray
  split <;> simp

@[simp] theorem State.startCollective_gtime (s : State) (nid : Nat) (n : Node) : (s.startCollective nid n).gtime = s.gtime := by
  unfold State.startCollective
  grind [State.readRecordBy_gtime, State.started_gtime, State.flip_gtime, State.setStatus_gtime]

@[simp] theorem State.startNode_gtime (s : State) (nid : Nat) (n : Node) : (s.startNode nid n).gtime = s.gtime := by
  unfold State.startNode
  split <;> simp

@[simp] theorem nodeStart_gtime (nid : Nat) (s : State) : (nodeStart nid s).gtime = s.gtime := by
  unfold nodeStart
  (repeat' split) <;> simp

@[simp] theorem nodeComplete_gtime (nid : Nat) (s : State) : (nodeComplete nid s).gtime = s.gtime := by
  unfold nodeComplete
  (repeat' split) <;> simp

@[simp] theorem timeSliceExpiry_gtime (nid : Nat) (s : State) : (timeSliceExpiry nid s).gtime = s.gtime := by
  unfold timeSliceExpiry
  (repeat' split) <;> simp

@[simp] theorem State.sweep_gtime (s : State) (nid : Nat) : (s.sweep nid).gtime = s.gtime :=
  foldl_gtime (fun _ _ => by grind [State.removeBlock_gtime]) _ _

@[simp] theorem State.sweepGroup_gtime (s : State) (nid : Nat) : (s.sweepGroup nid).gtime = s.gtime := by
  unfold State.sweepGroup
  split <;> simp

@[simp] theorem workStopComplete_gtime (nid : Nat) (s : State) : (workStopComplete nid s).gtime = s.gtime := by
  unfold workStopComplete
  grind [State.sweepGroup_gtime, State.sweep_gtime, State.setStatus_gtime]

/-! ## Lane -/

@[simp] theorem Ctx.lane1_gtime (c : Ctx) (o : FormA1) (f : Word → Word) : (c.lane1 o f).gtime = c.s.gtime := by simp [Ctx.lane1]

@[simp] theorem Ctx.lane2_gtime (c : Ctx) (o : FormA) (f : Word → Word → Word) : (c.lane2 o f).gtime = c.s.gtime := by simp [Ctx.lane2]

@[simp] theorem Ctx.lane3_gtime (c : Ctx) (o : FormA3) (f : Word → Word → Word → Word) :
    (c.lane3 o f).gtime = c.s.gtime := by simp [Ctx.lane3]

/-! ## LaneFloat -/

@[simp] theorem Ctx.laneF_gtime (c : Ctx) (d : VOp) (f : Lane → Word × Flags) : (c.laneF d f).gtime = c.s.gtime := by simp [Ctx.laneF]

@[simp] theorem Ctx.laneF64_gtime (c : Ctx) (d : VOp) (f : Lane → DWord × Flags) :
    (c.laneF64 d f).gtime = c.s.gtime := by simp [Ctx.laneF64]

@[simp] theorem Ctx.float2_gtime (c : Ctx) (o : FormA) (f : Word → Word → Word × Flags) :
    (c.float2 o f).gtime = c.s.gtime := by simp [Ctx.float2]

@[simp] theorem Ctx.float1_gtime (c : Ctx) (o : FormA1) (f : FVal → Nat × Flags) : (c.float1 o f).gtime = c.s.gtime := by
  simp [Ctx.float1]

/-! ## ArrayUnit -/

@[simp] theorem State.giveBank_gtime (s : State) (slot : Fin 8) (stack tile : Nat) (tag : BitVec 8) :
    (s.giveBank slot stack tile tag).gtime = s.gtime := by
  unfold State.giveBank
  split <;> simp

@[simp] theorem State.passed_gtime (s : State) (n u : Nat) (before : Inst) (mark : Option (BitVec 4)) :
    (s.passed n u before mark).gtime = s.gtime := by
  unfold State.passed
  split
  · rfl
  · refine foldl_gtime (fun t e => ?_) _ _
    split <;> simp

theorem State.onPlaced_gtime {s : State} {n : Nat} {f : Inst → State} (hf : ∀ i, (f i).gtime = s.gtime) :
    (s.onPlaced n f).gtime = s.gtime := by
  unfold State.onPlaced
  grind

theorem State.onInst_gtime {s : State} {n : Nat} {f : Inst → State} (hf : ∀ i, (f i).gtime = s.gtime) :
    (s.onInst n f).gtime = s.gtime := by
  unfold State.onInst
  grind

@[simp] theorem State.withReplay_gtime (s : State) (n : Nat) (i j : Inst) : (s.withReplay n i j).gtime = s.gtime := by
  unfold State.withReplay
  split <;> simp

@[simp] theorem fuFire_gtime (n u : Nat) (s : State) : (fuFire n u s).gtime = s.gtime := by
  unfold fuFire
  grind [State.onInst_gtime, State.passed_gtime, State.withReplay_gtime]

@[simp] theorem tokenTransit_gtime (n k : Nat) (s : State) : (tokenTransit n k s).gtime = s.gtime := by
  unfold tokenTransit
  grind [State.onInst_gtime, State.withReplay_gtime, State.baseEvent_gtime, State.modInst_gtime]

@[simp] theorem bankAccess_gtime (n bank : Nat) (s : State) : (bankAccess n bank s).gtime = s.gtime := by
  unfold bankAccess
  grind [State.onPlaced_gtime, State.modInst_gtime, State.meet_gtime, State.store_gtime]

/-! ## Complete -/

theorem Perf.fail_gtime (r : Perf) (tile : Bool) (a : Acc) (s : State) (fenced : Option Nat) :
    (r.fail tile a s fenced).s.gtime = s.gtime := rfl

theorem Perf.die_gtime (r : Perf) (a : Acc) (s : State) : (r.die a s).s.gtime = s.gtime := rfl

@[simp] theorem State.readAcc_gtime (s : State) (q : Who) (sp : Space) (a : Acc) : (s.readAcc q sp a).2.gtime = s.gtime := by
  unfold State.readAcc
  split <;> simp

@[simp] theorem State.writeAcc_gtime (s : State) (q : Who) (sp : Space) (a : Acc) (bs : List Byte) :
    (s.writeAcc q sp a bs).2.gtime = s.gtime := by
  unfold State.writeAcc
  split <;> simp

theorem Perf.zeroTile_gtime (tile : Bool) (a : Acc) (r : Perf) : (r.zeroTile tile a).s.gtime = r.s.gtime := by
  unfold Perf.zeroTile
  split <;> rfl

theorem Perf.lostOne_gtime (r : Perf) (tile : Bool) (a : Acc) (s : State) : (r.lostOne tile a s).s.gtime = s.gtime :=
  Perf.zeroTile_gtime ..

theorem Perf.readOne_gtime (r : Perf) (q : Who) (sp : Space) (tile : Bool) (a : Acc) :
    (r.readOne q sp tile a).s.gtime = r.s.gtime := by
  unfold Perf.readOne
  grind [State.readAcc_gtime, Perf.fail_gtime, Perf.die_gtime, Perf.zeroTile_gtime, Perf.lostOne_gtime]

theorem Perf.writeOne_gtime (r : Perf) (q : Who) (sp : Space) (tile : Bool) (a : Acc) :
    (r.writeOne q sp tile a).s.gtime = r.s.gtime := by
  unfold Perf.writeOne
  grind [State.writeAcc_gtime, Perf.fail_gtime, Perf.die_gtime]

theorem Perf.rmwOne_gtime (r : Perf) (q : Who) (k : OpKind) (sp : Space) (a : Acc) :
    (r.rmwOne q k sp a).s.gtime = r.s.gtime := by
  unfold Perf.rmwOne
  grind [State.modPart_gtime, State.request_gtime, State.linkFails_gtime, State.meet_gtime, State.readPlace_gtime, State.store_gtime,
    State.modWarp_gtime, State.readOnchip_gtime, Perf.fail_gtime, Perf.die_gtime, Perf.lostOne_gtime]

theorem Perf.one_gtime (q : Who) (o : OutOp) (r : Perf) (a : Acc) : (r.one q o a).s.gtime = r.s.gtime := by
  unfold Perf.one
  split <;> simp only [Perf.readOne_gtime, Perf.writeOne_gtime, Perf.rmwOne_gtime]

theorem State.perfOf_gtime (s : State) (o : OutOp) : (s.perfOf o).s.gtime = s.gtime := rfl

theorem State.performAll_gtime (s : State) (q : Who) (o : OutOp) : (s.performAll q o).s.gtime = s.gtime :=
  foldl_keeps (fun r : Perf => r.s.gtime) (Perf.one_gtime q o) _ _

@[simp] theorem State.flushLine_gtime (s : State) (pid : Nat) (inv : Bool) (l : L1Line) : (s.flushLine pid inv l).gtime = s.gtime := by
  unfold State.flushLine
  grind [State.cleanLine_gtime, State.modPart_gtime]

@[simp] theorem State.flushRange_gtime (s : State) (pid lo n : Nat) (inv : Bool) : (s.flushRange pid lo n inv).gtime = s.gtime := by
  unfold State.flushRange
  split
  · rfl
  · exact foldl_gtime (fun t l => t.flushLine_gtime pid inv l) _ _

@[simp] theorem State.writeTile_gtime (s : State) (base : Nat) (vals : List (Nat × Nat)) : (s.writeTile base vals).gtime = s.gtime :=
  foldl_gtime (fun _ _ => by simp) _ _

@[simp] theorem State.settle_gtime (s : State) (q : Who) (w : Warp) (o : OutOp) (r : Perf) : (s.settle q w o r).gtime = s.gtime := by
  unfold State.settle
  (repeat' split) <;> simp

@[simp] theorem State.completeOp_gtime (s : State) (wid : Nat) (w : Warp) (o : OutOp) : (s.completeOp wid w o).gtime = s.gtime := by
  unfold State.completeOp
  simp only [State.blockCheck_gtime, State.killLanes_gtime]
  split <;> simp [State.performAll_gtime]

@[simp] theorem performEarly_gtime (wid op : Nat) (s : State) : (performEarly wid op s).gtime = s.gtime := by
  unfold performEarly
  grind [Perf.one_gtime, State.perfOf_gtime, State.modWarp_gtime]

@[simp] theorem completeEvent_gtime (wid op : Nat) (want : OutOp → Bool) (s : State) : (completeEvent wid op want s).gtime = s.gtime := by
  unfold completeEvent
  (repeat' split) <;> simp

/-! ## Bar -/

@[simp] theorem registerWrite_gtime (off : Nat) (value : Word) (s : State) : (registerWrite off value s).gtime = s.gtime := by
  unfold registerWrite
  grind

@[simp] theorem State.registerRead_gtime (s : State) (off : Nat) : (s.registerRead off).gtime = s.gtime := by
  unfold State.registerRead
  split <;> simp

@[simp] theorem unsupportedRequest_gtime (off : Nat) (s : State) : (unsupportedRequest off s).gtime = s.gtime := by
  unfold unsupportedRequest
  split <;> simp

@[simp] theorem State.mscRequests_gtime (s : State) (pa n : Nat) :
    (s.mscRequests pa n).gtime = s.gtime := aside_gtime (State.mscRequests_aside ..)

@[simp] theorem State.physWrite_gtime (s : State) (pa : Nat) (bs : List Byte) : (s.physWrite pa bs).gtime = s.gtime := by
  unfold State.physWrite
  grind [State.ask_gtime, State.storeLost_gtime, State.store_gtime]

@[simp] theorem State.physPerform_gtime (s : State) (pa n : Nat) (op : PeerOp) : (s.physPerform pa n op).gtime = s.gtime := by
  unfold State.physPerform
  grind [State.meet_gtime, State.physWrite_gtime]

@[simp] theorem State.physRequest_gtime (s : State) (who : Requester) (pa n : Nat) (op : PeerOp) :
    (s.physRequest who pa n op).gtime = s.gtime := by
  unfold State.physRequest
  (repeat' split) <;> simp

@[simp] theorem State.askPages_gtime (ps : List Nat) (s : State) : (s.askPages ps).1.gtime = s.gtime :=
  aside_gtime (State.askPages_aside ..)

@[simp] theorem memoryWindowRead_gtime (off len : Nat) (s : State) : (memoryWindowRead off len s).gtime = s.gtime := by
  unfold memoryWindowRead
  simp only [apply_ite State.gtime, State.meet_gtime, State.mscRequests_gtime, State.askPages_gtime, ite_self]

@[simp] theorem State.writePages_gtime (who : Requester) (may : State → Nat → Bool) (n : Nat) :
    ∀ (s : State) (pa : Nat) (bs : List Byte), (s.writePages who may n pa bs).gtime = s.gtime := by
  induction n with
  | zero => exact fun _ _ _ => rfl
  | succ n ih =>
    intro s pa bs
    unfold State.writePages
    grind [State.physRequest_gtime, State.mscRequests_gtime]

@[simp] theorem memoryWindowWrite_gtime (off : Nat) (data : List Byte) (s : State) : (memoryWindowWrite off data s).gtime = s.gtime := by
  unfold memoryWindowWrite
  split <;> simp

/-! ## ArrayPort -/

theorem Inst.onPort_gtime (i0 : Inst) (s : State) (n port : Nat) {f : Port → State → State} (hf : ∀ x t, (f x t).gtime = t.gtime) :
    (i0.onPort s n port f).gtime = s.gtime := by
  unfold Inst.onPort
  grind [State.withReplay_gtime, State.modInst_gtime]

theorem State.onPort_gtime (s : State) (n port : Nat) {f : Port → State → State} (hf : ∀ x t, (f x t).gtime = t.gtime) :
    (s.onPort n port f).gtime = s.gtime :=
  State.onInst_gtime fun i => i.onPort_gtime s n port hf

@[simp] theorem Port.put_gtime (x : Port) (s : State) (st : PortSt) : (x.put s st).gtime = s.gtime := by simp [Port.put]

@[simp] theorem Port.fail_gtime (x : Port) (s : State) (cause : BitVec 8) : (x.fail s cause).gtime = s.gtime := by simp [Port.fail]

@[simp] theorem Port.passed_gtime (x : Port) (s : State) (marks : List (BitVec 4)) : (x.passed s marks).gtime = s.gtime :=
  foldl_gtime (fun _ _ => by simp) _ _

@[simp] theorem State.portPlace_gtime (s : State) (i : Inst) (need : Need) (va : DWord) : (s.portPlace i need va).1.gtime = s.gtime := by
  unfold State.portPlace
  grind [State.translate_gtime]

@[simp] theorem State.portRead_gtime (s : State) (p : Place) (n : Nat) : (s.portRead p n).1.gtime = s.gtime := by
  unfold State.portRead
  grind [State.mscAccess_gtime, State.meet_gtime]

@[simp] theorem Port.affineRead_gtime (x : Port) (s : State) : (x.affineRead s).gtime = s.gtime := by
  unfold Port.affineRead
  grind [Port.put_gtime, State.portPlace_gtime, State.mscAccess_gtime]

@[simp] theorem Port.takeWrite_gtime (x : Port) (s : State) (t : Token) : (x.takeWrite s t).gtime = s.gtime := by
  unfold Port.takeWrite
  grind [Port.put_gtime, State.modInst_gtime, Port.fail_gtime, Port.passed_gtime]

@[simp] theorem Port.writeRun_gtime (x : Port) (s : State) : (x.writeRun s).gtime = s.gtime := by
  unfold Port.writeRun
  grind [Port.fail_gtime, State.portPlace_gtime, State.store_gtime, State.mscAccess_gtime, Port.put_gtime, State.modInst_gtime]

@[simp] theorem Port.affineWrite_gtime (x : Port) (s : State) : (x.affineWrite s).gtime = s.gtime := by
  unfold Port.affineWrite
  (repeat' split) <;> simp

@[simp] theorem Port.unitReads_gtime (x : Port) (k : Nat) :
    ∀ (n : Nat) (va : DWord) (s : State), (x.unitReads k n va s).1.gtime = s.gtime := by
  induction k with
  | zero => exact fun _ _ _ => rfl
  | succ k ih =>
    intro n va s
    unfold Port.unitReads
    grind [State.portPlace_gtime, State.mscAccess_gtime]

@[simp] theorem Port.chase_gtime (x : Port) (s : State) : (x.chase s).gtime = s.gtime := by
  unfold Port.chase
  (repeat' split) <;> simp

@[simp] theorem Port.gatherOne_gtime (x : Port) (s : State) (v : Nat) : (x.gatherOne s v).1.gtime = s.gtime := by
  unfold Port.gatherOne
  grind [State.portPlace_gtime, State.mscAccess_gtime]

@[simp] theorem Port.entry_gtime (x : Port) (s : State) (va : DWord) : (x.entry s va).1.gtime = s.gtime := by
  unfold Port.entry
  grind [State.portPlace_gtime, State.portRead_gtime]

@[simp] theorem Port.rowBase_gtime (x : Port) (s : State) (rset : Nat) : (x.rowBase s rset).1.gtime = s.gtime := by
  unfold Port.rowBase
  grind [Port.entry_gtime]

@[simp] theorem Port.rowOf_gtime (x : Port) (s : State) (v : Nat) : (x.rowOf s v).1.gtime = s.gtime := by
  unfold Port.rowOf
  grind [Port.entry_gtime, Port.rowBase_gtime]

@[simp] theorem Port.rowOne_gtime (x : Port) (s : State) (v : Nat) : (x.rowOne s v).1.gtime = s.gtime := by
  unfold Port.rowOne
  grind [Port.rowOf_gtime, Port.unitReads_gtime]

theorem indexed_gtime {one : State → Nat → State × List PItem} (h1 : ∀ s v, (one s v).1.gtime = s.gtime) (vs : List Nat) :
    ∀ s : State, (indexed one vs s).1.gtime = s.gtime := by
  induction vs with
  | nil => exact fun _ => rfl
  | cons v r ih =>
    intro s
    unfold indexed
    grind

@[simp] theorem Port.gather_gtime (x : Port) (s : State) : (x.gather s).gtime = s.gtime := by
  unfold Port.gather
  grind [State.modInst_gtime, Port.put_gtime, Port.passed_gtime, indexed_gtime, Port.gatherOne_gtime, Port.rowOne_gtime]

@[simp] theorem Port.scatterTake_gtime (x : Port) (pin : Nat) (s : State) : (x.scatterTake pin s).gtime = s.gtime := by
  unfold Port.scatterTake
  (repeat' split) <;> simp

@[simp] theorem streamPortAccess_gtime (n port : Nat) (s : State) : (streamPortAccess n port s).gtime = s.gtime := by
  unfold streamPortAccess
  grind [State.onPort_gtime, Port.affineWrite_gtime, Port.affineRead_gtime, Port.chase_gtime, Port.gather_gtime, Port.scatterTake_gtime]

@[simp] theorem Port.returned_gtime (s : State) (a n size : Nat) : (Port.returned s a n size).1.gtime = s.gtime := by
  unfold Port.returned
  grind [State.meet_gtime]

@[simp] theorem Port.perform_gtime (x : Port) (s : State) : (x.perform s).1.gtime = s.gtime := by
  unfold Port.perform
  grind [Port.returned_gtime]

@[simp] theorem Port.chaseDrain_gtime (x : Port) (s : State) (items : List PItem) : (x.chaseDrain s items).gtime = s.gtime := by
  unfold Port.chaseDrain
  grind [Port.fail_gtime, Port.put_gtime, State.modInst_gtime, Port.passed_gtime]

@[simp] theorem streamDataReturn_gtime (n port : Nat) (s : State) : (streamDataReturn n port s).gtime = s.gtime := by
  unfold streamDataReturn
  grind [State.onPlaced_gtime, Inst.onPort_gtime, Port.perform_gtime, Port.chaseDrain_gtime, State.modInst_gtime, Port.passed_gtime]

@[simp] theorem Port.targetPlace_gtime (x : Port) (s : State) (t : Target) : (x.targetPlace s t).1.gtime = s.gtime := by
  unfold Port.targetPlace
  grind [State.portPlace_gtime, State.meet_gtime]

@[simp] theorem Port.checkTargets_gtime (x : Port) (ts : List Target) :
    ∀ (acc : List (Target × Place)) (s : State), (x.checkTargets ts acc s).1.gtime = s.gtime := by
  induction ts with
  | nil => exact fun _ _ => rfl
  | cons t r ih =>
    intro acc s
    unfold Port.checkTargets
    grind [Port.targetPlace_gtime]

@[simp] theorem Port.checkRows_gtime (x : Port) (vs : List Word) :
    ∀ (ts : List Target) (acc : List (Target × Place)) (s : State), (x.checkRows vs ts acc s).1.gtime = s.gtime := by
  induction vs with
  | nil => exact fun _ _ _ => rfl
  | cons v r ih =>
    intro ts acc s
    unfold Port.checkRows
    grind [Port.rowOf_gtime, Port.checkTargets_gtime]

@[simp] theorem Port.apply_gtime (x : Port) (s : State) (ts : List ((Target × List Word) × Place)) : (x.apply s ts).gtime = s.gtime :=
  foldl_gtime (fun _ _ => by simp) _ _

@[simp] theorem Port.targets_gtime (x : Port) (s : State) : (x.targets s).1.gtime = s.gtime := by
  unfold Port.targets
  grind [Port.checkRows_gtime, Port.checkTargets_gtime]

@[simp] theorem Port.batch_gtime (x : Port) (s : State) (lev : BitVec 4) : (x.batch s lev).gtime = s.gtime := by
  unfold Port.batch
  grind [Port.passed_gtime, State.modInst_gtime, Port.fail_gtime, Port.targets_gtime, Port.apply_gtime]

@[simp] theorem scatterAddBatch_gtime (n port : Nat) (s : State) : (scatterAddBatch n port s).gtime = s.gtime := by
  unfold scatterAddBatch
  grind [State.onPort_gtime, Port.fail_gtime, Port.batch_gtime, Port.passed_gtime, State.modInst_gtime]

@[simp] theorem deltaArrives_gtime (d : Delta) (s : State) : (deltaArrives d s).gtime = s.gtime := by
  unfold deltaArrives
  split <;> simp

@[simp] theorem State.applyDelta_gtime (s : State) (d : Delta) : (s.applyDelta d).gtime = s.gtime := by
  unfold State.applyDelta
  grind [State.mscRequests_gtime, State.meet_gtime, State.store_gtime]

@[simp] theorem applyDeltas_gtime (s : State) : (applyDeltas s).gtime = s.gtime := by
  unfold applyDeltas
  split
  · rfl
  · exact foldl_gtime State.applyDelta_gtime _ _

/-! ## CopyEngine -/

@[simp] theorem Ctx.startCopy_gtime (c : Ctx) (d : SOp) (dsp ssp : Space) (x : Desc) (sk dk : List (Nat × Nat)) :
    (c.startCopy d dsp ssp x sk dk).gtime = c.s.gtime := by simp [Ctx.startCopy]

@[simp] theorem Ctx.copyRanges_gtime (c : Ctx) (d : SOp) (dsp ssp : Space) (x : Desc) : (c.copyRanges d dsp ssp x).gtime = c.s.gtime := by
  unfold Ctx.copyRanges
  grind [Ctx.raise_gtime, Ctx.release_gtime, Ctx.startCopy_gtime, Ctx.stall_gtime]

@[simp] theorem State.unitPlace_gtime (s : State) (w : Warp) (p : Part) (sp : Space) (need : Need) (a n : Nat) :
    (s.unitPlace w p sp need a n).1.gtime = s.gtime := by
  unfold State.unitPlace
  split <;> simp

@[simp] theorem State.readUnit_gtime (s : State) (p : Place) (n : Nat) : (s.readUnit p n).2.gtime = s.gtime := by
  unfold State.readUnit
  split <;> simp

@[simp] theorem State.writeUnit_gtime (s : State) (p : Place) (bs : List Byte) : (s.writeUnit p bs).2.gtime = s.gtime := by
  unfold State.writeUnit
  split <;> simp

theorem Moving.fail_gtime (r : Moving) (s : State) (e : Option (Nat × Trap)) : (r.fail s e).s.gtime = s.gtime := rfl

theorem Moving.read_gtime (w : Warp) (p : Part) (c : Copy) (k : Nat) (r : Moving) (u : Nat × List CopyWord) :
    (r.read w p c k u).s.gtime = r.s.gtime := by
  unfold Moving.read
  grind [Moving.fail_gtime, State.unitPlace_gtime, State.readUnit_gtime]

theorem Moving.write_gtime (w : Warp) (p : Part) (c : Copy) (k : Nat) (skip : Bool) (r : Moving) (u : Nat × List CopyWord) :
    (r.write w p c k skip u).s.gtime = r.s.gtime := by
  unfold Moving.write
  grind [Moving.fail_gtime, State.unitPlace_gtime, State.writeUnit_gtime]

@[simp] theorem State.moving_gtime (s : State) (c : Copy) : (s.moving c).s.gtime = s.gtime := rfl

@[simp] theorem State.moveChunk_gtime (s : State) (w : Warp) (p : Part) (c : Copy) (k : Nat) :
    (s.moveChunk w p c k).1.gtime = s.gtime := by
  have hr := foldl_keeps (fun r : Moving => r.s.gtime) (Moving.read_gtime w p c k)
  have hw := fun skip => foldl_keeps (fun r : Moving => r.s.gtime) (Moving.write_gtime w p c k skip)
  simp only [State.moveChunk, hr, hw, State.moving_gtime]

@[simp] theorem State.copyFinished_gtime (s : State) (id : Nat) : (s.copyFinished id).gtime = s.gtime := by
  unfold State.copyFinished
  grind [State.modCopy_gtime, State.addErr_gtime, State.blockCheck_gtime]

@[simp] theorem State.endCopyChunk_gtime (s : State) (id k : Nat) (x : Option (Copy × Warp × Part)) :
    (s.endCopyChunk id k x).gtime = s.gtime := by
  unfold State.endCopyChunk
  (repeat' split) <;> simp

@[simp] theorem copyChunkDone_gtime (id k : Nat) (s : State) : (copyChunkDone id k s).gtime = s.gtime := by simp [copyChunkDone]

@[simp] theorem moveEarly_gtime (id n : Nat) (s : State) : (moveEarly id n s).gtime = s.gtime := by
  unfold moveEarly
  grind [Moving.read_gtime, Moving.write_gtime, State.moving_gtime, State.modCopy_gtime]

/-! ## Fencing -/

@[simp] theorem State.dropRequests_gtime (s : State) (c : Nat) : (s.dropRequests c).gtime = s.gtime :=
  foldl_gtime (fun _ _ => by simp) _ _

@[simp] theorem State.abandonCore_gtime (s : State) (c : Nat) : (s.abandonCore c).gtime = s.gtime := by
  unfold State.abandonCore
  split
  · rfl
  · refine foldl_gtime (fun t b => ?_) _ _
    split <;> simp

@[simp] theorem State.removeCore_gtime (s : State) (c : Nat) : (s.removeCore c).gtime = s.gtime := by
  unfold State.removeCore
  split <;> simp

@[simp] theorem State.fenceCore_gtime (s : State) (c : Nat) : (s.fenceCore c).gtime = s.gtime := by
  unfold State.fenceCore
  grind [State.fenceLog_gtime, State.modFence_gtime, State.endHold_gtime, State.dropRequests_gtime, State.abandonCore_gtime,
    State.removeCore_gtime]

@[simp] theorem State.readmitCheck_gtime (s : State) (c : Nat) : (s.readmitCheck c).gtime = s.gtime := by
  unfold State.readmitCheck
  grind [State.fenceLog_gtime, State.eachWatch_gtime, State.modFence_gtime, State.endHold_gtime]

@[simp] theorem State.readmits_gtime (s : State) : s.readmits.gtime = s.gtime :=
  foldl_gtime (fun _ _ => by simp) _ _

@[simp] theorem State.gates_gtime (n : Nat) : ∀ s : State, (s.gates n).gtime = s.gtime := by
  induction n with
  | zero => exact fun _ => rfl
  | succ n ih =>
    intro s
    unfold State.gates
    split
    · exact s.readmits_gtime
    · rw [ih, foldl_gtime State.fenceCore_gtime]

@[simp] theorem State.gateCheck_gtime (s : State) : s.gateCheck.gtime = s.gtime := by simp [State.gateCheck]

@[simp] theorem State.sendBeat_gtime (s : State) (c : Nat) (p : BitVec 128) : (s.sendBeat c p).gtime = s.gtime :=
  foldl_gtime (fun _ _ => by simp) _ _

@[simp] theorem heartbeatSend_gtime (c : Fin 1536) (s : State) : (heartbeatSend c s).gtime = s.gtime := by
  unfold heartbeatSend
  grind [State.modFence_gtime, State.sendBeat_gtime]

@[simp] theorem State.watchCore_gtime (s : State) (c : Nat) (d : Dir) (f : Watch → Watch) :
    (s.watchCore c d f).gtime = s.gtime := by simp [State.watchCore]

@[simp] theorem State.arrived_gtime (s : State) (c : Nat) (d : Dir) (p : BitVec 128) :
    (s.arrived c d p).gtime = s.gtime := by simp [State.arrived]

@[simp] theorem heartbeatReceive_gtime (c : Fin 1536) (d : Dir) (p : BitVec 128) (s : State) :
    (heartbeatReceive c d p s).gtime = s.gtime := by
  unfold heartbeatReceive
  grind [State.arrived_gtime, State.watchCore_gtime]

@[simp] theorem heartbeatMiss_gtime (c : Fin 1536) (d : Dir) (s : State) : (heartbeatMiss c d s).gtime = s.gtime := by
  unfold heartbeatMiss
  grind [State.watchCore_gtime]

@[simp] theorem votePeriod_gtime (c : Fin 1536) (s : State) : (votePeriod c s).gtime = s.gtime := by
  unfold votePeriod
  grind [State.gateCheck_gtime, State.modFence_gtime]

@[simp] theorem routerReset_gtime (c : Fin 1536) (s : State) : (routerReset c s).gtime = s.gtime := by
  unfold routerReset
  split <;> simp

@[simp] theorem solitarySuspect_gtime (c : Fin 1536) (s : State) : (solitarySuspect c s).gtime = s.gtime := by
  unfold solitarySuspect
  (repeat' split) <;> simp

@[simp] theorem appealTimeout_gtime (c : Fin 1536) (s : State) : (appealTimeout c s).gtime = s.gtime := by
  unfold appealTimeout
  grind [State.gateCheck_gtime, State.fenceCore_gtime]

/-! ## SelfTest -/

@[simp] theorem State.failAppeal_gtime (s : State) (t bid : Nat) : (s.failAppeal t bid).gtime = s.gtime := by
  unfold State.failAppeal
  (repeat' split) <;> simp

@[simp] theorem State.openAppeal_gtime (s : State) (t : Nat) : (s.openAppeal t).gtime = s.gtime := by simp [State.openAppeal]

@[simp] theorem State.appeal_gtime (s : State) (t bid : Nat) : (s.appeal t bid).2.gtime = s.gtime := by
  unfold State.appeal
  grind [State.fenceLog_gtime, State.openAppeal_gtime]

@[simp] theorem State.chunkEnds_gtime (s : State) (wid : Nat) (d : Fin 63) (status : Nat) (sig : Word) :
    (s.chunkEnds wid d status sig).gtime = s.gtime := by simp [State.chunkEnds]

@[simp] theorem State.chunkDone_gtime (s : State) (t k : Nat) (ok : Bool) : (s.chunkDone t k ok).gtime = s.gtime := by
  unfold State.chunkDone
  grind [State.modFence_gtime, State.endHold_gtime, State.dropRequests_gtime, State.gateCheck_gtime, State.removeCore_gtime,
    State.fenceLog_gtime]

@[simp] theorem State.overwriteTlb_gtime (s : State) (t : Nat) : (s.overwriteTlb t).gtime = s.gtime := by simp [State.overwriteTlb]

@[simp] theorem State.endChunk_gtime (s : State) (wid t k : Nat) (d : Fin 63) (w : Warp) : (s.endChunk wid t k d w).gtime = s.gtime := by
  unfold State.endChunk
  grind [State.chunkEnds_gtime, State.overwriteTlb_gtime, State.chunkDone_gtime]

@[simp] theorem State.preemptHold_gtime (s : State) (t : Nat) : (s.preemptHold t).gtime = s.gtime := by
  unfold State.preemptHold
  split
  · rfl
  · simp only [State.endHold_gtime, State.overwriteTlb_gtime]
    exact foldl_gtime (fun x w => x.chunkEnds_gtime ..) _ _

/-! ## Spawn -/

@[simp] theorem State.releaseBin_gtime (s : State) (slot : Fin 8) (b : Bin) :
    (s.releaseBin slot b).gtime = s.gtime := by simp [State.releaseBin]

@[simp] theorem State.fillBin_gtime (s : State) (slot : Fin 8) (b : Bin) (arg : Word) : (s.fillBin slot b arg).gtime = s.gtime := by
  unfold State.fillBin
  grind [State.releaseBin_gtime]

@[simp] theorem State.openBin_gtime (s : State) (slot : Fin 8) (core pid : Nat) (entry : DWord) (arg : Word) (now : Nat) :
    (s.openBin slot core pid entry arg now).gtime = s.gtime := by
  unfold State.openBin
  grind [State.releaseBin_gtime]

@[simp] theorem State.addPair_gtime (s : State) (slot : Fin 8) (core pid : Nat) (entry : DWord) (arg : Word) :
    (s.addPair slot core pid entry arg).gtime = s.gtime := by
  unfold State.addPair
  split <;> simp

@[simp] theorem spawnBinTimer_gtime (core bin : Nat) (s : State) : (spawnBinTimer core bin s).gtime = s.gtime := by
  unfold spawnBinTimer
  grind [State.releaseBin_gtime]

@[simp] theorem spawnWarpPlace_gtime (die : Nat) (s : State) : (spawnWarpPlace die s).gtime = s.gtime := by
  unfold spawnWarpPlace
  grind [State.newPbase_gtime, State.addWarp_gtime, State.orderOf_gtime]

/-! ## Place -/

@[simp] theorem State.addWarps_gtime (n : Node) (bid pid : Nat) (l : Launch) (index : Nat) (y : Layout)
    (ws : List (Nat × (Nat × Role) × Nat)) : ∀ s : State, (s.addWarps n bid pid l index y ws).gtime = s.gtime := by
  induction ws with
  | nil => exact fun _ => rfl
  | cons w r ih => exact fun s => (ih _).trans (by simp)

@[simp] theorem State.addParts_gtime (n : Node) (bid : Nat) (l : Launch) (index : Nat) (xs : List (Nat × List Nat × Layout)) :
    ∀ (s : State) (num : Nat), (s.addParts n bid l index num xs).gtime = s.gtime := by
  induction xs with
  | nil => exact fun _ _ => rfl
  | cons x r ih => exact fun s num => (ih _ _).trans (by simp)

@[simp] theorem State.putBlock_gtime (s : State) (nid : Nat) (n : Node) (l : Launch) (index : Nat) (xs : List (Nat × List Nat × Layout)) :
    (s.putBlock nid n l index xs).gtime = s.gtime := by simp [State.putBlock]

theorem State.placeFreed_gtime {s : State} {x : Nat × Node} {t : Nat} {r : State × List (Nat × List Nat × Layout)}
    (h : s.placeFreed x t = some r) : r.1.gtime = s.gtime := by
  unfold State.placeFreed at h
  split at h
  · obtain ⟨xs, -, rfl⟩ := Option.map_eq_some_iff.mp h
    exact s.preemptHold_gtime t
  · cases h

theorem State.preemptFor_gtime {s : State} {x : Nat × Node} {r : State × List (Nat × List Nat × Layout)}
    (h : s.preemptFor x = some r) : r.1.gtime = s.gtime := by
  unfold State.preemptFor at h
  split at h
  · cases h
  · obtain ⟨t, -, ht⟩ := List.exists_of_findSome?_eq_some h
    exact State.placeFreed_gtime ht

@[simp] theorem blockPlace_gtime (nid : Nat) (s : State) : (blockPlace nid s).gtime = s.gtime := by
  unfold blockPlace
  split
  · rfl
  · split
    · simp only
      split
      · rfl
      · split
        · simp
        · split
          · next e => simpa using State.preemptFor_gtime e
          · rfl
    · rfl

@[simp] theorem State.clearPart_gtime (s : State) (pid : Nat) : (s.clearPart pid).gtime = s.gtime := by
  unfold State.clearPart
  split
  · rfl
  · exact foldl_gtime (fun t l => t.cleanLine_gtime pid l) _ _

@[simp] theorem parkedBlockSwap_gtime (bid : Nat) (s : State) : (parkedBlockSwap bid s).gtime = s.gtime := by
  unfold parkedBlockSwap
  split
  · rfl
  · split
    · exact foldl_gtime State.clearPart_gtime _ _
    · rfl

@[simp] theorem State.seatWarps_gtime (s : State) (pid : Nat) (y : Layout) :
    (s.seatWarps pid y).gtime = s.gtime := by simp [State.seatWarps]

@[simp] theorem State.moveBin_gtime (s : State) (slot : Fin 8) (core : Nat) (b : Bin) : (s.moveBin slot core b).gtime = s.gtime := by
  unfold State.moveBin
  grind [State.releaseBin_gtime]

@[simp] theorem State.seatPart_gtime (s : State) (slot : Fin 8) (pid : Nat) (core : Nat) (y : Layout) :
    (s.seatPart slot pid core y).gtime = s.gtime :=
  foldl_gtime (fun _ _ => by simp) _ _

theorem State.returnBlock_gtime {s t : State} {bid : Nat} (h : s.returnBlock bid = some t) : t.gtime = s.gtime := by
  unfold State.returnBlock at h
  obtain ⟨b, -, hb⟩ := Option.bind_eq_some_iff.mp h
  obtain ⟨xs, -, rfl⟩ := Option.map_eq_some_iff.mp hb
  simp only [State.reorder_gtime, State.modBlock_gtime]
  exact foldl_gtime (fun t x => t.seatPart_gtime ..) _ _

@[simp] theorem swappedBlockReturn_gtime (bid : Nat) (s : State) : (swappedBlockReturn bid s).gtime = s.gtime := by
  have h : ∀ (l : List Nat) (o : Option State), (∀ t, o = some t → t.gtime = s.gtime) →
      ∀ t, l.foldl (fun t x => t.bind fun u => u.returnBlock x) o = some t → t.gtime = s.gtime := by
    intro l
    induction l with
    | nil => exact fun o ho => ho
    | cons x r ih =>
      intro o ho
      refine ih _ fun t ht => ?_
      obtain ⟨u, hu, hut⟩ := Option.bind_eq_some_iff.mp ht
      exact (State.returnBlock_gtime hut).trans (ho u hu)
  unfold swappedBlockReturn
  split
  · rfl
  · split
    · rfl
    · cases e : List.foldl _ (some s) (s.returning bid _) with
      | none => rfl
      | some t => exact h _ _ (fun t ht => by cases ht; rfl) t e

/-! ## ScanTest -/

@[simp] theorem State.chunkOver_gtime (s : State) (wid t k : Nat) (d : Fin 63) (w : Warp) : (s.chunkOver wid t k d w).gtime = s.gtime := by
  unfold State.chunkOver
  split <;> simp

theorem Ctx.yieldHold_gtime (c : Ctx) (t : Nat) : (c.yieldHold t).s.gtime = c.s.gtime := by
  unfold Ctx.yieldHold
  split <;> simp [Ctx.with_s]

@[simp] theorem stestChunkEnd_gtime (wid : Nat) (s : State) : (stestChunkEnd wid s).gtime = s.gtime := by
  unfold stestChunkEnd
  (repeat' split) <;> simp

/-! ## GangSwitch -/

@[simp] theorem State.endChunkOf_gtime (s : State) (wid : Nat) : (s.endChunkOf wid).gtime = s.gtime := by
  unfold State.endChunkOf
  (repeat' split) <;> simp

@[simp] theorem State.performOps_gtime (s : State) (wid : Nat) : (s.performOps wid).gtime = s.gtime := by
  unfold State.performOps
  split
  · rfl
  · exact foldl_gtime (fun t id => completeEvent_gtime ..) _ _

@[simp] theorem State.pauseCopy_gtime (s : State) (id : Nat) : (s.pauseCopy id).gtime = s.gtime := by
  unfold State.pauseCopy
  split
  · rfl
  · exact foldl_gtime (fun t k => t.endCopyChunk_gtime ..) _ _

@[simp] theorem State.dueTrap_gtime (s : State) (wid : Nat) : (s.dueTrap wid).gtime = s.gtime := by
  unfold State.dueTrap
  (repeat' split) <;> simp

@[simp] theorem State.leave_gtime (s : State) (o : Fin 8) : (s.leave o).gtime = s.gtime := by
  unfold State.leave
  simp only
  rw [foldl_gtime fun t (b : Nat × Block) => t.endHoldsOf_gtime b.1, foldl_gtime fun t (p : Nat × Part) => t.clearPart_gtime p.1,
    foldl_gtime fun t (c : Nat × Copy) => t.pauseCopy_gtime c.1, foldl_gtime fun t (w : Nat × Warp) => t.performOps_gtime w.1,
    foldl_gtime fun t (w : Nat × Warp) => t.endChunkOf_gtime w.1, foldl_gtime fun t (w : Nat × Warp) => t.dueTrap_gtime w.1]

@[simp] theorem State.abandonLost_gtime (s : State) (n : Fin 8) (t : Nat) : (s.abandonLost n t).gtime = s.gtime := by
  unfold State.abandonLost
  refine foldl_gtime (fun u b => ?_) _ _
  cases tget u.nodes b.2.node <;> simp

@[simp] theorem State.arriveSlot_gtime (s : State) (n : Fin 8) (t : Nat) : (s.arriveSlot n t).gtime = s.gtime := by simp [State.arriveSlot]

@[simp] theorem State.switchedEntry_gtime (s : State) (a : Armed) (out into : Option (Fin 8)) (late : Bool) :
    (s.switchedEntry a out into late).gtime = s.gtime := by simp [State.switchedEntry]

/-! ## ArrayLaunch -/

@[simp] theorem State.forgetLaunches_gtime (s : State) (slot : Fin 8) :
    (s.forgetLaunches slot).gtime = s.gtime := by simp [State.forgetLaunches]

@[simp] theorem State.abortQueued_gtime (s : State) (nid : Nat) : (s.abortQueued nid).gtime = s.gtime := by
  unfold State.abortQueued
  grind [State.modNode_gtime]

@[simp] theorem Ctx.launchArray_gtime (c : Ctx) (d : SOp) (image barrier param : DWord) (mask arg : Word) :
    (c.launchArray d image barrier param mask arg).gtime = c.s.gtime := by
  unfold Ctx.launchArray
  grind [State.queueInsts_gtime, Ctx.finish_gtime, State.forgetLaunches_gtime, State.abortQueued_gtime]

@[simp] theorem Ctx.launchRight_gtime (c : Ctx) (need : Need) (va : DWord) : (c.launchRight need va).1.gtime = c.s.gtime := by
  unfold Ctx.launchRight
  grind [State.translate_gtime]

@[simp] theorem Ctx.launchChecked_gtime (c : Ctx) (d : SOp) (image barrier param : DWord) (mask arg : Word) :
    (c.launchChecked d image barrier param mask arg).gtime = c.s.gtime := by
  unfold Ctx.launchChecked
  split
  · simp
  · split
    · simp
    · split
      · next s1 x e => simp [Ctx.with_s, fst_gtime e]
      · next s1 e =>
        split
        · next s2 x e2 => simp [Ctx.with_s, fst_gtime e2, fst_gtime e]
        · next s2 e2 =>
          rw [Ctx.release_gtime _ fun x => x.launchArray_gtime ..]
          simp [Ctx.with_s, fst_gtime e2, fst_gtime e]

@[simp] theorem State.imagePieces_gtime (i : Inst) (n : Nat) :
    ∀ (s : State) (va : DWord), (s.imagePieces i va n).1.gtime = s.gtime := by
  induction n with
  | zero => exact fun _ _ => rfl
  | succ n ih =>
    intro s va
    unfold State.imagePieces
    (repeat' split) <;> grind [State.portPlace_gtime, State.portRead_gtime]

@[simp] theorem State.fetchImage_gtime (s : State) (i : Inst) : (s.fetchImage i).1.gtime = s.gtime := by
  unfold State.fetchImage
  grind [State.imagePieces_gtime]

@[simp] theorem State.imageBytes_gtime (s : State) (i : Inst) : (s.imageBytes i).1.gtime = s.gtime := by
  unfold State.imageBytes
  grind [State.fetchImage_gtime]

@[simp] theorem State.takeBanks_gtime (s : State) (n : Nat) (i : Inst) : (s.takeBanks n i).gtime = s.gtime :=
  foldl_gtime (fun _ _ => by grind [State.modInst_gtime]) _ _

@[simp] theorem State.placeInst_gtime (s : State) (n : Nat) (i : Inst) (m : Image) : (s.placeInst n i m).gtime = s.gtime := by
  unfold State.placeInst
  (repeat' split) <;> simp

@[simp] theorem instanceStart_gtime (n : Nat) (s : State) : (instanceStart n s).gtime = s.gtime := by
  unfold instanceStart
  grind [State.imageBytes_gtime, State.modInst_gtime, State.placeInst_gtime]

@[simp] theorem State.raiseBarrier_gtime (s : State) (slot : Fin 8) (stack va : Nat) : (s.raiseBarrier slot stack va).gtime = s.gtime := by
  unfold State.raiseBarrier
  grind [State.ctxWalk_gtime, State.ask_gtime, State.readAt_gtime, State.ioRequest_gtime, State.writeAt_gtime, State.storeLost_gtime]

@[simp] theorem State.zeroBank_gtime (s : State) (slot : Fin 8) (stack tile : Nat) :
    (s.zeroBank slot stack tile).gtime = s.gtime := by simp [State.zeroBank]

@[simp] theorem State.endInst_gtime (s : State) (n : Nat) (i : Inst) (st : Nat) : (s.endInst n i st).gtime = s.gtime := by
  have hz : ∀ t : State, (i.banksHeld.foldl (fun t b => t.zeroBank i.slot i.stack b.2) t).gtime = t.gtime :=
    foldl_gtime (fun t b => t.zeroBank_gtime ..) _
  simp only [State.endInst, State.modInst_gtime, hz, State.raiseBarrier_gtime, State.storeVa_gtime]

@[simp] theorem State.endBankWork_gtime (s : State) (n : Nat) (i : Inst) : (s.endBankWork n i).gtime = s.gtime :=
  foldl_gtime (fun _ _ => by simp) _ _

@[simp] theorem State.endPortReads_gtime (s : State) (n : Nat) (i : Inst) : (s.endPortReads n i).gtime = s.gtime :=
  foldl_gtime (fun _ _ => foldl_gtime (fun t _ => streamDataReturn_gtime _ _ t) _ _) _ _

@[simp] theorem State.endFirings_gtime (s : State) (o : Fin 8) : (s.endFirings o).gtime = s.gtime :=
  foldl_gtime (fun _ _ => by simp) _ _

@[simp] theorem instanceComplete_gtime (n : Nat) (s : State) : (instanceComplete n s).gtime = s.gtime := by
  unfold instanceComplete
  (repeat' split) <;> simp

/-! ## Control -/

theorem Ctx.withTarget_gtime (c : Ctx) (off : BitVec 20) {body : DWord → State} (hb : ∀ t, (body t).gtime = c.s.gtime) :
    (c.withTarget off body).gtime = c.s.gtime := by
  unfold Ctx.withTarget
  grind [Ctx.raise_gtime]

theorem Ctx.pushing_gtime (c : Ctx) (e : DivEntry) {body : (Warp → Warp) → State} (hb : ∀ f, (body f).gtime = c.s.gtime) :
    (c.pushing e body).gtime = c.s.gtime := by
  unfold Ctx.pushing
  grind [Ctx.raise_gtime]

@[simp] theorem Ctx.closePath_gtime (c : Ctx) (live : Mask) (f : Warp → Warp) : (c.closePath live f).gtime = c.s.gtime := by
  unfold Ctx.closePath
  (repeat' split) <;> simp

@[simp] theorem Ctx.exitWarp_gtime (c : Ctx) : c.exitWarp.gtime = c.s.gtime := by
  unfold Ctx.exitWarp
  grind [State.coreEvent_gtime, State.endWarp_gtime, State.modWarp_gtime]

@[simp] theorem Ctx.exitPath_gtime (c : Ctx) : c.exitPath.gtime = c.s.gtime := by
  unfold Ctx.exitPath
  grind [State.endWarp_gtime, State.coreEvent_gtime, Ctx.closePath_gtime]

@[simp] theorem exitDrainEnd_gtime (wid : Nat) (s : State) : (exitDrainEnd wid s).gtime = s.gtime := by
  unfold exitDrainEnd
  (repeat' split) <;> simp

@[simp] theorem Ctx.raiseNext_gtime (c : Ctx) (t : Trap) : (c.raiseNext t).gtime = c.s.gtime := by simp [Ctx.raiseNext]

/-! ## Tree -/

@[simp] theorem State.readRcb_gtime (s : State) (slot : Fin 8) (addr : Nat) : (s.readRcb slot addr).1.gtime = s.gtime := by
  unfold State.readRcb
  grind [State.recordPlace_gtime, State.readRecord_gtime]

@[simp] theorem State.readTree_gtime (slot : Fin 8) (n : Nat) :
    ∀ (s : State) (xs : List (Nat × Nat)) (acc : List Rcb), (s.readTree slot n xs acc).1.gtime = s.gtime := by
  induction n with
  | zero => exact fun _ _ _ => rfl
  | succ n ih =>
    intro s xs acc
    unfold State.readTree
    grind [State.readRcb_gtime]

@[simp] theorem State.addTree_gtime (s : State) (slot : Fin 8) (defaults : Inherit) (xs : List Rcb) :
    (s.addTree slot defaults xs).gtime = s.gtime := by
  unfold State.addTree
  grind [State.modNode_gtime, State.started_gtime]

@[simp] theorem State.settleNodes_gtime (s : State) (nid : Nat) : (s.settleNodes nid).gtime = s.gtime :=
  foldl_gtime (fun _ _ => by simp) _ _

@[simp] theorem State.drainNode_gtime (s : State) (nid : Nat) : (s.drainNode nid).gtime = s.gtime := by
  unfold State.drainNode
  (repeat' split) <;> simp

@[simp] theorem State.drain_gtime (s : State) (nid : Nat) : (s.drain nid).gtime = s.gtime :=
  foldl_gtime (fun _ _ => by simp) _ _

@[simp] theorem State.discardWork_gtime (s : State) (nid : Nat) : (s.discardWork nid).gtime = s.gtime := by
  unfold State.discardWork
  exact (foldl_gtime (fun t i => t.endInst_gtime ..) _ _).trans (foldl_gtime (fun t b => t.removeBlock_gtime ..) _ _)

@[simp] theorem State.kill_gtime (s : State) (slot : Fin 8) (nid : Nat) : (s.kill slot nid).gtime = s.gtime := by
  have h1 : ∀ ks : List Nat, (ks.foldl (fun t k => t.killNode k) s).gtime = s.gtime := fun ks => foldl_gtime State.killNode_gtime ks s
  unfold State.kill
  split
  · exact h1 _
  · exact (foldl_gtime (fun t k => by simp) _ _).trans ((foldl_gtime State.discardWork_gtime _ _).trans (h1 _))

/-! ## Host -/

@[simp] theorem State.setWindow_gtime (s : State) (w : Fin 16) (n : Nat) (v : Word) :
    (s.setWindow w n v).gtime = s.gtime := by simp [State.setWindow]

@[simp] theorem State.answer_gtime (s : State) (c : HostCmd) (op : Nat) (r : BitVec 8 × Nat × State) :
    (s.answer c op r).gtime = r.2.2.gtime := by
  unfold State.answer
  simp

@[simp] theorem State.refuse_gtime (s : State) (r : BitVec 8) : (s.refuse r).2.2.gtime = s.gtime := by simp [State.refuse]

@[simp] theorem State.markBusy_gtime (s : State) (w : Fin 16) : (s.markBusy w).gtime = s.gtime := by simp [State.markBusy]

theorem State.takeTurn_gtime (s : State) (c : HostCmd) (op : Nat) {k : State → State} (hk : ∀ s, (k s).gtime = s.gtime) :
    (s.takeTurn c op k).gtime = s.gtime := by
  unfold State.takeTurn
  grind [State.markBusy_gtime]

theorem State.withSlot_gtime (s : State) (c : HostCmd) {f : Fin 8 → Context → BitVec 8 × Nat × State}
    (hf : ∀ k x, (f k x).2.2.gtime = s.gtime) : (s.withSlot c f).2.2.gtime = s.gtime := by
  unfold State.withSlot
  grind [State.refuse_gtime]

@[simp] theorem createCmd_gtime (c : HostCmd) (s : State) : (createCmd c s).2.2.gtime = s.gtime := by
  unfold createCmd
  (repeat' split) <;> simp

@[simp] theorem State.emptySlot_gtime (s : State) (k : Fin 8) (key : BitVec 8) : (s.emptySlot k key).gtime = s.gtime :=
  foldl_gtime (fun _ _ => by simp) _ _

@[simp] theorem destroyCmd_gtime (c : HostCmd) (s : State) : (destroyCmd c s).2.2.gtime = s.gtime := by
  unfold destroyCmd
  grind [State.withSlot_gtime, State.refuse_gtime, State.emptySlot_gtime]

@[simp] theorem quiesceCmd_gtime (c : HostCmd) (on : Bool) (s : State) : (quiesceCmd c on s).2.2.gtime = s.gtime := by
  unfold quiesceCmd
  grind [State.withSlot_gtime, State.refuse_gtime]

@[simp] theorem submitCmd_gtime (c : HostCmd) (s : State) : (submitCmd c s).2.2.gtime = s.gtime := by
  unfold submitCmd
  grind [State.withSlot_gtime, State.readTree_gtime, State.refuse_gtime, State.addTree_gtime]

theorem teardownCmd_gtime (c : HostCmd) {f : Fin 8 → Nat → State → State} (hf : ∀ k n s, (f k n s).gtime = s.gtime) (s : State) :
    (teardownCmd c f s).2.2.gtime = s.gtime :=
  s.withSlot_gtime c fun k x => by grind [State.refuse_gtime, State.settleNodes_gtime]

@[simp] theorem drainMode_gtime (n : Nat) (s : State) : (drainMode n s).gtime = s.gtime := by
  unfold drainMode
  split <;> simp

@[simp] theorem armCmd_gtime (c : HostCmd) (s : State) : (armCmd c s).2.2.gtime = s.gtime := by
  unfold armCmd
  grind [State.refuse_gtime]

@[simp] theorem disarmCmd_gtime (s : State) : (disarmCmd s).2.2.gtime = s.gtime := by
  unfold disarmCmd
  (repeat' split) <;> simp

@[simp] theorem querySlotsCmd_gtime (c : HostCmd) (s : State) : (querySlotsCmd c s).2.2.gtime = s.gtime := by
  unfold querySlotsCmd
  split <;> simp

@[simp] theorem queryNodeCmd_gtime (c : HostCmd) (s : State) : (queryNodeCmd c s).2.2.gtime = s.gtime := by
  unfold queryNodeCmd
  grind [State.withSlot_gtime, State.refuse_gtime]

@[simp] theorem configCmd_gtime (c : HostCmd) (s : State) : (configCmd c s).2.2.gtime = s.gtime := by
  unfold configCmd
  split <;> simp

@[simp] theorem commandOf_gtime (op : Nat) (c : HostCmd) (s : State) : (commandOf op c s).2.2.gtime = s.gtime := by
  unfold commandOf
  grind [createCmd_gtime, destroyCmd_gtime, quiesceCmd_gtime, submitCmd_gtime, teardownCmd_gtime, drainMode_gtime, State.kill_gtime,
    configCmd_gtime, State.refuse_gtime]

@[simp] theorem State.applyDeferred_gtime (s : State) (d : Deferred) : (s.applyDeferred d).gtime = s.gtime := by simp [State.applyDeferred]

@[simp] theorem State.applyAll_gtime (s : State) : s.applyAll.gtime = s.gtime :=
  foldl_gtime (fun _ _ => by simp) _ _

theorem State.accept_gtime (s : State) (c : HostCmd) (op : Nat) {f : State → BitVec 8 × Nat × State}
    (hf : ∀ s, (f s).2.2.gtime = s.gtime) : (s.accept c op f).gtime = s.gtime := by
  unfold State.accept
  grind [State.answer_gtime]

theorem State.command_gtime (s : State) (c : HostCmd) (op : Nat) {f : State → BitVec 8 × Nat × State}
    (hf : ∀ s, (f s).2.2.gtime = s.gtime) : (s.command c op f).gtime = s.gtime :=
  s.takeTurn_gtime c op fun t => t.accept_gtime c op hf

@[simp] theorem State.quiesceTo_gtime (s : State) (c : HostCmd) (on : Bool) : (s.quiesceTo c on).gtime = s.gtime := by
  unfold State.quiesceTo
  grind [State.command_gtime, quiesceCmd_gtime]

@[simp] theorem invalidateBegin_gtime (c : HostCmd) (s : State) : (invalidateBegin c s).gtime = s.gtime := by
  unfold invalidateBegin
  split <;> simp

@[simp] theorem invalidateStart_gtime (c : HostCmd) (s : State) : (invalidateStart c s).gtime = s.gtime := by
  unfold invalidateStart
  grind [State.takeTurn_gtime, invalidateBegin_gtime]

@[simp] theorem invalidateComplete_gtime (s : State) : (invalidateComplete s).gtime = s.gtime := by
  unfold invalidateComplete
  (repeat' split) <;> simp

/-! ## LaneMem -/

@[simp] theorem Ctx.loadOp_gtime (c : Ctx) (o : FormM) (off : Word) : (c.loadOp o off).gtime = c.s.gtime := by
  unfold Ctx.loadOp
  grind [Ctx.stall_gtime, Ctx.checked_gtime, Ctx.push_gtime]

@[simp] theorem Ctx.storeOp_gtime (c : Ctx) (o : FormM) (off : Word) : (c.storeOp o off).gtime = c.s.gtime := by
  unfold Ctx.storeOp
  grind [Ctx.stall_gtime, Ctx.checked_gtime, Ctx.releaseIf_gtime, Ctx.push_gtime]

@[simp] theorem Ctx.atomOp_gtime (c : Ctx) (o : FormM) (od : Ord) (kind : OpKind) (arg new : Nat → Nat) :
    (c.atomOp o od kind arg new).gtime = c.s.gtime := by
  unfold Ctx.atomOp
  grind [Ctx.stall_gtime, Ctx.checked_gtime, Ctx.releaseIf_gtime, Ctx.push_gtime]

/-! ## Links -/

@[simp] theorem State.loseRequest_gtime (s : State) (wid op : Nat) (x : Waiter) : (s.loseRequest wid op x).gtime = s.gtime := by
  unfold State.loseRequest
  split <;> simp

@[simp] theorem State.loseAll_gtime (s : State) (f : Place → Bool) : (s.loseAll f).gtime = s.gtime := by simp [State.loseAll]

@[simp] theorem peerTimeout_gtime (wid op : Nat) (s : State) : (peerTimeout wid op s).gtime = s.gtime := by
  unfold peerTimeout
  split <;> simp

@[simp] theorem cxlTimeout_gtime (wid op : Nat) (s : State) : (cxlTimeout wid op s).gtime = s.gtime := by
  unfold cxlTimeout
  (repeat' split) <;> simp

@[simp] theorem cxlLinkDown_gtime (q : Fin 8) (s : State) : (cxlLinkDown q s).gtime = s.gtime := by
  unfold cxlLinkDown
  grind [State.modCxl_gtime, State.loseAll_gtime, State.memerr_gtime]

@[simp] theorem loamLinkDown_gtime (p : Fin 24) (s : State) : (loamLinkDown p s).gtime = s.gtime := by simp [loamLinkDown]

@[simp] theorem loamLinkUp_gtime (p : Fin 24) (peer : Fin 16384) (s : State) : (loamLinkUp p peer s).gtime = s.gtime := by simp [loamLinkUp]

@[simp] theorem operatingPointChange_gtime (p : PointOf) (s : State) : (operatingPointChange p s).gtime = s.gtime := by
  unfold operatingPointChange
  (repeat' split) <;> simp

/-! ## Mailbox -/

@[simp] theorem State.post_gtime (s : State) (result : Nat) : (s.post result).gtime = s.gtime := by simp [State.post]

theorem State.mail_gtime (s : State) (want : Nat → Bool) {f : State → Nat × State} (hf : (f s).2.gtime = s.gtime) :
    (s.mail want f).gtime = s.gtime := by
  unfold State.mail
  split <;> simp [hf]

@[simp] theorem State.writeBuffer_gtime (s : State) (pa : Nat) (bs : List Byte) :
    (s.writeBuffer pa bs).gtime = s.gtime := by simp [State.writeBuffer]

@[simp] theorem attest_gtime (s : State) : (attest s).2.gtime = s.gtime := by
  unfold attest
  grind [State.writeBuffer_gtime]

@[simp] theorem access_gtime (s : State) : (access s).gtime = s.gtime := by
  unfold access
  grind [State.post_gtime]

@[simp] theorem power_gtime (s : State) : (power s).2.gtime = s.gtime := by
  unfold power
  grind

@[simp] theorem record_gtime (s : State) : (record s).2.gtime = s.gtime := by
  unfold record
  simp only
  split
  · rfl
  · split
    · simp
    · split
      · rfl
      · rw [State.gateCheck_gtime]
        refine foldl_gtime (fun t c => ?_) _ _
        split <;> simp

@[simp] theorem counters_gtime (s : State) : (counters s).2.gtime = s.gtime := by
  simp only [counters]
  split
  · rfl
  · split
    · rfl
    · simp only [State.writeBuffer_gtime]
      split <;> rfl

@[simp] theorem State.countRetries_gtime (s : State) : s.countRetries.gtime = s.gtime := by simp [State.countRetries]

@[simp] theorem links_gtime (s : State) : (links s).2.gtime = s.gtime := by
  unfold links
  grind [State.countRetries_gtime, State.writeBuffer_gtime]

@[simp] theorem State.boot_gtime (n : Nat) : ∀ (s : State) (k : Nat), (s.boot n k).gtime = s.gtime := by
  induction n with
  | zero => exact fun _ _ => rfl
  | succ n ih =>
    intro s k
    unfold State.boot
    split
    · exact ih _ _
    · rfl

@[simp] theorem State.writeFences_gtime (s : State) : s.writeFences.gtime = s.gtime := by
  unfold State.writeFences
  generalize List.foldl _ _ _ = m
  rfl

@[simp] theorem State.afterReset_gtime (s : State) : s.afterReset.gtime = s.gtime := by simp [State.afterReset]

@[simp] theorem moduleReset_gtime (s : State) : (moduleReset s).gtime = s.gtime := by
  unfold moduleReset
  grind [State.boot_gtime, State.afterReset_gtime, State.writeFences_gtime]

/-! ## TileMem -/

@[simp] theorem Ctx.placeTile_gtime (c : Ctx) (sp : Space) (need : Need) (xs : List (Nat × Nat)) :
    ∀ s : State, (c.placeTile s sp need xs).1.gtime = s.gtime := by
  induction xs with
  | nil => exact fun _ => rfl
  | cons x r ih =>
    intro s
    unfold Ctx.placeTile
    grind [Ctx.locate_gtime]

theorem Ctx.tileChecked_gtime (c : Ctx) (o : FormT) (need : Need) {body : Ctx → List Acc → State}
    (hb : ∀ d as, (body d as).gtime = d.s.gtime) : (c.tileChecked o need body).gtime = c.s.gtime := by
  unfold Ctx.tileChecked
  grind [Ctx.raise_gtime, Ctx.raiseFull_gtime, Ctx.placeTile_gtime, Ctx.with_s]

@[simp] theorem Ctx.flush_gtime (c : Ctx) (r : Nat × Nat) : (c.flush r).gtime = c.s.gtime := by
  unfold Ctx.flush
  split <;> simp

@[simp] theorem Ctx.invalidate_gtime (c : Ctx) (r : Nat × Nat) : (c.invalidate r).gtime = c.s.gtime := by
  unfold Ctx.invalidate
  (repeat' split) <;> simp

@[simp] theorem State.prefetch_gtime (s : State) (pid : Nat) (lvl : PrefLvl) (p : Place) (va : Nat) :
    (s.prefetch pid lvl p va).gtime = s.gtime := by
  unfold State.prefetch
  grind [State.linkFails_gtime, State.readMem_gtime, State.placeLine_gtime, State.request_gtime, State.mscAccess_gtime]

/-! ## Matrix -/

@[simp] theorem State.setAccum_gtime (s : State) (loc : Nat) (a : Accum) : (s.setAccum loc a).gtime = s.gtime := by simp [State.setAccum]

@[simp] theorem State.occupy_gtime (s : State) (key : Nat) (tiles : List Nat) :
    (s.occupy key tiles).gtime = s.gtime := by simp [State.occupy]

theorem Ctx.sound_gtime (c : Ctx) (rs : List (Nat × Nat)) {body : State} (hb : body.gtime = c.s.gtime) :
    (c.sound rs body).gtime = c.s.gtime := by
  unfold Ctx.sound
  split <;> simp [hb, Ctx.with_s]

theorem Ctx.formatSound_gtime (c : Ctx) (fw : VOp) {body : State} (hb : body.gtime = c.s.gtime) :
    (c.formatSound fw body).gtime = c.s.gtime := by
  unfold Ctx.formatSound
  simp only
  split <;> simp [hb, Ctx.with_s]

@[simp] theorem Ctx.multiply_gtime (c : Ctx) (w : Word) (n ta tb : Nat) : (c.multiply w n ta tb).gtime = c.s.gtime := by simp [Ctx.multiply]

@[simp] theorem State.zeroAccums_gtime (s : State) (part pt : Nat) (m : BitVec 4) : (s.zeroAccums part pt m).gtime = s.gtime :=
  foldl_gtime (fun _ _ => by grind [State.setAccum_gtime]) _ _

@[simp] theorem Ctx.placeDrain_gtime (c : Ctx) (sp : Space) (xs : List (Nat × Nat)) :
    ∀ s : State, (c.placeDrain s sp xs).1.gtime = s.gtime := by
  induction xs with
  | nil => exact fun _ => rfl
  | cons x r ih =>
    intro s
    unfold Ctx.placeDrain
    cases sp <;> grind [State.translate_gtime]

@[simp] theorem Ctx.drain_gtime (c : Ctx) (w : Word) (n : Nat) (sp : Space) (as : List Acc) : (c.drain w n sp as).gtime = c.s.gtime := by
  unfold Ctx.drain
  split <;> simp

@[simp] theorem Ctx.drainChecked_gtime (c : Ctx) (w : Word) (n : Nat) (sp : Space) (a : Nat) (pitch : Int) :
    (c.drainChecked w n sp a pitch).gtime = c.s.gtime := by
  unfold Ctx.drainChecked
  simp only
  split
  · simp
  · split
    · next s1 t e => simp [Ctx.with_s, fst_gtime e]
    · next s1 as e =>
      have h1 : s1.gtime = c.s.gtime := by simp [fst_gtime e]
      (repeat' split) <;> simp [h1, Ctx.with_s]

@[simp] theorem State.fetchBeats_gtime (w : Warp) (n : Nat) :
    ∀ (s : State) (a : DWord), (s.fetchBeats w a n).1.gtime = s.gtime := by
  induction n with
  | zero => exact fun _ _ => rfl
  | succ n ih =>
    intro s a
    unfold State.fetchBeats
    simp only
    (repeat' split) <;> grind [State.translate_gtime, State.ask_gtime, State.readMem_gtime]

@[simp] theorem State.applyBlock_gtime (s : State) (w : Warp) (h : WeightHeader) (pay : List Byte) :
    (s.applyBlock w h pay).1.gtime = s.gtime := by
  unfold State.applyBlock
  grind [State.setAccum_gtime, State.store_gtime, State.meet_gtime]

@[simp] theorem State.chainRound_gtime (s : State) (w : Warp) (b : DWord) : (s.chainRound w b).1.gtime = s.gtime := by
  unfold State.chainRound
  grind [State.fetchBeats_gtime, State.applyBlock_gtime]

@[simp] theorem State.chainEnd_gtime (s : State) (wid : Nat) (w : Warp) (d : Nat) (n : Word) (st : Nat) (b : DWord) :
    (s.chainEnd wid w d n st b).gtime = s.gtime := by
  unfold State.chainEnd
  split <;> simp

@[simp] theorem weightBlockFetched_gtime (wid : Nat) (s : State) : (weightBlockFetched wid s).gtime = s.gtime := by
  unfold weightBlockFetched
  grind [State.chainEnd_gtime, State.chainRound_gtime, State.modWarp_gtime]

/-! ## Migrate -/

@[simp] theorem State.dropPage_gtime (s : State) (m : Migration) : (s.dropPage m).gtime = s.gtime := by simp [State.dropPage]

@[simp] theorem State.startMigration_gtime (s : State) (slot : Fin 8) (va pa : Nat) : (s.startMigration slot va pa).gtime = s.gtime := by
  unfold State.startMigration
  grind [State.dropPage_gtime, State.store_gtime]

@[simp] theorem State.performStalled_gtime (s : State) (pa : Nat) (x : Stalled) :
    (s.performStalled pa x).gtime = s.gtime := by simp [State.performStalled]

@[simp] theorem State.endMigration_gtime (s : State) (m : Migration) (base : Nat) : (s.endMigration m base).gtime = s.gtime := by
  unfold State.endMigration
  refine (foldl_gtime (fun t x => ?_) _ _).trans ((foldl_gtime (fun t x => t.performStalled_gtime ..) _ _).trans ?_)
  · split
    · cases tget t.warps _ <;> simp
    · rfl
  · simp

@[simp] theorem State.lostBlock_gtime (s : State) (src dst : Nat) : (s.lostBlock src dst).gtime = s.gtime := by
  unfold State.lostBlock
  split <;> simp

@[simp] theorem State.copyBlock_gtime (s : State) (m : Migration) : (s.copyBlock m).gtime = s.gtime := by
  unfold State.copyBlock
  grind [State.ask_gtime, State.mscRequest_gtime, State.memerr_gtime, State.endMigration_gtime, State.lostBlock_gtime, State.store_gtime]

@[simp] theorem migration_gtime (slot : Fin 8) (va pa : Nat) (s : State) : (migration slot va pa s).gtime = s.gtime := by
  unfold migration
  (repeat' split) <;> simp

@[simp] theorem peerRequest_gtime (r : PeerReq) (s : State) : (peerRequest r s).gtime = s.gtime := by
  have h1 : ∀ (t : State) (pa n : Nat) (op : PeerOp), ((t.mscRequests pa n).physRequest (.peer r.src.val) pa n op).gtime = t.gtime := by
    simp
  unfold peerRequest
  split
  · rfl
  · split
    · rfl
    · split
      · exact foldl_gtime (fun t x => h1 t ..) _ _
      · exact h1 ..

/-! ## Select -/

@[simp] theorem Ctx.logic_gtime (c : Ctx) (o : FormL) (f : Mask → Mask → Mask) : (c.logic o f).gtime = c.s.gtime := by simp [Ctx.logic]

@[simp] theorem Ctx.exchange_gtime (c : Ctx) (o : FormA) (g : Fin 6) (mode : XMode) (old : Warp) :
    (c.exchange o g mode old).gtime = c.s.gtime := by simp [Ctx.exchange]

/-! ## Switch -/

@[simp] theorem State.switchNow_gtime (s : State) (a : Armed) : (s.switchNow a).gtime = s.gtime := by
  unfold State.switchNow
  grind [State.alert_gtime, State.leave_gtime, State.endFirings_gtime, State.arriveSlot_gtime, State.switchedEntry_gtime,
    State.applyAll_gtime]

@[simp] theorem gangSwitch_gtime (s : State) : (gangSwitch s).gtime = s.gtime := by
  unfold gangSwitch
  (repeat' split) <;> simp

@[simp] theorem switchOverrun_gtime (s : State) : (switchOverrun s).gtime = s.gtime := by
  unfold switchOverrun
  (repeat' split) <;> simp

/-! ## Uniform -/

@[simp] theorem Ctx.uni2_gtime (c : Ctx) (o : FormG) (f : Word → Word → Word) : (c.uni2 o f).gtime = c.s.gtime := by simp [Ctx.uni2]

@[simp] theorem Ctx.uni2F_gtime (c : Ctx) (o : FormG) (f : Word → Word → Word × Flags) :
    (c.uni2F o f).gtime = c.s.gtime := by simp [Ctx.uni2F]

end Sys2Proof.Machine
end

section
/-! PROOF. Only ticks move global time (R25). -/

namespace Sys2Proof.Machine

/-! ## Instructions -/

/-- What this does where it has a next state leaves global time. -/
def Timeless (f : State → Out) : Prop := ∀ s t, f s = .next t → t.gtime = s.gtime

theorem timeless_next {f : State → State} (hf : ∀ s, (f s).gtime = s.gtime) : Timeless fun s => .next (f s) := by
  intro s t h
  cases h
  exact hf s

theorem issueBy_gtime (i : Instr) (s : State) (wid : Nat) (slice : Bool) {body : Ctx → State}
    (hb : ∀ c, (body c).gtime = c.s.gtime) {t : State} (h : issueBy i s wid slice body = .next t) : t.gtime = s.gtime := by
  unfold issueBy at h
  split at h
  · cases h
  · split at h
    · cases h
    · split at h
      · cases h; rfl
      · split at h
        · cases h; exact s.deliverErr_gtime ..
        · cases h; exact Ctx.run_gtime _ hb

/-- An issuing instruction leaves global time where its body does. -/
theorem timeless_issue {i : Instr} {body : Ctx → State} (hb : ∀ c, (body c).gtime = c.s.gtime) :
    Timeless fun s => issue i s body := by
  intro s t h
  simp only [issue] at h
  split at h
  · cases h
  · exact issueBy_gtime i s _ _ hb h
  · exact issueBy_gtime i s _ _ hb h

theorem execBar_timeless (d a : SOp) (op : Option FoldOp) (k : Word) : Timeless (execBar d a op k) := by
  refine timeless_issue fun c => ?_
  (repeat' split) <;> simp [Ctx.release_gtime, Ctx.barChecked_gtime]

theorem execBarc_timeless : Timeless execBarc := by
  refine timeless_issue fun c => ?_
  grind [Ctx.barChecked_gtime, Ctx.release_gtime, Ctx.arrive_gtime, State.barcCheck_gtime, State.modBlock_gtime, Ctx.wait_gtime,
    Ctx.with_s]

theorem execPbarr_timeless (cl : Bool) (o : FormG) : Timeless (execPbarr cl o) := by
  refine timeless_issue fun c => ?_
  grind [Ctx.stall_gtime, Ctx.pbChecked_gtime, Ctx.release_gtime, Ctx.pbFenced_gtime, Ctx.raise_gtime, State.store_gtime,
    Ctx.finish_gtime, Ctx.with_s]

theorem execPbwait_timeless (cl : Bool) (a b : SOp) (k : Word) : Timeless (execPbwait cl a b k) := by
  refine timeless_issue fun c => ?_
  grind [Ctx.pbChecked_gtime, Ctx.stall_gtime, Ctx.finishAcq_gtime, Ctx.wait_gtime, Ctx.with_s]

theorem execFence_timeless (sc : Scope) : Timeless (execFence sc) := by
  refine timeless_issue fun c => ?_
  (repeat' split) <;> simp [Ctx.release_gtime]

theorem execWaitc_timeless (l st cp t : BitVec 6) : Timeless (execWaitc l st cp t) := by
  refine timeless_issue fun c => ?_
  (repeat' split) <;> simp

theorem execWaitw_timeless (d a b : SOp) (cc : Cond) : Timeless (execWaitw d a b cc) := by
  refine timeless_issue fun c => ?_
  grind [Ctx.stall_gtime, Ctx.raise_gtime, State.translate_gtime, Ctx.watch_gtime, Ctx.with_s]

theorem execSleept_timeless (a : SOp) (k : Word) : Timeless (execSleept a k) := by
  refine timeless_issue fun c => ?_
  simp only
  (repeat' split) <;> simp

theorem execSgfork_timeless (d a : SOp) : Timeless (execSgfork d a) := by
  refine timeless_issue fun c => ?_
  (repeat' split) <;> simp [Ctx.recordChecked_gtime]

theorem execSgreward_timeless (d b : SOp) (k : Word) : Timeless (execSgreward d b k) := by
  refine timeless_issue fun c => ?_
  simp [Ctx.release_gtime, Ctx.with_s]

theorem execSgcancel_timeless (d a b : SOp) (k : Word) : Timeless (execSgcancel d a b k) := by
  refine timeless_issue fun c => ?_
  simp only
  (repeat' split) <;> simp

theorem execSgwait_timeless (d a : SOp) : Timeless (execSgwait d a) := by
  refine timeless_issue fun c => ?_
  grind [Ctx.stall_gtime, Ctx.recordChecked_gtime, State.readDone_gtime, Ctx.raise_gtime, Ctx.finishAcq_gtime, Ctx.wait_gtime,
    Ctx.finish_gtime, Ctx.with_s]

theorem execFx_timeless (o : FormA3) (ty : FxTy) (op : FxOp) (na nb nc : Bool) (rm : RMode) : Timeless (execFx o ty op na nb nc rm) := by
  refine timeless_issue fun c => ?_
  simp only
  (repeat' split) <;> simp

theorem execCvt_timeless (o : FormA1) (st dt : Ty) (sat : Bool) (rm : RMode) (se de : BitVec 2) :
    Timeless (execCvt o st dt sat rm se de) := by
  refine timeless_issue fun c => ?_
  simp only
  (repeat' split) <;> simp

theorem execCopy_timeless (d a : SOp) (dsp ssp : Space) : Timeless (execCopy d a dsp ssp) := by
  refine timeless_issue fun c => ?_
  simp only
  (repeat' split) <;> simp

theorem execSpawn_timeless (q : Fin 8) (a b : VOp) (k : Word) : Timeless (execSpawn q a b k) := by
  refine timeless_issue fun c => ?_
  simp only
  split
  · simp
  · split
    · simp
    · split
      · simp
      · split
        · simp
        · rw [State.orderOf_gtime, foldl_gtime (fun t p => t.addPair_gtime ..)]
          simp

theorem execStestHold_timeless (o : FormG) : Timeless (execStestHold o) := by
  refine timeless_issue fun c => ?_
  simp only
  (repeat' split) <;> simp

theorem execStestChunk_timeless (o : FormG) : Timeless (execStestChunk o) := by
  refine timeless_issue fun x => ?_
  simp only
  (repeat' split) <;> simp [Ctx.yieldHold_gtime]

theorem execStestAppeal_timeless (o : FormG) : Timeless (execStestAppeal o) := by
  refine timeless_issue fun x => ?_
  simp [Ctx.yieldHold_gtime, Ctx.with_s]

theorem execStestFree_timeless (o : FormG) : Timeless (execStestFree o) := by
  refine timeless_issue fun x => ?_
  simp only
  split <;> simp [Ctx.yieldHold_gtime]

theorem execDlaunch_timeless (d a : SOp) : Timeless (execDlaunch d a) := by
  refine timeless_issue fun c => ?_
  simp only
  (repeat' split) <;> simp

theorem execBcc_timeless (cc : Cond) (off : BitVec 20) (a b : SOp) (k : Word) : Timeless (execBcc cc off a b k) := by
  refine timeless_issue fun c => ?_
  (repeat' split) <;> simp [Ctx.withTarget_gtime]

theorem execRet_timeless (a : SOp) : Timeless (execRet a) := by
  refine timeless_issue fun c => ?_
  simp only
  (repeat' split) <;> simp

theorem execLoop_timeless (n : Fin 16) (off : BitVec 20) : Timeless (execLoop n off) := by
  refine timeless_issue fun c => ?_
  simp only
  (repeat' split) <;> simp [Ctx.withTarget_gtime]

theorem execSplit_timeless (off : BitVec 20) : Timeless (execSplit off) := by
  refine timeless_issue fun c => ?_
  (repeat' split) <;> simp [Ctx.withTarget_gtime]

theorem execBq_timeless (inv : Bool) (p : Fin 8) (off : BitVec 20) : Timeless (execBq inv p off) := by
  refine timeless_issue fun c => ?_
  simp only
  (repeat' split) <;> simp [Ctx.withTarget_gtime, Ctx.pushing_gtime]

theorem execExit_timeless : Timeless execExit := by
  refine timeless_issue fun c => ?_
  (repeat' split) <;> simp

theorem execEret_timeless : Timeless execEret := by
  refine timeless_issue fun c => ?_
  (repeat' split) <;> simp

theorem execTeardownDrain_timeless (c : HostCmd) : Timeless (execTeardownDrain c) := by
  refine timeless_next fun s => ?_
  grind [State.command_gtime, teardownCmd_gtime, drainMode_gtime, Ctx.with_s]

theorem execTeardownKill_timeless (c : HostCmd) : Timeless (execTeardownKill c) := by
  refine timeless_next fun s => ?_
  grind [State.command_gtime, teardownCmd_gtime, State.kill_gtime, Ctx.with_s]

theorem execQuerySlots_timeless (c : HostCmd) : Timeless (execQuerySlots c) := by
  refine timeless_next fun s => ?_
  (repeat' split) <;> simp [State.command_gtime]

theorem execQueryNode_timeless (c : HostCmd) : Timeless (execQueryNode c) := by
  refine timeless_next fun s => ?_
  (repeat' split) <;> simp [State.command_gtime]

theorem execBadcmd_timeless (c : HostCmd) (op : BitVec 8) : Timeless (execBadcmd c op) := by
  refine timeless_next fun s => ?_
  (repeat' split) <;> simp [State.command_gtime]

theorem execQld_timeless (n : Fin 4) (o : FormQ) : Timeless (execQld n o) := by
  refine timeless_issue fun c => ?_
  (repeat' split) <;> simp [Ctx.checked_gtime]

theorem execQst_timeless (o : FormQ) : Timeless (execQst o) := by
  refine timeless_issue fun c => ?_
  simp only
  (repeat' split) <;> simp [Ctx.checked_gtime]

theorem execAccess_timeless : Timeless execAccess := by
  refine timeless_next fun s => ?_
  (repeat' split) <;> simp

theorem execTld_timeless (o : FormT) : Timeless (execTld o) := by
  refine timeless_issue fun c => ?_
  (repeat' split) <;> simp [Ctx.tileChecked_gtime]

theorem execTst_timeless (o : FormT) : Timeless (execTst o) := by
  refine timeless_issue fun c => ?_
  simp only
  (repeat' split) <;> simp [Ctx.tileChecked_gtime, Ctx.with_s]

theorem execPref_timeless (a : SOp) (lvl : PrefLvl) : Timeless (execPref a lvl) := by
  refine timeless_issue fun c => ?_
  grind [State.translate_gtime, Ctx.finish_gtime, State.prefetch_gtime, Ctx.with_s]

theorem execMma_timeless (q : Fin 8) (fw : VOp) (cn : Fin 4) (ta tb : Fin 8) (k : Word) : Timeless (execMma q fw cn ta tb k) := by
  refine timeless_issue fun c => ?_
  (repeat' split) <;> simp [Ctx.sound_gtime, Ctx.formatSound_gtime]

theorem execMatrixOpEnd_timeless (core part : Nat) : Timeless (execMatrixOpEnd core part) := by
  refine timeless_next fun s => ?_
  cases s.running with
  | none => rfl
  | some r => exact foldl_gtime (by intros; rfl) _ _

theorem execCzero_timeless (m : BitVec 4) : Timeless (execCzero m) := by
  refine timeless_issue fun c => ?_
  (repeat' split) <;> simp

theorem execCst_timeless (cn : Fin 4) (space : Space) (d a b : SOp) (k : Word) : Timeless (execCst cn space d a b k) := by
  refine timeless_issue fun c => ?_
  simp only
  (repeat' split) <;> simp [Ctx.sound_gtime]

theorem execWdrun_timeless (o : FormG) : Timeless (execWdrun o) := by
  refine timeless_issue fun c => ?_
  simp only
  (repeat' split) <;> simp

theorem execMovcRead_timeless (d : SOp) (n : BitVec 11) : Timeless (execMovcRead d n) := by
  refine timeless_issue fun c => ?_
  simp only
  (repeat' split) <;> simp

theorem execMovcWrite_timeless (a : SOp) (n : BitVec 11) (k : Word) : Timeless (execMovcWrite a n k) := by
  refine timeless_issue fun c => ?_
  simp only
  (repeat' split) <;> simp

theorem execXlane_timeless (o : FormA) (g : Fin 6) (mode : XMode) : Timeless (execXlane o g mode) := by
  refine timeless_issue fun c => ?_
  have hm : ∀ l : List Nat, (l.foldl (fun t a => t.meet a 4) c.s).gtime = c.s.gtime := fun l =>
    foldl_gtime (fun t a => t.meet_gtime a 4) l c.s
  simp only
  split
  · simp
  · split
    · simp [hm]
    · split <;> simp [hm]

theorem exec_timeless : ∀ i : Instr, Timeless (exec i)
  | .iadd _ => timeless_issue fun c => c.lane2_gtime ..
  | .isub _ => timeless_issue fun c => c.lane2_gtime ..
  | .imul _ => timeless_issue fun c => c.lane2_gtime ..
  | .imulh _ => timeless_issue fun c => c.lane2_gtime ..
  | .imulhU _ => timeless_issue fun c => c.lane2_gtime ..
  | .imad _ => timeless_issue fun c => c.lane3_gtime ..
  | .idiv _ => timeless_issue fun c => c.lane2_gtime ..
  | .idivU _ => timeless_issue fun c => c.lane2_gtime ..
  | .irem _ => timeless_issue fun c => c.lane2_gtime ..
  | .iremU _ => timeless_issue fun c => c.lane2_gtime ..
  | .imin _ => timeless_issue fun c => c.lane2_gtime ..
  | .iminU _ => timeless_issue fun c => c.lane2_gtime ..
  | .imax _ => timeless_issue fun c => c.lane2_gtime ..
  | .imaxU _ => timeless_issue fun c => c.lane2_gtime ..
  | .iabs _ => timeless_issue fun c => c.lane1_gtime ..
  | .and _ => timeless_issue fun c => c.lane2_gtime ..
  | .or _ => timeless_issue fun c => c.lane2_gtime ..
  | .xor _ => timeless_issue fun c => c.lane2_gtime ..
  | .bmix _ _ => timeless_issue fun c => c.lane3_gtime ..
  | .shl _ => timeless_issue fun c => c.lane2_gtime ..
  | .shr _ => timeless_issue fun c => c.lane2_gtime ..
  | .shrA _ => timeless_issue fun c => c.lane2_gtime ..
  | .popc _ => timeless_issue fun c => c.lane1_gtime ..
  | .clz _ => timeless_issue fun c => c.lane1_gtime ..
  | .brev _ => timeless_issue fun c => c.lane1_gtime ..
  | .bfe _ _ _ _ => timeless_issue fun c => c.lane1_gtime ..
  | .bfi _ _ _ => timeless_issue fun c => c.lane2_gtime ..
  | .icmp _ _ _ _ _ _ => timeless_issue fun c => c.finish_gtime ..
  | .fcmp _ _ _ _ _ _ => timeless_issue fun c => c.finish_gtime _
  | .qand _ => timeless_issue fun c => c.logic_gtime ..
  | .qor _ => timeless_issue fun c => c.logic_gtime ..
  | .qxor _ => timeless_issue fun c => c.logic_gtime ..
  | .sel _ _ _ _ _ => timeless_issue fun c => c.finish_gtime ..
  | .movqRead _ _ => timeless_issue fun c => c.finish_gtime ..
  | .movqWrite _ _ _ => timeless_issue fun c => c.finish_gtime ..
  | .fadd _ => timeless_issue fun c => c.float2_gtime ..
  | .fsub _ => timeless_issue fun c => c.float2_gtime ..
  | .fmul _ => timeless_issue fun c => c.float2_gtime ..
  | .fmin _ => timeless_issue fun c => c.float2_gtime ..
  | .fmax _ => timeless_issue fun c => c.float2_gtime ..
  | .ffma _ _ _ _ => timeless_issue fun c => c.laneF_gtime ..
  | .fx o ty op na nb nc rm => execFx_timeless o ty op na nb nc rm
  | .fdiv _ _ => timeless_issue fun c => c.float2_gtime ..
  | .fsqrt _ => timeless_issue fun c => c.float1_gtime ..
  | .frcp _ => timeless_issue fun c => c.float1_gtime ..
  | .frsq _ => timeless_issue fun c => c.float1_gtime ..
  | .fexp2 _ => timeless_issue fun c => c.float1_gtime ..
  | .flog2 _ => timeless_issue fun c => c.float1_gtime ..
  | .fsin _ => timeless_issue fun c => c.float1_gtime ..
  | .fcos _ => timeless_issue fun c => c.float1_gtime ..
  | .cvt o st dt sat rm se de => execCvt_timeless o st dt sat rm se de
  | .mov _ => timeless_issue fun c => c.lane1_gtime ..
  | .movs _ _ _ _ => timeless_issue fun c => c.finish_gtime ..
  | .xlane o g mode => execXlane_timeless o g mode
  | .vote _ _ _ _ => timeless_issue fun c => c.finish_gtime ..
  | .lfold _ _ _ _ _ => timeless_issue fun c => c.finish_gtime _
  | .ld _ => timeless_issue fun c => c.loadOp_gtime ..
  | .st _ => timeless_issue fun c => c.storeOp_gtime ..
  | .ldx _ _ => timeless_issue fun c => c.loadOp_gtime ..
  | .stx _ _ => timeless_issue fun c => c.storeOp_gtime ..
  | .atom _ _ _ _ => timeless_issue fun c => c.atomOp_gtime ..
  | .cas _ _ _ _ => timeless_issue fun c => c.atomOp_gtime ..
  | .spawn q a b k => execSpawn_timeless q a b k
  | .mma q fw cn ta tb k => execMma_timeless q fw cn ta tb k
  | .unassignedOpcode _ => timeless_issue fun c => c.raise_gtime ..
  | .sadd _ => timeless_issue fun c => c.uni2_gtime ..
  | .ssub _ => timeless_issue fun c => c.uni2_gtime ..
  | .smul _ => timeless_issue fun c => c.uni2_gtime ..
  | .sand _ => timeless_issue fun c => c.uni2_gtime ..
  | .sor _ => timeless_issue fun c => c.uni2_gtime ..
  | .sxor _ => timeless_issue fun c => c.uni2_gtime ..
  | .sshl _ => timeless_issue fun c => c.uni2_gtime ..
  | .sshr _ => timeless_issue fun c => c.uni2_gtime ..
  | .sshrA _ => timeless_issue fun c => c.uni2_gtime ..
  | .smin _ => timeless_issue fun c => c.uni2_gtime ..
  | .sminU _ => timeless_issue fun c => c.uni2_gtime ..
  | .smax _ => timeless_issue fun c => c.uni2_gtime ..
  | .smaxU _ => timeless_issue fun c => c.uni2_gtime ..
  | .smov _ _ _ => timeless_issue fun c => c.finish_gtime ..
  | .sfadd _ _ => timeless_issue fun c => c.uni2F_gtime ..
  | .sfmul _ _ => timeless_issue fun c => c.uni2F_gtime ..
  | .bra _ => timeless_issue fun c => c.withTarget_gtime _ fun _ => c.finishAt_gtime ..
  | .bcc cc off a b k => execBcc_timeless cc off a b k
  | .bq inv p off => execBq_timeless inv p off
  | .rcv _ => timeless_issue fun c => c.withTarget_gtime _ fun _ => c.pushing_gtime _ fun f => c.finish_gtime f
  | .join => timeless_issue fun c => c.closePath_gtime ..
  | .call _ => timeless_issue fun c => c.withTarget_gtime _ fun _ => c.finishAt_gtime ..
  | .ret a => execRet_timeless a
  | .loop c off => execLoop_timeless c off
  | .exit => execExit_timeless
  | .split off => execSplit_timeless off
  | .qld n o => execQld_timeless n o
  | .qst o => execQst_timeless o
  | .bar d a op k => execBar_timeless d a op k
  | .barc => execBarc_timeless
  | .pbarr cl o => execPbarr_timeless cl o
  | .pbwait cl a b k => execPbwait_timeless cl a b k
  | .fence sc => execFence_timeless sc
  | .waitc l st c t => execWaitc_timeless l st c t
  | .waitw d a b cc => execWaitw_timeless d a b cc
  | .sleept a k => execSleept_timeless a k
  | .nop => timeless_issue fun c => c.finish_gtime ..
  | .copy d a dsp ssp => execCopy_timeless d a dsp ssp
  | .tld o => execTld_timeless o
  | .tst o => execTst_timeless o
  | .czero m => execCzero_timeless m
  | .cst cn space d a b k => execCst_timeless cn space d a b k
  | .dlaunch d a => execDlaunch_timeless d a
  | .dsigTok _ _ _ => timeless_issue fun c => c.finish_gtime id
  | .dsigAbort _ _ => timeless_issue fun c => c.finish_gtime id
  | .dstat _ => timeless_issue fun c => c.finish_gtime _
  | .sgfork d a => execSgfork_timeless d a
  | .sgreward d b k => execSgreward_timeless d b k
  | .sgcancel d a b k => execSgcancel_timeless d a b k
  | .sgwait d a => execSgwait_timeless d a
  | .wdrun o => execWdrun_timeless o
  | .movcRead d n => execMovcRead_timeless d n
  | .movcWrite a n k => execMovcWrite_timeless a n k
  | .trap _ _ _ => timeless_issue fun c => c.raiseNext_gtime ..
  | .eret => execEret_timeless
  | .brk => timeless_issue fun c => c.raiseNext_gtime ..
  | .cflush _ _ _ => timeless_issue fun c => c.flush_gtime ..
  | .cflushAll => timeless_issue fun c => c.flush_gtime ..
  | .cinv _ _ _ => timeless_issue fun c => c.invalidate_gtime ..
  | .cinvAll => timeless_issue fun c => c.invalidate_gtime ..
  | .pref a lvl => execPref_timeless a lvl
  | .stestHold o => execStestHold_timeless o
  | .stestChunk o => execStestChunk_timeless o
  | .stestAppeal o => execStestAppeal_timeless o
  | .stestFree o => execStestFree_timeless o
  | .loadComplete _ _ => timeless_next fun _ => completeEvent_gtime ..
  | .storeComplete _ _ => timeless_next fun _ => completeEvent_gtime ..
  | .tileOpComplete _ _ => timeless_next fun _ => completeEvent_gtime ..
  | .matrixOpEnd core part => execMatrixOpEnd_timeless core part
  | .copyChunkDone _ _ => timeless_next fun _ => copyChunkDone_gtime ..
  | .waitcEnd _ => timeless_next fun _ => waitcEnd_gtime ..
  | .waitwWake _ => timeless_next fun _ => waitwWake_gtime ..
  | .waitwRemotePoll _ => timeless_next fun _ => waitwPoll_gtime ..
  | .pbwaitWake _ => timeless_next fun _ => pbwaitWake_gtime ..
  | .sgwaitWake _ => timeless_next fun _ => sgwaitWake_gtime ..
  | .sleeptWake _ => timeless_next fun _ => sleeptWake_gtime ..
  | .exitDrainEnd _ => timeless_next fun _ => exitDrainEnd_gtime ..
  | .weightBlockFetched _ => timeless_next fun _ => weightBlockFetched_gtime ..
  | .stestChunkEnd _ => timeless_next fun _ => stestChunkEnd_gtime ..
  | .spawnBinTimer _ _ => timeless_next fun _ => spawnBinTimer_gtime ..
  | .spawnWarpPlace _ => timeless_next fun _ => spawnWarpPlace_gtime ..
  | .nodeStart _ => timeless_next fun _ => nodeStart_gtime ..
  | .blockPlace _ => timeless_next fun _ => blockPlace_gtime ..
  | .nodeComplete _ => timeless_next fun _ => nodeComplete_gtime ..
  | .timeSliceExpiry _ => timeless_next fun _ => timeSliceExpiry_gtime ..
  | .parkedBlockSwap _ => timeless_next fun _ => parkedBlockSwap_gtime ..
  | .swappedBlockReturn _ => timeless_next fun _ => swappedBlockReturn_gtime ..
  | .groupDeadline _ => timeless_next fun _ => groupDeadline_gtime ..
  | .workStopComplete _ => timeless_next fun _ => workStopComplete_gtime ..
  | .gangSwitch => timeless_next fun _ => gangSwitch_gtime ..
  | .switchOverrun => timeless_next fun _ => switchOverrun_gtime ..
  | .create _ => timeless_next fun s => s.command_gtime _ _ (createCmd_gtime _)
  | .destroy _ => timeless_next fun s => s.command_gtime _ _ (destroyCmd_gtime _)
  | .quiesce _ => timeless_next fun s => s.quiesceTo_gtime ..
  | .quiesceResume _ => timeless_next fun s => s.quiesceTo_gtime ..
  | .submit _ => timeless_next fun s => s.command_gtime _ _ (submitCmd_gtime _)
  | .teardownDrain c => execTeardownDrain_timeless c
  | .teardownKill c => execTeardownKill_timeless c
  | .arm _ => timeless_next fun s => s.command_gtime _ _ (armCmd_gtime _)
  | .disarm _ => timeless_next fun s => s.command_gtime _ _ disarmCmd_gtime
  | .querySlots c => execQuerySlots_timeless c
  | .queryNode c => execQueryNode_timeless c
  | .invalidate _ => timeless_next fun _ => invalidateStart_gtime ..
  | .invalidateComplete => timeless_next fun _ => invalidateComplete_gtime ..
  | .config _ => timeless_next fun s => s.command_gtime _ _ (configCmd_gtime _)
  | .badcmd c op => execBadcmd_timeless c op
  | .registerWrite _ _ => timeless_next fun _ => registerWrite_gtime ..
  | .memoryWindowRead _ _ => timeless_next fun _ => memoryWindowRead_gtime ..
  | .memoryWindowWrite _ _ => timeless_next fun _ => memoryWindowWrite_gtime ..
  | .unsupportedRequest _ => timeless_next fun _ => unsupportedRequest_gtime ..
  | .attest => timeless_next fun s => s.mail_gtime _ (attest_gtime s)
  | .access => execAccess_timeless
  | .power => timeless_next fun s => s.mail_gtime _ (power_gtime s)
  | .record => timeless_next fun s => s.mail_gtime _ (record_gtime s)
  | .counters => timeless_next fun s => s.mail_gtime _ (counters_gtime s)
  | .links => timeless_next fun s => s.mail_gtime _ (links_gtime s)
  | .mailboxBadarg => timeless_next fun s => s.mail_gtime _ rfl
  | .moduleReset => timeless_next fun _ => moduleReset_gtime ..
  | .peerRequest _ => timeless_next fun _ => peerRequest_gtime ..
  | .peerTimeout _ _ => timeless_next fun _ => peerTimeout_gtime ..
  | .cxlTimeout _ _ => timeless_next fun _ => cxlTimeout_gtime ..
  | .cxlLinkDown _ => timeless_next fun _ => cxlLinkDown_gtime ..
  | .migration _ _ _ => timeless_next fun _ => migration_gtime ..
  | .decoftInstanceStart _ => timeless_next fun _ => instanceStart_gtime ..
  | .fuFire _ _ => timeless_next fun _ => fuFire_gtime ..
  | .tokenTransit _ _ => timeless_next fun _ => tokenTransit_gtime ..
  | .streamPortAccess _ _ => timeless_next fun _ => streamPortAccess_gtime ..
  | .streamDataReturn _ _ => timeless_next fun _ => streamDataReturn_gtime ..
  | .scatterAddBatch _ _ => timeless_next fun _ => scatterAddBatch_gtime ..
  | .bankAccess _ _ => timeless_next fun _ => bankAccess_gtime ..
  | .instanceComplete _ => timeless_next fun _ => instanceComplete_gtime ..
  | .collectiveChunkReceive _ _ _ _ => timeless_next fun _ => collectiveChunkReceive_gtime ..
  | .collectiveChunkAck _ _ _ => timeless_next fun _ => collectiveChunkAck_gtime ..
  | .chunkResend _ _ => timeless_next fun _ => chunkResend_gtime ..
  | .collectiveGiveUp _ _ => timeless_next fun _ => collectiveGiveUp_gtime ..
  | .heartbeatSend _ => timeless_next fun _ => heartbeatSend_gtime ..
  | .heartbeatReceive _ _ _ => timeless_next fun _ => heartbeatReceive_gtime ..
  | .heartbeatMiss _ _ => timeless_next fun _ => heartbeatMiss_gtime ..
  | .votePeriod _ => timeless_next fun _ => votePeriod_gtime ..
  | .routerReset _ => timeless_next fun _ => routerReset_gtime ..
  | .solitarySuspect _ => timeless_next fun _ => solitarySuspect_gtime ..
  | .appealTimeout _ => timeless_next fun _ => appealTimeout_gtime ..
  | .loamLinkDown _ => timeless_next fun _ => loamLinkDown_gtime ..
  | .loamLinkUp _ _ => timeless_next fun _ => loamLinkUp_gtime ..
  | .operatingPointChange _ => timeless_next fun _ => operatingPointChange_gtime ..

/-! ## Fetches, ticks and steps -/

/-- The state in which a fetch leaves the module. -/
def Fetched.left : Fetched → State
  | .run _ s => s
  | .stop s => s

@[simp] theorem State.fetchLit_gtime (s : State) (w : Warp) (wid : Nat) (slice : Bool) (pc : DWord) (w0 e : Word) :
    (s.fetchLit w wid slice pc w0 e).left.gtime = s.gtime := by
  unfold State.fetchLit
  grind [Fetched.left, State.fetchWord_gtime, State.raiseIn_gtime]

@[simp] theorem State.fetchAt_gtime (s : State) (w : Warp) (wid : Nat) (slice : Bool) (pc : DWord) :
    (s.fetchAt w wid slice pc).left.gtime = s.gtime := by
  unfold State.fetchAt
  grind [Fetched.left, State.fetchWord_gtime, State.raiseIn_gtime, State.deliverErr_gtime, State.fetchLit_gtime]

@[simp] theorem State.fetch_gtime (s : State) (wid : Nat) (slice : Bool) : (s.fetch wid slice).left.gtime = s.gtime := by
  unfold State.fetch
  grind [Fetched.left, State.fetchAt_gtime, State.deliver_gtime]

theorem runFetched_gtime {f : Fetched} {t : State} (h : runFetched f = .next t) : t.gtime = f.left.gtime := by
  cases f with
  | run i s => exact exec_timeless i s t h
  | stop s => cases h; rfl

/-- Time passes by what the tick says, whatever the gates decide first (R25, R430). -/
@[simp] theorem State.pass_gtime (s : State) (ns : Nat) : (s.pass ns).gtime = s.gtime + BitVec.ofNat 64 ns :=
  congrArg (· + BitVec.ofNat 64 ns) s.gateCheck_gtime

/-- Settles O60: every turn but a tick is one of the operations above, each of which leaves global time. -/
theorem onlyTicksMoveGlobalTime : Obligations.OnlyTicksMoveGlobalTime := by
  unfold Obligations.OnlyTicksMoveGlobalTime
  intro s t h
  rw [← s.nextTurn_gtime]
  unfold step at h
  simp only at h
  generalize s.nextTurn = u at h ⊢
  obtain ⟨turn, s⟩ := u
  cases turn with
  | tick ns =>
    cases h
    exact .inr ⟨ns, rfl, s.pass_gtime ns⟩
  | device i =>
    refine .inl ?_
    simp only at h
    split at h
    · exact exec_timeless i _ t h
    · cases h; rfl
  | issue wid => exact .inl ((runFetched_gtime h).trans (State.fetch_gtime ..))
  | slice wid => exact .inl ((runFetched_gtime h).trans (State.fetch_gtime ..))
  | access wid op => cases h; exact .inl (performEarly_gtime ..)
  | unit copy place => cases h; exact .inl (moveEarly_gtime ..)
  | part node place => cases h; exact .inl (chunkEarly_gtime ..)
  | register off => cases h; exact .inl (State.registerRead_gtime ..)
  | delta d => cases h; exact .inl (deltaArrives_gtime ..)
  | barrier => cases h; exact .inl (applyDeltas_gtime ..)

end Sys2Proof.Machine
end

section
/-! PROOF. O52. What a tick does to time and to the contexts where the gates fence no core (R25, R324, R430, R436). -/

namespace Sys2Proof.Machine

/-- R436: with no core that appeals there is nobody to take back. -/
theorem State.readmits_noAppeals {s : State} (h : NoAppeals s) : s.readmits = s := by
  have hnone : (s.cores.filter fun x => x.2.state == .appealing) = [] :=
    List.filter_eq_nil_iff.mpr fun x hx => by simpa using h x hx
  rw [State.readmits, hnone]
  rfl

/-- R430: with no majority against any core the gates let time pass at once. -/
theorem State.gateCheck_quiet {s : State} (hq : Quiet s) (ha : NoAppeals s) : s.gateCheck = s := by
  unfold Quiet at hq
  rw [State.gateCheck, State.gates, hq]
  exact State.readmits_noAppeals ha

/-- R324: a tick moves the context time of the running slot alone. -/
theorem State.tick_ctxs (s : State) (ns : Nat) (k : Fin 8) :
    (s.tick ns).ctxs[k] =
      if s.running = some k then (s.ctxs[k]).map fun c => { c with time := c.time + s.runTime ns } else s.ctxs[k] := by
  unfold State.tick
  cases hr : s.running with
  | none => simp
  | some r =>
    by_cases hk : r = k
    · subst hk; simp
    · have hne : r.val ≠ k.val := fun e => hk (Fin.ext e)
      simp [hk, Vector.getElem_set_ne, hne]

/-- R329: an armed switch stops the running slot's time at its target. -/
theorem State.runTime_eq (s : State) (ns : Nat) :
    s.runTime ns = match s.armed with
      | none => ns
      | some a => min ns (a.time - s.gtime.toNat) := by
  unfold State.runTime
  cases s.armed <;> rfl

theorem step_tick {s : State} {ns : Nat} {r : List Turn} (h : s.agenda = .tick ns :: r) :
    step s = .next (({ s with agenda := r } : State).pass ns) := by
  simp [step, State.nextTurn, h]

/-- Settles O52: a tick is `State.pass`, and its gates change nothing where no core is accused by a majority and none appeals. -/
theorem ticksMoveTime : Obligations.TicksMoveTime := by
  unfold Obligations.TicksMoveTime
  intro s ns r h
  refine ⟨_, step_tick h, State.pass_gtime _ ns, fun hq ha => ?_⟩
  have hpass : ({ s with agenda := r } : State).pass ns = ({ s with agenda := r } : State).tick ns :=
    congrArg (State.tick · ns) (State.gateCheck_quiet (s := { s with agenda := r }) hq ha)
  rw [hpass]
  refine ⟨rfl, rfl, rfl, fun k => ?_⟩
  have htick := State.tick_ctxs { s with agenda := r } ns k
  rw [State.runTime_eq] at htick
  exact htick

end Sys2Proof.Machine
end

section
/-! SUPPORT. What a module reset keeps of memory and what the boot of its images decides (R334, R342-R344, R437). -/

namespace Sys2Proof.Machine

/-- Cells that a filter drops by their address alone leave the bytes at the addresses that it keeps. -/
theorem cellGet_filter {f : Host.Cell → Bool} {a : Nat} (h : ∀ b, f (a, b) = true) (cs : List Host.Cell) :
    cellGet (cs.filter f) a = cellGet cs a := by
  induction cs with
  | nil => rfl
  | cons x r ih =>
    obtain ⟨j, b⟩ := x
    by_cases hj : j = a
    · subst hj
      rw [List.filter_cons_of_pos (h b), cellGet, cellGet, if_pos rfl, if_pos rfl]
    · rw [cellGet, if_neg hj, ← ih, List.filter_cons]
      split
      · rw [cellGet, if_neg hj]
      · rfl

/-- A read depends on the bytes of its own addresses alone. -/
theorem Memory.read_congr {m u : Memory} {n a : Nat} (h : ∀ i < n, m.get (a + i) = u.get (a + i)) : m.read a n = u.read a n := by
  induction n generalizing a with
  | zero => rfl
  | succ n ih =>
    have htail : m.read (a + 1) n = u.read (a + 1) n := ih fun i hi => by
      have := h (i + 1) (Nat.succ_lt_succ hi)
      rwa [Nat.add_comm i 1, ← Nat.add_assoc] at this
    exact congrArg₂ List.cons (h 0 (Nat.succ_pos n)) htail

/-- R334: writing the fence state table touches memory alone, and there nothing below the table. -/
theorem State.writeFences_only (s : State) :
    ∃ mem, s.writeFences = { s with mem := mem } ∧ ∀ a < fenceTable, mem.get a = s.mem.get a := by
  unfold State.writeFences
  generalize List.range 1536 = cores
  exact ⟨_, rfl, fun a h =>
    foldl_keeps (·.get a) (fun m c => m.get_write_outside _ _ _ (.inl (Nat.lt_add_right (16 * c) h))) cores s.mem⟩

/-- R342: boot draws choices, measures images and ends with the module booted or not; it leaves everything else. -/
theorem State.boot_only (n : Nat) : ∀ (s : State) (k : Nat), ∃ c m b a,
    s.boot n k = { s with choices := c, measure := m, booted := b, access := a } := by
  induction n with
  | zero => exact fun s k => ⟨_, _, _, _, rfl⟩
  | succ n ih =>
    intro s k
    unfold State.boot
    split
    · obtain ⟨c, m, b, a, e⟩ := ih { s with
        choices := s.choices + 1
        measure := s.measure.setIfInBounds k (extend512 (s.measure.getD k 0) (Config.imageDigest k)) } (k + 1)
      exact ⟨c, m, b, a, e⟩
    · exact ⟨_, _, _, _, rfl⟩

/-- R342, R343: a module that is not booted boots when each image verifies with a version that is not below its floor. -/
theorem State.boot_booted (n : Nat) : ∀ (s : State) (k : Nat), s.booted = false →
    ((s.boot n k).booted = true ↔ ∀ j < n, Config.imagesVerify (s.choices + j) = true
      ∧ (s.floors[k + j]?).getD 0 ≤ Config.imageVersion (s.choices + j)) := by
  induction n with
  | zero => exact fun s k _ => ⟨fun _ j hj => absurd hj (Nat.not_lt_zero j), fun _ => rfl⟩
  | succ n ih =>
    intro s k hb
    rw [Nat.forall_lt_succ_left]
    unfold State.boot
    split
    case isTrue himage =>
      rw [Bool.and_eq_true, decide_eq_true_eq] at himage
      refine (ih _ _ (by exact hb)).trans ?_
      simp only [Nat.add_assoc, Nat.add_comm 1, Nat.add_zero]
      exact ⟨fun h => ⟨himage, h⟩, And.right⟩
    case isFalse himage =>
      rw [Bool.and_eq_true, decide_eq_true_eq] at himage
      exact ⟨fun h => absurd (hb.symm.trans h) Bool.false_ne_true, fun h => absurd h.1 himage⟩

end Sys2Proof.Machine
end

section
/-! PROOF. O46. Module reset, as the state after reset with what the boot and the fence state table add to it. -/

namespace Sys2Proof.Machine

/-- Module reset is the state after reset, but for what the boot decides and for the fence state table in memory. -/
theorem moduleReset_only (s : State) : ∃ c m b a mem,
    moduleReset s = { s.afterReset with choices := c, measure := m, booted := b, access := a, mem := mem }
    ∧ b = (s.afterReset.boot imageCount 0).booted ∧ ∀ x < fenceTable, mem.get x = s.afterReset.mem.get x := by
  obtain ⟨c, m, b, a, hboot⟩ := State.boot_only imageCount s.afterReset 0
  have hreset : moduleReset s = if (s.afterReset.boot imageCount 0).booted then (s.afterReset.boot imageCount 0).writeFences
    else s.afterReset.boot imageCount 0 := rfl
  rw [hreset, hboot]
  split
  · obtain ⟨mem, hfences, hbytes⟩ :=
      State.writeFences_only { s.afterReset with choices := c, measure := m, booted := b, access := a }
    rw [hfences]
    exact ⟨c, m, b, a, mem, rfl, rfl, hbytes⟩
  · exact ⟨c, m, b, a, _, rfl, rfl, fun _ _ => rfl⟩

/-- R334: reset keeps every byte below the management area. -/
theorem State.afterReset_get (s : State) {a : Nat} (h : a < mgmtBase) : s.afterReset.mem.get a = s.mem.get a := by
  have hphys : a < physTop := Nat.lt_trans h (by decide)
  calc s.afterReset.mem.get a
      = (⟨s.mem.cells.filter fun c => c.1 < physTop⟩ : Memory).get a := Memory.get_write_outside _ _ _ _ (.inl h)
    _ = s.mem.get a := cellGet_filter (fun _ => decide_eq_true hphys) _

/-- R334: reset clears the bytes of the doorbell. -/
theorem State.afterReset_doorbell (s : State) (h : s.mem.wf = true) : s.afterReset.mem.read mgmtBase 4 = leBytes 4 0 :=
  Memory.read_write (leBytes 4 0) _ mgmtBase (Memory.wf_filter s.mem _ h)

/-- The doorbell is four bytes of memory. -/
theorem State.doorbell_eq (s : State) : s.doorbell = leNat (s.mem.read mgmtBase 4) :=
  congrArg leNat (s.bytesAt_mem 4 mgmtBase fun i hi => locReg_phys (Nat.lt_trans (Nat.add_lt_add_left hi mgmtBase) (by decide)))

/-- R342, R343: the boot after reset, image by image. -/
theorem State.afterReset_booted (s : State) : (s.afterReset.boot imageCount 0).booted = true ↔ ∀ k : Fin 5,
    Config.imagesVerify (s.choices + k.val) = true ∧ s.floors[k] ≤ Config.imageVersion (s.choices + k.val) := by
  have hfloor (k : Fin 5) : (s.floors[0 + k.val]?).getD 0 = s.floors[k] := by simp
  rw [State.boot_booted imageCount s.afterReset 0 rfl]
  constructor
  · intro h k
    exact hfloor k ▸ h k k.isLt
  · intro h j hj
    exact (hfloor ⟨j, hj⟩).symm ▸ h ⟨j, hj⟩

/-- Settles O46: what is not kept is what `State.reset` says, and neither the boot nor the fence state table touches it. -/
theorem moduleResetBoots : Obligations.ModuleResetBoots := by
  unfold Obligations.ModuleResetBoots
  intro s
  obtain ⟨c, m, b, a, mem, hreset, hbooted, hmem⟩ := moduleReset_only s
  have hbelow : mgmtBase + 4 ≤ fenceTable := by decide
  refine ⟨_, congrArg Host.Outcome.next hreset, rfl, rfl, rfl, rfl, rfl, rfl, rfl, rfl, rfl, rfl, rfl, rfl, rfl,
    fun x hx => ?_, fun hwf => ?_, ?_⟩
  · exact (hmem x (by omega)).trans (s.afterReset_get hx)
  · have hread : mem.read mgmtBase 4 = s.afterReset.mem.read mgmtBase 4 := Memory.read_congr fun i hi => hmem _ (by omega)
    calc _ = leNat (mem.read mgmtBase 4) := State.doorbell_eq _
      _ = leNat (leBytes 4 0) := congrArg leNat (hread.trans (s.afterReset_doorbell hwf))
      _ = 0 := leNat_leBytes 4 0
  · show b = true ↔ _
    rw [hbooted]
    exact s.afterReset_booted

end Sys2Proof.Machine
end

section
/-! SUPPORT. The module's own records and words: what reading a record and writing a completion word leave of the state (R40, R120). -/

namespace Sys2Proof.Machine

/-! ## Records: a read changes only what an access may change on its way -/

@[simp] theorem State.ioRequest_aside (s : State) (p : Place) : (s.ioRequest p).aside = s.aside := by
  unfold State.ioRequest
  (repeat' split) <;> simp

@[simp] theorem State.ioRead_aside (s : State) (p : Place) (n : Nat) : (s.ioRead p n).2.aside = s.aside := by
  simp [State.ioRead]

@[simp] theorem State.recordPlace_aside (s : State) (slot : Fin 8) (need : Need) (va : Nat) (master : Option Nat) :
    (s.recordPlace slot need va master).1.aside = s.aside := by
  unfold State.recordPlace
  grind [walk_aside]

@[simp] theorem State.readParts_aside (master : Option Nat) (slot : Fin 8) (need : Need) (xs : List (Nat × Nat)) :
    ∀ s : State, (s.readParts master slot need xs).1.aside = s.aside := by
  induction xs with
  | nil => exact fun _ => rfl
  | cons x r ih =>
    intro s
    unfold State.readParts
    (repeat' split) <;> grind [State.recordPlace_aside, State.ioRead_aside]

@[simp] theorem State.readRecordBy_aside (master : Option Nat) (slot : Fin 8) (need : Need) (k n : Nat) :
    ∀ (s : State) (va : Nat), (s.readRecordBy master slot need va k n).1.aside = s.aside := by
  induction n with
  | zero => exact fun _ _ => rfl
  | succ n ih =>
    intro s va
    unfold State.readRecordBy
    (repeat' split) <;> grind [State.readParts_aside]

@[simp] theorem State.readLaunch_aside (s : State) (slot : Fin 8) (va : Nat) : (s.readLaunch slot va).1.aside = s.aside := by
  unfold State.readLaunch State.readRecord
  grind [State.readRecordBy_aside]

theorem State.readLaunch_nodes {s s1 : State} {slot : Fin 8} {va : Nat} {l : Option Launch} (h : s.readLaunch slot va = (s1, l)) :
    s1.nodes = s.nodes := by
  have haside := s.readLaunch_aside slot va
  rw [h] at haside
  exact aside_nodes haside

/-! ## Completion words: a write leaves the nodes -/

theorem State.store_nodes (s : State) (loc : Nat) (bs : List Byte) : (s.store loc bs).nodes = s.nodes := by
  obtain ⟨w, h, _⟩ := s.store_aside loc bs
  exact aside_nodes (s := { s with warps := w }) h

theorem State.storeLost_nodes (s : State) (p : Place) (bs : List Byte) : (s.storeLost p bs).nodes = s.nodes := by
  obtain ⟨w, h, _⟩ := s.storeLost_aside p bs
  exact aside_nodes (s := { s with warps := w }) h

theorem State.writeAt_nodes (s : State) (p : Place) (bs : List Byte) : (s.writeAt p bs).2.nodes = s.nodes := by
  have hlink := aside_nodes (s.linkFails_aside p)
  unfold State.writeAt
  grind [State.storeLost_nodes, State.store_nodes]

theorem State.ioWrite_nodes (s : State) (p : Place) (bs : List Byte) : (s.ioWrite p bs).2.nodes = s.nodes := by
  have hask : ((s.ask p).2.ioRequest p).nodes = s.nodes := aside_nodes (by simp)
  exact (State.writeAt_nodes ..).trans hask

theorem State.stallWrite_nodes (s : State) (who : Requester) (p : Place) (bs : List Byte) (bad : List Nat) :
    (s.stallWrite who p bs bad).nodes = s.nodes := by
  unfold State.stallWrite
  split
  · rfl
  · exact (aside_nodes (State.poisonLine_aside ..)).trans (s.store_nodes ..)

theorem State.ctxWalk_aside (s : State) (slot : Fin 8) (va : Nat) : (s.ctxWalk slot va).1.aside = s.aside := by
  unfold State.ctxWalk
  grind [walk_aside]

theorem State.storeVa_nodes (s : State) (slot : Fin 8) (va : Nat) (bs : List Byte) (master : Option Nat) :
    (s.storeVa slot va bs master).nodes = s.nodes := by
  have hwalk := aside_nodes (s.ctxWalk_aside slot va)
  unfold State.storeVa
  grind [State.stallWrite_nodes, State.ioWrite_nodes]

/-- R120: the final status of a node without one. -/
theorem State.setStatus_node {s : State} {nid : Nat} {n : Node} (st : Status) (h : tget s.nodes nid = some n) (hs : n.status = none) :
    tget (s.setStatus nid st).nodes nid = some { n with status := some st } := by
  have hmod : tget (s.modNode nid fun x => { x with status := some st }).nodes nid = some { n with status := some st } :=
    tget_tmod_of_some _ h
  unfold State.setStatus
  simp only [h, hs, Option.isSome_none, Bool.false_eq_true, if_false]
  split
  · exact hmod
  · rw [State.storeVa_nodes]
    exact hmod

theorem State.setStatus_status {s : State} {nid : Nat} {n : Node} (st : Status) (h : tget s.nodes nid = some n)
    (hs : n.status = none) : (tget (s.setStatus nid st).nodes nid).bind (·.status) = some st := by
  rw [State.setStatus_node st h hs]
  rfl

end Sys2Proof.Machine
end

section
/-! PROOF. O38. The start of each kind of node (R17, R320, R322, R325, R330, R416, R445). -/

namespace Sys2Proof.Machine

theorem State.started_node {s : State} {nid : Nat} {n : Node} (f : Node → Node) (h : tget s.nodes nid = some n) :
    tget (s.started nid f).nodes nid = some (f { n with started := true, readySince := none }) :=
  tget_tmod_of_some _ h

/-! ## Each kind of node -/

/-- R322, R445: an accepted record starts its node with the launch. -/
theorem State.startLaunch_accepted {s s1 : State} {nid : Nat} {n : Node} {l : Launch}
    (hk : n.kind = .launch ∨ n.kind = .selftest ∧ selftestOk n l = true)
    (hr : s.readLaunch n.slot n.body.toNat = (s1, some l)) (ha : l.accepted n.eff.store = true) :
    s.startLaunch nid n = s1.started nid fun x => { x with launch := some l, totalBlocks := l.gx * l.gy * l.gz } := by
  have hkind : (n.kind != .selftest || selftestOk n l) = true := by
    obtain hk | ⟨hk, hok⟩ := hk
    · rw [hk]; rfl
    · rw [hok, Bool.or_true]
  simp only [State.startLaunch, hr, ha, hkind, Bool.and_self, if_true]

/-- R322: a record that cannot be read ends its node. -/
theorem State.startLaunch_unread {s s1 : State} {nid : Nat} {n : Node} (hr : s.readLaunch n.slot n.body.toNat = (s1, none)) :
    s.startLaunch nid n = (s1.started nid).setStatus nid .launcherr := by
  simp only [State.startLaunch, hr]

theorem State.queueInsts_insts_length (s : State) (mask : Word) (mk : Nat → Inst) :
    (s.queueInsts mask mk).insts.length = s.insts.length + ((List.range 32).filter fun k => mask.getLsbD k).length := by
  simp [State.queueInsts]

/-- R234: an array node queues an array for each stack of its mask. -/
theorem State.startArray_queues (s : State) (nid : Nat) {n : Node} (h : n.kp0 ≠ 0) :
    (s.startArray nid n).mem = s.mem ∧ (s.startArray nid n).insts.length
      = s.insts.length + ((List.range 32).filter fun k => n.kp0.getLsbD k).length := by
  simp only [State.startArray, decide_eq_false h, Bool.false_and, Bool.false_eq_true, if_false]
  exact ⟨rfl, State.queueInsts_insts_length ..⟩

/-- R320: an array node with a mask of 0 is completed at once where its completion word need not wait. -/
theorem State.startArray_empty {s : State} {nid : Nat} {n : Node} (hn : tget s.nodes nid = some n) (h : n.kp0 = 0)
    (hs : n.status = none) (hw : s.wordMoves n = false) :
    (tget (s.startArray nid n).nodes nid).bind (·.status) = some .completed := by
  simp only [State.startArray, h, hw, decide_true, Bool.not_false, Bool.and_self, if_true]
  exact State.setStatus_status .completed (State.started_node id hn) hs

/-- R17, R330: a collective whose descriptor is in order starts on the engine. -/
theorem State.startCollective_runs {s s1 : State} {n : Node} {engine : Nat} {bs : List Byte} {c : Collective} (nid : Nat)
    (he : s.freeEngine n.slot = some engine)
    (hr : s.readRecordBy (some (engineMaster engine)) n.slot .r n.body.toNat 64 1 = (s1, some bs))
    (hc : collOf nid engine s1.choices bs = some c) :
    (s.startCollective nid n).mem = s1.mem
      ∧ (s.startCollective nid n).collectives = s1.collectives ++ [(s1.nextId, c.fill (s1.slotTime n.slot))] := by
  simp only [State.startCollective, he, Option.getD_some, hr, hc]
  exact ⟨rfl, rfl⟩

/-! ## NODE_START -/

theorem nodeStart_doomed {s : State} {nid : Nat} {n : Node} (hn : tget s.nodes nid = some n) (h : s.doomed n = true) :
    nodeStart nid s = s.abandonUnstarted nid := by
  simp only [nodeStart, hn, h, if_true]

/-- R325: the node that the scheduler starts next is started. -/
theorem nodeStart_next {s : State} {nid : Nat} {n : Node} (hn : tget s.nodes nid = some n) (hd : s.doomed n = false)
    (hm : s.mayStart n.slot = true) (hx : s.nextStart n.slot = some nid) : nodeStart nid s = s.startNode nid n := by
  simp only [nodeStart, hn, hd, hm, hx, Bool.false_eq_true, if_false, beq_self_eq_true, Bool.and_self, if_true]

theorem State.startNode_region {s : State} {nid : Nat} {n : Node} (hk : n.kind = .region ∨ n.kind = .group) :
    s.startNode nid n = s.started nid := by
  obtain hk | hk := hk <;> simp only [State.startNode, hk]

theorem State.startNode_launch {s : State} {nid : Nat} {n : Node} (hk : n.kind = .launch ∨ n.kind = .selftest) :
    s.startNode nid n = s.startLaunch nid n := by
  obtain hk | hk := hk <;> simp only [State.startNode, hk]

/-- Settles O38: each clause is the start of one kind of node, or the end of one whose dependency failed. -/
theorem nodesStart : Obligations.NodesStart := by
  unfold Obligations.NodesStart
  intro nid s n hn
  refine ⟨fun hd => congrArg Host.Outcome.next (nodeStart_doomed hn hd), fun hd hm hx => ?_⟩
  have hstart : exec (.nodeStart nid) s = .next (s.startNode nid n) := congrArg Host.Outcome.next (nodeStart_next hn hd hm hx)
  rw [hstart]
  refine ⟨fun hk => ?region, fun s1 l hk hr ha => ?launch, fun s1 hk hr hs => ?unread, fun hk h0 => ?array, fun hk h0 hs hw => ?empty,
    fun engine s1 bs c hk he hr hc => ?collective⟩
  case region =>
    exact ⟨_, congrArg Host.Outcome.next (State.startNode_region hk), State.started_node id hn, rfl⟩
  case launch =>
    have hs1 : tget s1.nodes nid = some n := State.readLaunch_nodes hr ▸ hn
    rw [State.startNode_launch (hk.imp_right And.left), State.startLaunch_accepted hk hr ha]
    exact ⟨_, rfl, rfl, State.started_node _ hs1⟩
  case unread =>
    have hs1 : tget s1.nodes nid = some n := State.readLaunch_nodes hr ▸ hn
    rw [State.startNode_launch hk, State.startLaunch_unread hr]
    exact ⟨_, rfl, State.setStatus_status .launcherr (State.started_node id hs1) hs⟩
  case array =>
    have hnode : s.startNode nid n = s.startArray nid n := by simp only [State.startNode, hk]
    exact ⟨_, congrArg Host.Outcome.next hnode, s.startArray_queues nid h0⟩
  case empty =>
    have hnode : s.startNode nid n = s.startArray nid n := by simp only [State.startNode, hk]
    exact ⟨_, congrArg Host.Outcome.next hnode, State.startArray_empty hn h0 hs hw⟩
  case collective =>
    have hnode : s.startNode nid n = s.startCollective nid n := by simp only [State.startNode, hk]
    exact ⟨_, congrArg Host.Outcome.next hnode, State.startCollective_runs nid he hr hc⟩

end Sys2Proof.Machine
end

section
/-! SUPPORT. Uniform words and votes, and how an instruction with a uniform result finishes (R43, R182, R183, R206). -/

namespace Sys2Proof.Machine

/-! ## Words -/

theorem smaller_eq_min (x y : Word) : smaller x y = BitVec.ofInt 32 (min x.toInt y.toInt) := by
  unfold smaller
  split
  · rw [min_eq_left (BitVec.slt_iff_toInt_lt.mp ‹_›).le, BitVec.ofInt_toInt]
  · rw [min_eq_right (not_lt.mp (mt BitVec.slt_iff_toInt_lt.mpr ‹_›)), BitVec.ofInt_toInt]

theorem larger_eq_max (x y : Word) : larger x y = BitVec.ofInt 32 (max x.toInt y.toInt) := by
  unfold larger
  split
  · rw [max_eq_right (BitVec.slt_iff_toInt_lt.mp ‹_›).le, BitVec.ofInt_toInt]
  · rw [max_eq_left (not_lt.mp (mt BitVec.slt_iff_toInt_lt.mpr ‹_›)), BitVec.ofInt_toInt]

theorem smallerU_eq_min (x y : Word) : smallerU x y = BitVec.ofNat 32 (min x.toNat y.toNat) := by
  unfold smallerU
  split
  · rw [min_eq_left (BitVec.ult_iff_lt.mp ‹_›).le, BitVec.ofNat_toNat, BitVec.setWidth_eq]
  · rw [min_eq_right (not_lt.mp (mt BitVec.ult_iff_lt.mpr ‹_›)), BitVec.ofNat_toNat, BitVec.setWidth_eq]

theorem largerU_eq_max (x y : Word) : largerU x y = BitVec.ofNat 32 (max x.toNat y.toNat) := by
  unfold largerU
  split
  · rw [max_eq_right (BitVec.ult_iff_lt.mp ‹_›).le, BitVec.ofNat_toNat, BitVec.setWidth_eq]
  · rw [max_eq_left (not_lt.mp (mt BitVec.ult_iff_lt.mpr ‹_›)), BitVec.ofNat_toNat, BitVec.setWidth_eq]

theorem sub_eq_ofInt (x y : Word) : x - y = BitVec.ofInt 32 (x.toNat - y.toNat) := by
  apply BitVec.eq_of_toInt_eq
  rw [BitVec.toInt_sub, BitVec.toInt_ofInt]
  simp [BitVec.toInt_eq_toNat_bmod]

theorem shiftL_eq_mul (x y : Word) : shiftL x y = BitVec.ofNat 32 (x.toNat * 2 ^ y.toNat) := by
  have h : shiftL x y = x <<< y.toNat := by
    unfold shiftL
    split
    · exact (BitVec.shiftLeft_eq_zero ‹_›).symm
    · rfl
  apply BitVec.eq_of_toNat_eq
  rw [h, BitVec.toNat_shiftLeft, Nat.shiftLeft_eq, BitVec.toNat_ofNat]

theorem shiftR_eq_div (x y : Word) : shiftR x y = BitVec.ofNat 32 (x.toNat / 2 ^ y.toNat) := by
  have h : shiftR x y = x >>> y.toNat := by
    unfold shiftR
    split
    · exact (BitVec.ushiftRight_eq_zero ‹_›).symm
    · rfl
  rw [h, ← Nat.shiftRight_eq_div_pow, ← BitVec.toNat_ushiftRight, BitVec.ofNat_toNat, BitVec.setWidth_eq]

/-- A word shifted right by 31 places or more is the copies of its sign. -/
theorem shiftRA_eq_div (x y : Word) : shiftRA x y = BitVec.ofInt 32 (x.toInt / 2 ^ y.toNat) := by
  have hsat : x.toInt / 2 ^ min y.toNat 31 = x.toInt / 2 ^ y.toNat := by
    obtain hy | hy := le_total y.toNat 31
    · rw [min_eq_left hy]
    · have hpow : (2 : Int) ^ 31 ≤ 2 ^ y.toNat := pow_le_pow_right₀ (by decide) hy
      have hlo := BitVec.le_toInt x
      have hhi := BitVec.toInt_lt (x := x)
      rw [min_eq_right hy]
      obtain hx | hx := le_or_gt 0 x.toInt
      · rw [Int.ediv_eq_zero_of_lt hx (by omega), Int.ediv_eq_zero_of_lt hx (by omega)]
      · rw [Int.ediv_eq_neg_one_of_neg_of_le hx (by omega), Int.ediv_eq_neg_one_of_neg_of_le hx (by omega)]
  have hshift : (shiftRA x y).toInt = x.toInt / 2 ^ y.toNat := by
    rw [shiftRA, BitVec.toInt_sshiftRight, Int.shiftRight_eq_div_pow, ← hsat]
    norm_cast
  rw [← hshift, BitVec.ofInt_toInt]


/-! ## Votes -/

theorem predMask_get (w : Warp) (p : Fin 8) (l : Lane) : (predMask w p).getLsbD l.val = predLane w p l.val := by
  unfold predMask predLane
  split
  case isTrue hp => rw [BitVec.getLsbD_allOnes]; simp [hp]
  case isFalse hp => simp [hp]

/-- Two masks share no lane where no lane of the first is one of the second. -/
theorem mask_and_eq_zero (m x : Mask) : m &&& x = 0 ↔ ∀ l ∈ lanesOf m, x.getLsbD l.val = false := by
  simp only [lanesOf, List.mem_filter, List.mem_finRange, true_and]
  constructor
  · intro h l hl
    have hl2 := congrArg (·.getLsbD l.val) h
    simpa [hl] using hl2
  · intro h
    refine BitVec.eq_of_getLsbD_eq fun k hk => ?_
    have hk2 := h ⟨k, hk⟩
    rw [BitVec.getLsbD_and]
    simp only at hk2
    cases hm : m.getLsbD k <;> simp_all

theorem voteOf_ballot (m : Mask) (w : Warp) (p : Fin 8) :
    voteOf .ballot m (predMask w p) = maskOf fun l => m.getLsbD l.val && predLane w p l.val := by
  refine BitVec.eq_of_getLsbD_eq fun k hk => ?_
  rw [maskOf_get _ ⟨k, hk⟩, ← predMask_get]
  exact BitVec.getLsbD_and

theorem voteOf_all (m : Mask) (w : Warp) (p : Fin 8) :
    voteOf .all m (predMask w p) = if (lanesOf m).all fun l => predLane w p l.val then 1 else 0 := by
  refine ite_congr (propext ?_) (fun _ => rfl) fun _ => rfl
  rw [mask_and_eq_zero, List.all_eq_true]
  refine forall₂_congr fun l _ => ?_
  rw [BitVec.getLsbD_not, predMask_get]
  simp

theorem voteOf_any (m : Mask) (w : Warp) (p : Fin 8) :
    voteOf .any m (predMask w p) = if (lanesOf m).any fun l => predLane w p l.val then 1 else 0 := by
  have hnone : m &&& predMask w p = 0 ↔ ¬ ((lanesOf m).any fun l => predLane w p l.val) = true := by
    simp only [mask_and_eq_zero, predMask_get, List.any_eq_true, not_exists, not_and, Bool.not_eq_true]
  simp only [voteOf, hnone, ite_not]

/-! ## One uniform result -/

/-- A uniform destination and the flags are written side by side. -/
theorem accrue_setS (slice : Bool) (d : SOp) (x : Word) (f : Flags) (w : Warp) :
    accrue (setS slice d x w) f = setS slice d x (accrue w f) := by
  cases d with
  | lit => rfl
  | s n =>
    cases slice
    · simp only [setS, setSreg, accrue, Bool.false_eq_true, if_false]
      split <;> rfl
    · rfl

theorem setS_aq (slice : Bool) (d : SOp) (x : Word) (w : Warp) : (setS slice d x w).aq = w.aq := by
  cases d with
  | lit => rfl
  | s n =>
    cases slice
    · simp only [setS, setSreg, Bool.false_eq_true, if_false]
      split <;> rfl
    · rfl

theorem setPc_aq (slice : Bool) (a : DWord) (w : Warp) : (setPc slice a w).aq = w.aq := by
  cases slice <;> rfl

/-- An instruction that writes one uniform register finishes with its result, in the stream that executes it (R43). -/
theorem Ctx.finish_uniform {i : Instr} {s : State} {c : Ctx} {d : SOp} (g : Issued i s c) (hd : (opnds i).sd = [(d, 1)]) (x : Word)
    (f : Flags) : ∃ v, tget (c.finish fun w => accrue (setS c.slice d x w) f).warps c.wid = some v ∧ Popped i c.w v
      ∧ OnlyWarp c.wid s (c.finish fun w => accrue (setS c.slice d x w) f)
      ∧ SregWritten c.slice d x c.nextPc { c.w with aq := v.aq, fflags := c.w.fflags ||| f } v := by
  have hpop := popQueues_eq (namedQueues (opnds i).vs) c.w
  generalize hq : (popQueues (namedQueues (opnds i).vs) c.w).aq = q at hpop
  have hv : setPc c.slice c.nextPc (accrue (setS c.slice d x (popQueues (namedQueues (opnds i).vs) c.w)) f)
      = setPc c.slice c.nextPc (setS c.slice d x { c.w with aq := q, fflags := c.w.fflags ||| f }) := by
    rw [accrue_setS, hpop]
    rfl
  have haq : (setPc c.slice c.nextPc (setS c.slice d x { c.w with aq := q, fflags := c.w.fflags ||| f })).aq = q := by
    rw [setPc_aq, setS_aq]
  refine ⟨_, (c.finish_warp g _).trans (congrArg some hv), fun n => ?_, g.st ▸ c.finish_only _, ?_⟩
  · rw [haq, ← hq]
    exact popQueues_aq _ _ (namedQueues_nodup _) n
  · rw [haq]
    exact setS_written x c.nextPc (g.destOk hd) g.sliceThere

theorem Ctx.uni2_eq (c : Ctx) (o : FormG) {f : Word → Word → Word} {x : Word} (h : f (c.sv o.a) (c.sv o.b) = x) :
    c.uni2 o f = c.finish fun w => accrue (setS c.slice o.d x w) 0 := by
  simp only [accrue_zero, ← h]
  rfl

/-! ## Each instruction -/

section
variable {s : State} {c : Ctx}

theorem exec_smov {d a : SOp} {k : Word} (hr : ready (.smov d a k) s = some c) :
    exec (.smov d a k) s = .next (c.finish fun w => accrue (setS c.slice d (c.sv a) w) 0) := by
  simp only [accrue_zero]
  exact issue_ready hr _

/-- A vote executes in the warp's own stream. -/
theorem exec_vote {q : Fin 8} {d : SOp} {p : Fin 8} {mode : VoteMode} {x : Word} (hr : ready (.vote q d p mode) s = some c)
    (hx : voteOf mode c.act (predMask c.w p) = x) :
    exec (.vote q d p mode) s = .next (c.finish fun w => accrue (setS c.slice d x w) 0) := by
  have hslice : c.slice = false := (issued_of_ready hr).noSlice rfl
  simp only [accrue_zero, hslice, ← hx]
  exact issue_ready hr _

/-- A fold executes in the warp's own stream. -/
theorem exec_lfold {q : Fin 8} {d : SOp} {a : VOp} {op : FoldOp} {k : Word} (hr : ready (.lfold q d a op k) s = some c) :
    let r := foldTree op 5 ((List.finRange 32).map fun l => if c.act.getLsbD l.val then some (c.v a l) else none)
    exec (.lfold q d a op k) s = .next (c.finish fun w => accrue (setS c.slice d r.1 w) r.2) := by
  have hslice : c.slice = false := (issued_of_ready hr).noSlice rfl
  simp only [hslice]
  exact issue_ready hr _

end

/-- An instruction with a uniform result finishes with it and with its flags, in the stream that executes it. -/
theorem exec_uniform {i : Instr} {s : State} {c : Ctx} {d : SOp} {x : Ctx → Word} {g : Ctx → Flags}
    (h : uniformValue i = some (d, x, g)) (hr : ready i s = some c) :
    exec i s = .next (c.finish fun w => accrue (setS c.slice d (x c) w) (g c)) ∧ (opnds i).sd = [(d, 1)] := by
  have uni2 (o : FormG) (f : Word → Word → Word) (y : Word) (hf : f (c.sv o.a) (c.sv o.b) = y) :
      issue i s (fun c => c.uni2 o f) = .next (c.finish fun w => accrue (setS c.slice o.d y w) 0) :=
    (issue_ready hr _).trans (congrArg _ (c.uni2_eq o hf))
  cases i with
  | sadd o => obtain ⟨⟩ := h; exact ⟨uni2 o _ _ (by simp [BitVec.ofNat_add]), rfl⟩
  | ssub o => obtain ⟨⟩ := h; exact ⟨uni2 o _ _ (sub_eq_ofInt ..), rfl⟩
  | smul o => obtain ⟨⟩ := h; exact ⟨uni2 o _ _ (by simp [BitVec.ofNat_mul]), rfl⟩
  | sand o => obtain ⟨⟩ := h; exact ⟨uni2 o _ _ rfl, rfl⟩
  | sor o => obtain ⟨⟩ := h; exact ⟨uni2 o _ _ rfl, rfl⟩
  | sxor o => obtain ⟨⟩ := h; exact ⟨uni2 o _ _ rfl, rfl⟩
  | sshl o => obtain ⟨⟩ := h; exact ⟨uni2 o _ _ (shiftL_eq_mul ..), rfl⟩
  | sshr o => obtain ⟨⟩ := h; exact ⟨uni2 o _ _ (shiftR_eq_div ..), rfl⟩
  | sshrA o => obtain ⟨⟩ := h; exact ⟨uni2 o _ _ (shiftRA_eq_div ..), rfl⟩
  | smin o => obtain ⟨⟩ := h; exact ⟨uni2 o _ _ (smaller_eq_min ..), rfl⟩
  | sminU o => obtain ⟨⟩ := h; exact ⟨uni2 o _ _ (smallerU_eq_min ..), rfl⟩
  | smax o => obtain ⟨⟩ := h; exact ⟨uni2 o _ _ (larger_eq_max ..), rfl⟩
  | smaxU o => obtain ⟨⟩ := h; exact ⟨uni2 o _ _ (largerU_eq_max ..), rfl⟩
  | smov d a k => obtain ⟨⟩ := h; exact ⟨exec_smov hr, rfl⟩
  | sfadd o rm => obtain ⟨⟩ := h; exact ⟨issue_ready hr _, rfl⟩
  | sfmul o rm => obtain ⟨⟩ := h; exact ⟨issue_ready hr _, rfl⟩
  | vote q d p mode =>
    cases mode with
    | ballot => obtain ⟨⟩ := h; exact ⟨exec_vote hr (voteOf_ballot ..), rfl⟩
    | all => obtain ⟨⟩ := h; exact ⟨exec_vote hr (voteOf_all ..), rfl⟩
    | any => obtain ⟨⟩ := h; exact ⟨exec_vote hr (voteOf_any ..), rfl⟩
  | lfold q d a op k => obtain ⟨⟩ := h; exact ⟨exec_lfold hr, rfl⟩
  | _ => cases h

end Sys2Proof.Machine
end

section
/-! PROOF. O4. Uniform instructions, votes and folds. -/

namespace Sys2Proof.Machine

/-- Settles O4: every uniform instruction finishes with its result, which is that of exact integers, of a vote or of a fold. -/
theorem uniformResults : Obligations.UniformResults := by
  unfold Obligations.UniformResults
  intro i s c d x g h hr
  obtain ⟨hexec, hd⟩ := exec_uniform h hr
  obtain ⟨v, hv⟩ := Ctx.finish_uniform (issued_of_ready hr) hd (x c) (g c)
  exact ⟨_, v, hexec, hv⟩

end Sys2Proof.Machine
end

section
/-! SUPPORT. How an instruction that issues finishes, and where its branch target lies (R33, R139). -/

namespace Sys2Proof.Machine

/-- An instruction whose effect is to finish leads to the warp that it leaves. -/
theorem leadsFrom_finish {i : Instr} {s : State} {c : Ctx} {f : Warp → Warp} {v : Warp} (hr : ready i s = some c)
    (hexec : exec i s = .next (c.finish f)) (hv : setPc c.slice c.nextPc (f (popQueues (namedQueues (opnds i).vs) c.w)) = v) :
    LeadsFrom i s c v :=
  ⟨_, hexec, hv ▸ c.finish_warp (issued_of_ready hr) f, c.finish_only f⟩

/-- The target's sum modulo 2^64 is that of the signed numbers (R139). -/
theorem Ctx.target_eq (c : Ctx) (off : BitVec 20) : c.target off = targetOf c off := by
  unfold Ctx.target targetOf
  rw [BitVec.ofInt_add, BitVec.ofInt_mul, BitVec.ofInt_toInt, BitVec.signExtend, BitVec.mul_comm]
  rfl

theorem Ctx.withTarget_inside {c : Ctx} {off : BitVec 20} (h : (targetOf c off).toNat < 2 ^ 55) (body : DWord → State) :
    c.withTarget off body = body (targetOf c off) := by
  have hgood : badTarget (targetOf c off) = false := by
    rw [badTarget, Nat.div_eq_of_lt h]
    rfl
  simp only [Ctx.withTarget, c.target_eq, hgood, Bool.false_eq_true, if_false]

end Sys2Proof.Machine
end

section
/-! PROOF. O8. Where streams start and end: `split` and `exit` (R43, R45, R210, R215). -/

namespace Sys2Proof.Machine

theorem splitStartsASlice : SplitStartsASlice := by
  intro off s c hr hw ht
  have hslice : c.slice = false := (issued_of_ready hr).noSlice rfl
  have hnone : ¬ c.w.slice.isSome = true := by simp [hw]
  refine leadsFrom_finish hr ((issue_ready hr _).trans (congrArg _ ((if_neg hnone).trans (Ctx.withTarget_inside ht _)))) ?_
  rw [hslice]
  rfl

/-! ## exit -/

section
variable {s : State} {c : Ctx} (hr : ready .exit s = some c)
include hr

theorem exit_ends_slice (hslice : c.slice = true) : LeadsFrom .exit s c { c.w with slice := none } := by
  refine leadsFrom_finish hr ((issue_ready hr _).trans (congrArg _ (if_pos hslice))) ?_
  rw [hslice]
  rfl

/-- R215: `exit` of a warp's own stream with an empty divergence stack concerns the warp as a whole. -/
theorem exec_exit_warp (hslice : c.slice = false) (hst : c.w.stack = []) : exec .exit s = .next c.exitWarp :=
  (issue_ready hr _).trans (congrArg _ (by rw [hslice, hst]; rfl))

theorem exit_waits (hslice : c.slice = false) (hst : c.w.stack = []) (hops : c.w.ops ≠ []) :
    ∃ v k, LeadsFrom .exit s c v ∧ v = { c.w with wait := some k } ∧ k.kind = .exitDrain := by
  have hdrained : (c.s.coreEvent c.core 1).drained c.wid c.w = false := by
    simp [State.drained, hops]
  have hexit : c.exitWarp = c.wait .exitDrain := by
    simp only [Ctx.exitWarp, Ctx.wait, hdrained, Bool.false_eq_true, if_false, State.coreEvent_gtime]
  have g := issued_of_ready hr
  exact ⟨_, _, ⟨_, (exec_exit_warp hr hslice hst).trans (congrArg _ hexit), c.wait_tget (g.st ▸ g.warp) _, c.wait_only _⟩, rfl, rfl⟩

theorem exit_ends_warp (hslice : c.slice = false) (hst : c.w.stack = []) (hops : c.w.ops = []) (hsq : c.w.sq = [])
    (hcopies : s.copiesOf c.wid = []) : exec .exit s = .next ((s.coreEvent c.p.core 1).endWarp c.wid) := by
  have g := issued_of_ready hr
  have hdrained : (s.coreEvent c.core 1).drained c.wid c.w = true := by
    have hc : (s.coreEvent c.core 1).copiesOf c.wid = s.copiesOf c.wid := by simp [State.copiesOf]
    simp [State.drained, hops, hsq, hc, hcopies, copiesOut]
  refine (exec_exit_warp hr hslice hst).trans (congrArg _ ?_)
  simp only [Ctx.exitWarp, g.st, hdrained, if_true]
  rfl

end

theorem exitEnds : ExitEnds := by
  intro s c hr
  exact ⟨exit_ends_slice hr, exit_waits hr, exit_ends_warp hr⟩

/-- Settles O8: a stream starts with `split`, and ends with an `exit` that nothing holds up. -/
theorem streamsStartAndEnd : Obligations.StreamsStartAndEnd := ⟨splitStartsASlice, exitEnds⟩

end Sys2Proof.Machine
end

section
/-! PROOF. O14. The memory instructions of the access slice: `qld` and `qst` (R44, R195, R196). -/

namespace Sys2Proof.Machine

/-! ## An operation left outstanding -/

/-- The checks of an access leave the stream as it is. -/
theorem Issued.with_checked {i : Instr} {s : State} {c : Ctx} (g : Issued i s c) {m : Mask} {sp : Space} {need : Need} {n : Nat}
    {ea : Lane → Nat} {s1 : State} {r : Except Trap (List Acc)} (h : c.checkAccess m sp need n ea = (s1, r)) :
    c.with s1 = { c with s := s1 } ∧ tget s1.warps c.wid = some c.w := by
  have haside : s1.aside = s.aside := by
    have hchecks := c.checkAccess_aside m sp need n ea
    rwa [h, g.st] at hchecks
  have hw : tget s1.warps c.wid = some c.w := aside_warps haside ▸ g.warp
  exact ⟨Ctx.with_same hw (aside_parts haside ▸ g.part), hw⟩

/-- Checks that an access passes lead to its effect. -/
theorem Ctx.checked_ok {c : Ctx} {m : Mask} {sp : Space} {need : Need} {n : Nat} {ea : Lane → Nat} {s1 : State} {as : List Acc}
    (h : c.checkAccess m sp need n ea = (s1, .ok as)) (hrows : c.rowsHeld as = false) (body : Ctx → List Acc → State) :
    c.checked m sp need n ea body = body (c.with s1) as := by
  simp only [Ctx.checked, h, hrows, Bool.false_eq_true, if_false]

theorem Ctx.full_eq_false {c : Ctx} {k : Ctr} (h : c.s.counter c.wid c.w k < 63) : c.full k = false := by
  simpa [Ctx.full] using h

/-- An instruction of the access slice that names no queue, and that passes the checks of its access, leaves an operation outstanding. -/
theorem leadsFrom_push_slice {i : Instr} {s s1 : State} {c : Ctx} (g : Issued i s c) (honly : sliceOnly i = true)
    (hvs : (opnds i).vs = []) (hwith : c.with s1 = { c with s := s1 }) (hw : tget s1.warps c.wid = some c.w) {k : Ctr} {kind : OpKind}
    {sp : Space} {as : List Acc} {m : Mask} {acq rel : Option Scope} {f : Warp → Warp}
    (hexec : exec i s = .next ((c.with s1).push k kind sp as m acq rel f)) :
    LeadsFrom i s (c.with s1) (setPc true (c.with s1).nextPc (addOp k ((c.with s1).op k kind sp as m acq rel) (f c.w))) := by
  have hqueues : popQueues (namedQueues (opnds c.i).vs) c.w = c.w := by
    rw [g.instr, hvs]
    rfl
  rw [hwith] at hexec ⊢
  refine ⟨_, hexec, (Ctx.push_tget _ hw ..).trans ?_, Ctx.push_only ..⟩
  simp only [hqueues, g.inSlice honly]

/-! ## qld and qst -/

/-- R196: the reserved slot is the last of its queue. -/
theorem reserve_aq (n : Fin 4) (m : Mask) (w : Warp) (k : Fin 4) : (reserve n m w).aq[k]
    = if k = n then w.aq[n] ++ [⟨w.nextTicket, false, Vector.replicate 32 0, m⟩] else w.aq[k] := by
  by_cases h : k = n
  · subst h
    simp [reserve]
  · have hne : (n : ℕ) ≠ k := fun e => h (Fin.ext e.symm)
    simp [reserve, h, Vector.getElem_set_ne, hne]


theorem qld_reserves {n : Fin 4} {o : FormQ} {s s1 : State} {c : Ctx} {as : List Acc} (hr : ready (.qld n o) s = some c)
    (hroom : (c.w.aq[n]).length < 8) (hfree : c.s.counter c.wid c.w .loads < 63)
    (hok : c.checkAccess c.w.laneok o.space .r (sizeBytes o.size) (c.qea o) = (s1, .ok as)) (hrows : c.rowsHeld as = false) :
    ∃ v x, LeadsFrom (.qld n o) s (c.with s1) v ∧ v.ops = c.w.ops ++ [x] ∧ x.ctr = .loads ∧ x.accs = as
      ∧ x.kind = .qld n c.w.nextTicket o.size ∧ v.vregs = c.w.vregs ∧ v.sregs = c.w.sregs ∧ v.sq = c.w.sq
      ∧ ∀ k : Fin 4, v.aq[k] = if k = n then c.w.aq[n] ++ [⟨c.w.nextTicket, false, Vector.replicate 32 0, c.w.laneok⟩] else c.w.aq[k] := by
  have g := issued_of_ready hr
  obtain ⟨hwith, hw⟩ := g.with_checked hok
  have hgo : (decide (8 ≤ (c.w.aq[n]).length) || c.full .loads) = false := by
    rw [Ctx.full_eq_false hfree, Bool.or_false, decide_eq_false (Nat.not_le.mpr hroom)]
  have hexec : exec (.qld n o) s = .next ((c.with s1).push .loads (.qld n c.w.nextTicket o.size) o.space as c.w.laneok none none
      (reserve n c.w.laneok)) := by
    refine (issue_ready hr _).trans (congrArg _ ?_)
    rw [hgo, if_neg Bool.false_ne_true, Ctx.checked_ok hok hrows, hwith]
  refine ⟨_, _, leadsFrom_push_slice g rfl rfl hwith hw hexec, rfl, rfl, rfl, rfl, rfl, rfl, rfl, fun k => ?_⟩
  exact (congrArg (·[k]) (setPc_aq ..)).trans (reserve_aq ..)

theorem qst_takes_head {o : FormQ} {s s1 : State} {c : Ctx} {q : QEntry} {r : List QEntry} {as : List Acc}
    (hr : ready (.qst o) s = some c) (hsq : c.w.sq = q :: r) (hfree : c.s.counter c.wid c.w .stores < 63)
    (hok : c.checkAccess (q.mask &&& c.w.laneok) o.space .w (sizeBytes o.size) (c.qea o) = (s1, .ok as))
    (hrows : c.rowsHeld as = false) :
    ∃ v x, LeadsFrom (.qst o) s (c.with s1) v ∧ v.ops = c.w.ops ++ [x] ∧ x.ctr = .stores ∧ x.kind = .store
      ∧ x.accs = accessData (fun l => (q.row[Fin.ofNat 32 l]).toNat) as ∧ v.sq = r ∧ v.aq = c.w.aq ∧ v.vregs = c.w.vregs
      ∧ v.sregs = c.w.sregs := by
  have g := issued_of_ready hr
  obtain ⟨hwith, hw⟩ := g.with_checked hok
  have hexec : exec (.qst o) s = .next ((c.with s1).push .stores .store o.space
      (accessData (fun l => (q.row[Fin.ofNat 32 l]).toNat) as) (q.mask &&& c.w.laneok) none none
      fun w => { w with sq := w.sq.drop 1 }) := by
    refine (issue_ready hr _).trans (congrArg _ ?_)
    simp only [hsq, Ctx.full_eq_false hfree, Bool.false_eq_true, if_false]
    exact Ctx.checked_ok hok hrows _
  exact ⟨_, _, leadsFrom_push_slice g rfl rfl hwith hw hexec, rfl, rfl, rfl, rfl, congrArg (List.drop 1) hsq, rfl, rfl, rfl⟩

/-- Settles O14: both pass their checks, and leave their operation outstanding. -/
theorem queueAccessesIssue : Obligations.QueueAccessesIssue := by
  unfold Obligations.QueueAccessesIssue
  exact ⟨fun n o s s1 c as => qld_reserves, fun o s s1 c q r as => qst_takes_head⟩

end Sys2Proof.Machine
end

section
/-! PROOF. O28. Spawning: the pairs of `spawn`, and the bins that they fill (R46, R226, R379; log 76). -/

namespace Sys2Proof.Machine

/-! ## spawn -/

/-- The entry of a lane: bits 54:32 of the program counter over the lane's word (R226). -/
theorem Ctx.spawnEntry_eq {c : Ctx} (hslice : c.slice = false) (a : VOp) (l : Lane) :
    c.spawnEntry a l = BitVec.ofNat 64 (c.w.pc.toNat / 2 ^ 32 % 2 ^ 23 * 2 ^ 32 + (c.v a l).toNat) := by
  have hmask : ∀ k < 64, (0x007FFFFF00000000 : DWord).getLsbD k = (decide (32 ≤ k) && decide (k < 55)) := by decide
  refine BitVec.eq_of_getLsbD_eq fun k hk => ?_
  rw [Ctx.spawnEntry, Ctx.pc, hslice, if_neg Bool.false_ne_true, BitVec.getLsbD_or, BitVec.getLsbD_and, hmask k hk,
    BitVec.getLsbD_setWidth, BitVec.getLsbD_ofNat, Nat.mul_comm, Nat.testBit_two_pow_mul_add _ (c.v a l).isLt]
  obtain hlow | hhigh := lt_or_ge k 32
  · simp [hlow, hk, Nat.not_le.mpr hlow, BitVec.testBit_toNat]
  · have hlt : k - 32 < 23 ↔ k < 55 := by omega
    rw [if_neg (not_lt.mpr hhigh), Nat.testBit_mod_two_pow, Nat.testBit_div_two_pow, Nat.sub_add_cancel hhigh, BitVec.testBit_toNat]
    simp [hhigh, hk, hlt, Bool.and_comm]

section
variable {q : Fin 8} {a b : VOp} {k : Word} {s : State} {c : Ctx} (hr : ready (.spawn q a b k) s = some c)
include hr

/-- The warp goes on behind a `spawn`, without the heads of the queues that it names. -/
theorem spawn_goes_on : setPc c.slice c.nextPc (popQueues (namedQueues (opnds (.spawn q a b k)).vs) c.w)
    = { c.w with pc := c.nextPc, aq := (popQueues (namedQueues (opnds (.spawn q a b k)).vs) c.w).aq } := by
  rw [(issued_of_ready hr).noSlice rfl, popQueues_eq]
  rfl

/-- R226: a `spawn` that passes its checks adds its pairs, lane by lane. -/
theorem exec_spawn (hact : lanesOf c.act ≠ []) (hbudget : budgetOk c.p.spawnRegs.toNat = true)
    (halign : ∀ l ∈ lanesOf c.act, (c.v a l).toNat % 4 = 0) (hops : c.w.ops = [])
    (hroom : s.pendingPairs c.w.slot c.die + (lanesOf c.act).length ≤ 65536) :
    exec (.spawn q a b k) s = .next (((lanesOf c.act).foldl (fun t l => t.addPair c.w.slot c.core c.w.part
      (BitVec.ofNat 64 (c.w.pc.toNat / 2 ^ 32 % 2 ^ 23 * 2 ^ 32 + (c.v a l).toNat)) (c.v b l))
      ((c.finish id).coreEvent c.core 5 (lanesOf c.act).length)).orderOf c.w.slot (Fin.ofNat 8 c.die)) := by
  have g := issued_of_ready hr
  have hslice : c.slice = false := g.noSlice rfl
  have hfind : ((lanesOf c.act).find? fun l => (c.v a l).toNat % 4 != 0) = none := by
    rw [List.find?_eq_none]
    exact fun l hl => by simp [halign l hl]
  have hquiet : c.quiet = true := by simp [Ctx.quiet, hops]
  have hfits : (decide (65536 < c.s.pendingPairs c.w.slot c.die + (lanesOf c.act).length) || !c.quiet) = false := by
    rw [g.st, hquiet, decide_eq_false (Nat.not_lt.mpr hroom)]
    rfl
  refine (issue_ready hr _).trans (congrArg _ ?_)
  simp only [List.isEmpty_eq_false_iff.mpr hact, hbudget, hfind, hfits, Bool.not_true, Bool.false_eq_true, if_false, List.foldl_map,
    List.length_map, Ctx.spawnEntry_eq hslice]
  rfl

end

theorem spawnAddsItsPairs : SpawnAddsItsPairs := by
  intro q a b k s c hr
  refine ⟨fun hact => ?_, fun hact hbudget halign hops hroom => ⟨_, ?_, ?_, exec_spawn hr hact hbudget halign hops hroom⟩⟩
  · refine leadsFrom_finish hr ((issue_ready hr _).trans (congrArg _ (if_pos ?_))) (spawn_goes_on hr)
    rw [hact, List.isEmpty_nil]
  · rw [State.coreEvent_warps]
    exact (c.finish_warp (issued_of_ready hr) id).trans (congrArg some (spawn_goes_on hr))
  · exact OnlyWarp.trans ((issued_of_ready hr).st ▸ c.finish_only id) (State.coreEvent_only ..)

/-! ## Bins -/

section
variable {s : State} {slot : Fin 8} {core pid : Nat} {entry : DWord} {arg : Word}

/-- Fewer than 32 bins leave a number free. -/
theorem exists_free_bin (bs : List Nat) (h : bs.length < 32) : ((List.range 32).find? fun k => !bs.contains k).isSome := by
  rw [List.find?_isSome]
  by_contra hall
  have hsub : List.range 32 ⊆ bs := by
    intro k hk
    by_contra hfree
    exact hall ⟨k, hk, by simpa using hfree⟩
  have hlen := (List.subperm_of_subset List.nodup_range hsub).length_le
  rw [List.length_range] at hlen
  omega

/-- R46: a new key opens the free bin of the lowest number (log 76). -/
theorem State.addPair_opens (hkey : (s.binsOn slot core).find? (fun b => b.part == pid && b.entry == entry) = none)
    (hroom : (s.binsOn slot core).length < 32) :
    ∃ k < 32, k ∉ (s.binsOn slot core).map (·.index) ∧ (∀ j < k, j ∈ (s.binsOn slot core).map (·.index))
      ∧ s.addPair slot core pid entry arg = { s with bins := s.bins ++ [⟨core, k, pid, entry, [arg], s.ctxTime slot⟩] } := by
  obtain ⟨k, hk⟩ := Option.isSome_iff_exists.mp (exists_free_bin ((s.binsOn slot core).map (·.index)) (by rwa [List.length_map]))
  have hfound := hk
  rw [List.find?_range_eq_some] at hfound
  obtain ⟨hfree, hlt, hlow⟩ := hfound
  refine ⟨k, List.mem_range.mp hlt, by simpa using hfree, fun j hj => by simpa using hlow j hj, ?_⟩
  simp only [State.addPair, hkey, State.openBin, hk]

/-- R46: where every number is taken, a new key takes over the oldest bin, which is released. -/
theorem State.addPair_takes_over {b : Bin} {r : List Bin}
    (hkey : (s.binsOn slot core).find? (fun b => b.part == pid && b.entry == entry) = none) (hbins : s.binsOn slot core = b :: r)
    (hfull : ∀ k, k < 32 → k ∈ (s.binsOn slot core).map (·.index)) : s.addPair slot core pid entry arg = { s with
      bins := (s.bins.filter (· != b)) ++ [⟨core, b.index, pid, entry, [arg], s.ctxTime slot⟩]
      released := s.released ++ [⟨slot, dieOfCore b.core, b.core, b.index, b.part, b.entry, b.args⟩] } := by
  have hnone : ((List.range 32).find? fun k => !((s.binsOn slot core).map (·.index)).contains k) = none := by
    rw [List.find?_eq_none]
    exact fun k hk => by simpa using hfull k (List.mem_range.mp hk)
  simp only [State.addPair, hkey, State.openBin, hnone]
  rw [hbins]
  rfl

section
variable {b : Bin} (hkey : (s.binsOn slot core).find? (fun b => b.part == pid && b.entry == entry) = some b)
include hkey

theorem State.addPair_joins (hroom : b.args.length + 1 < 32) : s.addPair slot core pid entry arg =
    { s with bins := s.bins.map fun y => if y = b then { b with args := b.args ++ [arg] } else y } := by
  simp only [State.addPair, hkey, State.fillBin]
  exact if_neg (by rw [List.length_append]; exact Nat.not_le.mpr hroom)

/-- R46: the 32nd pair releases its bin. -/
theorem State.addPair_releases (hfull : 32 ≤ b.args.length + 1) : (s.addPair slot core pid entry arg).released = s.released ++
    [⟨slot, dieOfCore b.core, b.core, b.index, b.part, b.entry, b.args ++ [arg]⟩] := by
  simp only [State.addPair, hkey, State.fillBin]
  rw [if_pos (by simpa using hfull)]
  rfl

end

end

theorem pairsFillBins : PairsFillBins := by
  intro s slot core pid entry arg
  exact ⟨State.addPair_opens, fun b r => State.addPair_takes_over,
    fun b hkey => ⟨State.addPair_joins hkey, State.addPair_releases hkey⟩⟩

/-- Settles O28: a spawn adds one pair for each active lane, and a pair opens, joins, fills or takes over a bin. -/
theorem spawning : Obligations.Spawning := ⟨spawnAddsItsPairs, pairsFillBins⟩

end Sys2Proof.Machine
end

section
/-! PROOF. O37. The events of the matrix engines, weight chains, scan chunks, bins and released warps (R46, R47, R227, R250, R260-R262,
R327, R447). -/

namespace Sys2Proof.Machine

/-! ## Matrix engines -/

theorem tget_tdel_self {α : Type} (t : Tab α) (k : Nat) : tget (tdel t k) k = none := by
  induction t with
  | nil => rfl
  | cons p r ih =>
    obtain ⟨j, u⟩ := p
    by_cases h : j = k <;> simp_all [tdel, tget]

theorem tget_tdel_none {α : Type} {t : Tab α} {k : Nat} (j : Nat) (h : tget t k = none) : tget (tdel t j) k = none := by
  induction t with
  | nil => rfl
  | cons p r ih =>
    obtain ⟨i, u⟩ := p
    by_cases hk : i = k
    · simp [tget, hk] at h
    · by_cases hj : i = j <;> simp_all [tdel, tget]

/-- Deleting keys one by one leaves none of them. -/
theorem tget_foldl_tdel {α β : Type} (key : β → Nat) (l : List β) {b : β} :
    ∀ t : Tab α, (b ∈ l ∨ tget t (key b) = none) → tget (l.foldl (fun t x => tdel t (key x)) t) (key b) = none := by
  induction l with
  | nil => exact fun t h => h.resolve_left List.not_mem_nil
  | cons x r ih =>
    intro t h
    refine ih _ ?_
    obtain hmem | hnone := h
    · obtain rfl | hr := List.mem_cons.mp hmem
      · exact .inr (tget_tdel_self ..)
      · exact .inl hr
    · exact .inr (tget_tdel_none _ hnone)

/-- The engines after the end of a matrix operation in a partition of each of some parts. -/
def enginesFreed (part : Nat) (ps : List (Nat × Part)) (e : Tab (List Nat)) : Tab (List Nat) :=
  ps.foldl (fun t p => tdel t (engineKey p.1 part)) e

theorem State.foldl_enginesFreed (part : Nat) (ps : List (Nat × Part)) :
    ∀ s : State, ps.foldl (fun t p => { t with engine := tdel t.engine (engineKey p.1 part) }) s
      = { s with engine := enginesFreed part ps s.engine } := by
  induction ps with
  | nil => exact fun _ => rfl
  | cons p r ih => exact fun s => ih _

theorem enginesFreed_none {part : Nat} {ps : List (Nat × Part)} {x : Nat × Part} (h : x ∈ ps) (e : Tab (List Nat)) :
    tget (enginesFreed part ps e) (engineKey x.1 part) = none := by
  unfold enginesFreed
  exact tget_foldl_tdel (fun p : Nat × Part => engineKey p.1 part) ps e (.inl h)

/-- R250: the end of a matrix operation frees the engine of the partition in every part of the running slot on the core. -/
theorem matrixOpEnd_frees (core part : Nat) (s : State) (r : Fin 8) (hrun : s.running = some r) :
    ∃ e, exec (.matrixOpEnd core part) s = .next { s with engine := e }
      ∧ ∀ pid p, (pid, p) ∈ s.parts → p.core = core → s.slotOfPart pid = some r → tget e (engineKey pid part) = none := by
  refine ⟨enginesFreed part (s.parts.filter fun p => p.2.core == core && s.slotOfPart p.1 == some r) s.engine,
    congrArg Host.Outcome.next ?_, fun pid p hmem hcore hslot => ?_⟩
  · exact (congrArg (Option.elim · s _) hrun).trans (State.foldl_enginesFreed part _ s)
  · exact enginesFreed_none (x := (pid, p)) (by simp [List.mem_filter, hmem, hcore, hslot]) _

/-! ## Weight chains -/

section
variable {wid : Nat} {s : State} {w : Warp} {b : DWord} {n lim : Word} {d : Fin 63} {len t : Nat}
  (hwait : s.waiting wid = some (w, ⟨.chain b n lim d, len, t⟩)) (hops : w.ops.all (·.slice) = true)

theorem State.chainEnd_done (s : State) (wid : Nat) (w : Warp) (d : Nat) (n : Word) {st : Nat} (b : DWord) (h : st < 2) :
    s.chainEnd wid w d n st b = s.modWarp wid fun x => endWait (chainRegs d n st b x) := if_pos h

include hwait hops

/-- R262: a chain that has applied as many blocks as its limit ends. -/
theorem weightBlockFetched_limit (hl : lim ≠ 0) (hn : n = lim) :
    weightBlockFetched wid s = s.modWarp wid fun x => endWait (chainRegs d.val n 1 b x) := by
  have hlimit : (lim != 0 && n == lim) = true := by
    rw [hn, beq_self_eq_true, Bool.and_true]
    exact bne_iff_ne.mpr hl
  simp only [weightBlockFetched, hwait, hops, hlimit, Bool.not_true, Bool.false_eq_true, if_false, if_true]
  exact State.chainEnd_done _ _ _ _ _ _ (by decide)

section
variable (hgo : lim = 0 ∨ n ≠ lim) {s1 : State}
include hgo

omit hwait hops in
theorem chain_below_limit : (lim != 0 && n == lim) = false := by
  simpa [or_iff_not_imp_left] using hgo

/-- R262: below its limit a chain makes one round, which leads to the next block. -/
theorem weightBlockFetched_next {nx : DWord} (hr : s.chainRound w b = (s1, .ok (some nx))) : weightBlockFetched wid s
    = s1.modWarp wid fun x => { x with wait := some ⟨.chain nx (n + 1) lim d, len, t⟩ } := by
  simp only [weightBlockFetched, hwait, hops, chain_below_limit hgo, hr, Bool.not_true, Bool.false_eq_true, if_false]

/-- R262: the round of the last block ends the chain. -/
theorem weightBlockFetched_last (hr : s.chainRound w b = (s1, .ok none)) :
    weightBlockFetched wid s = s1.modWarp wid fun x => endWait (chainRegs d.val (n + 1) 0 0 x) := by
  simp only [weightBlockFetched, hwait, hops, chain_below_limit hgo, hr, Bool.not_true, Bool.false_eq_true, if_false]
  exact State.chainEnd_done _ _ _ _ _ _ (by decide)

/-- R262: a round that cannot be made ends the chain with its status. -/
theorem weightBlockFetched_fails {st : Nat} (hr : s.chainRound w b = (s1, .error st)) :
    weightBlockFetched wid s = s1.chainEnd wid w d.val n st b := by
  simp only [weightBlockFetched, hwait, hops, chain_below_limit hgo, hr, Bool.not_true, Bool.false_eq_true, if_false]

end

end

/-! ## Scan chunks, bins and released warps -/

section
variable {wid : Nat} {s : State} {w : Warp} {t k : Nat} {d : Fin 63} {till len since : Nat}
  (hwait : s.waiting wid = some (w, ⟨.chunk t k d till, len, since⟩)) (hover : till ≤ s.gtime.toNat)
include hwait hover

/-- R447: a scan chunk that has run its time is over. -/
theorem stestChunkEnd_over : stestChunkEnd wid s = s.chunkOver wid t k d w := by
  simp only [stestChunkEnd, hwait, Nat.not_lt.mpr hover, if_false]

end

/-- R46, R327: the timer of a bin that no other of its core goes before releases it. -/
theorem spawnBinTimer_releases {core bin : Nat} {s : State} {r : Fin 8} {c : Context} {b : Bin} (hrun : s.running = some r)
    (hctx : s.ctxs[r] = some c) (hbin : (s.binsOn r core).find? (fun b => b.index == bin) = some b)
    (hdue : b.since + max 1 c.bintimer.toNat ≤ c.time) (hsteady : s.switching = false)
    (hfirst : ∀ y ∈ s.binsOn r core, b.since < y.since ∨ (b.since = y.since ∧ b.index ≤ y.index)) :
    spawnBinTimer core bin s = s.releaseBin r b := by
  have hnone : ((s.binsOn r core).any (·.before b)) = false := by
    rw [List.any_eq_false]
    intro y hy
    have hle := hfirst y hy
    simp only [Bin.before, Bool.or_eq_true, Bool.and_eq_true, decide_eq_true_eq, beq_iff_eq]
    omega
  have htime : s.ctxTime r = c.time := by rw [State.ctxTime, hctx]; rfl
  simp only [spawnBinTimer, hrun, hsteady, hbin, hctx, hnone, htime, Option.elim_some, hdue, decide_true, Bool.not_false,
    Bool.and_self, Bool.false_eq_true, if_false, if_true]

/-- R47, R327: the only released warp of a die is placed where it has room. -/
theorem spawnWarpPlace_only {die : Fin 8} {s : State} {slot : Fin 8} {r : Released} {p : Part} {k a : Nat} (hrun : s.running = some slot)
    (hreleased : s.released = [r]) (hslot : r.slot = slot) (hdie : r.die = die.val) (hsteady : s.switching = false)
    (hroom : s.spawnRoom r = some (p, k, a)) : ∃ q, spawnWarpPlace die.val s =
      { (s.newPbase slot).2.addWarp (spawnedWarp r p r.part k a (s.newPbase slot).1) with released := [], newestFirst := q } := by
  have hfilter : s.released.filter (fun r => r.slot == slot && r.die == die.val) = [r] := by
    simp [hreleased, hslot, hdie]
  have hqueue (x : Bool) : (if x then [r].reverse else [r]) = [r] := by cases x <;> rfl
  have herase : ((s.newPbase slot).2.addWarp (spawnedWarp r p r.part k a (s.newPbase slot).1)).released.erase r = [] := by
    show s.released.erase r = []
    rw [hreleased, List.erase_cons_head]
  simp only [spawnWarpPlace, hrun, hfilter, hqueue, List.findSome?_cons, hroom, Option.map_some, hsteady, herase,
    Bool.false_eq_true, if_false]
  exact ⟨_, rfl⟩

/-- Settles O37, event by event. -/
theorem engineEvents : Obligations.EngineEvents := by
  unfold Obligations.EngineEvents
  refine ⟨matrixOpEnd_frees, fun wid s w b n lim d len t hwait hops => ⟨fun hl hn => ?limit, fun hgo s1 =>
    ⟨fun nx hr => ?next, fun hr => ?last, fun st hr => ?fails⟩⟩, fun wid s w t k d till len since hwait hover =>
    ⟨fun hw => ?ends, fun hw => ?yields⟩, fun core bin s r c b hrun hctx hbin hdue hsteady hfirst => ?timer,
    fun die s slot r p k a hrun hreleased hslot hdie hsteady hroom => ?place⟩
  case limit => exact congrArg Host.Outcome.next (weightBlockFetched_limit hwait hops hl hn)
  case next => exact congrArg Host.Outcome.next (weightBlockFetched_next hwait hops hgo hr)
  case last => exact congrArg Host.Outcome.next (weightBlockFetched_last hwait hops hgo hr)
  case fails => exact congrArg Host.Outcome.next (weightBlockFetched_fails hwait hops hgo hr)
  case ends => exact congrArg Host.Outcome.next ((stestChunkEnd_over hwait hover).trans (if_neg (by rw [hw]; decide)))
  case yields => exact congrArg Host.Outcome.next ((stestChunkEnd_over hwait hover).trans (if_pos hw))
  case timer =>
    exact ⟨_, congrArg Host.Outcome.next (spawnBinTimer_releases hrun hctx hbin hdue hsteady hfirst), rfl, rfl, rfl⟩
  case place =>
    obtain ⟨q, hplace⟩ := spawnWarpPlace_only hrun hreleased hslot hdie hsteady hroom
    exact ⟨_, congrArg Host.Outcome.next hplace, rfl, rfl⟩

end Sys2Proof.Machine
end

section
/-! PROOF. O39. The next block of a node is placed (R35, R325). -/

namespace Sys2Proof.Machine

/-! ## Warps and parts of a new block -/

/-- Adding a part's warps leaves nodes and blocks. -/
theorem State.addWarps_frame (n : Node) (bid pid : Nat) (l : Launch) (index : Nat) (y : Layout) (ws : List (Nat × (Nat × Role) × Nat)) :
    ∀ s : State, (s.addWarps n bid pid l index y ws).nodes = s.nodes ∧ (s.addWarps n bid pid l index y ws).blocks = s.blocks := by
  induction ws with
  | nil => exact fun _ => ⟨rfl, rfl⟩
  | cons x r ih => exact fun s => ih _

theorem mem_tmod {α : Type} {k : Nat} {v : α} (f : α → α) {t : Tab α} (h : (k, v) ∈ t) :
    (k, v) ∈ tmod t k f ∨ (k, f v) ∈ tmod t k f := by
  induction t with
  | nil => exact absurd h List.not_mem_nil
  | cons p r ih =>
    obtain ⟨j, u⟩ := p
    unfold tmod
    obtain hhead | htail := List.mem_cons.mp h
    · obtain ⟨rfl, rfl⟩ := Prod.mk.inj hhead
      exact .inr (by rw [if_pos rfl]; exact List.mem_cons_self)
    · split
      · exact .inl (List.mem_cons_of_mem _ htail)
      · exact (ih htail).imp (List.mem_cons_of_mem _) (List.mem_cons_of_mem _)

/-- Adding the parts of a block leaves the nodes. -/
theorem State.addParts_nodes (n : Node) (bid : Nat) (l : Launch) (index : Nat) (xs : List (Nat × List Nat × Layout)) :
    ∀ (s : State) (num : Nat), (s.addParts n bid l index num xs).nodes = s.nodes := by
  induction xs with
  | nil => exact fun _ _ => rfl
  | cons x r ih => exact fun s num => (ih _ _).trans (State.addWarps_frame ..).1

/-- Adding the parts of a block changes no more of it than its parts. -/
theorem State.addParts_block (n : Node) (bid : Nat) (l : Launch) (index : Nat) (xs : List (Nat × List Nat × Layout)) :
    ∀ {s : State} {t : Tab Block} {b : Block} (num : Nat), s.blocks = t → (bid, b) ∈ t →
      ∃ ps, (bid, { b with parts := ps }) ∈ (s.addParts n bid l index num xs).blocks := by
  induction xs with
  | nil => exact fun _ ht h => ⟨_, ht ▸ h⟩
  | cons x r ih =>
    intro s t b num ht h
    obtain hsame | hmod := mem_tmod (fun b : Block => { b with parts := b.parts ++ [s.nextId] }) (ht ▸ h)
    · exact ih _ (State.addWarps_frame ..).2 hsame
    · exact ih (b := { b with parts := b.parts ++ [s.nextId] }) _ (State.addWarps_frame ..).2 hmod

/-! ## BLOCK_PLACE -/

/-- R325: the block that is placed counts for its node. -/
theorem State.putBlock_counts {s : State} {nid : Nat} {n : Node} (hn : tget s.nodes nid = some n) (l : Launch) (i : Nat)
    (xs : List (Nat × List Nat × Layout)) : ((tget (s.putBlock nid n l i xs).nodes nid).map (·.nextBlock)) = some (i + 1) := by
  have hnodes : (s.putBlock nid n l i xs).nodes = tmod s.nodes nid fun x =>
      { x with nextBlock := i + 1, nextDie := (dieOfCore ((xs.head?).elim 0 (·.1)) + 1) % 8 } := State.addParts_nodes ..
  rw [hnodes, tget_tmod_of_some _ hn]
  rfl

/-- R35: the block stands among the blocks, resident, under its number in its node. -/
theorem State.putBlock_block (s : State) (nid : Nat) (n : Node) (l : Launch) (i : Nat) (xs : List (Nat × List Nat × Layout)) :
    ∃ b, (s.nextId, b) ∈ (s.putBlock nid n l i xs).blocks ∧ b.node = nid ∧ b.index = i ∧ b.resident = true := by
  obtain ⟨ps, hb⟩ : ∃ ps, (s.nextId, { newBlock n nid i l (if n.kind == .group then (s.groupOf nid).map fun g => (g.1, i) else none)
      with parts := ps }) ∈ (s.putBlock nid n l i xs).blocks :=
    State.addParts_block n s.nextId l i xs 0 rfl (List.mem_append_right s.blocks List.mem_cons_self)
  exact ⟨_, hb, rfl, rfl, rfl⟩

theorem blockPlace_first {nid : Nat} {s : State} {n : Node} {l : Launch} {i : Nat} {xs : List (Nat × List Nat × Layout)}
    (hn : tget s.nodes nid = some n) (hl : n.launch = some l) (hi : s.nextIndex nid n = some i)
    (hfirst : ((s.schedOrder n.slot).find? fun x =>
      (s.placeable x).isSome || (s.wantsBlock x.1 x.2 && (s.preemptFor x).isSome)).map (·.1) = some nid)
    (hreturn : s.returnFirst n = false) (hxs : s.placeable (nid, n) = some xs) : blockPlace nid s = s.putBlock nid n l i xs := by
  simp only [blockPlace, hn, hl, hi, hfirst, hreturn, hxs, bne_self_eq_false, Bool.or_self, Bool.false_eq_true, if_false]

/-- Settles O39: the first node that can have a block placed has its next one put where its parts fit. -/
theorem blocksArePlaced : Obligations.BlocksArePlaced := by
  unfold Obligations.BlocksArePlaced
  intro nid s n l i xs hn hl hi hfirst hreturn hxs
  exact ⟨congrArg Host.Outcome.next (blockPlace_first hn hl hi hfirst hreturn hxs), State.putBlock_counts hn l i xs,
    s.putBlock_block nid n l i xs⟩

end Sys2Proof.Machine
end

section
/-! PROOF. O41. Time slices, parked blocks and deadlines (R50, R55, R126, R231). -/

namespace Sys2Proof.Machine

/-! ## Time slices -/

/-- R50: a child whose time slice is over yields to its next sibling. -/
theorem timeSliceExpiry_yields {nid p j : Nat} {s : State} {n : Node} (hn : tget s.nodes nid = some n) (hp : n.parent = some p)
    (hst : n.status = none) (hrun : s.running = some n.slot) (hslice : n.eff.slice ≠ 0) (hused : n.eff.slice ≤ n.used)
    (hj : s.yieldTo p nid n = some j) : timeSliceExpiry nid s
      = (s.modNode nid fun x => { x with used := 0 }).modNode p fun x => { x with turn := j } := by
  have hover : ¬ n.used < n.eff.slice := Nat.not_lt.mpr hused
  simp only [timeSliceExpiry, hn, hp, hst, hrun, hslice, hover, hj, Option.isSome_none, bne_self_eq_false, decide_false, Bool.or_self,
    Bool.false_eq_true, if_false]

/-! ## Leaving a core -/

/-- A write-back leaves the blocks. -/
theorem State.writeBack_blocks (s : State) (wid : Nat) (l : L1Line) : (s.writeBack wid l).1.blocks = s.blocks := by
  obtain ⟨w, h, -⟩ := s.writeBack_aside wid l
  exact aside_blocks (s := { s with warps := w }) h

theorem State.stallWrite_blocks (s : State) (who : Requester) (p : Place) (bs : List Byte) (bad : List Nat) :
    (s.stallWrite who p bs bad).blocks = s.blocks := by
  unfold State.stallWrite
  split
  · rfl
  · obtain ⟨w, h, -⟩ := s.store_aside p.loc bs
    exact (aside_blocks (State.poisonLine_aside ..)).trans (aside_blocks (s := { s with warps := w }) h)

theorem State.cleanLine_blocks (s : State) (pid : Nat) (l : L1Line) : (s.cleanLine pid l).blocks = s.blocks := by
  unfold State.cleanLine
  split
  · rfl
  · rename_i wid _
    have hback := s.writeBack_blocks wid l
    split
    · rfl
    · split <;> rename_i e <;> rw [e] at hback
      · exact hback
      · exact (State.stallWrite_blocks ..).trans hback
      · exact hback

/-- R126: a part that leaves its core leaves the blocks as they are. -/
theorem State.clearPart_blocks (s : State) (pid : Nat) : (s.clearPart pid).blocks = s.blocks := by
  unfold State.clearPart
  split
  · rfl
  · exact foldl_keeps State.blocks (fun t l => t.cleanLine_blocks pid l) _ _

theorem parkedBlockSwap_parked {bid : Nat} {s : State} {b : Block} (hb : tget s.blocks bid = some b) (hp : s.parked bid b = true) :
    tget (parkedBlockSwap bid s).blocks bid = some { b with resident := false, out := s.gtime.toNat } := by
  have hparts : (b.parts.foldl (fun t p => t.clearPart p) s).blocks = s.blocks :=
    foldl_keeps State.blocks (fun t p => t.clearPart_blocks p) _ _
  simp only [parkedBlockSwap, hb, hp, if_true]
  exact tget_tmod_of_some _ (hparts ▸ hb)

/-! ## Returning to a core -/

/-- Bins that move leave blocks and memory. -/
theorem State.moveBin_frame (s : State) (slot : Fin 8) (core : Nat) (b : Bin) :
    ((s.moveBin slot core b).blocks, (s.moveBin slot core b).mem) = (s.blocks, s.mem) := by
  unfold State.moveBin
  simp only
  split <;> rfl

/-- A part that takes its new place leaves blocks and memory. -/
theorem State.seatPart_frame (s : State) (slot : Fin 8) (pid core : Nat) (y : Layout) :
    ((s.seatPart slot pid core y).blocks, (s.seatPart slot pid core y).mem) = (s.blocks, s.mem) :=
  foldl_keeps (fun t : State => (t.blocks, t.mem)) (fun t b => t.moveBin_frame slot core b) _ _

/-- Setting the placement orders leaves blocks and memory. -/
theorem State.reorder_frame (s : State) (slot : Fin 8) : ((s.reorder slot).blocks, (s.reorder slot).mem) = (s.blocks, s.mem) := by
  unfold State.reorder
  split
  · exact foldl_keeps (fun t : State => (t.blocks, t.mem)) (f := fun t d => t.orderOf slot d) (fun t d => rfl) _ _
  · rfl

/-- The parts of a block take their new places, one by one. -/
def State.seatParts (s : State) (b : Block) (xs : List (Nat × Layout)) : State :=
  (b.parts.zip xs).foldl (fun t x => t.seatPart b.slot x.1 x.2.1 x.2.2) s

theorem State.seatParts_frame (s : State) (b : Block) (xs : List (Nat × Layout)) :
    ((s.seatParts b xs).blocks, (s.seatParts b xs).mem) = (s.blocks, s.mem) := by
  have hstep (t : State) (x : Nat × Nat × Layout) := t.seatPart_frame b.slot x.1 x.2.1 x.2.2
  exact foldl_keeps (fun t : State => (t.blocks, t.mem)) hstep (b.parts.zip xs) s

/-- R36: a block that finds its place takes it with all its parts. -/
theorem State.returnBlock_seats {bid : Nat} {s : State} {b : Block} {n : Node} {xs : List (Nat × Layout)}
    (hb : tget s.blocks bid = some b) (hn : tget s.nodes b.node = some n) (hxs : s.placeBack b n = some xs) : s.returnBlock bid
      = some (((s.seatParts b xs).modBlock bid fun x => { x with resident := true, together := false }).reorder b.slot) := by
  simp only [State.returnBlock, hb, hn, hxs, Option.bind_some, Option.map_some]
  rfl

/-- R36: a block that finds its place is resident again. -/
theorem State.returnBlock_placed {bid : Nat} {s : State} {b : Block} {n : Node} {xs : List (Nat × Layout)}
    (hb : tget s.blocks bid = some b) (hn : tget s.nodes b.node = some n) (hxs : s.placeBack b n = some xs) :
    ∃ t, s.returnBlock bid = some t ∧ tget t.blocks bid = some { b with resident := true, together := false } ∧ t.mem = s.mem := by
  obtain ⟨hblocks, hmem⟩ := Prod.mk.inj (s.seatParts_frame b xs)
  obtain ⟨horder, hbytes⟩ := Prod.mk.inj (State.reorder_frame ((s.seatParts b xs).modBlock bid fun x =>
    { x with resident := true, together := false }) b.slot)
  exact ⟨_, State.returnBlock_seats hb hn hxs, horder ▸ tget_tmod_of_some _ (hblocks ▸ hb), hbytes.trans hmem⟩

theorem swappedBlockReturn_placed {bid : Nat} {s : State} {b : Block} {n : Node} {xs : List (Nat × Layout)}
    (hb : tget s.blocks bid = some b) (hturn : s.onTurn b.slot = true) (hout : b.resident = false) (hstop : b.stopping = false)
    (halone : b.together = false) (hn : tget s.nodes b.node = some n) (hxs : s.placeBack b n = some xs) :
    tget (swappedBlockReturn bid s).blocks bid = some { b with resident := true } ∧ (swappedBlockReturn bid s).mem = s.mem := by
  obtain ⟨t, ht, hblock, hmem⟩ := State.returnBlock_placed hb hn hxs
  have hreturn : swappedBlockReturn bid s = t := by
    simp only [swappedBlockReturn, hb, hturn, hout, hstop, State.returning, halone, List.foldl_cons, List.foldl_nil, Option.bind_some,
      ht, Option.getD_some, Bool.not_true, Bool.or_self, Bool.false_eq_true, if_false]
  rw [hreturn, hblock]
  exact ⟨by rw [← halone], hmem⟩

/-! ## Deadlines -/

/-- R231: the deadline of a group of one running member ends it. -/
theorem groupDeadline_one {gid : Nat} {s : State} {g : Group} {c : Context} {t : Nat} (hg : tget s.groups gid = some g)
    (hd : g.deadline = some t) (hdone : g.done = false) (hturn : s.onTurn g.slot = true) (hctx : s.ctxs[g.slot] = some c)
    (hdue : t ≤ c.time) (hone : g.n = 1) (hmember : g.members = [(.running, 0)]) : groupDeadline gid s = s.endMember gid 0 .timedOut := by
  have hrange : List.range 1 = [0] := rfl
  simp only [groupDeadline, hg, hd, hdone, hturn, hctx, hone, hmember, hrange, Option.elim_some, Nat.not_lt.mpr hdue, decide_false,
    Bool.not_true, Bool.or_self, Bool.false_eq_true, if_false, List.foldl_cons, List.foldl_nil, Option.bind_some,
    List.getElem?_cons_zero]

/-- Settles O41, event by event. -/
theorem slicesSwapsAndDeadlines : Obligations.SlicesSwapsAndDeadlines := by
  unfold Obligations.SlicesSwapsAndDeadlines
  refine ⟨fun nid p j s n m hn hp hst hrun hslice hused hne hm hj => ?slice, fun bid s b hb hp => ?park,
    fun bid s b n xs hb hturn hout hstop halone hn hxs => ?back, fun gid s g c t hg hd hdone hturn hctx hdue hone hmember => ?deadline⟩
  case slice =>
    refine ⟨_, congrArg Host.Outcome.next (timeSliceExpiry_yields hn hp hst hrun hslice hused hj), ?_, ?_, rfl⟩
    · exact (tget_tmod_other _ _ _ _ hne.symm).trans (tget_tmod_of_some _ hn)
    · exact tget_tmod_of_some _ ((tget_tmod_other _ _ _ _ hne).trans hm)
  case park => exact ⟨_, rfl, parkedBlockSwap_parked hb hp⟩
  case back => exact ⟨_, rfl, swappedBlockReturn_placed hb hturn hout hstop halone hn hxs⟩
  case deadline => exact congrArg Host.Outcome.next (groupDeadline_one hg hd hdone hturn hctx hdue hone hmember)

end Sys2Proof.Machine
end

section
/-! SUPPORT. A waiting warp: what ends its wait, what its readings leave, and how it takes a trap (R33, R222, R233, R371). -/

namespace Sys2Proof.Machine

/-! ## Waiting warps -/

/-- A warp that waits where it may act. -/
structure WaitsAt (s : State) (wid : Nat) (w : Warp) (k : Waiting) : Prop where
  warp : tget s.warps wid = some w
  acts : s.mayAct w = true
  wait : w.wait = some k

theorem State.waitsAt_of_waiting {s : State} {wid : Nat} {w : Warp} {k : Waiting} (h : s.waiting wid = some (w, k)) :
    WaitsAt s wid w k := by
  obtain ⟨v, hv, hif⟩ := Option.bind_eq_some_iff.mp h
  split at hif
  case isTrue hacts =>
    obtain ⟨y, hy, hpair⟩ := Option.map_eq_some_iff.mp hif
    obtain ⟨rfl, rfl⟩ := Prod.mk.inj hpair
    exact ⟨hv, hacts, hy⟩
  case isFalse => cases hif

theorem WaitsAt.running {s : State} {wid : Nat} {w : Warp} {k : Waiting} (h : WaitsAt s wid w k) : s.running = some w.slot := by
  have hacts := h.acts
  simp only [State.mayAct, State.onTurn, Bool.and_eq_true, beq_iff_eq] at hacts
  exact hacts.1.1.1.1

theorem WaitsAt.notStopped {s : State} {wid : Nat} {w : Warp} {k : Waiting} (h : WaitsAt s wid w k) : w.stopped = false := by
  have hacts := h.acts
  simp only [State.mayAct, Bool.and_eq_true, Bool.not_eq_true'] at hacts
  exact hacts.2

/-- R223: a remote reading is counted from the time of the latest. -/
theorem WaitsAt.polled {s : State} {wid : Nat} {w : Warp} {k : Waiting} (h : WaitsAt s wid w k) (t : Nat) :
    tget (s.modWarp wid fun x => { x with polled := t }).warps wid = some { w with polled := t } :=
  tget_tmod_of_some _ h.warp

/-! ## The end of a wait -/

/-- The warp behind the instruction at which it waited. -/
def Waiting.passed (k : Waiting) (w : Warp) : Warp := { w with wait := none, pc := w.pc + BitVec.ofNat 64 k.len }

theorem endWait_of_wait {w : Warp} {k : Waiting} (h : w.wait = some k) : endWait w = k.passed w := by
  simp only [endWait, h, Waiting.passed]

/-- The same with the result that the instruction promised. -/
theorem endWait_setS {w : Warp} {k : Waiting} (h : w.wait = some k) (d : Fin 63) (x : Word) : endWait (setS false (.s d) x w)
    = k.passed { w with sregs := w.sregs.set d x, badSregs := w.badSregs.filter (· != d.val) } := by
  have hset : setS false (.s d) x w = { w with sregs := w.sregs.set d x, badSregs := w.badSregs.filter (· != d.val) } := by
    simp only [setS, setSreg, d.isLt, dif_pos, Bool.false_eq_true, if_false]
  rw [hset]
  exact endWait_of_wait h

/-- A wait that ends as an acquire changes its warp and the lines of its part. -/
theorem State.endWaitAcq_warp {s : State} {wid : Nat} {x : Warp} (w : Warp) (f : Warp → Warp) (h : tget s.warps wid = some x) :
    tget (s.endWaitAcq wid w f).warps wid = some (endWait (f x)) ∧ (s.endWaitAcq wid w f).mem = s.mem :=
  ⟨tget_tmod_of_some _ h, rfl⟩

/-! ## Readings -/

theorem State.readWatched_aside (s : State) (p : Place) (cc : Cond) (v : DWord) : (s.readWatched p cc v).2.aside = s.aside := by
  have hread : ((s.ask p).2.readMem (s.ask p).1 8).2.aside = s.aside := by rw [State.readMem_aside, State.ask_aside]
  unfold State.readWatched
  simp only
  split <;> rename_i e <;> rw [e] at hread <;> exact hread

theorem State.readDone_aside (s : State) (p : Place) : (s.readDone p).2.aside = s.aside := by
  have hread := s.readMem_aside p 4
  unfold State.readDone
  split <;> rename_i e <;> rw [e] at hread <;> exact hread

theorem State.readWatched_warps {s s1 : State} {p : Place} {cc : Cond} {v : DWord} {r : Except (BitVec 8) Bool}
    (h : s.readWatched p cc v = (r, s1)) : s1.warps = s.warps := by
  have haside := s.readWatched_aside p cc v
  rw [h] at haside
  exact aside_warps haside

theorem State.readDone_warps {s s1 : State} {p : Place} {r : Option Bool} (h : s.readDone p = (r, s1)) : s1.warps = s.warps := by
  have haside := s.readDone_aside p
  rw [h] at haside
  exact aside_warps haside

/-! ## Traps -/

/-- The registers of a handler's entry, for a trap that is none of the slice (R370, R371). -/
theorem enterHandler_eq_entered (w : Warp) (t : Trap) (epc : DWord) (imp : Bool) :
    enterHandler w t epc imp false = entered w t epc imp := by
  have hcause : causeWord t = BitVec.ofNat 32 (t.code.toNat + 2 ^ 8 * t.lane.toNat + 2 ^ 16 * t.swcode.toNat) := by
    refine congrArg (BitVec.ofNat 32) ?_
    omega
  have hstatus : statusIn w.status imp false = (w.status &&& 0x10) ||| (if imp then 3 else 1) := by
    cases imp <;> simp only [statusIn, BitVec.or_assoc] <;> rfl
  rw [enterHandler, hcause, hstatus]
  rfl

/-- A waiting warp that handles a trap takes it at the instruction at which it waited. -/
theorem State.deliver_waiting {s : State} {wid : Nat} {x : Warp} (hx : tget s.warps wid = some x) (hh : x.handles = true)
    (hst : x.stopped = false) (t : Trap) (epc : DWord) :
    tget ((s.modWarp wid fun y => { y with wait := none }).deliver wid t epc false false).warps wid = some (entered x t epc false)
      ∧ ((s.modWarp wid fun y => { y with wait := none }).deliver wid t epc false false).mem = s.mem := by
  have hmod : tget (s.modWarp wid fun y => { y with wait := none }).warps wid = some { x with wait := none } := tget_tmod_of_some _ hx
  obtain ⟨hwarp, honly⟩ := State.deliver_handled hmod hh hst t epc false false
  rw [enterHandler_eq_entered] at hwarp
  have hmem := congrArg State.mem honly.rest
  exact ⟨hwarp, hmem⟩

end Sys2Proof.Machine
end

section
/-! PROOF. O35 WaitsEndOrStay. -/

namespace Sys2Proof.Machine

/-! ## waitc -/

/-- R194: a `waitc` whose counters are at their limits ends. -/
theorem waitcEnd_met {s : State} {wid : Nat} {w : Warp} {l st cp t : Nat} {n : Vector Nat 4} {len since : Nat}
    (hwait : s.waiting wid = some (w, ⟨.waitc l st cp t n, len, since⟩)) (hok : s.countsOk wid w l st cp t = true) (herrs : w.errs = []) :
    tget (waitcEnd wid s).warps wid = some (Waiting.passed ⟨.waitc l st cp t n, len, since⟩ w) ∧ (waitcEnd wid s).mem = s.mem := by
  obtain ⟨hw, -, hk⟩ := State.waitsAt_of_waiting hwait
  have hlimits : s.countsOk wid { w with issued := n } l st cp t = true := hok
  have hdue (i : Instr) : dueError { w with issued := n } i = none := by
    simp only [dueError, herrs, List.head?_nil, ite_self]
  simp only [waitcEnd, hwait, hlimits, hdue, Bool.not_true, Bool.false_eq_true, if_false, ← endWait_of_wait hk]
  split
  case isTrue => exact State.endWaitAcq_warp _ id hw
  case isFalse => exact ⟨tget_tmod_of_some _ hw, rfl⟩

theorem waitcEnd_unmet {s : State} {wid : Nat} {w : Warp} {l st cp t : Nat} {n : Vector Nat 4} {len since : Nat}
    (hwait : s.waiting wid = some (w, ⟨.waitc l st cp t n, len, since⟩)) (hover : s.countsOk wid w l st cp t = false) :
    waitcEnd wid s = s := by
  have hlimits : s.countsOk wid { w with issued := n } l st cp t = false := hover
  simp only [waitcEnd, hwait, hlimits, Bool.not_false, if_true]

/-! ## waitw -/

section
variable {s : State} {wid : Nat} {w : Warp} {d : Fin 63} {a v : DWord} {cc : Cond} {len since : Nat} {p : Place}

/-- R222: a re-reading at which the condition holds ends the wait. -/
theorem State.rewatch_met {x : Warp} {k : Waiting} {s1 : State} (hx : tget s.warps wid = some x) (hk : x.wait = some k)
    (hread : s.readWatched p cc v = (.ok true, s1)) : tget (s.rewatch wid w d a v cc p).warps wid
      = some (k.passed { x with sregs := x.sregs.set d 0, badSregs := x.badSregs.filter (· != d.val) })
    ∧ (s.rewatch wid w d a v cc p).mem = s1.mem := by
  have hx1 : tget s1.warps wid = some x := State.readWatched_warps hread ▸ hx
  simp only [State.rewatch, hread, ← endWait_setS hk d 0]
  exact State.endWaitAcq_warp _ _ hx1

theorem State.rewatch_unmet {s1 : State} (hread : s.readWatched p cc v = (.ok false, s1)) : s.rewatch wid w d a v cc p = s1 := by
  simp only [State.rewatch, hread]

/-- A wait that a failed reading ends takes the trap of the failure. -/
theorem State.unwatch_trap {x : Warp} (hx : tget s.warps wid = some x) (hh : x.handles = true) (hst : x.stopped = false) (code : BitVec 8) :
    tget (s.unwatch wid w a code).warps wid = some (entered x { code := code, value := a } w.pc false)
      ∧ (s.unwatch wid w a code).mem = s.mem :=
  State.deliver_waiting hx hh hst _ _

/-- R222: a re-reading that fails ends the wait with its trap. -/
theorem State.rewatch_failed {x : Warp} {s1 : State} {code : BitVec 8} (hx : tget s.warps wid = some x) (hh : x.handles = true)
    (hst : x.stopped = false) (hread : s.readWatched p cc v = (.error code, s1)) :
    tget (s.rewatch wid w d a v cc p).warps wid = some (entered x { code := code, value := a } w.pc false) := by
  have hx1 : tget s1.warps wid = some x := State.readWatched_warps hread ▸ hx
  simp only [State.rewatch, hread]
  exact (State.unwatch_trap hx1 hh hst code).1

variable (hwait : s.waiting wid = some (w, ⟨.waitw d a v cc, len, since⟩))
include hwait

/-- R222: a stack-tier word is read again. -/
theorem waitwWake_local (hp : s.watchedPlace w a = some p) (htier : p.tier = 0) : waitwWake wid s = s.rewatch wid w d a v cc p := by
  simp only [waitwWake, hwait, hp, htier, if_true]

theorem waitwWake_remote (hp : s.watchedPlace w a = some p) (htier : p.tier ≠ 0) : waitwWake wid s = s := by
  simp only [waitwWake, hwait, hp, htier, if_false]

/-- R223: a word beyond the stack tier is read again where 1,024 ns have passed. -/
theorem waitwPoll_late (hp : s.watchedPlace w a = some p) (htier : p.tier ≠ 0) (hlate : max since w.polled + 1024 ≤ s.gtime.toNat) :
    waitwPoll wid s = (s.modWarp wid fun x => { x with polled := s.gtime.toNat }).rewatch wid w d a v cc p := by
  simp only [waitwPoll, hwait, hp, bne_iff_ne.mpr htier, hlate, decide_true, Bool.and_self, if_true]

theorem waitwPoll_early (hp : s.watchedPlace w a = some p) (hearly : ¬ max since w.polled + 1024 ≤ s.gtime.toNat) :
    waitwPoll wid s = s := by
  simp only [waitwPoll, hwait, hp, hearly, decide_false, Bool.and_false, Bool.false_eq_true, if_false]

theorem waitwPoll_local (hp : s.watchedPlace w a = some p) (htier : p.tier = 0) : waitwPoll wid s = s := by
  simp only [waitwPoll, hwait, hp, htier, bne_self_eq_false, Bool.false_and, Bool.false_eq_true, if_false]

/-- R222, R339: a word that the core may reach no longer ends the wait at its event. -/
theorem waitwWake_refused (hp : s.watchedPlace w a = none) (href : s.watchRefused w a false = true) :
    waitwWake wid s = s.unwatch wid w a 0x0C := by
  simp only [waitwWake, hwait, hp, href, if_true]

theorem waitwPoll_refused (hp : s.watchedPlace w a = none) (href : s.watchRefused w a true = true) :
    waitwPoll wid s = s.unwatch wid w a 0x0C := by
  simp only [waitwPoll, hwait, hp, href, if_true]
end

/-- The event of a `waitw`, by the tier of its word. -/
theorem exec_waitw_refused {s : State} {wid : Nat} {w : Warp} {d : Fin 63} {a v : DWord} {cc : Cond} {len since : Nat} {p : Place}
    (hwait : s.waiting wid = some (w, ⟨.waitw d a v cc, len, since⟩)) (hp : s.ctxPlace w.slot a.toNat = some p)
    (htouch : s.mayTouch (some (s.coreOf w)) .r p = false) :
    exec (if p.tier = 0 then .waitwWake wid else .waitwRemotePoll wid) s = .next (s.unwatch wid w a 0x0C) := by
  have hnone : s.watchedPlace w a = none := by
    simp only [State.watchedPlace, hp, Option.filter_some, htouch, Bool.false_eq_true, if_false]
  have hrefused : s.watchRefused w a (p.tier != 0) = true := by
    simp only [State.watchRefused, hp, htouch, beq_self_eq_true, Bool.not_false, Bool.and_self]
  by_cases htier : p.tier = 0
  case pos =>
    rw [if_pos htier]
    rw [htier] at hrefused
    exact congrArg Host.Outcome.next (waitwWake_refused hwait hnone hrefused)
  case neg =>
    rw [if_neg htier]
    rw [bne_iff_ne.mpr htier] at hrefused
    exact congrArg Host.Outcome.next (waitwPoll_refused hwait hnone hrefused)

theorem waitwWake_untranslated {s : State} {wid : Nat} {w : Warp} {d : Fin 63} {a v : DWord} {cc : Cond} {len since : Nat}
    (hwait : s.waiting wid = some (w, ⟨.waitw d a v cc, len, since⟩)) (hp : s.ctxPlace w.slot a.toNat = none) :
    waitwWake wid s = s.unwatch wid w a 0x0C := by
  refine waitwWake_refused hwait ?_ ?_
  · simp only [State.watchedPlace, hp, Option.filter_none]
  · simp only [State.watchRefused, hp, Bool.not_false]

/-! ## pbwait -/

/-- A scratchpad address lies in the window of its part. -/
theorem locWindow_scratchLoc (pt : Nat) {off : Nat} (hoff : off < 2 ^ 44) : locWindow (scratchLoc pt off) = some (0, pt, off) := by
  have hloc : scratchLoc pt off = physTop + (pt * 2 ^ 47 + off) := by unfold scratchLoc onchip; omega
  have hge : ¬ scratchLoc pt off < physTop := Nat.not_lt.mpr (hloc ▸ Nat.le_add_right ..)
  rw [locWindow_of hge, hloc, Nat.add_sub_cancel_left]
  refine congrArg some (Prod.ext ?_ (Prod.ext ?_ ?_)) <;> simp only <;> omega

/-- R220: a `pbwait` on a word of a core in service ends once the phase has changed. -/
theorem pbwaitWake_met {s : State} {wid : Nat} {w : Warp} {pt off : Nat} {sp : Space} {a : DWord} {bit : Bool} {len since : Nat} {p : Part}
    (hwait : s.waiting wid = some (w, ⟨.pbwait (scratchLoc pt off) sp a bit, len, since⟩)) (hoff : off < 0x100000)
    (hp : tget s.parts pt = some p) (hup : s.coreUp p.core = true) (hbad : s.bad = [])
    (hphase : pbPhase (s.load (scratchLoc pt off) 4) ≠ bit) : pbwaitWake wid s = s.endWaitAcq wid w id := by
  have hwindow := locWindow_scratchLoc pt (hoff.trans (by decide))
  simp only [pbwaitWake, hwait, hwindow, hp, hup, State.badIn_nil hbad, bne_iff_ne.mpr hphase, Option.elim_some, Bool.not_true,
    Bool.false_eq_true, if_false, if_true]

theorem pbwaitWake_unmet {s : State} {wid : Nat} {w : Warp} {loc : Nat} {sp : Space} {a : DWord} {bit : Bool} {len since : Nat}
    (hwait : s.waiting wid = some (w, ⟨.pbwait loc sp a bit, len, since⟩)) (hbad : s.bad = []) (hphase : pbPhase (s.load loc 4) = bit) :
    pbwaitWake wid s = s := by
  simp only [pbwaitWake, hwait, State.badIn_nil hbad, hphase, bne_self_eq_false, Bool.false_eq_true, if_false, ite_self]

/-! ## sgwait -/

section
variable {s s1 : State} {wid : Nat} {w : Warp} {d : Fin 63} {va : DWord} {len since : Nat} {p : Place}
variable (hwait : s.waiting wid = some (w, ⟨.sgwait d va, len, since⟩)) (hp : s.watchedPlace w va = some p)
include hwait hp

/-- R233: a group that is done ends the wait. -/
theorem sgwaitWake_done (hread : s.readDone p = (some true, s1)) : sgwaitWake wid s = s1.endWaitAcq wid w (setS false (.s d) 0) := by
  simp only [sgwaitWake, hwait, hp, hread]

theorem sgwaitWake_running (hread : s.readDone p = (some false, s1)) (hg : (s1.runningGroup w.slot va).isSome = true) :
    sgwaitWake wid s = s1 := by
  simp only [sgwaitWake, hwait, hp, hread, hg, if_true]

/-- R233: a group that is neither done nor runs. -/
theorem sgwaitWake_gone (hread : s.readDone p = (some false, s1)) (hg : s1.runningGroup w.slot va = none) :
    sgwaitWake wid s = s1.modWarp wid fun x => endWait (setS false (.s d) 1 x) := by
  simp only [sgwaitWake, hwait, hp, hread, hg, Option.isSome_none, Bool.false_eq_true, if_false]

/-- R233: a record that cannot be read. -/
theorem sgwaitWake_unreadable (hread : s.readDone p = (none, s1)) : sgwaitWake wid s
    = (s1.modWarp wid fun x => { x with wait := none }).deliver wid { code := 0x0B, value := va } w.pc false false := by
  simp only [sgwaitWake, hwait, hp, hread]
end

/-! ## sleept and exit -/

/-- R224: a `sleept` whose promise has passed ends, where no copy carries it. -/
theorem sleeptWake_passed {s : State} {wid : Nat} {w : Warp} {p : Word} {len since : Nat}
    (hwait : s.waiting wid = some (w, ⟨.sleept p, len, since⟩)) (hpast : (s.gtime.setWidth 32 - p).slt 0 = false)
    (hcopy : s.copyOfPromise wid p = none) (herrs : w.errs = []) : sleeptWake wid s = s.modWarp wid endWait := by
  have hdue : dueAtSleept w p = none := by simp only [dueAtSleept, herrs, List.head?_nil, ite_self]
  simp only [sleeptWake, hwait, future, hpast, State.wakes, hcopy, hdue, Bool.false_eq_true, if_false]

theorem sleeptWake_future {s : State} {wid : Nat} {w : Warp} {p : Word} {len since : Nat}
    (hwait : s.waiting wid = some (w, ⟨.sleept p, len, since⟩)) (hfuture : (s.gtime.setWidth 32 - p).slt 0 = true) :
    sleeptWake wid s = s := by
  simp only [sleeptWake, hwait, future, hfuture, if_true]

/-- R215: a warp that waits in `exit` ends where nothing keeps it. -/
theorem exitDrainEnd_waiting {s : State} {wid : Nat} {w : Warp} {len since : Nat}
    (hwait : s.waiting wid = some (w, ⟨.exitDrain, len, since⟩)) :
    exitDrainEnd wid s = if s.drained wid w then s.endWarp wid else s := by
  have hat := State.waitsAt_of_waiting hwait
  simp only [exitDrainEnd, hat.warp, hat.wait, hat.running, beq_self_eq_true, Bool.true_and]

/-! ## The three parts -/

/-- A wait that ends lets its warp go on. -/
theorem waitsEnd : WaitsEnd := by
  rintro s wid w ⟨kind, len, since⟩ hwait up got
  have hat := State.waitsAt_of_waiting hwait
  refine ⟨?waitc, ?wake, ?poll, ?pbwait, ?sgwait, ?sleept, ?exit⟩
  case waitc =>
    rintro l st cp t n hkind hok herrs
    obtain rfl : kind = _ := hkind
    exact ⟨_, rfl, waitcEnd_met hwait hok herrs⟩
  case wake =>
    rintro d a v cc p s1 hkind hp htier hread
    obtain rfl : kind = _ := hkind
    exact ⟨_, congrArg Host.Outcome.next (waitwWake_local hwait hp htier), State.rewatch_met hat.warp hat.wait hread⟩
  case poll =>
    rintro d a v cc p s1 hkind hp htier hlate hread
    obtain rfl : kind = _ := hkind
    exact ⟨_, congrArg Host.Outcome.next (waitwPoll_late hwait hp htier hlate),
      State.rewatch_met (hat.polled _) hat.wait hread⟩
  case pbwait =>
    rintro pt off sp p a bit hkind hoff hp hup hbad hphase
    obtain rfl : kind = _ := hkind
    obtain ⟨hwarp, hmem⟩ := State.endWaitAcq_warp w id hat.warp
    exact ⟨_, congrArg Host.Outcome.next (pbwaitWake_met hwait hoff hp hup hbad hphase),
      hwarp.trans (congrArg some (endWait_of_wait hat.wait)), hmem⟩
  case sgwait =>
    rintro d va p s1 hkind hp hread
    obtain rfl : kind = _ := hkind
    have hwarp1 : tget s1.warps wid = some w := State.readDone_warps hread ▸ hat.warp
    obtain ⟨hwarp, hmem⟩ := State.endWaitAcq_warp w (setS false (.s d) 0) hwarp1
    exact ⟨_, congrArg Host.Outcome.next (sgwaitWake_done hwait hp hread),
      hwarp.trans (congrArg some (endWait_setS hat.wait d 0)), hmem⟩
  case sleept =>
    rintro p hkind hpast hcopy herrs
    obtain rfl : kind = _ := hkind
    exact ⟨_, congrArg Host.Outcome.next (sleeptWake_passed hwait hpast hcopy herrs),
      (tget_tmod_of_some _ hat.warp).trans (congrArg some (endWait_of_wait hat.wait)), rfl⟩
  case exit =>
    rintro hkind hdrained
    obtain rfl : kind = _ := hkind
    exact congrArg Host.Outcome.next ((exitDrainEnd_waiting hwait).trans (if_pos hdrained))

/-- The event of a wait whose condition does not hold leaves the warp where it waits. -/
theorem unmetWaitsStay : UnmetWaitsStay := by
  rintro s wid w ⟨kind, len, since⟩ hwait
  refine ⟨?waitc, ?pbwait, ?sleept, ?waitw, ?sgwait, ?exit⟩
  case waitc =>
    rintro l st cp t n hkind hover
    obtain rfl : kind = _ := hkind
    exact congrArg Host.Outcome.next (waitcEnd_unmet hwait hover)
  case pbwait =>
    rintro pt off sp a bit hkind hbad hphase
    obtain rfl : kind = _ := hkind
    exact congrArg Host.Outcome.next (pbwaitWake_unmet hwait hbad hphase)
  case sleept =>
    rintro p hkind hfuture
    obtain rfl : kind = _ := hkind
    exact congrArg Host.Outcome.next (sleeptWake_future hwait hfuture)
  case waitw =>
    rintro d a v cc p hkind hp
    obtain rfl : kind = _ := hkind
    refine ⟨fun htier => ?remote, fun htier => ?near, fun _ hearly => ?early, fun s1 htier hread => ?wake,
      fun s1 htier hlate hread => ?poll⟩
    case remote => exact congrArg Host.Outcome.next (waitwWake_remote hwait hp htier)
    case near => exact congrArg Host.Outcome.next (waitwPoll_local hwait hp htier)
    case early => exact congrArg Host.Outcome.next (waitwPoll_early hwait hp hearly)
    case wake => exact congrArg Host.Outcome.next ((waitwWake_local hwait hp htier).trans (State.rewatch_unmet hread))
    case poll => exact congrArg Host.Outcome.next ((waitwPoll_late hwait hp htier hlate).trans (State.rewatch_unmet hread))
  case sgwait =>
    rintro d va p s1 hkind hp hread hg
    obtain rfl : kind = _ := hkind
    exact congrArg Host.Outcome.next (sgwaitWake_running hwait hp hread hg)
  case exit =>
    rintro hkind hkept
    obtain rfl : kind = _ := hkind
    exact congrArg Host.Outcome.next ((exitDrainEnd_waiting hwait).trans (if_neg (Bool.eq_false_iff.mp hkept)))

/-- A wait whose reading fails ends with a trap, or with 1 where its group is gone. -/
theorem failedWaitsTrap : FailedWaitsTrap := by
  rintro s wid w ⟨kind, len, since⟩ hwait
  have hat := State.waitsAt_of_waiting hwait
  refine ⟨?waitw, ?sgwait⟩
  case waitw =>
    rintro d a v cc hkind hh
    obtain rfl : kind = _ := hkind
    have htrap := State.unwatch_trap (w := w) (a := a) hat.warp hh hat.notStopped 0x0C
    refine ⟨fun p s1 code hp htier hread => ?wake, fun p s1 code hp htier hlate hread => ?poll,
      fun p hp htouch => ⟨_, exec_waitw_refused hwait hp htouch, htrap⟩,
      fun hp => ⟨_, congrArg Host.Outcome.next (waitwWake_untranslated hwait hp), htrap⟩⟩
    case wake =>
      exact ⟨_, congrArg Host.Outcome.next (waitwWake_local hwait hp htier), State.rewatch_failed hat.warp hh hat.notStopped hread⟩
    case poll =>
      exact ⟨_, congrArg Host.Outcome.next (waitwPoll_late hwait hp htier hlate),
        State.rewatch_failed (hat.polled _) hh hat.notStopped hread⟩
  case sgwait =>
    rintro d va p s1 hkind hp
    obtain rfl : kind = _ := hkind
    refine ⟨fun hread hh => ?unreadable, fun hread hg => ?gone⟩
    case unreadable =>
      have hwarp1 : tget s1.warps wid = some w := State.readDone_warps hread ▸ hat.warp
      exact ⟨_, congrArg Host.Outcome.next (sgwaitWake_unreadable hwait hp hread),
        (State.deliver_waiting hwarp1 hh hat.notStopped _ _).1⟩
    case gone =>
      have hwarp1 : tget s1.warps wid = some w := State.readDone_warps hread ▸ hat.warp
      exact ⟨_, congrArg Host.Outcome.next (sgwaitWake_gone hwait hp hread hg),
        (tget_tmod_of_some _ hwarp1).trans (congrArg some (endWait_setS hat.wait d 1)), rfl⟩

/-- Settles O35: the waits that end, that stay, and that fail. -/
theorem waitsEndOrStay : Obligations.WaitsEndOrStay := ⟨waitsEnd, unmetWaitsStay, failedWaitsTrap⟩

end Sys2Proof.Machine
end

section
/-! SUPPORT. Words of the lane instructions: their arithmetic in exact integers, and their logic, counts and fields bit by bit
(R57, R58, R165-R170). -/

namespace Sys2Proof.Machine

/-! ## Division and absolute value -/

theorem quot_eq_tdiv (x y : Word) :
    quot x y = if y = 0 then BitVec.allOnes 32 else BitVec.ofInt 32 (x.toInt.tdiv y.toInt) := by
  refine ite_congr rfl (fun _ => rfl) fun _ => ?_
  apply BitVec.eq_of_toInt_eq
  rw [BitVec.toInt_sdiv, BitVec.toInt_ofInt]

theorem quotU_eq_div (x y : Word) :
    quotU x y = if y = 0 then BitVec.allOnes 32 else BitVec.ofNat 32 (x.toNat / y.toNat) := by
  refine ite_congr rfl (fun _ => rfl) fun _ => ?_
  apply BitVec.eq_of_toNat_eq
  rw [BitVec.toNat_ofNat, Nat.mod_eq_of_lt ((Nat.div_le_self ..).trans_lt x.isLt)]
  exact BitVec.toNat_udiv

/-- By zero too: the remainder of exact integers is then the dividend. -/
theorem remd_eq_tmod (x y : Word) : remd x y = BitVec.ofInt 32 (x.toInt.tmod y.toInt) := by
  unfold remd
  split
  case isTrue hy =>
    rw [hy, show (0 : Word).toInt = 0 from rfl, Int.tmod_zero, BitVec.ofInt_toInt]
  case isFalse => rw [← BitVec.toInt_srem, BitVec.ofInt_toInt]

theorem remdU_eq_mod (x y : Word) : remdU x y = BitVec.ofNat 32 (x.toNat % y.toNat) := by
  unfold remdU
  split
  case isTrue hy =>
    rw [hy, show (0 : Word).toNat = 0 from rfl, Nat.mod_zero, BitVec.ofNat_toNat, BitVec.setWidth_eq]
  case isFalse =>
    rw [← BitVec.toNat_umod, BitVec.ofNat_toNat, BitVec.setWidth_eq]
    rfl

theorem absW_eq_natAbs (x : Word) : absW x = BitVec.ofNat 32 x.toInt.natAbs := by
  rw [← BitVec.ofInt_natCast]
  unfold absW
  split
  case isTrue hx =>
    have hneg : x.toInt < 0 := BitVec.slt_iff_toInt_lt.mp hx
    rw [Int.ofNat_natAbs_of_nonpos hneg.le, BitVec.ofInt_neg, BitVec.ofInt_toInt]
    exact BitVec.zero_sub x
  case isFalse hx =>
    have hpos : 0 ≤ x.toInt := not_lt.mp fun h => hx (BitVec.slt_iff_toInt_lt.mpr h)
    rw [Int.natAbs_of_nonneg hpos, BitVec.ofInt_toInt]

/-! ## Bits -/

/-- A word is known by its bits. -/
theorem eq_ofFnLE {x : Word} {f : Fin 32 → Bool} (h : ∀ j : Fin 32, x.getLsbD j = f j) : x = BitVec.ofFnLE f :=
  BitVec.eq_of_getLsbD_eq fun k hk => (h ⟨k, hk⟩).trans (maskOf_get f ⟨k, hk⟩).symm

theorem mixBits_eq (fn : BitVec 8) (x y z : Word) : mixBits fn x y z = BitVec.ofFnLE fun j : Fin 32 =>
    fn.getLsbD ((z.getLsbD j).toNat * 4 + (y.getLsbD j).toNat * 2 + (x.getLsbD j).toNat) := by
  refine congrArg BitVec.ofFnLE (funext fun j => congrArg fn.getLsbD ?_)
  omega

theorem countOnes_eq_countP (x : Word) : countOnes x = BitVec.ofNat 32 ((List.range 32).countP fun j => x.getLsbD j) :=
  congrArg _ List.countP_eq_length_filter.symm

theorem leadZeros_eq_size (x : Word) : leadZeros x = BitVec.ofNat 32 (32 - Nat.size x.toNat) := by
  unfold leadZeros
  split
  case isTrue hx => rw [hx]; rfl
  case isFalse hx =>
    have hne : x.toNat ≠ 0 := fun h => hx (BitVec.eq_of_toNat_eq h)
    have hsize : Nat.size x.toNat = Nat.log2 x.toNat + 1 :=
      le_antisymm (Nat.size_le.mpr Nat.lt_log2_self) (Nat.lt_size.mpr (Nat.log2_self_le hne))
    rw [hsize, Nat.add_comm, Nat.sub_add_eq]

theorem reverse_bits (x : Word) : BitVec.reverse x = BitVec.ofFnLE fun j : Fin 32 => x.getLsbD (31 - j) := by
  refine eq_ofFnLE fun j => ?_
  rw [BitVec.getLsbD_reverse, BitVec.getMsbD]
  simp [j.isLt]

/-- The field's value is that of its bits; where it is signed, its highest bit stands for the sign (R170). -/
theorem extract_eq (sx : Bool) (pos len : Nat) (x : Word) : extract sx pos len x =
    if sx then (x.extractLsb' pos len).signExtend 32 else (x.extractLsb' pos len).setWidth 32 := by
  have hf : (x.extractLsb' pos len).toNat = x.toNat / 2 ^ pos % 2 ^ len := by
    rw [BitVec.extractLsb'_toNat, Nat.shiftRight_eq_div_pow]
  have hword : (x.extractLsb' pos len).setWidth 32 = BitVec.ofNat 32 (x.toNat / 2 ^ pos % 2 ^ len) := by
    rw [← hf, BitVec.ofNat_toNat]
  have hsign : 2 ^ (len - 1) ≤ x.toNat / 2 ^ pos % 2 ^ len ↔ ¬ 2 * (x.toNat / 2 ^ pos % 2 ^ len) < 2 ^ len := by
    cases len with
    | zero => simp [Nat.mod_one]
    | succ k => rw [Nat.add_sub_cancel, pow_succ]; omega
  cases sx with
  | false => exact hword.symm
  | true =>
    rw [if_pos rfl, BitVec.signExtend, BitVec.toInt_eq_toNat_cond, hf]
    simp only [extract, Bool.true_and, decide_eq_true_eq, hsign, ite_not]
    split
    case isTrue => exact (BitVec.ofInt_natCast ..).symm
    case isFalse => norm_cast

/-- Bit `j` of a field of ones. -/
theorem fieldMask_get (pos len : Nat) {j : Nat} (hj : j < 32) :
    (BitVec.ofNat 32 ((2 ^ len - 1) * 2 ^ pos)).getLsbD j = (decide (pos ≤ j) && decide (j < pos + len)) := by
  rw [BitVec.getLsbD_ofNat, Nat.testBit_mul_two_pow, Nat.testBit_two_pow_sub_one]
  by_cases hp : pos ≤ j
  · simp only [hj, hp, decide_true, Bool.true_and, decide_eq_decide]
    omega
  · simp [hp]

theorem insertField_bits (pos len : Nat) (x y : Word) : insertField pos len x y = BitVec.ofFnLE fun j : Fin 32 =>
    if pos ≤ j && j < pos + len then x.getLsbD (j - pos) else y.getLsbD j := by
  refine eq_ofFnLE fun j => ?_
  simp only [insertField, BitVec.getLsbD_or, BitVec.getLsbD_and, BitVec.getLsbD_not, BitVec.getLsbD_shiftLeft,
    fieldMask_get pos len j.isLt, j.isLt]
  by_cases hlo : pos ≤ j <;> by_cases hhi : j < pos + len <;> simp [hlo, hhi]

end Sys2Proof.Machine
end

section
/-! SUPPORT. How an instruction of the lanes finishes: its destination written in the active lanes, its flags accrued (R63, R163). -/

namespace Sys2Proof.Machine

variable {i : Instr} {s : State} {c : Ctx}

/-- An instruction whose effect is to write its destination and to accrue flags has the effect of a lane instruction. -/
theorem hasLaneEffect_of_finish {d : VOp} {f : Lane → Word} {g : Flags} (hr : ready i s = some c) (hslice : sliceMay i = false)
    (hexec : exec i s = .next (c.finish fun w => accrue (dst c.act d f w) g)) : HasLaneEffect i s c d f g := by
  have hi := issued_of_ready hr
  have hwarp := c.finish_warp hi fun w => accrue (dst c.act d f w) g
  rw [hi.noSlice hslice] at hwarp
  refine ⟨_, _, hexec, hwarp, ?written, ?popped, hi.st ▸ c.finish_only _, lane_keeps ..⟩
  case written =>
    have hw := written_finish i c.act d f c.w c.nextPc
    cases d <;> exact hw
  case popped => exact popped_setPc (f := fun w => accrue (dst c.act d f w) g) fun w => dst_aq c.act d f w

theorem Ctx.finish_dst (c : Ctx) (d : VOp) (f : Lane → Word) :
    c.finish (dst c.act d f) = c.finish fun w => accrue (dst c.act d f w) 0 := by
  simp only [accrue_zero]

/-- An instruction that writes its destination and raises no flag. -/
theorem hasLaneEffect_dst {d : VOp} {f g : Lane → Word} (hr : ready i s = some c) (hslice : sliceMay i = false)
    (hexec : exec i s = .next (c.finish (dst c.act d f))) (hfg : ∀ l, f l = g l) : HasLaneEffect i s c d g 0 := by
  obtain rfl : f = g := funext hfg
  exact hasLaneEffect_of_finish hr hslice (hexec.trans (congrArg _ (c.finish_dst d f)))

/-- One source. -/
theorem hasLaneEffect_lane1 {o : FormA1} {f : Word → Word} {g : Lane → Word} (hr : ready i s = some c) (hslice : sliceMay i = false)
    (hexec : exec i s = issue i s fun c => c.lane1 o f) (hf : ∀ l, f (c.v o.a l) = g l) : HasLaneEffect i s c o.d g 0 :=
  hasLaneEffect_dst hr hslice (hexec.trans (issue_ready hr _)) hf

/-- Two sources. -/
theorem hasLaneEffect_lane2 {o : FormA} {f : Word → Word → Word} {g : Lane → Word} (hr : ready i s = some c)
    (hslice : sliceMay i = false) (hexec : exec i s = issue i s fun c => c.lane2 o f) (hf : ∀ l, f (c.v o.a l) (c.v o.b l) = g l) :
    HasLaneEffect i s c o.d g 0 :=
  hasLaneEffect_dst hr hslice (hexec.trans (issue_ready hr _)) hf

/-- Three sources. -/
theorem hasLaneEffect_lane3 {o : FormA3} {f : Word → Word → Word → Word} {g : Lane → Word} (hr : ready i s = some c)
    (hslice : sliceMay i = false) (hexec : exec i s = issue i s fun c => c.lane3 o f)
    (hf : ∀ l, f (c.v o.a l) (c.v o.b l) (c.v o.c l) = g l) : HasLaneEffect i s c o.d g 0 :=
  hasLaneEffect_dst hr hslice (hexec.trans (issue_ready hr _)) hf

/-- The flags of the lanes where one flag is raised in some of them (R63). -/
theorem flagsOf_flag (m : Mask) (b : Lane → Bool) (x : Flags) :
    (flagsOf m fun l => flag (b l) x) = if (lanesOf m).any b then x else 0 := by
  have hfold : ∀ (ls : List Lane) (a : Flags), (ls.foldl (fun f l => f ||| flag (b l) x) a) = a ||| flag (ls.any b) x := by
    intro ls
    induction ls with
    | nil => exact fun a => BitVec.or_zero.symm
    | cons l r ih =>
      intro a
      rw [List.foldl_cons, ih, List.any_cons]
      cases b l <;> cases r.any b <;> simp [flag, BitVec.or_assoc]
  exact (hfold _ 0).trans BitVec.zero_or

end Sys2Proof.Machine
end

section
/-! PROOF. O1. Integer arithmetic, bits, moves, selection and exchange of the lanes (R57, R58, R165-R170, R173, R174, R180, R181). -/

namespace Sys2Proof.Machine

theorem laneArithmeticResults : LaneArithmeticResults := by
  intro i s c d f h hr
  cases i with
  | iadd o => obtain ⟨⟩ := h; exact hasLaneEffect_lane2 hr rfl rfl fun l => by simp [BitVec.ofNat_add]
  | isub o => obtain ⟨⟩ := h; exact hasLaneEffect_lane2 hr rfl rfl fun l => sub_eq_ofInt ..
  | imul o => obtain ⟨⟩ := h; exact hasLaneEffect_lane2 hr rfl rfl fun l => by simp [BitVec.ofNat_mul]
  | imulh o => obtain ⟨⟩ := h; exact hasLaneEffect_lane2 hr rfl rfl fun l => rfl
  | imulhU o => obtain ⟨⟩ := h; exact hasLaneEffect_lane2 hr rfl rfl fun l => rfl
  | imad o => obtain ⟨⟩ := h; exact hasLaneEffect_lane3 hr rfl rfl fun l => by simp [BitVec.ofNat_add, BitVec.ofNat_mul]
  | idiv o => obtain ⟨⟩ := h; exact hasLaneEffect_lane2 hr rfl rfl fun l => quot_eq_tdiv ..
  | idivU o => obtain ⟨⟩ := h; exact hasLaneEffect_lane2 hr rfl rfl fun l => quotU_eq_div ..
  | irem o => obtain ⟨⟩ := h; exact hasLaneEffect_lane2 hr rfl rfl fun l => remd_eq_tmod ..
  | iremU o => obtain ⟨⟩ := h; exact hasLaneEffect_lane2 hr rfl rfl fun l => remdU_eq_mod ..
  | imin o => obtain ⟨⟩ := h; exact hasLaneEffect_lane2 hr rfl rfl fun l => smaller_eq_min ..
  | iminU o => obtain ⟨⟩ := h; exact hasLaneEffect_lane2 hr rfl rfl fun l => smallerU_eq_min ..
  | imax o => obtain ⟨⟩ := h; exact hasLaneEffect_lane2 hr rfl rfl fun l => larger_eq_max ..
  | imaxU o => obtain ⟨⟩ := h; exact hasLaneEffect_lane2 hr rfl rfl fun l => largerU_eq_max ..
  | iabs o => obtain ⟨⟩ := h; exact hasLaneEffect_lane1 hr rfl rfl fun l => absW_eq_natAbs ..
  | _ => cases h

theorem laneBitsResults : LaneBitsResults := by
  intro i s c d f h hr
  cases i with
  | and o => obtain ⟨⟩ := h; exact hasLaneEffect_lane2 hr rfl rfl fun l => eq_ofFnLE fun j => BitVec.getLsbD_and
  | or o => obtain ⟨⟩ := h; exact hasLaneEffect_lane2 hr rfl rfl fun l => eq_ofFnLE fun j => BitVec.getLsbD_or
  | xor o =>
    obtain ⟨⟩ := h
    exact hasLaneEffect_lane2 hr rfl rfl fun l => eq_ofFnLE fun j => BitVec.getLsbD_xor
  | bmix o fn => obtain ⟨⟩ := h; exact hasLaneEffect_lane3 hr rfl rfl fun l => mixBits_eq ..
  | shl o => obtain ⟨⟩ := h; exact hasLaneEffect_lane2 hr rfl rfl fun l => shiftL_eq_mul ..
  | shr o => obtain ⟨⟩ := h; exact hasLaneEffect_lane2 hr rfl rfl fun l => shiftR_eq_div ..
  | shrA o => obtain ⟨⟩ := h; exact hasLaneEffect_lane2 hr rfl rfl fun l => shiftRA_eq_div ..
  | popc o => obtain ⟨⟩ := h; exact hasLaneEffect_lane1 hr rfl rfl fun l => countOnes_eq_countP ..
  | clz o => obtain ⟨⟩ := h; exact hasLaneEffect_lane1 hr rfl rfl fun l => leadZeros_eq_size ..
  | brev o => obtain ⟨⟩ := h; exact hasLaneEffect_lane1 hr rfl rfl fun l => reverse_bits ..
  | bfe o sx len pos => obtain ⟨⟩ := h; exact hasLaneEffect_lane1 hr rfl rfl fun l => extract_eq ..
  | bfi o len pos => obtain ⟨⟩ := h; exact hasLaneEffect_lane2 hr rfl rfl fun l => insertField_bits ..
  | _ => cases h

/-- The predicates of a lane by their numbers (R174). -/
theorem predsOfLane_bits (w : Warp) (l : Lane) :
    predsOfLane w l = BitVec.ofFnLE fun j : Fin 32 => j.val < 8 && predLane w (Fin.ofNat 8 j.val) l.val := by
  refine congrArg BitVec.ofFnLE (funext fun j => ?_)
  split
  case isTrue hj =>
    have hfin : Fin.ofNat 8 j.val = ⟨j.val, hj⟩ := Fin.ext (Nat.mod_eq_of_lt hj)
    rw [hfin, decide_eq_true hj, Bool.true_and]
  case isFalse hj => rw [decide_eq_false hj, Bool.false_and]

theorem laneMoveResults : LaneMoveResults := by
  intro i s c d f h hr
  cases i with
  | sel q d a b k => obtain ⟨⟩ := h; exact hasLaneEffect_dst hr rfl (issue_ready hr _) fun l => rfl
  | movqRead q d => obtain ⟨⟩ := h; exact hasLaneEffect_dst hr rfl (issue_ready hr _) fun l => predsOfLane_bits ..
  | mov o => obtain ⟨⟩ := h; exact hasLaneEffect_lane1 hr rfl rfl fun l => rfl
  | movs q d a k => obtain ⟨⟩ := h; exact hasLaneEffect_dst hr rfl (issue_ready hr _) fun l => rfl
  | _ => cases h

/-! ## xlane -/

/-- R181: the lane within its group that a mode and a selector name, for lane `o` of a group of `n`. -/
def groupLane (mode : XMode) (n o j : Nat) : Nat :=
  match mode with
  | .from => j % n
  | .rot => (o + j) % n
  | .rev => (n - 1 - o + j) % n
  | .xor => o ^^^ j % n

/-- The lane that an exchange reads is one of the same group. -/
theorem groupLane_lt (mode : XMode) (g l j : Nat) : groupLane mode (2 ^ g) (l % 2 ^ g) j < 2 ^ g := by
  have hn : 0 < 2 ^ g := Nat.two_pow_pos g
  cases mode with
  | xor => exact Nat.xor_lt_two_pow (Nat.mod_lt _ hn) (Nat.mod_lt _ hn)
  | _ => exact Nat.mod_lt _ hn

theorem xlaneFrom_eq (mode : XMode) (g l j : Nat) :
    xlaneFrom mode g l j = l / 2 ^ g * 2 ^ g + groupLane mode (2 ^ g) (l % 2 ^ g) j := by
  have hbase : l - l % 2 ^ g = l / 2 ^ g * 2 ^ g := by
    rw [Nat.mul_comm]
    exact Nat.sub_eq_of_eq_add (Nat.div_add_mod l (2 ^ g)).symm
  have hlt := groupLane_lt mode g l j
  cases mode with
  | xor => exact congrArg₂ (· + ·) hbase (Nat.mod_eq_of_lt hlt)
  | _ => exact congrArg (· + _) hbase

/-- The group of a lane lies among the 32 lanes. -/
theorem xlaneFrom_lt (mode : XMode) (g : Fin 6) (l : Lane) (j : Nat) : xlaneFrom mode g.val l.val j < 32 := by
  have hlt := groupLane_lt mode g.val l.val j
  have hn : 2 ^ g.val * 2 ^ (5 - g.val) = 32 := by rw [← Nat.pow_add, Nat.add_sub_cancel' (by omega)]
  have hgroup : l.val / 2 ^ g.val < 2 ^ (5 - g.val) :=
    (Nat.div_lt_iff_lt_mul (Nat.two_pow_pos _)).mpr (by rw [Nat.mul_comm, hn]; exact l.isLt)
  rw [xlaneFrom_eq]
  calc l.val / 2 ^ g.val * 2 ^ g.val + groupLane mode (2 ^ g.val) (l.val % 2 ^ g.val) j
      < l.val / 2 ^ g.val * 2 ^ g.val + 2 ^ g.val := Nat.add_lt_add_left hlt _
    _ = (l.val / 2 ^ g.val + 1) * 2 ^ g.val := (Nat.succ_mul ..).symm
    _ ≤ 2 ^ (5 - g.val) * 2 ^ g.val := Nat.mul_le_mul_right _ hgroup
    _ = 32 := by rw [Nat.mul_comm, hn]

/-- With every word correctable, no lane dies of its exchange. -/
theorem exec_xlane {o : FormA} {g : Fin 6} {mode : XMode} {s : State} {c : Ctx} (hr : ready (.xlane o g mode) s = some c)
    (hbad : s.bad = []) : exec (.xlane o g mode) s = .next (c.exchange o g mode c.w) := by
  have hdying : c.xdying o g mode = 0 := if_pos (by rw [(issued_of_ready hr).st, hbad]; rfl)
  exact (issue_ready hr _).trans (congrArg _ (if_pos hdying))

theorem laneExchanges : LaneExchanges := by
  intro o g mode s c hr hbad n other
  have hother (l : Lane) : (c.xsource o g mode l).val = other l :=
    (Nat.mod_eq_of_lt (xlaneFrom_lt ..)).trans (xlaneFrom_eq ..)
  have hsource (l : Lane) : c.xsource o g mode l = Fin.ofNat 32 (other l) := by
    rw [← hother, Fin.ofNat_val_eq_self]
  refine hasLaneEffect_of_finish hr rfl ((exec_xlane hr hbad).trans (congrArg _ ?_))
  simp only [Ctx.exchange, (issued_of_ready hr).alive, flagsOf_flag, hother]
  simp only [hsource]
  rfl

/-- Settles O1: each instruction of the lanes writes its result, which is that of exact integers or of single bits. -/
theorem laneIntegerResults : Obligations.LaneIntegerResults :=
  ⟨laneArithmeticResults, laneBitsResults, laneMoveResults, laneExchanges⟩

end Sys2Proof.Machine
end

section
/-! PROOF. O56. The edge results of division, remainder, `iabs` and shifts, in lanes and in uniform registers (R58). -/

namespace Sys2Proof.Machine

/-! ## Words -/

theorem quot_zero (x : Word) : quot x 0 = 0xFFFFFFFF := rfl

theorem quotU_zero (x : Word) : quotU x 0 = 0xFFFFFFFF := rfl

theorem remd_zero (x : Word) : remd x 0 = x := rfl

theorem remdU_zero (x : Word) : remdU x 0 = x := rfl

/-- Away from the edges the quotient is the exact one, towards zero. -/
theorem quot_toInt {x y : Word} (hy : y ≠ 0) (hedge : ¬ (x = 0x80000000 ∧ y = 0xFFFFFFFF)) :
    (quot x y).toInt = x.toInt.tdiv y.toInt := by
  rw [quot, if_neg hy]
  exact BitVec.toInt_sdiv_of_ne_or_ne x y (not_and_or.mp hedge)

/-- The remainder completes the quotient. -/
theorem remd_toInt {x y : Word} (hy : y ≠ 0) : x.toInt = x.toInt.tdiv y.toInt * y.toInt + (remd x y).toInt := by
  rw [remd, if_neg hy, BitVec.toInt_srem, Int.mul_comm]
  exact (Int.mul_tdiv_add_tmod ..).symm

theorem shiftL_far (x : Word) {y : Word} (hy : 32 ≤ y.toNat) : shiftL x y = 0 := if_pos hy

theorem shiftR_far (x : Word) {y : Word} (hy : 32 ≤ y.toNat) : shiftR x y = 0 := if_pos hy

/-- A far arithmetic shift leaves copies of the sign. -/
theorem shiftRA_far (x : Word) {y : Word} (hy : 32 ≤ y.toNat) : shiftRA x y = if x.getLsbD 31 then 0xFFFFFFFF else 0 := by
  have hmsb : x.msb = x.getLsbD 31 := BitVec.msb_eq_getLsbD_last x
  have hbit (k : Nat) (hk : k < 32) : (shiftRA x y).getLsbD k = x.getLsbD 31 := by
    rw [shiftRA, Nat.min_eq_right (by omega), BitVec.getLsbD_sshiftRight, hmsb]
    obtain rfl | hpos := Nat.eq_zero_or_pos k
    · rfl
    · simp [hk, show ¬ 31 + k < 32 by omega]
  refine BitVec.eq_of_getLsbD_eq fun k hk => (hbit k hk).trans ?_
  cases x.getLsbD 31 with
  | false => exact BitVec.getLsbD_zero.symm
  | true => exact ((BitVec.getLsbD_allOnes (v := 32)).trans (decide_eq_true hk)).symm

/-! ## Lanes -/

/-- The instruction completes with `r` in one lane of its destination, and raises no flag. -/
def LaneGives (i : Instr) (s : State) (c : Ctx) (n : Fin 120) (l : Lane) (r : Word) : Prop :=
  ∃ t v, exec i s = .next t ∧ tget t.warps c.wid = some v ∧ v.vregs[n][l] = r ∧ v.fflags = c.w.fflags ∧ v.pc = c.nextPc

theorem HasLaneEffect.gives {i : Instr} {s : State} {c : Ctx} {d : VOp} {f : Lane → Word} (h : HasLaneEffect i s c d f 0)
    {n : Fin 120} {l : Lane} {r : Word} (hd : d = .v n) (hl : c.act.getLsbD l.val = true) (hf : f l = r) :
    LaneGives i s c n l r := by
  subst hd
  obtain ⟨t, v, hexec, hwarp, ⟨hlane, -, -⟩, -, -, hkeeps⟩ := h
  refine ⟨t, v, hexec, hwarp, ?_, ?_, congrArg Warp.pc hkeeps⟩
  · rw [hlane, if_pos hl, hf]
  · exact (congrArg Warp.fflags hkeeps).trans BitVec.or_zero

/-- An instruction of two sources in one active lane. -/
theorem laneGives_lane2 {i : Instr} {s : State} {c : Ctx} {n : Fin 120} {l : Lane} {o : FormA} {f : Word → Word → Word} {r : Word}
    (hr : ready i s = some c) (hd : o.d = .v n) (hl : c.act.getLsbD l.val = true) (hslice : sliceMay i = false)
    (hexec : exec i s = issue i s fun c => c.lane2 o f) (hf : f (c.v o.a l) (c.v o.b l) = r) : LaneGives i s c n l r :=
  (hasLaneEffect_lane2 hr hslice hexec fun _ => rfl).gives hd hl hf

/-! ## Uniform registers -/

/-- A uniform instruction without flags completes with its value. -/
theorem uniform_gives {i : Instr} {s : State} {c : Ctx} {d : SOp} {x : Ctx → Word} {r : Word}
    (h : uniformValue i = some (d, x, fun _ => 0)) (hr : ready i s = some c) (hx : x c = r) :
    ∃ t v, exec i s = .next t ∧ tget t.warps c.wid = some v ∧ SregWritten c.slice d r c.nextPc { c.w with aq := v.aq } v := by
  obtain ⟨t, v, hexec, hwarp, -, -, hwritten⟩ := uniformResults i s c d x _ h hr
  rw [hx, show c.w.fflags ||| 0 = c.w.fflags from BitVec.or_zero] at hwritten
  exact ⟨t, v, hexec, hwarp, hwritten⟩

/-- Settles O56: the edges of each operation on words, in a lane or in a uniform register. -/
theorem integerEdgeResults : Obligations.IntegerEdgeResults := by
  unfold Obligations.IntegerEdgeResults
  refine ⟨fun i s c n l hl hr => ⟨fun o hd => ⟨?byZero, ?remByZero, ?most, ?remMost, ?quotient, ?remainder, ?shift, ?shiftA⟩,
    fun o hd hi hx => ?abs⟩, fun i s c o hr hy => ⟨?uniform, ?uniformA⟩⟩
  case byZero =>
    rintro (rfl | rfl) hy
    · exact laneGives_lane2 hr hd hl rfl rfl (hy ▸ quot_zero _)
    · exact laneGives_lane2 hr hd hl rfl rfl (hy ▸ quotU_zero _)
  case remByZero =>
    rintro (rfl | rfl) hy
    · exact laneGives_lane2 hr hd hl rfl rfl (hy ▸ remd_zero _)
    · exact laneGives_lane2 hr hd hl rfl rfl (hy ▸ remdU_zero _)
  case most =>
    rintro rfl hx hy
    exact laneGives_lane2 hr hd hl rfl rfl (by rw [hx, hy]; rfl)
  case remMost =>
    rintro rfl hx hy
    exact laneGives_lane2 hr hd hl rfl rfl (by rw [hx, hy]; rfl)
  case quotient =>
    rintro rfl hy hedge
    exact ⟨_, laneGives_lane2 hr hd hl rfl rfl rfl, quot_toInt hy hedge⟩
  case remainder =>
    rintro rfl hy -
    exact ⟨_, laneGives_lane2 hr hd hl rfl rfl rfl, remd_toInt hy⟩
  case shift =>
    rintro (rfl | rfl) hy
    · exact laneGives_lane2 hr hd hl rfl rfl (shiftL_far _ hy)
    · exact laneGives_lane2 hr hd hl rfl rfl (shiftR_far _ hy)
  case shiftA =>
    rintro rfl hy
    exact laneGives_lane2 hr hd hl rfl rfl (shiftRA_far _ hy)
  case abs =>
    subst hi
    exact (hasLaneEffect_lane1 hr rfl rfl fun _ => rfl).gives hd hl (by rw [hx]; rfl)
  case uniform =>
    rintro (rfl | rfl)
    · exact uniform_gives rfl hr ((shiftL_eq_mul ..).symm.trans (shiftL_far _ hy))
    · exact uniform_gives rfl hr ((shiftR_eq_div ..).symm.trans (shiftR_far _ hy))
  case uniformA =>
    rintro rfl
    exact uniform_gives rfl hr ((shiftRA_eq_div ..).symm.trans (shiftRA_far _ hy))

end Sys2Proof.Machine
end

section
/-! SUPPORT. Floating-point instructions of the lanes: what their bodies are, and how one with a register pair finishes
(R63, R163, R175-R179). -/

namespace Sys2Proof.Machine

/-! ## Signs -/

/-- A pattern with its sign bit flipped stands for the negated value (R59, R175). -/
theorem decodeF_flip (f : Fmt) (x : Nat) : decodeF f (x ^^^ 2 ^ (f.eb + f.mb)) = (decodeF f x).neg := by
  have hsign : ((x ^^^ 2 ^ (f.eb + f.mb)) / 2 ^ (f.eb + f.mb) % 2 == 1) = !(x / 2 ^ (f.eb + f.mb) % 2 == 1) := by
    rw [Nat.xor_div_two_pow, Nat.div_self (Nat.two_pow_pos _), Nat.xor_mod_two_eq]
    obtain h | h := Nat.mod_two_eq_zero_or_one (x / 2 ^ (f.eb + f.mb)) <;> simp [Nat.add_mod, h]
  have hexp : (x ^^^ 2 ^ (f.eb + f.mb)) / 2 ^ f.mb % 2 ^ f.eb = x / 2 ^ f.mb % 2 ^ f.eb := by
    rw [Nat.xor_div_two_pow, Nat.pow_add, Nat.mul_div_cancel _ (Nat.two_pow_pos _), Nat.xor_mod_two_pow, Nat.mod_self, Nat.xor_zero]
  have hfrac : (x ^^^ 2 ^ (f.eb + f.mb)) % 2 ^ f.mb = x % 2 ^ f.mb := by
    rw [Nat.xor_mod_two_pow, Nat.pow_add, Nat.mul_mod_left, Nat.xor_zero]
  simp only [decodeF, hsign, hexp, hfrac]
  split
  case isTrue => split <;> rfl
  case isFalse => split <;> rfl

theorem dec32_flip (y : Word) : dec32 (y ^^^ 0x80000000) = (dec32 y).neg :=
  (congrArg (decodeF fp32) (BitVec.toNat_xor ..)).trans (decodeF_flip fp32 y.toNat)

theorem fsub32_eq_fadd32 (x y : Word) : fsub32 .rne x y = fadd32 .rne x (y ^^^ 0x80000000) := by
  rw [fsub32, fadd32, dec32_flip]

/-! ## Bodies -/

/-- The body of a floating-point instruction with a 32-bit destination is its value with its flags in each lane. -/
theorem exec_float {i : Instr} {d : VOp} {f : Ctx → Lane → Word × Flags} (h : floatValue i = some (d, f)) (s : State) :
    exec i s = issue i s (fun c => c.laneF d (f c)) ∧ sliceMay i = false := by
  cases i with
  | fadd o | fmul o | fmin o | fmax o | ffma o np nc rm | fdiv o rm => obtain ⟨⟩ := h; exact ⟨rfl, rfl⟩
  | fsqrt o | frcp o | frsq o | fexp2 o | flog2 o | fsin o | fcos o => obtain ⟨⟩ := h; exact ⟨rfl, rfl⟩
  | fsub o =>
    obtain ⟨⟩ := h
    refine ⟨congrArg (issue _ s) (funext fun c => congrArg (c.laneF o.d) (funext fun l => ?_)), rfl⟩
    exact fsub32_eq_fadd32 ..
  | fx o ty op na nb nc rm =>
    simp only [floatValue] at h
    split at h
    case isTrue => cases h
    case isFalse hty =>
      obtain ⟨⟩ := h
      exact ⟨congrArg (issue _ s) (funext fun c => if_neg hty), rfl⟩
  | cvt o st dt sat rm se de =>
    simp only [floatValue] at h
    split at h
    case isTrue => cases h
    case isFalse hwide =>
      obtain ⟨⟩ := h
      refine ⟨congrArg (issue _ s) (funext fun c => (if_neg hwide).trans ?_), rfl⟩
      split
      case isTrue => rfl
      case isFalse => rfl
  | _ => cases h

/-- The same with a 64-bit destination. -/
theorem exec_wide {i : Instr} {d : VOp} {f : Ctx → Lane → DWord × Flags} (h : wideValue i = some (d, f)) (s : State) :
    exec i s = issue i s (fun c => c.laneF64 d (f c)) ∧ sliceMay i = false := by
  cases i with
  | fx o ty op na nb nc rm =>
    simp only [wideValue] at h
    split at h
    case isTrue hty =>
      obtain ⟨⟩ := h
      exact ⟨congrArg (issue _ s) (funext fun c => if_pos hty), rfl⟩
    case isFalse => cases h
  | cvt o st dt sat rm se de =>
    simp only [wideValue] at h
    split at h
    case isTrue hwide =>
      obtain ⟨⟩ := h
      exact ⟨congrArg (issue _ s) (funext fun c => if_pos hwide), rfl⟩
    case isFalse => cases h
  | _ => cases h

/-! ## Register pairs -/

theorem setVreg_get (w : Warp) (n : Nat) (m : Mask) (f : Lane → Word) (k : Fin 120) (l : Lane) :
    (setVreg w n m f).vregs[k][l] = if m.getLsbD l.val && k.val == n then f l else w.vregs[k][l] := by
  unfold setVreg
  by_cases hk : k.val = n
  · subst hk
    simpa using mixRow_get m f w.vregs[k] l
  · split
    case isTrue hn => simp [Vector.getElem_set_ne, Ne.symm hk, hk]
    case isFalse => simp [hk]

/-- Writing a register pair touches the registers alone. -/
theorem dst64_eq (m : Mask) (d : VOp) (f : Lane → DWord) (w : Warp) : dst64 m d f w = { w with vregs := (dst64 m d f w).vregs } := by
  cases d with
  | v n =>
    simp only [dst64, dstAt]
    unfold setVreg
    split
    case isTrue => split <;> rfl
    case isFalse => split <;> rfl
  | _ => rfl

theorem dst64_aq (m : Mask) (d : VOp) (f : Lane → DWord) (w : Warp) : (dst64 m d f w).aq = w.aq := by
  rw [dst64_eq]

theorem dst64_written (m : Mask) (d : VOp) (f : Lane → DWord) (w v : Warp) (hv : v.vregs = w.vregs) :
    WrittenPair m d f w (dst64 m d f v) := by
  cases d with
  | v n =>
    intro k l
    simp only [dst64, dstAt, setVreg_get, Nat.add_zero, hv]
    by_cases hlow : k.val = n.val <;> simp [hlow]
  | _ => exact hv

/-- An instruction whose effect is to write a register pair and to accrue flags. -/
theorem laneF64_finishes {i : Instr} {s : State} {c : Ctx} {d : VOp} {f : Lane → DWord × Flags} (hr : ready i s = some c)
    (hslice : sliceMay i = false) (hexec : exec i s = .next (c.laneF64 d f)) : ∃ t v, exec i s = .next t ∧ tget t.warps c.wid = some v
      ∧ WrittenPair c.act d (fun l => (f l).1) c.w v ∧ Popped i c.w v ∧ OnlyWarp c.wid s t
      ∧ v = { c.w with pc := c.nextPc, vregs := v.vregs, aq := v.aq, fflags := c.w.fflags ||| flagsOf c.act fun l => (f l).2 } := by
  have hi := issued_of_ready hr
  have hwarp := c.finish_warp hi fun w => accrue (dst64 c.act d (fun l => (f l).1) w) (flagsOf c.act fun l => (f l).2)
  have hpop := popQueues_eq (namedQueues (opnds i).vs) c.w
  rw [hi.noSlice hslice] at hwarp
  refine ⟨_, _, hexec, hwarp, ?written, ?popped, hi.st ▸ c.finish_only _, ?keeps⟩
  case written =>
    have hw := dst64_written c.act d (fun l => (f l).1) c.w (popQueues (namedQueues (opnds i).vs) c.w) (by rw [hpop])
    cases d <;> exact hw
  case popped =>
    exact popped_setPc (f := fun w => accrue (dst64 c.act d (fun l => (f l).1) w) _) fun w => dst64_aq c.act d _ w
  case keeps =>
    simp only [setPc, Bool.false_eq_true, if_false, accrue]
    rw [dst64_eq, hpop]

end Sys2Proof.Machine
end

section
/-! SUPPORT. Sums, products and quotients of finite values as rational numbers, each rounded once (R59, R60, R62, R78, R79). -/

namespace Sys2Proof.Machine

/-! ## Values as rational numbers -/

theorem FVal.rat_fin (s : Bool) (m : Nat) (e : Int) : (FVal.fin s m e).rat = some (signed s (m * 2 ^ e)) := by
  cases s <;> simp [FVal.rat, signed]

theorem FVal.fin_of_rat {x : FVal} {a : ℚ} (h : x.rat = some a) : ∃ s m e, x = .fin s m e ∧ a = signed s (m * 2 ^ e) := by
  cases x with
  | fin s m e => exact ⟨s, m, e, rfl, Option.some.inj (h.symm.trans (FVal.rat_fin s m e))⟩
  | _ => cases h

theorem FVal.rat_neg {x : FVal} {a : ℚ} (h : x.rat = some a) : x.neg.rat = some (-a) := by
  obtain ⟨s, m, e, rfl, rfl⟩ := FVal.fin_of_rat h
  rw [FVal.neg, FVal.rat_fin]
  cases s <;> simp [signed]

theorem signed_eq_zero {s : Bool} {w : ℚ} : signed s w = 0 ↔ w = 0 := by
  cases s <;> simp [signed]

theorem signed_mul (s t : Bool) (u w : ℚ) : signed s u * signed t w = signed (s != t) (u * w) := by
  cases s <;> cases t <;> simp [signed]

theorem signed_div (s t : Bool) (u w : ℚ) : signed s u / signed t w = signed (s != t) (u / w) := by
  cases s <;> cases t <;> simp [signed, neg_div, div_neg]

theorem significand_eq_zero {m : Nat} {e : Int} : (m : ℚ) * 2 ^ e = 0 ↔ m = 0 := by
  rw [mul_eq_zero, Nat.cast_eq_zero, or_iff_left (zpow2_pos e).ne']

/-- A value aligned to an exponent that is not above its own is the same number. -/
theorem alignTo_value (s : Bool) (m : Nat) {e0 e : Int} (h : e ≤ e0) :
    (alignTo s m e0 e : ℚ) * 2 ^ e = signed s (m * 2 ^ e0) := by
  have hpow : (2 : ℚ) ^ (e0 - e).toNat * 2 ^ e = 2 ^ e0 := by
    rw [← zpow_natCast, ← zpow_add₀ two_ne_zero, Int.toNat_of_nonneg (sub_nonneg.mpr h), sub_add_cancel]
  cases s <;> simp [alignTo, signed, mul_assoc, hpow]

/-! ## Rounded once -/

section
variable {f : Fmt} {rm : RMode} (hf : f.Ok)
include hf

/-- A sum of finite values that is not zero. -/
theorem addV_rounds {x y : FVal} {a b : ℚ} (hx : x.rat = some a) (hy : y.rat = some b) (hab : a + b ≠ 0) :
    RoundsTo f rm (a + b) (addV f rm x y) := by
  obtain ⟨s, m, e, rfl, rfl⟩ := FVal.fin_of_rat hx
  obtain ⟨t, n, g, rfl, rfl⟩ := FVal.fin_of_rat hy
  have hsum : signed s (m * 2 ^ e) + signed t (n * 2 ^ g)
      = ((alignTo s m e (min e g) + alignTo t n g (min e g) : Int) : ℚ) * 2 ^ min e g := by
    rw [Int.cast_add, add_mul, alignTo_value s m (min_le_left e g), alignTo_value t n (min_le_right e g)]
  rw [hsum] at hab ⊢
  exact roundInt_spec hf _ _ _ rm fun h => hab (by rw [h, Int.cast_zero, zero_mul])

/-- A magnitude that is exact and not zero. -/
theorem roundMag_exact (s : Bool) {m : Nat} (e : Int) (hm : m ≠ 0) :
    RoundsTo f rm (signed s (m * 2 ^ e)) (roundMag f s m e false rm) :=
  roundMag_spec hf s m e false rm _ hm (fun h => nomatch h) rfl

omit hf in
/-- The product of finite values is exact. -/
theorem mulX_rat {x y : FVal} {a b : ℚ} (hx : x.rat = some a) (hy : y.rat = some b) : (mulX x y).1.rat = some (a * b) := by
  obtain ⟨s, m, e, rfl, rfl⟩ := FVal.fin_of_rat hx
  obtain ⟨t, n, g, rfl, rfl⟩ := FVal.fin_of_rat hy
  have hproduct : ((m * n : Nat) : ℚ) * 2 ^ (e + g) = m * 2 ^ e * (n * 2 ^ g) := by
    rw [Nat.cast_mul, zpow_add₀ two_ne_zero, mul_mul_mul_comm]
  rw [mulX, FVal.rat_fin, hproduct, signed_mul]

omit hf in
/-- It raises nothing. -/
theorem mulX_flags {x y : FVal} {a b : ℚ} (hx : x.rat = some a) (hy : y.rat = some b) : (mulX x y).2 = 0 := by
  obtain ⟨s, m, e, rfl, -⟩ := FVal.fin_of_rat hx
  obtain ⟨t, n, g, rfl, -⟩ := FVal.fin_of_rat hy
  rfl

/-- A finite value that is not zero. -/
theorem roundV_rounds {x : FVal} {a : ℚ} (hx : x.rat = some a) (ha : a ≠ 0) : RoundsTo f rm a (roundV f rm x) := by
  obtain ⟨s, m, e, rfl, rfl⟩ := FVal.fin_of_rat hx
  have hm : m ≠ 0 := fun h => ha (signed_eq_zero.mpr (significand_eq_zero.mpr h))
  exact roundMag_spec hf s m e false rm _ hm (fun h => nomatch h) rfl

theorem mulV_rounds {x y : FVal} {a b : ℚ} (hx : x.rat = some a) (hy : y.rat = some b) (hab : a * b ≠ 0) :
    RoundsTo f rm (a * b) (mulV f rm x y) := by
  have hvalue : mulV f rm x y = roundV f rm (mulX x y).1 :=
    Prod.ext rfl ((congrArg (· ||| _) (mulX_flags hx hy)).trans BitVec.zero_or)
  rw [hvalue]
  exact roundV_rounds hf (mulX_rat hx hy) hab

/-- A sum with a product `p`, which may be negated. -/
theorem fmaV_rounds {x y z : FVal} {a b c p : ℚ} {np : Bool} (hx : x.rat = some a) (hy : y.rat = some b) (hz : z.rat = some c)
    (hp : ((mulX x y).1.negIf np).rat = some p) (h : p + c ≠ 0) : RoundsTo f rm (p + c) (fmaV f rm np x y z) := by
  have hvalue : fmaV f rm np x y z = addV f rm ((mulX x y).1.negIf np) z :=
    Prod.ext rfl ((congrArg (· ||| _) (mulX_flags hx hy)).trans BitVec.zero_or)
  rw [hvalue]
  exact addV_rounds hf hp hz h

omit hf in
/-- A quotient of significands shifted by `k` places has the bits that rounding asks for. -/
theorem quotient_bits {m n k b : Nat} (hm : m ≠ 0) (hn : n ≠ 0) (hk : b + 1 + Nat.log2 n ≤ k) : 2 ^ b ≤ m * 2 ^ k / n := by
  rw [Nat.le_div_iff_mul_le (Nat.pos_of_ne_zero hn)]
  calc 2 ^ b * n ≤ 2 ^ b * 2 ^ (Nat.log2 n + 1) := Nat.mul_le_mul_left _ Nat.lt_log2_self.le
    _ = 2 ^ (b + 1 + Nat.log2 n) := by rw [← Nat.pow_add, Nat.add_right_comm, Nat.add_assoc]
    _ ≤ 2 ^ k := Nat.pow_le_pow_right two_pos hk
    _ ≤ m * 2 ^ k := Nat.le_mul_of_pos_left _ (Nat.pos_of_ne_zero hm)

omit hf in
/-- The exact quotient lies in the unit above the truncated one, and is that one where nothing remains. -/
theorem quotient_exact {m n k : Nat} (hn : n ≠ 0) (e g : Int) :
    Exact (m * 2 ^ k / n) (e - g - k) (m * 2 ^ k % n != 0) (m * 2 ^ e / (n * 2 ^ g)) := by
  have hn0 : (0 : ℚ) < n := by exact_mod_cast Nat.pos_of_ne_zero hn
  have hdivision : (m : ℚ) * 2 ^ k = (m * 2 ^ k / n : Nat) * n + (m * 2 ^ k % n : Nat) := by
    exact_mod_cast (Nat.div_add_mod' (m * 2 ^ k) n).symm
  have hlt : ((m * 2 ^ k % n : Nat) : ℚ) < n := by exact_mod_cast Nat.mod_lt _ (Nat.pos_of_ne_zero hn)
  have hvalue : (m : ℚ) * 2 ^ e / (n * 2 ^ g) = m * 2 ^ k / n * 2 ^ (e - g - k) := by
    rw [zpow_sub₀ two_ne_zero, zpow_sub₀ two_ne_zero, zpow_natCast]
    field_simp
  have hunit := zpow2_pos (e - g - k)
  unfold Exact
  rw [hvalue, hdivision, add_div, mul_div_cancel_right₀ _ hn0.ne']
  by_cases hr : m * 2 ^ k % n = 0
  · simp [hr]
  · have hpos : (0 : ℚ) < (m * 2 ^ k % n : Nat) := by exact_mod_cast Nat.pos_of_ne_zero hr
    rw [if_pos (bne_iff_ne.mpr hr), mul_lt_mul_iff_left₀ hunit, mul_lt_mul_iff_left₀ hunit, add_lt_add_iff_left, div_lt_one hn0]
    exact ⟨lt_add_of_pos_right _ (div_pos hpos hn0), hlt⟩

theorem divV_rounds {x y : FVal} {a b : ℚ} (hx : x.rat = some a) (hy : y.rat = some b) (ha : a ≠ 0) (hb : b ≠ 0) :
    RoundsTo f rm (a / b) (divV f rm x y) := by
  obtain ⟨s, m, e, rfl, rfl⟩ := FVal.fin_of_rat hx
  obtain ⟨t, n, g, rfl, rfl⟩ := FVal.fin_of_rat hy
  have hm : m ≠ 0 := fun h => ha (signed_eq_zero.mpr (significand_eq_zero.mpr h))
  have hn : n ≠ 0 := fun h => hb (signed_eq_zero.mpr (significand_eq_zero.mpr h))
  have hbits : 2 ^ (f.mb + 2) ≤ m * 2 ^ (f.mb + 4 + Nat.log2 n) / n := quotient_bits hm hn (by omega)
  have hq : m * 2 ^ (f.mb + 4 + Nat.log2 n) / n ≠ 0 := ((Nat.two_pow_pos _).trans_le hbits).ne'
  rw [signed_div]
  simp only [divV, hm, hn, if_false]
  exact roundMag_spec hf _ _ _ _ rm _ hq (fun _ => (Nat.le_log2 hq).mpr hbits) (quotient_exact hn e g)

end

/-- The sign of a sum that is exactly zero (R79). -/
theorem addV_zero (f : Fmt) (rm : RMode) {x y : FVal} {a b : ℚ} (hx : x.rat = some a) (hy : y.rat = some b) (hab : a + b = 0) :
    addV f rm x y = (f.sign (if a = 0 ∧ x.negative = y.negative then x.negative else rm == .rdn), 0) := by
  obtain ⟨s, m, e, rfl, rfl⟩ := FVal.fin_of_rat hx
  obtain ⟨t, n, g, rfl, rfl⟩ := FVal.fin_of_rat hy
  have hsum : alignTo s m e (min e g) + alignTo t n g (min e g) = 0 := by
    have hvalue : ((alignTo s m e (min e g) + alignTo t n g (min e g) : Int) : ℚ) * 2 ^ min e g = 0 := by
      rw [Int.cast_add, add_mul, alignTo_value s m (min_le_left e g), alignTo_value t n (min_le_right e g), hab]
    exact_mod_cast (mul_eq_zero.mp hvalue).resolve_right (zpow2_pos _).ne'
  have hm : signed s (m * 2 ^ e) = 0 ↔ m = 0 := signed_eq_zero.trans significand_eq_zero
  have hn : m = 0 → n = 0 := fun h => by
    rw [hm.mpr h, zero_add] at hab
    exact significand_eq_zero.mp (signed_eq_zero.mp hab)
  simp only [addV, roundInt, hsum, if_true, hm, FVal.negative]
  congr 2
  by_cases h : m = 0
  · simp [h, hn h]
  · simp [h]

end Sys2Proof.Machine
end

section
/-! PROOF. O2. Floating-point instructions of the lanes complete with their results and flags, and their operations round once
(R59, R60, R62, R63, R78, R79, R175-R179). -/

namespace Sys2Proof.Machine

theorem laneFloatResults : LaneFloatResults := by
  intro i s c d f h hr
  obtain ⟨hexec, hslice⟩ := exec_float h s
  exact hasLaneEffect_of_finish hr hslice (hexec.trans (issue_ready hr _))

theorem laneWideResults : LaneWideResults := by
  intro i s c d f h hr
  obtain ⟨hexec, hslice⟩ := exec_wide h s
  exact laneF64_finishes hr hslice (hexec.trans (issue_ready hr _))

/-- The IEEE formats of the lanes are formats of this machine. -/
theorem Fmt.ok_of_mem {f : Fmt} (h : f ∈ [fp16, bf16, fp32, fp64]) : f.Ok := by
  simp only [List.mem_cons, List.not_mem_nil, or_false] at h
  obtain rfl | rfl | rfl | rfl := h
  exacts [ok_fp16, ok_bf16, ok_fp32, ok_fp64]

theorem roundsOnce : RoundsOnce := by
  intro f rm x y z a b c hmem hx hy hz
  have hf := Fmt.ok_of_mem hmem
  have hneg : c - a * b = -(a * b) + c := sub_eq_neg_add ..
  have hproduct := mulX_rat hx hy
  exact ⟨addV_rounds hf hx hy, mulV_rounds hf hx hy, fmaV_rounds hf hx hy hz hproduct,
    hneg ▸ fmaV_rounds hf hx hy hz (FVal.rat_neg hproduct), divV_rounds hf hx hy, addV_zero f rm hx hy⟩

/-- Settles O2: the bodies of the instructions give the values and flags, and what they compute is rounded once. -/
theorem laneFloatingResults : Obligations.LaneFloatingResults := ⟨laneFloatResults, laneWideResults, roundsOnce⟩

end Sys2Proof.Machine
end

section
/-! SUPPORT. The payloads of weight blocks: nibbles, groups of four, and the columns that they give (R67, R258). -/

namespace Sys2Proof.Machine

/-! ## Pieces -/

theorem pieces_length {α : Type} (n k : Nat) (xs : List α) : (pieces_ n k xs).length = k := by
  rw [pieces_, List.length_map, List.length_range]

theorem pieces_get {α : Type} {n k j : Nat} (h : j < k) (xs : List α) : (pieces_ n k xs)[j]? = some ((xs.drop (j * n)).take n) := by
  rw [pieces_, List.getElem?_map, List.getElem?_range h, Option.map_some]

/-! ## Nibbles and groups -/

theorem nibbles_length (bs : List Byte) : (nibbles bs).length = 2 * bs.length := by
  induction bs with
  | nil => rfl
  | cons b r ih =>
    simp only [nibbles, List.length_cons, ih]
    omega

theorem nibbles_get (bs : List Byte) : ∀ g, (nibbles bs).getD g 0 = (bs.getD (g / 2) 0).toNat / 16 ^ (g % 2) % 16 := by
  induction bs with
  | nil => intro g; simp [nibbles]
  | cons b r ih =>
    intro g
    match g with
    | 0 => simp [nibbles]
    | 1 =>
      have hb : b.toNat / 16 < 16 := Nat.div_lt_of_lt_mul b.isLt
      simp [nibbles, Nat.mod_eq_of_lt hb]
    | g + 2 =>
      have hrec := ih g
      rwa [← Nat.add_mod_right g 2, ← List.getD_cons_succ (x := b), ← Nat.add_div_right g two_pos] at hrec

/-- Each weight of a group is one of its two values, or zero (R258). -/
theorem group4_get (n : Nat) (x y : El) {i : Nat} (h : i < 4) :
    (group4 n x y)[i]? = some (if i = n % 4 then x else if i = n / 4 then y else .num 0) := by
  rw [group4, List.getElem?_map, List.getElem?_range h, Option.map_some]

theorem group4_length (n : Nat) (x y : El) : (group4 n x y).length = 4 := rfl

theorem spread_length (ns : List Nat) : ∀ vals : List El, vals.length = 2 * ns.length → (spread ns vals).length = 4 * ns.length := by
  induction ns with
  | nil => exact fun _ _ => rfl
  | cons n r ih =>
    intro vals hlen
    rw [List.length_cons] at hlen
    match vals with
    | x :: y :: v =>
      simp only [List.length_cons] at hlen
      rw [spread, List.length_append, group4_length, ih v (by omega), List.length_cons]
      omega

/-- Group `g` of a column takes the values `2g` and `2g + 1`. -/
theorem spread_get (ns : List Nat) : ∀ (vals : List El) (g i : Nat), vals.length = 2 * ns.length → g < ns.length → i < 4 →
    (spread ns vals)[4 * g + i]? = if i = ns.getD g 0 % 4 then vals[2 * g]? else if i = ns.getD g 0 / 4 then vals[2 * g + 1]?
      else some (.num 0) := by
  induction ns with
  | nil => exact fun _ g _ _ hg => absurd hg (Nat.not_lt_zero g)
  | cons n r ih =>
    intro vals g i hlen hg hi
    rw [List.length_cons] at hlen hg
    match vals, g with
    | x :: y :: v, 0 =>
      rw [spread, Nat.mul_zero, Nat.zero_add, List.getElem?_append_left hi, group4_get n x y hi]
      simp only [List.getD_cons_zero, apply_ite some]
      rfl
    | x :: y :: v, g + 1 =>
      simp only [List.length_cons] at hlen
      have hrec := ih v g i (by omega) (by omega) hi
      rw [spread, List.getElem?_append_right (by rw [group4_length]; omega), group4_length,
        show 4 * (g + 1) + i - 4 = 4 * g + i by omega, hrec]
      rfl

/-! ## Elements -/

theorem elems6_length (k : Nat) : ∀ bs : List Byte, bs.length = 3 * k → (elems6 bs).length = 4 * k := by
  induction k with
  | zero =>
    intro bs h
    rw [List.length_eq_zero_iff.mp h]
    rfl
  | succ k ih =>
    intro bs h
    match bs with
    | a :: b :: c :: r =>
      simp only [List.length_cons] at h
      simp only [elems6, List.length_cons, ih r (by omega)]
      omega

theorem elems16_length (t k : Nat) : ∀ bs : List Byte, bs.length = 2 * k → (elems16 t bs).length = k := by
  induction k with
  | zero =>
    intro bs h
    rw [List.length_eq_zero_iff.mp h]
    rfl
  | succ k ih =>
    intro bs h
    match bs with
    | a :: b :: r =>
      simp only [List.length_cons] at h
      simp only [elems16, List.length_cons, ih r (by omega)]

/-- Half a row of bytes holds half a row of elements (R248). -/
theorem elems_length {t : Nat} (ht : t ≤ 3) {bs : List Byte} (h : bs.length = rowSize t / 2) : (elems t bs).length = rowLen t / 2 := by
  match t with
  | 0 => exact (List.length_map _).trans h
  | 1 => exact elems6_length 16 bs h
  | 2 | 3 => exact elems16_length _ 32 bs h

/-! ## Columns -/

/-- A two-of-four payload is 32 half rows of values and, behind them, a nibble for each group (R258). -/
theorem payload_sizes : ∀ t ≤ 3, 64 * weightBeats 1 t = 32 * (rowSize t / 2) + 32 * (rowLen t / 8)
    ∧ 16 * rowSize t = 32 * (rowSize t / 2) ∧ rowLen t = 8 * (rowLen t / 8) := by decide

/-- The bytes of column `j` in the index section. -/
def indexRow (t j : Nat) (bs : List Byte) : List Byte := ((indexBytes t bs).drop (j * (rowLen t / 8))).take (rowLen t / 8)

/-- The bytes of its values. -/
def valueRow (t j : Nat) (bs : List Byte) : List Byte := (bs.drop (j * (rowSize t / 2))).take (rowSize t / 2)

theorem weightCols_get (t : Nat) (bs : List Byte) {j : Nat} (hj : j < 32) :
    (weightCols 1 t bs)[j]? = some (spread (nibbles (indexRow t j bs)) (elems t (valueRow t j bs))) := by
  simp only [weightCols, Nat.one_ne_zero, if_false, List.getElem?_map, List.zip, List.getElem?_zipWith,
    pieces_get hj, Option.map_some]
  rfl

theorem indexRow_get {t j k : Nat} (hk : k < rowLen t / 8) (bs : List Byte) :
    (indexRow t j bs).getD k 0 = bs.getD (16 * rowSize t + j * (rowLen t / 8) + k) 0 := by
  simp only [indexRow, indexBytes, List.getD_eq_getElem?_getD, List.getElem?_take_of_lt hk, List.getElem?_drop, Nat.add_assoc]

section
variable {t j : Nat} {bs : List Byte} (ht : t ≤ 3) (hbs : bs.length = 64 * weightBeats 1 t) (hj : j < 32)
include ht hbs hj

theorem indexRow_length : (indexRow t j bs).length = rowLen t / 8 := by
  obtain ⟨hsize, hvalues, -⟩ := payload_sizes t ht
  have hrow : (j + 1) * (rowLen t / 8) ≤ 32 * (rowLen t / 8) := Nat.mul_le_mul_right _ hj
  rw [Nat.add_one_mul] at hrow
  rw [indexRow, indexBytes, List.length_take, List.length_drop, List.length_drop]
  omega

theorem valueRow_length : (valueRow t j bs).length = rowSize t / 2 := by
  obtain ⟨hsize, -, -⟩ := payload_sizes t ht
  have hrow : (j + 1) * (rowSize t / 2) ≤ 32 * (rowSize t / 2) := Nat.mul_le_mul_right _ hj
  rw [Nat.add_one_mul] at hrow
  rw [valueRow, List.length_take, List.length_drop]
  omega

/-- A column has a nibble for each group of four weights, and two values for each nibble. -/
theorem column_sizes : (nibbles (indexRow t j bs)).length = rowLen t / 4
    ∧ (elems t (valueRow t j bs)).length = 2 * (nibbles (indexRow t j bs)).length := by
  obtain ⟨-, -, hlen⟩ := payload_sizes t ht
  rw [elems_length ht (valueRow_length ht hbs hj), nibbles_length, indexRow_length ht hbs hj]
  omega

end

end Sys2Proof.Machine
end

section
/-! PROOF. O19, the weights of a payload (R258). -/

namespace Sys2Proof.Machine

theorem payloadsDecode : PayloadsDecode := by
  intro t bs ht
  refine ⟨rfl, fun hbs j hj => ⟨_, weightCols_get t bs hj, ?length, fun g hg i hi => ?weight⟩⟩
  case length =>
    obtain ⟨hnibbles, hvalues⟩ := column_sizes ht hbs hj
    obtain ⟨-, -, hlen⟩ := payload_sizes t ht
    rw [spread_length _ _ hvalues, hnibbles]
    omega
  case weight =>
    obtain ⟨hnibbles, hvalues⟩ := column_sizes ht hbs hj
    obtain ⟨-, -, hlen⟩ := payload_sizes t ht
    have hbyte : g / 2 < rowLen t / 8 := by omega
    rw [spread_get _ _ _ _ hvalues (hnibbles ▸ hg) hi, nibbles_get, indexRow_get hbyte]
    rfl

end Sys2Proof.Machine
end

section
/-! SUPPORT. The bytes of a partition's matrix state: reads and writes of tiles and accumulators (R242, R245). -/

namespace Sys2Proof.Machine

/-! ## Memory -/

/-- A byte after a write of bytes. -/
theorem Memory.get_write (bs : List Byte) (m : Memory) (a x : Nat) (h : m.wf = true) :
    (m.write a bs).get x = if a ≤ x ∧ x < a + bs.length then bs.getD (x - a) 0 else m.get x := by
  split
  case isTrue hin =>
    obtain ⟨hlo, hhi⟩ := hin
    have hx : x - a < bs.length := by omega
    have hget := Memory.get_write_inside bs m a (x - a) h hx
    rw [Nat.add_sub_cancel' hlo] at hget
    rw [hget, List.getD_eq_getElem _ _ hx]
  case isFalse hout => exact Memory.get_write_outside bs m a x (by omega)

/-- The marks of blocks are those of physical memory. -/
theorem State.mergeMarks_onchip (s : State) {loc : Nat} (h : physTop ≤ loc) (n : Nat) : s.mergeMarks loc n = s := by
  rw [State.mergeMarks, State.markedBlocks, if_neg (Nat.not_lt.mpr h)]
  rfl

/-- A write to matrix state, without bad words, writes the byte memory. -/
theorem State.store_matrix {s : State} (hbad : s.bad = []) {part pt off : Nat} {bs : List Byte} (hpt : pt < 16)
    (hoff : off + bs.length ≤ 0x100000) :
    (s.store (matrixLoc part pt off) bs).mem = s.mem.write (matrixLoc part pt off) bs
      ∧ (s.store (matrixLoc part pt off) bs).warps = s.warps := by
  have hfar : physTop ≤ matrixLoc part pt off := by
    rw [matrixLoc, onchip, Nat.add_assoc]
    exact Nat.le_add_right ..
  have hreg (i : Nat) (hi : i < bs.length) : locReg (matrixLoc part pt off + i) = none := by
    have hlt : pt * 0x100000 + off + i < 2 ^ 44 := by omega
    rw [matrixLoc, onchip, Nat.add_assoc]
    exact locReg_onchip (kind := 2) (id := part) (by decide) (by decide) hlt
  have hstore : s.store (matrixLoc part pt off) bs
      = ({ s with mem := s.mem.write (matrixLoc part pt off) bs } : State).clearMarks (matrixLoc part pt off) bs.length := by
    rw [State.store, State.badIn_nil hbad, Bool.and_false, if_neg Bool.false_ne_true, State.putBytes_mem bs s _ hreg,
      State.mergeMarks_onchip _ hfar]
  rw [hstore]
  exact ⟨rfl, rfl⟩

/-! ## Accumulators -/

/-- An accumulator of at most 1,024 elements and two lines of checksums. -/
structure Accum.Fits (a : Accum) : Prop where
  el : a.el.length ≤ 1024
  row : a.row.length ≤ 32
  col : a.col.length ≤ 32

theorem flatMap_leBytes_length (n : Nat) (xs : List Nat) : (xs.flatMap (leBytes n)).length = xs.length * n := by
  induction xs with
  | nil => exact (Nat.zero_mul n).symm
  | cons x r ih => rw [List.flatMap_cons, List.length_append, leBytes_length, ih, List.length_cons, Nat.add_one_mul, Nat.add_comm]

theorem Accum.bytes_length (a : Accum) : a.bytes.length = a.el.length * 4 + a.row.length * 8 + a.col.length * 8 := by
  simp only [Accum.bytes, List.length_append, flatMap_leBytes_length]

theorem Accum.Fits.bytes_length {a : Accum} (h : a.Fits) : a.bytes.length ≤ accumSize := by
  obtain ⟨hel, hrow, hcol⟩ := h
  rw [Accum.bytes_length, accumSize]
  omega

theorem Accum.fits_ofBytes (bs : List Byte) : (Accum.ofBytes bs).Fits := by
  constructor <;> simp only [Accum.ofBytes, List.length_map, pieces_length, le_refl]

theorem Accum.fits_zero : Accum.zero.Fits := by
  constructor <;> simp only [Accum.zero, List.length_replicate, le_refl]

theorem flatMap_leBytes_zero (n k : Nat) : (List.replicate k 0).flatMap (leBytes n) = List.replicate (k * n) 0 := by
  have hzero : ∀ n, leBytes n 0 = List.replicate n 0 := by
    intro n
    induction n with
    | zero => rfl
    | succ n ih => rw [leBytes, Nat.zero_div, ih, List.replicate_succ]; rfl
  rw [List.flatMap_replicate, hzero, List.flatten_replicate_replicate]

theorem Accum.zero_bytes : Accum.zero.bytes = List.replicate accumSize 0 := by
  simp only [Accum.bytes, Accum.zero, flatMap_leBytes_zero, List.replicate_append_replicate]
  rfl

/-- Each line of an accumulator stays one sum for each element or checksum at most. -/
theorem macBlock_fits (e : Int) (as bs : List (List El)) {c : Accum} (h : c.Fits) : (macBlock e as bs c).1.Fits := by
  obtain ⟨hel, hrow, hcol⟩ := h
  constructor <;> simp only [macBlock, List.length_map, List.length_zip] <;> exact (Nat.min_le_left ..).trans ‹_›

theorem macBlocks_fits (e : Int) (as bs : List (List El)) (ks : List Nat) :
    ∀ {c : Accum}, c.Fits → (macBlocks e as bs ks c).1.Fits := by
  induction ks with
  | nil => exact fun h => h
  | cons k r ih => exact fun h => ih (macBlock_fits e _ _ h)

theorem matMul_fits (w : Word) (as bs : List (List El)) {c : Accum} (h : c.Fits) : (matMul w as bs c).1.Fits := by
  refine macBlocks_fits _ _ _ _ ?_
  split
  case isTrue => exact Accum.fits_zero
  case isFalse => exact h

/-- An accumulator is written as its bytes. -/
theorem State.setAccum_matrix {s : State} (hbad : s.bad = []) (part : Nat) {pt n : Nat} {a : Accum} (hpt : pt < 16) (hn : n < 4)
    (ha : a.Fits) : (s.setAccum (accumLoc part pt n) a).mem = s.mem.write (accumLoc part pt n) a.bytes
      ∧ (s.setAccum (accumLoc part pt n) a).warps = s.warps := by
  have hlen : a.bytes.length ≤ 4608 := ha.bytes_length
  exact State.store_matrix hbad hpt (by omega)

end Sys2Proof.Machine
end

section
/-! PROOF. O19, `mma` and its checks (R73, R246-R250, R380, R388). -/

namespace Sys2Proof.Machine

/-! ## Traps of a warp's own stream -/

/-- A warp whose instruction passes the checks has not been stopped. -/
theorem Issued.notStopped {i : Instr} {s : State} {c : Ctx} (g : Issued i s c) : c.w.stopped = false := by
  have hpasses := g.ok
  simp only [passes, State.blocked, Bool.and_eq_true, Bool.not_eq_true', Bool.or_eq_false_iff] at hpasses
  obtain ⟨⟨⟨⟨⟨⟨⟨⟨-, hstopped⟩, -⟩, -⟩, -⟩, -⟩, -⟩, -⟩, -⟩ := hpasses
  exact hstopped

/-- A trap that the warp handles takes it into its handler, and changes nothing else. -/
theorem Ctx.raise_handled {e : Ctx} (hw : tget e.s.warps e.wid = some e.w) (hslice : e.slice = false) (hh : e.w.handles = true)
    (hst : e.w.stopped = false) (code : BitVec 8) (value : DWord) :
    tget (e.raise code value).warps e.wid = some (entered e.w { code := code, value := value } e.w.pc false)
      ∧ OnlyWarp e.wid e.s (e.raise code value) := by
  rw [Ctx.raise, Ctx.raiseFull_deliver hslice, ← enterHandler_eq_entered]
  exact State.deliver_handled hw hh hst _ _ _ _

/-! ## The checks of `mma` -/

theorem maskOf_eq_zero {f : Lane → Bool} (h : ∀ l, f l = false) : maskOf f = 0 :=
  BitVec.eq_of_getLsbD_eq fun k hk => (maskOf_get f ⟨k, hk⟩).trans ((h _).trans BitVec.getLsbD_zero.symm)

/-- The checks of `mma` behind those of bad words, and its effect (R246, R380). -/
def Ctx.mmaChecked (c : Ctx) (fw : VOp) (n ta tb : Nat) : State :=
  if c.act = 0 then c.finish id
  else if c.w.laneok &&& ~~~c.act != 0 then c.raise 0x08 ((c.w.laneok &&& ~~~c.act).setWidth 64)
  else match c.formatWord fw with
    | .error w => c.raise 0x09 (w.setWidth 64)
    | .ok w => c.multiply w n ta tb

/-- Every active lane reads a correctable format word. -/
theorem Ctx.formatSound_ok {c : Ctx} {fw : VOp} (h : ∀ l ∈ lanesOf c.act, c.s.badLane c.wid (spanRegs [(fw, 1)]) l.val = false)
    (body : State) : c.formatSound fw body = body := by
  refine if_pos (maskOf_eq_zero fun l => ?_)
  cases hl : c.act.getLsbD l.val with
  | false => rfl
  | true => exact h l (List.mem_filter.mpr ⟨List.mem_finRange l, hl⟩)

theorem State.badLane_nil {s : State} (h : s.bad = []) (wid : Nat) (regs : List Nat) (l : Nat) : s.badLane wid regs l = false := by
  simp [State.badLane, h]

theorem State.badRange_nil {s : State} (h : s.bad = []) (rs : List (Nat × Nat)) : s.badRange rs = none := by
  induction rs with
  | nil => rfl
  | cons r rs ih => rw [State.badRange, State.badIn_nil h, if_neg Bool.false_ne_true, ih]

theorem Ctx.sound_nil {c : Ctx} (h : c.s.bad = []) (rs : List (Nat × Nat)) (body : State) : c.sound rs body = body := by
  rw [Ctx.sound, State.badRange_nil h]

theorem Ctx.sound_bad {c : Ctx} {r : Nat × Nat} (h : c.s.badIn r.1 r.2 = true) (rs : List (Nat × Nat)) (body : State) :
    c.sound (r :: rs) body = (c.with (c.s.meet r.1 r.2)).raise 0x0B 0 := by
  rw [Ctx.sound, State.badRange, if_pos h]

/-- A format word that is accepted is the one in the lowest live lane (R72). -/
theorem Ctx.formatWord_ok {c : Ctx} {fw : VOp} {w : Word} (h : c.formatWord fw = .ok w) : c.fwHere fw = w ∧ c.w.laneok ≠ 0 := by
  unfold Ctx.formatWord at h
  unfold Ctx.fwHere
  split at h
  case h_1 => cases h
  case h_2 l r hlanes =>
    refine ⟨?_, fun hzero => ?_⟩
    · simp only at h
      split at h
      case h_1 => cases h
      case h_2 =>
        split at h
        case isTrue => exact Except.ok.inj h
        case isFalse => cases h
    · rw [hzero] at hlanes
      exact absurd hlanes (by simp [lanesOf])

/-- With every live lane active and a format word that is accepted, there is an active lane. -/
theorem active_of_formatWord {c : Ctx} {fw : VOp} {w : Word} (hlanes : c.w.laneok &&& ~~~c.act = 0) (hw : c.formatWord fw = .ok w) :
    c.act ≠ 0 := by
  intro hact
  have hall : c.w.laneok &&& ~~~(0 : Mask) = c.w.laneok := BitVec.and_allOnes
  exact (Ctx.formatWord_ok hw).2 (hall ▸ hact ▸ hlanes)

section
variable {q : Fin 8} {fw : VOp} {cn : Fin 4} {ta tb : Fin 8} {k : Word} {s : State} {c : Ctx}
  (hr : ready (.mma q fw cn ta tb k) s = some c) (hfree : engineFree c) (hta : c.tileLoading ta.val = false)
  (htb : c.tileLoading tb.val = false)
include hr hfree hta htb

/-- Where the engine and its tiles are free, `mma` makes its checks. -/
theorem exec_mma : exec (.mma q fw cn ta tb k) s = .next (c.formatSound fw
    (c.sound (mmaRanges (c.fwHere fw) (c.tileAt ta.val) (c.tileAt tb.val) (c.accumAt cn.val)) (c.mmaChecked fw cn.val ta.val tb.val))) := by
  obtain ⟨hengine, hchain⟩ := hfree
  have hgo : ¬ (c.engineBusy || c.tileLoading ta.val || c.tileLoading tb.val) = true := by
    simp [Ctx.engineBusy, hengine, hchain, hta, htb]
  exact (issue_ready hr _).trans (congrArg _ (if_neg hgo))

theorem exec_mma_sound (hbad : c.s.bad = []) : exec (.mma q fw cn ta tb k) s = .next (c.mmaChecked fw cn.val ta.val tb.val) := by
  rw [exec_mma hr hfree hta htb, Ctx.formatSound_ok fun l _ => State.badLane_nil hbad .., Ctx.sound_nil hbad]

/-- R246, R380: a live lane that takes no part. -/
theorem mma_missing_lanes (hh : c.w.handles = true) (hbad : c.s.bad = []) (hact : c.act ≠ 0) (hlanes : c.w.laneok &&& ~~~c.act ≠ 0) :
    LeadsFrom (.mma q fw cn ta tb k) s c
      (entered c.w { code := 0x08, value := (c.w.laneok &&& ~~~c.act).setWidth 64 } c.w.pc false) := by
  have hi := issued_of_ready hr
  have hexec : c.mmaChecked fw cn.val ta.val tb.val = c.raise 0x08 ((c.w.laneok &&& ~~~c.act).setWidth 64) :=
    (if_neg hact).trans (if_pos (bne_iff_ne.mpr hlanes))
  exact ⟨_, (exec_mma_sound hr hfree hta htb hbad).trans (congrArg _ hexec),
    Ctx.raise_handled (hi.st ▸ hi.warp) (hi.noSlice rfl) hh hi.notStopped _ _⟩

/-- R247: a format word that is not accepted. -/
theorem mma_bad_format {w : Word} (hh : c.w.handles = true) (hbad : c.s.bad = []) (hact : c.act ≠ 0)
    (hlanes : c.w.laneok &&& ~~~c.act = 0) (hw : c.formatWord fw = .error w) :
    LeadsFrom (.mma q fw cn ta tb k) s c (entered c.w { code := 0x09, value := w.setWidth 64 } c.w.pc false) := by
  have hi := issued_of_ready hr
  have hexec : c.mmaChecked fw cn.val ta.val tb.val = c.raise 0x09 (w.setWidth 64) := by
    rw [Ctx.mmaChecked, if_neg hact, hlanes, hw]
    rfl
  exact ⟨_, (exec_mma_sound hr hfree hta htb hbad).trans (congrArg _ hexec),
    Ctx.raise_handled (hi.st ▸ hi.warp) (hi.noSlice rfl) hh hi.notStopped _ _⟩

/-- R388: a left tile with bad check bits in the bytes that its format takes up. -/
theorem mma_bad_tile {w : Word} (hh : c.w.handles = true) (hw : c.formatWord fw = .ok w)
    (hgood : ∀ l ∈ lanesOf c.act, c.s.badLane c.wid (spanRegs [(fw, 1)]) l.val = false)
    (hbad : c.s.badIn (c.tileAt ta.val) (rowsSize (fwFa w)) = true) :
    ∃ t v, exec (.mma q fw cn ta tb k) s = .next t ∧ tget t.warps c.wid = some v ∧ v.pc = c.w.tvec
      ∧ v.cause = BitVec.ofNat 32 (0x0B + 2 ^ 8 * 32) ∧ v.epc = c.w.pc &&& 0x007FFFFFFFFFFFFC := by
  have hi := issued_of_ready hr
  have hmeet := c.s.meet_aside (c.tileAt ta.val) (rowsSize (fwFa w))
  have hwarp : tget (c.s.meet (c.tileAt ta.val) (rowsSize (fwFa w))).warps c.wid = some c.w := aside_warps hmeet ▸ hi.st ▸ hi.warp
  have hsame := Ctx.with_same hwarp (aside_parts hmeet ▸ hi.st ▸ hi.part)
  have hexec := exec_mma hr hfree hta htb
  rw [Ctx.formatSound_ok hgood, (Ctx.formatWord_ok hw).1, mmaRanges, List.cons_append, Ctx.sound_bad hbad, hsame] at hexec
  obtain ⟨htrap, -⟩ := Ctx.raise_handled (e := { c with s := c.s.meet (c.tileAt ta.val) (rowsSize (fwFa w)) }) hwarp
    (hi.noSlice rfl) hh hi.notStopped 0x0B 0
  exact ⟨_, _, hexec, htrap, rfl, rfl, rfl⟩

end

theorem mmaChecks : MmaChecks := by
  intro q fw cn ta tb k s c hr hfree hta htb hh
  exact ⟨mma_missing_lanes hr hfree hta htb hh, fun w => mma_bad_format hr hfree hta htb hh,
    fun w hw => mma_bad_tile hr hfree hta htb hh hw⟩

/-! ## The product -/

/-- An instruction that finishes with flags, and counts one event more, leaves memory, and no bad word where there was none. -/
theorem Ctx.finish_counted {i : Instr} {s : State} {c : Ctx} (hr : ready i s = some c) (hslice : sliceMay i = false) (hbad : s.bad = [])
    (f : Flags) (n : Nat) : let u := (c.finish fun x => accrue x f).coreEvent c.core n
    tget u.warps c.wid = some (setPc false c.nextPc (accrue (popQueues (namedQueues (opnds i).vs) c.w) f))
      ∧ u.mem = s.mem ∧ u.bad = [] := by
  intro u
  have hi := issued_of_ready hr
  have honly : OnlyWarp c.wid s u := (hi.st ▸ c.finish_only _ : OnlyWarp c.wid s _).trans (State.coreEvent_only ..)
  have hmem := congrArg State.mem honly.rest
  refine ⟨?_, hmem, List.eq_nil_iff_forall_not_mem.mpr fun a ha => ?_⟩
  · rw [State.coreEvent_warps, c.finish_warp hi, hi.noSlice hslice]
  · exact List.not_mem_nil (hbad ▸ honly.marks.1 a ha)

/-- The accumulator that an instruction names is written as its bytes. -/
theorem Ctx.setAccum_at (c : Ctx) {u : State} (hbad : u.bad = []) (n : Fin 4) {a : Accum} (ha : a.Fits) :
    (u.setAccum (c.accumAt n.val) a).mem = u.mem.write (c.accumAt n.val) a.bytes
      ∧ (u.setAccum (c.accumAt n.val) a).warps = u.warps :=
  State.setAccum_matrix hbad c.w.part (Nat.mod_lt _ (by decide)) n.isLt ha

theorem State.occupy_warps (s : State) (key : Nat) (tiles : List Nat) : (s.occupy key tiles).warps = s.warps := rfl

theorem State.occupy_mem (s : State) (key : Nat) (tiles : List Nat) : (s.occupy key tiles).mem = s.mem := rfl

theorem State.occupy_engine (s : State) (key : Nat) (tiles : List Nat) : tget (s.occupy key tiles).engine key = some tiles :=
  tget_tset_self ..

theorem mmaMultiplies : MmaMultiplies := by
  intro q fw cn ta tb k s c w hr hfree hta htb hbad hlanes hw r
  have hst : c.s = s := (issued_of_ready hr).st
  have hfits : r.1.Fits := matMul_fits w _ _ (Accum.fits_ofBytes _)
  have hexec : c.mmaChecked fw cn.val ta.val tb.val
      = (((c.finish fun x => accrue x r.2).coreEvent c.core 2).setAccum (c.accumAt cn.val) r.1).occupy c.engineAt [ta.val, tb.val] := by
    rw [Ctx.mmaChecked, if_neg (active_of_formatWord hlanes hw), hlanes, hw]
    simp only [bne_self_eq_false, Bool.false_eq_true, if_false, Ctx.multiply, hst]
    rfl
  generalize r.1 = a, r.2 = f at hexec hfits ⊢
  obtain ⟨hwarp, hmem, hclean⟩ := Ctx.finish_counted hr rfl (hst ▸ hbad) f 2
  obtain ⟨hwritten, hwarps⟩ := c.setAccum_at hclean cn hfits
  rw [← hwarps, ← State.occupy_warps _ c.engineAt [ta.val, tb.val]] at hwarp
  refine ⟨_, _, (exec_mma_sound hr hfree hta htb hbad).trans (congrArg _ hexec), hwarp, ?popped, ?keeps, State.occupy_engine .., ?mem⟩
  case popped => exact popped_setPc (f := fun x => accrue x f) fun _ => rfl
  case keeps =>
    have hpop := popQueues_eq (namedQueues (opnds (.mma q fw cn ta tb k)).vs) c.w
    simp only [setPc, Bool.false_eq_true, if_false, accrue]
    rw [hpop]
  case mem => rw [State.occupy_mem, hwritten, hmem]

end Sys2Proof.Machine
end

section
/-! PROOF. O19, the blocks of weight chains (R256-R260). -/

namespace Sys2Proof.Machine

/-! ## Fetched bytes -/

theorem State.bytesAt_length (s : State) (n : Nat) : ∀ loc, (s.bytesAt loc n).length = n := by
  induction n with
  | zero => exact fun _ => rfl
  | succ n ih => exact fun loc => congrArg (· + 1) (ih (loc + 1))

theorem State.readPlace_length (s : State) (p : Place) (n : Nat) : (s.readPlace p n).1.length = n := by
  unfold State.readPlace
  split
  case isTrue =>
    simp only
    split
    case isTrue => exact State.bytesAt_length ..
    case isFalse => rw [List.length_map, List.length_range]
  case isFalse => exact State.bytesAt_length ..

/-- A read of memory that is answered gives as many bytes as it asks for. -/
theorem State.readMem_length {s s1 : State} {p : Place} {n : Nat} {bs : List Byte} (h : s.readMem p n = (.bytes bs, s1)) :
    bs.length = n := by
  unfold State.readMem State.readAt at h
  split at h
  case h_1 => cases h
  case h_2 =>
    split at h
    case isTrue => cases h
    case isFalse =>
      obtain ⟨⟩ := h
      exact State.readPlace_length ..

/-- Beats are 64 bytes each (R260). -/
theorem State.fetchBeats_length {w : Warp} (n : Nat) : ∀ {s s1 : State} {a : DWord} {bs : List Byte},
    s.fetchBeats w a n = (s1, .ok bs) → bs.length = 64 * n := by
  induction n with
  | zero =>
    intro s s1 a bs h
    obtain ⟨⟩ := h
    rfl
  | succ n ih =>
    intro s s1 a bs h
    unfold State.fetchBeats at h
    simp only at h
    split at h
    case h_1 => cases h
    case h_2 =>
      split at h
      case h_1 hbeat =>
        split at h
        case h_1 hrest =>
          obtain ⟨⟩ := h
          rw [List.length_append, State.readMem_length hbeat, ih hrest]
          omega
        case h_2 hno => exact absurd h (hno _ _)
      case h_2 => cases h
      case h_3 => cases h

/-! ## Headers -/

/-- The operation of a header that breaks no rule is one of three. -/
theorem headerOf_op {bs : List Byte} (h : (headerOf bs).wrong = false) :
    (headerOf bs).op = 1 ∨ (headerOf bs).op = 2 ∨ (headerOf bs).op = 3 := by
  simp only [headerOf, Bool.or_eq_false_iff, beq_eq_false_iff_ne, decide_eq_false_iff_not] at h ⊢
  omega

theorem headerOf_cn (bs : List Byte) : (headerOf bs).cn < 4 := Nat.mod_lt _ (by decide)

theorem headerOf_ta (bs : List Byte) : (headerOf bs).ta < 8 := Nat.mod_lt _ (by decide)

/-! ## Rounds -/

/-- A round whose block is fetched and breaks no rule applies it, and leads to its successor. -/
theorem State.chainRound_applies {s s1 s2 s3 : State} {w : Warp} {b : DWord} {hb pay : List Byte} {nx : Option DWord}
    (hhead : s.fetchBeats w b 1 = (s1, .ok hb)) (hright : (headerOf hb).wrong = false)
    (hfmt : (headerOf hb).op = 1 → fwOk (headerOf hb).fmt = true) (hbeats : (headerOf hb).beats = (headerOf hb).size)
    (hnext : (headerOf hb).next b = .ok nx) (hpay : s1.fetchBeats w (b + 64) (headerOf hb).beats = (s2, .ok pay))
    (hnibbles : (headerOf hb).op = 1 → (headerOf hb).comp = 1 → nibblesOk (fwFb (headerOf hb).fmt) pay = true)
    (happly : s2.applyBlock w (headerOf hb) pay = (s3, none)) : s.chainRound w b = (s3, .ok nx) := by
  have hformat : ((headerOf hb).op == 1 && !fwOk (headerOf hb).fmt) = false := by
    rw [Bool.and_eq_false_imp]
    exact fun h => by rw [hfmt (beq_iff_eq.mp h), Bool.not_true]
  have hsize : ((headerOf hb).beats != (headerOf hb).size) = false := bne_eq_false_iff_eq.mpr hbeats
  have hindices : ((headerOf hb).op == 1 && (headerOf hb).comp == 1 && !nibblesOk (fwFb (headerOf hb).fmt) pay) = false := by
    rw [Bool.and_eq_false_imp, Bool.and_eq_true]
    exact fun h => by rw [hnibbles (beq_iff_eq.mp h.1) (beq_iff_eq.mp h.2), Bool.not_true]
  simp only [State.chainRound, hhead, hright, hformat, hsize, hnext, hpay, hindices, happly, Bool.false_eq_true, if_false]

section
variable {s : State} (w : Warp) {h : WeightHeader} (pay : List Byte) (hbad : s.bad = [])
include hbad

/-- MAC multiplies into the accumulator (R257). -/
theorem State.applyBlock_mac (hop : h.op = 1) (hcn : h.cn < 4) :
    let acc := accumLoc w.part (w.wslot.toNat % 16) h.cn
    let r := matMul h.fmt (tileRows (fwFa h.fmt) (s.bytesAt (matrixLoc w.part (w.wslot.toNat % 16) (4096 * h.ta)) 4096))
      (weightCols h.comp (fwFb h.fmt) pay) (s.accum acc)
    ∃ t, s.applyBlock w h pay = (t, none) ∧ t.warps = s.warps ∧ t.mem = s.mem.write acc r.1.bytes := by
  intro acc r
  have hgood (rs : List (Nat × Nat)) : s.badRange rs = none := State.badRange_nil hbad rs
  obtain ⟨hmem, hwarps⟩ := State.setAccum_matrix hbad w.part (pt := w.wslot.toNat % 16) (Nat.mod_lt _ (by decide)) hcn
    (matMul_fits h.fmt _ _ (Accum.fits_ofBytes _) : r.1.Fits)
  have happly : s.applyBlock w h pay = (s.setAccum acc r.1, none) := by
    simp only [State.applyBlock, hop, hgood, Nat.reduceEqDiff, if_false]
    rfl
  exact ⟨_, happly, hwarps, hmem⟩

/-- ZERO clears the accumulator with its checksums (R257). -/
theorem State.applyBlock_zero (hop : h.op = 2) (hcn : h.cn < 4) : let acc := accumLoc w.part (w.wslot.toNat % 16) h.cn
    ∃ t, s.applyBlock w h pay = (t, none) ∧ t.warps = s.warps ∧ t.mem = s.mem.write acc (List.replicate accumSize 0) := by
  intro acc
  obtain ⟨hmem, hwarps⟩ := State.setAccum_matrix hbad w.part (pt := w.wslot.toNat % 16) (Nat.mod_lt _ (by decide)) hcn Accum.fits_zero
  rw [Accum.zero_bytes] at hmem
  exact ⟨_, if_pos hop, hwarps, hmem⟩

/-- TILE fills the tile with the payload (R257). -/
theorem State.applyBlock_tile (hop : h.op = 3) (hta : h.ta < 8) (hpay : pay.length = 4096) :
    ∃ t, s.applyBlock w h pay = (t, none) ∧ t.warps = s.warps
      ∧ t.mem = s.mem.write (matrixLoc w.part (w.wslot.toNat % 16) (4096 * h.ta)) pay := by
  obtain ⟨hmem, hwarps⟩ := State.store_matrix hbad (part := w.part) (pt := w.wslot.toNat % 16) (off := 4096 * h.ta) (bs := pay)
    (Nat.mod_lt _ (by decide)) (by omega)
  have hother : ¬ h.op = 2 := by omega
  exact ⟨_, (if_neg hother).trans (if_pos hop), hwarps, hmem⟩

end

/-- A byte of a range of zeros. -/
theorem getD_replicate_zero (n k : Nat) : (List.replicate n (0 : Byte)).getD k 0 = 0 := by
  rw [List.getD_eq_getElem?_getD, List.getElem?_replicate]
  split <;> rfl

theorem weightBlocksAct : WeightBlocksAct := by
  intro s s1 s2 w b hb pay nx hhead h hright hfmt hbeats hnext hpay hnibbles hbad hwf tile acc r
  have hround {s3 : State} (happly : s2.applyBlock w h pay = (s3, none)) : s.chainRound w b = (s3, .ok nx) :=
    State.chainRound_applies hhead hright hfmt hbeats hnext hpay hnibbles happly
  obtain hop | hop | hop : h.op = 1 ∨ h.op = 2 ∨ h.op = 3 := headerOf_op hright
  · obtain ⟨t, happly, hwarps, hmem⟩ := State.applyBlock_mac w pay hbad hop (headerOf_cn hb)
    exact ⟨t, hround happly, hwarps, fun _ => hmem, fun h2 => by omega, fun h3 => by omega⟩
  · obtain ⟨t, happly, hwarps, hmem⟩ := State.applyBlock_zero w pay hbad hop (headerOf_cn hb)
    refine ⟨t, hround happly, hwarps, fun h1 => by omega, fun _ a => ?_, fun h3 => by omega⟩
    rw [hmem, Memory.get_write _ _ _ _ hwf, List.length_replicate, getD_replicate_zero]
  · have hbeats64 : h.beats = 64 := by simp [hbeats, WeightHeader.size, hop]
    have hlen : pay.length = 4096 := by rw [State.fetchBeats_length _ hpay, hbeats64]
    obtain ⟨t, happly, hwarps, hmem⟩ := State.applyBlock_tile w pay hbad hop (headerOf_ta hb) hlen
    refine ⟨t, hround happly, hwarps, fun h1 => by omega, fun h2 => by omega, fun _ a => ?_⟩
    rw [hmem, Memory.get_write _ _ _ _ hwf, hlen]

/-- Settles O19: `mma` and its checks, the blocks of weight chains, and their payloads. -/
theorem matrixMultiply : Obligations.MatrixMultiply := ⟨mmaMultiplies, mmaChecks, weightBlocksAct, payloadsDecode⟩

end Sys2Proof.Machine
end

section
/-! PROOF. O40. The ends of nodes, by their work and by a kill (R104, R120, R320, R325, R373, R416-R418). -/

namespace Sys2Proof.Machine

/-- R320, R325: a started node whose work has ended, with no kill under way, takes the final status that its work earned. -/
theorem nodeComplete_over {s : State} {nid : Nat} {n : Node} (hn : tget s.nodes nid = some n) (hst : n.status = none)
    (hd : s.doomed n = false) (hstart : n.started = true) (hkill : n.killing = false) (hover : s.workOver nid n = true)
    (hword : s.wordMoves n = false) : nodeComplete nid s
      = ({ s with collectives := s.collectives.filter fun c => c.2.node != nid }).setStatus nid (s.finalStatus nid n) := by
  simp only [nodeComplete, hn, hd, hst, hstart, hkill, hover, hword, Bool.true_or, Option.isNone_none, Bool.not_false, Bool.and_self,
    Bool.false_eq_true, if_false, if_true]

/-- R417, R418: a killed node all of whose work has stopped, once its stopped blocks have been swept, is abandoned. -/
theorem workStopComplete_stopped {s s1 : State} {nid : Nat} {n : Node} (hn : tget s.nodes nid = some n)
    (hs1 : (s.sweep nid).sweepGroup nid = s1) (hst : n.status = none) (hkill : n.killing = true) (hkind : n.kind ≠ .group)
    (hstop : s1.stopped nid n = true) (hword : s1.wordMoves n = false) : workStopComplete nid s
      = ({ s1 with collectives := s1.collectives.filter fun c => c.2.node != nid }).setStatus nid .abandoned := by
  have hown : (n.kind != .group) = true := bne_iff_ne.mpr hkind
  simp only [workStopComplete, hn, hs1, hkill, hown, hst, hstop, hword, Option.isNone_none, Bool.not_false, Bool.and_self, if_true]

/-- Settles O40: both events lead to a state in which the node has its final status. -/
theorem nodesEnd : Obligations.NodesEnd := by
  unfold Obligations.NodesEnd
  intro nid s n hn hst
  refine ⟨fun hd hstart hkill hover hword => ⟨_, congrArg Host.Outcome.next (nodeComplete_over hn hst hd hstart hkill hover hword), ?_⟩,
    fun hkill hkind hn1 hstop hword =>
      ⟨_, congrArg Host.Outcome.next (workStopComplete_stopped hn rfl hst hkill hkind hstop hword), ?_⟩⟩
  · exact State.setStatus_status (s.finalStatus nid n) hn hst
  · exact State.setStatus_status .abandoned hn1 hst

end Sys2Proof.Machine
end

section
/-! PROOF. O43: its statement ranges over every state, and a state may note fence data of a core number above 1,535, whose entry lies
behind the fence state table (R438). A DESTROY that ends such a core's hold writes outside the table. -/

namespace Sys2Proof.Machine

/-- Block 1 of slot 0 holds core 65,537, which no module has. -/
def strayHold : State :=
  { State.reset with
    booted := true
    ctxs := State.reset.ctxs.set 0 (some Context.placed)
    blocks := [(1, Block.placed)]
    cores := [(65537, { CoreFence.fresh with holder := some 1 })] }

/-- DESTROY of slot 0 in window 0. -/
def destroySlot0 : HostCmd := ⟨0, 0, 0, 0⟩

/-- The entry of core 65,537, behind the table, the module's memory and the journal's mirror. -/
def strayEntry : Nat := fenceTable + 16 * 65537

/-- A command that is taken as it comes is answered at once. -/
theorem command_of_takes {s : State} {c : HostCmd} (h : Takes s c) (op : Nat) (f : State → BitVec 8 × Nat × State) :
    s.command c op f = s.answer c op (f s) := by
  obtain ⟨hb, hf, hq, hi, hs⟩ := h
  simp [State.command, State.takeTurn, State.accept, hb, hf, hq, hi, hs]

/-- An answer writes nothing behind the journal's mirror. -/
theorem State.answer_get_above (s : State) (c : HostCmd) (op : Nat) (r : BitVec 8 × Nat × State) {a : Nat} (ha : 2 ^ 42 + 65536 ≤ a) :
    (s.answer c op r).mem.get a = r.2.2.mem.get a :=
  Memory.get_write_outside _ _ _ _ (.inr (by
    have := Nat.mod_lt Config.mirror (Nat.two_pow_pos 42)
    simp [JEntry.bytes, leBytes]
    omega))

theorem strayHold_takes : Takes strayHold destroySlot0 := ⟨rfl, rfl, rfl, by decide, rfl⟩

/-- Emptying slot 0 ends the hold, and so writes the entry. -/
theorem strayHold_entry : (strayHold.emptySlot 0 Context.placed.key).mem.get strayEntry = 1 := by decide +kernel

theorem strayHold_destroyed :
    exec (.destroy destroySlot0) strayHold =
      .next (strayHold.answer destroySlot0 2 (resOk, 0, strayHold.emptySlot 0 Context.placed.key)) :=
  congrArg Host.Outcome.next (command_of_takes strayHold_takes 2 _)

/-- Refutes O43: DESTROY of a slot one of whose blocks holds core 65,537 writes that core's entry, behind the fence state table, where
the statement of DESTROY says that memory stays. -/
theorem not_hostCommandsAnswer : ¬ Obligations.HostCommandsAnswer := by
  intro h
  obtain ⟨hc, -⟩ := h
  obtain ⟨hk, -⟩ := hc strayHold destroySlot0 strayHold_takes
  obtain ⟨-, -, -, -, hd, -⟩ := hk 0 rfl
  obtain ⟨u, hu, -, -, -, -, hm⟩ := hd Context.placed rfl nofun nofun
  obtain ⟨t, ht, -, -, -, -, hmem, -⟩ := hu
  have hfar : 2 ^ 42 + 65536 ≤ strayEntry := by decide
  have hstays : u.mem.get strayEntry = 0 := hm strayEntry (.inr (by decide))
  have hmoved : u.mem.get strayEntry = 1 := by
    rw [← hmem strayEntry (.inr (by have := Nat.mod_lt Config.mirror (Nat.two_pow_pos 42); omega))]
    obtain rfl := Host.Outcome.next.inj (strayHold_destroyed.symm.trans ht)
    rw [State.answer_get_above _ _ _ _ hfar, strayHold_entry]
  rw [hstays] at hmoved
  exact absurd hmoved (by decide)

end Sys2Proof.Machine
end

section
/-! SUPPORT. The words and the units of a copy's chunk (R115, R199). -/

namespace Sys2Proof.Machine

/-! ## Units -/

/-- A unit of one side is a word, or two words of which the second follows the first. -/
def UnitOf (f : CopyWord → Nat) (u : List CopyWord) : Prop := (∃ x, u = [x]) ∨ ∃ x y, u = [x, y] ∧ f y = f x + 4

/-- The unit's addresses are multiples of 4. -/
def AlignedBy (f : CopyWord → Nat) (u : List CopyWord) : Prop := ∀ x ∈ u, f x % 4 = 0

theorem joinWord_perm (f : CopyWord → Nat) (x : CopyWord) (us : List (List CopyWord)) :
    (joinWord f x us).flatten.Perm (x :: us.flatten) := by
  fun_induction joinWord f x us with
  | case1 => exact .refl _
  | case2 y r hxy =>
    split
    · exact .refl _
    · exact .swap ..
  | case3 y r hxy ih => exact (ih.cons y).trans (.swap ..)
  | case4 u r hu ih => simpa using (ih.append_left u).trans List.perm_middle

theorem joinWord_unitOf {f : CopyWord → Nat} {x : CopyWord} {us : List (List CopyWord)} (hx : f x % 4 = 0)
    (hus : ∀ u ∈ us, UnitOf f u ∧ AlignedBy f u) : ∀ u ∈ joinWord f x us, UnitOf f u ∧ AlignedBy f u := by
  fun_induction joinWord f x us with
  | case1 => simpa [UnitOf, AlignedBy] using hx
  | case2 y r hxy =>
    obtain ⟨hy, hr⟩ := List.forall_mem_cons.mp hus
    have hy4 : f y % 4 = 0 := hy.2 y (by simp)
    have hne : f x / 8 = f y / 8 ∧ f x ≠ f y := by simpa using hxy
    refine List.forall_mem_cons.mpr ⟨?_, hr⟩
    split
    · exact ⟨.inr ⟨x, y, rfl, by omega⟩, by simp [AlignedBy, hx, hy4]⟩
    · exact ⟨.inr ⟨y, x, rfl, by omega⟩, by simp [AlignedBy, hx, hy4]⟩
  | case3 y r hxy ih => exact List.forall_mem_cons.mpr ⟨(List.forall_mem_cons.mp hus).1, ih (List.forall_mem_cons.mp hus).2⟩
  | case4 u r hu ih => exact List.forall_mem_cons.mpr ⟨(List.forall_mem_cons.mp hus).1, ih (List.forall_mem_cons.mp hus).2⟩

theorem foldl_joinWord_perm (f : CopyWord → Nat) (xs : List CopyWord) : ∀ us : List (List CopyWord),
    (xs.foldl (fun us x => joinWord f x us) us).flatten.Perm (xs ++ us.flatten) := by
  induction xs with
  | nil => exact fun _ => .refl _
  | cons x xs ih =>
    exact fun us => (ih _).trans (((joinWord_perm f x us).append_left xs).trans List.perm_middle)

theorem foldl_joinWord_unitOf {f : CopyWord → Nat} {xs : List CopyWord} (hxs : AlignedBy f xs) :
    ∀ us : List (List CopyWord), (∀ u ∈ us, UnitOf f u ∧ AlignedBy f u) →
      ∀ u ∈ xs.foldl (fun us x => joinWord f x us) us, UnitOf f u ∧ AlignedBy f u := by
  induction xs with
  | nil => exact fun _ h => h
  | cons x xs ih =>
    obtain ⟨hx, hr⟩ := List.forall_mem_cons.mp hxs
    exact fun us h => ih hr _ (joinWord_unitOf hx h)

theorem unitsBy_map_snd (f : CopyWord → Nat) (k : Nat) (xs : List CopyWord) :
    (unitsBy f k xs).map (·.2) = xs.foldl (fun us x => joinWord f x us) [] :=
  List.ext_getElem (by simp [unitsBy]) (by simp [unitsBy])

/-- The units hold the words, each once. -/
theorem unitsBy_perm (f : CopyWord → Nat) (k : Nat) (xs : List CopyWord) : ((unitsBy f k xs).flatMap (·.2)).Perm xs := by
  have h := foldl_joinWord_perm f xs []
  rw [← unitsBy_map_snd f k xs] at h
  simpa [List.flatMap] using h

theorem unitsBy_unitOf {f : CopyWord → Nat} {k : Nat} {xs : List CopyWord} (hxs : AlignedBy f xs) {u : Nat × List CopyWord}
    (hu : u ∈ unitsBy f k xs) : UnitOf f u.2 :=
  (foldl_joinWord_unitOf hxs [] nofun u.2 (unitsBy_map_snd f k xs ▸ List.mem_map_of_mem hu)).1

end Sys2Proof.Machine
end

section
/-! SUPPORT. The bytes that the words of a chunk move within a scratchpad (R197, R199). -/

namespace Sys2Proof.Machine

/-! ## Bytes -/

theorem Memory.write_append (bs cs : List Byte) (m : Memory) (a : Nat) : m.write a (bs ++ cs) = (m.write a bs).write (a + bs.length) cs := by
  induction bs generalizing m a with
  | nil => rfl
  | cons b r ih => simp [Memory.write, ih, Nat.add_assoc, Nat.add_comm]

theorem Memory.read_add (m : Memory) (a j n : Nat) : m.read a (j + n) = m.read a j ++ m.read (a + j) n := by
  induction j generalizing a with
  | zero => simp [Memory.read]
  | succ j ih => rw [Nat.succ_add, Memory.read, Memory.read, ih, Nat.add_assoc, Nat.add_comm 1 j, List.cons_append]

/-- Part of the bytes that a read gives. -/
theorem Memory.take_drop_read (m : Memory) (a : Nat) {j i n : Nat} (h : j + i ≤ n) :
    ((m.read a n).drop j).take i = m.read (a + j) i := by
  obtain ⟨r, rfl⟩ := Nat.exists_eq_add_of_le h
  rw [Nat.add_assoc, Memory.read_add, Memory.read_add, List.drop_left' (Memory.read_length ..),
    List.take_left' (Memory.read_length ..)]

theorem Memory.getD_read (m : Memory) (a : Nat) {i n : Nat} (h : i < n) : (m.read a n).getD i 0 = m.get (a + i) := by
  have hx := Memory.take_drop_read m a (show i + 1 ≤ n by omega)
  rw [List.take_one, List.head?_drop] at hx
  simp only [Memory.read] at hx
  grind

/-! ## Scratchpads -/

theorem scratchLoc_eq (part off : Nat) : scratchLoc part off = scratchLoc part 0 + off := by
  unfold scratchLoc onchip
  omega

theorem scratchLoc_add (part off n : Nat) : scratchLoc part (off + n) = scratchLoc part off + n := by
  rw [scratchLoc_eq, ← Nat.add_assoc, ← scratchLoc_eq]

theorem scratchLoc_far (part off : Nat) : physTop ≤ scratchLoc part off := by
  rw [scratchLoc, onchip, Nat.add_assoc]
  exact Nat.le_add_right ..

theorem locReg_scratchLoc (part : Nat) {off i n : Nat} (h : off + n ≤ 0x100000) (hi : i < n) : locReg (scratchLoc part off + i) = none := by
  rw [scratchLoc, onchip, Nat.add_assoc]
  exact locReg_onchip (kind := 0) (id := part) (by decide) (by decide) (by omega)

/-- A write to a scratchpad without bad words writes the byte memory, and word errors that were reported there are no more. -/
theorem State.store_scratch {s : State} (hbad : s.bad = []) {part off : Nat} {bs : List Byte} (hoff : off + bs.length ≤ 0x100000) :
    ∃ rep, s.store (scratchLoc part off) bs = { s with mem := s.mem.write (scratchLoc part off) bs, reported := rep } := by
  refine ⟨(s.clearMarks (scratchLoc part off) bs.length).reported, ?_⟩
  rw [State.store, State.badIn_nil hbad, Bool.and_false, if_neg Bool.false_ne_true,
    State.putBytes_mem bs s _ fun i hi => locReg_scratchLoc part hoff hi, State.mergeMarks_onchip _ (scratchLoc_far ..)]
  simp only [State.clearMarks, hbad, List.filter_nil]

/-- Where the engine finds bytes of the part's own scratchpad. -/
theorem State.unitPlace_scratch (s : State) (w : Warp) {p : Part} (need : Need) {a n : Nat} (hn : 0 < n) (h : a + n ≤ p.scratch)
    (hp : p.scratch ≤ 0x100000) : s.unitPlace w p .s need a n = (s, .ok (onchipPlace (scratchLoc w.part a))) := by
  have ha : a < 0x100000 := by omega
  simp only [State.unitPlace, State.onchipOf, if_pos ha, if_pos h]

theorem State.readUnit_scratch {s : State} (hbad : s.bad = []) (c : Copy) (i : Nat) {part off n : Nat} (h : off + n ≤ 0x100000) :
    s.readUnit (c.asUnit i (onchipPlace (scratchLoc part off))) n = (.bytes (s.mem.read (scratchLoc part off) n), s) := by
  have hb := State.bytesAt_mem n s (scratchLoc part off) fun i hi => locReg_scratchLoc part h hi
  simp [State.readUnit, State.readOnchip, Copy.asUnit, onchipPlace, Place.isClu, State.badIn_nil hbad, hb]

theorem State.writeUnit_scratch {s : State} (hbad : s.bad = []) (c : Copy) (i part off : Nat) (bs : List Byte) :
    s.writeUnit (c.asUnit i (onchipPlace (scratchLoc part off))) bs = (.done, s.store (scratchLoc part off) bs) := by
  simp [State.writeUnit, State.writeOnchip, State.partialBad, Copy.asUnit, onchipPlace, Place.isClu, State.badIn_nil hbad]

/-! ## Words -/

/-- The bytes of the word's source. -/
def CopyWord.bytes (part : Nat) (m : Memory) (x : CopyWord) : List Byte := m.read (scratchLoc part x.src) 4

/-- Memory with the word moved: its bytes come from `m0`. -/
def CopyWord.put (part : Nat) (m0 m : Memory) (x : CopyWord) : Memory := m.write (scratchLoc part x.dst) (x.bytes part m0)

theorem CopyWord.bytes_length (part : Nat) (m : Memory) (x : CopyWord) : (x.bytes part m).length = 4 := Memory.read_length ..

/-- Writing a unit at once writes its words one after the other. -/
theorem UnitOf.write_eq {x : CopyWord} {r : List CopyWord} (h : UnitOf (·.dst) (x :: r)) (part : Nat) (m0 m : Memory) :
    m.write (scratchLoc part x.dst) ((x :: r).flatMap (CopyWord.bytes part m0)) = (x :: r).foldl (CopyWord.put part m0) m := by
  obtain ⟨y, hy⟩ | ⟨y, z, hy, hz⟩ := h
  · obtain ⟨rfl, rfl⟩ := List.cons.inj hy
    simp [CopyWord.put]
  · obtain ⟨rfl, rfl⟩ := List.cons.inj hy
    have hz : scratchLoc part z.dst = scratchLoc part x.dst + 4 := by
      rw [show z.dst = x.dst + 4 from hz, scratchLoc_add]
    simp [CopyWord.put, Memory.write_append, CopyWord.bytes_length, hz]

/-- The words of a unit lie in its bytes, from its first word on. -/
theorem UnitOf.span {f : CopyWord → Nat} {x : CopyWord} {r : List CopyWord} (h : UnitOf f (x :: r)) :
    (∀ y ∈ x :: r, f x ≤ f y ∧ f y + 4 ≤ f x + 4 * (x :: r).length) ∧ ∃ y ∈ x :: r, f y + 4 = f x + 4 * (x :: r).length := by
  obtain ⟨y, hy⟩ | ⟨y, z, hy, hz⟩ := h
  · obtain ⟨rfl, rfl⟩ := List.cons.inj hy
    simp
  · obtain ⟨rfl, rfl⟩ := List.cons.inj hy
    simp [hz]

theorem CopyWord.wf_put (part : Nat) {m0 m : Memory} (x : CopyWord) (h : m.wf = true) : (x.put part m0 m).wf = true :=
  Memory.wf_write _ _ _ h

/-- The moving of words leaves the bytes of which none of them is the destination. -/
theorem foldl_put_get_outside {part : Nat} {m0 : Memory} {a : Nat} {L : List CopyWord}
    (hL : ∀ x ∈ L, a < scratchLoc part x.dst ∨ scratchLoc part x.dst + 4 ≤ a) :
    ∀ m : Memory, (L.foldl (CopyWord.put part m0) m).get a = m.get a := by
  induction L with
  | nil => exact fun _ => rfl
  | cons x L ih =>
    obtain ⟨hx, hr⟩ := List.forall_mem_cons.mp hL
    exact fun m => (ih hr _).trans (Memory.get_write_outside _ _ _ _ (CopyWord.bytes_length .. ▸ hx))

/-- The moving of words that all lie at one distance gives a byte of a destination its source's value. -/
theorem foldl_put_get_inside {part A B : Nat} {m0 : Memory} {a : Nat} {L : List CopyWord}
    (hL : ∀ x ∈ L, B ≤ x.dst ∧ x.src + B = x.dst + A)
    (ha : ∃ x ∈ L, scratchLoc part x.dst ≤ a ∧ a < scratchLoc part x.dst + 4) :
    ∀ m : Memory, m.wf = true →
      (L.foldl (CopyWord.put part m0) m).get a = m0.get (scratchLoc part A + (a - scratchLoc part B)) := by
  induction L with
  | nil => simp at ha
  | cons x L ih =>
    obtain ⟨⟨hB, hd⟩, hr⟩ := List.forall_mem_cons.mp hL
    intro m hwf
    by_cases hc : ∃ y ∈ L, scratchLoc part y.dst ≤ a ∧ a < scratchLoc part y.dst + 4
    · exact ih hr hc _ (x.wf_put part hwf)
    · have hx : scratchLoc part x.dst ≤ a ∧ a < scratchLoc part x.dst + 4 := by simpa [hc] using ha
      have hout : ∀ y ∈ L, a < scratchLoc part y.dst ∨ scratchLoc part y.dst + 4 ≤ a := fun y hy => by
        have hno : ¬ (scratchLoc part y.dst ≤ a ∧ a < scratchLoc part y.dst + 4) := fun h => hc ⟨y, hy, h⟩
        omega
      have hi : a - scratchLoc part x.dst < 4 := by omega
      rw [List.foldl_cons, foldl_put_get_outside hout, CopyWord.put, Memory.get_write _ _ _ _ hwf, CopyWord.bytes_length, if_pos hx,
        CopyWord.bytes, Memory.getD_read _ _ hi]
      simp only [scratchLoc_eq part x.src, scratchLoc_eq part x.dst, scratchLoc_eq part A, scratchLoc_eq part B] at hx ⊢
      congr 1
      omega

end Sys2Proof.Machine
end

section
/-! PROOF. O36: a chunk within the part's own scratchpad is read and then written unit by unit, and settles its copy (R104, R117, R197,
R199, R329, R392). -/

namespace Sys2Proof.Machine

/-! ## The units of a chunk -/

/-- The bytes of a word, by its number in the chunk's copy. -/
def CopyWord.entry (part k : Nat) (m : Memory) (x : CopyWord) : Nat × List Byte := (1024 * k + x.ix, x.bytes part m)

/-- A unit of the own scratchpad is read. -/
theorem Moving.read_scratch {w : Warp} {p : Part} {c : Copy} {k : Nat} {r : Moving} {u : Nat × List CopyWord} (hsp : c.ssp = .s)
    (hu : UnitOf (·.src) u.2) (hin : ∀ x ∈ u.2, x.src + 4 ≤ p.scratch) (hp : p.scratch ≤ 0x100000) (hbad : r.s.bad = []) :
    r.read w p c k u = { r with got := r.got ++ u.2.map (CopyWord.entry w.part k r.s.mem) } := by
  obtain ⟨i, _ | ⟨x, rest⟩⟩ := u
  · simp [UnitOf] at hu
  · obtain ⟨hspan, y, hy, hend⟩ := hu.span
    have hlen : x.src + 4 * (x :: rest).length ≤ p.scratch := hend ▸ hin y hy
    have hplace := r.s.unitPlace_scratch w .r (by simp) hlen hp
    have hread := State.readUnit_scratch hbad c (readReq i) (part := w.part) (hlen.trans hp)
    have hgot : (x :: rest).map (fun y => (1024 * k + y.ix,
        ((r.s.mem.read (scratchLoc w.part x.src) (4 * (x :: rest).length)).drop (y.src - x.src)).take 4))
        = (x :: rest).map (CopyWord.entry w.part k r.s.mem) := by
      refine List.map_congr_left fun z hz => ?_
      obtain ⟨hlo, hhi⟩ := hspan z hz
      rw [Memory.take_drop_read _ _ (by omega), ← scratchLoc_add, Nat.add_sub_cancel' hlo]
      rfl
    simp only [Moving.read, hsp, hplace, hread, hgot]

theorem foldl_read_scratch {w : Warp} {p : Part} {c : Copy} {k : Nat} (hsp : c.ssp = .s) (hp : p.scratch ≤ 0x100000)
    {us : List (Nat × List CopyWord)} (hus : ∀ u ∈ us, UnitOf (·.src) u.2 ∧ ∀ x ∈ u.2, x.src + 4 ≤ p.scratch) :
    ∀ r : Moving, r.s.bad = [] →
      us.foldl (Moving.read w p c k) r = { r with got := r.got ++ (us.flatMap (·.2)).map (CopyWord.entry w.part k r.s.mem) } := by
  induction us with
  | nil => simp
  | cons u us ih =>
    obtain ⟨⟨hu, hin⟩, hr⟩ := List.forall_mem_cons.mp hus
    intro r hbad
    have hrest := ih hr { r with got := r.got ++ u.2.map (CopyWord.entry w.part k r.s.mem) } hbad
    rw [List.foldl_cons, Moving.read_scratch hsp hu hin hp hbad, hrest]
    simp

/-- A unit of the own scratchpad is written, once its words have been read. -/
theorem Moving.write_scratch {w : Warp} {p : Part} {c : Copy} {k : Nat} {skip : Bool} {r : Moving} {u : Nat × List CopyWord} {m0 : Memory}
    (hsp : c.dsp = .s) (hu : UnitOf (·.dst) u.2) (hin : ∀ x ∈ u.2, x.dst + 4 ≤ p.scratch) (hp : p.scratch ≤ 0x100000)
    (hgot : ∀ x ∈ u.2, tget r.got (1024 * k + x.ix) = some (x.bytes w.part m0)) (hbad : r.s.bad = []) (herr : r.err = none) :
    ∃ rep mv, r.write w p c k skip u =
      { r with s := { r.s with mem := u.2.foldl (CopyWord.put w.part m0) r.s.mem, reported := rep }, moved := mv } := by
  obtain ⟨i, _ | ⟨x, rest⟩⟩ := u
  · simp [UnitOf] at hu
  · obtain ⟨-, y, hy, hend⟩ := hu.span
    have hlen : x.dst + 4 * (x :: rest).length ≤ p.scratch := hend ▸ hin y hy
    have hall : ((x :: rest).all fun y => (tget r.got (1024 * k + y.ix)).isSome) = true :=
      List.all_eq_true.mpr fun y hy => by rw [hgot y hy]; rfl
    have hbs : (x :: rest).flatMap (fun y => (tget r.got (1024 * k + y.ix)).getD []) = (x :: rest).flatMap (CopyWord.bytes w.part m0) := by
      refine List.flatMap_congr fun y hy => ?_
      rw [hgot y hy]
      rfl
    have hbslen : ((x :: rest).flatMap (CopyWord.bytes w.part m0)).length = 4 * (x :: rest).length := by
      simp only [List.length_flatMap, CopyWord.bytes_length, List.map_const', List.sum_replicate, smul_eq_mul, Nat.mul_comm]
    have hplace := r.s.unitPlace_scratch w .w (by simp) hlen hp
    obtain ⟨rep, hstore⟩ := State.store_scratch hbad (part := w.part) (hbslen ▸ hlen.trans hp)
    rw [hu.write_eq] at hstore
    refine ⟨rep, r.moved ++ [i], ?_⟩
    simp only [Moving.write, hsp, hall, hbs, hplace, herr, State.writeUnit_scratch hbad, hstore, Bool.not_true, Option.isSome_none,
      Bool.and_false, Bool.false_eq_true, if_false]

theorem foldl_write_scratch {w : Warp} {p : Part} {c : Copy} {k : Nat} {skip : Bool} {m0 : Memory} (hsp : c.dsp = .s)
    (hp : p.scratch ≤ 0x100000) {got : Tab (List Byte)} {us : List (Nat × List CopyWord)}
    (hus : ∀ u ∈ us, UnitOf (·.dst) u.2 ∧ ∀ x ∈ u.2, x.dst + 4 ≤ p.scratch ∧ tget got (1024 * k + x.ix) = some (x.bytes w.part m0)) :
    ∀ r : Moving, r.s.bad = [] → r.err = none → r.got = got → ∃ rep mv, us.foldl (Moving.write w p c k skip) r =
      { r with s := { r.s with mem := (us.flatMap (·.2)).foldl (CopyWord.put w.part m0) r.s.mem, reported := rep }, moved := mv } := by
  induction us with
  | nil => exact fun r _ _ _ => ⟨r.s.reported, r.moved, rfl⟩
  | cons u us ih =>
    obtain ⟨⟨hu, hx⟩, hr⟩ := List.forall_mem_cons.mp hus
    intro r hbad herr hgot
    obtain ⟨rep, mv, hw⟩ := Moving.write_scratch (skip := skip) hsp hu (fun x h => (hx x h).1) hp
      (fun x h => hgot ▸ (hx x h).2) hbad herr
    obtain ⟨rep', mv', hrest⟩ := ih hr { r with
      s := { r.s with mem := u.2.foldl (CopyWord.put w.part m0) r.s.mem, reported := rep }, moved := mv } hbad herr hgot
    exact ⟨rep', mv', by rw [List.foldl_cons, hw, hrest, List.flatMap_cons, List.foldl_append]⟩

/-! ## A chunk of one row -/

/-- Words `A`, `A + 4`, … that go to `B`, `B + 4`, …. -/
def rowWords (A B m : Nat) : List CopyWord := (List.range m).map fun i => ⟨i, A + 4 * i, B + 4 * i⟩

theorem mem_rowWords {A B m : Nat} {x : CopyWord} : x ∈ rowWords A B m ↔ ∃ i < m, x = ⟨i, A + 4 * i, B + 4 * i⟩ := by
  simp [rowWords, eq_comm]

/-- Chunk `k`, of which nothing has been moved, moves `m` words at `A` to `B` within the scratchpad of the part. -/
structure RowChunk (p : Part) (c : Copy) (k A B m : Nat) : Prop where
  ssp : c.ssp = .s
  dsp : c.dsp = .s
  fetched : c.fetched = []
  moved : c.moved = []
  words : c.words k = rowWords A B m
  srcAligned : A % 4 = 0
  dstAligned : B % 4 = 0
  srcFits : ∀ i < m, A + 4 * i + 4 ≤ p.scratch
  dstFits : ∀ i < m, B + 4 * i + 4 ≤ p.scratch
  small : p.scratch ≤ 0x100000

/-- The words of a chunk of one row follow one another. -/
theorem Copy.words_row {c : Copy} (k : Nat) (hssp : c.ssp = .s) (hdsp : c.dsp = .s) (hrows : c.rows = 1)
    (hsrc : c.src.toNat + c.len ≤ 0x100000) (hdst : c.dst.toNat + c.len ≤ 0x100000) :
    c.words k = rowWords (c.src.toNat + 4096 * k) (c.dst.toNat + 4096 * k) ((min c.len (4096 * k + 4096) - 4096 * k) / 4) := by
  rw [Copy.words, hrows, Nat.mul_one, rowWords]
  refine List.map_congr_left fun i hi => ?_
  have hlt : 4096 * k + 4 * i < c.len := by
    have := List.mem_range.mp hi
    omega
  have haddr (base : DWord) (pitch : Int) (h : base.toNat + c.len ≤ 0x100000) :
      rowAddr .s base ((4096 * k + 4 * i) / c.len) pitch ((4096 * k + 4 * i) % c.len) = base.toNat + 4096 * k + 4 * i := by
    rw [Nat.div_eq_of_lt hlt, Nat.mod_eq_of_lt hlt, rowAddr]
    simp only [reduceCtorEq, if_false]
    omega
  simp only [hssp, hdsp, haddr _ _ hsrc, haddr _ _ hdst]

theorem tget_map_entry {part k : Nat} {m : Memory} {x : CopyWord} {L : List CopyWord} (hx : x ∈ L) (hix : ∀ y ∈ L, y.ix = x.ix → y = x) :
    tget (L.map (CopyWord.entry part k m)) (1024 * k + x.ix) = some (x.bytes part m) := by
  induction L with
  | nil => simp at hx
  | cons y L ih =>
    obtain ⟨hy, hr⟩ := List.forall_mem_cons.mp hix
    simp only [List.map_cons, CopyWord.entry, tget]
    split
    case isTrue he => rw [hy (by omega)]
    case isFalse he =>
      have hne : x ≠ y := fun e => he (by rw [e])
      exact ih ((List.mem_cons.mp hx).resolve_left hne) hr

section
variable {p : Part} {c : Copy} {k A B m : Nat} (h : RowChunk p c k A B m)
include h

theorem RowChunk.mem_word {x : CopyWord} (hx : x ∈ c.words k) :
    x.src = A + 4 * x.ix ∧ x.dst = B + 4 * x.ix ∧ x.ix < m := by
  obtain ⟨i, hi, rfl⟩ := mem_rowWords.mp (h.words ▸ hx)
  exact ⟨rfl, rfl, hi⟩

theorem RowChunk.word_ext {x y : CopyWord} (hx : x ∈ c.words k) (hy : y ∈ c.words k) (he : y.ix = x.ix) : y = x := by
  obtain ⟨i, -, rfl⟩ := mem_rowWords.mp (h.words ▸ hx)
  obtain ⟨j, -, rfl⟩ := mem_rowWords.mp (h.words ▸ hy)
  obtain rfl : j = i := he
  rfl

/-- All of the chunk is still to be written. -/
theorem RowChunk.toWrite : c.toWrite k = unitsBy (·.dst) k (c.words k) := by simp [Copy.toWrite, h.moved]

theorem RowChunk.src_unit {u : Nat × List CopyWord} (hu : u ∈ unitsBy (·.src) k (c.words k)) :
    UnitOf (·.src) u.2 ∧ ∀ x ∈ u.2, x ∈ c.words k :=
  ⟨unitsBy_unitOf (fun x hx => by have := h.mem_word hx; have := h.srcAligned; omega) hu,
    fun _ hx => (unitsBy_perm (·.src) k (c.words k)).mem_iff.mp (List.mem_flatMap_of_mem hu hx)⟩

theorem RowChunk.dst_unit {u : Nat × List CopyWord} (hu : u ∈ unitsBy (·.dst) k (c.words k)) :
    UnitOf (·.dst) u.2 ∧ ∀ x ∈ u.2, x ∈ c.words k :=
  ⟨unitsBy_unitOf (fun x hx => by have := h.mem_word hx; have := h.dstAligned; omega) hu,
    fun _ hx => (unitsBy_perm (·.dst) k (c.words k)).mem_iff.mp (List.mem_flatMap_of_mem hu hx)⟩

/-- All of the chunk is still to be read. -/
theorem RowChunk.toRead : c.toRead k = unitsBy (·.src) k (c.words k) := by
  rw [Copy.toRead, h.toWrite]
  refine List.filter_eq_self.mpr fun u hu => ?_
  obtain ⟨hshape, hmem⟩ := h.src_unit hu
  obtain ⟨x, hx⟩ : ∃ x, x ∈ u.2 := by
    obtain ⟨x, e⟩ | ⟨x, y, e, -⟩ := hshape <;> exact ⟨x, by simp [e]⟩
  have hleft := (unitsBy_perm (·.dst) k (c.words k)).mem_iff.mpr (hmem x hx)
  have hnew : c.fetchedAt k x = none := by rw [Copy.fetchedAt, h.fetched]; rfl
  exact List.any_eq_true.mpr ⟨x, hx, by rw [hnew, List.contains_iff_mem.mpr hleft]; rfl⟩

/-- The bytes of the chunk's words, as the engine has read them. -/
def readWords (c : Copy) (k part : Nat) (m : Memory) : Tab (List Byte) :=
  ((unitsBy (·.src) k (c.words k)).flatMap (·.2)).map (CopyWord.entry part k m)

theorem RowChunk.tget_readWords {x : CopyWord} (hx : x ∈ c.words k) (part : Nat) (m0 : Memory) :
    tget (readWords c k part m0) (1024 * k + x.ix) = some (x.bytes part m0) :=
  have hall := unitsBy_perm (·.src) k (c.words k)
  tget_map_entry (hall.mem_iff.mpr hx) fun _ hy he => h.word_ext hx (hall.mem_iff.mp hy) he

/-- Every word of the chunk is read. -/
theorem RowChunk.reads {s : State} (w : Warp) (hbad : s.bad = []) :
    (c.toRead k).foldl (Moving.read w p c k) (s.moving c) = ⟨s, readWords c k w.part s.mem, [], none⟩ := by
  have hfits (u : Nat × List CopyWord) (hu : u ∈ unitsBy (·.src) k (c.words k)) :
      UnitOf (·.src) u.2 ∧ ∀ x ∈ u.2, x.src + 4 ≤ p.scratch := by
    obtain ⟨hshape, hmem⟩ := h.src_unit hu
    refine ⟨hshape, fun x hx => ?_⟩
    obtain ⟨hsrc, -, hix⟩ := h.mem_word (hmem x hx)
    have hfits := h.srcFits x.ix hix
    omega
  rw [h.toRead, foldl_read_scratch h.ssp h.small hfits (s.moving c) hbad]
  simp [State.moving, h.fetched, h.moved, readWords]

/-- Units of the chunk are written. -/
theorem RowChunk.writes {s : State} {m0 : Memory} {us : List (Nat × List CopyWord)} (w : Warp) (skip : Bool) (mv : List Nat)
    (hus : ∀ u ∈ us, u ∈ unitsBy (·.dst) k (c.words k)) (hbad : s.bad = []) :
    ∃ rep mv', us.foldl (Moving.write w p c k skip) ⟨s, readWords c k w.part m0, mv, none⟩ =
      ⟨{ s with mem := (us.flatMap (·.2)).foldl (CopyWord.put w.part m0) s.mem, reported := rep },
        readWords c k w.part m0, mv', none⟩ := by
  refine foldl_write_scratch h.dsp h.small (fun u hu => ?_) ⟨s, _, mv, none⟩ hbad rfl rfl
  obtain ⟨hshape, hmem⟩ := h.dst_unit (hus u hu)
  refine ⟨hshape, fun x hx => ⟨?_, h.tget_readWords (hmem x hx) w.part m0⟩⟩
  obtain ⟨-, hdst, hix⟩ := h.mem_word (hmem x hx)
  have hfits := h.dstFits x.ix hix
  omega

/-- The chunk moves its words one after the other, in an order of which free choices decide. -/
theorem RowChunk.moveChunk {s : State} (w : Warp) (hbad : s.bad = []) : ∃ (rep : List Nat) (L : List CopyWord),
    L.Perm (c.words k) ∧ s.moveChunk w p c k =
      ({ s with choices := s.choices + 1, mem := L.foldl (CopyWord.put w.part s.mem) s.mem, reported := rep }, none) := by
  simp only [State.moveChunk, h.reads (s := { s with choices := s.choices + 1 }) w hbad, h.toWrite]
  have hperm := List.filter_append_perm (fun u : Nat × List CopyWord => Config.bitAt s.choices u.1) (unitsBy (·.dst) k (c.words k))
  generalize List.filter (fun u : Nat × List CopyWord => Config.bitAt s.choices u.1) (unitsBy (·.dst) k (c.words k)) = firsts
    at hperm ⊢
  generalize List.filter (fun u : Nat × List CopyWord => !Config.bitAt s.choices u.1) (unitsBy (·.dst) k (c.words k)) = seconds
    at hperm ⊢
  obtain ⟨rep1, mv1, hw1⟩ := h.writes (s := { s with choices := s.choices + 1 }) (m0 := s.mem) (us := firsts) w false []
    (fun u hu => hperm.mem_iff.mp (List.mem_append_left _ hu)) hbad
  obtain ⟨rep2, mv2, hw2⟩ := h.writes (m0 := s.mem) (us := seconds) w true mv1
    (fun u hu => hperm.mem_iff.mp (List.mem_append_right _ hu)) (s := { s with
      choices := s.choices + 1, mem := (firsts.flatMap (·.2)).foldl (CopyWord.put w.part s.mem) s.mem, reported := rep1 }) hbad
  refine ⟨rep2, (firsts ++ seconds).flatMap (·.2), (hperm.flatMap_right _).trans (unitsBy_perm ..), ?_⟩
  simp only [hw1, hw2, List.flatMap_append, List.foldl_append, Option.map_none]

/-- Where the bytes of the chunk's words end up. -/
theorem RowChunk.get_moved {L : List CopyWord} (hL : L.Perm (c.words k)) (part : Nat) {m0 : Memory} (hwf : m0.wf = true) (a : Nat) :
    (L.foldl (CopyWord.put part m0) m0).get a =
      if scratchLoc part B ≤ a ∧ a < scratchLoc part B + 4 * m then m0.get (scratchLoc part A + (a - scratchLoc part B))
      else m0.get a := by
  have hword (x : CopyWord) (hx : x ∈ L) := h.mem_word (hL.mem_iff.mp hx)
  have hloc (x : CopyWord) (hx : x ∈ L) : scratchLoc part x.dst = scratchLoc part B + 4 * x.ix := by
    rw [(hword x hx).2.1, scratchLoc_add]
  split
  case isTrue hin =>
    obtain ⟨hlo, hhi⟩ := hin
    let i := (a - scratchLoc part B) / 4
    have hi : i < m := by omega
    have hx : (⟨i, A + 4 * i, B + 4 * i⟩ : CopyWord) ∈ L := hL.mem_iff.mpr (h.words ▸ mem_rowWords.mpr ⟨i, hi, rfl⟩)
    have hat := hloc _ hx
    exact foldl_put_get_inside (fun x hx => by have := hword x hx; omega) ⟨_, hx, by simp only at hat ⊢; omega⟩ m0 hwf
  case isFalse hout =>
    refine foldl_put_get_outside (fun x hx => ?_) m0
    have hx1 := hloc x hx
    have hx2 := hword x hx
    omega

end

/-! ## The end of a chunk -/

theorem mem_of_tget {α : Type} {t : Tab α} {k : Nat} {v : α} (h : tget t k = some v) : (k, v) ∈ t := by
  induction t with
  | nil => simp [tget] at h
  | cons p t ih =>
    obtain ⟨j, u⟩ := p
    simp only [tget] at h
    split at h
    case isTrue e => simp_all
    case isFalse e => exact List.mem_cons_of_mem _ (ih h)

/-- A block with a warp that has not ended goes on. -/
theorem State.blockCheck_live {s : State} {wid : Nat} {w : Warp} (hw : tget s.warps wid = some w) (hend : w.ended = false) :
    s.blockCheck w.block = s := by
  unfold State.blockCheck
  split
  · rfl
  · next b _ =>
    have hall : (s.warps.all fun p => p.2.block != w.block || (p.2.ended && p.2.ops.isEmpty && !s.backStalled p.1)) = false :=
      List.all_eq_false.mpr ⟨_, mem_of_tget hw, by simp [hend]⟩
    have hover : s.blockOver w.block b = false := by simp only [State.blockOver, hall, Bool.false_and]
    rw [hover, if_neg Bool.false_ne_true]

/-- A copy without an error, of a warp that has not ended, is only marked as delivered when it finishes. -/
theorem State.copyFinished_live {s : State} {id : Nat} {c : Copy} {w : Warp} (hc : tget s.copies id = some c) (herr : c.error = none)
    (hw : tget s.warps c.wid = some w) (hend : w.ended = false) :
    ∃ d, tget (s.copyFinished id).copies id = some { c with delivered := d } ∧ (s.copyFinished id).mem = s.mem := by
  by_cases hfin : c.finished = true
  · have hdone : s.copyFinished id = s.modCopy id fun x => { x with delivered := true } := by
      have hlive := State.blockCheck_live (s := s.modCopy id fun x => { x with delivered := true }) hw hend
      simp [State.copyFinished, hc, hfin, herr, hw, hlive]
    exact ⟨true, by rw [hdone]; exact tget_tmod_of_some _ hc, by rw [hdone]; rfl⟩
  · have hstays : s.copyFinished id = s := by simp [State.copyFinished, hc, hfin]
    exact ⟨c.delivered, by rw [hstays]; exact hc, by rw [hstays]⟩

/-- The copy runs its chunk while its slot does, its block is resident, no earlier copy goes first and no switch is under way. -/
theorem State.copyRuns_some {id k : Nat} {s : State} {c : Copy} {w : Warp} {p : Part} {b : Block} (hc : tget s.copies id = some c)
    (hw : tget s.warps c.wid = some w) (hp : tget s.parts w.part = some p) (hrun : s.running = some c.slot)
    (hb : tget s.blocks w.block = some b) (hres : b.resident = true) (hsw : s.switching = false) (hk : k ∈ c.running)
    (hwait : s.copyWaits id c = false) : s.copyRuns id k = some (c, w, p) := by
  simp [State.copyRuns, State.copyAt, hc, hw, hp, hrun, hb, hres, hsw, hk, hwait]

/-- A running chunk of which no word waits for a migration is moved and settles its copy. -/
theorem copyChunkDone_runs {id k : Nat} {s : State} {c : Copy} {w : Warp} {p : Part} (hr : s.copyRuns id k = some (c, w, p))
    (hst : ∀ x ∈ c.words k, s.wordStalls c x = false) : copyChunkDone id k s =
      ((s.moveChunk w p c k).1.modCopy id (chunkEnded k (s.moveChunk w p c k).2)).copyFinished id := by
  have hno : s.chunkStalls c k = false := by simpa [State.chunkStalls] using hst
  simp [copyChunkDone, hr, State.endCopyChunk, hno]

theorem chunkEnded_none {k : Nat} {c : Copy} (herr : c.error = none) : (chunkEnded k none c).error = none
    ∧ (chunkEnded k none c).running = (c.running.filter (· != k)) ++ (if c.next < chunksOf c.len c.rows then [c.next] else []) := by
  refine ⟨herr, ?_⟩
  simp only [chunkEnded, herr]
  split <;> simp_all

/-- A chunk that has started runs no more once it has ended. -/
theorem chunkEnded_stops {k : Nat} {c : Copy} (herr : c.error = none) (hnext : k < c.next) : k ∉ (chunkEnded k none c).running := by
  rw [(chunkEnded_none herr).2]
  split <;> simp [Nat.ne_of_lt hnext]

theorem chunksEnd : ChunksEnd := by
  refine ⟨fun id k s c w p b hc hw hp hrun hb hres hsw hk hwait hst =>
    congrArg Host.Outcome.next (copyChunkDone_runs (State.copyRuns_some hc hw hp hrun hb hres hsw hk hwait) hst), fun k c herr => ?_⟩
  obtain ⟨hnone, hrunning⟩ := chunkEnded_none (k := k) herr
  exact ⟨hnone, hrunning, rfl, fun t => by simp [chunkEnded, herr]⟩

theorem chunksMoveTheirBytes : ChunksMoveTheirBytes := by
  intro id k s c w p b hc hw hp hrun hb hres hsw hend hk hnext hwait hfet hmov herr hssp hdsp hrows hs4 hd4 hl4 hsrc hdst hsmall hbad hwf
    n src dst
  have hn : 4 * (n / 4) = n := by omega
  have hrow : RowChunk p c k (c.src.toNat + 4096 * k) (c.dst.toNat + 4096 * k) (n / 4) :=
    { ssp := hssp, dsp := hdsp, fetched := hfet, moved := hmov, small := hsmall
      words := Copy.words_row k hssp hdsp hrows (hsrc.trans hsmall) (hdst.trans hsmall)
      srcAligned := by omega
      dstAligned := by omega
      srcFits := fun i hi => by omega
      dstFits := fun i hi => by omega }
  have hst (x : CopyWord) : s.wordStalls c x = false := by simp [State.wordStalls, hdsp]
  have hdone := copyChunkDone_runs (State.copyRuns_some hc hw hp hrun hb hres hsw hk hwait) fun x _ => hst x
  obtain ⟨rep, L, hL, hmoved⟩ := hrow.moveChunk w hbad
  rw [hmoved] at hdone
  obtain ⟨herr', -⟩ := chunkEnded_none (k := k) herr
  obtain ⟨d, hcopy, hmem⟩ := State.copyFinished_live (s := State.modCopy
    { s with choices := s.choices + 1, mem := L.foldl (CopyWord.put w.part s.mem) s.mem, reported := rep } id (chunkEnded k none))
    (tget_tmod_of_some (chunkEnded k none) hc) herr' hw hend
  refine ⟨_, _, congrArg Host.Outcome.next hdone, hcopy, herr', chunkEnded_stops herr hnext, fun a => ?_⟩
  rw [hmem, ← hn]
  exact hrow.get_moved hL w.part hwf a

/-- Settles O36: the end of a copy's chunks, and the bytes that they move. -/
theorem copyChunksEnd : Obligations.CopyChunksEnd := ⟨chunksEnd, chunksMoveTheirBytes⟩

end Sys2Proof.Machine
end

section
/-! SUPPORT. The deferred effects and the running slot (R329): the work of a slot, its stopping and its return leave both, one law for
each operation. -/

namespace Sys2Proof.Machine

/-- The two states have the same deferred effects and the same running slot. -/
@[simp] abbrev SameTurns (t s : State) : Prop := t.deferred = s.deferred ∧ t.running = s.running

theorem SameTurns.rfl {s : State} : SameTurns s s := ⟨Eq.refl _, Eq.refl _⟩

theorem SameTurns.trans {s t u : State} (h : SameTurns u t) (g : SameTurns t s) : SameTurns u s := ⟨h.1.trans g.1, h.2.trans g.2⟩

theorem aside_turns {s t : State} (h : t.aside = s.aside) : SameTurns t s :=
  ⟨by have e := congrArg State.deferred h; exact e, aside_running h⟩

theorem foldl_turns {β : Type} {f : State → β → State} (hf : ∀ s b, SameTurns (f s b) s) (l : List β) (s : State) :
    SameTurns (l.foldl f s) s :=
  ⟨foldl_keeps State.deferred (fun s b => (hf s b).1) l s, foldl_keeps State.running (fun s b => (hf s b).2) l s⟩

/-- `foldl_turns` for a fold whose accumulator holds the state in its part `st`. -/
theorem foldl_turns_by {σ β : Type} (st : σ → State) {f : σ → β → σ} (hf : ∀ r b, SameTurns (st (f r b)) (st r)) (l : List β)
    (r : σ) : SameTurns (st (l.foldl f r)) (st r) :=
  ⟨foldl_keeps (State.deferred ∘ st) (fun r b => (hf r b).1) l r, foldl_keeps (State.running ∘ st) (fun r b => (hf r b).2) l r⟩

theorem snd_turns {α : Type} {p : α × State} {t : State} {a : α} (e : p = (a, t)) : SameTurns t p.2 := by rw [e]; exact .rfl

theorem State.modPart_turns (s : State) (k : Nat) (f : Part → Part) : SameTurns (s.modPart k f) s := .rfl

theorem State.modWarp_turns (s : State) (k : Nat) (f : Warp → Warp) : SameTurns (s.modWarp k f) s := .rfl

theorem State.modInst_turns (s : State) (k : Nat) (f : Inst → Inst) : SameTurns (s.modInst k f) s := .rfl

theorem State.modCopy_turns (s : State) (k : Nat) (f : Copy → Copy) : SameTurns (s.modCopy k f) s := .rfl

theorem State.coreEvent_turns (s : State) (c e k : Nat) : SameTurns (s.coreEvent c e k) s := by simp

/-! ## Store and requests -/

@[simp] theorem State.store_turns (s : State) (loc : Nat) (bs : List Byte) : SameTurns (s.store loc bs) s := by
  obtain ⟨w, h, -⟩ := s.store_aside loc bs
  exact aside_turns (s := { s with warps := w }) h

@[simp] theorem State.poisonLine_turns (s : State) (p : Place) (badWords : List Nat) :
    SameTurns (s.poisonLine p badWords) s := aside_turns (State.poisonLine_aside ..)

@[simp] theorem State.translate_turns (s : State) (slot : Fin 8) (master die : Nat) (need : Need) (va : DWord) (n : Nat) :
    SameTurns (s.translate slot master die need va n).1 s := aside_turns (State.translate_aside ..)

@[simp] theorem State.linkFails_turns (s : State) (p : Place) : SameTurns (s.linkFails p).2 s := aside_turns (State.linkFails_aside ..)

@[simp] theorem State.request_turns (s : State) (p : Place) (write : Bool) :
    SameTurns (s.request p write) s := aside_turns (State.request_aside ..)

@[simp] theorem State.ask_turns (s : State) (p : Place) : SameTurns (s.ask p).2 s := aside_turns (State.ask_aside ..)

@[simp] theorem State.readPlace_turns (s : State) (p : Place) (n : Nat) :
    SameTurns (s.readPlace p n).2 s := aside_turns (State.readPlace_aside ..)

@[simp] theorem State.meet_turns (s : State) (loc n : Nat) : SameTurns (s.meet loc n) s := aside_turns (State.meet_aside ..)

@[simp] theorem State.memerrWord_turns (s : State) (core : Nat) :
    SameTurns (s.memerrWord core) s := aside_turns (State.memerrWord_aside ..)

/-! ## Mesh -/

@[simp] theorem State.writeFence_turns (s : State) (c : Nat) : SameTurns (s.writeFence c) s := by simp [State.writeFence]

@[simp] theorem State.modFence_turns (s : State) (c : Nat) (f : CoreFence → CoreFence) :
    SameTurns (s.modFence c f) s := by simp [State.modFence]

@[simp] theorem State.alert_turns (s : State) : SameTurns s.alert s := by simp [State.alert]

@[simp] theorem State.fenceLog_turns (s : State) (c kind : Nat) (result : BitVec 8) :
    SameTurns (s.fenceLog c kind result) s := by simp [State.fenceLog]

@[simp] theorem State.eachWatch_turns (s : State) (c : Nat) (f : Watch → Watch) : SameTurns (s.eachWatch c f) s :=
  foldl_turns (fun _ _ => by simp) _ _

@[simp] theorem State.endHold_turns (s : State) (c : Nat) : SameTurns (s.endHold c) s := by
  unfold State.endHold
  split <;> simp

@[simp] theorem State.endHoldsOf_turns (s : State) (bid : Nat) : SameTurns (s.endHoldsOf bid) s :=
  foldl_turns (fun _ _ => by simp) _ _

/-! ## Lines -/

@[simp] theorem State.addErr_turns (s : State) (wid : Nat) (e : PendErr) : SameTurns (s.addErr wid e) s := by simp [State.addErr]

@[simp] theorem State.storeLost_turns (s : State) (p : Place) (bs : List Byte) : SameTurns (s.storeLost p bs) s := by
  obtain ⟨w, h, -⟩ := s.storeLost_aside p bs
  exact aside_turns (s := { s with warps := w }) h

@[simp] theorem State.writeBack_turns (s : State) (wid : Nat) (l : L1Line) : SameTurns (s.writeBack wid l).1 s := by
  unfold State.writeBack
  grind [State.translate_turns, State.ask_turns, State.request_turns, State.linkFails_turns, State.poisonLine_turns,
    State.storeLost_turns, State.addErr_turns, State.store_turns]

@[simp] theorem State.stallWrite_turns (s : State) (who : Requester) (p : Place) (data : List Byte) (badWords : List Nat) :
    SameTurns (s.stallWrite who p data badWords) s := by
  unfold State.stallWrite
  split <;> simp

@[simp] theorem State.cleanLine_turns (s : State) (pid : Nat) (l : L1Line) : SameTurns (s.cleanLine pid l) s := by
  unfold State.cleanLine
  grind [State.writeBack_turns, State.modPart_turns, State.stallWrite_turns]

@[simp] theorem State.makeRoom_turns (pid set n : Nat) : ∀ s : State, SameTurns (s.makeRoom pid set n).1 s := by
  induction n with
  | zero => exact fun _ => .rfl
  | succ n ih =>
    intro s
    unfold State.makeRoom
    grind [State.cleanLine_turns, State.modPart_turns]

@[simp] theorem State.placeLine_turns (s : State) (pid : Nat) (l : L1Line) : SameTurns (s.placeLine pid l).1 s := by
  unfold State.placeLine
  grind [State.makeRoom_turns, State.modPart_turns]

@[simp] theorem State.discardGlobal_turns (s : State) (pid : Nat) : SameTurns (s.discardGlobal pid) s := by simp [State.discardGlobal]

@[simp] theorem State.readOnchip_turns (s : State) (a : Acc) : SameTurns (s.readOnchip a).2 s := by
  unfold State.readOnchip
  (repeat' split) <;> simp

@[simp] theorem State.readMem_turns (s : State) (p : Place) (n : Nat) :
    SameTurns (s.readMem p n).2 s := aside_turns (State.readMem_aside ..)

@[simp] theorem State.writeAt_turns (s : State) (p : Place) (bs : List Byte) : SameTurns (s.writeAt p bs).2 s := by
  unfold State.writeAt
  grind [State.linkFails_turns, State.storeLost_turns, State.store_turns]

@[simp] theorem State.writeMem_turns (s : State) (p : Place) (bs : List Byte) :
    SameTurns (s.writeMem p bs).2 s := by simp [State.writeMem]

@[simp] theorem State.ioRequest_turns (s : State) (p : Place) : SameTurns (s.ioRequest p) s := aside_turns (State.ioRequest_aside ..)

@[simp] theorem State.ioWrite_turns (s : State) (p : Place) (bs : List Byte) : SameTurns (s.ioWrite p bs).2 s := by simp [State.ioWrite]

@[simp] theorem State.meetLine_turns (s : State) (pid core : Nat) (l : L1Line) (ks : List Nat) :
    SameTurns (s.meetLine pid core l ks) s := by
  unfold State.meetLine
  refine foldl_turns (fun t k => ?_) _ _
  split <;> simp

@[simp] theorem State.readGlobal_turns (s : State) (pid core : Nat) (a : Acc) : SameTurns (s.readGlobal pid core a).2 s := by
  have hm : ∀ (f : Option L1Line) (g : L1Line → List Nat), SameTurns (f.elim s fun l => s.meetLine pid core l (g l)) s := by
    intro f g
    cases f <;> simp
  unfold State.readGlobal
  simp only
  split
  · exact .rfl
  · split
    · next bs s1 e =>
      have h1 : SameTurns s1 s := (snd_turns e).trans (by simp [hm])
      split <;> simp [h1]
    · simp [hm]

@[simp] theorem State.writeGlobal_turns (s : State) (pid : Nat) (a : Acc) (bs : List Byte) :
    SameTurns (s.writeGlobal pid a bs).2 s := by
  unfold State.writeGlobal
  grind [State.writeMem_turns, State.modPart_turns]

@[simp] theorem State.missPriv_turns (s : State) (pid wid core : Nat) (a : Acc) : SameTurns (s.missPriv pid wid core a).2 s := by
  unfold State.missPriv
  grind [State.readMem_turns, State.coreEvent_turns, State.placeLine_turns]

@[simp] theorem State.hitPriv_turns (s : State) (l : L1Line) (a : Acc) : SameTurns (s.hitPriv l a).2 s := by
  unfold State.hitPriv
  grind

@[simp] theorem State.readPriv_turns (s : State) (pid wid core : Nat) (a : Acc) : SameTurns (s.readPriv pid wid core a).2 s := by
  unfold State.readPriv
  grind [State.hitPriv_turns, State.modPart_turns, State.meetLine_turns, State.missPriv_turns]

@[simp] theorem State.allocPriv_turns (s : State) (pid wid core : Nat) (a : Acc) (bs : List Byte) :
    SameTurns (s.allocPriv pid wid core a bs).2 s := by
  unfold State.allocPriv
  grind [State.request_turns, State.coreEvent_turns, State.linkFails_turns, State.writeMem_turns, State.placeLine_turns]

@[simp] theorem State.writePriv_turns (s : State) (pid wid core : Nat) (a : Acc) (bs : List Byte) :
    SameTurns (s.writePriv pid wid core a bs).2 s := by
  unfold State.writePriv
  grind [State.modPart_turns, State.meetLine_turns, State.allocPriv_turns]

@[simp] theorem State.writeOnchip_turns (s : State) (a : Acc) (bs : List Byte) : SameTurns (s.writeOnchip a bs).2 s := by
  unfold State.writeOnchip
  (repeat' split) <;> simp

/-! ## Work -/

@[simp] theorem State.ctxWalk_turns (s : State) (slot : Fin 8) (va : Nat) : SameTurns (s.ctxWalk slot va).1 s :=
  aside_turns (State.ctxWalk_aside ..)

@[simp] theorem State.storeVa_turns (s : State) (slot : Fin 8) (va : Nat) (bs : List Byte) (master : Option Nat) :
    SameTurns (s.storeVa slot va bs master) s := by
  unfold State.storeVa
  grind [State.ctxWalk_turns, State.stallWrite_turns, State.ioWrite_turns]

@[simp] theorem State.setStatus_turns (s : State) (nid : Nat) (st : Status) : SameTurns (s.setStatus nid st) s := by
  unfold State.setStatus
  (repeat' split) <;> simp

@[simp] theorem State.orderOf_turns (s : State) (slot : Fin 8) (die : Fin 8) :
    SameTurns (s.orderOf slot die) s := by simp [State.orderOf]

@[simp] theorem State.reorder_turns (s : State) (slot : Fin 8) : SameTurns (s.reorder slot) s := by
  unfold State.reorder
  split
  · exact foldl_turns (fun t d => t.orderOf_turns slot d) _ _
  · exact .rfl

@[simp] theorem State.stopBlock_turns (s : State) (bid : Nat) : SameTurns (s.stopBlock bid) s := by
  unfold State.stopBlock
  split <;> simp

@[simp] theorem State.killNode_turns (s : State) (nid : Nat) : SameTurns (s.killNode nid) s := by
  unfold State.killNode
  split
  · exact .rfl
  · split
    · exact .rfl
    · split
      · exact s.setStatus_turns ..
      · exact foldl_turns (fun t p => t.stopBlock_turns _) _ _

@[simp] theorem State.abandonDomain_turns (s : State) (slot : Fin 8) (domain : BitVec 16) : SameTurns (s.abandonDomain slot domain) s :=
  foldl_turns (fun _ _ => by simp) _ _

/-! ## Ops -/

@[simp] theorem State.faultRecord_turns (s : State) (w : Warp) (t : Trap) (epc : DWord) :
    SameTurns (s.faultRecord w t epc) s := by simp [State.faultRecord]

@[simp] theorem State.trapAt_turns (s : State) (wid : Nat) (t : Trap) (epc : DWord) (imp slice : Bool) :
    SameTurns (s.trapAt wid t epc imp slice) s := by
  unfold State.trapAt
  (repeat' split) <;> simp

@[simp] theorem State.abandonFor_turns (s : State) (w : Warp) : SameTurns (s.abandonFor w) s := by
  unfold State.abandonFor
  (repeat' split) <;> simp

@[simp] theorem State.deliver_turns (s : State) (wid : Nat) (t : Trap) (epc : DWord) (imp slice : Bool) :
    SameTurns (s.deliver wid t epc imp slice) s := by
  unfold State.deliver
  split <;> simp

/-! ## Group -/

@[simp] theorem State.writeMembers_turns (slot : Fin 8) (record count mean var : Nat) (eps : Word) (ms : List (MemberState × Word)) :
    ∀ (s : State) (i : Nat), SameTurns (s.writeMembers slot record count mean var eps i ms).1 s := by
  induction ms with
  | nil => exact fun _ _ => .rfl
  | cons m r ih => exact fun s i => (ih _ _).trans (s.storeVa_turns ..)

@[simp] theorem State.groupCheck_turns (s : State) (gid : Nat) : SameTurns (s.groupCheck gid) s := by
  unfold State.groupCheck
  (repeat' split) <;> simp

/-! ## Endings -/

@[simp] theorem State.barFails_turns (s : State) (as : List Arrival) : SameTurns (s.barFails as) s := by
  unfold State.barFails
  refine (foldl_turns (fun t a => ?_) _ _).trans (foldl_turns (fun t a => ?_) _ _) <;> split <;> simp

@[simp] theorem State.barCheck_turns (s : State) (pid : Nat) : SameTurns (s.barCheck pid) s := by
  unfold State.barCheck
  split
  · exact .rfl
  · split
    · exact .rfl
    · split
      · exact .rfl
      · simp only
        split
        · exact foldl_turns (fun t b => by simp) _ _
        · simp

@[simp] theorem State.barcCheck_turns (s : State) (bid : Nat) : SameTurns (s.barcCheck bid) s := by
  unfold State.barcCheck
  split
  · exact .rfl
  · simp only
    split
    · exact .rfl
    · exact (foldl_turns (fun t p => t.discardGlobal_turns p) _ _).trans (foldl_turns (fun t y => t.modWarp_turns ..) _ _)

@[simp] theorem State.removeBlock_turns (s : State) (bid : Nat) (b : Block) : SameTurns (s.removeBlock bid b) s := by
  unfold State.removeBlock
  split <;> simp

@[simp] theorem State.blockCheck_turns (s : State) (bid : Nat) : SameTurns (s.blockCheck bid) s := by
  unfold State.blockCheck
  (repeat' split) <;> simp

@[simp] theorem State.endWarp_turns (s : State) (wid : Nat) : SameTurns (s.endWarp wid) s := by
  unfold State.endWarp
  split <;> simp

@[simp] theorem State.killLanes_turns (s : State) (wid : Nat) (m : Mask) : SameTurns (s.killLanes wid m) s := by
  unfold State.killLanes
  (repeat' split) <;> simp

/-! ## Arrays -/

@[simp] theorem State.baseEvent_turns (s : State) (d e k : Nat) : SameTurns (s.baseEvent d e k) s :=
  aside_turns (State.baseEvent_aside ..)

@[simp] theorem State.withReplay_turns (s : State) (n : Nat) (i j : Inst) : SameTurns (s.withReplay n i j) s := by
  unfold State.withReplay
  split <;> simp

@[simp] theorem State.giveBank_turns (s : State) (slot : Fin 8) (stack tile : Nat) (tag : BitVec 8) :
    SameTurns (s.giveBank slot stack tile tag) s := by
  unfold State.giveBank
  split <;> simp

@[simp] theorem State.passed_turns (s : State) (n u : Nat) (before : Inst) (mark : Option (BitVec 4)) :
    SameTurns (s.passed n u before mark) s := by
  unfold State.passed
  split
  · exact .rfl
  · refine foldl_turns (fun t e => ?_) _ _
    split <;> simp

theorem State.onPlaced_turns {s : State} {n : Nat} {f : Inst → State} (hf : ∀ i, SameTurns (f i) s) :
    SameTurns (s.onPlaced n f) s := by
  unfold State.onPlaced
  grind

@[simp] theorem bankAccess_turns (n bank : Nat) (s : State) : SameTurns (bankAccess n bank s) s := by
  unfold bankAccess
  grind [State.onPlaced_turns, State.modInst_turns, State.meet_turns, State.store_turns]

theorem Inst.onPort_turns (i0 : Inst) (s : State) (n port : Nat) {f : Port → State → State} (hf : ∀ x t, SameTurns (f x t) t) :
    SameTurns (i0.onPort s n port f) s := by
  unfold Inst.onPort
  grind [State.withReplay_turns, State.modInst_turns]

@[simp] theorem Port.put_turns (x : Port) (s : State) (st : PortSt) : SameTurns (x.put s st) s := by simp [Port.put]

@[simp] theorem Port.fail_turns (x : Port) (s : State) (cause : BitVec 8) : SameTurns (x.fail s cause) s := by simp [Port.fail]

@[simp] theorem Port.passed_turns (x : Port) (s : State) (marks : List (BitVec 4)) : SameTurns (x.passed s marks) s :=
  foldl_turns (fun _ _ => by simp) _ _

@[simp] theorem Port.returned_turns (s : State) (a n size : Nat) : SameTurns (Port.returned s a n size).1 s := by
  unfold Port.returned
  grind [State.meet_turns]

@[simp] theorem Port.perform_turns (x : Port) (s : State) : SameTurns (x.perform s).1 s := by
  unfold Port.perform
  grind [Port.returned_turns]

@[simp] theorem Port.chaseDrain_turns (x : Port) (s : State) (items : List PItem) : SameTurns (x.chaseDrain s items) s := by
  unfold Port.chaseDrain
  grind [Port.fail_turns, Port.put_turns, State.modInst_turns, Port.passed_turns]

@[simp] theorem streamDataReturn_turns (n port : Nat) (s : State) : SameTurns (streamDataReturn n port s) s := by
  unfold streamDataReturn
  grind [State.onPlaced_turns, Inst.onPort_turns, Port.perform_turns, Port.chaseDrain_turns, State.modInst_turns, Port.passed_turns]

/-! ## Complete -/

@[simp] theorem State.healRegs_turns (s : State) (locs : List Nat) : SameTurns (s.healRegs locs) s := by
  unfold State.healRegs
  split <;> simp

theorem Perf.fail_turns (r : Perf) (tile : Bool) (a : Acc) (s : State) (fenced : Option Nat) :
    SameTurns (r.fail tile a s fenced).s s := .rfl

theorem Perf.die_turns (r : Perf) (a : Acc) (s : State) : SameTurns (r.die a s).s s := .rfl

@[simp] theorem State.readAcc_turns (s : State) (q : Who) (sp : Space) (a : Acc) : SameTurns (s.readAcc q sp a).2 s := by
  unfold State.readAcc
  split <;> simp

@[simp] theorem State.writeAcc_turns (s : State) (q : Who) (sp : Space) (a : Acc) (bs : List Byte) :
    SameTurns (s.writeAcc q sp a bs).2 s := by
  unfold State.writeAcc
  split <;> simp

theorem Perf.zeroTile_turns (tile : Bool) (a : Acc) (r : Perf) : SameTurns (r.zeroTile tile a).s r.s := by
  unfold Perf.zeroTile
  split <;> exact .rfl

theorem Perf.lostOne_turns (r : Perf) (tile : Bool) (a : Acc) (s : State) : SameTurns (r.lostOne tile a s).s s :=
  Perf.zeroTile_turns ..

theorem Perf.readOne_turns (r : Perf) (q : Who) (sp : Space) (tile : Bool) (a : Acc) :
    SameTurns (r.readOne q sp tile a).s r.s := by
  unfold Perf.readOne
  grind [State.readAcc_turns, Perf.fail_turns, Perf.die_turns, Perf.zeroTile_turns, Perf.lostOne_turns]

theorem Perf.writeOne_turns (r : Perf) (q : Who) (sp : Space) (tile : Bool) (a : Acc) :
    SameTurns (r.writeOne q sp tile a).s r.s := by
  unfold Perf.writeOne
  grind [State.writeAcc_turns, Perf.fail_turns, Perf.die_turns]

theorem Perf.rmwOne_turns (r : Perf) (q : Who) (k : OpKind) (sp : Space) (a : Acc) :
    SameTurns (r.rmwOne q k sp a).s r.s := by
  unfold Perf.rmwOne
  grind [State.modPart_turns, State.request_turns, State.linkFails_turns, State.meet_turns, State.readPlace_turns, State.store_turns,
    State.modWarp_turns, State.readOnchip_turns, Perf.fail_turns, Perf.die_turns, Perf.lostOne_turns]

theorem Perf.one_turns (q : Who) (o : OutOp) (r : Perf) (a : Acc) : SameTurns (r.one q o a).s r.s := by
  unfold Perf.one
  split <;> simp [Perf.readOne_turns, Perf.writeOne_turns, Perf.rmwOne_turns]

theorem State.performAll_turns (s : State) (q : Who) (o : OutOp) : SameTurns (s.performAll q o).s s :=
  foldl_turns_by Perf.s (Perf.one_turns q o) _ _

@[simp] theorem State.flushLine_turns (s : State) (pid : Nat) (inv : Bool) (l : L1Line) : SameTurns (s.flushLine pid inv l) s := by
  unfold State.flushLine
  grind [State.cleanLine_turns, State.modPart_turns]

@[simp] theorem State.flushRange_turns (s : State) (pid lo n : Nat) (inv : Bool) : SameTurns (s.flushRange pid lo n inv) s := by
  unfold State.flushRange
  split
  · exact .rfl
  · exact foldl_turns (fun t l => t.flushLine_turns pid inv l) _ _

@[simp] theorem State.writeTile_turns (s : State) (base : Nat) (vals : List (Nat × Nat)) : SameTurns (s.writeTile base vals) s :=
  foldl_turns (fun _ _ => by simp) _ _

@[simp] theorem State.settle_turns (s : State) (q : Who) (w : Warp) (o : OutOp) (r : Perf) : SameTurns (s.settle q w o r) s := by
  unfold State.settle
  (repeat' split) <;> simp

@[simp] theorem State.completeOp_turns (s : State) (wid : Nat) (w : Warp) (o : OutOp) : SameTurns (s.completeOp wid w o) s := by
  unfold State.completeOp
  split <;> simp [State.performAll_turns]

@[simp] theorem completeEvent_turns (wid op : Nat) (want : OutOp → Bool) (s : State) : SameTurns (completeEvent wid op want s) s := by
  unfold completeEvent
  (repeat' split) <;> simp

/-! ## Copies -/

@[simp] theorem State.unitPlace_turns (s : State) (w : Warp) (p : Part) (sp : Space) (need : Need) (a n : Nat) :
    SameTurns (s.unitPlace w p sp need a n).1 s := by
  unfold State.unitPlace
  split <;> simp

@[simp] theorem State.readUnit_turns (s : State) (p : Place) (n : Nat) : SameTurns (s.readUnit p n).2 s := by
  unfold State.readUnit
  split <;> simp

@[simp] theorem State.writeUnit_turns (s : State) (p : Place) (bs : List Byte) : SameTurns (s.writeUnit p bs).2 s := by
  unfold State.writeUnit
  split <;> simp

theorem Moving.fail_turns (r : Moving) (s : State) (e : Option (Nat × Trap)) : SameTurns (r.fail s e).s s := .rfl

theorem Moving.read_turns (w : Warp) (p : Part) (c : Copy) (k : Nat) (r : Moving) (u : Nat × List CopyWord) :
    SameTurns (r.read w p c k u).s r.s := by
  unfold Moving.read
  grind [Moving.fail_turns, State.unitPlace_turns, State.readUnit_turns]

theorem Moving.write_turns (w : Warp) (p : Part) (c : Copy) (k : Nat) (skip : Bool) (r : Moving) (u : Nat × List CopyWord) :
    SameTurns (r.write w p c k skip u).s r.s := by
  unfold Moving.write
  grind [Moving.fail_turns, State.unitPlace_turns, State.writeUnit_turns]

@[simp] theorem State.moveChunk_turns (s : State) (w : Warp) (p : Part) (c : Copy) (k : Nat) :
    SameTurns (s.moveChunk w p c k).1 s := by
  have hr := foldl_turns_by Moving.s (Moving.read_turns w p c k)
  have hw := fun skip => foldl_turns_by Moving.s (Moving.write_turns w p c k skip)
  simp only [State.moveChunk]
  exact (hw true _ _).trans ((hw false _ _).trans (hr _ _))

@[simp] theorem State.copyFinished_turns (s : State) (id : Nat) : SameTurns (s.copyFinished id) s := by
  unfold State.copyFinished
  grind [State.modCopy_turns, State.addErr_turns, State.blockCheck_turns]

@[simp] theorem State.endCopyChunk_turns (s : State) (id k : Nat) (x : Option (Copy × Warp × Part)) :
    SameTurns (s.endCopyChunk id k x) s := by
  unfold State.endCopyChunk
  (repeat' split) <;> simp

/-! ## Fencing -/

@[simp] theorem State.dropRequests_turns (s : State) (c : Nat) : SameTurns (s.dropRequests c) s :=
  foldl_turns (fun _ _ => by simp) _ _

@[simp] theorem State.abandonCore_turns (s : State) (c : Nat) : SameTurns (s.abandonCore c) s := by
  unfold State.abandonCore
  split
  · exact .rfl
  · refine foldl_turns (fun t b => ?_) _ _
    split <;> simp

@[simp] theorem State.removeCore_turns (s : State) (c : Nat) : SameTurns (s.removeCore c) s := by
  unfold State.removeCore
  split <;> simp

@[simp] theorem State.fenceCore_turns (s : State) (c : Nat) : SameTurns (s.fenceCore c) s := by
  unfold State.fenceCore
  grind [State.fenceLog_turns, State.modFence_turns, State.endHold_turns, State.dropRequests_turns, State.abandonCore_turns,
    State.removeCore_turns]

@[simp] theorem State.readmitCheck_turns (s : State) (c : Nat) : SameTurns (s.readmitCheck c) s := by
  unfold State.readmitCheck
  grind [State.fenceLog_turns, State.eachWatch_turns, State.modFence_turns, State.endHold_turns]

@[simp] theorem State.readmits_turns (s : State) : SameTurns s.readmits s :=
  foldl_turns (fun _ _ => by simp) _ _

@[simp] theorem State.gates_turns (n : Nat) : ∀ s : State, SameTurns (s.gates n) s := by
  induction n with
  | zero => exact fun _ => .rfl
  | succ n ih =>
    intro s
    unfold State.gates
    split
    · exact s.readmits_turns
    · exact (ih _).trans (foldl_turns State.fenceCore_turns _ _)

@[simp] theorem State.gateCheck_turns (s : State) : SameTurns s.gateCheck s := by simp [State.gateCheck]

/-! ## Scan tests -/

@[simp] theorem State.chunkEnds_turns (s : State) (wid : Nat) (d : Fin 63) (status : Nat) (sig : Word) :
    SameTurns (s.chunkEnds wid d status sig) s := by simp [State.chunkEnds]

@[simp] theorem State.chunkDone_turns (s : State) (t k : Nat) (ok : Bool) : SameTurns (s.chunkDone t k ok) s := by
  unfold State.chunkDone
  grind [State.modFence_turns, State.endHold_turns, State.dropRequests_turns, State.gateCheck_turns, State.removeCore_turns,
    State.fenceLog_turns]

@[simp] theorem State.overwriteTlb_turns (s : State) (t : Nat) : SameTurns (s.overwriteTlb t) s := by simp [State.overwriteTlb]

@[simp] theorem State.endChunk_turns (s : State) (wid t k : Nat) (d : Fin 63) (w : Warp) : SameTurns (s.endChunk wid t k d w) s := by
  unfold State.endChunk
  grind [State.chunkEnds_turns, State.overwriteTlb_turns, State.chunkDone_turns]

@[simp] theorem State.preemptHold_turns (s : State) (t : Nat) : SameTurns (s.preemptHold t) s := by
  unfold State.preemptHold
  split
  · exact .rfl
  · exact (State.endHold_turns ..).trans ((State.overwriteTlb_turns ..).trans (foldl_turns (fun x w => x.chunkEnds_turns ..) _ _))

@[simp] theorem State.chunkOver_turns (s : State) (wid t k : Nat) (d : Fin 63) (w : Warp) : SameTurns (s.chunkOver wid t k d w) s := by
  unfold State.chunkOver
  split <;> simp

/-! ## Switch -/

@[simp] theorem State.clearPart_turns (s : State) (pid : Nat) : SameTurns (s.clearPart pid) s := by
  unfold State.clearPart
  split
  · exact .rfl
  · exact foldl_turns (fun t l => t.cleanLine_turns pid l) _ _

@[simp] theorem State.endChunkOf_turns (s : State) (wid : Nat) : SameTurns (s.endChunkOf wid) s := by
  unfold State.endChunkOf
  (repeat' split) <;> simp

@[simp] theorem State.performOps_turns (s : State) (wid : Nat) : SameTurns (s.performOps wid) s := by
  unfold State.performOps
  split
  · exact .rfl
  · exact foldl_turns (fun t id => completeEvent_turns ..) _ _

@[simp] theorem State.pauseCopy_turns (s : State) (id : Nat) : SameTurns (s.pauseCopy id) s := by
  unfold State.pauseCopy
  split
  · exact .rfl
  · exact foldl_turns (fun t k => t.endCopyChunk_turns ..) _ _

@[simp] theorem State.dueTrap_turns (s : State) (wid : Nat) : SameTurns (s.dueTrap wid) s := by
  unfold State.dueTrap
  (repeat' split) <;> simp

/-- The slot that leaves runs no more, and what was deferred stays (R329). -/
@[simp] theorem State.leave_turns (s : State) (o : Fin 8) : (s.leave o).deferred = s.deferred ∧ (s.leave o).running = none :=
  have h0 := foldl_turns (fun t (w : Nat × Warp) => t.dueTrap_turns w.1)
  have h1 := foldl_turns (fun t (w : Nat × Warp) => t.endChunkOf_turns w.1)
  have h2 := foldl_turns (fun t (w : Nat × Warp) => t.performOps_turns w.1)
  have h3 := foldl_turns (fun t (c : Nat × Copy) => t.pauseCopy_turns c.1)
  have h4 := foldl_turns (fun t (p : Nat × Part) => t.clearPart_turns p.1)
  have h5 := foldl_turns (fun t (b : Nat × Block) => t.endHoldsOf_turns b.1)
  ⟨((h5 _ _).trans <| (h4 _ _).trans <| (h3 _ _).trans <| (h2 _ _).trans <| (h1 _ _).trans <| h0 _ s).1, rfl⟩

@[simp] theorem State.abandonLost_turns (s : State) (n : Fin 8) (t : Nat) : SameTurns (s.abandonLost n t) s := by
  unfold State.abandonLost
  refine foldl_turns (fun u b => ?_) _ _
  cases tget u.nodes b.2.node <;> simp

@[simp] theorem State.arriveSlot_turns (s : State) (n : Fin 8) (t : Nat) :
    (s.arriveSlot n t).deferred = s.deferred ∧ (s.arriveSlot n t).running = some n := by simp [State.arriveSlot]

@[simp] theorem State.switchedEntry_turns (s : State) (a : Armed) (out into : Option (Fin 8)) (late : Bool) :
    SameTurns (s.switchedEntry a out into late) s := by simp [State.switchedEntry]

@[simp] theorem State.endBankWork_turns (s : State) (n : Nat) (i : Inst) : SameTurns (s.endBankWork n i) s :=
  foldl_turns (fun _ _ => by simp) _ _

@[simp] theorem State.endPortReads_turns (s : State) (n : Nat) (i : Inst) : SameTurns (s.endPortReads n i) s :=
  foldl_turns (fun _ _ => foldl_turns (fun t _ => streamDataReturn_turns _ _ t) _ _) _ _

@[simp] theorem State.endFirings_turns (s : State) (o : Fin 8) : SameTurns (s.endFirings o) s :=
  foldl_turns (fun _ _ => by simp) _ _

end Sys2Proof.Machine
end

section
/-! PROOF. O42: a gang switch (R329). Its steps keep the deferred effects and bring in the slot; its entry, the effects and the points
follow. -/

namespace Sys2Proof.Machine

theorem clampPoints_le (points ceilings : Vector (BitVec 3) 8) (d : Fin 8) :
    ((clampPoints points ceilings)[d]).toNat ≤ (ceilings[d]).toNat := by
  simp only [clampPoints, Fin.getElem_fin, Vector.getElem_ofFn]
  split
  · exact Nat.le_refl _
  · next h => exact BitVec.not_lt.mp h

/-- The switch misses its time (R422). -/
def State.switchLate (s : State) (a : Armed) : Bool := a.late || a.time + 250000 < s.gtime.toNat

/-- The state of `switchNow` once the outgoing slot has left. -/
def State.switchedOut (s : State) (a : Armed) : State :=
  let s0 := if s.switchLate a && !a.late then s.alert else s
  match s.running with
  | some o => (s0.endFirings o).leave o
  | none => s0

/-- The state of `switchNow` once the incoming slot has come. -/
def State.switchedIn (s : State) (a : Armed) : State :=
  match a.slot with
  | some n => (s.switchedOut a).arriveSlot n a.time
  | none => s.switchedOut a

/-- The state of `switchNow` with its entry. -/
def State.switchEntered (s : State) (a : Armed) : State :=
  ({ s.switchedIn a with armed := none }).switchedEntry a s.running a.slot (s.switchLate a)

theorem State.switchNow_eq (s : State) (a : Armed) : s.switchNow a =
    { (s.switchEntered a).applyAll with
      corePoints := clampPoints (s.switchEntered a).corePoints (s.switchEntered a).ceilings } := rfl

theorem State.switchedOut_turns (s : State) (a : Armed) :
    (s.switchedOut a).deferred = s.deferred ∧ (s.switchedOut a).running = none := by
  cases e : s.running <;> simp only [State.switchedOut, e] <;> split <;> simp [e]

theorem State.switchedIn_turns (s : State) (a : Armed) :
    (s.switchedIn a).deferred = s.deferred ∧ (s.switchedIn a).running = a.slot := by
  unfold State.switchedIn
  split
  · next e => simp [s.switchedOut_turns a, e]
  · next e => simp [s.switchedOut_turns a, e]

theorem State.switchEntered_armed (s : State) (a : Armed) : (s.switchEntered a).armed = none := rfl

theorem State.switchEntered_turns (s : State) (a : Armed) :
    (s.switchEntered a).deferred = s.deferred ∧ (s.switchEntered a).running = a.slot := by
  simp [State.switchEntered, s.switchedIn_turns a]

/-- The SWITCHED entry heads the journal (R318). -/
theorem State.switchEntered_entry (s : State) (a : Armed) : ∃ e, (s.switchEntered a).journal.head? = some e
    ∧ e.cmd = BitVec.ofNat 32 (0x80 + slotCode a.slot * 256 + slotCode s.running * 4096)
    ∧ e.result = (if s.switchLate a then 6 else 0) ∧ e.arg = BitVec.ofNat 64 a.time := ⟨_, rfl, rfl, rfl, rfl⟩

theorem State.applyAll_of_nil {s : State} (h : s.deferred = []) : s.applyAll = { s with deferred := [] } := by
  simp [State.applyAll, h]

theorem State.argAt_of_words {s : State} {c : HostCmd} {ws : Vector Word 16} (h : s.wordsAt c = ws) {n : Nat} (hn : n < 16) :
    s.argAt c n = (ws[n]).toNat := by
  subst h
  simp [State.argAt, State.wordsAt, hn]

/-- CONFIG with a threshold in range sets the table and the threshold (R103). -/
theorem configCmd_of_words {s : State} {c : HostCmd} {ws : Vector Word 16} (h : s.wordsAt c = ws) (hw : (ws[2]).toNat < 65536) :
    configCmd c s = (resOk, 0, { s with
      counterTable := some (BitVec.ofNat 64 ((ws[0]).toNat + 2 ^ 32 * (ws[1]).toNat))
      counterThreshold := BitVec.ofNat 16 (ws[2]).toNat }) := by
  have hd : (ws[2]).toNat / 2 ^ 16 = 0 := Nat.div_eq_of_lt hw
  simp only [configCmd, State.argPair, State.argAt_of_words h, Nat.zero_add, Nat.reduceLT, hd]
  rfl

/-- A CONFIG that was deferred sets the table and the threshold at the end of the switch. -/
theorem State.applyAll_config {s : State} {c : HostCmd} {ws : Vector Word 16} (h : s.deferred = [⟨10, c, ws⟩])
    (hw : (ws[2]).toNat < 65536) :
    s.applyAll = { s with
      deferred := []
      counterTable := some (BitVec.ofNat 64 ((ws[0]).toNat + 2 ^ 32 * (ws[1]).toNat))
      counterThreshold := BitVec.ofNat 16 (ws[2]).toNat } := by
  have hc := configCmd_of_words (s := { s with deferred := [], windows := s.windows.set c.win ws }) (c := c)
    (by simp [State.wordsAt]) hw
  simp only [State.applyAll, h, List.foldl_cons, List.foldl_nil, State.applyDeferred, commandOf, hc]

/-- A switch takes place when it is due, the collectives are quiet and no access waits. -/
theorem gangSwitch_of_due {s : State} {a : Armed} (ha : s.armed = some a) (ht : a.time ≤ s.gtime.toNat)
    (hr : ∀ o, s.running = some o → s.collsQuiet o a = true ∧ s.settled o = true) : gangSwitch s = s.switchNow a := by
  have he : (s.running.elim true fun o => s.collsQuiet o a && s.settled o) = true := by
    cases e : s.running with
    | none => rfl
    | some o => simp [hr o e]
  simp [gangSwitch, ha, State.switching, ht, he]

/-- An armed switch that is not due, or that the running slot holds back, does nothing. -/
theorem gangSwitch_of_waits {s : State} {a : Armed} (ha : s.armed = some a)
    (h : s.gtime.toNat < a.time ∨ ∃ o, s.running = some o ∧ (s.collsQuiet o a = false ∨ s.settled o = false)) : gangSwitch s = s := by
  obtain h | ⟨o, ho, h⟩ := h
  · simp [gangSwitch, ha, State.switching, h]
  · have he : (s.collsQuiet o a && s.settled o) = false := by
      obtain h | h := h <;> simp [h]
    simp only [gangSwitch, ha, ho, Option.elim_some, he, Bool.and_false, Bool.false_eq_true, if_false]

/-- Settles O42: the switch's steps keep the deferred effects, so that they follow its entry, and the points come down to their
ceilings. -/
theorem gangSwitches : Obligations.GangSwitches := by
  intro s a ha
  refine ⟨fun ht hr => ?_, fun o ho h => congrArg Host.Outcome.next (gangSwitch_of_waits ha (.inr ⟨o, ho, h⟩)),
    fun h => congrArg Host.Outcome.next (gangSwitch_of_waits ha (.inl h)), fun hl ht => ?_⟩
  · have hx : exec .gangSwitch s = .next (s.switchNow a) := congrArg Host.Outcome.next (gangSwitch_of_due ha ht hr)
    obtain ⟨hdef, hrun⟩ := s.switchEntered_turns a
    obtain ⟨e, he⟩ := s.switchEntered_entry a
    have harm := s.switchEntered_armed a
    rw [s.switchNow_eq a] at hx
    generalize s.switchEntered a = v at hx hdef hrun he harm
    constructor
    · intro hd
      rw [State.applyAll_of_nil (hdef.trans hd)] at hx
      exact ⟨_, e, hx, harm, hrun, rfl, clampPoints_le _ _, he⟩
    · intro c ws hd hw
      rw [State.applyAll_config (hdef.trans hd) hw] at hx
      exact ⟨_, hx, rfl, hrun, rfl, rfl⟩
  · have hx : switchOverrun s = ({ s with armed := some { a with late := true } }).alert := by
      simp [switchOverrun, ha, hl, Nat.not_le.mpr ht]
    exact ⟨_, congrArg Host.Outcome.next hx, rfl, rfl⟩

end Sys2Proof.Machine
end

section
/-! SUPPORT. The ways in which a synchronising instruction ends: a release that completes, an acquire, a wait (R33, R94, R111). -/

namespace Sys2Proof.Machine

/-! ## Releases -/

section
variable {c e : Ctx} (h : released c = some e)
include h

/-- A release that completes has its effect in the state that the write-backs leave. -/
theorem Ctx.release_of_released (body : Ctx → State) : c.release body = body e := by
  unfold released at h
  unfold Ctx.release
  split at h
  case isTrue => cases h
  case isFalse hgo =>
    rw [if_neg hgo]
    split at h
    case h_1 s1 hlines =>
      split at h
      case isTrue hdue =>
        cases h
        simp only [hlines, Option.isNone_iff_eq_none.mp hdue]
      case isFalse => cases h
    case h_2 => cases h

/-- A release concerns the stream that issues it. -/
theorem released_stream : e.wid = c.wid ∧ e.i = c.i ∧ e.slice = c.slice := by
  unfold released at h
  split at h
  case isTrue => cases h
  case isFalse =>
    split at h
    case h_1 =>
      split at h
      case isTrue =>
        cases h
        exact ⟨c.with_wid _, c.with_i _, c.with_slice _⟩
      case isFalse => cases h
    case h_2 => cases h

end

/-! ## Acquires and waits -/

/-- An instruction that finishes as an acquire leads to the warp that it leaves. -/
theorem leadsAcquiring_finishAcq {i : Instr} {s : State} {e : Ctx} {f : Warp → Warp} {v : Warp}
    (hw : tget e.s.warps e.wid = some e.w) (hexec : exec i s = .next (e.finishAcq f))
    (hv : setPc e.slice e.nextPc (f (popQueues (namedQueues (opnds e.i).vs) e.w)) = v) : LeadsAcquiring i s e v :=
  ⟨_, hexec, hv ▸ e.finishAt_tget hw _ f, e.finish_only f⟩

/-- The issuing warp stands in the state that its instruction starts from. -/
theorem Issued.here {i : Instr} {s : State} {c : Ctx} (g : Issued i s c) : tget c.s.warps c.wid = some c.w := g.st ▸ g.warp

theorem waits_of_wait {i : Instr} {s : State} {c : Ctx} {k : WaitKind} (g : Issued i s c) (hexec : exec i s = .next (c.wait k)) :
    Waits i s c k :=
  ⟨_, hexec, g.instr ▸ c.wait_tget g.here k, c.wait_only k⟩

end Sys2Proof.Machine
end

section
/-! PROOF. O24. Fences, and waits for the counters (R111, R117, R192, R194, R221). -/

namespace Sys2Proof.Machine

theorem fencesReleaseAndAcquire : FencesReleaseAndAcquire := by
  intro sc s c e hr hsc hrel hw
  obtain ⟨-, hi, hslice⟩ := released_stream hrel
  have g := issued_of_ready hr
  refine leadsAcquiring_finishAcq (f := id) hw ((issue_ready hr _).trans (congrArg _ ?_)) ?_
  · rw [if_neg hsc, Ctx.release_of_released hrel]
  · rw [hi, g.instr, hslice, g.noSlice rfl]
    rfl

/-- The four counters are at their limits, each by itself (R194). -/
theorem State.countsOk_iff (s : State) (wid : Nat) (w : Warp) (l st cp t : Nat) : s.countsOk wid w l st cp t = true ↔
    s.counter wid w .loads ≤ l ∧ s.counter wid w .stores ≤ st ∧ s.counter wid w .copies ≤ cp ∧ s.counter wid w .tiles ≤ t := by
  simp only [State.countsOk, Bool.and_eq_true, decide_eq_true_eq, and_assoc]

theorem acquiresCopies_iff (w : Warp) (m : Nat) : acquiresCopies w m = true ↔ m < w.issued[(2 : Fin 4)] := decide_eq_true_iff

section
variable {l st cp t : BitVec 6} {s : State} {c : Ctx} (hr : ready (.waitc l st cp t) s = some c)
include hr

/-- A `waitc` within its limits goes on, as an acquire where the warp has issued more copies than its limit (R117, R194). -/
theorem exec_waitc_within (hok : c.s.countsOk c.wid c.w l.toNat st.toNat cp.toNat t.toNat = true) :
    exec (.waitc l st cp t) s = .next (if acquiresCopies c.w cp.toNat then c.finishAcq id else c.finish id) :=
  (issue_ready hr _).trans (congrArg _ (if_pos hok))

theorem exec_waitc_over (hover : ¬ c.s.countsOk c.wid c.w l.toNat st.toNat cp.toNat t.toNat = true) :
    exec (.waitc l st cp t) s = .next (c.wait (.waitc l.toNat st.toNat cp.toNat t.toNat c.w.issued)) :=
  (issue_ready hr _).trans (congrArg _ (if_neg hover))

end

theorem waitcWaitsForTheCounters : WaitcWaitsForTheCounters := by
  intro l st cp t s c hr
  have g := issued_of_ready hr
  have hslice := g.noSlice rfl
  have hcounts := c.s.countsOk_iff c.wid c.w l.toNat st.toNat cp.toNat t.toNat
  rw [g.st] at hcounts
  refine ⟨fun hin hall => ?_, fun hin hmore => ?_, fun hover => ?_⟩
  · have hacq : ¬ acquiresCopies c.w cp.toNat = true := mt (acquiresCopies_iff ..).mp (Nat.not_lt.mpr hall)
    refine leadsFrom_finish hr ((exec_waitc_within hr (g.st ▸ hcounts.mpr hin)).trans (congrArg _ (if_neg hacq))) ?_
    rw [hslice]
    rfl
  · have hacq := (acquiresCopies_iff ..).mpr hmore
    refine leadsAcquiring_finishAcq g.here ((exec_waitc_within hr (g.st ▸ hcounts.mpr hin)).trans (congrArg _ (if_pos hacq))) ?_
    rw [hslice, g.instr]
    rfl
  · exact waits_of_wait g (exec_waitc_over hr (g.st ▸ mt hcounts.mp hover))

/-- Settles O24: a fence is a release whose effect is an acquire; a `waitc` goes on exactly where its counters are at their limits. -/
theorem fencesAndCounterWaits : Obligations.FencesAndCounterWaits := ⟨fencesReleaseAndAcquire, waitcWaitsForTheCounters⟩

end Sys2Proof.Machine
end

section
/-! PROOF. O26. `sleept` and the promise of a copy (R117, R224). -/

namespace Sys2Proof.Machine

section
variable {a : SOp} {k : Word} {s : State} {c : Ctx} (hr : ready (.sleept a k) s = some c)
include hr

theorem exec_sleept_ahead (hahead : future (c.s.gtime.setWidth 32) (c.sv a) = true) :
    exec (.sleept a k) s = .next (c.wait (.sleept (c.sv a))) :=
  (issue_ready hr _).trans (congrArg _ (if_pos hahead))

/-- A `sleept` whose promise does not lie in the future goes on, unless the copy that gave the promise has not finished (R224). -/
theorem exec_sleept_on {acq : Bool} (hpast : future (c.s.gtime.setWidth 32) (c.sv a) = false)
    (hwakes : c.s.wakes c.wid (c.sv a) = (none, acq)) :
    exec (.sleept a k) s = .next (if acq then c.finishAcq id else c.finish id) := by
  refine (issue_ready hr _).trans (congrArg _ ?_)
  simp only [hpast, hwakes, Bool.false_eq_true, if_false]
  cases acq <;> rfl

theorem exec_sleept_broken {acq : Bool} {t : Trap} (hpast : future (c.s.gtime.setWidth 32) (c.sv a) = false)
    (hwakes : c.s.wakes c.wid (c.sv a) = (some t, acq)) : exec (.sleept a k) s = .next (c.raiseFull t) := by
  refine (issue_ready hr _).trans (congrArg _ ?_)
  simp only [hpast, hwakes, Bool.false_eq_true, if_false]

end

/-- R117, R224: what the copy that gave a promise calls for. -/
theorem State.wakes_of_copy {s : State} {wid : Nat} {p : Word} {y : Copy} (h : s.copyOfPromise wid p = some y) :
    s.wakes wid p = if y.finished then (none, true) else (some { code := 0x07, value := p.setWidth 64 }, true) := by
  rw [State.wakes, h]

/-- Settles O26, by the copy of the promise, where there is one. -/
theorem sleeptSleeps : Obligations.SleeptSleeps := by
  intro a k s c hr
  have g := issued_of_ready hr
  have hslice := g.noSlice rfl
  have hst := g.st
  subst hst
  refine ⟨fun hahead => ?_, fun hpast hnone => ?_, fun y hpast hcopy hfin => ?_, fun y hpast hcopy hfin hh => ?_⟩
  · exact waits_of_wait g (exec_sleept_ahead hr hahead)
  · have hwakes : c.s.wakes c.wid (c.sv a) = (none, false) := by rw [State.wakes, hnone]
    refine leadsFrom_finish hr (exec_sleept_on hr hpast hwakes) ?_
    rw [hslice]
    rfl
  · have hwakes := (State.wakes_of_copy hcopy).trans (if_pos hfin)
    refine leadsAcquiring_finishAcq g.here (exec_sleept_on hr hpast hwakes) ?_
    rw [hslice, g.instr]
    rfl
  · have hwakes := (State.wakes_of_copy hcopy).trans (if_neg (Bool.eq_false_iff.mp hfin))
    obtain ⟨hwarp, honly⟩ := Ctx.raise_handled g.here hslice hh g.notStopped 0x07 ((c.sv a).setWidth 64)
    exact ⟨_, exec_sleept_broken hr hpast hwakes, hwarp, honly⟩

end Sys2Proof.Machine
end

section
/-! PROOF. O27. A copy that passes its checks starts (R111, R117, R197-R200). -/

namespace Sys2Proof.Machine

/-- A copy moves some byte exactly where its rows hold one. -/
theorem Desc.moves_iff (x : Desc) : x.moves = true ↔ x.len * x.rows ≠ 0 := by
  simp only [Desc.moves, Bool.and_eq_true, bne_iff_ne, Nat.mul_ne_zero_iff]

/-- The ranges that the locks of a copy hold: none where it moves nothing (R198). -/
def Desc.keys (x : Desc) (ks : List (Nat × Nat)) : List (Nat × Nat) := if x.moves then ks else []

/-- The copy as it starts (R199). -/
def Ctx.newCopy (e : Ctx) (dsp ssp : Space) (x : Desc) (sk dk : List (Nat × Nat)) : Copy :=
  { slot := e.w.slot, wid := e.wid, core := e.core, seq := e.seqOf .copies, dsp := dsp, ssp := ssp,
    src := BitVec.ofNat 64 x.src, dst := BitVec.ofNat 64 x.dst, len := x.len, rows := x.rows, spitch := x.spitch,
    dpitch := x.dpitch, promise := BitVec.ofNat 32 (e.promiseOf x), srcKeys := sk, dstKeys := dk, moved := [], fetched := [],
    lost := [], next := min 4 (chunksOf x.len x.rows), running := List.range (min 4 (chunksOf x.len x.rows)), error := none,
    finished := !x.moves, delivered := false }

/-- What the issue of a copy does to its warp (R117, R192). -/
def Ctx.leavePromise (e : Ctx) (d : Fin 63) (x : Desc) (w : Warp) : Warp :=
  { setS false (.s d) (BitVec.ofNat 32 (e.promiseOf x)) w with
    issued := w.issued.set (ctrIdx .copies) (w.issued[ctrIdx .copies] + 1)
    lastPromise := if x.moves then some (e.promiseOf x) else w.lastPromise }

/-- The warp that has issued a copy in its own stream. -/
def Ctx.promised (e : Ctx) (d : Fin 63) (x : Desc) : Warp :=
  { wrote e d (BitVec.ofNat 32 (e.promiseOf x)) with
    issued := e.w.issued.set 2 (e.w.issued[(2 : Fin 4)] + 1)
    lastPromise := if x.moves then some (e.promiseOf x) else e.w.lastPromise }

/-- A copy that starts leaves its promise in its warp, and stands behind the other copies. -/
theorem Ctx.startCopy_leaves {e : Ctx} {d : Fin 63} {a : SOp} {dsp ssp : Space} (hw : tget e.s.warps e.wid = some e.w)
    (hi : e.i = .copy (.s d) a dsp ssp) (hslice : e.slice = false) (x : Desc) (sk dk : List (Nat × Nat)) :
    tget (e.startCopy (.s d) dsp ssp x sk dk).warps e.wid = some (e.promised d x)
      ∧ (e.startCopy (.s d) dsp ssp x sk dk).copies = e.s.copies ++ [(e.s.nextId, e.newCopy dsp ssp x sk dk)]
      ∧ (e.startCopy (.s d) dsp ssp x sk dk).mem = e.s.mem := by
  have hwarp := e.finishAt_tget hw e.nextPc (e.leavePromise d x)
  have honly := e.finish_only (e.leavePromise d x)
  rw [hi, hslice] at hwarp
  have hcopies := congrArg State.copies honly.rest
  have hnext := congrArg State.nextId honly.rest
  have hmem := congrArg State.mem honly.rest
  refine ⟨hwarp.trans (congrArg some ?_), congrArg₂ (fun l k => l ++ [(k, e.newCopy dsp ssp x sk dk)]) hcopies hnext, hmem⟩
  simp only [setPc, Ctx.leavePromise, setS, setSreg, d.isLt, dif_pos, Bool.false_eq_true, if_false]
  rfl

section
variable {d : Fin 63} {a : SOp} {dsp ssp : Space} {s : State} {c e : Ctx} {sr dr : Int × Int}
  (hr : ready (.copy (.s d) a dsp ssp) s = some c) (hp : CopyPasses c e a dsp ssp sr dr)
include hr hp

/-- A copy that passes its checks starts, in the state that its release leaves (R117, R198). -/
theorem exec_copy_passes : exec (.copy (.s d) a dsp ssp) s = .next (e.startCopy (.s d) dsp ssp (c.desc a dsp ssp)
    ((c.desc a dsp ssp).keys (c.keyRanges ssp sr.1 sr.2)) ((c.desc a dsp ssp).keys (c.keyRanges dsp dr.1 dr.2))) := by
  obtain ⟨hroom, haligned, rfl, rfl, hsrc, hdst, hapart, hlocks, hrel⟩ := hp
  have hnone : (c.desc a dsp ssp).aligned.find? (fun v => v % 4 != 0) = none :=
    List.find?_eq_none.mpr fun v hv => by simp [haligned v hv]
  refine (issue_ready hr _).trans (congrArg _ ?_)
  simp only [Ctx.full_eq_false hroom, hnone, Ctx.copyRanges, hsrc, hdst, hapart, Bool.not_true, Bool.false_eq_true, if_false]
  cases hmoves : (c.desc a dsp ssp).moves with
  | false => simp only [Desc.keys, hmoves, Bool.not_false, if_true, Bool.false_eq_true, if_false, Ctx.release_of_released hrel]
  | true =>
    simp only [Desc.keys, hmoves, Bool.not_true, Bool.false_eq_true, if_false, if_true, Nat.not_lt.mpr (hlocks hmoves),
      Ctx.release_of_released hrel]

end

/-- Settles O27: such a copy starts, with what its descriptor gives. -/
theorem copiesStart : Obligations.CopiesStart := by
  intro d a dsp ssp s c e sr dr hr hp hw x now p
  have g := issued_of_ready hr
  obtain ⟨-, hi, hslice⟩ := released_stream hp.free
  obtain ⟨hwarp, hcopies, hmem⟩ := Ctx.startCopy_leaves hw (hi.trans g.instr) (hslice.trans (g.noSlice rfl)) x
    (x.keys (c.keyRanges ssp sr.1 sr.2)) (x.keys (c.keyRanges dsp dr.1 dr.2))
  have hpromise : e.promiseOf x = p := by
    simp only [Ctx.promiseOf, x.moves_iff, p, ite_not]
    rfl
  refine ⟨_, _, _, exec_copy_passes hr hp, hwarp, ?_, hcopies, hmem, rfl, rfl, rfl, rfl, rfl, rfl, rfl, congrArg (BitVec.ofNat 32) hpromise, rfl,
    fun hzero => ?_, fun hmore => ?_⟩
  · simp only [Ctx.promised, hpromise, x.moves_iff, ite_not]
  · have hmoves : x.moves = false := Bool.eq_false_iff.mpr (mt x.moves_iff.mp (not_not.mpr hzero))
    simp only [Ctx.newCopy, Desc.keys, hmoves, Bool.not_false, Bool.false_eq_true, if_false, and_self]
  · have hmoves : x.moves = true := x.moves_iff.mpr hmore
    simp only [Ctx.newCopy, Desc.keys, hmoves, Bool.not_true, if_true, and_self]

end Sys2Proof.Machine
end

section
/-! SUPPORT. The barrier of a part (R216): who takes part in it, what its arrivals wait for, and what its completion leaves. -/

namespace Sys2Proof.Machine

/-! ## Entries of a table -/

theorem mem_tmod_other {α : Type} {k j : Nat} {v : α} (f : α → α) {t : Tab α} (h : (j, v) ∈ t) (hj : j ≠ k) : (j, v) ∈ tmod t k f := by
  induction t with
  | nil => exact absurd h List.not_mem_nil
  | cons p r ih =>
    obtain ⟨i, u⟩ := p
    unfold tmod
    obtain hhead | htail := List.mem_cons.mp h
    · obtain ⟨rfl, rfl⟩ := Prod.mk.inj hhead
      rw [if_neg hj]
      exact List.mem_cons_self
    · split
      · exact List.mem_cons_of_mem _ htail
      · exact List.mem_cons_of_mem _ (ih htail)

/-- An entry of the changed table is an entry of the table, or one changed. -/
theorem of_mem_tmod {α : Type} {k : Nat} {f : α → α} {t : Tab α} {x : Nat × α} (h : x ∈ tmod t k f) :
    ∃ u, (x.1, u) ∈ t ∧ (x.2 = u ∨ x.2 = f u) := by
  induction t with
  | nil => exact absurd h List.not_mem_nil
  | cons p r ih =>
    obtain ⟨i, u⟩ := p
    unfold tmod at h
    split at h
    · obtain rfl | htail := List.mem_cons.mp h
      · exact ⟨u, List.mem_cons_self, .inr rfl⟩
      · exact ⟨x.2, List.mem_cons_of_mem _ htail, .inl rfl⟩
    · obtain rfl | htail := List.mem_cons.mp h
      · exact ⟨u, List.mem_cons_self, .inl rfl⟩
      · obtain ⟨v, hv, he⟩ := ih htail
        exact ⟨v, List.mem_cons_of_mem _ hv, he⟩

/-! ## Arrivals -/

/-- The arrival of the issuing warp at the barrier of its part. -/
def Ctx.arrival (e : Ctx) (op : Option FoldOp) (x : Word) (d : Option (Fin 63)) : Arrival := ⟨e.wid, op, x, d, firstWord e.i⟩

/-- The state in which the barrier of the part is looked at: the warp waits, and its arrival is noted (R216). -/
def Ctx.arrived (e : Ctx) (op : Option FoldOp) (x : Word) (d : Option (Fin 63)) : State :=
  (e.wait .bar).modPart e.w.part fun p => { p with bar := p.bar ++ [e.arrival op x d] }

theorem Ctx.arrive_eq (e : Ctx) (op : Option FoldOp) (x : Word) (d : Option (Fin 63)) :
    e.arrive op x d = (e.arrived op x d).barCheck e.w.part := rfl

/-- The wait of a warp at the barrier of its part. -/
def Ctx.barWait (e : Ctx) : Waiting := ⟨.bar, e.i.length, e.s.gtime.toNat⟩

/-- A warp that waits at the barrier of its part. -/
def Ctx.atBar (e : Ctx) (w : Warp) : Warp := { w with wait := some e.barWait }

section
variable (e : Ctx) (op : Option FoldOp) (x : Word) (d : Option (Fin 63))

theorem Ctx.arrived_warps : (e.arrived op x d).warps = tmod e.s.warps e.wid e.atBar := by
  simp only [Ctx.arrived, Ctx.wait, State.modPart_warps, State.modWarp_warps, State.coreEvent_warps]
  rfl

theorem Ctx.arrived_mem : (e.arrived op x d).mem = e.s.mem := State.coreEvent_mem ..

theorem Ctx.arrived_part {p : Part} (hp : tget e.s.parts e.w.part = some p) :
    tget (e.arrived op x d).parts e.w.part = some { p with bar := p.bar ++ [e.arrival op x d] } := by
  refine tget_tmod_of_some _ ?_
  rwa [Ctx.wait, State.modWarp_parts, State.coreEvent_parts]

/-- Every warp keeps its warp index while it waits. -/
theorem Ctx.arrived_index (k : Nat) : (tget (e.arrived op x d).warps k).map (·.index) = (tget e.s.warps k).map (·.index) := by
  rw [e.arrived_warps]
  by_cases hk : k = e.wid
  · subst hk
    rw [tget_tmod_self, Option.map_map]
    rfl
  · rw [tget_tmod_other _ _ _ _ hk]

/-- A participant is one whether it waits or not. -/
theorem Ctx.participant_arrived {y : Nat × Warp} (h : y ∈ (e.arrived op x d).participants e.w.part) :
    ∃ u, (y.1, u) ∈ e.s.warps ∧ u.part = e.w.part ∧ u.spawned = false ∧ u.ended = false := by
  obtain ⟨hmem, hpart⟩ := List.mem_filter.mp h
  rw [e.arrived_warps] at hmem
  obtain ⟨u, hu, heq⟩ := of_mem_tmod hmem
  simp only [Bool.and_eq_true, beq_iff_eq, Bool.not_eq_true'] at hpart
  obtain ⟨⟨hpid, hspawned⟩, hended⟩ := hpart
  refine ⟨u, hu, ?_⟩
  obtain heq | heq := heq
  · exact heq ▸ ⟨hpid, hspawned, hended⟩
  · rw [heq] at hpid hspawned hended
    exact ⟨hpid, hspawned, hended⟩

end

/-! ## The checks of a barrier -/

theorem Ctx.barChecked_passes {c : Ctx} (hspawned : c.w.spawned = false) (hpath : hasPath c.w.stack = false) (body : State) :
    c.barChecked body = body := by
  rw [Ctx.barChecked, hspawned, hpath, Bool.or_self, if_neg Bool.false_ne_true]

/-! ## A barrier that is not complete -/

/-- A barrier at which a participant is missing stays as it is (R216). -/
theorem State.barCheck_missing {s : State} {pid : Nat} {p : Part} (hp : tget s.parts pid = some p) {y : Nat × Warp}
    (hy : y ∈ s.participants pid) (hmissing : ∀ b ∈ p.bar, b.wid ≠ y.1) : s.barCheck pid = s := by
  have hall : ((s.participants pid).all fun z => p.bar.any fun b => b.wid == z.1) = false :=
    List.all_eq_false.mpr ⟨y, hy, by simpa using hmissing⟩
  unfold State.barCheck
  simp only [hp, hall, Bool.not_false, if_true]
  split <;> rfl

/-! ## A barrier that completes -/

/-- The barrier begins anew. -/
def State.barOpened (s : State) (pid : Nat) : State := s.modPart pid fun q => { q with bar := [] }

theorem State.barOpened_part {s : State} {pid : Nat} {p : Part} (hp : tget s.parts pid = some p) :
    tget (s.barOpened pid).parts pid = some { p with bar := [] } := tget_tmod_of_some _ hp

/-- The arrived warps leave the barrier one after the other, each as an acquire (R111, R216). -/
def State.leaveAll (pid : Nat) (x : Word) (f : Flags) (s : State) (as : List Arrival) : State :=
  as.foldl (fun t b => (t.modWarp b.wid (leaveBar b x f)).discardGlobal pid) s

/-- Once every participant has arrived with one operation, all of them leave with its result (R183, R216). -/
theorem State.barCheck_completes {s : State} {pid : Nat} {p : Part} {op : FoldOp} (hp : tget s.parts pid = some p) (hne : p.bar ≠ [])
    (hall : ∀ y ∈ s.participants pid, ∃ b ∈ p.bar, b.wid = y.1) (hop : ∀ b ∈ p.bar, b.op = some op) :
    s.barCheck pid = (s.barOpened pid).leaveAll pid
      (foldTree op 6 ((List.range 64).map (s.leafAt p.bar))).1 (foldTree op 6 ((List.range 64).map (s.leafAt p.bar))).2 p.bar := by
  obtain ⟨a, r, hbar⟩ := List.exists_cons_of_ne_nil hne
  have harrived : ((s.participants pid).all fun y => p.bar.any fun b => b.wid == y.1) = true :=
    List.all_eq_true.mpr fun y hy => List.any_eq_true.mpr (by simpa using hall y hy)
  have ha : a.op = some op := hop a (hbar ▸ List.mem_cons_self)
  have hagree : (r.all fun b => b.op == some op) = true :=
    List.all_eq_true.mpr fun b hb => beq_iff_eq.mpr (hop b (hbar ▸ List.mem_cons_of_mem _ hb))
  rw [hbar] at harrived
  unfold State.barCheck
  simp only [hp, hbar, harrived, hagree, ha, Bool.not_true, Bool.false_eq_true, if_false, if_true]
  rfl

section
variable (pid : Nat) (x : Word) (f : Flags)

theorem State.leaveAll_mem (as : List Arrival) : ∀ s : State, (s.leaveAll pid x f as).mem = s.mem := by
  induction as with
  | nil => exact fun _ => rfl
  | cons a r ih => exact fun s => ih _

/-- The warps that leave discard lines of the part, and leave its barrier as it is. -/
theorem State.leaveAll_part (as : List Arrival) : ∀ {s : State} {p : Part}, tget s.parts pid = some p →
    ∃ q, tget (s.leaveAll pid x f as).parts pid = some q ∧ q.bar = p.bar := by
  induction as with
  | nil => exact fun {_ p} h => ⟨p, h, rfl⟩
  | cons a r ih =>
    intro s p h
    have hpart : tget ((s.modWarp a.wid (leaveBar a x f)).discardGlobal pid).parts pid = some _ := tget_tmod_of_some _ h
    obtain ⟨q, hq, hbar⟩ := ih hpart
    exact ⟨q, hq, hbar⟩

theorem State.leaveAll_other {k : Nat} (as : List Arrival) : ∀ {s : State}, k ∉ as.map (·.wid) →
    tget (s.leaveAll pid x f as).warps k = tget s.warps k := by
  induction as with
  | nil => exact fun {_} _ => rfl
  | cons a r ih =>
    intro s h
    obtain ⟨ha, hr⟩ := not_or.mp (mt List.mem_cons.mpr h)
    exact (ih hr).trans (tget_tmod_other _ _ _ _ ha)

/-- A warp that has arrived once leaves once. -/
theorem State.leaveAll_arrived {b : Arrival} {u : Warp} (as : List Arrival) : ∀ {s : State}, b ∈ as → (as.map (·.wid)).Nodup →
    tget s.warps b.wid = some u → tget (s.leaveAll pid x f as).warps b.wid = some (leaveBar b x f u) := by
  induction as with
  | nil => exact fun {_} h => absurd h List.not_mem_nil
  | cons a r ih =>
    intro s hb hnodup hu
    obtain ⟨ha, hr⟩ := List.nodup_cons.mp hnodup
    obtain rfl | hmem := List.mem_cons.mp hb
    · exact (State.leaveAll_other pid x f r ha).trans (tget_tmod_of_some _ hu)
    · have hne : b.wid ≠ a.wid := fun e => ha (List.mem_map.mpr ⟨b, hmem, e⟩)
      exact ih hmem hr ((tget_tmod_other _ _ _ _ hne).trans hu)

end

/-- A warp that leaves with a payload goes on behind its `bar` with the result, and with the flags of the combination (R216). -/
theorem leaveBar_payload {b : Arrival} {d : Fin 63} {u : Warp} {k : Waiting} (hd : b.d = some d) (hk : u.wait = some k) (x : Word)
    (f : Flags) : (leaveBar b x f u).wait = none ∧ (leaveBar b x f u).pc = u.pc + BitVec.ofNat 64 k.len
      ∧ (leaveBar b x f u).sregs = u.sregs.set d x ∧ (leaveBar b x f u).fflags = u.fflags ||| f := by
  have hwait : (accrue (setSreg u d.val x) f).wait = some k := by
    simp only [accrue, setSreg, d.isLt, dif_pos, hk]
  have hleave : leaveBar b x f u = k.passed (accrue (setSreg u d.val x) f) := by
    rw [leaveBar, hd]
    exact endWait_of_wait hwait
  simp only [hleave, Waiting.passed, accrue, setSreg, d.isLt, dif_pos, and_self]

end Sys2Proof.Machine
end

section
/-! PROOF. O22. `bar` and `barc` release, arrive and wait, and a complete `bar` lets its warps go on (R75, R111, R183, R216, R217). -/

namespace Sys2Proof.Machine

/-! ## Arriving -/

section
variable {s : State} {c e : Ctx} (hspawned : c.w.spawned = false) (hpath : hasPath c.w.stack = false) (hrel : released c = some e)
include hspawned hpath hrel

/-- What a barrier's instruction does once its checks are passed and its release has completed. -/
theorem Ctx.barChecked_released (body : Ctx → State) : c.barChecked (c.release body) = body e :=
  (Ctx.barChecked_passes hspawned hpath _).trans (Ctx.release_of_released hrel body)

theorem exec_bar_plain {d a : SOp} {k : Word} (hr : ready (.bar d a none k) s = some c) :
    exec (.bar d a none k) s = .next (e.arrive none 0 none) :=
  (issue_ready hr _).trans (congrArg _ (Ctx.barChecked_released hspawned hpath hrel _))

theorem exec_bar_payload {d : Fin 63} {a : SOp} {op : FoldOp} {k : Word} (hr : ready (.bar (.s d) a (some op) k) s = some c) :
    exec (.bar (.s d) a (some op) k) s = .next (e.arrive (some op) (e.sv a) (some d)) :=
  (issue_ready hr _).trans (congrArg _ (Ctx.barChecked_released hspawned hpath hrel _))

theorem exec_barc (hr : ready .barc s = some c) : exec .barc s = .next (if e.blockParts = 1 then e.arrive none 0 none
    else ((e.wait .barc).modBlock e.w.block fun b => { b with barc := b.barc ++ [(e.wid, firstWord e.i)] }).barcCheck e.w.block) :=
  (issue_ready hr _).trans (congrArg _ (Ctx.barChecked_released hspawned hpath hrel _))

end

theorem barriersArrive : BarriersArrive := by
  intro s c e hspawned hpath hrel
  refine ⟨fun d a k hr => exec_bar_plain hspawned hpath hrel hr, fun d a op k hr => exec_bar_payload hspawned hpath hrel hr,
    fun hr hone => ?_, fun hr hmore => ?_⟩
  · exact (exec_barc hspawned hpath hrel hr).trans (congrArg _ (if_pos hone))
  · have hi : e.i = .barc := (released_stream hrel).2.1.trans (issued_of_ready hr).instr
    refine (exec_barc hspawned hpath hrel hr).trans (congrArg _ ((if_neg hmore).trans ?_))
    rw [hi]

/-! ## Waiting -/

theorem barWaitsForTheOthers : BarWaitsForTheOthers := by
  intro s c e d a k p j u hr hspawned hpath hrel hw hp hbar hj hu hpart husp huend
  have hi : e.i = .bar d a none k := (released_stream hrel).2.1.trans (issued_of_ready hr).instr
  have hp' := e.arrived_part none 0 none hp
  have hy : (j, u) ∈ (e.arrived none 0 none).participants e.w.part := by
    refine List.mem_filter.mpr ⟨?_, by simp [hpart, husp, huend]⟩
    rw [e.arrived_warps]
    exact mem_tmod_other _ hu hj
  have hstays : e.arrive none 0 none = e.arrived none 0 none := by
    refine (e.arrive_eq ..).trans (State.barCheck_missing hp' hy fun b hb => ?_)
    rw [hbar, List.nil_append, List.mem_singleton] at hb
    exact hb ▸ hj.symm
  refine ⟨_, exec_bar_plain hspawned hpath hrel hr, ?_, ?_, ?_⟩ <;> rw [hstays]
  · rw [e.arrived_warps, ← hi]
    exact tget_tmod_of_some _ hw
  · rw [hp', hbar, ← hi]
    rfl
  · exact e.arrived_mem ..

/-! ## Completing -/

/-- R183, R216: the combination of all payloads by warp index. -/
def Ctx.barResult (e : Ctx) (op : FoldOp) (as : List Arrival) : Word × Flags := foldTree op 6 ((List.range 64).map fun i =>
  (as.find? fun b => (tget e.s.warps b.wid).elim false fun v => v.index.toNat == i).map (·.payload))

/-- The payload at a warp index is that of the first arrival of a warp with it. -/
theorem Ctx.leafAt_arrived (e : Ctx) (op : Option FoldOp) (x : Word) (d : Option (Fin 63)) (as : List Arrival) (i : Nat) :
    (e.arrived op x d).leafAt as i
      = (as.find? fun b => (tget e.s.warps b.wid).elim false fun v => v.index.toNat == i).map (·.payload) := by
  have helim (o : Option Warp) : (o.elim false fun v => v.index.toNat == i) = (o.map (·.index)).elim false fun n => n.toNat == i := by
    cases o <;> rfl
  simp only [State.leafAt, helim, e.arrived_index]

/-- The last arrival completes the barrier: every arrived warp leaves with the combination of the payloads. -/
theorem Ctx.arrive_completes {e : Ctx} {op : FoldOp} {x : Word} {d : Fin 63} {p : Part} (hp : tget e.s.parts e.w.part = some p)
    (hall : ∀ y ∈ e.s.warps, y.2.part = e.w.part → y.2.spawned = false → y.2.ended = false →
      ∃ b ∈ p.bar ++ [e.arrival (some op) x (some d)], b.wid = y.1)
    (hop : ∀ b ∈ p.bar, b.op = some op) :
    e.arrive (some op) x (some d) = ((e.arrived (some op) x (some d)).barOpened e.w.part).leaveAll e.w.part
      (e.barResult op (p.bar ++ [e.arrival (some op) x (some d)])).1 (e.barResult op (p.bar ++ [e.arrival (some op) x (some d)])).2
      (p.bar ++ [e.arrival (some op) x (some d)]) := by
  have hleaf := e.leafAt_arrived (some op) x (some d) (p.bar ++ [e.arrival (some op) x (some d)])
  have hne : p.bar ++ [e.arrival (some op) x (some d)] ≠ [] := by simp
  rw [e.arrive_eq, State.barCheck_completes (e.arrived_part _ _ _ hp) hne (op := op) ?_ ?_, Ctx.barResult, funext hleaf]
  · intro y hy
    obtain ⟨u, hu, hpart, husp, huend⟩ := e.participant_arrived _ _ _ hy
    exact hall (y.1, u) hu hpart husp huend
  · intro b hb
    obtain hb | hb := List.mem_append.mp hb
    · exact hop b hb
    · rw [List.mem_singleton.mp hb]
      rfl

theorem barCompletes : BarCompletes := by
  intro s c e d a op k p hr hspawned hpath hrel hw hp all hall hop hnodup at_ r
  have hi : e.i = .bar (.s d) a (some op) k := (released_stream hrel).2.1.trans (issued_of_ready hr).instr
  have hlast : p.bar ++ [e.arrival (some op) (e.sv a) (some d)] = all := by rw [Ctx.arrival, hi]
  have hcomplete := Ctx.arrive_completes hp (hlast ▸ hall) hop
  rw [hlast] at hcomplete
  have hp' := e.arrived_part (some op) (e.sv a) (some d) hp
  have hresult : e.barResult op all = r := rfl
  clear_value r
  rw [hresult] at hcomplete
  obtain ⟨q, hq, hqbar⟩ := State.leaveAll_part e.w.part r.1 r.2 all (State.barOpened_part hp')
  have hleaves {b : Arrival} {u : Warp} (hb : b ∈ all) (hu : tget (e.arrived (some op) (e.sv a) (some d)).warps b.wid = some u) :=
    State.leaveAll_arrived e.w.part r.1 r.2 all
      (s := (e.arrived (some op) (e.sv a) (some d)).barOpened e.w.part) hb hnodup hu
  have hmem := (State.leaveAll_mem e.w.part r.1 r.2 all ((e.arrived (some op) (e.sv a) (some d)).barOpened e.w.part)).trans
    (e.arrived_mem (some op) (e.sv a) (some d))
  refine ⟨_, q, (exec_bar_payload hspawned hpath hrel hr).trans (congrArg _ hcomplete), hq, hqbar, hmem, ?_, fun b hb x u g hd hu hg => ?_⟩
  · have hwaits : tget (e.arrived (some op) (e.sv a) (some d)).warps e.wid = some (e.atBar e.w) := by
      rw [e.arrived_warps]
      exact tget_tmod_of_some _ hw
    have hmine : e.arrival (some op) (e.sv a) (some d) ∈ all := hlast ▸ List.mem_append_right _ (List.mem_singleton_self _)
    have hgone := leaveBar_payload (b := e.arrival (some op) (e.sv a) (some d)) (u := e.atBar e.w) rfl rfl r.1 r.2
    rw [← hi]
    exact ⟨_, hleaves hmine hwaits, hgone⟩
  · have hne : b.wid ≠ e.wid := by
      rw [List.map_append, List.nodup_append] at hnodup
      exact hnodup.2.2 _ (List.mem_map_of_mem hb) _ (List.mem_singleton_self _)
    have hu' : tget (e.arrived (some op) (e.sv a) (some d)).warps b.wid = some u := by
      rw [e.arrived_warps, tget_tmod_other _ _ _ _ hne]
      exact hu
    exact ⟨_, hleaves (List.mem_append_left _ hb) hu', leaveBar_payload hd hg r.1 r.2⟩

/-- Settles O22: a barrier's instruction arrives in the state that its release leaves, and the last arrival completes the barrier. -/
theorem blockBarriers : Obligations.BlockBarriers := ⟨barriersArrive, barWaitsForTheOthers, barCompletes⟩

end Sys2Proof.Machine
end
section
/-! SUPPORT. Requests from peers to the stacks of clean memory (R123, R336). -/

namespace Sys2Proof.Machine

/-- Clearing the marks of a range makes nothing wrong. -/
theorem Clean.clearMarks {s : State} (hc : Clean s) (pa n : Nat) : Clean (s.clearMarks pa n) :=
  ⟨by simp only [State.clearMarks, hc.words, List.filter_nil], hc.blocks, hc.bits, hc.counts⟩

/-- What bytes memory holds does not make it less clean. -/
theorem Clean.withMem {s : State} (hc : Clean s) (m : Memory) : Clean { s with mem := m } := ⟨hc.words, hc.blocks, hc.bits, hc.counts⟩

theorem isStack_of_mgmt {pa n : Nat} (h : pa + n ≤ mgmtBase) : isStack pa = true := by
  simp only [isStack, decide_eq_true_eq]
  unfold mgmtBase at h
  omega

theorem physTop_of_mgmt {a : Nat} (h : a ≤ mgmtBase) : a ≤ physTop := h.trans (by unfold mgmtBase physTop; omega)

/-- What a write to clean memory leaves: the bytes written, the warps as they were, and memory clean. -/
structure Wrote (s t : State) (pa : Nat) (bs : List Byte) : Prop where
  clean : Clean t
  still : t.migration = none
  warps : t.warps = s.warps
  mem : t.mem = s.mem.write pa bs

/-- Two writes of bytes that follow one another are one. -/
theorem Wrote.append {s t u : State} {pa : Nat} {bs cs : List Byte} (h : Wrote s t pa bs) (h2 : Wrote t u (pa + bs.length) cs) :
    Wrote s u pa (bs ++ cs) :=
  ⟨h2.clean, h2.still, h2.warps.trans h.warps, by rw [h2.mem, h.mem, Memory.write_append]⟩

/-- A request as it arrives at the MSCs of its range, and is performed. -/
def State.atMsc (s : State) (who : Requester) (pa n : Nat) (op : PeerOp) : State := (s.mscRequests pa n).physRequest who pa n op

section
variable {s : State} (hc : Clean s) (hm : s.migration = none)
include hc hm

/-- A write below the management area, which nothing stalls, writes its bytes. -/
theorem State.atMsc_write (who : Requester) {pa : Nat} {bs : List Byte} (n : Nat) (h : pa + bs.length ≤ mgmtBase) :
    Wrote s (s.atMsc who pa n (.write bs)) pa bs := by
  obtain ⟨k, cs, m, e⟩ := State.mscRequests_clean hc pa n
  rw [State.atMsc, e, State.physRequest_write (hc.tallied k cs m) hm who n (isStack_of_mgmt h) (physTop_of_mgmt h)]
  exact ⟨((hc.tallied k cs m).withMem _).clearMarks _ _, hm, rfl, rfl⟩

/-- A read leaves memory as it is. -/
theorem State.atMsc_read (who : Requester) (pa n : Nat) :
    (s.atMsc who pa n .read).warps = s.warps ∧ (s.atMsc who pa n .read).mem = s.mem := by
  obtain ⟨k, cs, m, e⟩ := State.mscRequests_clean hc pa n
  have hp : (s.tallied k cs m).physRequest who pa n .read = (s.tallied k cs m).meet pa n := by
    simp only [State.physRequest, show (s.tallied k cs m).migration = none from hm, State.physPerform]
  rw [State.atMsc, e, hp, State.meet_nil (hc.tallied k cs m).words]
  exact ⟨rfl, rfl⟩

/-- What a state looks like after an atomic that leaves `v`, where it leaves anything. -/
def AtomicLeaves (s t : State) (pa n : Nat) (v : Option Nat) : Prop :=
  t.warps = s.warps ∧ t.mem = v.elim s.mem fun x => s.mem.write pa (leBytes n x)

/-- The value that an atomic of a peer writes over an old one, where it writes one. -/
def peerValue (n : Nat) (op : PeerOp) (old : Nat) : Option Nat :=
  match op with
  | .atom o y => some (atomNew o n old y.toNat)
  | .cas x y => if old = x.toNat % 256 ^ n then some y.toNat else none
  | _ => none

/-- An atomic below the management area leaves its new value. -/
theorem State.atMsc_atomic (who : Requester) {pa n : Nat} {op : PeerOp} (ha : ∀ bs, op ≠ .write bs) (hr : op ≠ .read)
    (h : pa + n ≤ mgmtBase) : AtomicLeaves s (s.atMsc who pa n op) pa n (peerValue n op (s.load pa n)) := by
  obtain ⟨k, cs, m, e⟩ := State.mscRequests_clean hc pa n
  have hc' := hc.tallied k cs m
  have hload : (s.tallied k cs m).load pa n = s.load pa n := congrArg leNat (s.bytesAt_tallied k cs m n pa)
  have hwrite (v : Nat) : AtomicLeaves s ((s.tallied k cs m).physWrite pa (leBytes n v)) pa n (some v) := by
    have hw := State.physRequest_write (bs := leBytes n v) hc' hm who n (isStack_of_mgmt h)
      (physTop_of_mgmt (by rw [leBytes_length]; exact h))
    simp only [State.physRequest, show (s.tallied k cs m).migration = none from hm, State.physPerform] at hw
    rw [hw]
    exact ⟨rfl, rfl⟩
  rw [State.atMsc, e]
  simp only [State.physRequest, show (s.tallied k cs m).migration = none from hm, State.physPerform,
    State.unreadable_nil hc'.words hc'.blocks, hload, Bool.false_eq_true, if_false]
  cases op with
  | read => exact absurd rfl hr
  | write bs => exact absurd rfl (ha bs)
  | atom o y => exact hwrite _
  | cas x y =>
    unfold peerValue
    by_cases hx : s.load pa n = x.toNat % 256 ^ n
    · simp only [hx, if_true]
      exact hwrite _
    · simp only [hx, if_false]
      exact ⟨rfl, rfl⟩

/-- A write in parts, one for each page, writes its bytes. -/
theorem State.pageWrites (who : Requester) {pa n : Nat} {bs : List Byte} (hn : bs.length = n) (h : pa + n ≤ mgmtBase) :
    Wrote s ((pageParts pa n).foldl (fun t x => t.atMsc who x.1 x.2 (.write ((bs.drop (x.1 - pa)).take x.2))) s) pa bs := by
  subst hn
  unfold pageParts
  simp only
  by_cases hk : bs.length ≤ 65536 - pa % 65536
  · rw [if_pos hk, List.foldl_cons, List.foldl_nil, Nat.sub_self, List.drop_zero, List.take_length]
    exact State.atMsc_write hc hm who _ h
  · rw [if_neg hk]
    generalize 65536 - pa % 65536 = k at hk
    have hk' : (bs.take k).length = k := List.length_take_of_le (by omega)
    have hfirst : Wrote s (s.atMsc who pa k (.write (bs.take k))) pa (bs.take k) :=
      State.atMsc_write hc hm who k (by rw [hk']; omega)
    have hrest : (bs.drop k).take (bs.length - k) = bs.drop k := List.take_of_length_le (by rw [List.length_drop])
    rw [List.foldl_cons, List.foldl_cons, List.foldl_nil, Nat.sub_self, List.drop_zero, Nat.add_sub_cancel_left, hrest]
    rw [← List.take_append_drop k bs]
    refine Wrote.append (t := s.atMsc who pa k (.write (bs.take k))) (by simpa using hfirst) ?_
    have := State.atMsc_write hfirst.clean hfirst.still who (pa := pa + k) (bs := bs.drop k) (bs.length - k)
      (by rw [List.length_drop]; omega)
    simpa [hk'] using this

end

end Sys2Proof.Machine
end
section
/-! PROOF. Events from outside: requests of peers, timeouts, links and operating points, and migration (R26, R104, R123, R335, R336,
R394-R397). -/

namespace Sys2Proof.Machine

/-! ## Requests from peers -/

/-- A request that R336 does not allow, or that its target's table refuses, has no effect. -/
theorem peerRequest_refused {s : State} {r : PeerReq} (h : s.booted = false ∨ peerFits r = false ∨ mgmtBase < r.addr + r.size
    ∨ (pagesOf r.addr r.size).all (s.mayReach (0x4000 + r.src.val) (peerNeed r.op)) = false) : peerRequest r s = s := by
  unfold peerRequest
  rw [if_pos]
  simp only [Bool.or_eq_true, Bool.not_eq_true', decide_eq_true_eq]
  tauto

section
variable {s : State} {r : PeerReq} (hb : s.booted = true) (hf : peerFits r = true) (hend : r.addr + r.size ≤ mgmtBase)
  (hr : (pagesOf r.addr r.size).all (s.mayReach (0x4000 + r.src.val) (peerNeed r.op)) = true) (hm : s.migration = none)
include hb hf hend hr hm

/-- A request that is allowed, and that waits for no write, arrives at its MSCs: a write in one part for each page. -/
theorem peerRequest_allowed : peerRequest r s = match r.op with
    | .write bs => (pageParts r.addr r.size).foldl
        (fun t x => t.atMsc (.peer r.src.val) x.1 x.2 (.write ((bs.drop (x.1 - r.addr)).take x.2))) s
    | op => s.atMsc (.peer r.src.val) r.addr r.size op := by
  have hbehind : s.behind (.peer r.src.val) r.addr r.size false = false := by simp only [State.behind, hm, Option.elim_none]
  unfold peerRequest
  rw [if_neg (by simp only [hb, hf, hr, Nat.not_lt.mpr hend, Bool.not_true, decide_false, Bool.or_self, Bool.false_eq_true,
      not_false_eq_true]),
    if_neg (by simp only [hbehind, Bool.and_false, Bool.false_eq_true, not_false_eq_true])]
  cases r.op <;> rfl

/-- What an allowed request does, by its operation. -/
theorem peerRequest_performs (hc : Clean s) : (peerRequest r s).warps = s.warps ∧ match r.op with
    | .read => (peerRequest r s).mem = s.mem
    | .write bs => (peerRequest r s).mem = s.mem.write r.addr bs
    | .atom o y => (peerRequest r s).mem = s.mem.write r.addr (leBytes r.size (atomNew o r.size (s.load r.addr r.size) y.toNat))
    | .cas x y => (peerRequest r s).mem = if s.load r.addr r.size = x.toNat % 256 ^ r.size
        then s.mem.write r.addr (leBytes r.size y.toNat) else s.mem := by
  have hatomic := State.atMsc_atomic hc hm (.peer r.src.val) (pa := r.addr) (n := r.size) (op := r.op)
  have he := peerRequest_allowed hb hf hend hr hm
  cases hop : r.op with
  | read =>
    rw [hop] at he
    simpa only [he] using State.atMsc_read hc hm _ _ _
  | write bs =>
    rw [hop] at he
    have hlen : bs.length = r.size := by
      simp only [peerFits, hop, Bool.and_eq_true, beq_iff_eq] at hf
      exact hf.1.1
    have hw := State.pageWrites hc hm (.peer r.src.val) hlen hend
    simpa only [he] using ⟨hw.warps, hw.mem⟩
  | atom o y =>
    rw [hop] at he hatomic
    rw [he]
    exact hatomic (fun _ => PeerOp.noConfusion) PeerOp.noConfusion hend
  | cas x y =>
    rw [hop] at he hatomic
    obtain ⟨hw, hmem⟩ := hatomic (fun _ => PeerOp.noConfusion) PeerOp.noConfusion hend
    rw [he]
    refine ⟨hw, hmem.trans ?_⟩
    simp only [peerValue]
    split <;> rfl

end

/-- R123, R336, R339. -/
theorem peerRequests : PeerRequests := by
  intro s r
  exact ⟨fun hb hf hend hr hm hc => ⟨_, rfl, peerRequest_performs hb hf hend hr hm hc⟩, fun h =>
    congrArg Host.Outcome.next (peerRequest_refused h)⟩

/-! ## Timeouts -/

/-- Memory and links stay as they are when one request fails. -/
theorem State.loseRequest_keeps (s : State) (wid op : Nat) (x : Waiter) :
    (s.loseRequest wid op x).mem = s.mem ∧ (s.loseRequest wid op x).cxl = s.cxl := by
  cases x <;> exact ⟨rfl, rfl⟩

theorem State.losePage_warps (s : State) (q : Fin 8) (page : Nat) :
    (s.losePage q page).warps = s.warps ∧ (s.losePage q page).copies = s.copies := by
  unfold State.losePage
  split
  · simp only [State.memerr, State.journalAdd_warps, State.journalAdd_copies, State.modCxl, and_self]
  · simp only [State.memerr, State.journalAdd_warps, State.journalAdd_copies, State.modCxl, and_self]

/-- The page is unavailable, or its whole port where the port's entries are full (R395). -/
theorem State.losePage_cxl (s : State) (q : Fin 8) (page : Nat) : if 256 ≤ (s.cxl[q]).pages.length
    then ((s.losePage q page).cxl[q]).unavailable = true else ((s.losePage q page).cxl[q]).pages = (s.cxl[q]).pages ++ [page] := by
  unfold State.losePage
  split
  · simp [State.memerr, State.modCxl]
  · simp [State.memerr, State.modCxl]

/-- Losing requests leaves the ports. -/
theorem State.loseAll_cxl (s : State) (f : Place → Bool) : (s.loseAll f).cxl = s.cxl := rfl

section
variable {s : State} {wid op : Nat}

theorem peerTimeout_some {x : Waiter} (h : s.outstanding wid op (fun p => p.tier == 2) = some x) :
    peerTimeout wid op s = ({ s with choices := s.choices + 1 }).loseRequest wid op x := by
  simp only [peerTimeout, h]

theorem peerTimeout_none (h : s.outstanding wid op (fun p => p.tier == 2) = none) : peerTimeout wid op s = s := by
  simp only [peerTimeout, h]

theorem cxlTimeout_some {x : Waiter} {q : Fin 8} (h : s.outstanding wid op (fun p => p.tier == 1 && !(s.linkFails p).1) = some x)
    (hq : capPortOf x.place.pa = some q) : cxlTimeout wid op s =
      (({ s with choices := s.choices + 1 }).loseAll (onPage x.place.pa)).losePage q (x.place.pa / 65536) := by
  simp only [cxlTimeout, h, hq]

theorem cxlTimeout_none (h : s.outstanding wid op (fun p => p.tier == 1 && !(s.linkFails p).1) = none) : cxlTimeout wid op s = s := by
  simp only [cxlTimeout, h]

end

/-- R394-R396. -/
theorem timeouts : Timeouts := by
  intro s wid op
  refine ⟨fun x hx => ?_, fun hx => congrArg Host.Outcome.next (peerTimeout_none hx), fun x q hx hq => ?_,
    fun hx => congrArg Host.Outcome.next (cxlTimeout_none hx)⟩
  · obtain ⟨hmem, hcxl⟩ := State.loseRequest_keeps { s with choices := s.choices + 1 } wid op x
    refine ⟨_, congrArg Host.Outcome.next (peerTimeout_some hx), hmem, hcxl, ?_, ?_⟩
    · rintro a w rfl hw
      exact tget_tmod_of_some _ hw
    · rintro n p c rfl hcopy
      exact tget_tmod_of_some _ hcopy
  · obtain ⟨hw, hcopies⟩ := State.losePage_warps (({ s with choices := s.choices + 1 } : State).loseAll (onPage x.place.pa)) q
      (x.place.pa / 65536)
    have hcxl := State.losePage_cxl (({ s with choices := s.choices + 1 } : State).loseAll (onPage x.place.pa)) q (x.place.pa / 65536)
    simp only [State.loseAll_cxl] at hcxl
    exact ⟨_, congrArg Host.Outcome.next (cxlTimeout_some hx hq), hw, hcopies, hcxl⟩

/-! ## Links and operating points -/

/-- A port that goes down takes its requests with it. -/
theorem cxlLinkDown_up {s : State} {q : Fin 8} (hd : (s.cxl[q]).down = false) (hu : (s.cxl[q]).unavailable = false) :
    cxlLinkDown q s = ((s.loseAll (onPort q)).modCxl q fun y => { y with down := true }).memerr 6 q.val := by
  simp only [cxlLinkDown, hd, hu, Bool.false_eq_true, if_false]

theorem State.atCeilings_of {s : State} (h : ∀ d : Fin 8, s.corePoints[d] = s.ceilings[d]) : s.atCeilings = true := by
  simp only [State.atCeilings, List.all_eq_true, beq_iff_eq]
  exact fun d _ => h d

/-- A die's point changes within its ceiling. -/
theorem operatingPointChange_die {s : State} (hs : s.switching = false) (d : Fin 8) (x : BitVec 3) :
    operatingPointChange (.die d x) s = if x ≤ s.ceilings[d] then { s with corePoints := s.corePoints.set d x } else s := by
  simp only [operatingPointChange, State.pointsHeld, hs, Bool.false_or, decide_eq_true_eq, BitVec.le_def]
  by_cases h : x.toNat ≤ (s.ceilings[d]).toNat
  · rw [if_neg (by omega), if_pos h]
  · rw [if_pos (by omega), if_neg h]

/-- R26, R335, R346, R394, R395. -/
theorem linksAndPoints : LinksAndPoints := by
  intro s
  refine ⟨fun q hd hu => ?_, fun q hd => ?_, fun p => rfl, fun p m => rfl, fun hs d x => ?_, fun hs k x hx => ?_, fun k x hx hl => ?_,
    fun hs => ⟨fun d x => ?_, fun k x => ?_⟩, fun h => ?_⟩
  · refine ⟨_, _, congrArg Host.Outcome.next (cxlLinkDown_up hd hu), ?_, rfl, rfl, rfl, rfl, rfl, rfl⟩
    simp [State.memerr, State.modCxl]
  · exact congrArg Host.Outcome.next (if_pos hd)
  · exact congrArg Host.Outcome.next (operatingPointChange_die hs d x)
  · refine congrArg Host.Outcome.next (if_neg ?_)
    simp only [State.pointsHeld, hs, Bool.false_or, Bool.and_eq_true, decide_eq_true_eq, Bool.not_eq_true', not_and,
      Bool.not_eq_false]
    exact hx
  · refine congrArg Host.Outcome.next (if_pos ?_)
    simp only [hx, hl, decide_true, Bool.not_false, Bool.and_self, Bool.or_true]
  · exact congrArg Host.Outcome.next (if_pos (by simp only [State.pointsHeld, hs, Bool.true_or]))
  · exact congrArg Host.Outcome.next (if_pos (by simp only [State.pointsHeld, hs, Bool.true_or]))
  · exact congrArg Host.Outcome.next (if_pos (State.atCeilings_of h))

end Sys2Proof.Machine
end
section
/-! PROOF. A migration's blocks and its end (R104, R397), and what arrives from outside. -/

namespace Sys2Proof.Machine

/-! ## The leaf -/

/-- An address of a 64 KiB page sets no bit below the address field of a leaf. -/
theorem page_getLsbD_low (pa : Nat) {i : Nat} (h : i < 16) : (BitVec.ofNat 64 (pa / 65536 * 65536)).getLsbD i = false := by
  rw [BitVec.getLsbD_ofNat, show (65536 : Nat) = 2 ^ 16 from rfl, Nat.testBit_mul_two_pow]
  simp only [Nat.not_le.mpr h, decide_false, Bool.false_and, Bool.and_false]

/-- A leaf with a new address is not being migrated (R104). -/
theorem remapped_mig (e : DWord) (pa : Nat) : (remapped e pa).getLsbD 7 = false := by
  unfold remapped
  rw [BitVec.getLsbD_or, BitVec.getLsbD_or, page_getLsbD_low pa (by decide), BitVec.getLsbD_and]
  have hmask : (~~~(0x000FFFFFFFFF00E0 : DWord)).getLsbD 7 = false := by decide
  rw [hmask, Bool.and_false, Bool.false_or, Bool.false_or]
  split
  · rfl
  · rfl

/-! ## Blocks -/

theorem physTop_of_stack {pa n : Nat} (h : isStack pa = true) (hn : n ≤ 512) : pa + n ≤ physTop := by
  simp only [isStack, decide_eq_true_eq] at h
  unfold physTop
  omega

/-- The engine's request to a block of a stack is answered. -/
theorem State.physFails_stack (s : State) {pa : Nat} (h : isStack pa = true) : s.physFails pa = false := by
  simp only [State.physFails, h, Bool.not_true, Bool.false_and]

section
variable {s : State} {m : Migration} (hm : s.migration = some m) (hold : s.usesOld m.purge (fun a => !a.place.mig) = false)
include hm hold

/-- A migration under way goes on once no access uses the old translation. -/
theorem migration_goesOn : migration m.slot m.va m.new s =
    if m.next * 512 < levelSize m.level then s.copyBlock m else s.endMigration m m.new := by
  simp only [migration, hm, hold, bne_self_eq_false, Bool.or_self, Bool.false_eq_true, if_false]

end

/-- A block from stack to stack, in clean memory, takes the bytes of its source. -/
theorem State.copyBlock_clean {s : State} {m : Migration} (hc : Clean s)
    (hr : s.mayReach migrationMaster .r (m.old + 512 * m.next) = true) (hw : s.mayReach migrationMaster .w (m.new + 512 * m.next) = true)
    (hsrc : isStack (m.old + 512 * m.next) = true) (hdst : isStack (m.new + 512 * m.next) = true) :
    (s.copyBlock m).migration = some { m with next := m.next + 1 }
      ∧ (s.copyBlock m).mem = s.mem.write (m.new + 512 * m.next) (s.mem.read (m.old + 512 * m.next) 512) := by
  obtain ⟨k, cs, u, e⟩ := State.mscRequest_nil hc.counts hc.bits hc.words (m.old + 512 * m.next)
  have hc' := hc.tallied k cs u
  have hbytes : (s.tallied k cs u).bytesAt (m.old + 512 * m.next) 512 = s.mem.read (m.old + 512 * m.next) 512 := by
    rw [State.bytesAt_tallied, State.bytesAt_mem]
    intro i hi
    exact locReg_phys (lt_of_lt_of_le (Nat.add_lt_add_left hi _) (physTop_of_stack hsrc le_rfl))
  have hstore := State.store_clean hc' (pa := m.new + 512 * m.next) (bs := s.mem.read (m.old + 512 * m.next) 512)
    (by rw [Memory.read_length]; exact physTop_of_stack hdst le_rfl)
  have hmem : (s.tallied k cs u).mem = s.mem := rfl
  have hlost (pa : Nat) : (physPlace pa).lost = false := rfl
  simp only [State.copyBlock, hr, hw, e, State.ask_stack _ hsrc, State.ask_stack _ hdst, State.physFails_stack _ hsrc,
    State.physFails_stack _ hdst, State.unreadable_nil hc'.words hc'.blocks, hlost, hbytes, hstore, Bool.not_true, Bool.or_self,
    Bool.false_eq_true, if_false, State.clearMarks_mem, hmem, and_self]

/-- A migration that stalled nothing ends with the leaf at the new address. -/
theorem State.endMigration_clean {s : State} {m : Migration} (hc : Clean s) (hs : m.stalled = []) (he : m.entry + 8 ≤ physTop) (base : Nat) :
    (s.endMigration m base).migration = none ∧ (s.endMigration m base).mem =
      s.mem.write m.entry (leBytes 8 (remapped (BitVec.ofNat 64 (s.load m.entry 8)) base).toNat) := by
  have hstore := State.store_clean hc (pa := m.entry) (bs := leBytes 8 (remapped (BitVec.ofNat 64 (s.load m.entry 8)) base).toNat)
    (by rw [leBytes_length]; exact he)
  simp only [State.endMigration, hs, List.foldl_nil, hstore]
  exact ⟨rfl, rfl⟩

/-- R104, R397. -/
theorem migrations : Migrations := by
  intro s m hm hold
  have hgo := migration_goesOn hm hold
  refine ⟨fun hnext hc hr hw hsrc hdst => ?_, fun hdone hs he hc => ?_⟩
  · rw [if_pos hnext] at hgo
    exact ⟨_, congrArg Host.Outcome.next hgo, State.copyBlock_clean hc hr hw hsrc hdst⟩
  · rw [if_neg (Nat.not_lt.mpr hdone)] at hgo
    obtain ⟨hnone, hmem⟩ := State.endMigration_clean hc hs he m.new
    exact ⟨_, congrArg Host.Outcome.next hgo, hnone, hmem, remapped_mig _ _⟩

/-- Settles O47: what peers ask, what times out, the links and operating points, and the migration's blocks and end. -/
theorem outsideEventsArrive : Obligations.OutsideEventsArrive :=
  ⟨peerRequests, timeouts, linksAndPoints, migrations⟩

end Sys2Proof.Machine
end
section
/-! SUPPORT. What a read of clean memory gives, and what it leaves (R94, R96, R114): a part without L1 lines, and the part's own
scratchpad. -/

namespace Sys2Proof.Machine

/-! ## Requests to the stacks -/

/-- In clean memory, a request at an MSC changes only what it tallies. -/
theorem State.mscAccess_clean {s : State} (hc : Clean s) (p : Place) (asked : Bool) :
    ∃ k cs m, s.mscAccess p asked = s.tallied k cs m := by
  have hcount (u : State) (k : Bool) (h : u.counterTable = none) : u.countPage p k = u := by
    unfold State.countPage
    rw [h]
  have hread (u : State) (b : Nat) (n : Bool) (h : u.flips = []) : u.readDram b n = u := by
    unfold State.readDram
    rw [h]
    rfl
  unfold State.mscAccess
  simp only
  rw [hcount _ _ (by exact hc.counts), hread _ _ _ (by exact hc.bits)]
  unfold State.mscEvict
  obtain ⟨k, m, h⟩ := State.mscEvict_nil _ _ (s := State.baseEvent { s with choices := s.choices + 1 } _ 1 _) hc.bits hc.words
  exact ⟨k, _, m, h⟩

/-- In clean memory, a request to a stack changes only what it tallies. -/
theorem State.request_clean {s : State} (hc : Clean s) {p : Place} (hp : p.tier = 0) (write : Bool) :
    ∃ k cs m, s.request p write = s.tallied k cs m := by
  unfold State.request
  rw [if_neg (by rw [hp]; decide), if_pos hp]
  obtain ⟨k, cs, m, h⟩ := State.mscAccess_clean
    (s := ({ s with choices := s.choices + 1 } : State).dieEvent (p.pa / 2 ^ 37 / 4) 1 (Config.bit s.choices).toNat)
    ⟨hc.words, hc.blocks, hc.bits, hc.counts⟩ p (Config.bit s.choices || write)
  exact ⟨k, cs, m, h⟩

/-- A read of a stack's clean memory gives its bytes, and changes only what the request tallies. -/
theorem State.readMem_clean {s : State} (hc : Clean s) {p : Place} {n : Nat} (hp : p.tier = 0) (hl : p.lost = false)
    (hr : p.refused = false) (hin : p.loc + n ≤ physTop) :
    ∃ k cs m, s.readMem p n = (.bytes (s.mem.read p.loc n), s.tallied k cs m) := by
  obtain ⟨k, cs, m, e⟩ := State.request_clean hc hp false
  have hc' := hc.tallied k cs m
  have hlink : (s.tallied k cs m).linkFails p = (false, s.tallied k cs m) := by
    simp [State.linkFails, hl, hr, hp]
  have hbytes : (s.tallied k cs m).bytesAt p.loc n = s.mem.read p.loc n :=
    State.bytesAt_mem n _ _ fun i hi => locReg_phys (by omega)
  have hplace : (s.tallied k cs m).readPlace p n = (s.mem.read p.loc n, s.tallied k cs m) := by
    simp [State.readPlace, hp, hbytes]
  refine ⟨k, cs, m, ?_⟩
  simp only [State.readMem, e, State.readAt, hlink, State.unreadable_nil hc'.words hc'.blocks, hplace, Bool.false_eq_true, if_false]

/-! ## Lines -/

/-- The part's L1 holds no line, where the part is placed. -/
def State.NoLines (s : State) (pid : Nat) : Prop := ∀ p, tget s.parts pid = some p → p.l1 = []

/-- Where no line has to make way, placing one leaves memory and the warps as they are. -/
theorem State.placeLine_keeps {s : State} {pid : Nat} (h : s.NoLines pid) (l : L1Line) :
    (s.placeLine pid l).1.mem = s.mem ∧ (s.placeLine pid l).1.warps = s.warps := by
  unfold State.placeLine
  cases hp : tget s.parts pid with
  | none => exact ⟨rfl, rfl⟩
  | some p =>
    have hroom : s.makeRoom pid (lineSet p l.line) 5 = (s, !decide (p.sets = 0)) := by
      unfold State.makeRoom
      simp only [hp, h p hp, List.filter_nil, List.length_nil]
      by_cases hs : p.sets = 0 <;> simp [hs]
    simp only [hroom]
    cases !decide (p.sets = 0) <;> exact ⟨rfl, rfl⟩

/-- A part without lines has none after one of them was dropped. -/
theorem State.NoLines.drop {s : State} {pid : Nat} (h : s.NoLines pid) (line : Nat) (owner : Option Nat) :
    (s.modPart pid fun p => dropLine p line owner).NoLines pid := by
  intro p hp
  rw [State.modPart_parts, tget_tmod_self, Option.map_eq_some_iff] at hp
  obtain ⟨q, hq, rfl⟩ := hp
  simp only [dropLine, h q hq, List.filter_nil]

/-! ## Reads -/

/-- A read gives bytes, and leaves memory and the warps as they are. -/
def ReadsBytes (s : State) (r : Got × State) (bs : List Byte) : Prop := r.1 = .bytes bs ∧ r.2.mem = s.mem ∧ r.2.warps = s.warps

/-- A read of the part's own scratchpad gives its bytes. -/
theorem State.readOnchip_scratch {s : State} (hbad : s.bad = []) {a : Acc} {part off : Nat}
    (hp : a.place = onchipPlace (scratchLoc part off)) (hin : off + a.n ≤ 0x100000) :
    ReadsBytes s (s.readOnchip a) (s.mem.read a.place.loc a.n) := by
  have hclu : a.place.isClu = false := by rw [hp]; rfl
  have hloc : a.place.loc = scratchLoc part off := by rw [hp]; rfl
  have hbytes : s.bytesAt a.place.loc a.n = s.mem.read a.place.loc a.n :=
    State.bytesAt_mem _ _ _ fun i hi => hloc ▸ locReg_scratchLoc part hin hi
  simp only [State.readOnchip, hclu, State.badIn_nil hbad, hbytes, Bool.false_and, Bool.false_eq_true, if_false]
  exact ⟨rfl, rfl, rfl⟩

/-- A global read that no line serves gives the bytes of the stack's memory, and may place its line (R94). -/
theorem State.readGlobal_clean {s : State} (hc : Clean s) {pid : Nat} (hno : s.NoLines pid) (core : Nat) {a : Acc}
    (ht : a.place.tier = 0) (hl : a.place.lost = false) (hr : a.place.refused = false) (hin : a.place.loc + a.n ≤ physTop) :
    ReadsBytes s (s.readGlobal pid core a) (s.mem.read a.place.loc a.n) := by
  have hfound : ((tget s.parts pid).bind fun p => findLine p (a.addr / 128) none) = none := by
    cases hp : tget s.parts pid with
    | none => rfl
    | some p => simp only [Option.bind_some, findLine, hno p hp, List.find?_nil]
  have hno0 : ((s.modPart pid fun p => dropLine p (a.addr / 128) none).coreEvent core 3).NoLines pid := by
    intro p hp
    exact hno.drop _ _ p (by simpa only [State.coreEvent_parts] using hp)
  have hc0 : Clean ((s.modPart pid fun p => dropLine p (a.addr / 128) none).coreEvent core 3) :=
    ⟨by simpa using hc.words, by simpa using hc.blocks, by simpa using hc.bits, by simpa using hc.counts⟩
  have hmem0 : ((s.modPart pid fun p => dropLine p (a.addr / 128) none).coreEvent core 3).mem = s.mem := by simp
  have hwarps0 : ((s.modPart pid fun p => dropLine p (a.addr / 128) none).coreEvent core 3).warps = s.warps := by simp
  generalize hs0 : (s.modPart pid fun p => dropLine p (a.addr / 128) none).coreEvent core 3 = s0 at hno0 hc0 hmem0 hwarps0
  obtain ⟨k, cs, m, hread⟩ := State.readMem_clean hc0 ht hl hr hin
  have hline : (linePlace a.place a.addr).tier = 0 := ht
  simp only [State.readGlobal, hfound, Option.filter_none, Option.elim_none, hs0, hread, hmem0]
  split
  · have hplace : ∀ (u : State) n, u.readPlace (linePlace a.place a.addr) n = (u.bytesAt (linePlace a.place a.addr).loc n, u) := by
      intro u n
      simp [State.readPlace, hline]
    simp only [hplace]
    exact ⟨rfl, (State.placeLine_keeps (by exact hno0) _).1.trans hmem0, (State.placeLine_keeps (by exact hno0) _).2.trans hwarps0⟩
  · exact ⟨rfl, hmem0, hwarps0⟩

end Sys2Proof.Machine
end
section
/-! PROOF. Operations complete at their events, and loads deliver the bytes that memory holds (R109, R187, R192). -/

namespace Sys2Proof.Machine

/-! ## Events -/

section
variable {s : State} {wid op : Nat} {w : Warp} {o : OutOp} (h : s.readyOp wid op = some (w, o))
include h

/-- An operation that may be performed is one of a warp that the module holds. -/
theorem State.readyOp_warp : tget s.warps wid = some w := by
  unfold State.readyOp at h
  cases hw : tget s.warps wid with
  | none => simp [hw] at h
  | some x =>
    simp only [hw] at h
    split at h
    · cases h
    · simp only [Option.ite_none_right_eq_some, Option.some.injEq, Prod.mk.injEq] at h
      rw [h.2.1]

theorem completeEvent_ready {want : OutOp → Bool} (hwant : want o = true) : completeEvent wid op want s = s.completeOp wid w o := by
  simp only [completeEvent, h, hwant, if_true]

end

/-- R109, R192. -/
theorem operationsComplete : OperationsComplete := by
  intro s wid op w o h
  have hdone {want : OutOp → Bool} (hwant : want o = true) : (Host.Outcome.next (completeEvent wid op want s) : Out) =
      .next (s.completeOp wid w o) := congrArg _ (completeEvent_ready h hwant)
  exact ⟨fun hctr => hdone (beq_iff_eq.mpr hctr), fun hctr => hdone (beq_iff_eq.mpr hctr), fun hctr => hdone (beq_iff_eq.mpr hctr)⟩

/-! ## What a destination span receives -/

/-- Registers `n` and on of a warp, `count` of them, with their lanes of a mask written. -/
def setVregs (m : Mask) (n count : Nat) (f : Nat → Lane → Word) (w : Warp) : Warp :=
  (List.range count).foldl (fun x j => setVreg x (n + j) m (f j)) w

theorem setVregs_succ (m : Mask) (n count : Nat) (f : Nat → Lane → Word) (w : Warp) :
    setVregs m n (count + 1) f w = setVreg (setVregs m n count f w) (n + count) m (f count) := by
  rw [setVregs, List.range_succ, List.foldl_append]
  rfl

theorem setVregs_get (m : Mask) (n : Nat) (f : Nat → Lane → Word) (w : Warp) (k : Fin 120) (l : Lane) (count : Nat) :
    (setVregs m n count f w).vregs[k][l] =
      if n ≤ k.val ∧ k.val < n + count ∧ m.getLsbD l.val then f (k.val - n) l else w.vregs[k][l] := by
  induction count with
  | zero => rw [if_neg (by omega)]; rfl
  | succ count ih =>
    rw [setVregs_succ, setVreg_get, ih]
    by_cases hk : k.val = n + count
    · have hj : k.val - n = count := by omega
      cases m.getLsbD l.val <;> simp [hk]
    · have hlt : k.val < n + (count + 1) ↔ k.val < n + count := by omega
      simp only [hk, hlt, beq_iff_eq, Bool.and_eq_true, and_false, if_false]

/-- Writing a register touches the registers alone. -/
theorem setVreg_eq (w : Warp) (n : Nat) (m : Mask) (f : Lane → Word) :
    setVreg w n m f = { w with vregs := (setVreg w n m f).vregs } := by
  unfold setVreg
  split
  · rfl
  · rfl

theorem setVregs_eq (m : Mask) (n : Nat) (f : Nat → Lane → Word) (w : Warp) (count : Nat) :
    setVregs m n count f w = { w with vregs := (setVregs m n count f w).vregs } := by
  induction count with
  | zero => rfl
  | succ count ih => rw [setVregs_succ, setVreg_eq, ih]

/-- The two words of a doubleword. -/
theorem extractLsb'_ofNat64 (v : Nat) {j : Nat} (hj : j < 2) :
    (BitVec.ofNat 64 v).extractLsb' (32 * j) 32 = BitVec.ofNat 32 (v / 2 ^ (32 * j)) := by
  refine BitVec.eq_of_toNat_eq ?_
  rw [BitVec.extractLsb'_toNat, BitVec.toNat_ofNat, BitVec.toNat_ofNat, Nat.shiftRight_eq_div_pow]
  interval_cases j <;> omega

/-- A loaded value goes to as many registers as its size says, each with its own word of it (R151, R187). -/
theorem writeSpan_eq (m : Mask) (z : Size) (n : Fin 120) (f : Nat → Nat) (w : Warp) :
    writeSpan m z (.v n) f w = setVregs m n.val (sizeSpan z) (fun j l => loadedWord z j (f l.val)) w := by
  cases z with
  | d =>
    have hlow (v : Nat) : (BitVec.ofNat 64 v).extractLsb' 0 32 = loadedWord .d 0 v := extractLsb'_ofNat64 v (j := 0) (by decide)
    have hhigh (v : Nat) : (BitVec.ofNat 64 v).extractLsb' 32 32 = loadedWord .d 1 v := extractLsb'_ofNat64 v (j := 1) (by decide)
    simp only [writeSpan, dst64, dstAt, hlow, hhigh]
    rfl
  | _ => rfl

/-! ## Performing a load -/

theorem laneVal_single (k v l : Nat) : laneVal [(k, v)] l = if l = k then v else 0 := by
  simp [laneVal, eq_comm]

/-- A single access of a load that gives bytes is all that the operation comes to. -/
theorem State.performAll_load {s : State} {q : Who} {o : OutOp} {z : Size} {d : VOp} {a : Acc} {bs : List Byte}
    (hk : o.kind = .load z d) (hone : o.accs = [a]) (hfresh : o.vals = [] ∧ o.dead = 0 ∧ o.err = none) (hoff : a.off = 0)
    (hread : ReadsBytes (s.perfOf o).s ((s.perfOf o).s.readAcc q o.space a) bs) :
    ∃ t : State, s.performAll q o = ⟨t, [(a.lane, leNat bs)], 0, none⟩ ∧ t.mem = s.mem ∧ t.warps = s.warps := by
  obtain ⟨hvals, hdead, herr⟩ := hfresh
  obtain ⟨hbs, hmem, hwarps⟩ := hread
  have horder : s.laneOrder o = [a] := by
    simp only [State.laneOrder, opWrites, hk, hone, Bool.and_false, Bool.false_and, Bool.false_eq_true, if_false]
  have hgot : (s.perfOf o).s.readAcc q o.space a = (.bytes bs, ((s.perfOf o).s.readAcc q o.space a).2) := Prod.ext hbs rfl
  refine ⟨((s.perfOf o).s.readAcc q o.space a).2, ?_, hmem, hwarps⟩
  rw [State.performAll, horder, List.foldl_cons, List.foldl_nil, Perf.one, hk]
  simp only [Perf.readOne]
  rw [hgot]
  simp only [State.perfOf, hvals, hdead, herr, hoff, Nat.pow_zero, Nat.mul_one, List.nil_append]

/-- The warp with the values of a load in its destination registers (R187). -/
def landed (w : Warp) (o : OutOp) (z : Size) (n : Fin 120) (vals : List (Nat × Nat)) : Warp :=
  { w with vregs := (setVregs (o.mask &&& w.laneok) n.val (sizeSpan z) (fun j l => loadedWord z j (laneVal vals l.val)) w).vregs }

/-- The warp without an operation that has been performed (R192). -/
def retired (o : OutOp) (w : Warp) : Warp := { w with ops := w.ops.filter fun y => y.id != o.id }

/-- A load that came to values without an error or a death leaves them in its destination. -/
theorem State.settle_load {t u : State} {q : Who} {w : Warp} {o : OutOp} {z : Size} {n : Fin 120} {vals : List (Nat × Nat)}
    (hk : o.kind = .load z (.v n)) (hw : tget t.warps q.wid = some w) :
    (t.settle q w o ⟨u, vals, 0, none⟩).mem = t.mem
      ∧ tget (t.settle q w o ⟨u, vals, 0, none⟩).warps q.wid = some (landed w o z n vals) := by
  have hmask : o.mask &&& ~~~(0 : Mask) &&& w.laneok = o.mask &&& w.laneok := by
    rw [show ~~~(0 : Mask) = BitVec.allOnes 32 from rfl, BitVec.and_allOnes]
  have hwrite := tget_tmod_of_some (writeSpan (o.mask &&& w.laneok) z (.v n) fun l => laneVal vals l) hw
  rw [writeSpan_eq, setVregs_eq] at hwrite
  simp only [State.settle, hk, hmask, Option.isSome_none, Bool.false_eq_true, if_false]
  obtain ⟨b, r, hheal, -, -⟩ := (t.modWarp q.wid (writeSpan (o.mask &&& w.laneok) z (.v n) fun l => laneVal vals l)).healRegs_eq
    (spanLocs q.wid (o.mask &&& w.laneok) [(.v n, sizeSpan z)])
  rw [hheal]
  exact ⟨rfl, hwrite⟩

/-- A load that came to values without an error or a death writes its destination and is retired (R187, R192). -/
theorem State.completeOp_load {s t : State} {wid : Nat} {w : Warp} {o : OutOp} {z : Size} {n : Fin 120} {vals : List (Nat × Nat)}
    (hk : o.kind = .load z (.v n)) (hacq : o.acq = none) (hperf : s.performAll ⟨wid, w.part, s.coreOf w⟩ o = ⟨t, vals, 0, none⟩)
    (hw : tget t.warps wid = some w) (hlive : w.ended = false) :
    (s.completeOp wid w o).mem = t.mem ∧ tget (s.completeOp wid w o).warps wid = some (retired o (landed w o z n vals)) := by
  obtain ⟨hmem, hlanded⟩ := State.settle_load (u := t) (q := ⟨wid, w.part, s.coreOf w⟩) hk hw
  generalize hu : t.settle ⟨wid, w.part, s.coreOf w⟩ w o ⟨t, vals, 0, none⟩ = u at hmem hlanded
  have hv : tget (u.modWarp wid (retired o)).warps wid = some (retired o (landed w o z n vals)) := tget_tmod_of_some _ hlanded
  have hcheck : (u.modWarp wid (retired o)).blockCheck w.block = u.modWarp wid (retired o) :=
    State.blockCheck_live (w := retired o (landed w o z n vals)) hv hlive
  have hkill (x : State) : x.killLanes wid (0 &&& w.laneok) = x := if_pos BitVec.zero_and
  have hdone : s.completeOp wid w o = u.modWarp wid (retired o) := by
    simp only [State.completeOp, hperf, hu, hk, hacq, hkill, Option.isSome_none, Bool.false_eq_true, if_false]
    exact hcheck
  rw [hdone]
  exact ⟨hmem, hv⟩

/-- A load's access of the part's scratchpad or of a stack gives the bytes of memory. -/
theorem OneAccess.reads {s : State} {wid op : Nat} {w : Warp} {o : OutOp} {a : Acc} (h : OneAccess s wid op w o a) (core : Nat) :
    ReadsBytes (s.perfOf o).s ((s.perfOf o).s.readAcc ⟨wid, w.part, core⟩ o.space a) (s.mem.read a.place.loc a.n) := by
  rcases h with ⟨part, off, h⟩ | h
  · rw [h.space]
    exact State.readOnchip_scratch (s := (s.perfOf o).s) h.good h.place h.inside
  · rw [h.space]
    exact State.readGlobal_clean (s := (s.perfOf o).s) ⟨h.clean.words, h.clean.blocks, h.clean.bits, h.clean.counts⟩ h.lines core
      h.tier h.answered.1 h.answered.2 h.inside

/-- What both forms of a single access share: it is due, it is the operation's only one, and nothing has come of it yet. -/
theorem OneAccess.common {s : State} {wid op : Nat} {w : Warp} {o : OutOp} {a : Acc} (h : OneAccess s wid op w o a) :
    s.readyOp wid op = some (w, o) ∧ o.accs = [a] ∧ (o.vals = [] ∧ o.dead = 0 ∧ o.err = none) ∧ w.ended = false ∧ o.acq = none := by
  rcases h with ⟨part, off, h⟩ | h
  · exact ⟨h.due, h.one, h.fresh, h.live, h.plain⟩
  · exact ⟨h.due, h.one, h.fresh, h.live, h.plain⟩

/-- R187, R192. -/
theorem loadsDeliverBytes : LoadsDeliverBytes := by
  intro s wid op w o a z n h hctr hk hoff hn
  obtain ⟨hdue, hone, hfresh, hlive, hacq⟩ := h.common
  obtain ⟨t, hperf, hmem, hwarps⟩ := State.performAll_load hk hone hfresh hoff (h.reads (s.coreOf w))
  obtain ⟨hmem2, hw⟩ := State.completeOp_load hk hacq hperf (hwarps ▸ State.readyOp_warp hdue) hlive
  refine ⟨_, _, (operationsComplete s wid op w o hdue).1 hctr, hw, rfl, fun k l => ?_, rfl, rfl, rfl, fun x => by rw [hmem2, hmem]⟩
  rw [← laneVal_single a.lane]
  exact setVregs_get ..

/-- Settles O16: an operation completes at its event, and a load lands the bytes that its one access reads. -/
theorem loadsComplete : Obligations.LoadsComplete := ⟨operationsComplete, loadsDeliverBytes⟩

end Sys2Proof.Machine
end

section
/-! SUPPORT. The codes of the encoding tables (R56, R60, R80, R140, R141, R148-R151, R177, R181, R189, R190, R204): each code has one
meaning, and each meaning one code. -/

namespace Sys2Proof

/-! ## Operand codes -/

theorem VOp.code_lt (x : VOp) : x.code < 128 := by
  cases x <;> simp only [VOp.code] <;> omega

@[simp] theorem VOp.ofCode_code (x : VOp) : VOp.ofCode x.code = x := by
  cases x with
  | v n => exact dif_pos n.isLt
  | aq n => simp [VOp.code, VOp.ofCode]; omega
  | _ => rfl

theorem VOp.code_ofCode {n : Nat} (h : n < 128) : (VOp.ofCode n).code = n := by
  unfold VOp.ofCode
  split
  · rfl
  · split
    · simp only [VOp.code, Fin.ofNat]; omega
    · split_ifs <;> simp only [VOp.code] <;> omega

theorem VOp.isLit_eq (x : VOp) : x.isLit = (x.code == 127) := by
  cases x with
  | v n => exact (beq_eq_false_iff_ne.mpr (by simp only [VOp.code]; omega)).symm
  | aq n => exact (beq_eq_false_iff_ne.mpr (by simp only [VOp.code]; omega)).symm
  | _ => rfl

theorem SOp.code_lt (x : SOp) : x.code < 64 := by
  cases x <;> simp only [SOp.code] <;> omega

@[simp] theorem SOp.ofCode_code (x : SOp) : SOp.ofCode x.code = x := by
  cases x with
  | s n => exact dif_pos n.isLt
  | lit => rfl

theorem SOp.code_ofCode {n : Nat} (h : n < 64) : (SOp.ofCode n).code = n := by
  unfold SOp.ofCode
  split
  · rfl
  · simp only [SOp.code]; omega

theorem SOp.isLit_eq (x : SOp) : x.isLit = (x.code == 63) := by
  cases x with
  | s n => exact (beq_eq_false_iff_ne.mpr (by simp only [SOp.code]; omega)).symm
  | lit => rfl

/-! ## Modes that every code has -/

theorem XMode.code_lt (x : XMode) : x.code < 4 := by cases x <;> decide

@[simp] theorem XMode.ofCode_code (x : XMode) : XMode.ofCode x.code = x := by cases x <;> rfl

theorem XMode.code_ofCode : ∀ {n : Nat}, n < 4 → (XMode.ofCode n).code = n := by decide

theorem RMode.code_lt (x : RMode) : x.code < 4 := by cases x <;> decide

@[simp] theorem RMode.ofCode_code (x : RMode) : RMode.ofCode x.code = x := by cases x <;> rfl

theorem RMode.code_ofCode : ∀ {n : Nat}, n < 4 → (RMode.ofCode n).code = n := by decide

/-! ## Codes with reserved points: a code is taken exactly where it is its meaning's -/

theorem Space.ofCode_eq_some {n : Nat} {x : Space} : Space.ofCode n = some x ↔ n = x.code := by
  refine ⟨fun h => ?_, ?_⟩
  · unfold Space.ofCode at h
    split at h <;> cases h <;> rfl
  · rintro rfl; cases x <;> rfl

theorem Size.ofCode_eq_some {n : Nat} {x : Size} : Size.ofCode n = some x ↔ n = x.code := by
  refine ⟨fun h => ?_, ?_⟩
  · unfold Size.ofCode at h
    split at h <;> cases h <;> rfl
  · rintro rfl; cases x <;> rfl

theorem Cond.ofCode_eq_some {n : Nat} {x : Cond} : Cond.ofCode n = some x ↔ n = x.code := by
  refine ⟨fun h => ?_, ?_⟩
  · unfold Cond.ofCode at h
    split at h <;> cases h <;> rfl
  · rintro rfl; cases x <;> rfl

theorem FCond.ofCode_eq_some {n : Nat} {x : FCond} : FCond.ofCode n = some x ↔ n = x.code := by
  refine ⟨fun h => ?_, ?_⟩
  · unfold FCond.ofCode at h
    split at h <;> cases h <;> rfl
  · rintro rfl; cases x <;> rfl

theorem FoldOp.ofCode_eq_some {n : Nat} {x : FoldOp} : FoldOp.ofCode n = some x ↔ n = x.code := by
  refine ⟨fun h => ?_, ?_⟩
  · unfold FoldOp.ofCode at h
    split at h <;> cases h <;> rfl
  · rintro rfl; cases x <;> rfl

theorem VoteMode.ofCode_eq_some {n : Nat} {x : VoteMode} : VoteMode.ofCode n = some x ↔ n = x.code := by
  refine ⟨fun h => ?_, ?_⟩
  · unfold VoteMode.ofCode at h
    split at h <;> cases h <;> rfl
  · rintro rfl; cases x <;> rfl

theorem Scope.ofCode_eq_some {n : Nat} {x : Scope} : Scope.ofCode n = some x ↔ n = x.code := by
  refine ⟨fun h => ?_, ?_⟩
  · unfold Scope.ofCode at h
    split at h <;> cases h <;> rfl
  · rintro rfl; cases x <;> rfl

theorem Ty.ofCode_eq_some {n : Nat} {x : Ty} : Ty.ofCode n = some x ↔ n = x.code := by
  refine ⟨fun h => ?_, ?_⟩
  · unfold Ty.ofCode at h
    split at h <;> cases h <;> rfl
  · rintro rfl; cases x <;> rfl

theorem FxTy.ofCode_eq_some {n : Nat} {x : FxTy} : FxTy.ofCode n = some x ↔ n = x.code := by
  refine ⟨fun h => ?_, ?_⟩
  · unfold FxTy.ofCode at h
    split at h <;> cases h <;> rfl
  · rintro rfl; cases x <;> rfl

theorem FxOp.ofCode_eq_some {n : Nat} {x : FxOp} : FxOp.ofCode n = some x ↔ n = x.code := by
  refine ⟨fun h => ?_, ?_⟩
  · unfold FxOp.ofCode at h
    split at h <;> cases h <;> rfl
  · rintro rfl; cases x <;> rfl

theorem AtomOp.ofCode_eq_some {n : Nat} {x : AtomOp} : AtomOp.ofCode n = some x ↔ n = x.code := by
  refine ⟨fun h => ?_, ?_⟩
  · unfold AtomOp.ofCode at h
    split at h <;> cases h <;> rfl
  · rintro rfl; cases x <;> rfl

theorem PrefLvl.ofCode_eq_some {n : Nat} {x : PrefLvl} : PrefLvl.ofCode n = some x ↔ n = x.code := by
  refine ⟨fun h => ?_, ?_⟩
  · unfold PrefLvl.ofCode at h
    split at h <;> cases h <;> rfl
  · rintro rfl; cases x <;> rfl

theorem Ord.ofCode_eq_some {n : Nat} {x : Ord} : Ord.ofCode n = some x ↔ n = x.code := by
  refine ⟨fun h => ?_, ?_⟩
  · unfold Ord.ofCode at h
    split at h <;> cases h
    all_goals
      rename_i hlow hscope
      rw [Scope.ofCode_eq_some] at hscope
      simp only [Ord.code, Scope.code] at *
      omega
  · rintro rfl
    cases x with
    | relaxed => rfl
    | acq sc => cases sc <;> rfl
    | rel sc => cases sc <;> rfl
    | ar sc => cases sc <;> rfl

theorem Space.code_lt (x : Space) : x.code < 8 := by cases x <;> decide

theorem Size.code_lt (x : Size) : x.code < 8 := by cases x <;> decide

theorem Cond.code_lt (x : Cond) : x.code < 16 := by cases x <;> decide

theorem FCond.code_lt (x : FCond) : x.code < 16 := by cases x <;> decide

theorem FoldOp.code_lt (x : FoldOp) : x.code < 16 := by cases x <;> decide

theorem VoteMode.code_lt (x : VoteMode) : x.code < 8 := by cases x <;> decide

theorem Scope.code_lt (x : Scope) : x.code < 8 := by cases x <;> decide

theorem Ty.code_lt (x : Ty) : x.code < 16 := by cases x <;> decide

theorem FxTy.code_lt (x : FxTy) : x.code < 16 := by cases x <;> decide

theorem FxOp.code_lt (x : FxOp) : x.code < 16 := by cases x <;> decide

theorem AtomOp.code_lt (x : AtomOp) : x.code < 16 := by cases x <;> decide

theorem PrefLvl.code_lt (x : PrefLvl) : x.code < 4 := by cases x <;> decide

theorem Ord.code_lt (x : Ord) : x.code < 32 := by
  cases x with
  | relaxed => decide
  | acq sc | rel sc | ar sc => have := sc.code_lt; simp only [Ord.code]; omega

end Sys2Proof
end

section
/-! SUPPORT. The layouts of R135 to R138: the fields that the decoder reads from a word, and the words that the encoder makes of fields. -/

namespace Sys2Proof

/-! ## Fields -/

theorem bits_lt (w lo len : Nat) : bits w lo len < 2 ^ len := Nat.mod_lt _ (Nat.two_pow_pos len)

@[simp] theorem q3_val (w lo : Nat) : (q3 w lo).val = bits w lo 3 := rfl

@[simp] theorem vD_code (w : Nat) : (vD w).code = bits w 14 7 := VOp.code_ofCode (bits_lt ..)
@[simp] theorem vA_code (w : Nat) : (vA w).code = bits w 7 7 := VOp.code_ofCode (bits_lt ..)
@[simp] theorem vB_code (w : Nat) : (vB w).code = bits w 0 7 := VOp.code_ofCode (bits_lt ..)
@[simp] theorem vC_code (e : Nat) : (vC e).code = bits e 25 7 := VOp.code_ofCode (bits_lt ..)
@[simp] theorem sD_code (w : Nat) : (sD w).code = bits w 18 6 := SOp.code_ofCode (bits_lt ..)
@[simp] theorem sA_code (w : Nat) : (sA w).code = bits w 12 6 := SOp.code_ofCode (bits_lt ..)
@[simp] theorem sB_code (w : Nat) : (sB w).code = bits w 6 6 := SOp.code_ofCode (bits_lt ..)
@[simp] theorem SOp.code_bits (w lo : Nat) : (SOp.ofCode (bits w lo 6)).code = bits w lo 6 := SOp.code_ofCode (bits_lt ..)
@[simp] theorem VOp.code_bits (w lo : Nat) : (VOp.ofCode (bits w lo 7)).code = bits w lo 7 := VOp.code_ofCode (bits_lt ..)
@[simp] theorem RMode.code_bits (w lo : Nat) : (RMode.ofCode (bits w lo 2)).code = bits w lo 2 := RMode.code_ofCode (bits_lt ..)
@[simp] theorem XMode.code_bits (w lo : Nat) : (XMode.ofCode (bits w lo 2)).code = bits w lo 2 := XMode.code_ofCode (bits_lt ..)
@[simp] theorem offs_toNat (w : Nat) : (offs w).toNat = bits w 0 20 := by simp [offs, bits]

/-- A flag's bit. -/
@[simp] theorem toNat_flag (w lo : Nat) : (bits w lo 1 == 1).toNat = bits w lo 1 := by
  obtain h | h := Nat.mod_two_eq_zero_or_one (w / 2 ^ lo) <;> simp [bits, h]

/-! ## Words of their own fields -/

section
variable {w p : Nat} (hp : w / 0x1000000 = p)
include hp

theorem encA_fields : encA p (bits w 21 3) (bits w 14 7) (bits w 7 7) (bits w 0 7) = w := by
  simp only [encA, bits]; omega

theorem encG_fields : encG p (bits w 18 6) (bits w 12 6) (bits w 6 6) (bits w 0 6) = w := by
  simp only [encG, bits]; omega

theorem encB_fields : encB p (bits w 20 4) (offs w) = w := by
  simp only [encB, offs_toNat, bits]; omega

theorem enc_fA (k : Nat) : (fA w k).enc p = w := by simpa only [FormA.enc, fA, q3_val, vD_code, vA_code, vB_code] using encA_fields hp

theorem enc_fA1 (k : Nat) (h : bits w 0 7 = 0) : (fA1 w k).enc p = w := by
  simpa only [FormA1.enc, fA1, q3_val, vD_code, vA_code, h] using encA_fields hp

theorem enc_fA3 (e k : Nat) : (fA3 w e k).enc p = w := by
  simpa only [FormA3.enc, fA3, q3_val, vD_code, vA_code, vB_code] using encA_fields hp

theorem enc_fL (h : bits w 10 6 = 0) (h' : bits w 3 4 = 0) : (fL w).enc p = w := by
  simp only [FormL.enc, fL, q3_val, toNat_flag]
  simp only [bits] at *; omega

theorem enc_fG (k : Nat) : (fG w k).enc p (bits w 0 6) = w := by
  simpa only [FormG.enc, fG, sD_code, sA_code, sB_code] using encG_fields hp

theorem enc_withM {z : Size} {sp : Space} (k : Word) (hz : bits w 4 3 = z.code) (hsp : bits w 1 3 = sp.code) :
    FormM.enc ⟨q3 w 21, vD w, vA w, z, sp, bits w 0 1 == 1, k⟩ p = w := by
  simp only [FormM.enc, encA, q3_val, vD_code, vA_code, toNat_flag]
  simp only [bits] at *; omega

theorem enc_withT {sp : Space} (k : Word) (hsp : bits w 3 3 = sp.code) (h : bits w 21 3 = 0) (h' : bits w 0 3 = 0) :
    FormT.enc ⟨q3 w 18, sA w, sB w, sp, k⟩ p = w := by
  simp only [FormT.enc, encG, q3_val, sA_code, sB_code, bits] at *; omega

theorem enc_withQ {z : Size} {sp : Space} (k : Word) (hz : bits w 0 3 = z.code) (hsp : bits w 3 3 = sp.code) (h : bits w 20 4 = 0) :
    FormQ.enc ⟨sA w, sB w, sp, z, k⟩ p (bits w 18 2) = w := by
  simp only [FormQ.enc, encG, sA_code, sB_code, bits] at *; omega

end

/-! ## Literal sources -/

@[simp] theorem vD_isLit (w : Nat) : (vD w).isLit = (bits w 14 7 == 127) := by rw [VOp.isLit_eq, vD_code]
@[simp] theorem vA_isLit (w : Nat) : (vA w).isLit = (bits w 7 7 == 127) := by rw [VOp.isLit_eq, vA_code]
@[simp] theorem vB_isLit (w : Nat) : (vB w).isLit = (bits w 0 7 == 127) := by rw [VOp.isLit_eq, vB_code]
@[simp] theorem vC_isLit (e : Nat) : (vC e).isLit = (bits e 25 7 == 127) := by rw [VOp.isLit_eq, vC_code]
@[simp] theorem VOp.isLit_bits (w lo : Nat) : (VOp.ofCode (bits w lo 7)).isLit = (bits w lo 7 == 127) := by rw [VOp.isLit_eq, VOp.code_bits]
@[simp] theorem sD_isLit (w : Nat) : (sD w).isLit = (bits w 18 6 == 63) := by rw [SOp.isLit_eq, sD_code]
@[simp] theorem sA_isLit (w : Nat) : (sA w).isLit = (bits w 12 6 == 63) := by rw [SOp.isLit_eq, sA_code]
@[simp] theorem sB_isLit (w : Nat) : (sB w).isLit = (bits w 6 6 == 63) := by rw [SOp.isLit_eq, sB_code]
@[simp] theorem SOp.isLit_bits (w lo : Nat) : (SOp.ofCode (bits w lo 6)).isLit = (bits w lo 6 == 63) := by rw [SOp.isLit_eq, SOp.code_bits]

end Sys2Proof
end

section
/-! SUPPORT. What the decoder takes from words stands in them: the instruction's encoding gives the words back, its literal sources are
those of the words, and its literal is the literal word (R133, R134, R142). -/

namespace Sys2Proof

/-- What the fields of an instruction with words must be besides its codes: an unassigned word lies at an unassigned point, and a `bar`
without an operation has no registers (R134, R147). -/
def Instr.tied : Instr → Bool
  | .unassignedOpcode w => !assignedPoint (w.toNat / 0x1000000)
  | .bar d a none _ => d == .s 0 && a == .s 0
  | _ => true

theorem Instr.wf_eq (i : Instr) : i.wf = ((i.lit == 0 || i.namesLit) && i.tied) := by
  unfold wf tied
  rfl

/-- The words `w`, `e` and `k` stand for an instruction: they are its first word, its extension word where the point has one, and its
literal word where it carries one. -/
structure StandFor (w e k : Nat) (i : Instr) : Prop where
  head : encodeHead i = some (w, if hasExt (w / 0x1000000) then some e else none)
  lits : hasLit w e = i.namesLit
  lit : i.lit = 0 ∨ i.lit = BitVec.ofNat 32 k
  tied : i.tied = true

/-- What a decoding answers, if it is an instruction, is one that the words stand for. -/
def Sound (w e k : Nat) (r : Except DecodeError Instr) : Prop := ∀ i, r = .ok i → StandFor w e k i

/-! ## The decoder's combinators -/

section
variable {w e k : Nat}

theorem sound_error (err : DecodeError) : Sound w e k (.error err) := by rintro _ ⟨⟩

theorem sound_ok {i : Instr} (h : StandFor w e k i) : Sound w e k (.ok i) := by rintro _ ⟨⟩; exact h

theorem sound_okIf {c : Bool} {i : Instr} (h : c = true → StandFor w e k i) : Sound w e k (okIf c i) := by
  unfold okIf
  split
  · exact sound_ok (h ‹_›)
  · exact sound_error _

theorem sound_code {α : Type} {o : Option α} {err : DecodeError} {f : α → Except DecodeError Instr}
    (h : ∀ x, o = some x → Sound w e k (f x)) : Sound w e k (code o err f) := by
  cases o with
  | none => exact sound_error _
  | some x => exact h x rfl

theorem sound_unless {c : Bool} {err : DecodeError} {r : Except DecodeError Instr} (h : c = false → Sound w e k r) :
    Sound w e k (if c then .error err else r) := by
  split
  · exact sound_error _
  · exact h (Bool.eq_false_iff.mpr ‹_›)

/-- An instruction of one word besides its literal. -/
theorem standFor_word {i : Instr} {p w' : Nat} (hp : w / 0x1000000 = p) (head : encodeHead i = some (w', none)) (hw : w' = w)
    (lits : hasLit w e = i.namesLit) (lit : i.lit = 0 ∨ i.lit = BitVec.ofNat 32 k) (ext : hasExt p = false := by rfl)
    (tied : i.tied = true := by rfl) : StandFor w e k i :=
  ⟨by rw [head, hp, ext, hw]; rfl, lits, lit, tied⟩

/-- An instruction with an extension word. -/
theorem standFor_ext {i : Instr} {p w' e' : Nat} (hp : w / 0x1000000 = p) (head : encodeHead i = some (w', some e')) (hw : w' = w)
    (he : e' = e) (lits : hasLit w e = i.namesLit) (lit : i.lit = 0 ∨ i.lit = BitVec.ofNat 32 k) (ext : hasExt p = true := by rfl)
    (tied : i.tied = true := by rfl) : StandFor w e k i :=
  ⟨by rw [head, hp, ext, hw, he]; rfl, lits, lit, tied⟩

end

/-! ## The operand forms -/

section
variable {w e k : Nat}

theorem namesLit_fA : (fA w k).namesLit = (bits w 7 7 == 127 || bits w 0 7 == 127) := by
  rw [FormA.namesLit, fA, vA_isLit, vB_isLit]

theorem namesLit_fA3 : (fA3 w e k).namesLit = (bits w 7 7 == 127 || bits w 0 7 == 127 || bits e 25 7 == 127) := by
  rw [FormA3.namesLit, fA3, vA_isLit, vB_isLit, vC_isLit]

theorem namesLit_fG : (fG w k).namesLit = (bits w 12 6 == 63 || bits w 6 6 == 63) := by
  rw [FormG.namesLit, fG, sA_isLit, sB_isLit]

variable {p : Nat} (hp : w / 0x1000000 = p)
include hp

theorem sound_fA {f : FormA → Instr} (head : encodeHead (f (fA w k)) = some ((fA w k).enc p, none))
    (names : (f (fA w k)).namesLit = (fA w k).namesLit) (lits : hasLit w e = (bits w 7 7 == 127 || bits w 0 7 == 127))
    (lit : (f (fA w k)).lit = (fA w k).k) (ext : hasExt p = false := by rfl) (tied : (f (fA w k)).tied = true := by rfl) :
    Sound w e k (.ok (f (fA w k))) :=
  sound_ok (standFor_word hp head (enc_fA hp k) (by rw [names, namesLit_fA, lits]) (.inr lit) ext tied)

theorem sound_fA1 {f : FormA1 → Instr} (head : encodeHead (f (fA1 w k)) = some ((fA1 w k).enc p, none))
    (names : (f (fA1 w k)).namesLit = (fA1 w k).namesLit) (lits : hasLit w e = (bits w 7 7 == 127))
    (lit : (f (fA1 w k)).lit = (fA1 w k).k) (ext : hasExt p = false := by rfl) (tied : (f (fA1 w k)).tied = true := by rfl) :
    Sound w e k (okIf (bits w 0 7 == 0) (f (fA1 w k))) :=
  sound_okIf fun hc => standFor_word hp head (enc_fA1 hp k (beq_iff_eq.mp hc)) (by rw [names, lits]; exact (vA_isLit w).symm)
    (.inr lit) ext tied

theorem sound_fL {f : FormL → Instr} (head : encodeHead (f (fL w)) = some ((fL w).enc p, none))
    (lits : hasLit w e = (f (fL w)).namesLit) (lit : (f (fL w)).lit = 0) (ext : hasExt p = false := by rfl)
    (tied : (f (fL w)).tied = true := by rfl) : Sound w e k (okIf (bits w 10 6 == 0 && bits w 3 4 == 0) (f (fL w))) :=
  sound_okIf fun hc => by
    simp only [Bool.and_eq_true, beq_iff_eq] at hc
    exact standFor_word hp head (enc_fL hp hc.1 hc.2) lits (.inl lit) ext tied

end

section
variable {w e k : Nat}

theorem sound_withM {f : FormM → Except DecodeError Instr}
    (h : ∀ z sp, bits w 4 3 = z.code → bits w 1 3 = sp.code → Sound w e k
      (f ⟨q3 w 21, vD w, vA w, z, sp, bits w 0 1 == 1, BitVec.ofNat 32 k⟩)) :
    Sound w e k (withM w k f) :=
  sound_code fun _ hz => sound_code fun _ hsp => h _ _ (Size.ofCode_eq_some.mp hz) (Space.ofCode_eq_some.mp hsp)

/-- A point with an extension word is assigned. -/
theorem assigned_of_hasExt {p : Nat} (h : hasExt p = true) : assignedPoint p = true := by
  simp only [hasExt, assignedPoint, Bool.or_eq_true, Bool.and_eq_true, decide_eq_true_eq, beq_iff_eq] at *
  omega

/-- A word of an unassigned point has no extension word and no literal word (R134). -/
theorem sound_unassigned (hw : w < 2 ^ 32) (hp : assignedPoint (w / 0x1000000) = false) :
    Sound w e k (.ok (.unassignedOpcode (BitVec.ofNat 32 w))) := by
  have hword : (BitVec.ofNat 32 w).toNat = w := Nat.mod_eq_of_lt hw
  have hext : hasExt (w / 0x1000000) = false := Bool.eq_false_iff.mpr fun h => by simp [assigned_of_hasExt h] at hp
  have hlit : hasLit w e = false := by rw [hasLit, hp]; rfl
  refine sound_ok ⟨?_, hlit, .inl rfl, ?_⟩
  · rw [hext]; exact congrArg (fun x => some (x, none)) hword
  · rw [Instr.tied, hword, hp]; rfl

end

theorem FxOp.ne_sqrt_eq (op : FxOp) : (op != .sqrt) = (op.code != 7) := by cases op <;> rfl

theorem FxOp.eq_fma_eq (op : FxOp) : (op == .fma) = (op.code == 3) := by cases op <;> rfl

theorem decodeP_sound (w e k : Nat) (hw : w < 0x80000000) (he : e < 2 ^ 32) : Sound w e k (decodeP w e k) := by
  unfold decodeP
  split
  -- iadd, isub, imul, imulh, imulhU, idiv, idivU, irem, iremU, imin, iminU, imax, imaxU, and, or, xor, shl, shr, shrA, fadd, fsub,
  -- fmul, fmin, fmax
  case h_1 hp | h_2 hp | h_3 hp | h_4 hp | h_5 hp | h_7 hp | h_8 hp | h_9 hp | h_10 hp | h_11 hp | h_12 hp | h_13 hp | h_14 hp
      | h_16 hp | h_17 hp | h_18 hp | h_20 hp | h_21 hp | h_22 hp | h_35 hp | h_36 hp | h_37 hp | h_38 hp | h_39 hp =>
    exact sound_fA hp rfl rfl (by rw [hasLit, hp]; rfl) rfl
  -- iabs, popc, clz, brev, fsqrt, frcp, frsq, fexp2, flog2, fsin, fcos, mov
  case h_15 hp | h_23 hp | h_24 hp | h_25 hp | h_43 hp | h_44 hp | h_45 hp | h_46 hp | h_47 hp | h_48 hp | h_49 hp | h_51 hp =>
    exact sound_fA1 hp rfl rfl (by rw [hasLit, hp]; rfl) rfl
  -- qand, qor, qxor
  case h_30 hp | h_31 hp | h_32 hp => exact sound_fL hp rfl (by rw [hasLit, hp]; rfl) rfl
  -- imad
  case h_6 hp =>
    refine sound_okIf fun hc => standFor_ext hp rfl (enc_fA3 hp e k) ?_ (by rw [hasLit, hp]; exact namesLit_fA3.symm) (.inr rfl)
    simp only [fA3, vC_code, bits, beq_iff_eq] at *; omega
  -- bmix
  case h_19 hp =>
    refine sound_okIf fun hc => standFor_ext hp rfl (enc_fA3 hp e k) ?_ (by rw [hasLit, hp]; exact namesLit_fA3.symm) (.inr rfl)
    simp only [fA3, vC_code, bits, beq_iff_eq, BitVec.toNat_ofNat] at *; omega
  -- bfe
  case h_26 hp =>
    refine sound_okIf fun hc => ?_
    simp only [bfExt, Bool.and_eq_true, beq_iff_eq] at hc
    refine standFor_ext hp rfl (enc_fA1 hp k hc.1) ?_ (by rw [hasLit, hp]; exact (vA_isLit w).symm) (.inr rfl)
    simp only [toNat_flag, BitVec.toNat_ofNat]
    simp only [bits] at *; omega
  -- bfi
  case h_27 hp =>
    refine sound_okIf fun hc => standFor_ext hp rfl (enc_fA hp k) ?_ (by rw [hasLit, hp]; exact namesLit_fA.symm) (.inr rfl)
    simp only [bfExt, Bool.and_eq_true, beq_iff_eq, BitVec.toNat_ofNat, bits] at *; omega
  -- icmp
  case h_28 hp =>
    refine sound_code fun cc hcc => sound_ok ?_
    rw [Cond.ofCode_eq_some] at hcc
    refine standFor_word hp rfl ?_ (by rw [hasLit, hp]; exact namesLit_fA (k := k).symm) (.inr rfl)
    simp only [encA, q3_val, vA_code, vB_code, bits] at *; omega
  -- fcmp
  case h_29 hp =>
    refine sound_code fun cc hcc => sound_ok ?_
    rw [FCond.ofCode_eq_some] at hcc
    refine standFor_word hp rfl ?_ (by rw [hasLit, hp]; exact namesLit_fA (k := k).symm) (.inr rfl)
    simp only [encA, q3_val, vA_code, vB_code, bits] at *; omega
  -- sel
  case h_33 hp =>
    exact sound_ok (standFor_word hp rfl (enc_fA hp k) (by rw [hasLit, hp]; exact namesLit_fA (k := k).symm) (.inr rfl))
  -- movqRead, movqWrite
  case h_34 hp =>
    split
    case h_1 hb =>
      refine sound_okIf fun hc => standFor_word hp rfl ?_ (by rw [hasLit, hp, hb]; rfl) (.inl rfl)
      simp only [encA, q3_val, vD_code, bits, beq_iff_eq] at *; omega
    case h_2 hb =>
      refine sound_okIf fun hc => standFor_word hp rfl ?_ (by rw [hasLit, hp, hb]; exact (vA_isLit w).symm) (.inr rfl)
      simp only [encA, q3_val, vA_code, bits, beq_iff_eq] at *; omega
    case h_3 => exact sound_error _
  -- ffma
  case h_40 hp =>
    refine sound_okIf fun hc => standFor_ext hp rfl (enc_fA3 hp e k) ?_ (by rw [hasLit, hp]; exact namesLit_fA3.symm) (.inr rfl)
    simp only [fA3, vC_code, toNat_flag, RMode.code_bits, beq_iff_eq] at *
    simp only [bits] at *; omega
  -- fx
  case h_41 hp =>
    refine sound_code fun ty hty => sound_code fun op hop => sound_okIf fun hc => ?_
    rw [FxTy.ofCode_eq_some] at hty
    rw [FxOp.ofCode_eq_some] at hop
    refine standFor_ext hp rfl (enc_fA3 hp e k) ?_ ?_ (.inr rfl)
    · simp only [fA3, vC_code, toNat_flag, RMode.code_bits, Bool.and_eq_true, beq_iff_eq] at *
      simp only [bits] at *; omega
    · rw [hasLit, hp]
      simp only [Instr.namesLit, fA3, vA_isLit, vB_isLit, vC_isLit, op.ne_sqrt_eq, op.eq_fma_eq, ← hop]
      rfl
  -- fdiv
  case h_42 hp =>
    refine sound_okIf fun hc => standFor_ext hp rfl (enc_fA hp k) ?_ (by rw [hasLit, hp]; exact namesLit_fA.symm) (.inr rfl)
    simp only [RMode.code_bits, beq_iff_eq] at *
    simp only [bits] at *; omega
  -- cvt
  case h_50 hp =>
    refine sound_code fun st hst => sound_code fun dt hdt => sound_okIf fun hc => ?_
    rw [Ty.ofCode_eq_some] at hst hdt
    simp only [Bool.and_eq_true, beq_iff_eq] at hc
    refine standFor_ext hp rfl (enc_fA1 hp k hc.1.1) ?_ (by rw [hasLit, hp]; exact (vA_isLit w).symm) (.inr rfl)
    simp only [toNat_flag, RMode.code_bits, BitVec.toNat_ofNat]
    simp only [bits] at *; omega
  -- movs
  case h_52 hp =>
    refine sound_okIf fun hc => standFor_word hp rfl ?_ (by rw [hasLit, hp]; exact (SOp.isLit_bits w 7).symm) (.inr rfl)
    simp only [encA, q3_val, vD_code, SOp.code_bits, Bool.and_eq_true, beq_iff_eq] at *
    simp only [bits] at *; omega
  -- xlane
  case h_53 hp =>
    refine sound_unless fun hz => ?_
    split
    case isTrue hg =>
      refine sound_ok (standFor_ext hp rfl (enc_fA hp k) ?_ (by rw [hasLit, hp]; exact namesLit_fA.symm) (.inr rfl))
      simp only [XMode.code_bits, bne_eq_false_iff_eq] at *
      simp only [bits] at *; omega
    case isFalse => exact sound_error _
  -- vote
  case h_54 hp =>
    refine sound_code fun m hm => sound_unless fun hz => sound_okIf fun hc => ?_
    rw [VoteMode.ofCode_eq_some] at hm
    refine standFor_word hp rfl ?_ (by rw [hasLit, hp]; rfl) (.inl rfl)
    simp only [encA, q3_val, SOp.code_bits, bne_eq_false_iff_eq, beq_iff_eq] at *
    simp only [bits] at *; omega
  -- lfold
  case h_55 hp =>
    refine sound_code fun op hop => sound_unless fun hz => sound_ok ?_
    rw [FoldOp.ofCode_eq_some] at hop
    refine standFor_word hp rfl ?_ (by rw [hasLit, hp]; exact (vA_isLit w).symm) (.inr rfl)
    simp only [encA, q3_val, vA_code, SOp.code_bits, bne_eq_false_iff_eq] at *
    simp only [bits] at *; omega
  -- ld
  case h_56 hp =>
    refine sound_withM fun z sp hz hsp => sound_ok ?_
    exact standFor_word hp rfl (enc_withM hp _ hz hsp)
      (by rw [hasLit, hp]; exact (vA_isLit w).symm) (.inr rfl)
  -- st
  case h_57 hp =>
    refine sound_withM fun z sp hz hsp => sound_ok ?_
    exact standFor_word hp rfl (enc_withM hp _ hz hsp)
      (by rw [hasLit, hp]; exact (congrArg₂ (· || ·) (vD_isLit w) (vA_isLit w)).symm) (.inr rfl)
  -- ldx
  case h_58 hp =>
    refine sound_withM fun z sp hz hsp => sound_ok ?_
    exact standFor_ext hp rfl (enc_withM hp _ hz hsp) (Nat.mod_eq_of_lt he)
      (by rw [hasLit, hp]; exact (vA_isLit w).symm) (.inr rfl)
  -- stx
  case h_59 hp =>
    refine sound_withM fun z sp hz hsp => sound_ok ?_
    exact standFor_ext hp rfl (enc_withM hp _ hz hsp) (Nat.mod_eq_of_lt he)
      (by rw [hasLit, hp]; exact (congrArg₂ (· || ·) (vD_isLit w) (vA_isLit w)).symm) (.inr rfl)
  -- atom
  case h_60 hp =>
    refine sound_withM fun z sp hz hsp => sound_code fun op hop => sound_code fun od hod => sound_okIf fun hc => ?_
    rw [AtomOp.ofCode_eq_some] at hop
    rw [Ord.ofCode_eq_some] at hod
    refine standFor_ext hp rfl (enc_withM hp _ hz hsp) ?_ (by rw [hasLit, hp]; exact (congrArg₂ (· || ·) (vA_isLit w) (vC_isLit e)).symm)
      (.inr rfl)
    simp only [vC_code, bits, Bool.and_eq_true, beq_iff_eq] at *; omega
  -- cas
  case h_61 hp =>
    refine sound_withM fun z sp hz hsp => sound_code fun od hod => sound_okIf fun hc => ?_
    rw [Ord.ofCode_eq_some] at hod
    refine standFor_ext hp rfl (enc_withM hp _ hz hsp) ?_ ?_ (.inr rfl)
    · simp only [vC_code, VOp.code_bits, Bool.and_eq_true, beq_iff_eq] at *
      simp only [bits] at *; omega
    · rw [hasLit, hp]
      exact (congrArg₂ (· || ·) (congrArg₂ (· || ·) (vA_isLit w) (vC_isLit e)) (VOp.isLit_bits e 18)).symm
  -- spawn
  case h_62 hp =>
    refine sound_okIf fun hc => standFor_word hp rfl ?_ (by rw [hasLit, hp]; exact namesLit_fA (k := k).symm) (.inr rfl)
    simp only [encA, q3_val, vA_code, vB_code, bits, beq_iff_eq] at *; omega
  -- mma
  case h_63 hp =>
    refine sound_okIf fun hc => standFor_word hp rfl ?_ (by rw [hasLit, hp]; exact (vD_isLit w).symm) (.inr rfl)
    simp only [encA, q3_val, vD_code, bits, Bool.and_eq_true, beq_iff_eq, Fin.ofNat] at *; omega
  -- unassigned points
  case h_64 =>
    refine sound_unassigned (by omega) ?_
    simp only [imp_false] at *
    simp only [assignedPoint, Bool.or_eq_false_iff, Bool.and_eq_false_iff, decide_eq_false_iff_not, beq_eq_false_iff_ne]
    omega

section
variable {w e k : Nat}

theorem sound_withT {f : FormT → Instr} (h : ∀ sp, bits w 3 3 = sp.code → bits w 21 3 = 0 → bits w 0 3 = 0 →
    StandFor w e k (f ⟨q3 w 18, sA w, sB w, sp, BitVec.ofNat 32 k⟩)) : Sound w e k (withT w k f) :=
  sound_code fun sp hsp => sound_okIf fun hc => by
    simp only [Bool.and_eq_true, beq_iff_eq] at hc
    exact h sp (Space.ofCode_eq_some.mp hsp) hc.1 hc.2

theorem sound_withQ {f : FormQ → Instr} (h : ∀ z sp, bits w 0 3 = z.code → bits w 3 3 = sp.code → bits w 20 4 = 0 →
    StandFor w e k (f ⟨sA w, sB w, sp, z, BitVec.ofNat 32 k⟩)) : Sound w e k (withQ w k f) :=
  sound_code fun z hz => sound_code fun sp hsp => sound_okIf fun hc =>
    h z sp (Size.ofCode_eq_some.mp hz) (Space.ofCode_eq_some.mp hsp) (beq_iff_eq.mp hc)

variable {p : Nat} (hp : w / 0x1000000 = p)
include hp

theorem standFor_fG {f : FormG → Instr} {n : Nat} (hn : bits w 0 6 = n) (head : encodeHead (f (fG w k)) = some ((fG w k).enc p n, none))
    (names : (f (fG w k)).namesLit = (fG w k).namesLit) (lits : hasLit w e = (bits w 12 6 == 63 || bits w 6 6 == 63))
    (lit : (f (fG w k)).lit = (fG w k).k) (ext : hasExt p = false := by rfl) (tied : (f (fG w k)).tied = true := by rfl) :
    StandFor w e k (f (fG w k)) :=
  standFor_word hp head (hn ▸ enc_fG hp k) (by rw [names, namesLit_fG, lits]) (.inr lit) ext tied

theorem standFor_encG {i : Instr} {d a b f : Nat} (head : encodeHead i = some (encG p d a b f, none)) (hd : d = bits w 18 6)
    (ha : a = bits w 12 6) (hb : b = bits w 6 6) (hf : f = bits w 0 6) (lits : hasLit w e = i.namesLit)
    (lit : i.lit = 0 ∨ i.lit = BitVec.ofNat 32 k) (ext : hasExt p = false := by rfl) (tied : i.tied = true := by rfl) : StandFor w e k i :=
  standFor_word hp head (by rw [hd, ha, hb, hf, encG_fields hp]) lits lit ext tied

/-- An opcode whose lower bits are zero. -/
theorem standFor_bare {i : Instr} (hz : bits w 0 24 = 0) (head : encodeHead i = some (p * 0x1000000, none))
    (lits : hasLit w e = i.namesLit) (lit : i.lit = 0) (ext : hasExt p = false := by rfl) (tied : i.tied = true := by rfl) :
    StandFor w e k i :=
  standFor_word hp head (by simp only [bits] at hz; omega) lits (.inl lit) ext tied

/-- A branch with nothing but its offset. -/
theorem standFor_fB {f : BitVec 20 → Instr} (hz : bits w 20 4 = 0) (head : encodeHead (f (offs w)) = some (encB p 0 (offs w), none))
    (lits : hasLit w e = (f (offs w)).namesLit) (lit : (f (offs w)).lit = 0) (ext : hasExt p = false := by rfl)
    (tied : (f (offs w)).tied = true := by rfl) : StandFor w e k (f (offs w)) :=
  standFor_word hp head (hz ▸ encB_fields hp) lits (.inl lit) ext tied

end

theorem decodeG_sound (w e k : Nat) (hlow : 0x80000000 ≤ w) (hw : w < 2 ^ 32) (he : e < 2 ^ 32) : Sound w e k (decodeG w e k) := by
  unfold decodeG
  dsimp only
  split
  -- sadd, ssub, smul, sand, sor, sxor, sshl, dstat, wdrun
  case h_1 hp | h_2 hp | h_3 hp | h_4 hp | h_5 hp | h_6 hp | h_7 hp | h_42 hp | h_47 hp =>
    exact sound_okIf fun hf => standFor_fG hp (beq_iff_eq.mp hf) rfl rfl (by rw [hasLit, hp]; rfl) rfl
  -- sshr, sshrA, smin, sminU, smax, smaxU
  case h_8 hp | h_9 hp | h_10 hp =>
    split
    case h_1 hf | h_2 hf => exact sound_ok (standFor_fG hp hf rfl rfl (by rw [hasLit, hp]; rfl) rfl)
    case h_3 => exact sound_error _
  -- stestHold, stestChunk, stestAppeal, stestFree
  case h_55 hp =>
    split
    case h_1 hf | h_2 hf | h_3 hf | h_4 hf => exact sound_ok (standFor_fG hp hf rfl rfl (by rw [hasLit, hp]; rfl) rfl)
    case h_5 => exact sound_error _
  -- join, exit, barc, nop, eret, brk
  case h_18 hp | h_22 hp | h_27 hp | h_34 hp | h_50 hp | h_51 hp =>
    exact sound_okIf fun hc => standFor_bare hp (beq_iff_eq.mp hc) rfl (by rw [hasLit, hp]; rfl) rfl
  -- bra, rcv, call, split
  case h_14 hp | h_17 hp | h_19 hp | h_23 hp =>
    exact sound_okIf fun hc => standFor_fB hp (beq_iff_eq.mp hc) rfl (by rw [hasLit, hp]; rfl) rfl
  -- smov
  case h_11 hp =>
    refine sound_okIf fun hc => standFor_encG hp rfl (sD_code w) (sA_code w) ?_ ?_ (by rw [hasLit, hp]; exact (sA_isLit w).symm)
      (.inr rfl) <;>
      (simp only [bits, beq_iff_eq] at *; omega)
  -- sfadd, sfmul
  case h_12 hp | h_13 hp =>
    refine sound_okIf fun hc => standFor_encG hp rfl (sD_code w) (sA_code w) (sB_code w) ?_ (by rw [hasLit, hp]; exact namesLit_fG.symm)
      (.inr rfl)
    rw [RMode.code_bits]
    simp only [bits, beq_iff_eq] at *; omega
  -- bcc
  case h_15 hp =>
    refine sound_code fun cc hcc => sound_okIf fun hc => ?_
    rw [Cond.ofCode_eq_some] at hcc
    refine standFor_ext hp rfl (hcc ▸ encB_fields hp) ?_ (by rw [hasLit, hp]; exact
      (congrArg₂ (· || ·) (SOp.isLit_bits e 6) (SOp.isLit_bits e 0)).symm) (.inr rfl)
    rw [SOp.code_bits, SOp.code_bits]
    simp only [bits, beq_iff_eq] at *; omega
  -- bq
  case h_16 hp =>
    refine sound_ok (standFor_word hp rfl ?_ (by rw [hasLit, hp]; rfl) (.inl rfl))
    simp only [encB, toNat_flag, q3_val, offs_toNat]
    simp only [bits]; omega
  -- ret
  case h_20 hp =>
    refine sound_okIf fun hc => standFor_encG hp rfl ?_ (sA_code w) ?_ ?_ (by rw [hasLit, hp]; exact (sA_isLit w).symm) (.inl rfl) <;>
      (simp only [bits, Bool.and_eq_true, beq_iff_eq] at *; omega)
  -- loop
  case h_21 hp =>
    exact sound_ok (standFor_word hp rfl (encB_fields hp) (by rw [hasLit, hp]; rfl) (.inl rfl))
  -- qld
  case h_24 hp =>
    exact sound_withQ fun z sp hz hsp h0 => standFor_word hp rfl (enc_withQ hp _ hz hsp h0)
      (by rw [hasLit, hp]; exact namesLit_fG (k := k).symm) (.inr rfl)
  -- qst
  case h_25 hp =>
    refine sound_unless fun hn => sound_withQ fun z sp hz hsp h0 => standFor_word hp rfl ?_
      (by rw [hasLit, hp]; exact namesLit_fG (k := k).symm) (.inr rfl)
    exact bne_eq_false_iff_eq.mp hn ▸ enc_withQ hp _ hz hsp h0
  -- bar
  case h_26 hp =>
    refine sound_unless fun hb => ?_
    split
    case isTrue hf =>
      rw [beq_iff_eq] at hf
      refine sound_okIf fun hc => standFor_encG hp rfl ?_ ?_ (bne_eq_false_iff_eq.mp hb).symm hf.symm (by rw [hasLit, hp, hf]; rfl)
        (.inl rfl) <;>
        (simp only [bits, SOp.code, beq_iff_eq] at *; omega)
    case isFalse hf =>
      refine sound_code fun op hop => sound_ok ?_
      rw [FoldOp.ofCode_eq_some] at hop
      refine standFor_encG hp rfl (sD_code w) (sA_code w) (bne_eq_false_iff_eq.mp hb).symm hop.symm ?_ (.inr rfl)
      rw [hasLit, hp]
      exact (congrArg₂ (· && ·) (bne_iff_ne.mpr (mt beq_iff_eq.mpr hf)) (sA_isLit w).symm)
  -- pbarr
  case h_28 hp =>
    refine sound_okIf fun hc => standFor_encG hp rfl (sD_code w) (sA_code w) (sB_code w) ?_ (by rw [hasLit, hp]; exact namesLit_fG.symm)
      (.inr rfl)
    rw [toNat_flag]
    simp only [bits, beq_iff_eq] at *; omega
  -- pbwait
  case h_29 hp =>
    refine sound_okIf fun hc => ?_
    simp only [Bool.and_eq_true, beq_iff_eq] at hc
    refine standFor_encG hp rfl hc.2.symm (sA_code w) (sB_code w) ?_ (by rw [hasLit, hp]; exact namesLit_fG (k := k).symm) (.inr rfl)
    rw [toNat_flag]
    simp only [bits] at *; omega
  -- fence
  case h_30 hp =>
    refine sound_code fun sc hsc => sound_okIf fun hc => ?_
    rw [Scope.ofCode_eq_some] at hsc
    refine standFor_encG hp rfl ?_ ?_ ?_ hsc.symm (by rw [hasLit, hp]; rfl) (.inl rfl) <;> (simp only [bits, beq_iff_eq] at *; omega)
  -- waitc
  case h_31 hp =>
    refine sound_ok (standFor_encG hp rfl ?_ ?_ ?_ ?_ (by rw [hasLit, hp]; rfl) (.inl rfl)) <;>
      (simp only [bits, BitVec.toNat_ofNat]; omega)
  -- waitw
  case h_32 hp =>
    refine sound_code fun cc hcc => sound_ok ?_
    rw [Cond.ofCode_eq_some] at hcc
    exact standFor_encG hp rfl (sD_code w) (sA_code w) (sB_code w) hcc.symm (by rw [hasLit, hp]; exact namesLit_fG (k := k).symm) (.inl rfl)
  -- sleept
  case h_33 hp =>
    refine sound_okIf fun hc => standFor_encG hp rfl ?_ (sA_code w) ?_ ?_ (by rw [hasLit, hp]; exact (sA_isLit w).symm) (.inr rfl) <;>
      (simp only [bits, Bool.and_eq_true, beq_iff_eq] at *; omega)
  -- copy
  case h_35 hp =>
    refine sound_code fun dsp hd => sound_code fun ssp hs => sound_okIf fun hc => ?_
    rw [Space.ofCode_eq_some] at hd hs
    refine standFor_encG hp rfl (sD_code w) (sA_code w) (beq_iff_eq.mp hc).symm ?_ (by rw [hasLit, hp]; exact (sA_isLit w).symm) (.inl rfl)
    rw [← hd, ← hs]
    simp only [bits]; omega
  -- tld, tst
  case h_36 hp | h_37 hp =>
    exact sound_withT fun sp hsp h0 h1 => standFor_word hp rfl (enc_withT hp _ hsp h0 h1)
      (by rw [hasLit, hp]; exact namesLit_fG (k := k).symm) (.inr rfl)
  -- czero
  case h_38 hp =>
    refine sound_okIf fun hc => standFor_encG hp rfl ?_ ?_ ?_ ?_ (by rw [hasLit, hp]; rfl) (.inl rfl) <;>
      (simp only [bits, BitVec.toNat_ofNat, beq_iff_eq] at *; omega)
  -- cst
  case h_39 hp =>
    refine sound_code fun sp hsp => sound_okIf fun hc => ?_
    rw [Space.ofCode_eq_some] at hsp
    refine standFor_encG hp rfl (sD_code w) (sA_code w) (sB_code w) ?_ ?_ (.inr rfl)
    · rw [← hsp]
      simp only [bits, Fin.ofNat, beq_iff_eq] at *; omega
    · rw [hasLit, hp]
      exact (congrArg₂ (· || ·) (congrArg₂ (· || ·) (sD_isLit w) (sA_isLit w)) (sB_isLit w)).symm
  -- dlaunch, sgfork, sgwait
  case h_40 hp | h_43 hp | h_46 hp =>
    refine sound_okIf fun hc => standFor_encG hp rfl (sD_code w) (sA_code w) ?_ ?_ (by rw [hasLit, hp]; exact (sA_isLit w).symm)
      (.inl rfl) <;>
      (simp only [bits, beq_iff_eq] at *; omega)
  -- dsigTok, dsigAbort
  case h_41 hp =>
    refine sound_unless fun hz => ?_
    simp only [Bool.or_eq_false_iff, bne_eq_false_iff_eq] at hz
    split
    case isTrue h0 =>
      rw [beq_iff_eq] at h0
      refine sound_ok (standFor_encG hp rfl hz.1.symm (sA_code w) (sB_code w) ?_ (by rw [hasLit, hp, h0]; exact namesLit_fG (k := k).symm)
        (.inr rfl))
      simp only [bits] at *; omega
    case isFalse h0 =>
      have h1 : bits w 0 1 = 1 := (Nat.mod_two_eq_zero_or_one _).resolve_left (mt beq_iff_eq.mpr h0)
      refine sound_okIf fun hc => standFor_encG hp rfl hz.1.symm (sA_code w) (beq_iff_eq.mp hc).symm ?_ ?_ (.inr rfl)
      · simp only [bits] at *; omega
      · rw [hasLit, hp, h1]
        exact (Bool.or_false _).trans (sA_isLit w).symm
  -- sgreward
  case h_44 hp =>
    refine sound_okIf fun hc => ?_
    simp only [Bool.and_eq_true, beq_iff_eq] at hc
    exact standFor_encG hp rfl (sD_code w) hc.1.symm (sB_code w) hc.2.symm (by rw [hasLit, hp]; exact (sB_isLit w).symm) (.inr rfl)
  -- sgcancel
  case h_45 hp =>
    exact sound_okIf fun hc => standFor_encG hp rfl (sD_code w) (sA_code w) (sB_code w) (beq_iff_eq.mp hc).symm
      (by rw [hasLit, hp]; exact namesLit_fG (k := k).symm) (.inr rfl)
  -- movcRead, movcWrite
  case h_48 hp =>
    split
    case isTrue h0 =>
      rw [beq_iff_eq] at h0
      refine sound_okIf fun hc => standFor_word hp rfl ?_ (by rw [hasLit, hp, h0]; rfl) (.inl rfl)
      simp only [sD_code, bits, BitVec.toNat_ofNat, beq_iff_eq] at *; omega
    case isFalse h0 =>
      have h1 : bits w 11 1 = 1 := (Nat.mod_two_eq_zero_or_one _).resolve_left (mt beq_iff_eq.mpr h0)
      refine sound_okIf fun hc => standFor_word hp rfl ?_ (by rw [hasLit, hp, h1]; exact (sA_isLit w).symm) (.inr rfl)
      simp only [sA_code, bits, BitVec.toNat_ofNat, beq_iff_eq] at *; omega
  -- trap
  case h_49 hp =>
    refine sound_okIf fun hc => ?_
    simp only [Bool.and_eq_true, beq_iff_eq] at hc
    refine standFor_encG hp rfl hc.1.symm (sA_code w) hc.2.symm ?_ (by rw [hasLit, hp]; exact (sA_isLit w).symm) (.inr rfl)
    simp only [bits, BitVec.toNat_ofNat]; omega
  -- cflush, cflushAll, cinv, cinvAll
  case h_52 hp | h_53 hp =>
    refine sound_unless fun hz => ?_
    simp only [Bool.or_eq_false_iff, bne_eq_false_iff_eq] at hz
    split
    case isTrue h0 =>
      rw [beq_iff_eq] at h0
      refine sound_ok (standFor_encG hp rfl hz.1.symm (sA_code w) (sB_code w) ?_ (by rw [hasLit, hp, h0]; exact namesLit_fG (k := k).symm)
        (.inr rfl))
      simp only [bits] at *; omega
    case isFalse h0 =>
      have h1 : bits w 0 1 = 1 := (Nat.mod_two_eq_zero_or_one _).resolve_left (mt beq_iff_eq.mpr h0)
      refine sound_okIf fun hc => standFor_word hp rfl ?_ (by rw [hasLit, hp, h1]; rfl) (.inl rfl)
      simp only [bits, beq_iff_eq] at *; omega
  -- pref
  case h_54 hp =>
    refine sound_code fun lv hlv => sound_okIf fun hc => ?_
    rw [PrefLvl.ofCode_eq_some] at hlv
    refine standFor_encG hp rfl ?_ (sA_code w) ?_ ?_ (by rw [hasLit, hp]; exact (sA_isLit w).symm) (.inl rfl) <;>
      (simp only [bits, Bool.and_eq_true, beq_iff_eq] at *; omega)
  -- unassigned points
  case h_56 =>
    refine sound_unassigned hw ?_
    simp only [imp_false] at *
    simp only [assignedPoint, Bool.or_eq_false_iff, Bool.and_eq_false_iff, decide_eq_false_iff_not, beq_eq_false_iff_ne]
    omega

/-- What the decoder takes from words of 32 bits, they stand for. -/
theorem decodeWords_sound {w e k : Nat} {i : Instr} (hw : w < 2 ^ 32) (he : e < 2 ^ 32) (h : decodeWords w e k = .ok i) :
    StandFor w e k i := by
  unfold decodeWords at h
  split at h
  · exact decodeP_sound w e k ‹_› he i h
  · exact decodeG_sound w e k (by omega) hw he i h

end Sys2Proof
end

section
/-! SUPPORT. The words of an instruction in a row: what the decoder takes from a list of words, and how it takes them (R133). -/

namespace Sys2Proof

/-- The literal word of an instruction, where a source field names it. -/
def litRow (w e k : Word) : List Word := if hasLit w.toNat e.toNat then [k] else []

/-- The extension word of an instruction, where its point has one. -/
def extRow (w e : Word) : List Word := if hasExt (w.toNat / 0x1000000) then [e] else []

/-- The words of an instruction in a row. -/
def rowOf (w e k : Word) : List Word := w :: (extRow w e ++ litRow w e k)

/-- What the decoder makes of the words that follow the first word and its extension word, `m` words up to there. -/
def decodeRest (w e : Word) (m : Nat) (r : List Word) : Except DecodeError (Instr × Nat) :=
  if hasLit w.toNat e.toNat then
    match r with
    | [] => .error .wordMissing
    | k :: _ => (decodeWords w.toNat e.toNat k.toNat).map fun i => (i, m + 1)
  else (decodeWords w.toNat e.toNat 0).map fun i => (i, m)

theorem decode_word {w : Word} (h : hasExt (w.toNat / 0x1000000) = false) (r : List Word) : decode (w :: r) = decodeRest w 0 1 r := by
  simp only [decode, h, Bool.false_eq_true, if_false]
  rfl

theorem decode_ext {w : Word} (h : hasExt (w.toNat / 0x1000000) = true) (e : Word) (r : List Word) :
    decode (w :: e :: r) = decodeRest w e 2 r := by
  simp only [decode, h, if_true, List.head?_cons, List.drop_succ_cons, List.drop_zero]
  rfl

theorem decode_ext_missing {w : Word} (h : hasExt (w.toNat / 0x1000000) = true) : decode [w] = .error .wordMissing := by
  simp only [decode, h, if_true]
  rfl

theorem map_pair_eq_ok {x : Except DecodeError Instr} {i : Instr} {m n : Nat} :
    (x.map fun j => (j, m)) = .ok (i, n) ↔ x = .ok i ∧ n = m := by
  cases x with
  | error _ => simp [Except.map]
  | ok j => simp [Except.map, eq_comm]

theorem decodeRest_eq_ok {w e : Word} {m n : Nat} {r : List Word} {i : Instr} : decodeRest w e m r = .ok (i, n) ↔
    ∃ k t, r = litRow w e k ++ t ∧ n = m + (litRow w e k).length ∧ (hasLit w.toNat e.toNat = false → k = 0)
      ∧ decodeWords w.toNat e.toNat k.toNat = .ok i := by
  unfold decodeRest litRow
  cases hasLit w.toNat e.toNat with
  | false => simpa [map_pair_eq_ok] using and_comm
  | true =>
    cases r with
    | nil => simp
    | cons k t => simpa [map_pair_eq_ok] using and_comm

/-- The decoder takes exactly the rows of words that decode. -/
theorem decode_eq_ok {ws : List Word} {i : Instr} {n : Nat} : decode ws = .ok (i, n) ↔
    ∃ w e k t, ws = rowOf w e k ++ t ∧ n = (rowOf w e k).length ∧ (hasExt (w.toNat / 0x1000000) = false → e = 0)
      ∧ (hasLit w.toNat e.toNat = false → k = 0) ∧ decodeWords w.toNat e.toNat k.toNat = .ok i := by
  constructor
  · intro h
    obtain _ | ⟨w, r⟩ := ws
    · cases h
    cases hext : hasExt (w.toNat / 0x1000000) with
    | false =>
      rw [decode_word hext, decodeRest_eq_ok] at h
      obtain ⟨k, t, rfl, rfl, hk, hd⟩ := h
      exact ⟨w, 0, k, t, by simp [rowOf, extRow, hext], by simp [rowOf, extRow, hext, Nat.add_comm], fun _ => rfl, hk, hd⟩
    | true =>
      obtain _ | ⟨e, r⟩ := r
      · rw [decode_ext_missing hext] at h; cases h
      rw [decode_ext hext, decodeRest_eq_ok] at h
      obtain ⟨k, t, rfl, rfl, hk, hd⟩ := h
      exact ⟨w, e, k, t, by simp [rowOf, extRow, hext], by simp [rowOf, extRow, hext]; omega, by simp [hext], hk, hd⟩
  · rintro ⟨w, e, k, t, rfl, rfl, he, hk, hd⟩
    cases hext : hasExt (w.toNat / 0x1000000) with
    | false =>
      obtain rfl := he hext
      simp only [rowOf, extRow, hext, Bool.false_eq_true, if_false, List.nil_append, List.cons_append]
      rw [decode_word hext, decodeRest_eq_ok]
      exact ⟨k, t, rfl, Nat.add_comm .., hk, hd⟩
    | true =>
      simp only [rowOf, extRow, hext, if_true, List.cons_append, List.nil_append]
      rw [decode_ext hext, decodeRest_eq_ok]
      exact ⟨k, t, rfl, by simp only [List.length_cons]; omega, hk, hd⟩

/-- Words that stand for an instruction are its encoding, but for a literal that it does not carry. -/
theorem StandFor.encode {w e k : Word} {i : Instr} (h : StandFor w.toNat e.toNat k.toNat i) : encode i = rowOf w e i.lit := by
  unfold Sys2Proof.encode
  rw [h.head, ← h.lits]
  cases hext : hasExt (w.toNat / 0x1000000) <;> simp [rowOf, extRow, litRow, hext]

theorem StandFor.lit_of_ne_zero {w e k : Word} {i : Instr} (h : StandFor w.toNat e.toNat k.toNat i) (hne : i.lit ≠ 0) : i.lit = k := by
  simpa using h.lit.resolve_left hne

theorem isDevice_of_encodeHead (i : Instr) : i.isDevice = !(encodeHead i).isSome := by
  cases i <;> rfl

theorem StandFor.wellFormed {w e k : Word} {i : Instr} (h : StandFor w.toNat e.toNat k.toNat i)
    (hk : hasLit w.toNat e.toNat = false → k = 0) : WellFormed i := by
  have hlit : (i.lit == 0 || i.namesLit) = true := by
    rw [← h.lits]
    cases hl : hasLit w.toNat e.toNat with
    | true => exact Bool.or_true _
    | false => simpa [hk hl] using h.lit
  rw [WellFormed, Instr.wf_eq, hlit, h.tied]
  rfl

end Sys2Proof
end

section
/-! PROOF. O55. What decodes (R133, R134). -/

namespace Sys2Proof

/-- Settles O55: what the decoder takes from a row of words stands in them (`decodeWords_sound`), so its encoding is that row but for a
literal that it does not carry (`StandFor.encode`). -/
theorem encodeUndoesDecode : Obligations.EncodeUndoesDecode := by
  unfold Obligations.EncodeUndoesDecode
  intro ws i n h
  obtain ⟨w, e, k, t, rfl, rfl, -, hk, hd⟩ := decode_eq_ok.mp h
  have hstand := decodeWords_sound w.isLt e.isLt hd
  have henc := hstand.encode
  have hlen : (rowOf w e k).length = (encode i).length := by
    rw [henc]; unfold rowOf litRow; split <;> simp
  have hdevice : i.isDevice = false := by rw [isDevice_of_encodeHead, hstand.head]; rfl
  refine ⟨hstand.wellFormed hk, hdevice, hlen, by simp, by rw [henc]; rfl, fun hext => ?_, fun hne => ?_⟩
  · rw [firstWord, henc, rowOf, List.headD_cons] at hext
    rw [henc]
    simp [rowOf, extRow, hext]
  · rw [henc, hstand.lit_of_ne_zero hne]
    exact (List.getElem?_append_left (by simp [rowOf])).symm

end Sys2Proof
end

section
/-! SUPPORT. The decoder reads an encoding's own fields back (R133, R135-R147). -/

namespace Sys2Proof

/-- The words that the encoder makes of an instruction are words of 32 bits, and the decoder takes the instruction from them. -/
def ReadsBack (i : Instr) : Prop :=
  ∀ w e, encodeHead i = some (w, e) → w < 2 ^ 32 ∧ e.getD 0 < 2 ^ 32 ∧ decodeWords w (e.getD 0) i.lit.toNat = .ok i

theorem ofNat_lit (k : Word) : BitVec.ofNat 32 k.toNat = k := BitVec.ofNat_toNat ..|>.trans (BitVec.setWidth_eq k)

/-! ## Fields that hold a code -/

section
variable {w : Nat}

theorem q3_eq {lo : Nat} {q : Fin 8} (h : bits w lo 3 = q.val) : q3 w lo = q := Fin.ext h
theorem vop_eq {lo : Nat} {x : VOp} (h : bits w lo 7 = x.code) : VOp.ofCode (bits w lo 7) = x := by rw [h, VOp.ofCode_code]
theorem vD_eq {x : VOp} (h : bits w 14 7 = x.code) : vD w = x := vop_eq h
theorem vA_eq {x : VOp} (h : bits w 7 7 = x.code) : vA w = x := vop_eq h
theorem vB_eq {x : VOp} (h : bits w 0 7 = x.code) : vB w = x := vop_eq h
theorem vC_eq {x : VOp} (h : bits w 25 7 = x.code) : vC w = x := vop_eq h
theorem sop_eq {lo : Nat} {x : SOp} (h : bits w lo 6 = x.code) : SOp.ofCode (bits w lo 6) = x := by rw [h, SOp.ofCode_code]
theorem sD_eq {x : SOp} (h : bits w 18 6 = x.code) : sD w = x := sop_eq h
theorem sA_eq {x : SOp} (h : bits w 12 6 = x.code) : sA w = x := sop_eq h
theorem sB_eq {x : SOp} (h : bits w 6 6 = x.code) : sB w = x := sop_eq h
theorem rm_eq {lo : Nat} {x : RMode} (h : bits w lo 2 = x.code) : RMode.ofCode (bits w lo 2) = x := by rw [h, RMode.ofCode_code]
theorem xm_eq {lo : Nat} {x : XMode} (h : bits w lo 2 = x.code) : XMode.ofCode (bits w lo 2) = x := by rw [h, XMode.ofCode_code]
theorem flag_eq {lo : Nat} {b : Bool} (h : bits w lo 1 = b.toNat) : (bits w lo 1 == 1) = b := by cases b <;> simp [h]
theorem offs_eq {off : BitVec 20} (h : bits w 0 20 = off.toNat) : offs w = off := BitVec.eq_of_toNat_eq ((offs_toNat w).trans h)
theorem ofNat_eq {n : Nat} {x : BitVec n} (h : w % 2 ^ n = x.toNat) : BitVec.ofNat n w = x :=
  BitVec.eq_of_toNat_eq ((BitVec.toNat_ofNat ..).trans h)

end

theorem okIf_of {c : Bool} {i j : Instr} (hc : c = true) (h : j = i) : okIf c j = .ok i := by rw [okIf, hc, h]; rfl

theorem code_of {α : Type} {o : Option α} {x : α} {err : DecodeError} {f : α → Except DecodeError Instr} {r : Except DecodeError Instr}
    (h : o = some x) (hf : f x = r) : code o err f = r := by rw [h]; exact hf

theorem unless_of {c : Bool} {err : DecodeError} {r : Except DecodeError Instr} (hc : c = false) : (if c then .error err else r) = r := by
  rw [hc]; rfl

theorem Instr.tied_of_wf {i : Instr} (h : i.wf = true) : i.tied = true := by
  rw [Instr.wf_eq] at h
  exact (Bool.and_eq_true_iff.mp h).2

theorem Instr.lit_of_wf {i : Instr} (h : i.wf = true) (hn : i.namesLit = false) : i.lit = 0 := by
  rw [Instr.wf_eq, hn, Bool.or_false] at h
  exact beq_iff_eq.mp (Bool.and_eq_true_iff.mp h).1

/-! ## Layouts -/

section
variable {i : Instr} {p q d a b f : Nat}

theorem readsBack_word {w : Nat} (head : encodeHead i = some (w, none)) (hp : w < 2 ^ 32)
    (h : decodeWords w 0 i.lit.toNat = .ok i) : ReadsBack i := by
  intro w' e' h'
  obtain ⟨⟩ := head.symm.trans h'
  exact ⟨hp, by decide, h⟩

theorem readsBack_ext {w e : Nat} (head : encodeHead i = some (w, some e)) (hw : w < 2 ^ 32) (he : e < 2 ^ 32)
    (h : decodeWords w e i.lit.toNat = .ok i) : ReadsBack i := by
  intro w' e' h'
  obtain ⟨⟩ := head.symm.trans h'
  exact ⟨hw, he, h⟩

theorem decodeWords_P {w e k : Nat} (h : w / 0x1000000 < 0x80) : decodeWords w e k = decodeP w e k := if_pos (by omega)

theorem decodeWords_G {w e k : Nat} (h : 0x80 ≤ w / 0x1000000) : decodeWords w e k = decodeG w e k := if_neg (by omega)

theorem readsBack_encA (k : Word) (head : encodeHead i = some (encA p q d a b, none)) (lit : i.lit = k) (hp : p < 0x80) (hq : q < 8)
    (hd : d < 128) (ha : a < 128) (hb : b < 128)
    (h : ∀ w, w / 0x1000000 = p → bits w 21 3 = q → bits w 14 7 = d → bits w 7 7 = a → bits w 0 7 = b →
      decodeP w 0 k.toNat = .ok i) : ReadsBack i := by
  have hpoint : encA p q d a b / 0x1000000 = p := by simp only [encA]; omega
  refine readsBack_word head (by omega) ?_
  rw [decodeWords_P (by omega), lit]
  refine h _ hpoint ?_ ?_ ?_ ?_ <;> (simp only [encA, bits]; omega)

theorem readsBack_encA_ext {e : Nat} (k : Word) (head : encodeHead i = some (encA p q d a b, some e)) (lit : i.lit = k) (hp : p < 0x80)
    (hq : q < 8) (hd : d < 128) (ha : a < 128) (hb : b < 128) (he : e < 2 ^ 32)
    (h : ∀ w x, x = e → w / 0x1000000 = p → bits w 21 3 = q → bits w 14 7 = d → bits w 7 7 = a → bits w 0 7 = b →
      decodeP w x k.toNat = .ok i) : ReadsBack i := by
  have hpoint : encA p q d a b / 0x1000000 = p := by simp only [encA]; omega
  refine readsBack_ext head (by omega) he ?_
  rw [decodeWords_P (by omega), lit]
  refine h _ _ rfl hpoint ?_ ?_ ?_ ?_ <;> (simp only [encA, bits]; omega)

theorem readsBack_encG (k : Word) (head : encodeHead i = some (encG p d a b f, none)) (lit : i.lit = k) (hp : 0x80 ≤ p ∧ p < 0x100)
    (hd : d < 64)
    (ha : a < 64) (hb : b < 64) (hf : f < 64) (h : ∀ w, w / 0x1000000 = p → bits w 18 6 = d → bits w 12 6 = a → bits w 6 6 = b →
      bits w 0 6 = f → decodeG w 0 k.toNat = .ok i) : ReadsBack i := by
  have hpoint : encG p d a b f / 0x1000000 = p := by simp only [encG]; omega
  refine readsBack_word head (by omega) ?_
  rw [decodeWords_G (by omega), lit]
  refine h _ hpoint ?_ ?_ ?_ ?_ <;> (simp only [encG, bits]; omega)

/-- A word with one field of twelve bits below its registers. -/
theorem readsBack_encG_low {w0 low : Nat} (k : Word) (head : encodeHead i = some (w0, none)) (hw0 : w0 = encG p d a 0 0 + low)
    (lit : i.lit = k)
    (hp : 0x80 ≤ p ∧ p < 0x100) (hd : d < 64) (ha : a < 64) (hlow : low < 4096) (h : ∀ w, w / 0x1000000 = p → bits w 18 6 = d →
      bits w 12 6 = a → bits w 0 12 = low → decodeG w 0 k.toNat = .ok i) : ReadsBack i := by
  subst hw0
  have hpoint : (encG p d a 0 0 + low) / 0x1000000 = p := by simp only [encG]; omega
  refine readsBack_word head (by omega) ?_
  rw [decodeWords_G (by omega), lit]
  refine h _ hpoint ?_ ?_ ?_ <;> (simp only [encG, bits]; omega)

theorem readsBack_encB {c : Nat} {off : BitVec 20} (head : encodeHead i = some (encB p c off, none)) (lit : i.lit = 0)
    (hp : 0x80 ≤ p ∧ p < 0x100) (hc : c < 16)
    (h : ∀ w, w / 0x1000000 = p → bits w 20 4 = c → bits w 0 20 = off.toNat → decodeG w 0 0 = .ok i) : ReadsBack i := by
  have hpoint : encB p c off / 0x1000000 = p := by simp only [encB]; omega
  refine readsBack_word head (by omega) ?_
  rw [decodeWords_G (by omega), lit]
  refine h _ hpoint ?_ ?_ <;> (simp only [encB, bits]; omega)

theorem readsBack_encB_ext {c e : Nat} {off : BitVec 20} (k : Word) (head : encodeHead i = some (encB p c off, some e)) (lit : i.lit = k)
    (hp : 0x80 ≤ p ∧ p < 0x100) (hc : c < 16) (he : e < 2 ^ 32)
    (h : ∀ w x, x = e → w / 0x1000000 = p → bits w 20 4 = c → bits w 0 20 = off.toNat → decodeG w x k.toNat = .ok i) :
    ReadsBack i := by
  have hpoint : encB p c off / 0x1000000 = p := by simp only [encB]; omega
  refine readsBack_ext head (by omega) he ?_
  rw [decodeWords_G (by omega), lit]
  refine h _ _ rfl hpoint ?_ ?_ <;> (simp only [encB, bits]; omega)

theorem readsBack_fA {f : FormA → Instr} (o : FormA) (head : encodeHead (f o) = some (o.enc p, none)) (lit : (f o).lit = o.k)
    (hp : p < 0x80) (h : ∀ w, w / 0x1000000 = p → decodeP w 0 o.k.toNat = .ok (f (fA w o.k.toNat))) : ReadsBack (f o) :=
  readsBack_encA o.k head lit hp o.q.isLt o.d.code_lt o.a.code_lt o.b.code_lt fun w hw hq hd ha hb => by
    rw [h w hw, fA, q3_eq hq, vD_eq hd, vA_eq ha, vB_eq hb, ofNat_lit]

theorem readsBack_fA1 {f : FormA1 → Instr} (o : FormA1) (head : encodeHead (f o) = some (o.enc p, none)) (lit : (f o).lit = o.k)
    (hp : p < 0x80) (h : ∀ w, w / 0x1000000 = p → decodeP w 0 o.k.toNat = okIf (bits w 0 7 == 0) (f (fA1 w o.k.toNat))) : ReadsBack (f o) :=
  readsBack_encA o.k head lit hp o.q.isLt o.d.code_lt o.a.code_lt (by decide) fun w hw hq hd ha hb => by
    rw [h w hw, fA1, q3_eq hq, vD_eq hd, vA_eq ha, hb, ofNat_lit]; rfl

theorem readsBack_fA3 {f : FormA3 → Instr} {e : Nat} (o : FormA3) (head : encodeHead (f o) = some (o.enc p, some e)) (lit : (f o).lit = o.k)
    (hp : p < 0x80) (he : e / 0x2000000 = o.c.code)
    (h : ∀ w x, x = e → w / 0x1000000 = p → decodeP w x o.k.toNat = .ok (f (fA3 w x o.k.toNat))) : ReadsBack (f o) := by
  have hc := o.c.code_lt
  refine readsBack_encA_ext o.k head lit hp o.q.isLt o.d.code_lt o.a.code_lt o.b.code_lt (by omega) fun w x hx hw hq hd ha hb => ?_
  have hc : bits x 25 7 = o.c.code := by simp only [bits]; omega
  rw [h w x hx hw, fA3, q3_eq hq, vD_eq hd, vA_eq ha, vB_eq hb, vC_eq hc, ofNat_lit]

/-- Form A with an extension word. -/
theorem readsBack_fA_ext {f : FormA → Instr} {e : Nat} (o : FormA) (head : encodeHead (f o) = some (o.enc p, some e))
    (lit : (f o).lit = o.k)
    (hp : p < 0x80) (he : e < 2 ^ 32) (h : ∀ w x, x = e → w / 0x1000000 = p → decodeP w x o.k.toNat = .ok (f (fA w o.k.toNat))) :
    ReadsBack (f o) :=
  readsBack_encA_ext o.k head lit hp o.q.isLt o.d.code_lt o.a.code_lt o.b.code_lt he fun w x hx hw hq hd ha hb => by
    rw [h w x hx hw, fA, q3_eq hq, vD_eq hd, vA_eq ha, vB_eq hb, ofNat_lit]

/-- Form A with b zero and an extension word. -/
theorem readsBack_fA1_ext {f : FormA1 → Instr} {e : Nat} (o : FormA1) (head : encodeHead (f o) = some (o.enc p, some e))
    (lit : (f o).lit = o.k) (hp : p < 0x80) (he : e < 2 ^ 32)
    (h : ∀ w x, x = e → w / 0x1000000 = p → bits w 0 7 = 0 → decodeP w x o.k.toNat = .ok (f (fA1 w o.k.toNat))) : ReadsBack (f o) :=
  readsBack_encA_ext o.k head lit hp o.q.isLt o.d.code_lt o.a.code_lt (by decide) he fun w x hx hw hq hd ha hb => by
    rw [h w x hx hw hb, fA1, q3_eq hq, vD_eq hd, vA_eq ha, ofNat_lit]

/-- The word of form L, with its flags beside its predicates. -/
theorem readsBack_fL {f : FormL → Instr} (o : FormL) (head : encodeHead (f o) = some (o.enc p, none)) (lit : (f o).lit = 0) (hp : p < 0x80)
    (h : ∀ w, w / 0x1000000 = p → decodeP w 0 0 = okIf (bits w 10 6 == 0 && bits w 3 4 == 0) (f (fL w))) : ReadsBack (f o) := by
  obtain ⟨q, qd, na, nb, qa, qb⟩ := o
  have hna := na.toNat_lt
  have hnb := nb.toNat_lt
  have hword : FormL.enc ⟨q, qd, na, nb, qa, qb⟩ p
      = encA p q.val (qd.val * 16 + na.toNat * 8 + nb.toNat * 4) qa.val qb.val := by simp only [FormL.enc, encA]; omega
  refine readsBack_encA 0 (head.trans (by rw [hword])) lit hp q.isLt (by omega) (by omega) (by omega) fun w hw hq hd ha hb =>
    (h w hw).trans ?_
  refine okIf_of ?_ (congrArg f ?_)
  · simp only [bits, Bool.and_eq_true, beq_iff_eq] at *; omega
  · rw [fL, q3_eq hq, q3_eq (q := qd), flag_eq (b := na), flag_eq (b := nb), q3_eq (q := qa), q3_eq (q := qb)] <;>
      (simp only [bits] at *; omega)

theorem FormM.low_lt (o : FormM) : o.size.code * 16 + o.space.code * 2 + o.order.toNat < 128 := by
  have := o.size.code_lt
  have := o.space.code_lt
  have := o.order.toNat_lt
  omega

theorem withM_enc {w : Nat} (o : FormM) (hq : bits w 21 3 = o.q.val) (hd : bits w 14 7 = o.d.code) (ha : bits w 7 7 = o.a.code)
    (hb : bits w 0 7 = o.size.code * 16 + o.space.code * 2 + o.order.toNat) (f : FormM → Except DecodeError Instr) :
    withM w o.k.toNat f = f o := by
  have := o.size.code_lt
  have := o.space.code_lt
  have := o.order.toNat_lt
  refine code_of ((Size.ofCode_eq_some (x := o.size)).mpr ?_) (code_of ((Space.ofCode_eq_some (x := o.space)).mpr ?_) (congrArg f ?_))
  · simp only [bits] at *; omega
  · simp only [bits] at *; omega
  · rw [q3_eq hq, vD_eq hd, vA_eq ha, flag_eq (b := o.order), ofNat_lit]
    simp only [bits] at *; omega

theorem readsBack_fM {f : FormM → Instr} (o : FormM) (head : encodeHead (f o) = some (o.enc p, none)) (lit : (f o).lit = o.k)
    (hp : p < 0x80) (h : ∀ w, w / 0x1000000 = p → decodeP w 0 o.k.toNat = withM w o.k.toNat fun o => .ok (f o)) : ReadsBack (f o) :=
  readsBack_encA o.k head lit hp o.q.isLt o.d.code_lt o.a.code_lt o.low_lt fun w hw hq hd ha hb => by
    rw [h w hw, withM_enc o hq hd ha hb]

theorem readsBack_fM_ext {f : FormM → Instr} {g : Nat → FormM → Except DecodeError Instr} {e : Nat} (o : FormM)
    (head : encodeHead (f o) = some (o.enc p, some e)) (lit : (f o).lit = o.k) (hp : p < 0x80) (he : e < 2 ^ 32)
    (h : ∀ w x, w / 0x1000000 = p → decodeP w x o.k.toNat = withM w o.k.toNat (g x)) (hg : ∀ x, x = e → g x o = .ok (f o)) :
    ReadsBack (f o) :=
  readsBack_encA_ext o.k head lit hp o.q.isLt o.d.code_lt o.a.code_lt o.low_lt he fun w x hx hw hq hd ha hb => by
    rw [h w x hw, withM_enc o hq hd ha hb, hg x hx]

theorem readsBack_fG {g : FormG → Instr} (o : FormG) (head : encodeHead (g o) = some (o.enc p f, none)) (lit : (g o).lit = o.k)
    (hp : 0x80 ≤ p ∧ p < 0x100) (hf : f < 64)
    (h : ∀ w, w / 0x1000000 = p → bits w 0 6 = f → decodeG w 0 o.k.toNat = .ok (g (fG w o.k.toNat))) : ReadsBack (g o) :=
  readsBack_encG o.k head lit hp o.d.code_lt o.a.code_lt o.b.code_lt hf fun w hw hd ha hb hf => by
    rw [h w hw hf, fG, sD_eq hd, sA_eq ha, sB_eq hb, ofNat_lit]

theorem readsBack_fT {g : FormT → Instr} (o : FormT) (head : encodeHead (g o) = some (o.enc p, none)) (lit : (g o).lit = o.k)
    (hp : 0x80 ≤ p ∧ p < 0x100) (h : ∀ w, w / 0x1000000 = p → decodeG w 0 o.k.toNat = withT w o.k.toNat g) : ReadsBack (g o) := by
  have := o.space.code_lt
  refine readsBack_encG o.k head lit hp (by omega) o.a.code_lt o.b.code_lt (by omega) fun w hw hd ha hb hf => (h w hw).trans ?_
  refine code_of ((Space.ofCode_eq_some (x := o.space)).mpr ?_) (okIf_of ?_ (congrArg g ?_))
  · simp only [bits] at *; omega
  · simp only [bits, Bool.and_eq_true, beq_iff_eq] at *; omega
  · rw [q3_eq (q := o.t), sA_eq ha, sB_eq hb, ofNat_lit]
    simp only [bits] at *; omega

theorem readsBack_fQ {g : FormQ → Instr} {n : Fin 4} (o : FormQ) (head : encodeHead (g o) = some (o.enc p n.val, none))
    (lit : (g o).lit = o.k) (hp : 0x80 ≤ p ∧ p < 0x100)
    (h : ∀ w, w / 0x1000000 = p → bits w 18 2 = n.val → decodeG w 0 o.k.toNat = withQ w o.k.toNat g) : ReadsBack (g o) := by
  have := o.space.code_lt
  have := o.size.code_lt
  refine readsBack_encG o.k head lit hp (by omega) o.a.code_lt o.b.code_lt (by omega) fun w hw hd ha hb hf => (h w hw ?_).trans ?_
  · simp only [bits] at *; omega
  refine code_of ((Size.ofCode_eq_some (x := o.size)).mpr ?_)
    (code_of ((Space.ofCode_eq_some (x := o.space)).mpr ?_) (okIf_of ?_ (congrArg g ?_)))
  · simp only [bits] at *; omega
  · simp only [bits] at *; omega
  · simp only [bits, beq_iff_eq] at *; omega
  · rw [sA_eq ha, sB_eq hb, ofNat_lit]

/-- A branch with nothing but its offset. -/
theorem readsBack_fB {g : BitVec 20 → Instr} {off : BitVec 20} (head : encodeHead (g off) = some (encB p 0 off, none))
    (lit : (g off).lit = 0)
    (hp : 0x80 ≤ p ∧ p < 0x100) (h : ∀ w, w / 0x1000000 = p → decodeG w 0 0 = okIf (bits w 20 4 == 0) (g (offs w))) : ReadsBack (g off) :=
  readsBack_encB head lit hp (by decide) fun w hw hc hoff => (h w hw).trans (okIf_of (beq_iff_eq.mpr hc) (by rw [offs_eq hoff]))

end

/-- Words of unassigned points are taken as they are (R134). -/
theorem decodeWords_unassigned {w e k : Nat} (h : assignedPoint (w / 0x1000000) = false) :
    decodeWords w e k = .ok (.unassignedOpcode (BitVec.ofNat 32 w)) := by
  unfold decodeWords
  split
  · unfold decodeP
    split
    case h_64 => rfl
    all_goals
      rename_i hp
      rw [hp] at h
      cases h
  · unfold decodeG
    dsimp only
    split
    case h_56 => rfl
    all_goals
      rename_i hp
      rw [hp] at h
      cases h

/-- Every instruction with words has fields of their own widths, and the decoder reads each of them where the encoder put it. -/
theorem Instr.readsBack_of_wf (i : Instr) (hwf : i.wf = true) : ReadsBack i := by
  cases i with
  | iadd o | isub o | imul o | imulh o | imulhU o | idiv o | idivU o | irem o | iremU o | imin o | iminU o | imax o | imaxU o | and o | or o
  | xor o | shl o | shr o | shrA o | fadd o | fsub o | fmul o | fmin o | fmax o =>
    exact readsBack_fA o rfl rfl (by decide) fun w hw => by rw [decodeP, hw]; rfl
  | iabs o | popc o | clz o | brev o | fsqrt o | frcp o | frsq o | fexp2 o | flog2 o | fsin o | fcos o | mov o =>
    exact readsBack_fA1 o rfl rfl (by decide) fun w hw => by rw [decodeP, hw]; rfl
  | imad o =>
    refine readsBack_fA3 o rfl rfl (by decide) (by omega) fun w x hx hw => ?_
    rw [decodeP, hw]
    exact okIf_of (by simp only [bits, beq_iff_eq]; omega) rfl
  | bmix o fn =>
    refine readsBack_fA3 (f := (.bmix · fn)) o rfl rfl (by decide) (by omega) fun w x hx hw => ?_
    rw [decodeP, hw]
    refine okIf_of (by simp only [bits, beq_iff_eq]; omega) ?_
    rw [ofNat_eq (x := fn) (by omega)]
  | bfe o sx len pos =>
    have := sx.toNat_lt
    refine readsBack_fA1_ext (f := (.bfe · sx len pos)) o rfl rfl (by decide) (by omega) fun w x hx hw hb => ?_
    rw [decodeP, hw]
    refine okIf_of ?_ ?_
    · simp only [bfExt, bits, Bool.and_eq_true, beq_iff_eq] at *; omega
    · rw [flag_eq (b := sx) (by simp only [bits]; omega), ofNat_eq (x := len) (by omega), ofNat_eq (x := pos) (by omega)]
  | bfi o len pos =>
    refine readsBack_fA_ext (f := (.bfi · len pos)) o rfl rfl (by decide) (by omega) fun w x hx hw => ?_
    rw [decodeP, hw]
    refine okIf_of ?_ ?_
    · simp only [bfExt, bits, Bool.and_eq_true, beq_iff_eq] at *; omega
    · rw [ofNat_eq (x := len) (by omega), ofNat_eq (x := pos) (by omega)]
  | icmp q qd cc a b k =>
    have := cc.code_lt
    refine readsBack_encA k rfl rfl (by decide) q.isLt (by omega) a.code_lt b.code_lt fun w hw hq hd ha hb => ?_
    rw [decodeP, hw]
    refine code_of ((Cond.ofCode_eq_some (x := cc)).mpr (by simp only [bits] at *; omega)) ?_
    rw [q3_eq hq, q3_eq (q := qd) (by simp only [bits] at *; omega), vA_eq ha, vB_eq hb, ofNat_lit]
  | fcmp q qd cc a b k =>
    have := cc.code_lt
    refine readsBack_encA k rfl rfl (by decide) q.isLt (by omega) a.code_lt b.code_lt fun w hw hq hd ha hb => ?_
    rw [decodeP, hw]
    refine code_of ((FCond.ofCode_eq_some (x := cc)).mpr (by simp only [bits] at *; omega)) ?_
    rw [q3_eq hq, q3_eq (q := qd) (by simp only [bits] at *; omega), vA_eq ha, vB_eq hb, ofNat_lit]
  | qand o | qor o | qxor o => exact readsBack_fL o rfl rfl (by decide) fun w hw => by rw [decodeP, hw]; rfl
  | sel q d a b k =>
    refine readsBack_encA k rfl rfl (by decide) q.isLt d.code_lt a.code_lt b.code_lt fun w hw hq hd ha hb => ?_
    rw [decodeP, hw, q3_eq hq, vD_eq hd, vA_eq ha, vB_eq hb, ofNat_lit]; rfl
  | movqRead q d =>
    refine readsBack_encA 0 rfl rfl (by decide) q.isLt d.code_lt (by decide) (by decide) fun w hw hq hd ha hb => ?_
    rw [decodeP, hw, hb]
    exact okIf_of (beq_iff_eq.mpr ha) (by rw [q3_eq hq, vD_eq hd])
  | movqWrite q a k =>
    refine readsBack_encA k rfl rfl (by decide) q.isLt (by decide) a.code_lt (by decide) fun w hw hq hd ha hb => ?_
    rw [decodeP, hw, hb]
    exact okIf_of (beq_iff_eq.mpr hd) (by rw [q3_eq hq, vA_eq ha, ofNat_lit])
  | ffma o np nc rm =>
    have := np.toNat_lt; have := nc.toNat_lt; have := rm.code_lt
    refine readsBack_fA3 (f := (.ffma · np nc rm)) o rfl rfl (by decide) (by omega) fun w x hx hw => ?_
    rw [decodeP, hw]
    refine okIf_of (by simp only [bits, beq_iff_eq]; omega) ?_
    rw [flag_eq (b := np), flag_eq (b := nc), rm_eq (x := rm)] <;> (simp only [bits]; omega)
  | fx o ty op na nb nc rm =>
    have := na.toNat_lt; have := nb.toNat_lt; have := nc.toNat_lt; have := rm.code_lt; have := ty.code_lt; have := op.code_lt
    refine readsBack_fA3 (f := (.fx · ty op na nb nc rm)) o rfl rfl (by decide) (by omega) fun w x hx hw => ?_
    rw [decodeP, hw]
    refine code_of ((FxTy.ofCode_eq_some (x := ty)).mpr ?_) (code_of ((FxOp.ofCode_eq_some (x := op)).mpr ?_) (okIf_of ?_ ?_))
    · simp only [bits]; omega
    · simp only [bits]; omega
    · simp only [bits, Bool.and_eq_true, beq_iff_eq]; omega
    · rw [flag_eq (b := na), flag_eq (b := nb), flag_eq (b := nc), rm_eq (x := rm)] <;> (simp only [bits]; omega)
  | fdiv o rm =>
    have := rm.code_lt
    refine readsBack_fA_ext (f := (.fdiv · rm)) o rfl rfl (by decide) (by omega) fun w x hx hw => ?_
    rw [decodeP, hw]
    refine okIf_of (by simp only [bits, beq_iff_eq]; omega) ?_
    rw [rm_eq (x := rm) (by simp only [bits]; omega)]
  | cvt o st dt sat rm se de =>
    have := st.code_lt; have := dt.code_lt; have := sat.toNat_lt; have := rm.code_lt
    refine readsBack_fA1_ext (f := (.cvt · st dt sat rm se de)) o rfl rfl (by decide) (by omega) fun w x hx hw hb => ?_
    rw [decodeP, hw]
    refine code_of ((Ty.ofCode_eq_some (x := st)).mpr ?_) (code_of ((Ty.ofCode_eq_some (x := dt)).mpr ?_) (okIf_of ?_ ?_))
    · simp only [bits]; omega
    · simp only [bits]; omega
    · simp only [bits, Bool.and_eq_true, beq_iff_eq] at *; omega
    · rw [flag_eq (b := sat) (by simp only [bits]; omega), rm_eq (x := rm) (by simp only [bits]; omega), ofNat_eq (x := se) (by omega),
        ofNat_eq (x := de) (by omega)]
  | movs q d a k =>
    have := a.code_lt
    refine readsBack_encA k rfl rfl (by decide) q.isLt d.code_lt (by omega) (by decide) fun w hw hq hd ha hb => ?_
    rw [decodeP, hw]
    refine okIf_of ?_ ?_
    · simp only [bits, Bool.and_eq_true, beq_iff_eq] at *; omega
    · rw [q3_eq hq, vD_eq hd, sop_eq (x := a) (by simp only [bits] at *; omega), ofNat_lit]
  | xlane o g m =>
    have := m.code_lt
    refine readsBack_fA_ext (f := (.xlane · g m)) o rfl rfl (by decide) (by omega) fun w x hx hw => ?_
    have hz : (bits x 5 27 != 0) = false := bne_eq_false_iff_eq.mpr (by simp only [bits]; omega)
    have hg : bits x 2 3 = g.val := by simp only [bits]; omega
    rw [decodeP, hw]
    refine (if_neg (Bool.eq_false_iff.mp hz)).trans ((dif_pos (hg ▸ g.isLt)).trans ?_)
    rw [xm_eq (x := m) (by simp only [bits]; omega)]
    exact congrArg (fun g => Except.ok (Instr.xlane (fA w o.k.toNat) g m)) (Fin.ext hg)
  | vote q d p m =>
    have := d.code_lt; have := m.code_lt
    refine readsBack_encA 0 rfl rfl (by decide) q.isLt (by omega) (by omega) (by omega) fun w hw hq hd ha hb => ?_
    rw [decodeP, hw]
    refine code_of ((VoteMode.ofCode_eq_some (x := m)).mpr hb) ((unless_of ?_).trans (okIf_of ?_ ?_))
    · simp only [bits, bne_eq_false_iff_eq] at *; omega
    · simp only [bits, beq_iff_eq] at *; omega
    · rw [q3_eq hq, sop_eq (x := d), q3_eq (q := p)] <;> (simp only [bits] at *; omega)
  | lfold q d a op k =>
    have := d.code_lt; have := op.code_lt
    refine readsBack_encA k rfl rfl (by decide) q.isLt (by omega) a.code_lt (by omega) fun w hw hq hd ha hb => ?_
    rw [decodeP, hw]
    refine code_of ((FoldOp.ofCode_eq_some (x := op)).mpr hb) ((unless_of ?_).trans ?_)
    · simp only [bits, bne_eq_false_iff_eq] at *; omega
    · rw [q3_eq hq, sop_eq (x := d) (by simp only [bits] at *; omega), vA_eq ha, ofNat_lit]
  | ld o | st o => exact readsBack_fM o rfl rfl (by decide) fun w hw => by rw [decodeP, hw]; rfl
  | ldx o off =>
    refine readsBack_fM_ext (f := (.ldx · off)) o rfl rfl (by decide) off.isLt (fun w x hw => by rw [decodeP, hw]; rfl) fun x hx => ?_
    rw [ofNat_eq (x := off) (by omega)]
  | stx o off =>
    refine readsBack_fM_ext (f := (.stx · off)) o rfl rfl (by decide) off.isLt (fun w x hw => by rw [decodeP, hw]; rfl) fun x hx => ?_
    rw [ofNat_eq (x := off) (by omega)]
  | atom o c op od =>
    have := c.code_lt; have := op.code_lt; have := od.code_lt
    refine readsBack_fM_ext (f := (.atom · c op od)) o rfl rfl (by decide) (by omega)
      (fun w x hw => by rw [decodeP, hw]; rfl) fun x hx => ?_
    refine code_of ((AtomOp.ofCode_eq_some (x := op)).mpr ?_) (code_of ((Ord.ofCode_eq_some (x := od)).mpr ?_) (okIf_of ?_ ?_))
    · simp only [bits]; omega
    · simp only [bits]; omega
    · simp only [bits, Bool.and_eq_true, beq_iff_eq]; omega
    · rw [vC_eq (x := c) (by simp only [bits]; omega)]
  | cas o c e od =>
    have := c.code_lt; have := e.code_lt; have := od.code_lt
    refine readsBack_fM_ext (f := (.cas · c e od)) o rfl rfl (by decide) (by omega) (fun w x hw => by rw [decodeP, hw]; rfl) fun x hx => ?_
    refine code_of ((Ord.ofCode_eq_some (x := od)).mpr ?_) (okIf_of ?_ ?_)
    · simp only [bits]; omega
    · simp only [bits, Bool.and_eq_true, beq_iff_eq]; omega
    · rw [vC_eq (x := c), vop_eq (x := e)] <;> (simp only [bits]; omega)
  | spawn q a b k =>
    refine readsBack_encA k rfl rfl (by decide) q.isLt (by decide) a.code_lt b.code_lt fun w hw hq hd ha hb => ?_
    rw [decodeP, hw]
    exact okIf_of (beq_iff_eq.mpr hd) (by rw [q3_eq hq, vA_eq ha, vB_eq hb, ofNat_lit])
  | mma q fw cn ta tb k =>
    refine readsBack_encA k rfl rfl (by decide) q.isLt fw.code_lt (by omega) (by omega) fun w hw hq hd ha hb => ?_
    rw [decodeP, hw]
    refine okIf_of ?_ ?_
    · simp only [bits, Bool.and_eq_true, beq_iff_eq] at *; omega
    · have hcn : Fin.ofNat 4 (w / 4096) = cn := Fin.ext (by simp only [Fin.ofNat, bits] at *; omega)
      rw [q3_eq hq, vD_eq hd, hcn, q3_eq (q := ta), q3_eq (q := tb), ofNat_lit] <;> (simp only [bits] at *; omega)
  | unassignedOpcode x =>
    have hpoint : assignedPoint (x.toNat / 0x1000000) = false := (Bool.not_eq_true' _).mp (Instr.tied_of_wf hwf)
    refine readsBack_word rfl x.isLt ?_
    rw [decodeWords_unassigned hpoint, ofNat_lit]
  | sadd o | ssub o | smul o | sand o | sor o | sxor o | sshl o | sshr o | sshrA o | smin o | sminU o | smax o | smaxU o | dstat o | wdrun o
  | stestHold o | stestChunk o | stestAppeal o | stestFree o =>
    exact readsBack_fG o rfl rfl (by decide) (by decide) fun w hw hf => by rw [decodeG, hw, hf]; rfl
  | sfadd o rm | sfmul o rm =>
    have := rm.code_lt
    refine readsBack_encG o.k rfl rfl (by decide) o.d.code_lt o.a.code_lt o.b.code_lt (by omega) fun w hw hd ha hb hf => ?_
    rw [decodeG, hw]
    refine okIf_of ?_ ?_
    · simp only [bits, beq_iff_eq] at *; omega
    · rw [fG, sD_eq hd, sA_eq ha, sB_eq hb, rm_eq (x := rm) (by simp only [bits] at *; omega), ofNat_lit]
  | smov d a k =>
    refine readsBack_encG k rfl rfl (by decide) d.code_lt a.code_lt (by decide) (by decide) fun w hw hd ha hb hf => ?_
    rw [decodeG, hw]
    exact okIf_of (by simp only [bits, beq_iff_eq] at *; omega) (by rw [sD_eq hd, sA_eq ha, ofNat_lit])
  | bra off | rcv off | call off | split off => exact readsBack_fB rfl rfl (by decide) fun w hw => by rw [decodeG, hw]; rfl
  | join | exit | barc | nop | eret | brk | cflushAll | cinvAll => exact readsBack_word rfl (by decide) rfl
  | bcc cc off a b k =>
    have := cc.code_lt; have := a.code_lt; have := b.code_lt
    refine readsBack_encB_ext k rfl rfl (by decide) cc.code_lt (by omega) fun w x hx hw hc hoff => ?_
    rw [decodeG, hw]
    refine code_of (Cond.ofCode_eq_some.mpr hc) (okIf_of ?_ ?_)
    · simp only [bits, beq_iff_eq]; omega
    · rw [offs_eq hoff, sop_eq (x := a) (by simp only [bits]; omega), sop_eq (x := b) (by simp only [bits]; omega), ofNat_lit]
  | bq inv p off =>
    have := inv.toNat_lt
    refine readsBack_encB rfl rfl (by decide) (by omega) fun w hw hc hoff => ?_
    rw [decodeG, hw]
    show Except.ok (Instr.bq _ _ _) = _
    rw [flag_eq (b := inv), q3_eq (q := p), offs_eq hoff] <;> (simp only [bits] at *; omega)
  | ret a =>
    refine readsBack_encG 0 rfl rfl (by decide) (by decide) a.code_lt (by decide) (by decide) fun w hw hd ha hb hf => ?_
    rw [decodeG, hw]
    exact okIf_of (by simp only [bits, Bool.and_eq_true, beq_iff_eq] at *; omega) (by rw [sA_eq ha])
  | loop c off =>
    refine readsBack_encB rfl rfl (by decide) c.isLt fun w hw hc hoff => ?_
    rw [decodeG, hw]
    have hcount : Fin.ofNat 16 (w / 0x100000) = c := Fin.ext hc
    show Except.ok (Instr.loop _ _) = _
    rw [hcount, offs_eq hoff]
  | qld n o =>
    refine readsBack_fQ (g := .qld n) o rfl rfl (by decide) fun w hw hn => ?_
    have hqueue : Fin.ofNat 4 (w / 0x40000) = n := Fin.ext hn
    rw [decodeG, hw, hqueue]; rfl
  | qst o =>
    refine readsBack_fQ (n := 0) o rfl rfl (by decide) fun w hw hn => ?_
    rw [decodeG, hw]
    exact unless_of (bne_eq_false_iff_eq.mpr hn)
  | bar d a op k =>
    cases op with
    | none =>
      obtain ⟨hd, ha⟩ : (d == .s 0) = true ∧ (a == .s 0) = true := Bool.and_eq_true_iff.mp (Instr.tied_of_wf hwf)
      obtain rfl := beq_iff_eq.mp hd
      obtain rfl := beq_iff_eq.mp ha
      obtain rfl : k = 0 := Instr.lit_of_wf hwf rfl
      exact readsBack_word (w := 0xB000003F) rfl (by decide) rfl
    | some op =>
      have := op.code_lt
      refine readsBack_encG k rfl rfl (by decide) d.code_lt a.code_lt (by decide) (by show op.code < 64; omega) fun w hw hd ha hb hf => ?_
      rw [decodeG, hw]
      refine (unless_of (bne_eq_false_iff_eq.mpr hb)).trans ((if_neg ?_).trans (code_of (FoldOp.ofCode_eq_some.mpr hf) ?_))
      · simp only [beq_iff_eq]
        simp only [Option.elim] at hf
        omega
      · rw [sD_eq hd, sA_eq ha, ofNat_lit]
  | pbarr cl o =>
    have := cl.toNat_lt
    refine readsBack_encG o.k rfl rfl (by decide) o.d.code_lt o.a.code_lt o.b.code_lt (by omega) fun w hw hd ha hb hf => ?_
    rw [decodeG, hw]
    refine okIf_of ?_ ?_
    · simp only [bits, beq_iff_eq] at *; omega
    · rw [fG, sD_eq hd, sA_eq ha, sB_eq hb, flag_eq (b := cl) (by simp only [bits] at *; omega), ofNat_lit]
  | pbwait cl a b k =>
    have := cl.toNat_lt
    refine readsBack_encG k rfl rfl (by decide) (by decide) a.code_lt b.code_lt (by omega) fun w hw hd ha hb hf => ?_
    rw [decodeG, hw]
    refine okIf_of ?_ ?_
    · simp only [bits, Bool.and_eq_true, beq_iff_eq] at *; omega
    · rw [sA_eq ha, sB_eq hb, flag_eq (b := cl) (by simp only [bits] at *; omega), ofNat_lit]
  | fence sc =>
    have := sc.code_lt
    refine readsBack_encG 0 rfl rfl (by decide) (by decide) (by decide) (by decide) (by omega) fun w hw hd ha hb hf => ?_
    rw [decodeG, hw]
    refine code_of (Scope.ofCode_eq_some.mpr hf) (okIf_of ?_ rfl)
    simp only [bits, beq_iff_eq] at *; omega
  | waitc l s c t =>
    refine readsBack_encG 0 rfl rfl (by decide) l.isLt s.isLt c.isLt t.isLt fun w hw hd ha hb hf => ?_
    rw [decodeG, hw]
    show Except.ok (Instr.waitc _ _ _ _) = _
    have ht : w % 2 ^ 6 = t.toNat := by simp only [bits] at *; omega
    rw [ofNat_eq (w := w / 0x40000) hd, ofNat_eq (w := w / 0x1000) ha, ofNat_eq (w := w / 0x40) hb, ofNat_eq ht]
  | waitw d a b cc =>
    have := cc.code_lt
    refine readsBack_encG 0 rfl rfl (by decide) d.code_lt a.code_lt b.code_lt (by omega) fun w hw hd ha hb hf => ?_
    rw [decodeG, hw]
    exact code_of (Cond.ofCode_eq_some.mpr hf) (by rw [sD_eq hd, sA_eq ha, sB_eq hb])
  | sleept a k =>
    refine readsBack_encG k rfl rfl (by decide) (by decide) a.code_lt (by decide) (by decide) fun w hw hd ha hb hf => ?_
    rw [decodeG, hw]
    exact okIf_of (by simp only [bits, Bool.and_eq_true, beq_iff_eq] at *; omega) (by rw [sA_eq ha, ofNat_lit])
  | copy d a dsp ssp =>
    have := dsp.code_lt; have := ssp.code_lt
    refine readsBack_encG 0 rfl rfl (by decide) d.code_lt a.code_lt (by decide) (by omega) fun w hw hd ha hb hf => ?_
    rw [decodeG, hw]
    refine code_of ((Space.ofCode_eq_some (x := dsp)).mpr ?_) (code_of ((Space.ofCode_eq_some (x := ssp)).mpr ?_) (okIf_of ?_ ?_))
    · simp only [bits] at *; omega
    · simp only [bits] at *; omega
    · exact beq_iff_eq.mpr hb
    · rw [sD_eq hd, sA_eq ha]
  | tld o | tst o => exact readsBack_fT o rfl rfl (by decide) fun w hw => by rw [decodeG, hw]; rfl
  | czero m =>
    refine readsBack_encG 0 rfl rfl (by decide) (by decide) (by decide) (by decide) (by omega) fun w hw hd ha hb hf => ?_
    rw [decodeG, hw]
    refine okIf_of ?_ ?_
    · simp only [bits, beq_iff_eq] at *; omega
    · rw [ofNat_eq (x := m)]
      simp only [bits] at *; omega
  | cst cn sp d a b k =>
    have := sp.code_lt
    refine readsBack_encG k rfl rfl (by decide) d.code_lt a.code_lt b.code_lt (by omega) fun w hw hd ha hb hf => ?_
    have hcn : Fin.ofNat 4 w = cn := Fin.ext (by simp only [Fin.ofNat, bits] at *; omega)
    rw [decodeG, hw, hcn]
    refine code_of ((Space.ofCode_eq_some (x := sp)).mpr ?_) (okIf_of ?_ ?_)
    · simp only [bits] at *; omega
    · simp only [bits, beq_iff_eq] at *; omega
    · rw [sD_eq hd, sA_eq ha, sB_eq hb, ofNat_lit]
  | dlaunch d a | sgfork d a | sgwait d a =>
    refine readsBack_encG 0 rfl rfl (by decide) d.code_lt a.code_lt (by decide) (by decide) fun w hw hd ha hb hf => ?_
    rw [decodeG, hw]
    exact okIf_of (by simp only [bits, beq_iff_eq] at *; omega) (by rw [sD_eq hd, sA_eq ha])
  | dsigTok a b k | cflush a b k | cinv a b k =>
    refine readsBack_encG k rfl rfl (by decide) (by decide) a.code_lt b.code_lt (by decide) fun w hw hd ha hb hf => ?_
    rw [decodeG, hw]
    refine (unless_of ?_).trans ((if_pos ?_).trans ?_)
    · simp only [bits, Bool.or_eq_false_iff, bne_eq_false_iff_eq] at *; omega
    · simp only [bits, beq_iff_eq] at *; omega
    · rw [sA_eq ha, sB_eq hb, ofNat_lit]
  | dsigAbort a k =>
    refine readsBack_encG k rfl rfl (by decide) (by decide) a.code_lt (by decide) (by decide) fun w hw hd ha hb hf => ?_
    rw [decodeG, hw]
    refine (unless_of ?_).trans ((if_neg ?_).trans (okIf_of (beq_iff_eq.mpr hb) ?_))
    · simp only [bits, Bool.or_eq_false_iff, bne_eq_false_iff_eq] at *; omega
    · simp only [bits, beq_iff_eq] at *; omega
    · rw [sA_eq ha, ofNat_lit]
  | sgreward d b k =>
    refine readsBack_encG k rfl rfl (by decide) d.code_lt (by decide) b.code_lt (by decide) fun w hw hd ha hb hf => ?_
    rw [decodeG, hw]
    refine okIf_of ?_ ?_
    · simp only [bits, Bool.and_eq_true, beq_iff_eq] at *; omega
    · rw [sD_eq hd, sB_eq hb, ofNat_lit]
  | sgcancel d a b k =>
    refine readsBack_encG k rfl rfl (by decide) d.code_lt a.code_lt b.code_lt (by decide) fun w hw hd ha hb hf => ?_
    rw [decodeG, hw]
    exact okIf_of (beq_iff_eq.mpr hf) (by rw [sD_eq hd, sA_eq ha, sB_eq hb, ofNat_lit])
  | movcRead d n =>
    have := d.code_lt
    refine readsBack_encG_low 0 (p := 0xE0) (d := d.code) (a := 0) (low := n.toNat) rfl (by simp only [encG]; omega) rfl
      (by decide) d.code_lt (by decide)
      (by omega) fun w hw hd ha hn => ?_
    rw [decodeG, hw]
    refine (if_pos ?_).trans (okIf_of (beq_iff_eq.mpr ha) ?_)
    · simp only [bits, beq_iff_eq] at *; omega
    · rw [sD_eq hd, ofNat_eq (x := n)]
      simp only [bits] at *; omega
  | movcWrite a n k =>
    have := a.code_lt
    refine readsBack_encG_low k (p := 0xE0) (d := 0) (a := a.code) (low := 2048 + n.toNat) rfl (by simp only [encG]; omega) rfl
      (by decide) (by decide)
      a.code_lt (by omega) fun w hw hd ha hn => ?_
    rw [decodeG, hw]
    refine (if_neg ?_).trans (okIf_of (beq_iff_eq.mpr hd) ?_)
    · simp only [bits, beq_iff_eq] at *; omega
    · rw [sA_eq ha, ofNat_eq (x := n) (by simp only [bits] at *; omega), ofNat_lit]
  | trap a c k =>
    refine readsBack_encG k rfl rfl (by decide) (by decide) a.code_lt (by decide) c.isLt fun w hw hd ha hb hf => ?_
    rw [decodeG, hw]
    refine okIf_of ?_ ?_
    · simp only [bits, Bool.and_eq_true, beq_iff_eq] at *; omega
    · rw [sA_eq ha, ofNat_eq (x := c) (by simp only [bits] at *; omega), ofNat_lit]
  | pref a lv =>
    have := lv.code_lt
    refine readsBack_encG 0 rfl rfl (by decide) (by decide) a.code_lt (by decide) (by omega) fun w hw hd ha hb hf => ?_
    rw [decodeG, hw]
    refine code_of ((PrefLvl.ofCode_eq_some (x := lv)).mpr ?_) (okIf_of ?_ ?_)
    · simp only [bits] at *; omega
    · simp only [bits, Bool.and_eq_true, beq_iff_eq] at *; omega
    · rw [sA_eq ha]
  | _ => rintro w e ⟨⟩

end Sys2Proof
end

section
/-! PROOF. O54. What an encoding decodes to (R133, R140-R147). -/

namespace Sys2Proof

/-- Settles O54: each field of the encoding is read back where it was put (`Instr.readsBack_of_wf`), and the decoder takes exactly the words
that the encoder makes (`decode_eq_ok`). -/
theorem decodeUndoesEncode : Obligations.DecodeUndoesEncode := by
  unfold Obligations.DecodeUndoesEncode
  intro i r hdev hwf
  have hhead : (encodeHead i).isSome = true := by simpa [isDevice_of_encodeHead] using hdev
  obtain ⟨⟨w, e⟩, hhead⟩ := Option.isSome_iff_exists.mp hhead
  obtain ⟨hw, he, hd⟩ := i.readsBack_of_wf hwf w e hhead
  have hstand := decodeWords_sound hw he hd
  have hw' : (BitVec.ofNat 32 w).toNat = w := Nat.mod_eq_of_lt hw
  have he' : (BitVec.ofNat 32 (e.getD 0)).toNat = e.getD 0 := Nat.mod_eq_of_lt he
  rw [← hw', ← he'] at hstand hd
  rw [hstand.encode]
  refine decode_eq_ok.mpr ⟨_, _, _, r, rfl, rfl, fun hext => ?_, fun hlit => ?_, hd⟩
  · have hpair := (Prod.mk.inj (Option.some.inj (hhead.symm.trans hstand.head))).2
    rw [hext] at hpair
    rw [show e = none from hpair]; rfl
  · exact Instr.lit_of_wf hwf (hstand.lits ▸ hlit)

end Sys2Proof
end

section
/-! PROOF. O53. Words written out from the encoding tables (R134, R146, R147). -/

namespace Sys2Proof

/-- Settles O53: the decoder evaluates to each instruction on its words. -/
theorem writtenWordsDecode : Obligations.WrittenWordsDecode :=
  ⟨rfl, rfl, rfl, rfl, rfl, rfl, rfl, rfl, rfl, rfl⟩

end Sys2Proof
end

section
/-! SUPPORT. How an instruction that writes predicates finishes (R144, R171-R174). -/

namespace Sys2Proof.Machine

variable {i : Instr} {s : State} {c : Ctx}

/-- An instruction of the lanes that writes predicates and accrues flags finishes with them. -/
theorem finish_preds {f : Warp → Warp} {g : Flags} (hr : ready i s = some c) (hslice : sliceMay i = false)
    (hexec : exec i s = .next (c.finish fun w => accrue (f w) g)) (hf : ∀ w, f w = { w with preds := (f w).preds }) :
    ∃ t v, exec i s = .next t ∧ tget t.warps c.wid = some v
      ∧ v.preds = (f (popQueues (namedQueues (opnds i).vs) c.w)).preds ∧ Popped i c.w v ∧ OnlyWarp c.wid s t
      ∧ v = { c.w with pc := c.nextPc, preds := v.preds, aq := v.aq, fflags := c.w.fflags ||| g } := by
  have hi := issued_of_ready hr
  have hwarp := c.finish_warp hi fun w => accrue (f w) g
  rw [hi.noSlice hslice] at hwarp
  refine ⟨_, _, hexec, hwarp, rfl, popped_setPc (f := fun w => accrue (f w) g) fun w => ?aq, hi.st ▸ c.finish_only _, ?keeps⟩
  case aq =>
    show (f w).aq = w.aq
    rw [hf w]
  case keeps =>
    have hpop := popQueues_eq (namedQueues (opnds i).vs) c.w
    simp only [setPc, Bool.false_eq_true, if_false, accrue]
    rw [hf, hpop]

/-- An instruction with one predicate as its result. -/
theorem finish_pred {q : Fin 8} {m : Mask} {f : Lane → Bool} {g : Flags} (hr : ready i s = some c) (hslice : sliceMay i = false)
    (hexec : exec i s = .next (c.finish fun w => accrue (setPred w q c.act m) g)) (hm : ∀ l : Lane, m.getLsbD l.val = f l) :
    ∃ t v, exec i s = .next t ∧ tget t.warps c.wid = some v ∧ PredWritten c.act q f c.w v ∧ Popped i c.w v ∧ OnlyWarp c.wid s t
      ∧ v = { c.w with pc := c.nextPc, preds := v.preds, aq := v.aq, fflags := c.w.fflags ||| g } := by
  obtain ⟨t, v, hnext, hwarp, hpreds, hrest⟩ := finish_preds hr hslice hexec fun w => setPred_eq w q c.act m
  have hpop := popQueues_eq (namedQueues (opnds i).vs) c.w
  have hwritten := setPred_written c.w (popQueues (namedQueues (opnds i).vs) c.w) q c.act m (by rw [hpop])
  obtain rfl : (fun l : Lane => m.getLsbD l.val) = f := funext hm
  refine ⟨t, v, hnext, hwarp, ?_, hrest⟩
  unfold PredWritten at hwritten ⊢
  rwa [hpreds]

/-! ## Logic on predicates -/

/-- A predicate as form L reads it, negated where its flag says so (R172). -/
theorem negated_get (w : Warp) (p : Fin 8) (b : Bool) (l : Lane) :
    (if b then ~~~(predMask w p) else predMask w p).getLsbD l.val = (predLane w p l.val != b) := by
  cases b with
  | false => simpa using predMask_get w p l
  | true => simpa using congrArg (!·) (predMask_get w p l)

/-! ## All predicates of a lane -/

theorem setPred_other (w : Warp) (p : Fin 8) (m f : Mask) {k : Fin 8} (h : k ≠ p ∨ k = 0) : (setPred w p m f).preds[k] = w.preds[k] :=
  (setPred_written w w p m f rfl).2 k h

theorem setPred_self (w : Warp) {p : Fin 8} (hp : p ≠ 0) (m f : Mask) (l : Lane) :
    (setPred w p m f).preds[p].getLsbD l.val = if m.getLsbD l.val then f.getLsbD l.val else w.preds[p].getLsbD l.val :=
  (setPred_written w w p m f rfl).1 l hp

/-- Writing several predicates writes each of them. -/
theorem setPreds_preds (m : Mask) (f : Fin 8 → Mask) (ns : List (Fin 8)) (hns : ns.Nodup) (w : Warp) (k : Fin 8) (l : Lane) :
    (ns.foldl (fun x n => setPred x n m (f n)) w).preds[k].getLsbD l.val =
      if k ∈ ns ∧ k ≠ 0 ∧ m.getLsbD l.val then (f k).getLsbD l.val else w.preds[k].getLsbD l.val := by
  induction ns generalizing w with
  | nil => simp
  | cons n r ih =>
    obtain ⟨hn, hr⟩ := List.nodup_cons.mp hns
    rw [List.foldl_cons, ih hr]
    by_cases hk : k = n
    · subst hk
      rw [if_neg fun h => hn h.1]
      by_cases h0 : k = 0
      · rw [setPred_other w k m (f k) (.inr h0), if_neg fun h => h.2.1 h0]
      · rw [setPred_self w h0]
        simp only [List.mem_cons, true_or, true_and, ne_eq, h0, not_false_eq_true]
    · rw [setPred_other w n m (f n) (.inl hk)]
      simp only [List.mem_cons, hk, false_or]

/-- Writing several predicates changes the predicates alone. -/
theorem setPreds_eq (m : Mask) (f : Fin 8 → Mask) (ns : List (Fin 8)) (w : Warp) :
    ns.foldl (fun x n => setPred x n m (f n)) w = { w with preds := (ns.foldl (fun x n => setPred x n m (f n)) w).preds } := by
  induction ns generalizing w with
  | nil => rfl
  | cons n r ih =>
    rw [List.foldl_cons, ih]
    generalize (r.foldl (fun x n => setPred x n m (f n)) (setPred w n m (f n))).preds = ps
    rw [setPred_eq]

theorem writePreds_eq (c : Ctx) (a : VOp) (w : Warp) : writePreds c a w = { w with preds := (writePreds c a w).preds } :=
  setPreds_eq ..

/-- R174: every predicate but q0 takes its bit of the lane's word in the active lanes. -/
theorem writePreds_get (c : Ctx) (a : VOp) (w : Warp) (n : Fin 8) (l : Lane) : (writePreds c a w).preds[n].getLsbD l.val =
    if n ≠ 0 ∧ c.act.getLsbD l.val then (c.v a l).getLsbD n.val else w.preds[n].getLsbD l.val := by
  rw [writePreds, setPreds_preds c.act _ _ (List.nodup_finRange 8), maskOf_get]
  simp only [List.mem_finRange, true_and]

end Sys2Proof.Machine
end

section
/-! PROOF. O3. Comparisons, predicate logic and `movq` to the predicates (R144, R171, R172, R174). -/

namespace Sys2Proof.Machine

/-- Predicate logic has the result of its operation in each lane, where the operation on masks is that on their bits. -/
theorem exec_logic {i : Instr} {s : State} {c : Ctx} {o : FormL} {op : Mask → Mask → Mask} {f : Lane → Bool}
    (hr : ready i s = some c) (hslice : sliceMay i = false) (hexec : exec i s = issue i s fun c => c.logic o op)
    (hop : ∀ x y : Mask, (∀ l : Lane, x.getLsbD l.val = (predLane c.w o.qa l.val != o.na)) →
      (∀ l : Lane, y.getLsbD l.val = (predLane c.w o.qb l.val != o.nb)) → ∀ l : Lane, (op x y).getLsbD l.val = f l) :
    ∃ t v, exec i s = .next t ∧ tget t.warps c.wid = some v ∧ PredWritten c.act o.qd f c.w v ∧ Popped i c.w v ∧ OnlyWarp c.wid s t
      ∧ v = { c.w with pc := c.nextPc, preds := v.preds, aq := v.aq, fflags := c.w.fflags ||| 0 } := by
  refine finish_pred (m := logicOf c.w o op) hr hslice ?_ (hop _ _ (fun l => negated_get ..) fun l => negated_get ..)
  simp only [accrue_zero]
  exact hexec.trans (issue_ready hr _)

theorem predicateResults : PredicateResults := by
  intro i s c q f g h hr
  cases i with
  | icmp _ qd cc a b k =>
    obtain ⟨⟩ := h
    refine finish_pred hr rfl ((issue_ready hr _).trans ?_) (maskOf_get fun l => icond cc (c.v a l) (c.v b l))
    simp only [accrue_zero]
  | fcmp _ qd cc a b k =>
    obtain ⟨⟩ := h
    refine finish_pred hr rfl ((issue_ready hr _).trans ?_) (maskOf_get fun l => fcond cc (dec32 (c.v a l)) (dec32 (c.v b l)))
    simp only [flagsOf_flag]
  | qand o =>
    obtain ⟨⟩ := h
    exact exec_logic hr rfl rfl fun x y hx hy l => by rw [BitVec.getLsbD_and, hx, hy]
  | qor o =>
    obtain ⟨⟩ := h
    exact exec_logic hr rfl rfl fun x y hx hy l => by rw [BitVec.getLsbD_or, hx, hy]
  | qxor o =>
    obtain ⟨⟩ := h
    exact exec_logic hr rfl rfl fun x y hx hy l => by rw [BitVec.getLsbD_xor, hx, hy]
  | _ => cases h

theorem movqWritesPredicates : MovqWritesPredicates := by
  intro q a k s c hr
  have hexec : exec (.movqWrite q a k) s = .next (c.finish fun w => accrue (writePreds c a w) 0) := by
    simp only [accrue_zero]
    exact issue_ready hr _
  obtain ⟨t, v, hnext, hwarp, hpreds, hpopped, honly, hkeeps⟩ := finish_preds hr rfl hexec (writePreds_eq c a)
  have hpop := popQueues_eq (namedQueues (opnds (.movqWrite q a k)).vs) c.w
  have hget (n : Fin 8) (l : Lane) : v.preds[n].getLsbD l.val =
      if n ≠ 0 ∧ c.act.getLsbD l.val then (c.v a l).getLsbD n.val else c.w.preds[n].getLsbD l.val := by
    rw [hpreds, writePreds_get, hpop]
  have hflags : c.w.fflags ||| 0 = c.w.fflags := BitVec.or_zero
  rw [hflags] at hkeeps
  refine ⟨t, v, hnext, hwarp, hpopped, fun n l hn => ?_, ?_, honly, hkeeps⟩
  · simp only [hget, ne_eq, hn, not_false_eq_true, true_and]
  · exact BitVec.eq_of_getLsbD_eq fun l hl => (hget 0 ⟨l, hl⟩).trans (if_neg fun h => h.1 rfl)

/-- Settles O3: one predicate is written by `setPred`, whose active lanes hold the result; `movq` writes them all, one after another. -/
theorem lanePredicateResults : Obligations.LanePredicateResults := ⟨predicateResults, movqWritesPredicates⟩

end Sys2Proof.Machine
end

section
/-! PROOF. O6. Control transfers to a bad address (R139, R207, R208). -/

namespace Sys2Proof.Machine

theorem badTarget_of_le {a : DWord} (h : 2 ^ 55 ≤ a.toNat) : badTarget a = true := by
  rw [badTarget, bne_iff_ne]
  exact (Nat.div_pos h (by decide)).ne'

theorem badTarget_of_lt {a : DWord} (h : a.toNat < 2 ^ 55) : badTarget a = false := by
  rw [badTarget, Nat.div_eq_of_lt h]
  rfl

theorem Ctx.withTarget_outside {c : Ctx} {off : BitVec 20} (h : 2 ^ 55 ≤ (targetOf c off).toNat) (body : DWord → State) :
    c.withTarget off body = c.raise 0x04 (targetOf c off) := by
  simp only [Ctx.withTarget, c.target_eq, badTarget_of_le h, if_true]

/-- The lanes that `bq` sends to its target, as the masks give them (R213). -/
theorem takenLanes_eq (c : Ctx) (inv : Bool) (p : Fin 8) :
    c.w.path &&& c.w.laneok &&& (if inv then ~~~(predMask c.w p) else predMask c.w p) = takenLanes c inv p :=
  BitVec.eq_of_getLsbD_eq fun k hk => by
    rw [takenLanes, maskOf_get _ ⟨k, hk⟩, BitVec.getLsbD_and, BitVec.getLsbD_and, negated_get c.w p inv ⟨k, hk⟩]

/-- An instruction that raises a trap which its warp handles leads to the handler, and does nothing else (R371). -/
theorem leadsFrom_raise {i : Instr} {s : State} {c : Ctx} {code : BitVec 8} {value : DWord} (hr : ready i s = some c)
    (hslice : c.slice = false) (hh : c.w.handles = true) (hexec : exec i s = .next (c.raise code value)) :
    LeadsFrom i s c (entered c.w { code := code, value := value } c.w.pc false) := by
  have hi := issued_of_ready hr
  exact ⟨_, hexec, Ctx.raise_handled hi.here hslice hh hi.notStopped _ _⟩

section
variable {s : State} {c : Ctx}

/-- A branch that would be taken to an address outside the address space raises trap 0x04 instead (R139). -/
theorem exec_jump_outside {i : Instr} {a : DWord} (h : jumpTo i c = some a) (hr : ready i s = some c) (ha : 2 ^ 55 ≤ a.toNat) :
    exec i s = .next (c.raise 0x04 a) := by
  cases i with
  | bra off =>
    obtain rfl := Option.some.inj h
    exact (issue_ready hr _).trans (congrArg _ (Ctx.withTarget_outside ha _))
  | bcc cc off a b k =>
    simp only [jumpTo, Option.ite_none_right_eq_some, Option.some.injEq] at h
    obtain ⟨htaken, rfl⟩ := h
    exact (issue_ready hr _).trans (congrArg _ ((if_pos htaken).trans (Ctx.withTarget_outside ha _)))
  | bq inv p off =>
    simp only [jumpTo, Option.ite_none_right_eq_some, Option.some.injEq] at h
    obtain ⟨⟨htaken, -⟩, rfl⟩ := h
    rw [← takenLanes_eq] at htaken
    exact (issue_ready hr _).trans (congrArg _ ((if_neg htaken).trans (Ctx.withTarget_outside ha _)))
  | ret x =>
    obtain rfl := Option.some.inj h
    exact (issue_ready hr _).trans (congrArg _ (if_pos (badTarget_of_le ha)))
  | _ => cases h

/-- `ret` to an address within the address space that is no multiple of 4. -/
theorem exec_ret_misaligned {x : SOp} (hr : ready (.ret x) s = some c) (ha : (c.sv64 x).toNat < 2 ^ 55)
    (h4 : (c.sv64 x).toNat % 4 ≠ 0) : exec (.ret x) s = .next (c.raise 0x03 (c.sv64 x)) :=
  (issue_ready hr _).trans (congrArg _ ((if_neg (Bool.eq_false_iff.mp (badTarget_of_lt ha))).trans (if_pos (bne_iff_ne.mpr h4))))

end

/-- Settles O6: the check of the target raises the trap before the branch has any effect. -/
theorem badTargetsTrap : Obligations.BadTargetsTrap := by
  unfold Obligations.BadTargetsTrap
  intro i s c a h hr hslice hh
  refine ⟨fun ha => leadsFrom_raise hr hslice hh (exec_jump_outside h hr ha), ?_⟩
  rintro x rfl ha h4
  obtain rfl := Option.some.inj h
  exact leadsFrom_raise hr hslice hh (exec_ret_misaligned hr ha h4)

end Sys2Proof.Machine
end

section
/-! PROOF. O9. Instructions that the checks at issue do not let through (R134, R140, R152, R378). -/

namespace Sys2Proof.Machine

/-- Every instruction with words is issued, with a body of its own (R378). -/
theorem exec_issues {i : Instr} (h : i.isDevice = false) (s : State) : ∃ body, exec i s = issue i s body := by
  cases i
  all_goals cases h
  all_goals exact ⟨_, rfl⟩

/-- The checks at issue are about instructions with words. -/
theorem illegal_device {i : Instr} (h : i.isDevice = true) (s : State) (w : Warp) (p : Part) : s.illegal w p false i = none := by
  cases i
  all_goals cases h
  all_goals rfl

theorem State.blocked_stopped {s : State} {wid : Nat} {w : Warp} {slice : Bool} {i : Instr} (h : s.blocked wid w slice i = false) :
    w.stopped = false := by
  simp only [State.blocked, Bool.or_eq_false_iff] at h
  obtain ⟨⟨⟨-, hstopped⟩, -⟩, -⟩ := h
  exact hstopped

/-- An instruction of a warp's own stream as it comes to its checks at issue. -/
def issuing (i : Instr) (s : State) (wid : Nat) (w : Warp) (p : Part) : Ctx :=
  ⟨s, wid, w, p, false, i, activeMask w (guardOf i), w.laneok⟩

/-- An instruction that reaches its checks at issue runs through them. -/
theorem Reaches.issue_eq {i : Instr} {s : State} {wid : Nat} {w : Warp} {p : Part} (h : Reaches i s wid w p) (body : Ctx → State) :
    issue i s body = .next ((issuing i s wid w p).run body) := by
  obtain ⟨hagent, hwarp, hpart, hfree, hdue⟩ := h
  simp only [issue, hagent, issueBy, hwarp, hpart, hfree, hdue, Bool.false_eq_true, if_false, issuing]

theorem Ctx.run_illegal {c : Ctx} {code : BitVec 8} (h : c.s.illegal c.w c.p c.slice c.i = some code) (body : Ctx → State) :
    c.run body = c.raise code ((firstWord c.i).setWidth 64) := by
  rw [Ctx.run, h]

theorem illegalInstructionsTrap : IllegalInstructionsTrap := by
  intro i s wid w p code h hh hcode
  cases hdevice : i.isDevice with
  | true => rw [illegal_device hdevice] at hcode; cases hcode
  | false =>
    obtain ⟨body, hexec⟩ := exec_issues hdevice s
    have hrun : (issuing i s wid w p).run body = (issuing i s wid w p).raise code ((firstWord i).setWidth 64) :=
      Ctx.run_illegal (c := issuing i s wid w p) hcode body
    obtain ⟨hwarp, honly⟩ := Ctx.raise_handled (e := issuing i s wid w p) h.warp rfl hh (State.blocked_stopped h.free) code
      ((firstWord i).setWidth 64)
    exact ⟨_, by rw [hexec, h.issue_eq, hrun], honly, hwarp⟩

/-- An unassigned point fails the first check with trap 0x01, and its first word is the word itself. -/
theorem unassignedOpcodeTraps : UnassignedOpcodeTraps := by
  intro x s wid w p h hh
  have hhead : encodeHead (.unassignedOpcode x) = some (x.toNat, none) := rfl
  have hword : firstWord (.unassignedOpcode x) = x := by
    rw [firstWord, encode, hhead]
    exact ofNat_lit x
  have hcode : s.illegal w p false (.unassignedOpcode x) = some 0x01 := by
    unfold State.illegal
    exact if_pos rfl
  have htrap := illegalInstructionsTrap (.unassignedOpcode x) s wid w p 0x01 h hh hcode
  rwa [hword] at htrap

/-- Settles O9: a forbidden instruction raises its trap before its body runs. -/
theorem issueChecksTrap : Obligations.IssueChecksTrap := ⟨illegalInstructionsTrap, unassignedOpcodeTraps⟩

end Sys2Proof.Machine
end

section
/-! PROOF. O12. Reads and writes of the control registers (R8, R145, R243, R370). -/

namespace Sys2Proof.Machine

/-! ## Reads -/

theorem Ctx.crRead_eq {n : Nat} {f : Ctx → DWord} (h : crValue n = some f) (c : Ctx) : c.crRead n = f c := by
  unfold crValue at h
  split at h
  all_goals cases h
  all_goals rfl

/-- A uniform destination of an instruction that issues is the first of an aligned span of registers (R7). -/
theorem Issued.destSpan {i : Instr} {s : State} {c : Ctx} (g : Issued i s c) {d : SOp} {n : Nat} (h : (opnds i).sd = [(d, n)]) :
    ∃ k : Fin 63, d = .s k ∧ k.val % n = 0 ∧ k.val + n ≤ 63 := by
  have hpasses := g.ok
  simp only [passes, Bool.and_eq_true, Option.isNone_iff_eq_none] at hpasses
  obtain ⟨⟨⟨⟨-, hlegal⟩, -⟩, -⟩, -⟩ := hpasses
  cases hd : sdstOk (d, n) with
  | false =>
    unfold State.illegal at hlegal
    simp only [codesOk, h, List.all_cons, hd, Bool.false_and, Bool.and_false, Bool.not_false, Bool.or_true, if_true] at hlegal
    cases hlegal
  | true =>
    cases d with
    | lit => cases hd
    | s k =>
      simp only [sdstOk, Bool.and_eq_true, beq_iff_eq, decide_eq_true_eq] at hd
      exact ⟨k, rfl, hd⟩

theorem setSreg_of_lt {d : Nat} (h : d < 63) (w : Warp) (x : Word) :
    setSreg w d x = { w with sregs := w.sregs.set d x, badSregs := w.badSregs.filter (· != d) } := dif_pos h

/-- The warp after a uniform pair is written: the two registers hold the two halves (R7). -/
theorem setS64_written {w : Warp} {k : Fin 63} (hk : k.val + 2 ≤ 63) (x a : DWord) {v : Warp}
    (hv : v = setPc false a (setS64 false (.s k) x w)) : v = { w with pc := a, sregs := v.sregs, badSregs := v.badSregs }
      ∧ ∀ j : Fin 63, v.sregs[j] = if j.val = k.val then x.setWidth 32
          else if j.val = k.val + 1 then (x >>> 32).setWidth 32 else w.sregs[j] := by
  have hlow : x.extractLsb' 0 32 = x.setWidth 32 := BitVec.setWidth_eq_extractLsb' (by decide) |>.symm
  have hhigh : x.extractLsb' 32 32 = (x >>> 32).setWidth 32 := rfl
  simp only [setS64, setS, setPc, Bool.false_eq_true, if_false, setSreg_of_lt k.isLt, setSreg_of_lt (show k.val + 1 < 63 by omega),
    hlow, hhigh] at hv
  subst hv
  refine ⟨rfl, fun j => ?_⟩
  simp only [Fin.getElem_fin, Vector.getElem_set]
  by_cases hj : j.val = k.val
  · rw [if_pos hj, if_neg (by omega), if_pos hj.symm]
  · rw [if_neg hj, if_neg (Ne.symm hj)]
    simp only [eq_comm]

theorem movcReads : MovcReads := by
  intro d n s c f hr hf
  have hi := issued_of_ready hr
  have hslice : c.slice = false := hi.noSlice rfl
  have hread := Ctx.crRead_eq hf c
  refine ⟨fun hspan => ?_, fun hspan => ?_⟩
  · have hne : ¬ crSpan n = some 2 := by rw [hspan]; decide
    have hexec : exec (.movcRead d n) s = .next (c.finish (setS false d ((f c).setWidth 32))) :=
      (issue_ready hr _).trans (congrArg _ ((if_neg hne).trans (by rw [hread])))
    refine ⟨_, leadsFrom_finish hr hexec (by rw [hslice]; rfl), setS_written _ _ (hi.destOk rfl) (by simp)⟩
  · have hexec : exec (.movcRead d n) s = .next (c.finish (setS64 false d (f c))) :=
      (issue_ready hr _).trans (congrArg _ ((if_pos hspan).trans (by rw [hread])))
    obtain ⟨k, rfl, -, hk⟩ := hi.destSpan (d := d) (n := 2) (by simp only [opnds, hspan, Option.getD_some])
    obtain ⟨hkeeps, hsregs⟩ := setS64_written (w := c.w) hk (f c) c.nextPc rfl
    exact ⟨_, k, leadsFrom_finish hr hexec (by rw [hslice]; rfl), rfl, hkeeps, hsregs⟩

/-! ## Writes -/

/-- R370: died clears where 1 is written, sres takes its bit, the rest stays. -/
theorem statusWrite_eq (old : BitVec 5) (v : DWord) : statusWrite old (v.setWidth 32) = BitVec.ofFnLE fun j : Fin 5 =>
    if j = 3 then v.getLsbD 3 else if j = 4 then old.getLsbD 4 && !v.getLsbD 4 else old.getLsbD j.val := by
  refine BitVec.eq_of_getLsbD_eq fun j hj => ?_
  unfold statusWrite
  interval_cases j <;> simp

/-- A control register of six or more is not one that a warp holds itself. -/
theorem crAfter_of_le {n : Nat} (h : 6 ≤ n) (v : DWord) (w : Warp) : crAfter n v w = w := by
  unfold crAfter
  split
  case h_7 => rfl
  all_goals omega

theorem crWrite_eq (n : Nat) (v : DWord) (w : Warp) : crWrite n v w = crAfter n v w := by
  unfold crWrite
  split
  case h_1 => exact congrArg (fun x => { w with status := x }) (statusWrite_eq w.status v)
  case h_7 =>
    simp only [imp_false] at *
    exact (crAfter_of_le (by omega) v w).symm
  all_goals rfl

theorem movcWrites : MovcWrites := by
  intro a n k s c hr x
  have hi := issued_of_ready hr
  have hslice : c.slice = false := hi.noSlice rfl
  refine ⟨fun hn => ?_, fun hn => ?_⟩
  · have hexec : exec (.movcWrite a n k) s = .next (c.finish (crWrite n.toNat x)) :=
      (issue_ready hr _).trans (congrArg _ (if_neg (by omega)))
    refine leadsFrom_finish hr hexec ?_
    rw [hslice, ← crWrite_eq]
    rfl
  · have hexec : exec (.movcWrite a n k) s = .next { c.finish (crWrite n.toNat x) with
        tshape := tset (c.finish (crWrite n.toNat x)).tshape (tshapeKey c.w.part c.pt (n.toNat - 0x020)) (shapeBits (x.setWidth 32)) } :=
      (issue_ready hr _).trans (congrArg _ (if_pos hn))
    have hwarp := c.finish_warp hi (crWrite n.toNat x)
    rw [hslice, crWrite_eq, crAfter_of_le (by omega)] at hwarp
    have honly := hi.st ▸ c.finish_only (crWrite n.toNat x)
    have hshape : (c.finish (crWrite n.toNat x)).tshape = s.tshape := by rw [honly.rest]
    have hmem : (c.finish (crWrite n.toNat x)).mem = s.mem := by rw [honly.rest]
    refine ⟨_, hexec, hwarp, ?_, hmem, fun j hj => ?_⟩
    · simp only [State.shapeOf, tget_tset_self, Option.getD_some]
      rfl
    · rw [← hshape]
      exact tget_tset_other _ _ _ _ hj

/-- Settles O12: `movc` reads what `crValue` gives, and a write leaves the warp as `crAfter` does or one shape register with its
defined bits. -/
theorem controlRegisters : Obligations.ControlRegisters := ⟨movcReads, movcWrites⟩

end Sys2Proof.Machine
end

section
/-! SUPPORT. What a fetch comes to: the words that it reads, and the instruction that they are decoded to (R133, R378). -/

namespace Sys2Proof.Machine

/-! ## Words in a row -/

theorem decodeWords_of_decodeRest {w e k : Word} {m n : Nat} {i : Instr} (hk : hasLit w.toNat e.toNat = false → k = 0)
    (h : decodeRest w e m [k] = .ok (i, n)) : decodeWords w.toNat e.toNat k.toNat = .ok i := by
  unfold decodeRest at h
  split at h
  case isTrue => exact (map_pair_eq_ok.mp h).1
  case isFalse hl =>
    rw [hk (Bool.eq_false_iff.mpr hl)]
    exact (map_pair_eq_ok.mp h).1

/-- Words in a row decode as the words of the fetch do. -/
theorem decodeWords_of_row {w e k : Word} {i : Instr} {n : Nat} (he : hasExt (w.toNat / 0x1000000) = false → e = 0)
    (hk : hasLit w.toNat e.toNat = false → k = 0) (h : decode (wordsInRow w e k) = .ok (i, n)) :
    decodeWords w.toNat e.toNat k.toNat = .ok i := by
  unfold wordsInRow at h
  cases hext : hasExt (w.toNat / 0x1000000) with
  | false =>
    obtain rfl := he hext
    rw [hext] at h
    exact decodeWords_of_decodeRest hk ((decode_word hext _).symm.trans h)
  | true =>
    rw [hext] at h
    exact decodeWords_of_decodeRest hk ((decode_ext hext _ _).symm.trans h)

/-! ## Fetches -/

/-- Where the literal word is fetched and the words decode, the fetch runs their instruction. -/
theorem State.fetchLit_run {s s1 : State} {w : Warp} {wid : Nat} {slice : Bool} {pc : DWord} {w0 e k : Word} {i : Instr}
    (hlit : if hasLit w0.toNat e.toNat then s.fetchWord w (pc + if hasExt (w0.toNat / 0x1000000) then 8 else 4) = (.ok k, s1)
      else k = 0 ∧ s1 = s) (hi : decodeWords w0.toNat e.toNat k.toNat = .ok i) :
    s.fetchLit w wid slice pc w0 e = .run i s1 := by
  have hat : (if hasExt (w0.toNat / 0x1000000) then pc + 8 else pc + 4) = pc + if hasExt (w0.toNat / 0x1000000) then 8 else 4 := by
    split <;> rfl
  unfold State.fetchLit
  rw [hat]
  split at hlit
  case isTrue hl => simp only [hl, if_true, hlit, hi]
  case isFalse hl =>
    obtain ⟨rfl, rfl⟩ := hlit
    simp only [hl, Bool.false_eq_true, if_false, hi]

/-- Where the words are fetched, nothing holds their instruction up and they decode, the fetch runs their instruction. -/
theorem State.fetchAt_run {s s2 s3 : State} {w : Warp} {wid : Nat} {slice : Bool} {pc : DWord} {w0 e k : Word} {i : Instr} {n : Nat}
    (h : FetchesWords s w pc w0 e k s2 s3) (hheld : Machine.heldBy wid w slice w0 e = false) (hdue : dueOf w slice w0 e = none)
    (hi : decode (wordsInRow w0 e k) = .ok (i, n)) : s.fetchAt w wid slice pc = .run i s3 := by
  obtain ⟨s1, hfirst, hext, hlit⟩ := h
  have hwords : decodeWords w0.toNat e.toNat k.toNat = .ok i := by
    refine decodeWords_of_row (fun hx => ?_) (fun hx => ?_) hi
    · rw [hx] at hext; exact hext.1
    · rw [hx] at hlit; exact hlit.1
  have hrun := State.fetchLit_run (wid := wid) (slice := slice) hlit hwords
  unfold State.fetchAt
  rw [hfirst]
  split at hext
  case isTrue hx => simp only [hx, if_true, hext, hheld, hdue, Bool.false_eq_true, if_false, hrun]
  case isFalse hx =>
    obtain ⟨rfl, rfl⟩ := hext
    simp only [hx, Bool.false_eq_true, if_false, hheld, hdue, hrun]

/-- A stream that stands at an instruction fetches there (R371, R378). -/
theorem State.fetch_stands {s : State} {wid : Nat} {w : Warp} {slice : Bool} {pc : DWord} (hw : tget s.warps wid = some w)
    (h : StandsAt s w slice pc) : s.fetch wid slice = s.fetchAt w wid slice pc := by
  obtain ⟨hmay, hat⟩ := h
  unfold State.fetch
  cases slice with
  | true =>
    obtain ⟨y, hy, rfl, hstopped, hfault⟩ := hat
    simp only [hw, hmay, hy, hstopped, hfault, Bool.not_true, Bool.false_eq_true, if_false, if_true, Option.isSome_none, Bool.or_self]
  | false =>
    obtain ⟨rfl, hwait, hfault⟩ := hat
    simp only [hw, hmay, hwait, hfault, Bool.not_true, Bool.false_eq_true, if_false, Option.isSome_none]

/-! ## Words of clean memory -/

theorem checkLeaf_place {s : State} {key : BitVec 8} {m va lv n : Nat} {need : Need} {e : DWord} {p : Place}
    (h : s.checkLeaf key m need va e lv n = .ok p) : p = leafPlace e lv va := by
  unfold State.checkLeaf at h
  simp only at h
  split at h
  · cases h
  split at h
  · cases h
  split at h
  · cases h
  split at h
  · cases h
  split at h
  · cases h
  exact (Except.ok.inj h).symm

/-- What an address is translated to is the place of a leaf. -/
theorem State.translate_place {s s1 : State} {slot : Fin 8} {m d n : Nat} {need : Need} {va : DWord} {p : Place}
    (h : s.translate slot m d need va n = (s1, .ok p)) : ∃ e lv, p = leafPlace e lv va.toNat := by
  unfold State.translate at h
  simp only at h
  split at h
  · cases h
  split at h
  · cases h
  split at h
  · cases h
  split at h
  · cases h
  next hleaf =>
    cases h
    exact ⟨_, _, checkLeaf_place hleaf⟩

theorem leafPlace_answers (e : DWord) (lv va : Nat) : (leafPlace e lv va).lost = false ∧ (leafPlace e lv va).refused = false := by
  unfold leafPlace
  dsimp only
  split <;> exact ⟨rfl, rfl⟩

/-- A read of a stack gives the bytes there, where memory is clean. -/
theorem State.readMem_bytesAt {s : State} (hc : Clean s) {p : Place} (n : Nat) (hp : p.tier = 0) (hl : p.lost = false)
    (hr : p.refused = false) : ∃ k cs m, s.readMem p n = (.bytes (s.bytesAt p.loc n), s.tallied k cs m) := by
  obtain ⟨k, cs, m, hrequest⟩ := State.request_clean hc hp false
  have hc' := hc.tallied k cs m
  have hlink : (s.tallied k cs m).linkFails p = (false, s.tallied k cs m) := by simp [State.linkFails, hl, hr, hp]
  have hplace : (s.tallied k cs m).readPlace p n = (s.bytesAt p.loc n, s.tallied k cs m) := by
    simp [State.readPlace, hp, State.bytesAt_tallied]
  refine ⟨k, cs, m, ?_⟩
  simp only [State.readMem, hrequest, State.readAt, hlink, State.unreadable_nil hc'.words hc'.blocks, hplace, Bool.false_eq_true, if_false]

/-- A fetch from a stack reads its bytes, where memory is clean. -/
theorem State.fetchWord_clean {s s1 : State} {w : Warp} {va : DWord} {p : Place}
    (h : s.translate w.slot (s.coreOf w) (dieOfCore (s.coreOf w)) .x va = (s1, .ok p)) (hp : p.tier = 0) (hc : Clean s1) :
    ∃ s2, s.fetchWord w va = (.ok (BitVec.ofNat 32 (leNat (s1.bytesAt p.loc 4))), s2) ∧ s2.mem = s1.mem ∧ s2.warps = s1.warps := by
  obtain ⟨e, lv, hleaf⟩ := State.translate_place h
  obtain ⟨hlost, hrefused⟩ := leafPlace_answers e lv va.toNat
  obtain ⟨k, cs, m, hread⟩ := State.readMem_bytesAt hc 4 hp (hleaf ▸ hlost) (hleaf ▸ hrefused)
  have hask : s1.ask p = (p, s1) := by simp [State.ask, hp]
  refine ⟨s1.tallied k cs m, ?_, rfl, rfl⟩
  simp only [State.fetchWord, h, hask, hread]

end Sys2Proof.Machine
end

section
/-! PROOF. O51. A step and the instruction that it executes (R133, R371, R378). -/

namespace Sys2Proof.Machine

/-- The turn of a stream whose words decode is the execution of their instruction. -/
theorem step_stream {s s2 s3 : State} {wid : Nat} {w : Warp} {slice : Bool} {r : List Turn} {pc : DWord} {w0 e k : Word} {i : Instr}
    {n : Nat} (hagenda : s.agenda = (if slice then .slice wid else .issue wid) :: r) (hw : tget s.warps wid = some w)
    (hat : StandsAt s w slice pc)
    (hfetch : FetchesWords { s with agenda := r, agent := if slice then .slice wid else .warp wid } w pc w0 e k s2 s3)
    (hheld : heldBy wid w slice w0 e = false) (hdue : dueOf w slice w0 e = none) (hi : decode (wordsInRow w0 e k) = .ok (i, n)) :
    step s = exec i s3 := by
  have hrun := (State.fetch_stands (s := { s with agenda := r, agent := if slice then .slice wid else .warp wid }) hw hat).trans
    (State.fetchAt_run hfetch hheld hdue hi)
  cases slice
  all_goals
    simp only [step, State.nextTurn, hagenda]
    exact congrArg runFetched hrun

/-- Settles O51: the turn of a stream fetches, and the fetch finds the instruction that the words decode to. -/
theorem stepRunsTheDecodedInstruction : Obligations.StepRunsTheDecodedInstruction := by
  unfold Obligations.StepRunsTheDecodedInstruction
  refine ⟨fun s wid w slice r pc w0 e k s2 s3 i n hagenda hw hat => ?stream, fun s i r hagenda hdevice => ?device, ?word⟩
  case stream => exact fun hfetch hheld hdue hi => step_stream hagenda hw hat hfetch hheld hdue hi
  case device => simp only [step, State.nextTurn, hagenda, hdevice, if_true]
  case word => exact fun s w va s1 p h hp _ hc => State.fetchWord_clean h hp hc

end Sys2Proof.Machine
end

section
/-! SUPPORT. How an instruction of a memory access ends: it leaves an operation outstanding, after a release where it makes one, or takes
the trap of a failed check (R111, R186, R192, R371). -/

namespace Sys2Proof.Machine

/-! ## An operation left outstanding -/

/-- An instruction that pushes an operation, in a state that holds its warp, leaves it outstanding (R192). -/
theorem leaves_push {i : Instr} {s : State} {e : Ctx} (hw : tget e.s.warps e.wid = some e.w) (hi : e.i = i) {k : Ctr} {kind : OpKind}
    {sp : Space} {as : List Acc} {m : Mask} {acq rel : Option Scope} (hexec : exec i s = .next (e.push k kind sp as m acq rel)) :
    Leaves i s e (e.op k kind sp as m acq rel) := by
  refine ⟨_, hexec, (e.push_tget hw ..).trans ?_, e.push_only ..⟩
  rw [hi, id_eq, popQueues_eq]
  rfl

/-! ## Releases -/

/-- A release leaves its warp in the module. -/
theorem released_here {c e : Ctx} (hw : tget c.s.warps c.wid = some c.w) (h : released c = some e) :
    tget e.s.warps e.wid = some e.w := by
  obtain ⟨w, ps, haside, hsome, -⟩ := State.releaseLines_aside c.w.part c.wid c.p.l1 c.s
  unfold released at h
  split at h
  case isTrue => cases h
  case isFalse =>
    split at h
    case h_2 => cases h
    case h_1 s1 hlines =>
      split at h
      case isFalse => cases h
      case isTrue =>
        cases h
        rw [hlines] at haside
        have hwarps : s1.warps = w := aside_warps haside
        obtain ⟨v, hv⟩ := Option.isSome_iff_exists.mp (hwarps ▸ (hsome c.wid).trans (hw ▸ rfl) : (tget s1.warps c.wid).isSome = true)
        rw [Ctx.with_s, Ctx.with_wid, Ctx.with_w hv]
        exact hv

/-- An operation with or without a release has its effect where the release, if there is one, completes. -/
theorem Ctx.releaseIf_of {c e : Ctx} {r : Bool} (h : releasedIf r c = some e) (body : Ctx → State) : c.releaseIf r body = body e := by
  unfold releasedIf at h
  unfold Ctx.releaseIf
  split at h
  case isTrue hrel => rw [if_pos hrel, Ctx.release_of_released h]
  case isFalse hplain => rw [if_neg hplain, Option.some.inj h]

theorem releasedIf_here {c e : Ctx} {r : Bool} (hw : tget c.s.warps c.wid = some c.w) (h : releasedIf r c = some e) :
    tget e.s.warps e.wid = some e.w ∧ e.i = c.i := by
  unfold releasedIf at h
  split at h
  case isTrue => exact ⟨released_here hw h, (released_stream h).2.1⟩
  case isFalse => cases h; exact ⟨hw, rfl⟩

/-! ## Failed checks -/

/-- A check of R186 that fails raises its trap. -/
theorem Ctx.checked_error {c : Ctx} {m : Mask} {sp : Space} {need : Need} {n : Nat} {ea : Lane → Nat} {s1 : State} {t : Trap}
    (h : c.checkAccess m sp need n ea = (s1, .error t)) (body : Ctx → List Acc → State) :
    c.checked m sp need n ea body = (c.with s1).raiseFull t := by
  simp only [Ctx.checked, h]

end Sys2Proof.Machine
end

section
/-! PROOF. O13 and O15. Loads, stores and atomics at their issue (R111, R185-R192). -/

namespace Sys2Proof.Machine

/-! ## The three forms, none of which an access slice executes (R195) -/

theorem exec_load {i : Instr} {o : FormM} {off : Word} {s : State} {c : Ctx} (h : loadForm i = some (o, off)) (hr : ready i s = some c) :
    exec i s = .next (c.loadOp o off) ∧ sliceMay i = false := by
  unfold loadForm at h
  split at h
  case h_1 => cases h; exact ⟨issue_ready hr _, rfl⟩
  case h_2 => cases h; exact ⟨issue_ready hr _, rfl⟩
  case h_3 => cases h

theorem exec_store {i : Instr} {o : FormM} {off : Word} {s : State} {c : Ctx} (h : storeForm i = some (o, off))
    (hr : ready i s = some c) : exec i s = .next (c.storeOp o off) ∧ sliceMay i = false := by
  unfold storeForm at h
  split at h
  case h_1 => cases h; exact ⟨issue_ready hr _, rfl⟩
  case h_2 => cases h; exact ⟨issue_ready hr _, rfl⟩
  case h_3 => cases h

theorem exec_atomic {i : Instr} {o : FormM} {od : Ord} {k : OpKind} {x : VOp} {y : Option VOp} {s : State} {c : Ctx}
    (h : atomForm i = some (o, od, k, x, y)) (hr : ready i s = some c) :
    exec i s = .next (c.atomOp o od k (c.atomArg o.size x) fun l => y.elim 0 fun z => c.atomArg o.size z l) ∧ sliceMay i = false := by
  unfold atomForm at h
  split at h
  case h_1 => cases h; exact ⟨issue_ready hr _, rfl⟩
  case h_2 => cases h; exact ⟨issue_ready hr _, rfl⟩
  case h_3 => cases h

/-! ## Checks that are passed -/

theorem loadsIssue : LoadsIssue := by
  intro i o off s s1 c as hform hr hfree hok hrows
  have g := issued_of_ready hr
  obtain ⟨hwith, hw⟩ := g.with_checked hok
  refine leaves_push (by rw [hwith]; exact hw) ((c.with_i s1).trans g.instr) ((exec_load hform hr).1.trans (congrArg _ ?_))
  rw [Ctx.loadOp, Ctx.full_eq_false hfree, if_neg Bool.false_ne_true, Ctx.checked_ok hok hrows, c.with_act]

theorem storesIssue : StoresIssue := by
  intro i o off s s1 c e as hform hr hfree hok hrows hrel
  have g := issued_of_ready hr
  obtain ⟨hwith, hw⟩ := g.with_checked hok
  obtain ⟨hhere, hi⟩ := releasedIf_here (by rw [hwith]; exact hw) hrel
  refine leaves_push hhere (hi.trans ((c.with_i s1).trans g.instr)) ((exec_store hform hr).1.trans (congrArg _ ?_))
  rw [Ctx.storeOp, Ctx.full_eq_false hfree, if_neg Bool.false_ne_true, Ctx.checked_ok hok hrows, Ctx.releaseIf_of hrel]
  rfl

theorem atomicsIssue : AtomicsIssue := by
  intro i o od k x y s s1 c e as hform hr hfree hok hrows hrel
  have g := issued_of_ready hr
  obtain ⟨hwith, hw⟩ := g.with_checked hok
  obtain ⟨hhere, hi⟩ := releasedIf_here (by rw [hwith]; exact hw) hrel
  refine leaves_push hhere (hi.trans ((c.with_i s1).trans g.instr)) ((exec_atomic hform hr).1.trans (congrArg _ ?_))
  rw [Ctx.atomOp, Ctx.full_eq_false hfree, if_neg Bool.false_ne_true, Ctx.checked_ok hok hrows, Ctx.releaseIf_of hrel]

/-- Settles O13: each form passes its checks, makes the release that it has, and leaves its operation outstanding. -/
theorem loadsAndStoresIssue : Obligations.LoadsAndStoresIssue := ⟨loadsIssue, storesIssue, atomicsIssue⟩

/-! ## Checks that fail -/

/-- R371: a failed check takes the trap that decides, at the instruction. -/
theorem leadsFrom_failed {i : Instr} {s s1 : State} {c : Ctx} {t : Trap} (g : Issued i s c) (hslice : sliceMay i = false)
    {m : Mask} {sp : Space} {need : Need} {n : Nat} {ea : Lane → Nat} (hfail : c.checkAccess m sp need n ea = (s1, .error t))
    (hh : c.w.handles = true) (hexec : exec i s = .next ((c.with s1).raiseFull t)) :
    LeadsFrom i s (c.with s1) (entered c.w t c.w.pc false) := by
  obtain ⟨hwith, hw⟩ := g.with_checked hfail
  rw [hwith] at hexec ⊢
  rw [Ctx.raiseFull_deliver (e := { c with s := s1 }) (g.noSlice hslice)] at hexec
  rw [← enterHandler_eq_entered]
  exact ⟨_, hexec, State.deliver_handled hw hh g.notStopped ..⟩

/-- Settles O15: the three forms make the same checks before anything else, and one that fails raises its trap. -/
theorem failedAccessesTrap : Obligations.FailedAccessesTrap := by
  intro i o off need s s1 c t hforms hr hfail hh
  have g := issued_of_ready hr
  rcases hforms with ⟨hform, rfl, hfree⟩ | ⟨hform, rfl, hfree⟩ | ⟨⟨⟨od, k, x, y⟩, hform⟩, rfl, rfl, hfree⟩
  case inl =>
    obtain ⟨hexec, hslice⟩ := exec_load hform hr
    rw [Ctx.loadOp, Ctx.full_eq_false hfree, if_neg Bool.false_ne_true, Ctx.checked_error hfail] at hexec
    exact leadsFrom_failed g hslice hfail hh hexec
  case inr.inl =>
    obtain ⟨hexec, hslice⟩ := exec_store hform hr
    rw [Ctx.storeOp, Ctx.full_eq_false hfree, if_neg Bool.false_ne_true, Ctx.checked_error hfail] at hexec
    exact leadsFrom_failed g hslice hfail hh hexec
  case inr.inr =>
    obtain ⟨hexec, hslice⟩ := exec_atomic hform hr
    rw [Ctx.atomOp, Ctx.full_eq_false hfree, if_neg Bool.false_ne_true, Ctx.checked_error hfail] at hexec
    exact leadsFrom_failed g hslice hfail hh hexec

end Sys2Proof.Machine
end

section
/-! SUPPORT. What a write leaves in memory: its bytes where no register row lies, to clean memory or to the part's own scratchpad
(R94, R114, R188, R388). -/

namespace Sys2Proof.Machine

/-! ## Bytes written -/

theorem leBytes_getD (n v : Nat) {i : Nat} (h : i < n) : (leBytes n v).getD i 0 = BitVec.ofNat 8 (v / 256 ^ i) := by
  induction n generalizing v i with
  | zero => omega
  | succ n ih =>
    cases i with
    | zero => simp [leBytes]
    | succ i =>
      rw [leBytes, List.getD_cons_succ, ih _ (by omega), Nat.div_div_eq_div_mul, Nat.pow_succ, Nat.mul_comm]

/-- A write of a number's bytes to memory is one of exactly those bytes. -/
theorem wroteBytes_of_write {s t : State} {loc n v : Nat} (hwf : s.mem.wf = true) (hmem : t.mem = s.mem.write loc (leBytes n v)) :
    WroteBytes s t loc n v := by
  intro x
  rw [hmem, Memory.get_write _ _ _ _ hwf, leBytes_length]
  by_cases hin : loc ≤ x ∧ x < loc + n
  · rw [if_pos hin, if_pos hin, leBytes_getD n v (by omega)]
  · rw [if_neg hin, if_neg hin]

/-- Merging a write into marked blocks changes their marks alone. -/
theorem State.mergeMarks_keeps (s : State) (loc n : Nat) : (s.mergeMarks loc n).mem = s.mem ∧ (s.mergeMarks loc n).warps = s.warps := by
  have hblock (u : State) (b : Nat) : (u.mergeBlock loc n b).mem = u.mem ∧ (u.mergeBlock loc n b).warps = u.warps := by
    unfold State.mergeBlock
    simp only
    (repeat' split) <;> exact ⟨rfl, rfl⟩
  exact ⟨foldl_keeps State.mem (fun u b => (hblock u b).1) _ _, foldl_keeps State.warps (fun u b => (hblock u b).2) _ _⟩

/-- A write that meets no register row, and that no bad word keeps out, writes its bytes to memory. -/
theorem State.store_writes {s : State} {loc : Nat} {bs : List Byte} (hreg : ∀ i, i < bs.length → locReg (loc + i) = none)
    (hgood : 4 ≤ bs.length ∨ s.bad = []) : (s.store loc bs).mem = s.mem.write loc bs ∧ (s.store loc bs).warps = s.warps := by
  have hmay : (decide (bs.length < 4) && decide (physTop ≤ loc) && s.badIn loc bs.length) = false := by
    rcases hgood with hlong | hbad
    · rw [decide_eq_false (Nat.not_lt.mpr hlong), Bool.false_and, Bool.false_and]
    · rw [State.badIn_nil hbad, Bool.and_false]
  obtain ⟨hmem, hwarps⟩ := State.mergeMarks_keeps ((s.putBytes loc bs).clearMarks loc bs.length) loc bs.length
  rw [State.store, hmay, if_neg Bool.false_ne_true, hmem, hwarps, State.clearMarks_mem, State.clearMarks_warps,
    State.putBytes_mem bs s loc hreg]
  exact ⟨rfl, rfl⟩

/-- The matrix state of a partition lies in no register row. -/
theorem locReg_matrixLoc (part : Nat) {pt off i : Nat} (hpt : pt < 16) (hoff : off + i < 0x100000) :
    locReg (matrixLoc part pt off + i) = none := by
  have hlt : pt * 0x100000 + off + i < 2 ^ 44 := by omega
  rw [matrixLoc, onchip, Nat.add_assoc]
  exact locReg_onchip (kind := 2) (id := part) (by decide) (by decide) hlt

/-! ## Accesses -/

/-- A write is performed: it leaves its bytes in memory, and the warps as they are. -/
def PutsBytes (s : State) (r : Put × State) (loc : Nat) (bs : List Byte) : Prop :=
  r.1 = .done ∧ r.2.mem = s.mem.write loc bs ∧ r.2.warps = s.warps

/-- Where the one access of an operation goes, no register row lies. -/
theorem OneAccess.locReg {s : State} {wid op : Nat} {w : Warp} {o : OutOp} {a : Acc} (h : OneAccess s wid op w o a) (i : Nat)
    (hi : i < a.n) : Machine.locReg (a.place.loc + i) = none := by
  rcases h with ⟨part, off, h⟩ | h
  · rw [h.place]
    exact locReg_scratchLoc part h.inside hi
  · have hin := h.inside
    exact locReg_phys (by omega)

/-- Both forms of an access have good check bits and canonical memory. -/
theorem OneAccess.sound {s : State} {wid op : Nat} {w : Warp} {o : OutOp} {a : Acc} (h : OneAccess s wid op w o a) :
    s.bad = [] ∧ s.poison = [] ∧ s.mem.wf = true := by
  rcases h with ⟨part, off, h⟩ | h
  · exact ⟨h.good, h.clean, h.mem⟩
  · exact ⟨h.clean.words, h.clean.blocks, h.mem⟩

/-- A store's access of the part's scratchpad or of a stack writes its bytes. -/
theorem OneAccess.writes {s : State} {wid op : Nat} {w : Warp} {o : OutOp} {a : Acc} (h : OneAccess s wid op w o a) (core : Nat)
    {bs : List Byte} (hlen : bs.length = a.n) :
    PutsBytes s ((s.perfOf o).s.writeAcc ⟨wid, w.part, core⟩ o.space a bs) a.place.loc bs := by
  have hreg : ∀ i, i < bs.length → Machine.locReg (a.place.loc + i) = none := fun i hi => h.locReg i (hlen ▸ hi)
  have hbad := h.sound.1
  rcases h with ⟨part, off, h⟩ | h
  · have hclu : a.place.isClu = false := by rw [h.place]; rfl
    have hpartial : (s.perfOf o).s.partialBad a.place.loc bs.length = false := by
      rw [State.partialBad, State.badIn_nil (by exact hbad), Bool.and_false]
    rw [h.space]
    simp only [State.writeAcc, State.writeOnchip, hclu, hpartial, Bool.false_and, Bool.false_eq_true, if_false]
    exact ⟨rfl, State.store_writes (s := (s.perfOf o).s) hreg (.inr hbad)⟩
  · obtain ⟨hlost, hrefused⟩ := h.answered
    obtain ⟨k, cs, m, hreq⟩ := State.request_clean (s := (s.perfOf o).s) ⟨h.clean.words, h.clean.blocks, h.clean.bits, h.clean.counts⟩
      h.tier true
    have hlink : ((s.perfOf o).s.tallied k cs m).linkFails a.place = (false, (s.perfOf o).s.tallied k cs m) := by
      simp [State.linkFails, hlost, hrefused, h.tier]
    rw [h.space]
    simp only [State.writeAcc, State.writeGlobal, State.writeMem, State.writeAt, hreq, hlink]
    exact ⟨rfl, State.store_writes (s := (s.perfOf o).s.tallied k cs m) hreg (.inr hbad)⟩

end Sys2Proof.Machine
end

section
/-! PROOF. O17. What a store, an atomic and a tile operation leave in memory (R79, R188, R190-R192, R202, R254). -/

namespace Sys2Proof.Machine

/-! ## One access performed -/

/-- A single access meets no other, so it is the order of its operation. -/
theorem State.laneOrder_single (s : State) {o : OutOp} {a : Acc} (hone : o.accs = [a]) : s.laneOrder o = [a] := by
  rw [State.laneOrder, hone]
  split
  · rfl
  · rfl

theorem State.performAll_single {s : State} {q : Who} {o : OutOp} {a : Acc} (hone : o.accs = [a]) :
    s.performAll q o = (s.perfOf o).one q o a := by
  rw [State.performAll, s.laneOrder_single hone]
  rfl

/-- An operation that came to values without an error or a death has its effect on its warp, and is retired (R192). -/
theorem State.completeOp_settled {s t u : State} {wid : Nat} {w v : Warp} {o : OutOp} {vals : List (Nat × Nat)} (hacq : o.acq = none)
    (hperf : s.performAll ⟨wid, w.part, s.coreOf w⟩ o = ⟨t, vals, 0, none⟩)
    (hsettle : t.settle ⟨wid, w.part, s.coreOf w⟩ w o ⟨t, vals, 0, none⟩ = u) (hv : tget u.warps wid = some v)
    (hlive : v.ended = false) (hblock : v.block = w.block) : s.completeOp wid w o = u.modWarp wid (retired o) := by
  have hcheck : (u.modWarp wid (retired o)).blockCheck w.block = u.modWarp wid (retired o) :=
    hblock ▸ State.blockCheck_live (w := retired o v) (tget_tmod_of_some _ hv) hlive
  have hkill (x : State) (m : Mask) (hm : m = 0) : x.killLanes wid m = x := if_pos hm
  simp only [State.completeOp, hperf, hsettle, hacq, Option.isSome_none, Bool.false_eq_true, if_false]
  split
  case h_4 => exact (congrArg (State.blockCheck · w.block) (hkill _ _ BitVec.zero_and)).trans hcheck
  all_goals exact (congrArg (State.blockCheck · w.block) (hkill _ _ rfl)).trans hcheck

/-! ## Stores, and the writes of tile operations -/

/-- Operations that only write: each access of theirs is a write, and they leave nothing for their warp. -/
def Writes (k : OpKind) : Prop := k = .store ∨ (∃ t, k = .tst t) ∨ k = .cst

theorem Writes.one {o : OutOp} (h : Writes o.kind) (q : Who) (r : Perf) (a : Acc) :
    ∃ tile, Perf.one q o r a = r.writeOne q o.space tile a := by
  rcases h with hk | ⟨t, hk⟩ | hk
  all_goals
    simp only [Perf.one, hk]
    exact ⟨_, rfl⟩

theorem Writes.settle {o : OutOp} (h : Writes o.kind) (s u : State) (q : Who) (w : Warp) (vals : List (Nat × Nat)) :
    s.settle q w o ⟨u, vals, 0, none⟩ = s := by
  rcases h with hk | ⟨t, hk⟩ | hk
  all_goals simp only [State.settle, hk]

/-- A write of one access leaves its bytes in memory, and its warp without it. -/
theorem OneAccess.completes_write {s : State} {wid op : Nat} {w : Warp} {o : OutOp} {a : Acc} (h : OneAccess s wid op w o a)
    (hk : Writes o.kind) : WroteBytes s (s.completeOp wid w o) a.place.loc a.n a.data
      ∧ tget (s.completeOp wid w o).warps wid = some (retired o w) ∧ (s.completeOp wid w o).mem.wf = true := by
  obtain ⟨hdue, hone, ⟨hvals, hdead, herr⟩, hlive, hacq⟩ := h.common
  obtain ⟨-, -, hwf⟩ := h.sound
  obtain ⟨hput, hmem, hwarps⟩ := h.writes (s.coreOf w) (leBytes_length a.n a.data)
  have hwrite : (s.perfOf o).s.writeAcc ⟨wid, w.part, s.coreOf w⟩ o.space a (leBytes a.n a.data)
      = (.done, ((s.perfOf o).s.writeAcc ⟨wid, w.part, s.coreOf w⟩ o.space a (leBytes a.n a.data)).2) := Prod.ext hput rfl
  generalize ((s.perfOf o).s.writeAcc ⟨wid, w.part, s.coreOf w⟩ o.space a (leBytes a.n a.data)).2 = t at hwrite hmem hwarps
  have hperf : s.performAll ⟨wid, w.part, s.coreOf w⟩ o = ⟨t, [], 0, none⟩ := by
    obtain ⟨tile, hwriteOne⟩ := hk.one ⟨wid, w.part, s.coreOf w⟩ (s.perfOf o) a
    rw [State.performAll_single hone, hwriteOne, Perf.writeOne, hwrite]
    simp only [State.perfOf, hvals, hdead, herr]
  have hw : tget t.warps wid = some w := hwarps ▸ State.readyOp_warp hdue
  rw [State.completeOp_settled hacq hperf (hk.settle ..) hw hlive rfl]
  exact ⟨wroteBytes_of_write hwf hmem, tget_tmod_of_some _ hw, hmem ▸ Memory.wf_write _ _ _ hwf⟩

theorem storesWriteTheirBytes : StoresWriteTheirBytes := by
  intro s wid op w o a h hctr hk
  obtain ⟨hbytes, hw, hwf⟩ := h.completes_write (.inl hk)
  exact ⟨_, _, (operationsComplete s wid op w o h.common.1).2.1 hctr, hbytes, hw, rfl, hwf⟩

/-! ## Loads of tiles -/

theorem State.writeTile_single (s : State) (base k v : Nat) : s.writeTile base [(k, v)] = s.store (base + 8 * k) (leBytes 8 v) := rfl

/-- R202: a `tld` of one piece puts the bytes that memory holds into its tile. -/
theorem OneAccess.completes_tld {s : State} {wid op t : Nat} {w : Warp} {o : OutOp} {a : Acc} (h : OneAccess s wid op w o a)
    (hk : o.kind = .tld t) (hn : a.n = 8) (hoff : a.off = 0) (hin : 4096 * t + 8 * a.lane + 8 ≤ 0x100000) :
    WroteBytes s (s.completeOp wid w o) (matrixLoc w.part (w.wslot.toNat % 16) (4096 * t) + 8 * a.lane) 8
      (leNat (s.mem.read a.place.loc 8)) := by
  obtain ⟨hdue, hone, ⟨hvals, hdead, herr⟩, hlive, hacq⟩ := h.common
  obtain ⟨-, -, hwf⟩ := h.sound
  obtain ⟨hgot, hmem, hwarps⟩ := h.reads (s.coreOf w)
  have hread : (s.perfOf o).s.readAcc ⟨wid, w.part, s.coreOf w⟩ o.space a
      = (.bytes (s.mem.read a.place.loc a.n), ((s.perfOf o).s.readAcc ⟨wid, w.part, s.coreOf w⟩ o.space a).2) := Prod.ext hgot rfl
  generalize ((s.perfOf o).s.readAcc ⟨wid, w.part, s.coreOf w⟩ o.space a).2 = u at hread hmem hwarps
  have hperf : s.performAll ⟨wid, w.part, s.coreOf w⟩ o = ⟨u, [(a.lane, leNat (s.mem.read a.place.loc 8))], 0, none⟩ := by
    rw [State.performAll_single hone, Perf.one, hk]
    simp only [Perf.readOne, hread]
    simp only [State.perfOf, hvals, hdead, herr, hoff, hn, Nat.pow_zero, Nat.mul_one, List.nil_append]
  have hsettle : u.settle ⟨wid, w.part, s.coreOf w⟩ w o ⟨u, [(a.lane, leNat (s.mem.read a.place.loc 8))], 0, none⟩
      = u.store (matrixLoc w.part (w.wslot.toNat % 16) (4096 * t) + 8 * a.lane) (leBytes 8 (leNat (s.mem.read a.place.loc 8))) := by
    simp only [State.settle, hk]
    exact State.writeTile_single ..
  have hreg (i : Nat) (hi : i < (leBytes 8 (leNat (s.mem.read a.place.loc 8))).length) :
      Machine.locReg (matrixLoc w.part (w.wslot.toNat % 16) (4096 * t) + 8 * a.lane + i) = none := by
    rw [leBytes_length] at hi
    rw [Nat.add_assoc]
    exact locReg_matrixLoc w.part (Nat.mod_lt _ (by decide)) (by omega)
  obtain ⟨hstored, hkept⟩ := State.store_writes (s := u) hreg (.inl (by rw [leBytes_length]; decide))
  have hw : tget s.warps wid = some w := State.readyOp_warp hdue
  rw [State.completeOp_settled hacq hperf hsettle (by rw [hkept, hwarps]; exact hw) hlive rfl]
  refine wroteBytes_of_write hwf ?_
  rw [State.modWarp_mem, hstored, hmem]
  rfl

theorem tileAccessesMoveBytes : TileAccessesMoveBytes := by
  intro s wid op w o a h hctr
  have hexec := (operationsComplete s wid op w o h.common.1).2.2 hctr
  exact ⟨fun t hk hn hoff hin => ⟨_, hexec, h.completes_tld hk hn hoff hin⟩,
    fun t hk => ⟨_, hexec, (h.completes_write (.inr (hk.imp_left fun e => ⟨t, e⟩))).1⟩⟩

/-! ## Atomics -/

/-- What an atomic writes, at the coherence point, when it has read the old value (R191). -/
def State.rmwStore (s : State) (k : OpKind) (a : Acc) (old : Nat) : State :=
  match rmwNew k a old with
  | some v => s.store a.place.loc (leBytes a.n v)
  | none => s

/-- The same with the flags that accrue in its warp. -/
def State.rmwDone (s : State) (wid : Nat) (k : OpKind) (a : Acc) (old : Nat) : State :=
  (s.rmwStore k a old).modWarp wid fun w => accrue w (rmwFlags k a old)

theorem State.rmwStore_leaves {s : State} {a : Acc} (k : OpKind) (old : Nat) (hreg : ∀ i, i < a.n → locReg (a.place.loc + i) = none)
    (hbad : s.bad = []) : AtomicLeaves s (s.rmwStore k a old) a.place.loc a.n (rmwNew k a old) := by
  unfold State.rmwStore
  cases rmwNew k a old with
  | none => exact ⟨rfl, rfl⟩
  | some v =>
    obtain ⟨hmem, hwarps⟩ := State.store_writes (bs := leBytes a.n v) (fun i hi => hreg i (leBytes_length a.n v ▸ hi)) (.inr hbad)
    exact ⟨hwarps, hmem⟩

/-- An atomic's access of the part's scratchpad or of a stack reads the bytes of memory, and then writes there what it comes to. -/
theorem OneAccess.rmw {s : State} {wid op : Nat} {w : Warp} {o : OutOp} {a : Acc} (h : OneAccess s wid op w o a) (core : Nat) :
    ∃ u : State, (s.perfOf o).rmwOne ⟨wid, w.part, core⟩ o.kind o.space a = { s.perfOf o with
        s := u.rmwDone wid o.kind a (leNat (s.mem.read a.place.loc a.n))
        vals := o.vals ++ [(a.lane, leNat (s.mem.read a.place.loc a.n))] }
      ∧ u.mem = s.mem ∧ u.warps = s.warps ∧ u.bad = [] := by
  have hbytes (u : State) (hmem : u.mem = s.mem) : u.bytesAt a.place.loc a.n = s.mem.read a.place.loc a.n :=
    hmem ▸ State.bytesAt_mem _ _ _ h.locReg
  obtain ⟨hbad, hpoison, -⟩ := h.sound
  rcases h with ⟨part, off, h⟩ | h
  · have hclu : a.place.isClu = false := by rw [h.place]; rfl
    refine ⟨(s.perfOf o).s, ?_, rfl, rfl, hbad⟩
    have hgot : (s.perfOf o).s.readOnchip a = (.bytes (s.mem.read a.place.loc a.n), (s.perfOf o).s) := by
      simp only [State.readOnchip, hclu, State.badIn_nil (s := (s.perfOf o).s) hbad, hbytes (s.perfOf o).s rfl, Bool.false_and,
        Bool.false_eq_true, if_false]
    rw [h.space, Perf.rmwOne, if_neg (by decide), hgot]
    rfl
  · obtain ⟨hlost, hrefused⟩ := h.answered
    obtain ⟨k, cs, m, hreq⟩ := State.request_clean (s := (s.perfOf o).s.modPart w.part fun p => dropLine p (a.addr / 128) none)
      ⟨h.clean.words, h.clean.blocks, h.clean.bits, h.clean.counts⟩ h.tier true
    generalize hu : ((s.perfOf o).s.modPart w.part fun p => dropLine p (a.addr / 128) none).tallied k cs m = u at hreq
    have hlink : u.linkFails a.place = (false, u) := by simp [State.linkFails, hlost, hrefused, h.tier]
    have hmem : u.mem = s.mem := hu ▸ rfl
    have hbadu : u.bad = [] := hu ▸ hbad
    have hplace : u.readPlace a.place a.n = (s.mem.read a.place.loc a.n, u) := by simp [State.readPlace, h.tier, hbytes u hmem]
    refine ⟨u, ?_, hmem, hu ▸ rfl, hbadu⟩
    rw [h.space, Perf.rmwOne, if_pos rfl]
    simp only [hreq, hlink, State.unreadable_nil hbadu (hu ▸ hpoison : u.poison = []), hplace, Bool.false_eq_true, if_false]
    rfl

/-- The atomic operations (R190, R191). -/
def Atomic (k : OpKind) (n : Fin 120) : Prop := (∃ p, k = .atom p .w (.v n)) ∨ k = .cas .w (.v n)

theorem Atomic.one {o : OutOp} {n : Fin 120} (h : Atomic o.kind n) (q : Who) (r : Perf) (a : Acc) :
    Perf.one q o r a = r.rmwOne q o.kind o.space a := by
  rcases h with ⟨p, hk⟩ | hk
  all_goals simp only [Perf.one, hk]

/-- The old value of an atomic goes to its destination register, as the value of a load does. -/
theorem Atomic.settle {o : OutOp} {n : Fin 120} (h : Atomic o.kind n) {t u : State} {q : Who} {w v : Warp} {vals : List (Nat × Nat)}
    (hv : tget t.warps q.wid = some v) : (t.settle q w o ⟨u, vals, 0, none⟩).mem = t.mem
      ∧ tget (t.settle q w o ⟨u, vals, 0, none⟩).warps q.wid = some { v with
          vregs := (setVregs (o.mask &&& w.laneok) n.val 1 (fun _ l => BitVec.ofNat 32 (laneVal vals l.val)) v).vregs } := by
  have hmask : o.mask &&& ~~~(0 : Mask) &&& w.laneok = o.mask &&& w.laneok := by
    rw [show ~~~(0 : Mask) = BitVec.allOnes 32 from rfl, BitVec.and_allOnes]
  have hwrite := tget_tmod_of_some (writeSpan (o.mask &&& w.laneok) .w (.v n) fun l => laneVal vals l) hv
  rw [writeSpan_eq, setVregs_eq] at hwrite
  obtain ⟨b, r, hheal, -, -⟩ := (t.modWarp q.wid (writeSpan (o.mask &&& w.laneok) .w (.v n) fun l => laneVal vals l)).healRegs_eq
    (spanLocs q.wid (o.mask &&& w.laneok) [(.v n, sizeSpan .w)])
  rcases h with ⟨p, hk⟩ | hk
  all_goals
    simp only [State.settle, hk, hmask, Option.isSome_none, Bool.false_eq_true, if_false]
    rw [hheal]
    exact ⟨rfl, hwrite⟩

/-- An atomic of one access leaves its new value in memory and its flags and the old value in its warp (R191). -/
theorem OneAccess.completes_atomic {s : State} {wid op : Nat} {w : Warp} {o : OutOp} {a : Acc} {n : Fin 120}
    (h : OneAccess s wid op w o a) (hk : Atomic o.kind n) : let old := leNat (s.mem.read a.place.loc a.n)
    (s.completeOp wid w o).mem = (rmwNew o.kind a old).elim s.mem (fun y => s.mem.write a.place.loc (leBytes a.n y))
      ∧ tget (s.completeOp wid w o).warps wid = some (retired o { accrue w (rmwFlags o.kind a old) with
          vregs := (setVregs (o.mask &&& w.laneok) n.val 1 (fun _ l => BitVec.ofNat 32 (laneVal [(a.lane, old)] l.val))
            (accrue w (rmwFlags o.kind a old))).vregs }) := by
  intro old
  obtain ⟨hdue, hone, ⟨hvals, hdead, herr⟩, hlive, hacq⟩ := h.common
  obtain ⟨u, hrmw, humem, huwarps, hubad⟩ := h.rmw (s.coreOf w)
  obtain ⟨hwarps, hmem⟩ := State.rmwStore_leaves o.kind old h.locReg hubad
  have hperf : s.performAll ⟨wid, w.part, s.coreOf w⟩ o = ⟨u.rmwDone wid o.kind a old, [(a.lane, old)], 0, none⟩ := by
    rw [State.performAll_single hone, hk.one, hrmw]
    simp only [State.perfOf, hvals, hdead, herr, List.nil_append, old]
  have hw : tget (u.rmwDone wid o.kind a old).warps wid = some (accrue w (rmwFlags o.kind a old)) :=
    tget_tmod_of_some _ (hwarps.trans huwarps ▸ State.readyOp_warp hdue)
  obtain ⟨hsettled, hv⟩ := hk.settle (u := u.rmwDone wid o.kind a old) (q := ⟨wid, w.part, s.coreOf w⟩) (w := w)
    (vals := [(a.lane, old)]) hw
  rw [State.completeOp_settled hacq hperf rfl hv hlive rfl]
  exact ⟨hsettled.trans (hmem.trans (humem ▸ rfl)), tget_tmod_of_some _ hv⟩

theorem FVal.isNaN_of_isSNan {x : FVal} (h : x.isSNan = true) : x.isNan = true := by
  cases x with
  | nan q => rfl
  | _ => cases h

/-- R79: the smaller or larger of two numbers sets nv for a signalling NaN among them, and no other flag. -/
theorem minmax_flags (f : Fmt) (mx : Bool) (a b : Nat) :
    (minmax f mx a b).2 = if (decodeF f a).isSNan || (decodeF f b).isSNan then flNv else 0 := by
  unfold minmax
  simp only
  split
  case h_4 ha hb =>
    have hx : (decodeF f a).isSNan = false := Bool.eq_false_iff.mpr (mt FVal.isNaN_of_isSNan (Bool.eq_false_iff.mp ha))
    have hy : (decodeF f b).isSNan = false := Bool.eq_false_iff.mpr (mt FVal.isNaN_of_isSNan (Bool.eq_false_iff.mp hb))
    rw [hx, hy]
    rfl
  all_goals rfl

/-- An atomic that takes the smaller or the larger of two FP32 numbers (R190). -/
def TakesMinMax (k : OpKind) (n : Fin 120) : Prop := k = .atom .fmin .w (.v n) ∨ k = .atom .fmax .w (.v n)

/-- R79, R191: `.fmin` and `.fmax` set the flag of their comparison. -/
theorem rmwFlags_minmax {k : OpKind} {n : Fin 120} (h : TakesMinMax k n) (a : Acc) (old : Nat) : rmwFlags k a old =
    if (dec32 (BitVec.ofNat 32 old)).isSNan || (dec32 (BitVec.ofNat 32 a.data)).isSNan then flNv else 0 := by
  rcases h with rfl | rfl
  all_goals exact minmax_flags ..

/-- R191: the other atomics set no flag. -/
theorem rmwFlags_other {k : OpKind} {n : Fin 120} (hk : Atomic k n) (h : ¬ TakesMinMax k n) (a : Acc) (old : Nat) :
    rmwFlags k a old = 0 := by
  rcases hk with ⟨p, rfl⟩ | rfl
  case inr => rfl
  case inl =>
    cases p with
    | fmin => exact absurd (.inl rfl) h
    | fmax => exact absurd (.inr rfl) h
    | _ => rfl

theorem atomicsUpdateTheirWord : AtomicsUpdateTheirWord := by
  intro s wid op w o a n h hctr hoff hn hk old minmax snan
  obtain ⟨hmem, hw⟩ := h.completes_atomic hk
  rw [hn] at hmem hw
  refine ⟨_, _, (operationsComplete s wid op w o h.common.1).1 hctr, hw, fun l hl hlane => ?lane, fun k hne => ?others, rfl,
    fun hm => ?plain, fun hm => ?flags, ?mem⟩
  case lane =>
    refine (setVregs_get ..).trans ?_
    rw [if_pos ⟨le_refl _, by omega, hl⟩, laneVal_single, if_pos hlane]
  case others =>
    have hout : ¬ (n.val ≤ k.val ∧ k.val < n.val + 1) := fun hin => hne (Fin.ext (by omega))
    refine Vector.ext fun l hl => (setVregs_get (l := ⟨l, hl⟩) ..).trans (if_neg fun hin => hout ⟨hin.1, hin.2.1⟩)
  case plain => exact (congrArg (w.fflags ||| ·) (rmwFlags_other hk hm a old)).trans BitVec.or_zero
  case flags => exact congrArg (w.fflags ||| ·) (rmwFlags_minmax hm a old)
  case mem =>
    cases hnew : rmwNew o.kind a old with
    | none => exact fun x => by rw [hmem, hnew]; rfl
    | some y => exact wroteBytes_of_write h.sound.2.2 (by rw [hmem, hnew]; rfl)

/-- Settles O17: each operation's one access is performed on the bytes that memory holds, and its effect is retired with it. -/
theorem storesComplete : Obligations.StoresComplete := ⟨storesWriteTheirBytes, atomicsUpdateTheirWord, tileAccessesMoveBytes⟩

end Sys2Proof.Machine
end

section
/-! SUPPORT. Pieces of the part's own scratchpad, and what placing the pieces of a tile or of a drain leaves (R85, R202, R254). -/

namespace Sys2Proof.Machine

/-! ## Placing pieces -/

/-- Placing the pieces of a tile changes no more than translation does. -/
theorem Ctx.placeTile_aside (c : Ctx) (sp : Space) (need : Need) (ps : List (Nat × Nat)) :
    ∀ s : State, (c.placeTile s sp need ps).1.aside = s.aside := by
  induction ps with
  | nil => exact fun _ => rfl
  | cons x r ih =>
    intro s
    obtain ⟨k, a⟩ := x
    have hlocate := c.locate_aside s sp need a 8
    unfold Ctx.placeTile
    split
    case h_1 e => rw [e] at hlocate; exact hlocate
    case h_2 s1 p e =>
      rw [e] at hlocate
      split
      case h_1 => exact hlocate
      case h_2 =>
        have hrest := ih s1
        split
        case h_1 e2 => rw [e2] at hrest; exact hrest.trans hlocate
        case h_2 e2 => rw [e2] at hrest; exact hrest.trans hlocate

/-- Where a piece of a drain lies, or the cause of its refusal (R254). -/
def Ctx.drainPlace (c : Ctx) (s : State) (sp : Space) (a : Nat) : State × Except (BitVec 8) Place :=
  match sp with
  | .g | .p => s.translate c.w.slot c.core c.die .w (BitVec.ofNat 64 a)
  | _ => (s, match s.onchipOf c.w c.p sp a 8 with
    | some p => .ok p
    | none => .error 0x05)

theorem Ctx.drainPlace_aside (c : Ctx) (s : State) (sp : Space) (a : Nat) : (c.drainPlace s sp a).1.aside = s.aside := by
  unfold Ctx.drainPlace
  split
  case h_3 => rfl
  all_goals exact s.translate_aside ..

/-- A drain's first piece is placed before the others, and has no data yet. -/
theorem Ctx.placeDrain_cons (c : Ctx) (s : State) (sp : Space) (k a : Nat) (r : List (Nat × Nat)) :
    c.placeDrain s sp ((k, a) :: r) = match c.drainPlace s sp a with
      | (s1, .error code) => (s1, .error { code := code, value := BitVec.ofNat 64 a })
      | (s1, .ok p) => ((c.placeDrain s1 sp r).1, (c.placeDrain s1 sp r).2.map (⟨k, 0, a, p, 8, 0, 0⟩ :: ·)) := by
  have hrest (s1 : State) (p : Place) : (match c.placeDrain s1 sp r with
      | (s2, .error t) => (s2, .error t)
      | (s2, .ok xs) => (s2, .ok (⟨k, 0, a, p, 8, 0, 0⟩ :: xs))) =
      ((c.placeDrain s1 sp r).1, (c.placeDrain s1 sp r).2.map (⟨k, 0, a, p, 8, 0, 0⟩ :: ·)) := by
    obtain ⟨s2, _ | xs⟩ := c.placeDrain s1 sp r <;> rfl
  simp only [← hrest]
  rfl

/-- Placing the pieces of a drain changes no more than translation does. -/
theorem Ctx.placeDrain_aside (c : Ctx) (sp : Space) (ps : List (Nat × Nat)) :
    ∀ s : State, (c.placeDrain s sp ps).1.aside = s.aside := by
  induction ps with
  | nil => exact fun _ => rfl
  | cons x r ih =>
    intro s
    have hplace := c.drainPlace_aside s sp x.2
    rw [Ctx.placeDrain_cons]
    split
    case h_1 e => rw [e] at hplace; exact hplace
    case h_2 s1 p e => rw [e] at hplace; exact (ih s1).trans hplace

/-- The accesses of a drain have no data before its accumulator is read. -/
theorem Ctx.placeDrain_data (c : Ctx) (sp : Space) (ps : List (Nat × Nat)) :
    ∀ (s : State) (as : List Acc), (c.placeDrain s sp ps).2 = .ok as → as.map (fun a => { a with data := 0 }) = as := by
  induction ps with
  | nil => intro s as h; cases h; rfl
  | cons x r ih =>
    intro s as h
    rw [Ctx.placeDrain_cons] at h
    split at h
    case h_1 => cases h
    case h_2 s1 p e =>
      cases hr : (c.placeDrain s1 sp r).2 with
      | error t => rw [hr] at h; cases h
      | ok xs =>
        rw [hr] at h
        cases h
        rw [List.map_cons, ih s1 xs hr]

/-! ## The part's own scratchpad -/

/-- Pieces of the part's own scratchpad pass the checks of a tile's access, which look nothing up. -/
theorem Ctx.placeTile_own {c : Ctx} (need : Need) (hcopies : c.s.copies = []) : ∀ ps : List (Nat × Nat),
    (∀ x ∈ ps, x.2 + 8 ≤ c.p.scratch ∧ x.2 + 8 ≤ 0x100000) → c.placeTile c.s .s need ps = (c.s, .ok (ownAccs c 8 ps)) := by
  intro ps
  induction ps with
  | nil => exact fun _ => rfl
  | cons x r ih =>
    intro h
    obtain ⟨⟨hin, hlt⟩, hrest⟩ := List.forall_mem_cons.mp h
    have hplace : c.locate c.s .s need x.2 8 = (c.s, .ok (onchipPlace (scratchLoc c.w.part x.2))) := by
      have hwin : x.2 < 0x100000 := by omega
      simp only [Ctx.locate, State.onchipOf, if_pos hwin, if_pos hin]
    have hlock (a : Acc) : c.firstLocked c.s .s need a = none := by
      simp [Ctx.firstLocked, Ctx.locked, State.lockMeets, hcopies]
    rw [Ctx.placeTile, hplace]
    simp only [hlock, ih hrest]
    rfl

theorem Ctx.placeDrain_own {c : Ctx} : ∀ ps : List (Nat × Nat),
    (∀ x ∈ ps, x.2 + 8 ≤ c.p.scratch ∧ x.2 + 8 ≤ 0x100000) → c.placeDrain c.s .s ps = (c.s, .ok (ownAccs c 8 ps)) := by
  intro ps
  induction ps with
  | nil => exact fun _ => rfl
  | cons x r ih =>
    intro h
    obtain ⟨⟨hin, hlt⟩, hrest⟩ := List.forall_mem_cons.mp h
    have hplace : c.drainPlace c.s .s x.2 = (c.s, .ok (onchipPlace (scratchLoc c.w.part x.2))) := by
      have hwin : x.2 < 0x100000 := by omega
      simp only [Ctx.drainPlace, State.onchipOf, if_pos hwin, if_pos hin]
    rw [Ctx.placeDrain_cons, hplace]
    simp only [ih hrest]
    rfl

/-- No piece of the scratchpad lies in a register row. -/
theorem Ctx.rowsHeld_own {c : Ctx} {ps : List (Nat × Nat)} (h : ∀ x ∈ ps, x.2 + 8 ≤ c.p.scratch ∧ x.2 + 8 ≤ 0x100000) :
    c.rowsHeld (ownAccs c 8 ps) = false := by
  refine List.any_eq_false.mpr fun a ha => ?_
  obtain ⟨x, hx, rfl⟩ := List.mem_map.mp ha
  have hreg : locReg (onchipPlace (scratchLoc c.w.part x.2)).loc = none :=
    locReg_scratchLoc c.w.part (n := 8) (i := 0) (h x hx).2 (by decide)
  simp only [hreg, Option.elim_none]
  exact Bool.false_ne_true

/-! ## The issuing stream -/

/-- A stream stays as it is in a state that differs by what an access may change on its way. -/
theorem Issued.with_aside {i : Instr} {s s1 : State} {c : Ctx} (g : Issued i s c) (h : s1.aside = c.s.aside) :
    c.with s1 = { c with s := s1 } ∧ tget s1.warps c.wid = some c.w := by
  rw [g.st] at h
  have hw : tget s1.warps c.wid = some c.w := aside_warps h ▸ g.warp
  exact ⟨Ctx.with_same hw (aside_parts h ▸ g.part), hw⟩

/-- An access that looked nothing up leaves the stream as it is. -/
theorem Issued.with_here {i : Instr} {s : State} {c : Ctx} (g : Issued i s c) : c.with c.s = c := (g.with_aside rfl).1

end Sys2Proof.Machine
end

section
/-! PROOF. O18. Tile loads, tile stores and drains at their issue (R201, R202, R244, R252-R254). -/

namespace Sys2Proof.Machine

/-! ## tld and tst -/

/-- The checks of a tile's access are passed, and lead to its effect (R202). -/
theorem Ctx.tileChecked_ok {c : Ctx} {o : FormT} {need : Need} {as : List Acc} (ha : c.uaddr o.space o.a % 16 = 0)
    (hb : (c.sv o.b).toNat % 16 = 0) (hok : (c.placeTile c.s o.space need (tileOf c o)).2 = .ok as) (hrows : c.rowsHeld as = false)
    (body : Ctx → List Acc → State) :
    c.tileChecked o need body = body (c.with (c.placeTile c.s o.space need (tileOf c o)).1) as := by
  have hplace : c.placeTile c.s o.space need (tilePieces o.space (c.uaddr o.space o.a) (c.sv o.b).toInt
      (shapeW (c.s.shapeOf c.w.part c.pt o.t.val)) (shapeRows (c.s.shapeOf c.w.part c.pt o.t.val)))
      = ((c.placeTile c.s o.space need (tileOf c o)).1, .ok as) := Prod.ext rfl hok
  simp only [Ctx.tileChecked, ha, hb, hplace, hrows, bne_self_eq_false, Bool.false_eq_true, if_false]

/-- The accesses of a `tst` with the bytes that its tile holds (R202). -/
def Ctx.tileBytes (c : Ctx) (t : Nat) (u : State) (as : List Acc) : List Acc :=
  as.map fun a => { a with data := u.load (matrixLoc c.w.part c.pt (4096 * t) + 8 * a.lane) 8 }

section
variable {o : FormT} {s : State} {c : Ctx} (hfree : c.s.counter c.wid c.w .tiles < 63) (hchain : c.chainRuns = false)
  (hload : c.tileLoading o.t.val = false) (ha : c.uaddr o.space o.a % 16 = 0) (hb : (c.sv o.b).toNat % 16 = 0)
include hfree hchain hload ha hb

/-- R201, R202, R244: a `tld` whose pieces are placed. -/
theorem tld_leaves (hr : ready (.tld o) s = some c) (huse : c.tileInUse o.t.val = false) {as : List Acc}
    (hok : (c.placeTile c.s o.space .r (tileOf c o)).2 = .ok as) (hrows : c.rowsHeld as = false) :
    let e := c.with (c.placeTile c.s o.space .r (tileOf c o)).1
    Leaves (.tld o) s e (e.op .tiles (.tld o.t.val) o.space as 0 none none) := by
  have g := issued_of_ready hr
  obtain ⟨hwith, hw⟩ := g.with_aside (c.placeTile_aside o.space .r (tileOf c o) c.s)
  refine leaves_push (by rw [hwith]; exact hw) ((c.with_i _).trans g.instr) ((issue_ready hr _).trans (congrArg _ ?_))
  simp only [Ctx.full_eq_false hfree, hchain, hload, huse, Bool.or_false, Bool.false_eq_true, if_false]
  exact Ctx.tileChecked_ok ha hb hok hrows _

/-- R201, R202: a `tst` of a tile with good check bits whose pieces are placed. -/
theorem tst_leaves (hr : ready (.tst o) s = some c) (hbad : c.s.bad = []) {as : List Acc}
    (hok : (c.placeTile c.s o.space .w (tileOf c o)).2 = .ok as) (hrows : c.rowsHeld as = false) :
    let e := c.with (c.placeTile c.s o.space .w (tileOf c o)).1
    Leaves (.tst o) s e (e.op .tiles (.tst o.t.val) o.space (c.tileBytes o.t.val e.s as) 0 none none) := by
  have g := issued_of_ready hr
  obtain ⟨hwith, hw⟩ := g.with_aside (c.placeTile_aside o.space .w (tileOf c o) c.s)
  refine leaves_push (by rw [hwith]; exact hw) ((c.with_i _).trans g.instr) ((issue_ready hr _).trans (congrArg _ ?_))
  simp only [Ctx.full_eq_false hfree, hchain, hload, State.badIn_nil hbad, Bool.or_false, Bool.false_eq_true, if_false]
  exact Ctx.tileChecked_ok ha hb hok hrows _

end

theorem tldIssues : TldIssues := by
  intro o s c hr hfree hchain hload huse ha hb
  have hleaves {as : List Acc} := tld_leaves hfree hchain hload ha hb hr huse (as := as)
  refine ⟨fun as => hleaves, fun hs hown => ?_⟩
  have hplace := Ctx.placeTile_own .r hown.2 _ hown.1
  rw [← hs] at hplace
  have hdone := hleaves (congrArg Prod.snd hplace) (Ctx.rowsHeld_own hown.1)
  rw [hplace, (issued_of_ready hr).with_here, hs] at hdone
  exact hdone

theorem tstIssues : TstIssues := by
  intro o s c hr hfree hchain hload hbad ha hb held
  have hleaves {as : List Acc} := tst_leaves hfree hchain hload ha hb hr hbad (as := as)
  refine ⟨fun as => hleaves, fun hs hown => ?_⟩
  have g := issued_of_ready hr
  have hplace := Ctx.placeTile_own .w hown.2 _ hown.1
  rw [← hs] at hplace
  have hdone := hleaves (congrArg Prod.snd hplace) (Ctx.rowsHeld_own hown.1)
  rw [hplace, g.with_here, hs] at hdone
  simp only [g.st] at hdone
  exact hdone

/-! ## cst -/

/-- Clearing an accumulator writes zeros to its bytes, whatever check bits they carry (R245, R251, R388). -/
theorem State.clearAccum (s : State) (part : Nat) {pt n : Nat} (hpt : pt < 16) (hn : n < 4) :
    (s.setAccum (accumLoc part pt n) Accum.zero).mem = s.mem.write (accumLoc part pt n) (List.replicate accumSize 0)
      ∧ (s.setAccum (accumLoc part pt n) Accum.zero).warps = s.warps := by
  have hlen : (List.replicate accumSize (0 : Byte)).length = 4608 := List.length_replicate
  rw [State.setAccum, Accum.zero_bytes]
  exact State.store_writes (fun i hi => locReg_matrixLoc part hpt (by omega)) (.inl (by omega))

theorem Memory.get_write_zeros {m : Memory} (hwf : m.wf = true) (loc n y : Nat) :
    (m.write loc (List.replicate n 0)).get y = if loc ≤ y ∧ y < loc + n then 0 else m.get y := by
  rw [Memory.get_write _ _ _ _ hwf, List.length_replicate]
  by_cases hin : loc ≤ y ∧ y < loc + n
  · rw [if_pos hin, if_pos hin, List.getD_replicate _ (by omega)]
  · rw [if_neg hin, if_neg hin]

/-- A drain's checks are passed, and lead to its effect (R254). -/
theorem Ctx.drainChecked_ok {c : Ctx} {w : Word} {n : Nat} {sp : Space} {a : Nat} {pitch : Int} {u : State} {as : List Acc}
    (hrange : c.rangeOk sp (bounding a 32 (drainRow (w.toNat % 16)) pitch).1 (bounding a 32 (drainRow (w.toNat % 16)) pitch).2 = true)
    (hplace : c.placeDrain c.s sp (drainPieces sp a pitch (drainRow (w.toNat % 16))) = (u, .ok as))
    (hlocks : ∀ x ∈ as, u.lockMeets c.w.slot c.core (lockKey c.w c.p sp x.addr) 8 true = false)
    (hsums : w.getLsbD 16 = true → (u.accum (c.accumAt n)).failing = none) (hrows : c.rowsHeld as = false) :
    c.drainChecked w n sp a pitch = (c.with u).drain w n sp as := by
  have hfind : as.find? (fun x => u.lockMeets c.w.slot c.core (lockKey c.w c.p sp x.addr) 8 true) = none :=
    List.find?_eq_none.mpr fun x hx => Bool.eq_false_iff.mp (hlocks x hx)
  have hfailing : (if w.getLsbD 16 then (u.accum (c.accumAt n)).failing else none) = none := by
    split
    case isTrue h => exact hsums h
    case isFalse => rfl
  simp only [Ctx.drainChecked, hrange, hplace, hfind, hfailing, hrows, Bool.not_true, Bool.false_eq_true, if_false]

/-- The drain's operation with the accumulator's rows as data, and the flags of their conversion. -/
def Ctx.drainPush (e : Ctx) (sp : Space) (xs : List Acc) (f : Flags) : State := e.push .tiles .cst sp xs 0 none none fun x => accrue x f

/-- The drain's elements, converted as its drain word says, each with its flags. -/
def Ctx.drained (e : Ctx) (w : Word) (n : Nat) := (e.s.accum (e.accumAt n)).el.map (drainEl w)

/-- The accesses of a drain with its converted elements as data. -/
def Ctx.drainAccs (e : Ctx) (w : Word) (n : Nat) (as : List Acc) : List Acc :=
  as.map fun a => { a with
    data := leNat ((((pieces_ 32 32 ((e.drained w n).map (·.1))).flatMap (drainBytes (w.toNat % 16))).drop (8 * a.lane)).take 8) }

theorem Ctx.drainAccs_places (e : Ctx) (w : Word) (n : Nat) (as : List Acc) :
    (e.drainAccs w n as).map (fun a => { a with data := 0 }) = as.map (fun a => { a with data := 0 }) := by
  rw [Ctx.drainAccs, List.map_map]
  exact List.map_congr_left fun _ _ => rfl

/-- A drain pushes its accesses with data, clears its accumulator where the drain word asks for that, and occupies the engine (R254). -/
theorem Ctx.drain_eq (e : Ctx) (w : Word) (n : Nat) (sp : Space) (as : List Acc) : ∃ f,
    e.drain w n sp as = (if w.getLsbD 18 then (e.drainPush sp (e.drainAccs w n as) f).setAccum (e.accumAt n) Accum.zero
      else e.drainPush sp (e.drainAccs w n as) f).occupy e.engineAt [] :=
  ⟨(e.drained w n).foldl (fun f x => f ||| x.2) 0, by rw [Ctx.drain]; rfl⟩

/-- What a drain leaves: its operation outstanding, the accumulator cleared where asked for and only there, and the engine occupied. -/
theorem Ctx.drain_leaves {e : Ctx} (hw : tget e.s.warps e.wid = some e.w) (hslice : e.slice = false) (w : Word) {n : Nat} (hn : n < 4)
    (sp : Space) (as : List Acc) : ∃ v x, tget (e.drain w n sp as).warps e.wid = some v ∧ v.ops = e.w.ops ++ [x] ∧ x.kind = .cst
      ∧ x.ctr = .tiles ∧ x.accs.map (fun a => { a with data := 0 }) = as.map (fun a => { a with data := 0 }) ∧ v.pc = e.nextPc
      ∧ v.vregs = e.w.vregs ∧ v.sregs = e.w.sregs ∧ tget (e.drain w n sp as).engine (engineKey e.w.part e.pt) = some []
      ∧ (w.getLsbD 18 = false → ∀ y, (e.drain w n sp as).mem.get y = e.s.mem.get y)
      ∧ (w.getLsbD 18 = true → e.s.mem.wf = true → ∀ y, (e.drain w n sp as).mem.get y =
          if e.accumAt n ≤ y ∧ y < e.accumAt n + accumSize then 0 else e.s.mem.get y) := by
  obtain ⟨f, hdrain⟩ := e.drain_eq w n sp as
  have hxs := e.drainAccs_places w n as
  have hpt : e.pt < 16 := Nat.mod_lt _ (by decide)
  generalize e.drainAccs w n as = xs at hdrain hxs
  have hpush := e.push_tget hw .tiles .cst sp xs 0 none none fun x => accrue x f
  have hmem : (e.drainPush sp xs f).mem = e.s.mem := by
    rw [Ctx.drainPush, (e.push_only ..).rest]
  rw [hslice, popQueues_eq] at hpush
  rw [hdrain]
  refine ⟨_, e.op .tiles .cst sp xs 0 none none, Eq.trans ?warp hpush, rfl, rfl, rfl, hxs, rfl, rfl, rfl,
    State.occupy_engine .., fun hkeep y => ?keep, fun hclear hwf y => ?clear⟩
  case warp =>
    rw [State.occupy_warps]
    split
    case isTrue => exact congrArg (tget · e.wid) (State.clearAccum _ e.w.part hpt hn).2
    case isFalse => rfl
  case keep => rw [State.occupy_mem, hkeep, if_neg Bool.false_ne_true, hmem]
  case clear =>
    rw [State.occupy_mem, if_pos hclear, Ctx.accumAt, (State.clearAccum _ e.w.part hpt hn).1, hmem]
    exact Memory.get_write_zeros hwf ..

section
variable {cn : Fin 4} {sp : Space} {d a b : SOp} {k : Word} {s : State} {c : Ctx} (hr : ready (.cst cn sp d a b k) s = some c)
  (hengine : engineFree c) (hfree : c.s.counter c.wid c.w .tiles < 63) (hbad : c.s.bad = []) (hword : drainOk (c.sv d) = true)
  (ha : c.uaddr sp a % 8 = 0) (hb : (c.sv b).toNat % 8 = 0)
include hr hengine hfree hbad hword ha hb

/-- A drain that nothing holds up makes its checks behind those of its word and its alignment (R252, R253). -/
theorem exec_cst : exec (.cst cn sp d a b k) s = .next (c.drainChecked (c.sv d) cn.val sp (c.uaddr sp a) (c.sv b).toInt) := by
  obtain ⟨hidle, hchain⟩ := hengine
  have hbusy : c.engineBusy = false := by simp [Ctx.engineBusy, hidle, hchain]
  refine (issue_ready hr _).trans (congrArg _ ?_)
  simp only [hbusy, Ctx.full_eq_false hfree, Ctx.sound_nil hbad, hword, ha, hb, Bool.or_self, Bool.not_true, bne_self_eq_false,
    Bool.false_eq_true, if_false]

end

theorem cst_drains {cn : Fin 4} {sp : Space} {d a b : SOp} {k : Word} {s : State} {c : Ctx} {u : State} {as : List Acc}
    (g : Issued (.cst cn sp d a b k) s c)
    (hexec : exec (.cst cn sp d a b k) s = .next ((c.with u).drain (c.sv d) cn.val sp as)) (hu : u.aside = c.s.aside)
    (hdata : as.map (fun a => { a with data := 0 }) = as) : Drains (.cst cn sp d a b k) s c cn.val d u as := by
  obtain ⟨hwith, hw⟩ := g.with_aside hu
  rw [hwith] at hexec
  obtain ⟨v, x, hv, hops, hkind, hctr, haccs, hrest⟩ := Ctx.drain_leaves (e := { c with s := u }) hw (g.noSlice rfl) (c.sv d) cn.isLt sp as
  exact ⟨_, v, x, hexec, hv, hops, hkind, hctr, haccs.trans hdata, hrest⟩

theorem cstIssues : CstIssues := by
  intro cn sp d a b k s c hr hengine hfree hbad hword ha hb hrange
  have g := issued_of_ready hr
  have hexec := exec_cst hr hengine hfree hbad hword ha hb
  refine ⟨?placed, ?own⟩
  case placed =>
    intro as u hok hlocks hsums hrows
    have hplace : c.placeDrain c.s sp (drainOf c sp d a b) = (u, .ok as) := Prod.ext rfl hok
    rw [Ctx.drainChecked_ok hrange hplace hlocks hsums hrows] at hexec
    exact cst_drains g hexec (c.placeDrain_aside ..) (c.placeDrain_data _ _ _ _ hok)
  case own =>
    intro hs hown hsums
    subst hs
    have hplace := Ctx.placeDrain_own (drainOf c .s d a b) hown.1
    have hlocks (x : Acc) : c.s.lockMeets c.w.slot c.core (lockKey c.w c.p .s x.addr) 8 true = false := by
      simp [State.lockMeets, hown.2]
    rw [Ctx.drainChecked_ok hrange hplace (fun x _ => hlocks x) (g.st ▸ hsums) (Ctx.rowsHeld_own hown.1)] at hexec
    have hdrains := cst_drains g hexec rfl (List.map_map ..)
    rw [g.st] at hdrains
    exact hdrains

/-- Settles O18: each passes its checks and leaves its operation outstanding; in the part's own scratchpad the checks look nothing up. -/
theorem tileAccessesIssue : Obligations.TileAccessesIssue := ⟨tldIssues, tstIssues, cstIssues⟩

end Sys2Proof.Machine
end

section
/-! PROOF. O5. Branches that are taken as a whole, calls, counted loops, and instructions that only go on (R139, R207-R210, R213, R221). -/

namespace Sys2Proof.Machine

/-! ## Instructions that finish at an address -/

/-- An instruction whose effect is to finish at an address leads to the warp that it leaves. -/
theorem leadsFrom_finishAt {i : Instr} {s : State} {c : Ctx} {a : DWord} {f : Warp → Warp} {v : Warp} (hr : ready i s = some c)
    (hexec : exec i s = .next (c.finishAt a f)) (hv : setPc c.slice a (f (popQueues (namedQueues (opnds i).vs) c.w)) = v) :
    LeadsFrom i s c v :=
  ⟨_, hexec, hv ▸ Ctx.finishAt_warp (issued_of_ready hr) a f, c.finishAt_only a f⟩

/-- An instruction that reads no queue and only goes to an address. -/
theorem goesTo_finishAt {i : Instr} {s : State} {c : Ctx} {a : DWord} (hr : ready i s = some c)
    (h : exec i s = .next (c.finishAt a id) ∧ (opnds i).vs = []) : ∃ v, LeadsFrom i s c v ∧ WentTo c.slice a c.w v := by
  obtain ⟨hexec, hvs⟩ := h
  refine ⟨_, leadsFrom_finishAt hr hexec rfl, ?_⟩
  rw [hvs]
  exact setPc_went a (issued_of_ready hr).sliceThere

/-! ## Branches -/

/-- The lanes that `bq` leaves behind, as the masks give them (R213). -/
theorem leftLanes_eq (c : Ctx) (inv : Bool) (p : Fin 8) :
    c.w.path &&& c.w.laneok &&& ~~~(if inv then ~~~(predMask c.w p) else predMask c.w p) = leftLanes c inv p :=
  BitVec.eq_of_getLsbD_eq fun k hk => by
    rw [leftLanes, maskOf_get _ ⟨k, hk⟩, BitVec.getLsbD_and, BitVec.getLsbD_and, BitVec.getLsbD_not, negated_get c.w p inv ⟨k, hk⟩]
    cases inv <;> simp [hk]

section
variable {i : Instr} {s : State} {c : Ctx}

/-- A branch that is taken as a whole to a good address finishes there. -/
theorem exec_jump {a : DWord} (h : jumpTo i c = some a) (hr : ready i s = some c) (ha : a.toNat < 2 ^ 55)
    (h4 : ∀ x, i = .ret x → a.toNat % 4 = 0) : exec i s = .next (c.finishAt a id) ∧ (opnds i).vs = [] := by
  cases i with
  | bra off =>
    obtain rfl := Option.some.inj h
    exact ⟨(issue_ready hr _).trans (congrArg _ (Ctx.withTarget_inside ha _)), rfl⟩
  | bcc cc off a b k =>
    simp only [jumpTo, Option.ite_none_right_eq_some, Option.some.injEq] at h
    obtain ⟨htaken, rfl⟩ := h
    exact ⟨(issue_ready hr _).trans (congrArg _ ((if_pos htaken).trans (Ctx.withTarget_inside ha _))), rfl⟩
  | bq inv p off =>
    simp only [jumpTo, Option.ite_none_right_eq_some, Option.some.injEq] at h
    obtain ⟨⟨htaken, hleft⟩, rfl⟩ := h
    rw [← takenLanes_eq] at htaken
    rw [← leftLanes_eq] at hleft
    exact ⟨(issue_ready hr _).trans (congrArg _ ((if_neg htaken).trans ((Ctx.withTarget_inside ha _).trans (if_pos hleft)))), rfl⟩
  | ret x =>
    obtain rfl := Option.some.inj h
    have hgood : ¬ badTarget (c.sv64 x) = true := Bool.eq_false_iff.mp (badTarget_of_lt ha)
    have haligned : ¬ ((c.sv64 x).toNat % 4 != 0) = true := fun hne => bne_iff_ne.mp hne (h4 x rfl)
    exact ⟨(issue_ready hr _).trans (congrArg _ ((if_neg hgood).trans (if_neg haligned))), rfl⟩
  | _ => cases h

/-- An instruction with no effect but to go on finishes. -/
theorem exec_goesOn (h : goesOn i c) (hr : ready i s = some c) : exec i s = .next (c.finishAt c.nextPc id) ∧ (opnds i).vs = [] := by
  cases i with
  | nop => exact ⟨issue_ready hr _, rfl⟩
  | bcc cc off a b k => exact ⟨(issue_ready hr _).trans (congrArg _ (if_neg (Bool.eq_false_iff.mp h))), rfl⟩
  | bq inv p off =>
    have hnone : takenLanes c inv p = 0 := h
    rw [← takenLanes_eq] at hnone
    exact ⟨(issue_ready hr _).trans (congrArg _ (if_pos hnone)), rfl⟩
  | fence sc =>
    obtain ⟨hsc, hops⟩ := h
    have hquiet : c.quiet = true := by simp [Ctx.quiet, hops]
    exact ⟨(issue_ready hr _).trans (congrArg _ ((if_pos hsc).trans (if_pos hquiet))), rfl⟩
  | _ => exact h.elim

end

theorem branchesGoToTheirTargets : BranchesGoToTheirTargets :=
  fun _ _ _ _ h hr ha h4 => goesTo_finishAt hr (exec_jump h hr ha h4)

theorem plainInstructionsGoOn : PlainInstructionsGoOn := fun _ _ _ h hr => goesTo_finishAt hr (exec_goesOn h hr)

/-! ## Calls -/

/-- The lower half of a link, as `s60` holds it (R208). -/
theorem link_low (x : DWord) : x.extractLsb' 0 32 = x.setWidth 32 := by
  refine BitVec.eq_of_toNat_eq ?_
  simp only [BitVec.toNat_setWidth, BitVec.extractLsb'_toNat, Nat.shiftRight_zero]

/-- The upper 23 bits of a link, as `s61` holds them (R208). -/
theorem link_high (x : DWord) : (x.extractLsb' 32 23).setWidth 32 = (x >>> 32).setWidth 32 &&& 0x7FFFFF := by
  refine BitVec.eq_of_toNat_eq ?_
  have hmask : (0x7FFFFF : Word).toNat = 2 ^ 23 - 1 := rfl
  rw [BitVec.toNat_and, hmask, Nat.and_two_pow_sub_one_eq_mod]
  simp only [BitVec.toNat_setWidth, BitVec.extractLsb'_toNat, BitVec.toNat_ushiftRight]
  omega

theorem callLinks : CallLinks := by
  intro off s c hr ht
  have hslice : c.slice = false := (issued_of_ready hr).noSlice rfl
  refine leadsFrom_finishAt hr ((issue_ready hr _).trans (congrArg _ (Ctx.withTarget_inside ht _))) ?_
  have hpc : c.pc = c.w.pc := by rw [Ctx.pc, hslice]; rfl
  rw [hslice, hpc, link_high, setSreg_of_lt (by decide), setSreg_of_lt (by decide), link_low]
  rfl

/-! ## Loops -/

theorem firstWord_loop (n : Fin 16) (off : BitVec 20) : (firstWord (.loop n off)).toNat = 0x97000000 + n.val * 2 ^ 20 + off.toNat := by
  have hn := n.isLt
  have hoff := off.isLt
  show (BitVec.ofNat 32 (encB 0x97 n.val off)).toNat = _
  rw [BitVec.toNat_ofNat, encB, Nat.mod_eq_of_lt (by omega)]
  rfl

theorem loopCounts : LoopCounts := by
  intro n off s c hr
  have g := issued_of_ready hr
  refine ⟨firstWord_loop n off, fun ht => ?_⟩
  generalize hx : c.sv (.s ⟨n.val, by omega⟩) - 1 = x at ht ⊢
  have hexec : exec (.loop n off) s = .next (c.finishAt (if x = 0 then c.nextPc else targetOf c off) (setS c.slice (loopReg n) x)) := by
    refine (issue_ready hr _).trans (congrArg _ ?_)
    subst hx
    split
    case isTrue h0 => exact if_pos h0
    case isFalse h0 => exact (if_neg h0).trans (Ctx.withTarget_inside (ht h0) _)
  exact ⟨_, leadsFrom_finishAt hr hexec rfl, setS_written x _ SOp.noConfusion g.sliceThere⟩

/-- Settles O5, by the kinds of instruction: each finishes at the address that the rules give. -/
theorem controlTransfers : Obligations.ControlTransfers := ⟨branchesGoToTheirTargets, plainInstructionsGoOn, callLinks, loopCounts⟩

end Sys2Proof.Machine
end

section
/-! PROOF. O7. The divergence stack: `rcv`, a dividing `bq`, and `join` (R109, R211-R214). -/

namespace Sys2Proof.Machine

/-! ## rcv -/

/-- An entry is pushed where the stack has room for it (R211). -/
theorem Ctx.pushing_room {c : Ctx} (h : c.w.stack.length < 80) (e : DivEntry) (body : (Warp → Warp) → State) :
    c.pushing e body = body fun w => { w with stack := e :: w.stack } :=
  if_neg (Nat.not_le.mpr h)

theorem rcvPushes : RcvPushes := by
  intro off s c hr ht
  have hslice : c.slice = false := (issued_of_ready hr).noSlice rfl
  refine ⟨fun hroom => ?_, fun hfull hh => ?_⟩
  · refine leadsFrom_finish hr ((issue_ready hr _).trans (congrArg _ ((Ctx.withTarget_inside ht _).trans (Ctx.pushing_room hroom _ _)))) ?_
    rw [hslice]
    rfl
  · exact leadsFrom_raise hr hslice hh ((issue_ready hr _).trans (congrArg _ ((Ctx.withTarget_inside ht _).trans (if_pos hfull))))

/-! ## bq -/

/-- Which side of a division runs first (R213). -/
theorem takenFirst_iff (t n : Mask) (target next : DWord) : takenFirst t n target next = true ↔
    lanesIn n < lanesIn t ∨ (lanesIn n = lanesIn t ∧ target.toNat ≤ next.toNat) := by
  simp only [takenFirst, Bool.or_eq_true, Bool.and_eq_true, decide_eq_true_eq, beq_iff_eq]

/-- A dividing `bq` runs one side under a fresh name, and pushes the other (R110, R213). -/
theorem exec_bq_divides {inv : Bool} {p : Fin 8} {off : BitVec 20} {s : State} {c : Ctx} (hr : ready (.bq inv p off) s = some c)
    (ht : (targetOf c off).toNat < 2 ^ 55) (htaken : takenLanes c inv p ≠ 0) (hleft : leftLanes c inv p ≠ 0) (hst : c.w.stack ≠ [])
    (hroom : c.w.stack.length < 80) :
    let first := takenFirst (takenLanes c inv p) (leftLanes c inv p) (targetOf c off) c.nextPc
    let e := if first then DivEntry.path c.nextPc (leftLanes c inv p) c.w.paths
      else DivEntry.path (targetOf c off) (takenLanes c inv p) c.w.paths
    exec (.bq inv p off) s = .next (c.finishAt (if first then targetOf c off else c.nextPc) fun w =>
      startPath (if first then takenLanes c inv p else leftLanes c inv p) c.w.paths { w with stack := e :: w.stack }) := by
  have hstack : ¬ c.w.stack.isEmpty = true := by simpa using hst
  refine (issue_ready hr _).trans (congrArg _ ?_)
  simp only [takenLanes_eq, leftLanes_eq, htaken, hleft, hstack, Ctx.withTarget_inside ht, Ctx.pushing_room hroom, if_false,
    Bool.false_eq_true]

theorem bqDiverges : BqDiverges := by
  intro inv p off s c hr ht htaken hleft hst hroom
  have hslice : c.slice = false := (issued_of_ready hr).noSlice rfl
  have hexec := exec_bq_divides hr ht htaken hleft hst hroom
  have hfirst := takenFirst_iff (takenLanes c inv p) (leftLanes c inv p) (targetOf c off) c.nextPc
  refine ⟨fun h => ?_, fun h => ?_⟩
  · rw [← hfirst] at h
    simp only [h, if_true] at hexec
    refine leadsFrom_finishAt hr hexec ?_
    rw [hslice]
    rfl
  · rw [← hfirst] at h
    simp only [h, if_false, Bool.false_eq_true] at hexec
    refine leadsFrom_finishAt hr hexec ?_
    rw [hslice]
    rfl

/-! ## join -/

theorem joinReturns : JoinReturns := by
  intro s c hr
  have hslice : c.slice = false := (issued_of_ready hr).noSlice rfl
  have hexec : exec .join s = .next (c.closePath c.w.laneok id) := issue_ready hr _
  refine ⟨fun a m ns r hat => ?_, fun a m ns r hat hops => ?_, fun hat hh => ?_⟩
  · simp only [Ctx.closePath, hat] at hexec
    refine leadsFrom_finishAt hr hexec ?_
    rw [hslice]
    rfl
  · simp only [Ctx.closePath, hat, hops, List.any_nil, Bool.false_eq_true, if_false] at hexec
    refine leadsFrom_finishAt hr hexec ?_
    rw [hslice]
    rfl
  · simp only [Ctx.closePath, hat] at hexec
    exact leadsFrom_raise hr hslice hh hexec

/-- Settles O7: the three instructions finish, or raise their trap, as the stack stands. -/
theorem divergence : Obligations.Divergence := ⟨rcvPushes, bqDiverges, joinReturns⟩

end Sys2Proof.Machine
end

section
/-! PROOF. O10. Software traps, and traps without a handler (R238, R370-R372). -/

namespace Sys2Proof.Machine

/-- A trap that resumes behind its instruction and that the warp handles (R238, R371). -/
theorem Ctx.raiseNext_handled {c : Ctx} (hw : tget c.s.warps c.wid = some c.w) (hh : c.w.handles = true) (hst : c.w.stopped = false)
    (t : Trap) : OnlyWarp c.wid c.s (c.raiseNext t) ∧ tget (c.raiseNext t).warps c.wid = some (entered c.w t c.nextPc false) := by
  have hw1 : tget (c.s.coreEvent c.core 1).warps c.wid = some c.w := by rw [State.coreEvent_warps]; exact hw
  obtain ⟨hwarp, honly⟩ := State.deliver_handled hw1 hh hst t c.nextPc false false
  rw [enterHandler_eq_entered] at hwarp
  exact ⟨(State.coreEvent_only ..).trans honly, hwarp⟩

/-- The same where the warp does not handle it: the trap stops the warp, and its fault domain is abandoned (R372). -/
theorem Ctx.raiseNext_delivers {c : Ctx} (hw : tget c.s.warps c.wid = some c.w) (t : Trap) :
    c.raiseNext t = ((c.s.coreEvent c.core 1).trapAt c.wid t c.nextPc false false).abandonFor c.w := by
  have hw1 : tget (c.s.coreEvent c.core 1).warps c.wid = some c.w := by rw [State.coreEvent_warps]; exact hw
  simp only [Ctx.raiseNext, State.deliver, hw1]

/-- An instruction that raises a trap behind itself, in both forms. -/
theorem exec_raiseNext {i : Instr} {s : State} {c : Ctx} {t : Trap} (hr : ready i s = some c) (hexec : exec i s = .next (c.raiseNext t)) :
    ∃ u, exec i s = .next u
      ∧ (c.w.handles = true → OnlyWarp c.wid s u ∧ tget u.warps c.wid = some (entered c.w t c.nextPc false))
      ∧ (c.w.handles = false → u = ((s.coreEvent c.core 1).trapAt c.wid t c.nextPc false false).abandonFor c.w) := by
  have g := issued_of_ready hr
  have hst := g.st
  subst hst
  exact ⟨_, hexec, fun hh => Ctx.raiseNext_handled g.here hh g.notStopped t, fun _ => Ctx.raiseNext_delivers g.here t⟩

theorem trapInstructionsEnterTheHandler : TrapInstructionsEnterTheHandler :=
  fun _ _ => ⟨fun _ _ _ hr => exec_raiseNext hr (issue_ready hr _), fun hr => exec_raiseNext hr (issue_ready hr _)⟩

theorem unhandledTrapStopsTheWarp : UnhandledTrapStopsTheWarp := by
  intro s wid w t epc imp sl hw hh hst
  have hat : s.trapAt wid t epc imp sl = ((s.coreEvent (s.coreOf w) 4).faultRecord w t epc).modWarp wid fun x =>
      { x with stopped := true, wait := none } := by
    simp only [State.trapAt, hw, hst, hh, Bool.false_eq_true, if_false]
  have hwarps : ((s.coreEvent (s.coreOf w) 4).faultRecord w t epc).warps = s.warps := by simp [State.faultRecord]
  rw [hat]
  refine ⟨?_, fun j hj => ?_, ?_⟩
  · rw [State.modWarp_warps, hwarps]
    exact tget_tmod_of_some _ hw
  · rw [State.modWarp_warps, hwarps]
    exact tget_tmod_other _ _ _ _ hj
  · simp [State.faultRecord, State.journalAdd]

/-- Settles O10: `trap` and `brk` raise their trap behind themselves, and one without a handler stops its warp. -/
theorem trapsEnterTheHandler : Obligations.TrapsEnterTheHandler := ⟨trapInstructionsEnterTheHandler, unhandledTrapStopsTheWarp⟩

end Sys2Proof.Machine
end

section
/-! PROOF. O11. The return from a handler, and the delivery of a slice's fault (R239, R371, R374, R385). -/

namespace Sys2Proof.Machine

/-! ## eret -/

/-- A warp that runs a handler returns from it (R374). -/
theorem eret_leads {s : State} {c : Ctx} (hr : ready .eret s = some c) (hhnd : c.w.status.getLsbD 0 = true) :
    LeadsFrom .eret s c (leaveHandler c.w) := by
  have g := issued_of_ready hr
  refine ⟨_, (issue_ready hr _).trans (congrArg _ (if_pos hhnd)), ?_, (State.coreEvent_only ..).modWarp _⟩
  simp only [State.eretWarp, State.modWarp_warps, State.coreEvent_warps]
  exact tget_tmod_of_some _ g.here

theorem eretReturns : EretReturns := by
  refine ⟨rfl, fun s c hr => ⟨fun hh => ?_, fun hhnd => ⟨fun hsl => ?_, fun hsl hres => ?_, fun hsl hres => ?_⟩⟩⟩
  · have hout : ¬ c.w.hnd = true := by
      simp only [Warp.handles, Bool.and_eq_true, Bool.not_eq_true'] at hh
      simp [hh.1]
    have g := issued_of_ready hr
    refine leadsFrom_raise hr (g.noSlice rfl) hh ((issue_ready hr _).trans (congrArg _ ((if_neg hout).trans ?_)))
    rw [g.instr]
    rfl
  · have hback := eret_leads hr hhnd
    simpa only [leaveHandler, sliceAfter, Warp.trapSlice, hsl, statusOut, Bool.false_eq_true, if_false] using hback
  · have hback := eret_leads hr hhnd
    simpa only [leaveHandler, sliceAfter, Warp.trapSlice, Warp.sres, hsl, hres, statusOut, if_true] using hback
  · have hback := eret_leads hr hhnd
    simpa only [leaveHandler, sliceAfter, Warp.trapSlice, Warp.sres, hsl, hres, statusOut, if_true, Bool.false_eq_true, if_false]
      using hback

/-! ## The delivery of a slice's fault -/

/-- The turn of a warp at a boundary, whose slice has a fault, delivers it (R371, R385). -/
theorem step_sliceFault {s : State} {wid : Nat} {w : Warp} {y : Slice} {f : Trap} {r : List Turn} (hag : s.agenda = .issue wid :: r)
    (hw : tget s.warps wid = some w) (hacts : s.mayAct w = true) (hwait : w.wait = none) (hsl : w.slice = some y)
    (hf : y.fault = some f) :
    step s = .next (({ s with agenda := r, agent := .warp wid } : State).deliver wid f w.pc false true) := by
  have hturn : s.nextTurn = (.issue wid, { s with agenda := r }) := by rw [State.nextTurn, hag]
  have hmay : ({ s with agenda := r, agent := .warp wid } : State).mayAct w = true := hacts
  have hfault : sliceFault w = some f := by simp [sliceFault, hwait, hsl, hf]
  have hfetch : State.fetch { s with agenda := r, agent := .warp wid } wid false
      = .stop (({ s with agenda := r, agent := .warp wid } : State).deliver wid f w.pc false true) := by
    simp only [State.fetch, hw, hmay, hfault, Bool.not_true, Bool.false_eq_true, if_false]
  simp only [step, hturn, hfetch, runFetched]

/-- cr.status in the handler of a slice's fault (R371). -/
theorem statusIn_slice (old : BitVec 5) : statusIn old false true = (old &&& 0x10) ||| 0x0D := by
  simp only [statusIn, BitVec.or_assoc]
  rfl

theorem sliceFaultIsDelivered : SliceFaultIsDelivered := by
  intro s wid w y f r hag hw hacts hwait hsl hf hh
  have hst : w.stopped = false := by
    simp only [State.mayAct, Bool.and_eq_true, Bool.not_eq_true'] at hacts
    exact hacts.2
  obtain ⟨hwarp, honly⟩ := State.deliver_handled (s := { s with agenda := r, agent := .warp wid }) hw hh hst f w.pc false true
  refine ⟨_, _, step_sliceFault hag hw hacts hwait hsl hf, hwarp, rfl, rfl, rfl, statusIn_slice _, ?_, rfl, rfl, honly.bytes⟩
  simp only [enterHandler, sliceTaken, hsl, if_true, Option.map_some]

/-- Settles O11: `eret` leaves the handler, and a slice's fault enters it at the boundary of the warp's own stream. -/
theorem handlersReturn : Obligations.HandlersReturn := ⟨eretReturns, sliceFaultIsDelivered⟩

end Sys2Proof.Machine
end

section
/-! SUPPORT. Instructions of a warp's own stream that write one uniform register and go on, and releases that have nothing to wait for
(R43, R111). -/

namespace Sys2Proof.Machine

/-! ## What an instruction of one warp keeps of the module -/

section
variable {wid : Nat} {s t : State} (h : OnlyWarp wid s t)
include h

theorem OnlyWarp.mem : t.mem = s.mem := by have e := congrArg State.mem h.rest; exact e
theorem OnlyWarp.insts : t.insts = s.insts := by have e := congrArg State.insts h.rest; exact e
theorem OnlyWarp.groups : t.groups = s.groups := by have e := congrArg State.groups h.rest; exact e
theorem OnlyWarp.nextId : t.nextId = s.nextId := by have e := congrArg State.nextId h.rest; exact e

end

/-! ## A uniform register written -/

/-- Uniform register `d` of a warp's own stream written (R43). -/
theorem setS_register (d : Fin 63) (x : Word) (w : Warp) :
    setS false (.s d) x w = { w with sregs := w.sregs.set d x, badSregs := w.badSregs.filter (· != d.val) } := by
  simp only [setS, setSreg, d.isLt, dif_pos, Bool.false_eq_true, if_false]

/-- A warp that stands in the state of its context, executes in its own stream, and reads no queue. -/
structure Plain (e : Ctx) : Prop where
  here : tget e.s.warps e.wid = some e.w
  slice : e.slice = false
  queues : (opnds e.i).vs = []

theorem Issued.plain {i : Instr} {s : State} {c : Ctx} (g : Issued i s c) (hslice : sliceMay i = false) (hvs : (opnds i).vs = []) :
    Plain c :=
  ⟨g.here, g.noSlice hslice, g.instr ▸ hvs⟩

/-- The same stream in a state that holds the same warp. -/
theorem Plain.with {e : Ctx} (h : Plain e) {s1 : State} (hw : tget s1.warps e.wid = some e.w) : Plain (e.with s1) ∧ (e.with s1).w = e.w := by
  have hw' := Ctx.with_w hw
  refine ⟨⟨?_, ?_, ?_⟩, hw'⟩
  · rw [e.with_s, e.with_wid, hw', hw]
  · rw [e.with_slice, h.slice]
  · rw [e.with_i, h.queues]

section
variable {e : Ctx} (h : Plain e)
include h

theorem Plain.pc : e.pc = e.w.pc := by rw [Ctx.pc, h.slice]; rfl

/-- The warp that finishing with `f` leaves. -/
theorem Plain.finish (f : Warp → Warp) : tget (e.finish f).warps e.wid = some (setPc false e.nextPc (f e.w)) := by
  have hwarp := e.finishAt_tget h.here e.nextPc f
  rwa [h.slice, h.queues] at hwarp

theorem Plain.finish_wrote (d : Fin 63) (x : Word) : tget (e.finish (setS false (.s d) x)).warps e.wid = some (wrote e d x) := by
  rw [h.finish, setS_register]
  rfl

theorem Plain.leads {i : Instr} {s : State} {d : Fin 63} {x : Word} (hexec : exec i s = .next (e.finish (setS false (.s d) x))) :
    LeadsFrom i s e (wrote e d x) :=
  ⟨_, hexec, h.finish_wrote d x, e.finish_only _⟩

theorem Plain.leads_passed {i : Instr} {s : State} (hexec : exec i s = .next (e.finish id)) : LeadsFrom i s e (passed e) :=
  ⟨_, hexec, h.finish id, e.finish_only _⟩

theorem Plain.acquires {i : Instr} {s : State} {d : Fin 63} {x : Word} (hexec : exec i s = .next (e.finishAcq (setS false (.s d) x))) :
    LeadsAcquiring i s e (wrote e d x) :=
  ⟨_, hexec, h.finish_wrote d x, e.finish_only _⟩

theorem Plain.acquires_passed {i : Instr} {s : State} (hexec : exec i s = .next (e.finishAcq id)) : LeadsAcquiring i s e (passed e) :=
  ⟨_, hexec, h.finish id, e.finish_only _⟩

theorem Plain.waits {i : Instr} {s : State} {k : WaitKind} (hi : e.i = i) (hexec : exec i s = .next (e.wait k)) : Waits i s e k :=
  ⟨_, hexec, hi ▸ e.wait_tget h.here k, e.wait_only k⟩

end

/-- In a state that keeps its warp, a stream leaves its warp as it would in its own. -/
theorem Ctx.wrote_with {c : Ctx} {s1 : State} (hw : tget s1.warps c.wid = some c.w) (d : Fin 63) (x : Word) :
    wrote (c.with s1) d x = wrote c d x := by
  unfold wrote Ctx.nextPc Ctx.pc
  rw [Ctx.with_w hw, c.with_i, c.with_slice]

/-! ## Traps behind a look-up -/

/-- A trap that the warp handles, raised in another state that keeps the warp: it enters the handler, and nothing else changes (R371). -/
theorem Issued.leads_raise {i : Instr} {s s1 : State} {c : Ctx} {code : BitVec 8} {value : DWord} (g : Issued i s c)
    (hslice : sliceMay i = false) (hw : tget s1.warps c.wid = some c.w) (hh : c.w.handles = true)
    (hexec : exec i s = .next ((c.with s1).raise code value)) :
    LeadsFrom i s (c.with s1) (entered c.w { code := code, value := value } c.w.pc false) := by
  have hw' := Ctx.with_w hw
  have hraise := Ctx.raise_handled (e := c.with s1) (by rw [c.with_s, c.with_wid, hw', hw]) (by rw [c.with_slice, g.noSlice hslice])
    (by rw [hw']; exact hh) (by rw [hw']; exact g.notStopped) code value
  rw [hw'] at hraise
  exact ⟨_, hexec, hraise⟩

/-! ## Releases with nothing to wait for -/

/-- No error is due at an instruction of a warp's own stream that passes its checks (R368). -/
theorem Issued.notDue {i : Instr} {s : State} {c : Ctx} (g : Issued i s c) (hslice : c.slice = false) : dueError c.w c.i = none := by
  have hpasses := g.ok
  simp only [passes, hslice, Bool.and_eq_true, Bool.false_or, Option.isNone_iff_eq_none] at hpasses
  rw [g.instr]
  exact hpasses.1.1.1.1.2

/-- A release writes nothing back where no line of the warp is dirty (R111, R125). -/
theorem State.releaseLines_clean (s : State) (pid wid : Nat) {ls : List L1Line} (h : ∀ l ∈ ls, l.owner = some wid → l.dirty = false) :
    s.releaseLines pid wid ls = (s, .done) := by
  induction ls with
  | nil => rfl
  | cons l r ih =>
    have hclean : ¬ (l.owner == some wid && l.dirty) = true := by
      intro hd
      rw [Bool.and_eq_true, beq_iff_eq] at hd
      exact Bool.eq_false_iff.mp (h l (List.mem_cons_self ..) hd.1) hd.2
    rw [State.releaseLines, if_neg hclean]
    exact ih fun x hx => h x (List.mem_cons_of_mem _ hx)

/-- A warp at rest releases at once, in the state in which it stands. -/
theorem AtRest.releases {c : Ctx} (h : AtRest c) (hhere : c.with c.s = c) (hdue : dueError c.w c.i = none) : released c = some c := by
  have hquiet : c.quiet = true := by simp [Ctx.quiet, h.ops]
  have hback : c.s.backStalled c.wid = false := by simp [State.backStalled, h.still]
  unfold released
  simp only [hquiet, hback, State.releaseLines_clean c.s c.w.part c.wid h.lines, hhere, hdue, Bool.not_true, Bool.or_self,
    Bool.false_eq_true, if_false, Option.isNone_none, if_true]

theorem quiet_of_ops {c : Ctx} (h : c.w.ops = []) : c.quiet = true := by simp [Ctx.quiet, h]

end Sys2Proof.Machine
end

section
/-! PROOF. O23. Phase-bit barriers (R92, R111, R218-R220). -/

namespace Sys2Proof.Machine

/-! ## The word -/

/-- The fields of a barrier word, by its upper 20 bits and its pending count (R218). -/
theorem pbFields (m : Nat) {r : Nat} (hr : r < 4096) :
    pbExpected (4096 * m + r) = m % 4096 ∧ pbPending (4096 * m + r) = r ∧ pbPhase (4096 * m + r) = decide (m / 2 ^ 19 % 2 = 1) := by
  have hdiv : (4096 * m + r) / 4096 = m := by omega
  have hphase : (4096 * m + r) / 2 ^ 31 = m / 2 ^ 19 := by omega
  refine ⟨by rw [pbExpected, hdiv], by unfold pbPending; omega, ?_⟩
  rw [pbPhase, hphase]
  rfl

/-- The word after the last arrival: the expected count stands as pending, and the phase bit is turned over (R219). -/
theorem pbArrive_last {m r : Nat} (hr : r < 4096) :
    pbArrive (4096 * m + r) r = 4096 * (if m / 2 ^ 19 % 2 = 1 then m - 2 ^ 19 else m + 2 ^ 19) + m % 4096 := by
  obtain ⟨hexpected, hpending, hphase⟩ := pbFields m hr
  simp only [pbArrive, hexpected, hpending, hphase, Nat.sub_self, if_true, decide_eq_true_eq]
  split <;> omega

/-- The word after an arrival that is not the last: only the pending count is lower (R219). -/
theorem pbArrive_earlier {m r n : Nat} (hr : r < 4096) (hn : n < r) : pbArrive (4096 * m + r) n = 4096 * m + (r - n) := by
  obtain ⟨-, hpending, -⟩ := pbFields m hr
  simp only [pbArrive, hpending, if_neg (Nat.sub_ne_zero_of_lt hn)]
  omega

/-- R218, R219: what arrivals leave in the fields of a barrier word. -/
theorem phaseBarrierCounts : PhaseBarrierCounts := by
  intro x n hx hn
  obtain ⟨m, r, hr, rfl⟩ : ∃ m r, r < 4096 ∧ x = 4096 * m + r := ⟨x / 4096, x % 4096, by omega, by omega⟩
  obtain ⟨hexpected, hpending, hphase⟩ := pbFields m hr
  rw [hpending] at hn
  by_cases hlast : n = r
  · subst hlast
    obtain ⟨hexpected', hpending', hphase'⟩ := pbFields (if m / 2 ^ 19 % 2 = 1 then m - 2 ^ 19 else m + 2 ^ 19)
      (Nat.mod_lt m (show 4096 > 0 by decide))
    rw [pbArrive_last hr, hexpected', hpending', hphase', hexpected, hpending, hphase]
    by_cases hset : m / 2 ^ 19 % 2 = 1
    · simp only [hset, if_true, decide_true, Bool.not_true, decide_eq_false_iff_not]
      exact ⟨by omega, trivial, by omega⟩
    · simp only [hset, if_true, if_false, decide_false, Bool.not_false, decide_eq_true_eq]
      exact ⟨by omega, trivial, by omega⟩
  · obtain ⟨hexpected', hpending', hphase'⟩ := pbFields m (show r - n < 4096 by omega)
    rw [pbArrive_earlier hr (by omega), hexpected', hpending', hphase', hexpected, hpending, hphase, if_neg hlast, if_neg hlast]
    exact ⟨rfl, rfl, rfl⟩

/-! ## The place of the word -/

/-- The place of a barrier word: it lies in a scratchpad, and its core serves it (R92, R219). -/
theorem PbWord.place {c : Ctx} {cl : Bool} {a loc : Nat} (h : PbWord c cl a loc) :
    ∃ p, c.pbPlace cl a = some p ∧ p.loc = loc ∧ (p.isClu && !c.s.coreUp p.module) = false := by
  rcases h with ⟨rfl, hin, hlow, rfl⟩ | ⟨rfl, hnum, hin, rfl⟩ | ⟨rfl, hnum, id, q, hpart, hin, hup, rfl⟩
  · have ha : a < 0x100000 := by omega
    exact ⟨onchipPlace (scratchLoc c.w.part a), by simp [Ctx.pbPlace, State.onchipOf, ha, hin], rfl, rfl⟩
  · exact ⟨onchipPlace (scratchLoc c.w.part (a % 2 ^ 20)), by simp only [Ctx.pbPlace, State.onchipOf, hnum, hin, if_true], rfl, rfl⟩
  · refine ⟨{ onchipPlace (scratchLoc id (a % 2 ^ 20)) with pa := 1, module := q.core }, ?_, rfl, ?_⟩
    · simp only [Ctx.pbPlace, State.onchipOf, hnum, hpart, hin, if_true, if_false]
    · simp [hup]

theorem PbWord.locReg {c : Ctx} {cl : Bool} {a loc : Nat} (h : PbWord c cl a loc) (h4 : a % 4 = 0) {i : Nat} (hi : i < 4) :
    locReg (loc + i) = none := by
  rcases h with ⟨-, -, hlow, rfl⟩ | ⟨-, -, -, rfl⟩ | ⟨-, -, id, -, -, -, -, rfl⟩
  · exact locReg_scratchLoc _ hlow hi
  · exact locReg_scratchLoc _ (by omega) hi
  · exact locReg_scratchLoc _ (by omega) hi

/-- A good word that no copy locks passes the checks (R219, R388). -/
theorem Ctx.pbChecked_passes {c : Ctx} {cl write : Bool} {a : Word} {p : Place} (h4 : a.toNat % 4 = 0)
    (hp : c.pbPlace cl a.toNat = some p)
    (hlock : c.s.lockMeets c.w.slot c.core (lockKey c.w c.p (if cl then .c else .s) a.toNat) 4 write = false)
    (hbad : c.s.bad = []) (body : Place → State) : c.pbChecked cl write a body = body p := by
  have haligned : (a.toNat % 4 != 0) = false := by simp [h4]
  simp only [Ctx.pbChecked, haligned, hp, hlock, State.badIn_nil hbad, Bool.false_and, Bool.false_eq_true, if_false]

/-! ## pbarr -/

theorem pbarrArrives : PbarrArrives := by
  intro cl o s c d loc hr hd hrest h4 hword hlock hbad hwf x n hexpected hn hpending
  have g := issued_of_ready hr
  have hplain := g.plain rfl rfl
  obtain ⟨p, hp, hploc, hup⟩ := hword.place
  have hst := g.st
  subst hst
  have hrel := hrest.releases g.with_here (g.notDue hplain.slice)
  have hcount : ¬ (pbExpected x = 0 || n = 0 || decide (pbPending x < n)) = true := by
    simp [hexpected, hn, hpending]
  have hexec : exec (.pbarr cl o) c.s
      = .next ((c.finish (setS false (.s d) (BitVec.ofNat 32 x))).store loc (leBytes 4 (pbArrive x n))) := by
    refine (issue_ready hr _).trans (congrArg _ ?_)
    simp only [quiet_of_ops hrest.ops, Ctx.pbChecked_passes h4 hp hlock hbad, hup, hploc, Ctx.release_of_released hrel, hd,
      Bool.not_true, Bool.false_eq_true, if_false]
    exact if_neg hcount
  have hlen : (leBytes 4 (pbArrive x n)).length = 4 := leBytes_length ..
  obtain ⟨hmem, hwarps⟩ := State.store_writes (s := c.finish (setS false (.s d) (BitVec.ofNat 32 x))) (loc := loc)
    (bs := leBytes 4 (pbArrive x n)) (fun i hi => hword.locReg h4 (hlen ▸ hi)) (.inl hlen.ge)
  refine ⟨_, hexec, ?_, wroteBytes_of_write hwf ?_⟩
  · rw [hwarps]
    exact hplain.finish_wrote d _
  · rw [hmem, (c.finish_only (setS false (.s d) (BitVec.ofNat 32 x))).mem]

/-! ## pbwait -/

theorem pbwaitWaitsForThePhase : PbwaitWaitsForThePhase := by
  intro cl a b k s c loc hr h4 hword hlock hbad hreads bit
  have g := issued_of_ready hr
  have hplain := g.plain rfl rfl
  obtain ⟨p, hp, hploc, hup⟩ := hword.place
  have hst := g.st
  subst hst
  have hexec : exec (.pbwait cl a b k) c.s = .next (if pbPhase (c.s.load loc 4) != bit then c.finishAcq id
      else c.wait (.pbwait loc (if cl then .c else .s) ((c.sv a).setWidth 64) bit)) := by
    refine (issue_ready hr _).trans (congrArg _ ?_)
    simp only [Ctx.pbChecked_passes h4 hp hlock hbad, hup, hploc, hreads, Bool.not_false, Bool.true_and, Bool.false_eq_true, if_false]
    rfl
  refine ⟨fun hne => ?_, fun heq => ?_⟩
  · rw [if_pos (bne_iff_ne.mpr hne)] at hexec
    exact hplain.acquires_passed hexec
  · rw [if_neg (by simp [heq])] at hexec
    exact hplain.waits g.instr hexec

/-- Settles O23: the arithmetic of the word, the arrival, and the wait. -/
theorem phaseBarriers : Obligations.PhaseBarriers := ⟨phaseBarrierCounts, pbarrArrives, pbwaitWaitsForThePhase⟩

end Sys2Proof.Machine
end

section
/-! PROOF. O25. `waitw` goes on, waits, or goes on unparked (R222, R223). -/

namespace Sys2Proof.Machine

/-- Counting an event of a die changes no warp and no byte. -/
theorem State.dieEvent_keeps (s : State) (d e : Nat) : (s.dieEvent d e).warps = s.warps ∧ (s.dieEvent d e).mem = s.mem := ⟨rfl, rfl⟩

/-- A `waitw` whose word may be read reads it, and goes by what it holds. -/
theorem exec_waitw_reads {d : Fin 63} {a b : SOp} {cc : Cond} {s s1 : State} {c : Ctx} {p : Place}
    (hr : ready (.waitw (.s d) a b cc) s = some c) (h8 : (c.sv64 a).toNat % 8 = 0)
    (htrans : c.s.translate c.w.slot c.core c.die .r (c.sv64 a) = (s1, .ok p))
    (hlock : s1.lockMeets c.w.slot c.core (c.sv64 a).toNat 8 false = false) (hreads : c.readWaits p.loc 8 = false) :
    exec (.waitw (.s d) a b cc) s = .next ((c.with s1).watch d (c.sv64 a) p cc (c.sv64 b)) := by
  have haligned : ((c.sv64 a).toNat % 8 != 0) = false := by simp [h8]
  refine (issue_ready hr _).trans (congrArg _ ?_)
  simp only [destS, haligned, htrans, hlock, hreads, Bool.false_eq_true, if_false]

/-- Settles O25: the address is checked, the word read, and the wait table asked. -/
theorem waitwWatches : Obligations.WaitwWatches := by
  intro d a b cc s c hr
  have g := issued_of_ready hr
  refine ⟨fun h8 hh => ?_, fun s1 s2 p hit h8 htrans hlock hreads hread => ?_⟩
  · exact leadsFrom_raise hr (g.noSlice rfl) hh ((issue_ready hr _).trans (congrArg _ (if_pos (bne_iff_ne.mpr h8))))
  · have haside1 : s1.aside = c.s.aside := by
      simpa only [htrans] using c.s.translate_aside c.w.slot c.core c.die .r (c.sv64 a) 1
    have haside2 : s2.aside = c.s.aside := by
      have := s1.readWatched_aside p cc (c.sv64 b)
      rw [hread] at this
      exact this.trans haside1
    obtain ⟨hat1, -⟩ := g.with_aside haside1
    obtain ⟨hat2, hw2⟩ := g.with_aside haside2
    have hplain2 := ((g.plain rfl rfl).with hw2).1
    have hexec : exec (.waitw (.s d) a b cc) s = .next (if hit then (c.with s2).finishAcq (setS false (.s d) 0)
        else if 256 ≤ s2.waitEntries c.die then (c.with (s2.dieEvent c.die 3)).finish (setS false (.s d) 1)
        else (c.with s2).wait (.waitw d (c.sv64 a) (c.sv64 b) cc)) := by
      rw [exec_waitw_reads hr h8 htrans hlock hreads]
      simp only [hat1, Ctx.watch, hread]
      cases hit <;> rfl
    refine ⟨?_, ?_, ?_⟩
    · rintro rfl
      rw [← Ctx.wrote_with hw2 d 0]
      exact hplain2.acquires hexec
    · rintro rfl hroom
      rw [if_neg Bool.false_ne_true, if_neg (Nat.not_le.mpr hroom)] at hexec
      exact hplain2.waits ((c.with_i s2).trans g.instr) hexec
    · rintro rfl hfull
      rw [if_neg Bool.false_ne_true, if_pos hfull] at hexec
      obtain ⟨hwarps, hmem⟩ := s2.dieEvent_keeps c.die 3
      have hw3 : tget (s2.dieEvent c.die 3).warps c.wid = some c.w := hwarps ▸ hw2
      refine ⟨_, hexec, ?_, ?_⟩
      · rw [← Ctx.wrote_with hw3 d 1, ← c.with_wid (s2.dieEvent c.die 3)]
        exact ((g.plain rfl rfl).with hw3).1.finish_wrote d 1
      · rw [((c.with (s2.dieEvent c.die 3)).finish_only (setS false (.s d) 1)).mem, c.with_s, hmem]

end Sys2Proof.Machine
end

section
/-! PROOF. O30. Signals to array programs, and their status (R235, R236). -/

namespace Sys2Proof.Machine

/-- An abort reaches an array program that has not ended (R235). -/
theorem abortInst_of (p : Bool) (i : Inst) :
    (if p then abortInst i else i) = if p ∧ i.state ≠ .ended then { i with aborted := true } else i := by
  unfold abortInst
  by_cases hended : i.state = .ended <;> simp [hended]

theorem arraySignalsAndStatus : ArraySignalsAndStatus := by
  intro s c
  refine ⟨fun a b k hr => ?_, fun a k hr => ?_, fun d a b k hr => ?_⟩
  all_goals
    have g := issued_of_ready hr
    have hplain := g.plain rfl rfl
    have hst := g.st
    subst hst
  · have hinsts := (c.finish_only id).insts
    refine ⟨c.finish id, (issue_ready hr _).trans ?_, hplain.finish id, c.finish_only id⟩
    simp only [hinsts]
  · have hinsts := (c.finish_only id).insts
    refine ⟨c.finish id, (issue_ready hr _).trans ?_, hplain.finish id, c.finish_only id⟩
    simp only [hinsts, abortInst_of]
  · exact hplain.leads (issue_ready hr _)

/-! ## The word of `dstat` -/

/-- The word of an array program that has ended (R236). -/
theorem statWord_ended {i : Inst} (h : i.state = .ended) : i.statWord =
    BitVec.ofNat 32 (2 + (if i.aborted then 4 else 0) + (if i.faulted then 8 + i.cause.toNat * 256 else 0)) := by
  rw [Inst.statWord, h]

/-- The fields of the word of an ended array program, for any flags `a` and `f` and cause (R236). -/
theorem statWord_fields (a f : Bool) (cause : BitVec 8) :
    let x : Word := BitVec.ofNat 32 (2 + (if a then 4 else 0) + (if f then 8 + cause.toNat * 256 else 0))
    x &&& 3 = 2 ∧ x.getLsbD 2 = a ∧ x.getLsbD 3 = f ∧ (f = true → x.extractLsb' 8 8 = cause) := by
  intro x
  have hc := cause.isLt
  have hx : x.toNat = 2 + (if a then 4 else 0) + (if f then 8 + cause.toNat * 256 else 0) := by
    rw [BitVec.toNat_ofNat]
    refine Nat.mod_eq_of_lt ?_
    split <;> split <;> omega
  have hbit (k : Nat) : x.getLsbD k = decide (x.toNat / 2 ^ k % 2 = 1) := Nat.testBit_eq_decide_div_mod_eq
  have hlow : (3 : Word).toNat = 2 ^ 2 - 1 := rfl
  refine ⟨BitVec.eq_of_toNat_eq ?_, ?_, ?_, fun hf => BitVec.eq_of_toNat_eq ?_⟩
  · rw [BitVec.toNat_and, hlow, Nat.and_two_pow_sub_one_eq_mod, hx]
    show _ = 2
    split <;> split <;> omega
  · rw [hbit, hx]
    cases a <;> cases f <;> simp <;> omega
  · rw [hbit, hx]
    cases a <;> cases f <;> simp <;> omega
  · rw [BitVec.extractLsb'_toNat, hx, Nat.shiftRight_eq_div_pow, if_pos hf]
    split <;> omega

theorem statusWordOfAnInstance : StatusWordOfAnInstance := by
  intro i
  refine ⟨fun h => by rw [Inst.statWord, h], fun h => by rw [Inst.statWord, h], fun h => ?_⟩
  rw [statWord_ended h]
  exact statWord_fields i.aborted i.faulted i.cause

/-- Settles O30: each goes on, and its instances are those of the handle. -/
theorem arrayControl : Obligations.ArrayControl := ⟨arraySignalsAndStatus, statusWordOfAnInstance⟩

end Sys2Proof.Machine
end

section
/-! PROOF. O29. Launches of array programs (R234, R286, R382). -/

namespace Sys2Proof.Machine

/-! ## The rights of the two addresses -/

section
variable (c : Ctx) (need : Need) (va : DWord)

/-- An address that translates, or that leads to lost data, passes (R234, R382). -/
theorem Ctx.launchRight_allowed (h : ∀ k, (c.s.translate c.w.slot c.core c.die need va).2 = .error k → k = 0x0B) :
    c.launchRight need va = ((c.s.translate c.w.slot c.core c.die need va).1, none) := by
  unfold Ctx.launchRight
  generalize c.s.translate c.w.slot c.core c.die need va = r at h ⊢
  obtain ⟨s1, _ | p⟩ := r
  case error k => simp only [h k rfl, if_true]
  case ok => rfl

/-- A right that is lacking is reported. -/
theorem Ctx.launchRight_lacks {k : BitVec 8} (h : (c.s.translate c.w.slot c.core c.die need va).2 = .error k) (hk : k ≠ 0x0B) :
    c.launchRight need va = ((c.s.translate c.w.slot c.core c.die need va).1, some k) := by
  unfold Ctx.launchRight
  generalize c.s.translate c.w.slot c.core c.die need va = r at h ⊢
  obtain ⟨s1, _ | p⟩ := r
  case error x =>
    obtain rfl : x = k := Except.error.inj h
    simp only [if_neg hk]
  case ok => cases h

end

/-! ## The checks, in their order -/

section
variable {c : Ctx} {d : SOp} {image barrier param : DWord} {mask arg : Word} {s1 s2 : State}

/-- A misaligned image address. -/
theorem Ctx.launchChecked_image (h : image.toNat % 64 ≠ 0) : c.launchChecked d image barrier param mask arg = c.raise 0x03 image :=
  if_pos (bne_iff_ne.mpr h)

theorem aligned_bne {a n : Nat} (h : a % n = 0) : ¬ (a % n != 0) = true := by simp [h]

/-- A misaligned barrier address. -/
theorem Ctx.launchChecked_barrier (h64 : image.toNat % 64 = 0) (h : barrier.toNat % 8 ≠ 0) :
    c.launchChecked d image barrier param mask arg = c.raise 0x03 barrier :=
  (if_neg (aligned_bne h64)).trans (if_pos (bne_iff_ne.mpr h))

variable (h64 : image.toNat % 64 = 0) (h8 : barrier.toNat % 8 = 0)
include h64 h8

/-- A right of the image that is lacking. -/
theorem Ctx.launchChecked_imageRight {x : BitVec 8} (h : c.launchRight .r image = (s1, some x)) :
    c.launchChecked d image barrier param mask arg = (c.with s1).raise x image := by
  simp only [Ctx.launchChecked, if_neg (aligned_bne h64), if_neg (aligned_bne h8), h]

/-- A right of the barrier that is lacking. -/
theorem Ctx.launchChecked_barrierRight {x : BitVec 8} (h : c.launchRight .r image = (s1, none))
    (hb : (c.with s1).launchRight .rw barrier = (s2, some x)) :
    c.launchChecked d image barrier param mask arg = (c.with s2).raise x barrier := by
  simp only [Ctx.launchChecked, if_neg (aligned_bne h64), if_neg (aligned_bne h8), h, hb]

/-- Where both rights are there, the launch waits for its release alone. -/
theorem Ctx.launchChecked_passes (h : c.launchRight .r image = (s1, none)) (hb : (c.with s1).launchRight .rw barrier = (s2, none)) :
    c.launchChecked d image barrier param mask arg = (c.with s2).release fun e => e.launchArray d image barrier param mask arg := by
  simp only [Ctx.launchChecked, if_neg (aligned_bne h64), if_neg (aligned_bne h8), h, hb]

end

/-! ## The instances of a launch -/

/-- A member of a table is mapped with it. -/
theorem mem_tmap {α : Type} {t : Tab α} {x : Nat × α} (f : α → α) (h : x ∈ t) : (x.1, f x.2) ∈ tmap t f :=
  List.mem_map_of_mem h

/-- An abort changes nothing but its mark. -/
theorem abortInst_mark (p : Bool) (i : Inst) : ∃ b, (if p then abortInst i else i) = { i with aborted := b } := by
  unfold abortInst
  split
  · split
    · exact ⟨i.aborted, rfl⟩
    · exact ⟨true, rfl⟩
  · exact ⟨i.aborted, rfl⟩

/-- A drain leaves an array program where it stands, perhaps aborted (R416). -/
theorem State.abortQueued_mem (s : State) (nid : Nat) {x : Nat × Inst} (hx : x ∈ s.insts) :
    ∃ b, (x.1, { x.2 with aborted := b }) ∈ (s.abortQueued nid).insts := by
  unfold State.abortQueued
  simp only
  split
  · obtain ⟨b, hb⟩ := abortInst_mark (x.2.node == nid && x.2.state == .queued) x.2
    exact ⟨b, hb ▸ mem_tmap (fun i : Inst => if i.node == nid && i.state == .queued then abortInst i else i) hx⟩
  · exact ⟨x.2.aborted, hx⟩

/-- An array program that is queued on stack `k` of a mask stands among the instances (R234). -/
theorem State.queueInsts_mem (s : State) (mask : Word) (mk : Nat → Inst) {k : Nat} (hk : k < 32) (hmask : mask.getLsbD k = true) :
    ∃ n, (n, mk k) ∈ (s.queueInsts mask mk).insts := by
  have hstack : k ∈ (List.range 32).filter fun k => mask.getLsbD k := List.mem_filter.mpr ⟨List.mem_range.mpr hk, hmask⟩
  obtain ⟨j, hj, hkj⟩ := List.getElem_of_mem hstack
  refine ⟨s.nextId + j, List.mem_append_right _ (List.mem_mapIdx.mpr ⟨j, hj, ?_⟩)⟩
  rw [hkj]

/-- Forgetting old launches keeps one that has not ended. -/
theorem State.forgetLaunches_mem (s : State) (slot : Fin 8) {x : Nat × Inst} (hx : x ∈ s.insts) (hstate : x.2.state ≠ .ended) :
    x ∈ (s.forgetLaunches slot).insts :=
  List.mem_filter.mpr ⟨hx, by simp [hstate]⟩

theorem State.abortQueued_warps (s : State) (nid : Nat) : (s.abortQueued nid).warps = s.warps := by
  unfold State.abortQueued
  simp only
  split <;> rfl

section
variable (e : Ctx) (d : SOp) (image barrier param : DWord) (mask arg : Word)

/-- The node that a launch belongs to. -/
def Ctx.launchNode (e : Ctx) : Nat := (tget e.s.blocks e.w.block).elim 0 (·.node)

/-- The state in which a launch has its number and its instances are queued, before a drain is looked for. -/
def Ctx.numbered : State :=
  let t := (e.finish (setS false d (BitVec.ofNat 32 (e.s.nextLaunch e.w.slot % 65536)))).queueInsts mask fun k =>
    Inst.queued e.w.slot (some (e.s.nextLaunch e.w.slot)) e.launchNode k image barrier param arg e.die
  ({ t with ctxs := t.ctxs.set e.w.slot ((t.ctxs[e.w.slot]).map fun (x : Context) =>
    { x with nextLaunch := e.s.nextLaunch e.w.slot + 1 }) }).forgetLaunches e.w.slot

theorem Ctx.launchArray_eq : e.launchArray d image barrier param mask arg
    = if (tget (e.numbered d image barrier param mask arg).nodes e.launchNode).elim false (·.draining)
      then (e.numbered d image barrier param mask arg).abortQueued e.launchNode
      else e.numbered d image barrier param mask arg := rfl

/-- A launch leaves the warps as its destination's write leaves them. -/
theorem Ctx.launchArray_warps : (e.launchArray d image barrier param mask arg).warps
    = (e.finish (setS false d (BitVec.ofNat 32 (e.s.nextLaunch e.w.slot % 65536)))).warps := by
  rw [Ctx.launchArray_eq]
  split
  · exact State.abortQueued_warps ..
  · rfl

/-- A launch queues an array program on each stack of its mask. -/
theorem Ctx.launchArray_queues {k : Nat} (hk : k < 32) (hmask : mask.getLsbD k = true) :
    ∃ n b, (n, { Inst.queued e.w.slot (some (e.s.nextLaunch e.w.slot)) e.launchNode k image barrier param arg e.die with aborted := b })
      ∈ (e.launchArray d image barrier param mask arg).insts := by
  obtain ⟨n, hn⟩ := State.queueInsts_mem (e.finish (setS false d (BitVec.ofNat 32 (e.s.nextLaunch e.w.slot % 65536)))) mask
    (fun k => Inst.queued e.w.slot (some (e.s.nextLaunch e.w.slot)) e.launchNode k image barrier param arg e.die) hk hmask
  have hmem : _ ∈ (e.numbered d image barrier param mask arg).insts := State.forgetLaunches_mem _ e.w.slot hn nofun
  rw [Ctx.launchArray_eq]
  split
  · exact ⟨n, State.abortQueued_mem _ e.launchNode hmem⟩
  · exact ⟨n, false, hmem⟩

end

/-- R234: what a launch that completes leaves in its warp. -/
theorem launchGivesItsNumber : LaunchGivesItsNumber := by
  intro e d image barrier param mask arg hw hslice hvs
  rw [Ctx.launchArray_warps]
  exact (Plain.mk hw hslice hvs).finish_wrote d _

/-! ## The instruction -/

/-- A `dlaunch` with nothing outstanding and room in its die's queue goes to its checks. -/
theorem exec_dlaunch {d : Fin 63} {a : SOp} {s : State} {c : Ctx} (hr : ready (.dlaunch (.s d) a) s = some c)
    (hroom : c.s.queuedOn c.w.slot c.die < 1024) (hops : c.w.ops = []) :
    let r (k : Nat) : Word := sgetAt c.sregs a k
    exec (.dlaunch (.s d) a) s = .next (c.launchChecked (.s d) (r 1 ++ r 0) (r 3 ++ r 2) (r 5 ++ r 4) (r 6) (r 7)) := by
  refine (issue_ready hr _).trans (congrArg _ (if_neg ?_))
  simp [quiet_of_ops hops, hroom]

theorem dlaunchQueuesInstances : DlaunchQueuesInstances := by
  intro d a s c hr hroom hops i r image barrier u v allowed
  have g := issued_of_ready hr
  have hslice : c.slice = false := g.noSlice rfl
  have hst := g.st
  subst hst
  have hexec := exec_dlaunch hr hroom hops
  obtain ⟨hat1, hw1⟩ := g.with_aside (s1 := u.1) (c.s.translate_aside ..)
  have haside2 : v.1.aside = c.s.aside := (u.1.translate_aside ..).trans (c.s.translate_aside ..)
  obtain ⟨hat2, hw2⟩ := g.with_aside haside2
  have hright1 (ha : allowed u.2) : c.launchRight .r image = (u.1, none) := c.launchRight_allowed .r image ha
  have hright2 (ha : allowed v.2) : (c.with u.1).launchRight .rw barrier = (v.1, none) := by
    rw [hat1]
    exact Ctx.launchRight_allowed _ .rw barrier ha
  have hlaunches {e : Ctx} (h64 : image.toNat % 64 = 0) (h8 : barrier.toNat % 8 = 0) (ha : allowed u.2) (hb : allowed v.2)
      (hrel : released (c.with v.1) = some e) : exec i c.s = .next (e.launchArray (.s d) image barrier (r 5 ++ r 4) (r 6) (r 7)) := by
    rw [hexec, Ctx.launchChecked_passes h64 h8 (hright1 ha) (hright2 hb), Ctx.release_of_released hrel]
  refine ⟨fun h64 hh => ?_, fun h64 h8 hh => ?_, fun h64 h8 => ⟨fun k hk hne hh => ?_, fun k ha hk hne hh => ?_, fun e ha hb hrel => ?_,
    fun ha hb hrest => ?_⟩⟩
  · exact leadsFrom_raise hr hslice hh (hexec.trans (congrArg _ (Ctx.launchChecked_image h64)))
  · exact leadsFrom_raise hr hslice hh (hexec.trans (congrArg _ (Ctx.launchChecked_barrier h64 h8)))
  · exact g.leads_raise rfl hw1 hh
      (hexec.trans (congrArg _ (Ctx.launchChecked_imageRight h64 h8 (c.launchRight_lacks .r image hk hne))))
  · have hlacks : (c.with u.1).launchRight .rw barrier = (v.1, some k) := by
      rw [hat1]
      exact Ctx.launchRight_lacks _ .rw barrier hk hne
    exact g.leads_raise rfl hw2 hh
      (hexec.trans (congrArg _ (Ctx.launchChecked_barrierRight h64 h8 (hright1 ha) hlacks)))
  · exact hlaunches h64 h8 ha hb hrel
  · have hrest2 : AtRest (c.with v.1) := by
      rw [hat2]
      exact ⟨hrest.ops, hrest.lines, (aside_migration haside2).trans hrest.still⟩
    have hback : (c.with v.1).with (c.with v.1).s = c.with v.1 := by
      rw [hat2]
      exact Ctx.with_same hw2 (aside_parts haside2 ▸ g.part)
    have hdue : dueError (c.with v.1).w (c.with v.1).i = none := by
      rw [hat2]
      exact g.notDue hslice
    have hslot : (c.with v.1).w.slot = c.w.slot := by rw [Ctx.with_w hw2]
    have hnext : (c.with v.1).s.nextLaunch (c.with v.1).w.slot = c.s.nextLaunch c.w.slot := by
      rw [hslot, c.with_s, State.nextLaunch, State.nextLaunch, aside_ctxs haside2]
    refine ⟨_, hlaunches h64 h8 ha hb (hrest2.releases hback hdue), ?_, fun k hk hmask => ?_⟩
    · rw [Ctx.launchArray_warps, hnext, ← Ctx.wrote_with hw2, ← c.with_wid v.1]
      exact ((g.plain rfl rfl).with hw2).1.finish_wrote d _
    · obtain ⟨n, b, hmem⟩ := (c.with v.1).launchArray_queues (.s d) image barrier (r 5 ++ r 4) (r 6) (r 7) hk hmask
      exact ⟨_, hmem, hslot, rfl, rfl, congrArg some hnext, rfl, rfl, rfl, rfl⟩

/-- Settles O29: the checks pass in turn, and the launch queues its instances. -/
theorem arrayLaunches : Obligations.ArrayLaunches := ⟨dlaunchQueuesInstances, launchGivesItsNumber⟩

end Sys2Proof.Machine
end

section
/-! PROOF. O34: its statement ranges over every state, and a part may stand on a core number above 1,535, whose neighbour's entry lies
behind the fence state table (R438). A hold of that neighbour writes outside the table. -/

namespace Sys2Proof.Machine

/-- A self-test whose part stands on core 65,536, which no module has; core 65,537 is its neighbour to the east. -/
def strayTest : State :=
  (({ State.reset.placeWords [] with agenda := [], agent := .warp 3 }).modNode 0 fun n => { n with kind := .selftest }).modPart 2
    fun p => { p with core := 65536 }

/-- `stest.hold` of core 65,537, with its status in s8 and s9. -/
def strayTarget : FormG := ⟨.s 8, .lit, .s 2, 65537⟩

/-- The hold is ready, and free for its warp to take. -/
theorem strayTest_ready :
    (ready (.stestHold strayTarget) strayTest).any (fun c => c.sv strayTarget.a == 65537 && c.holdStatus 65537 == 0) = true := by
  decide +kernel

/-- The hold writes the entry of core 65,537, where zeros stood. -/
theorem strayTest_writes : (match exec (.stestHold strayTarget) strayTest with
      | .next u => u.mem.get strayEntry == 1
      | _ => false) = true
    ∧ strayTest.mem.get strayEntry = 0 := by decide +kernel

/-- Refutes O34: a hold of core 65,537 by the block on core 65,536 writes that core's entry, behind the fence state table, where the
statement of `.hold` says that memory stays. -/
theorem not_scanTestOperations : ¬ Obligations.ScanTestOperations := by
  intro h
  obtain ⟨hops, -⟩ := h
  obtain ⟨c, hready, hc⟩ := (Option.any_eq_true _ _).mp strayTest_ready
  rw [Bool.and_eq_true, beq_iff_eq, beq_iff_eq] at hc
  obtain ⟨htarget, hfree⟩ := hc
  obtain ⟨hhold, -⟩ := hops 8 .lit (.s 2) 65537 strayTest c (by decide)
  have ht : (c.sv .lit).toNat = 65537 := congrArg BitVec.toNat htarget
  rw [ht] at hhold
  obtain ⟨u, hexec, -, -, -, -, hmem⟩ := hhold hready hfree
  obtain ⟨hwrites, hzero⟩ := strayTest_writes
  have hone : u.mem.get strayEntry = 1 := by
    have hexec' : exec (.stestHold strayTarget) strayTest = .next u := hexec
    rw [hexec'] at hwrites
    exact beq_iff_eq.mp hwrites
  rw [hmem strayEntry (.inr (by decide)), hzero] at hone
  exact absurd hone (by decide)

end Sys2Proof.Machine
end

section
/-! SUPPORT. Writes of the device's own agents at virtual addresses of a context: they leave everything but memory, what is noted about
it, and the writes that a migration holds back (R104, R120). -/

namespace Sys2Proof.Machine

/-- What a write to memory leaves, wherever it goes: the module without its memory, what is noted about memory, and a migration. -/
def State.unwritten (s : State) : State := { s.aside with migration := none }

theorem unwritten_of_aside {s t : State} (h : t.aside = s.aside) : t.unwritten = s.unwritten := by
  rw [State.unwritten, State.unwritten, h]

section
variable {s t : State} (h : t.unwritten = s.unwritten)
include h

theorem unwritten_warps : t.warps = s.warps := by have e := congrArg State.warps h; exact e
theorem unwritten_parts : t.parts = s.parts := by have e := congrArg State.parts h; exact e
theorem unwritten_nodes : t.nodes = s.nodes := by have e := congrArg State.nodes h; exact e
theorem unwritten_groups : t.groups = s.groups := by have e := congrArg State.groups h; exact e
theorem unwritten_nextId : t.nextId = s.nextId := by have e := congrArg State.nextId h; exact e

end

/-! ## Bytes that lie in no register row -/

theorem State.store_unwritten (s : State) {loc : Nat} {bs : List Byte} (hreg : ∀ i, i < bs.length → locReg (loc + i) = none) :
    (s.store loc bs).unwritten = s.unwritten := by
  refine unwritten_of_aside ?_
  unfold State.store
  split
  · rfl
  · unfold State.mergeMarks
    rw [foldl_aside (fun t b => t.mergeBlock_aside loc bs.length b), State.putBytes_mem bs s loc hreg]
    rfl

theorem State.storeSome_unwritten (bs : List Byte) : ∀ (i : Nat) (s : State) (ch loc : Nat),
    (∀ i, i < bs.length → locReg (loc + i) = none) → (s.storeSome ch loc i bs).unwritten = s.unwritten := by
  induction bs with
  | nil => exact fun _ _ _ _ _ => rfl
  | cons b r ih =>
    intro i s ch loc hreg
    have hrest : ∀ j, j < r.length → locReg (loc + 1 + j) = none := fun j hj => by
      have := hreg (j + 1) (Nat.succ_lt_succ hj)
      rwa [Nat.add_comm j 1, ← Nat.add_assoc] at this
    have hbyte : (s.putByte loc b).unwritten = s.unwritten := by
      have hloc : locReg loc = none := hreg 0 (Nat.succ_pos _)
      simp only [State.putByte, hloc]
      rfl
    unfold State.storeSome
    rw [ih (i + 1) _ ch (loc + 1) hrest]
    split
    · exact hbyte
    · rfl

/-! ## A write at a place -/

section
variable {p : Place} {bs : List Byte} (hreg : ∀ i, i < bs.length → locReg (p.loc + i) = none)
include hreg

theorem State.storeLost_unwritten (s : State) : (s.storeLost p bs).unwritten = s.unwritten := by
  unfold State.storeLost
  split
  · exact State.storeSome_unwritten bs _ _ _ _ hreg
  · rfl

theorem State.writeAt_unwritten (s : State) : (s.writeAt p bs).2.unwritten = s.unwritten := by
  have hlink := unwritten_of_aside (s.linkFails_aside p)
  unfold State.writeAt
  split
  case h_1 s2 heq => exact (s2.storeLost_unwritten hreg).trans (by rw [heq] at hlink; exact hlink)
  case h_2 s2 heq => exact (s2.store_unwritten hreg).trans (by rw [heq] at hlink; exact hlink)

theorem State.stallWrite_unwritten (s : State) (who : Requester) (bad : List Nat) : (s.stallWrite who p bs bad).unwritten = s.unwritten := by
  unfold State.stallWrite
  split
  · rfl
  · exact (unwritten_of_aside (State.poisonLine_aside ..)).trans (s.store_unwritten hreg)

end

theorem State.ask_loc (s : State) (p : Place) : (s.ask p).1.loc = p.loc := by
  unfold State.ask
  split
  · rfl
  · simp only
    split <;> rfl

theorem State.ioWrite_unwritten (s : State) {p : Place} {bs : List Byte} (hreg : ∀ i, i < bs.length → locReg (p.loc + i) = none) :
    (s.ioWrite p bs).2.unwritten = s.unwritten := by
  have hask : ((s.ask p).2.ioRequest p).aside = s.aside := by simp
  refine (State.writeAt_unwritten ?_ _).trans (unwritten_of_aside hask)
  rw [State.ask_loc]
  exact hreg

/-! ## A write at an address -/

/-- The bytes of a context's page lie in no register row. -/
theorem State.ctxWalk_locReg {s s1 : State} {slot : Fin 8} {va : Nat} {p : Place} (h : s.ctxWalk slot va = (s1, some p)) {i : Nat}
    (hi : i < 2 ^ 42) : locReg (p.loc + i) = none := by
  unfold State.ctxWalk at h
  split at h
  · cases h
  · split at h
    · cases h
    · split at h
      · cases h
      · next e lv _ =>
        by_cases hfaults : leafFaults e lv va = true
        · rw [if_pos hfaults] at h
          cases h
        · rw [if_neg hfaults] at h
          obtain rfl := Option.some.inj (Prod.mk.inj h).2
          exact leafPlace_locReg (Bool.eq_false_iff.mpr hfaults) i hi

theorem State.storeVa_unwritten (s : State) (slot : Fin 8) (va : Nat) {bs : List Byte} (master : Option Nat) (hlen : bs.length ≤ 2 ^ 42) :
    (s.storeVa slot va bs master).unwritten = s.unwritten := by
  have hwalk := unwritten_of_aside (s.ctxWalk_aside slot va)
  unfold State.storeVa
  split
  case h_1 s1 p heq =>
    have hreg : ∀ i, i < bs.length → locReg (p.loc + i) = none := fun i hi => State.ctxWalk_locReg heq (hi.trans_le hlen)
    rw [heq] at hwalk
    refine Eq.trans ?_ hwalk
    split
    · rfl
    · split
      · exact State.stallWrite_unwritten hreg ..
      · exact State.ioWrite_unwritten _ hreg
  case h_2 s1 heq =>
    rw [heq] at hwalk
    exact hwalk

end Sys2Proof.Machine
end

section
/-! PROOF. O31. The fork of a sample group (R229, R233). -/

namespace Sys2Proof.Machine

/-! ## What a release keeps -/

/-- A stream of a warp that reads no queue, released. -/
theorem Plain.released {c e : Ctx} (h : Plain c) (hrel : Machine.released c = some e) : Plain e := by
  obtain ⟨-, hi, hslice⟩ := released_stream hrel
  exact ⟨released_here h.here hrel, hslice.trans h.slice, by rw [hi]; exact h.queues⟩

/-! ## The instruction -/

section
variable {c : Ctx} {need : Need} {va : DWord} {body : Ctx → Place → State}

/-- A misaligned group record (R233). -/
theorem Ctx.recordChecked_misaligned (h : va.toNat % 64 ≠ 0) : c.recordChecked need va body = c.raise 0x03 va :=
  if_pos (bne_iff_ne.mpr h)

/-- A group record in a stack, which may be accessed, passes the checks on its address (R229, R233). -/
theorem Ctx.recordChecked_passes {s1 : State} {p : Place} (h64 : va.toNat % 64 = 0)
    (htrans : c.s.translate c.w.slot c.core c.die need va = (s1, .ok p)) (htier : p.tier = 0) :
    c.recordChecked need va body = body (c.with s1) p := by
  have haligned : (va.toNat % 64 != 0) = false := by simp [h64]
  simp only [Ctx.recordChecked, haligned, htrans, htier, bne_self_eq_false, Bool.false_eq_true, if_false]

end

section
variable {e : Ctx} {d : SOp} {va : DWord} {p : Place} {s1 : State} {hb : List Byte}
  (hread : e.s.readMem p 64 = (.bytes hb, s1))
include hread

/-- A bad count decides by the header alone (R229). -/
theorem Ctx.forkChecked_count (h : groupCount hb = 0 ∨ 256 < groupCount hb) :
    e.forkChecked d va p = (e.with s1).release fun x => x.finish (setS false d 1) := by
  have hbad : (decide (groupCount hb = 0) || decide (256 < groupCount hb)) = true := by simpa using h
  simp only [Ctx.forkChecked, hread, hbad, if_true]

/-- With a good count the last page is checked, the whole record read, and the fork follows from it (R229). -/
theorem Ctx.forkChecked_record {s2 s3 : State} {q : Place} {bs : List Byte} (hlow : 1 ≤ groupCount hb) (hhigh : groupCount hb ≤ 256)
    (htrans : s1.translate (e.with s1).w.slot (e.with s1).core (e.with s1).die .rw (va + BitVec.ofNat 64 (48 + 16 * groupCount hb))
      = (s2, .ok q))
    (htier : q.tier = 0)
    (hrecord : s2.readRecord ((e.with s1).with s2).w.slot .r va.toNat 16 (4 + groupCount hb) = (s3, some bs)) :
    e.forkChecked d va p = (((e.with s1).with s2).with s3).release fun x => x.fork d va bs := by
  have hgood : ¬ (decide (groupCount hb = 0) || decide (256 < groupCount hb)) = true := by
    simp only [Bool.or_eq_true, decide_eq_true_eq]
    omega
  simp only [Ctx.forkChecked, hread, if_neg hgood, Ctx.lastPage, Ctx.with_s, htrans, htier, bne_self_eq_false, Bool.false_eq_true,
    if_false, hrecord]

end

/-- In a state that keeps its warp and its part, a stream goes on to a further state as from its own. -/
theorem Ctx.with_with {c : Ctx} {s1 : State} (h : c.with s1 = { c with s := s1 }) (s2 : State) : (c.with s1).with s2 = c.with s2 := by
  rw [h]
  rfl

theorem sgforkForks : SgforkForks := by
  intro d a s c hr hops
  have g := issued_of_ready hr
  have hplain := g.plain rfl rfl
  have hst := g.st
  subst hst
  have hexec : exec (.sgfork (.s d) a) c.s = .next (c.recordChecked .rw (c.sv64 a) fun e p => e.forkChecked (.s d) (c.sv64 a) p) :=
    (issue_ready hr _).trans (congrArg _ (if_neg (by simp [quiet_of_ops hops])))
  refine ⟨fun h64 hh => ?_, fun s1 s2 p hb h64 htrans htier hread => ?_⟩
  · exact leadsFrom_raise hr hplain.slice hh (hexec.trans (congrArg _ (Ctx.recordChecked_misaligned h64)))
  · have haside1 : s1.aside = c.s.aside := by
      simpa only [htrans] using c.s.translate_aside c.w.slot c.core c.die .rw (c.sv64 a) 1
    have haside2 : s2.aside = c.s.aside := by
      have hkeeps := s1.readMem_aside p 64
      rw [hread] at hkeeps
      exact hkeeps.trans haside1
    obtain ⟨hat1, hw1⟩ := g.with_aside haside1
    obtain ⟨hat2, hw2⟩ := g.with_aside haside2
    rw [Ctx.recordChecked_passes h64 htrans htier] at hexec
    refine ⟨fun hcount e hrel => ?_, fun hlow hhigh s3 s4 q bs e htrans' htier' hrecord hrel => ?_⟩
    · rw [Ctx.forkChecked_count (e := c.with s1) (by rw [c.with_s]; exact hread) hcount, Ctx.with_with hat1,
        Ctx.release_of_released hrel] at hexec
      exact ((hplain.with hw2).1.released hrel).leads hexec
    · have haside3 : s3.aside = c.s.aside := by
        have hkeeps := s2.translate_aside c.w.slot c.core c.die .rw (c.sv64 a + BitVec.ofNat 64 (48 + 16 * groupCount hb)) 1
        rw [htrans'] at hkeeps
        exact hkeeps.trans haside2
      obtain ⟨hat3, -⟩ := g.with_aside haside3
      rw [Ctx.forkChecked_record (e := c.with s1) (by rw [c.with_s]; exact hread) hlow hhigh
        (by rw [Ctx.with_with hat1, hat2]; exact htrans') htier' (by rw [Ctx.with_with hat1, Ctx.with_with hat2, hat3]; exact hrecord),
        Ctx.with_with hat1, Ctx.with_with hat2, Ctx.with_with hat3, Ctx.release_of_released hrel] at hexec
      exact hexec

/-! ## The fork -/

/-- The cleared fields of the members. -/
theorem State.clearMembers_unwritten (slot : Fin 8) (va n : Nat) : ∀ s : State, (s.clearMembers slot va n).unwritten = s.unwritten := by
  induction n with
  | zero => exact fun _ => rfl
  | succ n ih => exact fun s => (ih _).trans (s.storeVa_unwritten slot _ none (by simp [leBytes_length]))

/-- The state in which the fields that the module writes into a group's record have been cleared (R228, R229). -/
def State.recordCleared (s : State) (slot : Fin 8) (va : DWord) (bs : List Byte) : State :=
  ((s.storeVa slot va.toNat (leBytes 4 (recField bs 0 4 % 2 ^ 16))).storeVa slot (va.toNat + 0x18) (leBytes 28 0)).clearMembers slot
    va.toNat (groupCount bs)

theorem State.recordCleared_unwritten (s : State) (slot : Fin 8) (va : DWord) (bs : List Byte) :
    (s.recordCleared slot va bs).unwritten = s.unwritten :=
  (State.clearMembers_unwritten ..).trans
    ((State.storeVa_unwritten _ slot _ none (by simp [leBytes_length])).trans (s.storeVa_unwritten slot _ none (by simp [leBytes_length])))

/-- Under a node that does not drain, a fork creates a group of running members, and its node (R52, R229). -/
theorem State.forkGroup_creates (s : State) (slot : Fin 8) (die : Nat) (va : DWord) (bs : List Byte) (l : Launch) (pid : Nat) {p : Node}
    (hdrain : p.draining = false) :
    (s.forkGroup slot die va bs l pid p).warps = s.warps
    ∧ ∃ g, (s.forkGroup slot die va bs l pid p).groups = s.groups ++ [(s.nextId + 1, g)] ∧ g.record = va ∧ g.n = groupCount bs
      ∧ g.members = List.replicate (groupCount bs) (.running, 0) ∧ g.node = s.nextId ∧ g.done = false := by
  have hkept := s.recordCleared_unwritten slot va bs
  have hnext := unwritten_nextId hkept
  simp only [State.forkGroup, hdrain, Bool.false_eq_true, if_false]
  change (s.recordCleared slot va bs).warps = _
    ∧ ∃ g, (s.recordCleared slot va bs).groups ++ [((s.recordCleared slot va bs).nextId + 1, _)] = _ ∧ _
  rw [unwritten_groups hkept, hnext]
  exact ⟨unwritten_warps hkept, _, rfl, rfl, rfl, rfl, hnext, rfl⟩

theorem forkStatuses : ForkStatuses := by
  intro e d va bs hslice hvs hw
  have hplain : Plain e := ⟨hw, hslice, hvs⟩
  refine ⟨fun hbad => ?_, fun s1 l b n hgood hread hblock hnode => ?_⟩
  · have hfork : e.fork (.s d) va bs = e.finish (setS false (.s d) 1) := if_pos (by rw [hbad]; rfl)
    rw [hfork]
    exact ⟨hplain.finish_wrote d 1, (e.finish_only _).groups⟩
  · have haside : s1.aside = e.s.aside := by
      have hkeeps := e.s.readLaunch_aside e.w.slot (recField bs 0x10 8)
      rwa [hread] at hkeeps
    have hw1 : tget s1.warps e.wid = some e.w := aside_warps haside ▸ hw
    have hplain1 := (hplain.with hw1).1
    have hwrote (x : Word) : tget ((e.with s1).finish (setS false (.s d) x)).warps e.wid = some (wrote e d x) := by
      rw [← Ctx.wrote_with hw1, ← e.with_wid s1]
      exact hplain1.finish_wrote d x
    have hgroups (x : Word) : ((e.with s1).finish (setS false (.s d) x)).groups = s1.groups :=
      ((e.with s1).finish_only _).groups.trans (congrArg State.groups (e.with_s s1))
    have hfork : e.fork (.s d) va bs =
        if !l.accepted n.eff.store then (e.with s1).finish (setS false (.s d) 2)
        else if 1024 ≤ s1.groupsOn e.w.slot e.die then (e.with s1).finish (setS false (.s d) 3)
        else ((e.with s1).finish (setS false (.s d) 0)).forkGroup e.w.slot e.die va bs l b.node n := by
      simp only [Ctx.fork, hgood, hread, hblock, Option.map_some, hnode, Bool.not_true, Bool.false_eq_true, if_false]
      rfl
    refine ⟨fun hl => ?_, fun hl hfull => ?_, fun hl hroom hdrain => ?_⟩
    · rw [hfork, if_pos (by rw [hl]; rfl)]
      exact ⟨hwrote 2, hgroups 2⟩
    · rw [hfork, if_neg (by simp [hl]), if_pos hfull]
      exact ⟨hwrote 3, hgroups 3⟩
    · rw [hfork, if_neg (by simp [hl]), if_neg (Nat.not_le.mpr hroom)]
      have hnext : ((e.with s1).finish (setS false (.s d) 0)).nextId = s1.nextId :=
        ((e.with s1).finish_only _).nextId.trans (congrArg State.nextId (e.with_s s1))
      obtain ⟨hwarps, g, hnew, hrec, hn, hmem, hnd, hdone⟩ :=
        State.forkGroup_creates ((e.with s1).finish (setS false (.s d) 0)) e.w.slot e.die va bs l b.node hdrain
      rw [hgroups, hnext] at hnew
      exact ⟨_, g, rfl, hwarps ▸ hwrote 0, hnew, hrec, hn, hmem, hnd.trans hnext, hdone⟩

/-- Settles O31: the record decides by its checks, and the fork by the launch record and the number of groups. -/
theorem groupForks : Obligations.GroupForks := ⟨sgforkForks, forkStatuses⟩

end Sys2Proof.Machine
end

section
/-! SUPPORT. Fields written one after another into memory, and into a record of a context (R228, R232). -/

namespace Sys2Proof.Machine

/-! ## Writes that do not meet -/

/-- Memory after a list of writes, each of bytes at an address. -/
def Memory.writes (m : Memory) (l : List (Nat × List Byte)) : Memory := l.foldl (fun m x => m.write x.1 x.2) m

/-- Two writes meet at no byte. -/
def Apart (x y : Nat × List Byte) : Prop := x.1 + x.2.length ≤ y.1 ∨ y.1 + y.2.length ≤ x.1

theorem Memory.wf_writes (l : List (Nat × List Byte)) : ∀ {m : Memory}, m.wf = true → (m.writes l).wf = true := by
  induction l with
  | nil => exact fun h => h
  | cons x r ih => exact fun h => ih (Memory.wf_write _ _ _ h)

/-- A byte that no write meets stays. -/
theorem Memory.get_writes_outside {l : List (Nat × List Byte)} {a : Nat} : ∀ {m : Memory},
    (∀ x ∈ l, a < x.1 ∨ x.1 + x.2.length ≤ a) → (m.writes l).get a = m.get a := by
  induction l with
  | nil => exact fun _ => rfl
  | cons x r ih =>
    intro m h
    exact (ih fun y hy => h y (List.mem_cons_of_mem _ hy)).trans (Memory.get_write_outside _ _ _ _ (h x (List.mem_cons_self ..)))

/-- Of writes that do not meet, each leaves its bytes. -/
theorem Memory.read_writes {l : List (Nat × List Byte)} {x : Nat × List Byte} : ∀ {m : Memory}, m.wf = true → l.Pairwise Apart → x ∈ l →
    (m.writes l).read x.1 x.2.length = x.2 := by
  induction l with
  | nil => nofun
  | cons y r ih =>
    intro m hwf hapart hx
    obtain ⟨hy, hr⟩ := List.pairwise_cons.mp hapart
    obtain rfl | hx := List.mem_cons.mp hx
    · have hstays : ((m.write x.1 x.2).writes r).read x.1 x.2.length = (m.write x.1 x.2).read x.1 x.2.length :=
        Memory.read_congr fun i hi => Memory.get_writes_outside fun z hz => by
          have := hy z hz
          unfold Apart at this
          omega
      exact hstays.trans (Memory.read_write _ _ _ hwf)
    · exact ih (Memory.wf_write _ _ _ hwf) hr hx

/-! ## Writes at addresses of a context -/

/-- A list of writes by the module at addresses of a context, each at an offset from `va`. -/
def State.storeFields (s : State) (slot : Fin 8) (va : Nat) (l : List (Nat × List Byte)) : State :=
  l.foldl (fun t x => t.storeVa slot (va + x.1) x.2) s

theorem State.storeFields_append (s : State) (slot : Fin 8) (va : Nat) (l r : List (Nat × List Byte)) :
    s.storeFields slot va (l ++ r) = (s.storeFields slot va l).storeFields slot va r := List.foldl_append

/-- A state of clean memory whose bytes are `m`, and which agrees with `s` in all that is not memory. -/
structure Holds (s : State) (m : Memory) (t : State) : Prop where
  mem : t.mem = m
  clean : Clean t
  rest : t.unwritten = s.unwritten

theorem unwritten_ctxs {s t : State} (h : t.unwritten = s.unwritten) : t.ctxs = s.ctxs := by
  have e := congrArg State.ctxs h
  exact e

/-- In clean memory the walk of a context finds its place, and changes only what requests tally. -/
theorem State.ctxWalk_clean {t : State} (hc : Clean t) (slot : Fin 8) (va : Nat) : ∃ k cs m, (t.ctxWalk slot va).1 = t.tallied k cs m := by
  unfold State.ctxWalk
  split
  · exact ⟨_, _, _, rfl⟩
  · split
    · exact ⟨_, _, _, rfl⟩
    · next c _ _ =>
      obtain ⟨k, cs, m, hwalk⟩ := walkFrom_nil va treeLevels hc.counts hc.bits hc.words c.ptRoot
      refine ⟨k, cs, m, Eq.trans ?_ hwalk⟩
      unfold walk
      split <;> simp_all

/-- A place of a context answers. -/
theorem State.ctxPlace_answers {t : State} {slot : Fin 8} {va : Nat} {p : Place} (h : t.ctxPlace slot va = some p) :
    p.lost = false ∧ p.refused = false := by
  unfold State.ctxPlace State.ctxWalk at h
  split at h
  · cases h
  · split at h
    · cases h
    · split at h
      · cases h
      · simp only [Option.ite_none_left_eq_some, Option.some.injEq] at h
        exact h.2 ▸ leafPlace_answers ..

/-- The module's write of bytes at a place of a stack below the management area, in clean memory. -/
theorem State.ioWrite_clean {t : State} (hc : Clean t) {p : Place} {bs : List Byte} (htier : p.tier = 0) (hlost : p.lost = false)
    (hrefused : p.refused = false) (hlen : p.loc + bs.length ≤ physTop) :
    Clean (t.ioWrite p bs).2 ∧ (t.ioWrite p bs).2.mem = t.mem.write p.loc bs := by
  obtain ⟨k, cs, m, haccess⟩ := State.mscAccess_clean hc p true
  have hask : t.ask p = (p, t) := by simp [State.ask, htier]
  have hlink : (t.tallied k cs m).linkFails p = (false, t.tallied k cs m) := by simp [State.linkFails, hlost, hrefused, htier]
  have hc' := hc.tallied k cs m
  have hwrite : (t.ioWrite p bs).2 = ({ t.tallied k cs m with mem := t.mem.write p.loc bs } : State).clearMarks p.loc bs.length := by
    simp only [State.ioWrite, hask, State.ioRequest, htier, if_true, haccess, State.writeAt, hlink, State.store_clean hc' hlen]
    rfl
  rw [hwrite]
  exact ⟨(hc'.withMem _).clearMarks _ _, rfl⟩

variable {s : State} {slot : Fin 8} {va n base : Nat}

/-- A write into a record of a context (R228). -/
theorem Holds.storeVa (hrec : RecordAt s slot va n base) {m : Memory} {t : State} (h : Holds s m t)
    (hout : ∀ a, a < base ∨ base + n ≤ a → m.get a = s.mem.get a) {off : Nat} {bs : List Byte} (hoff : off < n)
    (hlen : off + bs.length ≤ n) : Holds s (m.write (base + off) bs) (t.storeVa slot (va + off) bs) := by
  have hmgmt := hrec.inside
  obtain ⟨p, hplace, hpa, hloc, htier, hmig⟩ := hrec.walks t (unwritten_ctxs h.rest) h.clean (h.mem ▸ hout) off hoff
  obtain ⟨hlost, hrefused⟩ := State.ctxPlace_answers hplace
  obtain ⟨k, cs, g, hwalk⟩ := State.ctxWalk_clean h.clean slot (va + off)
  have hpair : t.ctxWalk slot (va + off) = (t.tallied k cs g, some p) := Prod.ext hwalk hplace
  have hmay : (t.tallied k cs g).mayTouch none .w p = true := by
    have hbelow : isMgmt p.pa = false := by
      unfold isMgmt
      rw [hpa, Bool.and_eq_false_iff]
      exact .inl (decide_eq_false (by omega))
    simp [State.mayTouch, hbelow]
  have hstore : t.storeVa slot (va + off) bs = ((t.tallied k cs g).ioWrite p bs).2 := by
    simp only [State.storeVa, hpair, hmay, hmig, Bool.not_true, Bool.false_and, Bool.false_eq_true, if_false]
  have htop : base + off + bs.length ≤ physTop := by
    have : mgmtBase ≤ physTop := by decide
    omega
  obtain ⟨hclean, hmem⟩ := State.ioWrite_clean (h.clean.tallied k cs g) htier hlost hrefused (hloc ▸ htop)
  have hshort : bs.length ≤ 2 ^ 42 := by
    have : mgmtBase ≤ 2 ^ 42 := by decide
    omega
  refine ⟨?_, hstore ▸ hclean, (t.storeVa_unwritten slot _ none hshort).trans h.rest⟩
  rw [hstore, hmem, hloc, ← h.mem]
  rfl

/-- The writes of fields into a record. -/
theorem Holds.storeFields (hrec : RecordAt s slot va n base) {l : List (Nat × List Byte)} : ∀ {m : Memory} {t : State}, Holds s m t →
    (∀ a, a < base ∨ base + n ≤ a → m.get a = s.mem.get a) → (∀ x ∈ l, x.1 < n ∧ x.1 + x.2.length ≤ n) →
    Holds s (m.writes (l.map fun x => (base + x.1, x.2))) (t.storeFields slot va l) := by
  induction l with
  | nil => exact fun h _ _ => h
  | cons x r ih =>
    intro m t h hout hin
    obtain ⟨hoff, hlen⟩ := hin x (List.mem_cons_self ..)
    refine ih (h.storeVa hrec hout hoff hlen) (fun a ha => ?_) fun y hy => hin y (List.mem_cons_of_mem _ hy)
    exact (Memory.get_write_outside x.2 m (base + x.1) a (by omega)).trans (hout a ha)

end Sys2Proof.Machine
end

section
/-! SUPPORT. The fields that a group's completion writes into its record (R228, R232). -/

namespace Sys2Proof.Machine

/-! ## The fields of the members -/

/-- The 16 bytes of a member in the record of a group that is done. -/
def memberBytes (count mean var : Nat) (eps : Word) (m : MemberState × Word) : List Byte :=
  leBytes 4 (if m.1 = .reported then m.2.toNat else 0) ++ leBytes 4 (memberAdv m count mean var eps).1 ++ leBytes 4 (memberCode m.1)
    ++ leBytes 4 0

theorem memberBytes_length (count mean var : Nat) (eps : Word) (m : MemberState × Word) :
    (memberBytes count mean var eps m).length = 16 := by
  simp [memberBytes, leBytes_length]

/-- The fields of the members from number `i` on, by their offsets in the record. -/
def memberFields (f : MemberState × Word → List Byte) : Nat → List (MemberState × Word) → List (Nat × List Byte)
  | _, [] => []
  | i, m :: r => (0x40 + 16 * i, f m) :: memberFields f (i + 1) r

/-- The flag bits that the members set together. -/
def memberFlags (count mean var : Nat) (eps : Word) (ms : List (MemberState × Word)) : Nat :=
  ms.foldr (fun m y => (memberAdv m count mean var eps).2 ||| y) 0

theorem State.writeMembers_eq (slot : Fin 8) (a count mean var : Nat) (eps : Word) (ms : List (MemberState × Word)) : ∀ (s : State) (i : Nat),
    s.writeMembers slot a count mean var eps i ms
      = (s.storeFields slot a (memberFields (memberBytes count mean var eps) i ms), memberFlags count mean var eps ms) := by
  induction ms with
  | nil => exact fun _ _ => rfl
  | cons m r ih =>
    intro s i
    simp only [State.writeMembers, ih, memberAddr, Nat.add_assoc]
    rfl

section
variable {f : MemberState × Word → List Byte} {ms : List (MemberState × Word)}

theorem mem_memberFields {m : MemberState × Word} : ∀ {ms : List (MemberState × Word)} {j i : Nat}, ms[j]? = some m →
    (0x40 + 16 * (i + j), f m) ∈ memberFields f i ms := by
  intro ms
  induction ms with
  | nil => nofun
  | cons y r ih =>
    intro j i h
    cases j with
    | zero =>
      obtain rfl := Option.some.inj h
      exact List.mem_cons_self ..
    | succ j =>
      have := ih (j := j) (i := i + 1) h
      rw [Nat.add_assoc, Nat.add_comm 1 j] at this
      exact List.mem_cons_of_mem _ this

variable (hf : ∀ m, (f m).length = 16)
include hf

/-- Where the fields of members lie. -/
theorem memberFields_bounds : ∀ {ms : List (MemberState × Word)} {i : Nat}, ∀ x ∈ memberFields f i ms,
    0x40 + 16 * i ≤ x.1 ∧ x.1 + 16 ≤ 0x40 + 16 * (i + ms.length) ∧ x.2.length = 16 := by
  intro ms
  induction ms with
  | nil => nofun
  | cons m r ih =>
    intro i x hx
    rw [List.length_cons]
    obtain rfl | hx := List.mem_cons.mp hx
    · exact ⟨Nat.le_refl _, by simp only; omega, hf m⟩
    · obtain ⟨hlow, hhigh, hlen⟩ := ih x hx
      exact ⟨by omega, by omega, hlen⟩

/-- The fields of two members do not meet. -/
theorem memberFields_apart : ∀ {ms : List (MemberState × Word)} {i : Nat}, (memberFields f i ms).Pairwise Apart := by
  intro ms
  induction ms with
  | nil => exact fun {i} => List.Pairwise.nil
  | cons m r ih =>
    intro i
    refine List.pairwise_cons.mpr ⟨fun x hx => .inl ?_, ih⟩
    have := (memberFields_bounds hf x hx).1
    simp only [hf m]
    omega

end

/-! ## The flags -/

/-- The flag that every member with a reward sets (R232). -/
def rewardFlag (count mean var : Nat) : Nat :=
  if count < 2 then 0x40000 else if nonfinite mean = true ∨ nonfinite var = true then 0x80000 else if var % 2 ^ 63 = 0 then 0x20000 else 0

theorem memberAdv_flag (m : MemberState × Word) (count mean var : Nat) (eps : Word) :
    (memberAdv m count mean var eps).2 = if m.1 = .reported then rewardFlag count mean var else 0 := by
  obtain ⟨st, y⟩ := m
  cases st with
  | reported =>
    simp only [memberAdv, rewardFlag, if_true, Bool.or_eq_true]
    split
    · rfl
    · split
      · rfl
      · split <;> rfl
  | _ => rfl

theorem memberFlags_eq (count mean var : Nat) (eps : Word) (ms : List (MemberState × Word)) :
    memberFlags count mean var eps ms = if rewards ms = [] then 0 else rewardFlag count mean var := by
  induction ms with
  | nil => rfl
  | cons m r ih =>
    have hcons : memberFlags count mean var eps (m :: r) = (memberAdv m count mean var eps).2 ||| memberFlags count mean var eps r := rfl
    rw [hcons, ih, memberAdv_flag]
    by_cases hm : m.1 = .reported
    · have hsome : rewards (m :: r) ≠ [] := by simp [rewards, hm]
      rw [if_pos hm, if_neg hsome]
      split
      · exact Nat.or_zero _
      · exact Nat.or_self _
    · have hsame : rewards (m :: r) = rewards r := by simp [rewards, hm]
      rw [if_neg hm, hsame, Nat.zero_or]

/-! ## The record -/

/-- Members in a state. -/
def Group.count (g : Group) (st : MemberState) : Nat := (g.members.filter fun m => m.1 == st).length

/-- The bytes of each member of a group that is done. -/
def Group.memberBytes (g : Group) : MemberState × Word → List Byte :=
  Machine.memberBytes (rewards g.members).length (meanVar (rewards g.members)).1 (meanVar (rewards g.members)).2 g.eps

/-- The fields besides the members', the word with the done bit last. -/
def Group.headFields (g : Group) : List (Nat × List Byte) :=
  let mv := meanVar (rewards g.members)
  [(0x18, leBytes 8 mv.1), (0x20, leBytes 8 mv.2), (0x28, leBytes 4 (g.count .reported) ++ leBytes 4 (g.count .cancelled)),
    (0x30, leBytes 4 (g.count .timedOut)),
    (0, leBytes 4 (memberFlags (rewards g.members).length mv.1 mv.2 g.eps g.members + 0x10000 + g.n))]

/-- Every field that a group's completion writes, in its order. -/
def Group.fields (g : Group) : List (Nat × List Byte) := memberFields g.memberBytes 0 g.members ++ g.headFields

theorem State.storeFields_headFields (s : State) (slot : Fin 8) (a : Nat) (g : Group) : s.storeFields slot a g.headFields =
    ((((s.storeVa slot (a + 0x18) (leBytes 8 (meanVar (rewards g.members)).1)).storeVa slot (a + 0x20)
      (leBytes 8 (meanVar (rewards g.members)).2)).storeVa slot (a + 0x28)
      (leBytes 4 (g.count .reported) ++ leBytes 4 (g.count .cancelled))).storeVa slot (a + 0x30) (leBytes 4 (g.count .timedOut))).storeVa
      slot a (leBytes 4 (memberFlags (rewards g.members).length (meanVar (rewards g.members)).1 (meanVar (rewards g.members)).2 g.eps
        g.members + 0x10000 + g.n)) := by
  simp only [State.storeFields, Group.headFields, List.foldl_cons, List.foldl_nil, Nat.add_zero]

theorem State.groupCheck_ready {s : State} {gid : Nat} {g : Group} (hg : tget s.groups gid = some g) (h : s.groupReady gid g = true) :
    s.groupCheck gid = ((s.storeFields g.slot g.record.toNat g.fields).modGroup gid fun x => { x with done := true }).setStatus g.node
      (if g.killed then .abandoned else .completed) := by
  simp only [State.groupCheck, hg, h, Bool.not_true, Bool.false_eq_true, if_false, State.writeMembers_eq]
  rw [Group.fields, State.storeFields_append, State.storeFields_headFields]
  rfl

/-- The lengths of the fields besides the members', and where they lie. -/
theorem Group.headFields_bounds (g : Group) : ∀ x ∈ g.headFields, x.1 + x.2.length ≤ 0x34 ∧ x.1 < 0x34
    ∧ (x.1 + x.2.length ≤ 4 ∨ 0x18 ≤ x.1) := by
  simp [Group.headFields, leBytes_length]

theorem Group.headFields_apart (g : Group) : g.headFields.Pairwise Apart := by
  simp [Group.headFields, Apart, leBytes_length]

theorem Group.memberBytes_length (g : Group) (m : MemberState × Word) : (g.memberBytes m).length = 16 :=
  Machine.memberBytes_length ..

/-- No two fields meet. -/
theorem Group.fields_apart (g : Group) : g.fields.Pairwise Apart :=
  List.pairwise_append.mpr ⟨memberFields_apart g.memberBytes_length, g.headFields_apart, fun x hx y hy => .inr (by
    have hx := (memberFields_bounds g.memberBytes_length x hx).1
    have hy := (g.headFields_bounds y hy).1
    omega)⟩

/-- The fields lie within the record. -/
theorem Group.fields_inside (g : Group) : ∀ x ∈ g.fields, x.1 < 0x40 + 16 * g.members.length
    ∧ x.1 + x.2.length ≤ 0x40 + 16 * g.members.length := by
  intro x hx
  obtain hx | hx := List.mem_append.mp hx
  · obtain ⟨-, hhigh, hlen⟩ := memberFields_bounds g.memberBytes_length x hx
    omega
  · obtain ⟨hend, hstart, -⟩ := g.headFields_bounds x hx
    omega

/-- No field lies in the gaps of the record. -/
theorem Group.fields_gaps (g : Group) : ∀ x ∈ g.fields, x.1 + x.2.length ≤ 4 ∨ 0x18 ≤ x.1 ∧ x.1 + x.2.length ≤ 0x34 ∨ 0x40 ≤ x.1 := by
  intro x hx
  obtain hx | hx := List.mem_append.mp hx
  · have hlow := (memberFields_bounds g.memberBytes_length x hx).1
    omega
  · obtain ⟨hend, -, hplace⟩ := g.headFields_bounds x hx
    omega

end Sys2Proof.Machine
end

section
/-! PROOF. O32. Rewards, cancellations and waits of sample groups, the end of a member, and the record of a group that completes
(R109, R111, R228, R230-R233, R417, R420). -/

namespace Sys2Proof.Machine

/-! ## Members -/

/-- Replacing a member's state leaves the others. -/
theorem setMember_members (i : Nat) (m : MemberState × Word) (g : Group) : (setMember i m g).members = g.members.set i m := by
  refine List.ext_getElem? fun j => ?_
  rw [setMember, List.getElem?_mapIdx, List.getElem?_set]
  by_cases hj : i = j
  · subst hj
    by_cases hlt : i < g.members.length
    · simp [hlt]
    · simp [hlt]
  · simp [hj, Ne.symm hj]

/-! ## sgreward -/

section
variable {s : State} {w : Warp} {x : Word}

theorem State.reward_none (h : s.memberOf w = none) : s.reward w x = (1, s) := by rw [State.reward, h]

variable {gid i : Nat} {g : Group} {m : MemberState × Word} (h : s.memberOf w = some (gid, i)) (hg : tget s.groups gid = some g)
  (hdone : g.done = false) (hm : g.members[i]? = some m)
include h hg hdone hm

/-- A member that is final keeps its state (R230). -/
theorem State.reward_final (hfinal : m.1 ≠ .running) : s.reward w x = (2, s) := by
  obtain ⟨st, y⟩ := m
  cases st with
  | running => exact absurd rfl hfinal
  | _ => simp only [State.reward, h, hg, hdone, hm, Bool.false_eq_true, if_false]

/-- A running member reports (R230). -/
theorem State.reward_running (hrunning : m.1 = .running) : s.reward w x = (0, s.modGroup gid (setMember i (.reported, x))) := by
  obtain ⟨st, y⟩ := m
  obtain rfl : st = .running := hrunning
  simp only [State.reward, h, hg, hdone, hm, Bool.false_eq_true, if_false]

end

/-- A stream that has only been looked up again in its own state goes on as it does there. -/
theorem Plain.leads_again {e : Ctx} (h : Plain e) {i : Instr} {s : State} {d : Fin 63} {x : Word}
    (hexec : exec i s = .next ((e.with e.s).finish (setS false (.s d) x))) : LeadsFrom i s e (wrote e d x) := by
  have hleads := (h.with h.here).1.leads hexec
  rwa [LeadsFrom, e.with_wid, e.with_s, Ctx.wrote_with h.here] at hleads

theorem sgrewardReports : SgrewardReports := by
  intro d b k s c e hr hrel hw
  have hplain := (issued_of_ready hr |>.plain rfl rfl).released hrel
  have hexec : exec (.sgreward (.s d) b k) s = .next ((e.with (e.s.reward e.w (e.sv b)).2).finish
      (setS false (.s d) (BitVec.ofNat 32 (e.s.reward e.w (e.sv b)).1))) :=
    (issue_ready hr _).trans (congrArg _ (Ctx.release_of_released hrel _))
  refine ⟨fun hnone => ?_, fun gid i g m hmember hg hdone hm => ⟨fun hfinal => ?_, fun hrunning => ?_⟩⟩
  · rw [State.reward_none hnone] at hexec
    exact hplain.leads_again hexec
  · rw [State.reward_final hmember hg hdone hm hfinal] at hexec
    exact hplain.leads_again hexec
  · rw [State.reward_running hmember hg hdone hm hrunning] at hexec
    have honly := (e.with (e.s.modGroup gid (setMember i (.reported, e.sv b)))).finish_only (setS false (.s d) (BitVec.ofNat 32 0))
    have hreport := (hplain.with (s1 := e.s.modGroup gid (setMember i (.reported, e.sv b))) hplain.here).1
    have hi : i < g.members.length := (List.getElem?_eq_some_iff.mp hm).1
    refine ⟨_, setMember i (.reported, e.sv b) g, hexec, ?_, ?_, ?_, fun j hj => ?_, ?_⟩
    · rw [← Ctx.wrote_with (s1 := e.s.modGroup gid (setMember i (.reported, e.sv b))) hplain.here, ← e.with_wid]
      exact hreport.finish_wrote d 0
    · rw [honly.groups, e.with_s]
      exact tget_tmod_of_some _ hg
    · rw [setMember_members, List.getElem?_set_self hi]
    · rw [setMember_members, List.getElem?_set_ne (Ne.symm hj)]
    · rw [honly.mem, e.with_s]
      rfl

/-! ## sgcancel -/

section
variable {s : State} {slot : Fin 8} {va : DWord} {i : Nat}

theorem State.cancelOf_noGroup (h : s.runningGroup slot va = none) : s.cancelOf slot va i = (1, none) := by rw [State.cancelOf, h]

variable {gid : Nat} {g : Group} (h : s.runningGroup slot va = some (gid, g))
include h

theorem State.cancelOf_noMember (hi : g.n ≤ i) : s.cancelOf slot va i = (1, none) := by
  simp only [State.cancelOf, h, if_pos hi]

variable {m : MemberState × Word} (hi : i < g.n) (hm : g.members[i]? = some m)
include hi hm

theorem State.cancelOf_final (hfinal : m.1 ≠ .running) : s.cancelOf slot va i = (2, none) := by
  obtain ⟨st, y⟩ := m
  cases st with
  | running => exact absurd rfl hfinal
  | _ => simp only [State.cancelOf, h, if_neg (Nat.not_le.mpr hi), hm]

theorem State.cancelOf_running (hrunning : m.1 = .running) : s.cancelOf slot va i = (0, some (gid, i)) := by
  obtain ⟨st, y⟩ := m
  obtain rfl : st = .running := hrunning
  simp only [State.cancelOf, h, if_neg (Nat.not_le.mpr hi), hm]

end

theorem sgcancelCancels : SgcancelCancels := by
  intro d a b k s c hr
  have g := issued_of_ready hr
  have hplain := g.plain rfl rfl
  have hst := g.st
  subst hst
  have hnothing {x : Nat} (h : c.s.cancelOf c.w.slot (c.sv64 a) (c.sv b).toNat = (x, none)) :
      LeadsFrom (.sgcancel (.s d) a b k) c.s c (wrote c d (BitVec.ofNat 32 x)) := by
    refine hplain.leads ((issue_ready hr _).trans (congrArg _ ?_))
    simp only [h]
  refine ⟨fun hnone => hnothing (State.cancelOf_noGroup hnone), fun gid y hgroup =>
    ⟨fun hn => hnothing (State.cancelOf_noMember hgroup hn), fun m hi hm =>
      ⟨fun hfinal => hnothing (State.cancelOf_final hgroup hi hm hfinal), fun hrunning => ?_⟩⟩⟩
  refine ⟨_, hplain.finish_wrote d 0, c.finish_only _, (issue_ready hr _).trans (congrArg _ ?_)⟩
  simp only [State.cancelOf_running hgroup hi hm hrunning]
  rfl

/-! ## sgwait -/

theorem sgwaitWaits : SgwaitWaits := by
  intro d a s c hr
  have g := issued_of_ready hr
  have hplain := g.plain rfl rfl
  have hst := g.st
  subst hst
  refine ⟨fun h64 hh => ?_, fun s1 s2 p hit h64 htrans htier hreads hread => ?_⟩
  · exact leadsFrom_raise hr hplain.slice hh ((issue_ready hr _).trans (congrArg _ (Ctx.recordChecked_misaligned h64)))
  · have haside1 : s1.aside = c.s.aside := by
      simpa only [htrans] using c.s.translate_aside c.w.slot c.core c.die .r (c.sv64 a) 1
    have haside2 : s2.aside = c.s.aside := by
      have hkeeps := s1.readDone_aside p
      rw [hread] at hkeeps
      exact hkeeps.trans haside1
    obtain ⟨hat1, -⟩ := g.with_aside haside1
    obtain ⟨-, hw2⟩ := g.with_aside haside2
    have hplain2 := (hplain.with hw2).1
    have hexec : exec (.sgwait (.s d) a) c.s = .next (if hit then (c.with s2).finishAcq (setS false (.s d) 0)
        else if (s2.runningGroup c.w.slot (c.sv64 a)).isSome then (c.with s2).wait (.sgwait d (c.sv64 a))
        else (c.with s2).finish (setS false (.s d) 1)) := by
      refine (issue_ready hr _).trans (congrArg _ ?_)
      have hreads1 : (c.with s1).readWaits p.loc 4 = false := by rw [hat1]; exact hreads
      simp only [destS, Ctx.recordChecked_passes h64 htrans htier, hreads1, c.with_s s1, hread, Bool.false_eq_true, if_false]
      rw [hat1]
      cases hit <;> rfl
    refine ⟨?_, ?_, ?_⟩
    · rintro rfl
      rw [← Ctx.wrote_with hw2 d 0]
      exact hplain2.acquires hexec
    · rintro rfl hruns
      rw [if_neg Bool.false_ne_true, if_pos hruns] at hexec
      exact hplain2.waits ((c.with_i s2).trans g.instr) hexec
    · rintro rfl hnone
      rw [if_neg Bool.false_ne_true, hnone] at hexec
      rw [← Ctx.wrote_with hw2 d 1]
      exact hplain2.leads hexec

/-! ## The end of a member -/

/-- Judging a core's neighbours afresh leaves blocks and warps. -/
theorem State.eachWatch_frame (s : State) (k : Nat) (f : Watch → Watch) :
    ((s.eachWatch k f).blocks, (s.eachWatch k f).warps) = (s.blocks, s.warps) :=
  foldl_keeps (fun t : State => (t.blocks, t.warps)) (by intros; rfl) _ _

theorem State.endHold_frame (s : State) (k : Nat) : ((s.endHold k).blocks, (s.endHold k).warps) = (s.blocks, s.warps) := by
  unfold State.endHold
  split
  · rfl
  · exact State.eachWatch_frame _ k _

theorem State.endHoldsOf_frame (s : State) (bid : Nat) : ((s.endHoldsOf bid).blocks, (s.endHoldsOf bid).warps) = (s.blocks, s.warps) :=
  foldl_keeps (fun t : State => (t.blocks, t.warps)) (fun t x => t.endHold_frame x.1) _ _

theorem State.reorder_warps (s : State) (slot : Fin 8) : (s.reorder slot).warps = s.warps := by
  unfold State.reorder
  split
  · exact foldl_keeps State.warps (f := fun t d => t.orderOf slot d) (fun _ _ => rfl) _ _
  · rfl

/-- A block that is stopped is marked (R417). -/
theorem State.stopBlock_stopping {s : State} {bid : Nat} {b : Block} (h : tget s.blocks bid = some b) :
    (tget (s.stopBlock bid).blocks bid).map (·.stopping) = some true := by
  have hblocks : (s.endHoldsOf bid).blocks = s.blocks := (Prod.mk.inj (s.endHoldsOf_frame bid)).1
  simp only [State.stopBlock, h]
  rw [(Prod.mk.inj (State.reorder_frame _ b.slot)).1]
  simp only [State.modBlock]
  rw [tget_tmod_of_some _ (hblocks ▸ h)]
  rfl

/-- The warps of a block that is stopped stop, with no wait and no pending error (R417). -/
theorem State.stopBlock_warp {s : State} {bid wid : Nat} {b : Block} {w : Warp} (h : tget s.blocks bid = some b)
    (hw : tget s.warps wid = some w) (hb : w.block = bid) : tget (s.stopBlock bid).warps wid = some
      { w with stopped := true, errs := [], wait := none, slice := w.slice.map fun sl => { sl with stopped := true } } := by
  have hwarps : (s.endHoldsOf bid).warps = s.warps := (Prod.mk.inj (s.endHoldsOf_frame bid)).2
  simp only [State.stopBlock, h]
  rw [State.reorder_warps, hwarps, tget_tmap, hw, Option.map_some, if_pos hb]

theorem membersEnd : MembersEnd := by
  intro gid i st s g hg hi
  have hmembers : tget (s.modGroup gid (setMember i (st, 0))).groups gid = some (setMember i (st, 0) g) := tget_tmod_of_some _ hg
  refine ⟨s.modGroup gid (setMember i (st, 0)), ?_, rfl, rfl, fun hnone => ?_, fun b k hblock hk => ?_⟩
  · rw [hmembers, Option.map_some, setMember_members]
  · have hnone' : (s.modGroup gid (setMember i (st, 0))).memberBlock gid i = none := hnone
    simp only [State.endMember, hnone']
  · have hblock' : (s.modGroup gid (setMember i (st, 0))).memberBlock gid i = some b := hblock
    have hend : s.endMember gid i st = (s.modGroup gid (setMember i (st, 0))).stopBlock b := by
      simp only [State.endMember, hblock']
    rw [hend]
    have hk' : tget (s.modGroup gid (setMember i (st, 0))).blocks b = some k := hk
    refine ⟨rfl, State.stopBlock_stopping hk', fun wid w hw hb => ?_⟩
    exact ⟨_, State.stopBlock_warp hk' hw hb, rfl, rfl, rfl, rfl, rfl, rfl⟩

/-! ## A group that completes -/

/-- The final status of a group's node writes no memory (R52, R320). -/
theorem State.setStatus_group {s : State} {nid : Nat} {n : Node} (h : tget s.nodes nid = some n) (hkind : n.kind = .group)
    (hst : n.status = none) (st : Status) : s.setStatus nid st = s.modNode nid fun x => { x with status := some st } := by
  simp only [State.setStatus, h, hst, hkind, Option.isSome_none, beq_self_eq_true, Bool.false_eq_true, if_false, if_true]

/-- What the record of a group that is done holds at a field, and what it holds elsewhere. -/
structure RecordDone (g : Group) (base : Nat) (m u : Memory) : Prop where
  field : ∀ x ∈ g.fields, u.read (base + x.1) x.2.length = x.2
  elsewhere : ∀ a, (∀ x ∈ g.fields, a < base + x.1 ∨ base + x.1 + x.2.length ≤ a) → u.get a = m.get a

/-- A group that is ready leaves its record, is done, and its node has its status (R232, R420). -/
theorem State.groupCheck_completes {gid : Nat} {s : State} {g : Group} {nd : Node} {base : Nat} (hg : tget s.groups gid = some g)
    (hready : s.groupReady gid g = true) (hnode : tget s.nodes g.node = some nd) (hkind : nd.kind = .group) (hst : nd.status = none)
    (hrec : RecordAt s g.slot g.record.toNat (0x40 + 16 * g.members.length) base) (hclean : Clean s) (hwf : s.mem.wf = true) :
    RecordDone g base s.mem (s.groupCheck gid).mem
    ∧ (tget (s.groupCheck gid).groups gid).map (·.done) = some true
    ∧ (tget (s.groupCheck gid).nodes g.node).bind (·.status) = some (if g.killed then .abandoned else .completed)
    ∧ (s.groupCheck gid).warps = s.warps := by
  have hholds : Holds s (s.mem.writes (g.fields.map fun x => (base + x.1, x.2))) (s.storeFields g.slot g.record.toNat g.fields) :=
    Holds.storeFields hrec ⟨rfl, hclean, rfl⟩ (fun _ _ => rfl) g.fields_inside
  obtain ⟨hmem, -, hrest⟩ := hholds
  have hnode' : tget ((s.storeFields g.slot g.record.toNat g.fields).modGroup gid fun x => { x with done := true }).nodes g.node
      = some nd := (congrArg (tget · g.node) (unwritten_nodes hrest)).trans hnode
  rw [State.groupCheck_ready hg hready, State.setStatus_group hnode' hkind hst]
  refine ⟨⟨fun x hx => ?_, fun a ha => ?_⟩, ?_, ?_, ?_⟩
  · have hapart : (g.fields.map fun x => (base + x.1, x.2)).Pairwise Apart :=
      List.pairwise_map.mpr (g.fields_apart.imp fun h => by
        unfold Apart at h ⊢
        simp only
        omega)
    exact (congrArg (fun u : Memory => u.read (base + x.1) x.2.length) hmem).trans
      (Memory.read_writes (x := (base + x.1, x.2)) hwf hapart (List.mem_map_of_mem hx))
  · refine (congrArg (Memory.get · a) hmem).trans (Memory.get_writes_outside fun y hy => ?_)
    obtain ⟨x, hx, rfl⟩ := List.mem_map.mp hy
    exact ha x hx
  · have hg' : tget (s.storeFields g.slot g.record.toNat g.fields).groups gid = some g :=
      (congrArg (tget · gid) (unwritten_groups hrest)).trans hg
    simp only [State.modNode, State.modGroup]
    rw [tget_tmod_of_some _ hg']
    rfl
  · simp only [State.modNode]
    rw [tget_tmod_of_some _ hnode']
    rfl
  · simp only [State.modNode, State.modGroup]
    exact unwritten_warps hrest

section
variable {g : Group} {base : Nat} {m u : Memory} (h : RecordDone g base m u)
include h

/-- A field besides the members'. -/
theorem RecordDone.head {x : Nat × List Byte} (hx : x ∈ g.headFields) : u.read (base + x.1) x.2.length = x.2 :=
  h.field x (List.mem_append_right _ hx)

/-- The fields of a member. -/
theorem RecordDone.member {i : Nat} {y : MemberState × Word} (hy : g.members[i]? = some y) :
    u.read (base + 0x40 + 16 * i) 16 = g.memberBytes y := by
  have hfield := h.field _ (List.mem_append_left _ (mem_memberFields (f := g.memberBytes) (i := 0) hy))
  rw [g.memberBytes_length, Nat.zero_add] at hfield
  rwa [Nat.add_assoc]

end

/-- The members of a group that is ready are final (R232). -/
theorem State.groupReady_final {s : State} {gid : Nat} {g : Group} (h : s.groupReady gid g = true) {m : MemberState × Word}
    (hm : m ∈ g.members) : m.1 ≠ .running := by
  simp only [State.groupReady, Bool.and_eq_true] at h
  obtain ⟨⟨-, hall⟩, -⟩ := h
  exact bne_iff_ne.mp (List.all_eq_true.mp hall m hm)

/-- The advantage of a member that has reported (R232). -/
theorem memberAdv_reported (y : Word) (count mean var : Nat) (eps : Word) : (memberAdv (.reported, y) count mean var eps).1
    = if count < 2 then 0 else if nonfinite mean = true ∨ nonfinite var = true then 0x7FC00000
      else if var % 2 ^ 63 = 0 then 0 else advantage (convert .fp32 .fp64 false .rne y.toNat).1 mean var eps := by
  simp only [memberAdv, Bool.or_eq_true]
  split
  · rfl
  · split
    · rfl
    · split <;> rfl

theorem groupsComplete : GroupsComplete := by
  intro gid s g nd base hg hready hnode hkind hst hn _ hrec hclean hwf t rs mean var count few bad flags
  rw [← hn] at hrec
  obtain ⟨hdone, hgroup, hstatus, hwarps⟩ := State.groupCheck_completes hg hready hnode hkind hst hrec hclean hwf
  refine ⟨?_, ?_, ?_, fun i m hm => ?_, fun a ha => ?_, hgroup, hstatus, hwarps⟩
  · have hflags : memberFlags rs.length mean var g.eps g.members = flags := memberFlags_eq ..
    have hword := hdone.head (x := (0, leBytes 4 (flags + 0x10000 + g.n))) (List.mem_of_getElem? (i := 4) (hflags ▸ rfl))
    rwa [leBytes_length] at hword
  · have hmean := hdone.head (x := (0x18, leBytes 8 mean)) (List.mem_of_getElem? (i := 0) rfl)
    have hvar := hdone.head (x := (0x20, leBytes 8 var)) (List.mem_of_getElem? (i := 1) rfl)
    rw [leBytes_length] at hmean hvar
    rw [Memory.read_add t.mem (base + 0x18) 8 8, Nat.add_assoc]
    exact congrArg₂ _ hmean hvar
  · have hboth := hdone.head (x := (0x28, leBytes 4 (count .reported) ++ leBytes 4 (count .cancelled)))
      (List.mem_of_getElem? (i := 2) rfl)
    have htimed := hdone.head (x := (0x30, leBytes 4 (count .timedOut))) (List.mem_of_getElem? (i := 3) rfl)
    rw [List.length_append, leBytes_length, leBytes_length] at hboth
    rw [leBytes_length] at htimed
    rw [Memory.read_add t.mem (base + 0x28) 8 4, Nat.add_assoc base]
    exact congrArg₂ _ hboth htimed
  · refine (hdone.member hm).trans ?_
    have hfinal := State.groupReady_final hready (List.mem_of_getElem? hm)
    obtain ⟨st, y⟩ := m
    cases st with
    | running => exact absurd rfl hfinal
    | reported =>
      exact congrArg (fun x => leBytes 4 y.toNat ++ leBytes 4 x ++ leBytes 4 1 ++ leBytes 4 0)
        (memberAdv_reported y rs.length mean var g.eps)
    | _ => rfl
  · refine hdone.elsewhere a fun x hx => ?_
    have hgap := g.fields_gaps x hx
    have hinside := g.fields_inside x hx
    omega

/-- Settles O32: each operation goes by the group's members, and a complete group's fields stand apart in its record. -/
theorem groupMembers : Obligations.GroupMembers := ⟨sgrewardReports, sgcancelCancels, sgwaitWaits, membersEnd, groupsComplete⟩

end Sys2Proof.Machine
end

section
/-! PROOF. O20. `czero` clears the accumulators that it names, and occupies the engine (R244, R250, R251). -/

namespace Sys2Proof.Machine

/-- The engine turns an instruction away only where an operation or a chain holds it (R53, R250). -/
theorem engineFree.notBusy {c : Ctx} (h : engineFree c) : c.engineBusy = false := by
  obtain ⟨hidle, hchain⟩ := h
  rw [Ctx.engineBusy, hidle, hchain]
  rfl

/-- Accumulator `n` cleared where the mask of `czero` names it (R251). -/
def State.zeroNamed (part pt : Nat) (m : BitVec 4) (s : State) (n : Nat) : State :=
  if m.getLsbD n then s.setAccum (accumLoc part pt n) Accum.zero else s

theorem State.zeroAccums_eq (s : State) (part pt : Nat) (m : BitVec 4) :
    s.zeroAccums part pt m = (List.range 4).foldl (State.zeroNamed part pt m) s := rfl

/-- The mask names accumulator `n`, and address `a` lies in it or in its checksums (R245). -/
def inNamed (part pt : Nat) (m : BitVec 4) (a n : Nat) : Bool :=
  m.getLsbD n && decide (accumLoc part pt n ≤ a ∧ a < accumLoc part pt n + accumSize)

section
variable (part : Nat) {pt : Nat} (hpt : pt < 16) (m : BitVec 4)
include hpt

/-- What `czero` does with one accumulator. -/
theorem State.zeroNamed_clears (s : State) {n : Nat} (hn : n < 4) (hwf : s.mem.wf = true) :
    let t := s.zeroNamed part pt m n
    t.warps = s.warps ∧ t.mem.wf = true ∧ ∀ a, t.mem.get a = if inNamed part pt m a n then 0 else s.mem.get a := by
  intro t
  cases hm : m.getLsbD n with
  | false =>
    have ht : t = s := if_neg (Bool.eq_false_iff.mp hm)
    simp [ht, hwf, inNamed, hm]
  | true =>
    have ht : t = s.setAccum (accumLoc part pt n) Accum.zero := if_pos hm
    obtain ⟨hmem, hwarps⟩ := State.clearAccum s part hpt hn
    rw [ht, hmem, hwarps]
    refine ⟨rfl, Memory.wf_write _ _ _ hwf, fun a => ?_⟩
    rw [Memory.get_write_zeros hwf]
    simp [inNamed, hm]

/-- The accumulators of a list cleared one after another: what one of them clears stays zero. -/
theorem State.foldl_zeroNamed_clears (ns : List Nat) : ∀ s : State, (∀ n ∈ ns, n < 4) → s.mem.wf = true →
    let t := ns.foldl (State.zeroNamed part pt m) s
    t.warps = s.warps ∧ ∀ a, t.mem.get a = if ns.any (inNamed part pt m a) then 0 else s.mem.get a := by
  induction ns with
  | nil => exact fun s _ _ => ⟨rfl, fun _ => rfl⟩
  | cons n ns ih =>
    intro s hns hwf
    obtain ⟨hn, hrest⟩ := List.forall_mem_cons.mp hns
    obtain ⟨hwarps, hwf1, hget⟩ := State.zeroNamed_clears part hpt m s hn hwf
    obtain ⟨hwarpsRest, hgetRest⟩ := ih _ hrest hwf1
    refine ⟨hwarpsRest.trans hwarps, fun a => (hgetRest a).trans ?_⟩
    rw [hget a, List.any_cons]
    cases inNamed part pt m a n <;> simp

/-- `czero` clears the bytes of the accumulators that it names, and no other byte (R251). -/
theorem State.zeroAccums_clears (s : State) (hwf : s.mem.wf = true) :
    (s.zeroAccums part pt m).warps = s.warps
      ∧ (∀ n k, n < 4 → m.getLsbD n = true → k < accumSize → (s.zeroAccums part pt m).mem.get (accumLoc part pt n + k) = 0)
      ∧ ∀ a, (∀ n, n < 4 → m.getLsbD n = true → a < accumLoc part pt n ∨ accumLoc part pt n + accumSize ≤ a) →
        (s.zeroAccums part pt m).mem.get a = s.mem.get a := by
  obtain ⟨hwarps, hget⟩ := State.foldl_zeroNamed_clears part hpt m (List.range 4) s (fun _ => List.mem_range.mp) hwf
  rw [← State.zeroAccums_eq] at hwarps hget
  refine ⟨hwarps, fun n k hn hm hk => ?_, fun a ha => ?_⟩
  · have hin : inNamed part pt m (accumLoc part pt n + k) n = true := by simp [inNamed, hm, hk]
    rw [hget, if_pos (List.any_eq_true.mpr ⟨n, List.mem_range.mpr hn, hin⟩)]
  · have hout : ¬ (List.range 4).any (inNamed part pt m a) = true := by
      intro h
      obtain ⟨n, hn, hin⟩ := List.any_eq_true.mp h
      simp only [inNamed, Bool.and_eq_true, decide_eq_true_eq] at hin
      obtain ⟨hm, hinside⟩ := hin
      have hapart := ha n (List.mem_range.mp hn) hm
      omega
    rw [hget, if_neg hout]

end

/-- `czero` with a free engine finishes, clears its accumulators and occupies the engine (R250, R251). -/
theorem exec_czero {m : BitVec 4} {s : State} {c : Ctx} (hr : ready (.czero m) s = some c) (hfree : engineFree c) :
    exec (.czero m) s = .next (((c.finish id).zeroAccums c.w.part c.pt m).occupy c.engineAt []) :=
  (issue_ready hr _).trans (congrArg _ (if_neg (Bool.eq_false_iff.mp hfree.notBusy)))

/-- Settles O20: the accumulators are cleared in the state that `czero` finishes in, whose memory is that of its start. -/
theorem czeroClears : Obligations.CzeroClears := by
  intro m s c hr hfree hwf
  have g := issued_of_ready hr
  have hmem : (c.finish id).mem = s.mem := g.st ▸ (c.finish_only id).mem
  have hpt : c.pt < 16 := Nat.mod_lt _ (by decide)
  obtain ⟨hwarps, hzero, hkeep⟩ := State.zeroAccums_clears c.w.part hpt m (c.finish id) (hmem ▸ hwf)
  refine ⟨_, exec_czero hr hfree, ?warp, State.occupy_engine .., hzero, fun a ha => (hkeep a ha).trans (by rw [hmem])⟩
  rw [State.occupy_warps, hwarps]
  exact (g.plain rfl rfl).finish id

end Sys2Proof.Machine
end

section
/-! PROOF. O33. `wdrun` starts its weight chain, or takes the trap of a misaligned block (R260-R262). -/

namespace Sys2Proof.Machine

/-- `wdrun` with a free engine and no tile of its partition in motion looks at the address of its first block (R260, R261). -/
theorem exec_wdrun {d : Fin 63} {a b : SOp} {k : Word} {s : State} {c : Ctx} (hr : ready (.wdrun ⟨.s d, a, b, k⟩) s = some c)
    (hfree : engineFree c) (htiles : c.tilesMove = false) : exec (.wdrun ⟨.s d, a, b, k⟩) s =
      .next (if (c.sv64 a).toNat % 64 != 0 then c.raise 0x03 (c.sv64 a) else c.wait (.chain (c.sv64 a) 0 (c.sv b) d)) := by
  have hgo : ¬ (c.engineBusy || c.tilesMove) = true := by rw [hfree.notBusy, htiles]; decide
  exact (issue_ready hr _).trans (congrArg _ (if_neg hgo))

/-- Settles O33: the block's alignment decides between the chain and the trap. -/
theorem wdrunStartsAChain : Obligations.WdrunStartsAChain := by
  intro d a b k s c hr hfree htiles
  have g := issued_of_ready hr
  have hexec := exec_wdrun hr hfree htiles
  refine ⟨fun haligned => ?_, fun hmisaligned hh => ?_⟩
  · rw [haligned] at hexec
    exact waits_of_wait g hexec
  · rw [if_pos (bne_iff_ne.mpr hmisaligned)] at hexec
    exact leadsFrom_raise hr (g.noSlice rfl) hh hexec

end Sys2Proof.Machine
end

section
/-! SUPPORT. The table of instances: what an event makes of one of them, and what the requests of its ports and of its end leave of all
(R104, R272, R287, R411). -/

namespace Sys2Proof.Machine

/-! ## The table of instances -/

theorem aside_insts {s t : State} (h : t.aside = s.aside) : t.insts = s.insts := by have e := congrArg State.insts h; exact e

theorem unwritten_insts {s t : State} (h : t.unwritten = s.unwritten) : t.insts = s.insts := by have e := congrArg State.insts h; exact e

theorem tmod_const {α : Type} {t : Tab α} {k : Nat} {v : α} (h : tget t k = some v) : tmod t k (fun _ => v) = t := by
  induction t with
  | nil => rfl
  | cons p r ih =>
    obtain ⟨j, u⟩ := p
    simp only [tget, tmod] at h ⊢
    split at h
    · rw [if_pos ‹_›, Option.some.inj h]
    · rw [if_neg ‹_›, ih h]

section
variable {s : State} {n : Nat} {i : Inst} (h : tget s.insts n = some i)
include h

theorem State.modInst_const : s.modInst n (fun _ => i) = s := by rw [State.modInst, tmod_const h]

theorem State.tget_modInst (f : Inst → Inst) : tget (s.modInst n f).insts n = some (f i) := tget_tmod_of_some f h

theorem State.onPlaced_of_placed (hp : s.placed i = true) (f : Inst → State) : s.onPlaced n f = f i := by simp [State.onPlaced, h, hp]

theorem State.onInst_of_runs (hr : s.runs i = true) (f : Inst → State) : s.onInst n f = f i := by simp [State.onInst, h, hr]

end

/-- Where the units of an `Inst` fire, it is placed (R411). -/
theorem State.placed_of_runs {s : State} {i : Inst} (h : s.runs i = true) : s.placed i = true := (Bool.and_eq_true_iff.mp h).1

/-- A fold whose steps keep memory and what `g` sees of the `Inst` of number `n` keeps both. -/
theorem foldl_keepsInst {α β : Type} (g : Inst → α) (n : Nat) {f : State → β → State} (hmem : ∀ t b, (f t b).mem = t.mem)
    (hinst : ∀ t b, (tget (f t b).insts n).map g = (tget t.insts n).map g) (l : List β) {s : State} {i : Inst}
    (h : tget s.insts n = some i) : (l.foldl f s).mem = s.mem ∧ ∃ j, tget (l.foldl f s).insts n = some j ∧ g j = g i := by
  have hkeeps := foldl_keeps (fun t => (tget t.insts n).map g) hinst l s
  simp only [h, Option.map_some, Option.map_eq_some_iff] at hkeeps
  exact ⟨foldl_keeps State.mem hmem l s, hkeeps⟩

/-! ## Accesses of ports and reads of images -/

theorem State.portPlace_aside (s : State) (i : Inst) (need : Need) (va : DWord) : (s.portPlace i need va).1.aside = s.aside := by
  unfold State.portPlace
  grind [State.translate_aside]

theorem State.portPlace_insts {s s1 : State} {i : Inst} {need : Need} {va : DWord} {r : Except (BitVec 8) Place}
    (h : s.portPlace i need va = (s1, r)) : s1.insts = s.insts := by
  have haside := s.portPlace_aside i need va
  rw [h] at haside
  exact aside_insts haside

theorem State.portRead_aside (s : State) (p : Place) (n : Nat) : (s.portRead p n).1.aside = s.aside := by
  unfold State.portRead
  grind [State.mscAccess_aside, State.meet_aside]

theorem State.imagePieces_aside (i : Inst) (n : Nat) : ∀ (s : State) (va : DWord), (s.imagePieces i va n).1.aside = s.aside := by
  induction n with
  | zero => exact fun _ _ => rfl
  | succ n ih =>
    intro s va
    unfold State.imagePieces
    (repeat' split) <;> grind [State.portPlace_aside, State.portRead_aside]

theorem State.fetchImage_aside (s : State) (i : Inst) : (s.fetchImage i).1.aside = s.aside := by
  unfold State.fetchImage
  grind [State.imagePieces_aside]

/-- Reading an image changes the cache, and what its requests may change (R287). -/
theorem State.imageBytes_insts {s s1 : State} {i : Inst} {r : Option (List Byte)} (h : s.imageBytes i = (s1, r)) : s1.insts = s.insts := by
  have hfetch := aside_insts (s.fetchImage_aside i)
  unfold State.imageBytes at h
  grind

/-! ## The barrier word and the banks -/

theorem State.raiseBarrier_unwritten (s : State) (slot : Fin 8) (stack va : Nat) :
    (s.raiseBarrier slot stack va).unwritten = s.unwritten := by
  have hwalk := unwritten_of_aside (s.ctxWalk_aside slot va)
  unfold State.raiseBarrier
  split
  case h_1 s1 heq =>
    rw [heq] at hwalk
    exact hwalk
  case h_2 s1 p heq =>
    rw [heq] at hwalk
    refine Eq.trans ?_ hwalk
    have hreg (v : Nat) : ∀ k, k < (leBytes 8 v).length → locReg (p.loc + k) = none := fun k hk =>
      State.ctxWalk_locReg heq (by rw [leBytes_length] at hk; omega)
    have hread : (((s1.ask p).2.ioRequest p).readAt (s1.ask p).1 8).2.unwritten = s1.unwritten := unwritten_of_aside (by simp)
    split
    · rfl
    · split
      · rfl
      · dsimp only
        split
        case h_1 bs s2 heq2 =>
          rw [heq2] at hread
          exact (State.writeAt_unwritten (hreg _) s2).trans hread
        case h_2 s2 _ heq2 =>
          rw [heq2] at hread
          exact (State.storeLost_unwritten (by rw [State.ask_loc]; exact hreg _) s2).trans hread

theorem State.zeroBank_insts (s : State) (slot : Fin 8) (stack tile : Nat) : (s.zeroBank slot stack tile).insts = s.insts := rfl

end Sys2Proof.Machine
end

section
/-! SUPPORT. What the control tokens of instances and the start of their ports leave: state, image and region (R270, R280, R291). -/

namespace Sys2Proof.Machine

/-- Where an `Inst` stands: its state, its image and the lowest slab of its region. -/
def Inst.site (i : Inst) : InstState × Option Image × Nat := (i.state, i.img, i.base)

theorem Inst.site_eq {i : Inst} {st : InstState} {m : Option Image} {b : Nat} :
    i.site = (st, m, b) ↔ i.state = st ∧ i.img = m ∧ i.base = b := by
  simp [Inst.site]

theorem Inst.startPort_site (i : Inst) (u : Nat) : (i.startPort u).site = i.site := by
  unfold Inst.startPort
  split <;> rfl

theorem Inst.trySwap_site (i : Inst) (u : Nat) : (i.trySwap u).site = i.site := by
  unfold Inst.trySwap
  split
  · rfl
  · split
    · split
      · exact Inst.startPort_site ..
      · rfl
    · rfl

theorem Inst.selectUnit_site (i : Inst) (c u : Nat) : (i.selectUnit c u).site = i.site := by
  unfold Inst.selectUnit
  split
  · rfl
  · split
    · rfl
    · split
      · rfl
      · exact Inst.trySwap_site ..

theorem Inst.external_site (i : Inst) (n v : Nat) : (i.external n v).site = i.site := by
  refine foldl_keeps Inst.site (fun j c => foldl_keeps Inst.site (fun x t => ?_) _ _) _ _
  split <;> rfl

theorem Inst.signal_site (i : Inst) (v : Word) : (i.signal v).site = i.site := by
  unfold Inst.signal
  split
  · exact foldl_keeps Inst.site (fun j u => j.selectUnit_site _ u) _ _
  · exact Inst.external_site ..

/-- What begins runs its image from its lowest slab on (R280). -/
theorem Inst.begin_site (i : Inst) (m : Image) (base clk : Nat) : (i.begin m base clk).site = (.running, some m, base) :=
  (foldl_keeps Inst.site (fun x v => x.signal_site v) _ _).trans (foldl_keeps Inst.site (fun x u => x.startPort_site u) _ _)

end Sys2Proof.Machine
end

section
/-! PROOF. O48, parts 1 and 2: instances start and end (R104, R280, R286, R287, R290, R309, R406, R410). -/

namespace Sys2Proof.Machine

/-! ## Start -/

/-- Banks handed over to an `Inst` change only what it holds and waits for (R281). -/
theorem State.takeBanks_site {s : State} {n : Nat} {j : Inst} (i : Inst) (h : tget s.insts n = some j) :
    (s.takeBanks n i).mem = s.mem ∧ ∃ x, tget (s.takeBanks n i).insts n = some x ∧ x.site = j.site := by
  refine foldl_keepsInst Inst.site n (fun t b => ?_) (fun t b => ?_) _ h
  · split <;> rfl
  · split
    · rfl
    · rw [State.modInst_insts, tget_tmod_self, Option.map_map]
      rfl

/-- What has its image accepted, and finds room, starts in the lowest free run of slabs (R280, R286). -/
theorem State.placeInst_starts {s : State} {n b : Nat} {i : Inst} {m : Image} (h : tget s.insts n = some i)
    (hfree : s.freeRun i.slot i.stack m.slabs = some b) (hallowed : s.slabsAllowed i.node m.slabs = true)
    (hbanks : (m.claims.any fun x => s.bankTaken i.slot i.stack (8 * b + x)) = false) :
    (s.placeInst n i m).mem = s.mem ∧ ∃ j, tget (s.placeInst n i m).insts n = some j ∧ j.site = (.running, some m, b) := by
  let j := i.begin m b (s.stackClocks i.stack)
  have hplace : s.placeInst n i m = (s.modInst n fun _ => j).takeBanks n j := by
    simp only [State.placeInst, hfree, hallowed, hbanks, Bool.not_true, Bool.or_self, Bool.false_eq_true, if_false, j]
  obtain ⟨hmem, x, hx, hsite⟩ := State.takeBanks_site j (State.tget_modInst h fun _ => j)
  exact hplace ▸ ⟨hmem, x, hx, hsite.trans (Inst.begin_site ..)⟩

/-- The oldest queued `Inst` of its array starts as its image decides (R287). -/
theorem exec_instanceStart {s s1 : State} {n : Nat} {i : Inst} {bs : List Byte} (h : tget s.insts n = some i)
    (hturn : s.onTurn i.slot = true) (hfirst : s.firstQueued i.slot i.stack = some n)
    (hbarred : ∀ x, tget s.nodes i.node = some x → s.barred i.node x = false) (hbytes : s.imageBytes i = (s1, some bs)) :
    exec (.decoftInstanceStart n) s = .next ((imageOf bs i.param).elim
      (s1.modInst n fun x => { x with faulted := true, cause := 0x01 }) (s1.placeInst n i)) := by
  have hnode : (tget s.nodes i.node).elim false (s.barred i.node) = false := by
    cases hx : tget s.nodes i.node with
    | none => rfl
    | some x => exact hbarred x hx
  refine congrArg Host.Outcome.next ?_
  simp only [instanceStart, h, hturn, hfirst, hnode, hbytes, Bool.not_true, bne_self_eq_false, Bool.or_self, Bool.false_eq_true, if_false]
  cases imageOf bs i.param <;> rfl

theorem instancesStart : InstancesStart := by
  intro s n i s1 bs h hturn hfirst hbarred hbytes
  have hexec := exec_instanceStart h hturn hfirst hbarred hbytes
  have h1 : tget s1.insts n = some i := (State.imageBytes_insts hbytes).symm ▸ h
  refine ⟨fun himage => ?_, fun m b himage hfree hallowed hbanks => ?_⟩
  · rw [himage] at hexec
    exact ⟨_, hexec, rfl, State.tget_modInst h1 _⟩
  · rw [himage] at hexec
    obtain ⟨hmem, j, hj, hsite⟩ := State.placeInst_starts h1 hfree hallowed hbanks
    obtain ⟨hstate, himg, hbase⟩ := Inst.site_eq.mp hsite
    exact ⟨_, j, hexec, hj, hstate, himg, hbase, hmem⟩

/-! ## End -/

/-- The record of an end and the barrier word leave the table of instances; then the `Inst` ends (R290). -/
theorem State.endInst_ended {s : State} {n : Nat} {i : Inst} (h : tget s.insts n = some i) (st : Nat) :
    ∃ j, tget (s.endInst n i st).insts n = some j ∧ j.state = .ended ∧ j.aborted = i.aborted ∧ j.faulted = (st == 2)
      ∧ j.cause = (if st = 2 then i.cause else 0) ∧ j.banksHeld = [] ∧ j.units = [] ∧ j.clocks = s.clocksOf i := by
  have hlen : (i.record st (s.clocksOf i)).length ≤ 2 ^ 42 := by simp [Inst.record, leBytes_length]
  have hwritten := (State.raiseBarrier_unwritten _ i.slot i.stack i.barrier.toNat).trans
    (s.storeVa_unwritten i.slot (i.param.toNat + 64 * i.stack) (some (arrayMaster i.stack)) hlen)
  have hbanks := foldl_keeps State.insts (fun t (b : Nat × Nat) => t.zeroBank_insts i.slot i.stack b.2) i.banksHeld
  refine ⟨_, State.tget_modInst (i := i) ?_ _, rfl, rfl, rfl, rfl, rfl, rfl, rfl⟩
  rw [hbanks, unwritten_insts hwritten, h]

theorem exec_instanceComplete {s : State} {n : Nat} {i : Inst} {st : Nat} (h : tget s.insts n = some i) (hturn : s.onTurn i.slot = true)
    (hrecord : s.pageMoves i.slot (i.param.toNat + 64 * i.stack) 64 = false) (hword : s.pageMoves i.slot i.barrier.toNat 8 = false)
    (hend : i.ending = some st) : exec (.instanceComplete n) s = .next (s.endInst n i st) := by
  refine congrArg Host.Outcome.next ?_
  simp only [instanceComplete, h, hturn, hrecord, hword, hend, Bool.not_true, Bool.or_self, Bool.false_eq_true, if_false]

/-- In the running slot the clocks count the one of the end (R290; log 31). -/
theorem State.clocksOf_running {s : State} {i : Inst} (hturn : s.onTurn i.slot = true) (hstate : i.state = .running) :
    s.clocksOf i = i.clocks + s.ranFor i + 1 := by
  have hslot : (s.running == some i.slot) = true := (Bool.and_eq_true_iff.mp hturn).1
  simp [State.clocksOf, hstate, hslot]

theorem instancesEnd : InstancesEnd := by
  refine ⟨fun s n i st h hturn hrecord hword hend => ?_, fun i => ⟨?_, ?_, ?_, ?_⟩⟩
  · obtain ⟨j, hj, hstate, haborted, hfaulted, hcause, hheld, hunits, hclocks⟩ := State.endInst_ended h st
    exact ⟨_, j, exec_instanceComplete h hturn hrecord hword hend, hj, hstate, haborted, hfaulted, hcause, hheld, hunits,
      fun hrun => hclocks.trans (State.clocksOf_running hturn hrun)⟩
  · intro hstate haborted
    simp [Inst.ending, hstate, haborted]
  · intro hstate haborted hfaulted hcomplete
    simp [Inst.ending, hstate, haborted, hfaulted, hcomplete]
  · intro hstate haborted hfaulted hcomplete
    simp [Inst.ending, hstate, haborted, hfaulted, hcomplete]
  · intro hstate haborted hfaulted hstuck
    simp [Inst.ending, hstate, haborted, hfaulted, hstuck]

end Sys2Proof.Machine
end

section
/-! PROOF. O48, part 3: units fire, and what a token of elements carries (R267, R268, R296-R298, R401). -/

namespace Sys2Proof.Machine

/-! ## Tokens of elements (R267, R268) -/

/-- Elements packed side by side take no more bits than they have together. -/
theorem packEls_lt (b : Nat) (xs : List Nat) : packEls b xs < 2 ^ (b * xs.length) := by
  induction xs with
  | nil => exact Nat.one_pos
  | cons x r ih =>
    have hx : x % 2 ^ b < 2 ^ b := Nat.mod_lt _ (Nat.two_pow_pos b)
    have hr : 2 ^ b * (packEls b r + 1) ≤ 2 ^ b * 2 ^ (b * r.length) := Nat.mul_le_mul_left _ ih
    rw [packEls, List.length_cons, Nat.mul_succ, Nat.add_comm (b * r.length), Nat.pow_add]
    rw [Nat.mul_succ] at hr
    omega

/-- Each element is found at its place among the packed ones. -/
theorem packEls_nth (b : Nat) {xs : List Nat} : ∀ {i : Nat} (h : i < xs.length), nth (packEls b xs) i b = xs[i] % 2 ^ b := by
  induction xs with
  | nil => nofun
  | cons x r ih =>
    intro i h
    cases i with
    | zero => simp [nth, packEls]
    | succ i =>
      rw [List.getElem_cons_succ, ← ih (Nat.lt_of_succ_lt_succ h), nth, nth, Nat.mul_succ, Nat.add_comm (b * i), Nat.pow_add,
        ← Nat.div_div_eq_div_mul, packEls, Nat.add_mul_div_left _ _ (Nat.two_pow_pos b),
        Nat.div_eq_of_lt (Nat.mod_lt _ (Nat.two_pow_pos b)), Nat.zero_add]

/-- The elements of a token fill its payload (R268). -/
theorem elBits_mul_elCount {w : Nat} (hw : w ≤ 2) : elBits w * elCount w = 256 := by
  interval_cases w <;> rfl

/-- The payload of a data token is its elements side by side. -/
theorem dataToken_payload {w : Nat} {xs : List Nat} (hw : w ≤ 2) (hlen : xs.length ≤ elCount w) :
    (dataToken w xs).payload.toNat = packEls (elBits w) xs := by
  refine BitVec.toNat_ofNat .. ▸ Nat.mod_eq_of_lt ((packEls_lt (elBits w) xs).trans_le (Nat.pow_le_pow_right Nat.two_pos ?_))
  exact (Nat.mul_le_mul_left _ hlen).trans_eq (elBits_mul_elCount hw)

/-- A data token carries its elements. -/
theorem dataToken_valid {w : Nat} {xs : List Nat} (hw : w ≤ 2) (hlen : xs.length ≤ elCount w) :
    (dataToken w xs).valid w = xs.map (· % 2 ^ elBits w) := by
  have hfill : (dataToken w xs).fill = xs.length := rfl
  rw [Token.valid, Token.els, dataToken_payload hw hlen, hfill, ← List.map_take, List.take_range, Nat.min_eq_left hlen]
  refine List.ext_getElem (by simp) fun i hi _ => ?_
  simp only [List.getElem_map, List.getElem_range]
  exact packEls_nth _ _

/-- A token that is made has good residues, on whatever channel it is sent (R267, R401). -/
theorem Token.make_error (kind : BitVec 2) (lev : BitVec 4) (fill payload : Nat) (r : BitVec 6) :
    ({ Token.make kind lev fill payload with route := r } : Token).error r = none := by
  simp [Token.error, Token.make]

/-! ## Firing (R296-R298) -/

theorem Inst.firing_at {i : Inst} {u : Nat} {x : Firing} (h : i.firing u = some x) : x.i = i ∧ x.u = u := by
  unfold Inst.firing at h
  split at h
  · cases h
  · split at h
    · cases h
    · obtain ⟨r, _, rfl⟩ := Option.map_eq_some_iff.mp h
      exact ⟨rfl, rfl⟩

/-- Data at every input is consumed together (R296). -/
theorem Firing.joined_data {x : Firing} {hs : List (Nat × Token)} (hheads : x.heads x.e.pins = some hs) (hne : hs ≠ [])
    (hdata : ∀ h ∈ hs, h.2.kind = 0) (data : List (Nat × Token) → Inst → FireOut) (mark : BitVec 4 → Inst → FireOut) :
    x.joined data mark = data hs (x.i.consumeAll x.u x.e.pins) := by
  have hround : (hs.any fun h => h.2.kind == 2) = false := List.any_eq_false.mpr fun h hh => by simp [hdata h hh]
  have hall : (hs.all fun h => h.2.kind == 0) = true := List.all_eq_true.mpr fun h hh => by simp [hdata h hh]
  simp only [Firing.joined, hheads, hround, hall, List.isEmpty_eq_false_iff.mpr hne, Bool.or_self, Bool.false_eq_true, if_false, if_true]

/-- The operators below those with a form of their own are element-wise (R298). -/
theorem Firing.act_elementwise {x : Firing} (h : x.e.op < 0x1A) : x.act = x.elementwise := by
  unfold Firing.act
  split
  case h_13 => rfl
  all_goals omega

/-- A firing that sends a result and no marker moves the sequencer on (R297). -/
theorem Firing.turn_done {x : Firing} {j : Inst} {ctl : Option Nat} (hbk : x.e.bk ≠ 2) (hupset : x.st.upset = false)
    (hact : x.act = .done j ctl none) : x.turn = (x.after j ctl, none) := by
  have hfire : x.fire = .done j ctl none := by rw [Firing.fire, hact]
  simp only [Firing.turn, if_neg hbk, hfire, hupset, Bool.false_eq_true, if_false]

/-- A faulted unit does nothing (R406). -/
theorem Inst.fuTurn_dead {i : Inst} {u : Nat} (h : i.live u = false) : i.fuTurn u = (i, none) := by
  rw [Inst.fuTurn, h]
  rfl

section
variable {i : Inst} {u : Nat} (hlive : i.live u = true)
include hlive

/-- A damaged token at an input starts a replay (R401). -/
theorem Inst.fuTurn_damaged {c : BitVec 8} (h : i.inputError u = some c) : i.fuTurn u = (i.replayAll u c, none) := by
  simp only [Inst.fuTurn, hlive, h, Bool.not_true, Bool.false_eq_true, if_false]

variable (hsound : i.inputError u = none) (hstill : (i.answer u).absorb u = i) {x : Firing} (hfiring : i.firing u = some x)
  (hbranch : x.st.branch = false) (hbk : x.e.bk ≠ 2)
include hsound hstill hfiring hbranch hbk

/-- The turn of a unit that neither takes a branch nor decides a guard: its entry fires unless it has finished, the bank network holds
tokens of it, or an output does not accept (R296). -/
theorem Inst.fuTurn_entry : i.fuTurn u =
    if (i.finished u x.st || ((tget i.bankWork u).isSome && !x.e.banks)) = true then (i, none)
    else if (!i.accepts u x.e.outs) = true then (i, none) else x.turn := by
  simp only [Inst.fuTurn, hlive, hsound, Inst.soundTurn, hstill, hfiring, hbranch, hbk, decide_false, Bool.false_and, Bool.not_true,
    Bool.false_eq_true, if_false]

/-- Where an output does not accept, the unit waits (R296). -/
theorem Inst.fuTurn_held (haccepts : i.accepts u x.e.outs = false) : i.fuTurn u = (i, none) := by
  rw [Inst.fuTurn_entry hlive hsound hstill hfiring hbranch hbk, haccepts]
  exact ite_self _

/-- An element-wise entry with data at every input consumes it, and sends its results on every output (R296, R298). -/
theorem Inst.fuTurn_elementwise (hopen : i.finished u x.st = false) (hbanks : tget i.bankWork u = none) (hop : x.e.op < 0x1A)
    (haccepts : i.accepts u x.e.outs = true) (hupset : x.st.upset = false) {hs : List (Nat × Token)}
    (hheads : x.heads x.e.pins = some hs) (hne : hs ≠ []) (hdata : ∀ h ∈ hs, h.2.kind = 0) :
    let r := (List.range (fillOf hs)).map fun k =>
      fuElem x.e (x.src x.e.ew hs x.e.sa k) (x.src x.e.ew hs x.e.sb k) (x.src x.e.ew hs x.e.sc k)
    i.fuTurn u = (x.after ((i.consumeAll u x.e.pins).sendAll u x.e.outs (dataToken x.e.ew (r.map (·.1))))
      (some (if ownControl x.e.op then (if r.any (·.2) then 1 else 0) else 1)), none) := by
  intro r
  obtain ⟨rfl, rfl⟩ := Inst.firing_at hfiring
  rw [Inst.fuTurn_entry hlive hsound hstill hfiring hbranch hbk, hopen, hbanks, haccepts]
  exact Firing.turn_done hbk hupset ((Firing.act_elementwise hop).trans (Firing.joined_data hheads hne hdata _ _))

end

theorem unitsFire : UnitsFire := by
  refine ⟨fun s n u i h hruns => congrArg Host.Outcome.next (State.onInst_of_runs h hruns _), ?_, fun i u => Inst.fuTurn_dead,
    fun i u c hlive => Inst.fuTurn_damaged hlive, ?_, ?_⟩
  · intro i u x hs hlive hsound hstill hfiring hopen hbanks hbranch hbk hop haccepts hupset hheads hne hdata
    exact Inst.fuTurn_elementwise hlive hsound hstill hfiring hbranch hbk hopen hbanks hop haccepts hupset hheads hne hdata
  · intro i u x hlive hsound hstill hfiring hbranch hbk haccepts
    exact Inst.fuTurn_held hlive hsound hstill hfiring hbranch hbk haccepts
  · intro w xs r hw hlen
    exact ⟨dataToken_valid hw hlen, Token.make_error ..⟩

end Sys2Proof.Machine
end

section
/-! PROOF. O48, parts 4 and 5: tokens arrive, and bank tiles serve (R268, R271, R279, R304, R401, R402, R405, R409). -/

namespace Sys2Proof.Machine

/-! ## Receivers of a channel (R271) -/

theorem Chan.intake_modIn {c : Chan} (k : Nat) (f : Intake → Intake) {j : Nat} (hj : j < c.ins.length) :
    (c.modIn k f).intake j = if j = k then f (c.intake j) else c.intake j := by
  simp [Chan.intake, Chan.modIn, hj]

/-- Of some receivers, each once, those change; the rest stay. -/
theorem Chan.intake_foldl_modIn (f : Intake → Intake) {j : Nat} {ks : List Nat} (hks : ks.Nodup) : ∀ {c : Chan}, j < c.ins.length →
    (ks.foldl (fun (x : Chan) k => x.modIn k f) c).intake j = if j ∈ ks then f (c.intake j) else c.intake j := by
  induction ks with
  | nil => exact fun _ => rfl
  | cons k r ih =>
    intro c hj
    obtain ⟨hk, hr⟩ := List.nodup_cons.mp hks
    have hj' : j < (c.modIn k f).ins.length := by simpa [Chan.modIn] using hj
    rw [List.foldl_cons, ih hr hj', Chan.intake_modIn k f hj]
    by_cases hjk : j = k
    · subst hjk
      simp [hk]
    · simp [hjk]

theorem Chan.dealtTo_nodup (c : Chan) (p : Nat) (t : Token) : (c.dealtTo p t).Nodup := by
  unfold Chan.dealtTo
  split
  · exact List.nodup_singleton p
  · exact List.nodup_range

/-- The receivers of a data token are the one whose turn it is; those of any other token are all (R271). -/
theorem Chan.mem_dealtTo {c : Chan} {p j : Nat} {t : Token} (hj : j < c.ins.length) : j ∈ c.dealtTo p t ↔ t.kind ≠ 0 ∨ j = p := by
  unfold Chan.dealtTo
  split
  · next h => simp [h]
  · next h => exact iff_of_true (List.mem_range.mpr hj) (.inl h)

/-- A token arrives at its receivers (R271, R405). -/
theorem Chan.intake_arrive {c : Chan} (t : Token) {j : Nat} (hj : j < c.ins.length) :
    (c.arrive t).intake j = if t.kind ≠ 0 ∨ j = c.deal then (c.intake j).receive t else c.intake j :=
  (Chan.intake_foldl_modIn (Intake.receive t) (c.dealtTo_nodup c.deal t) hj).trans (if_congr (Chan.mem_dealtTo hj) rfl rfl)

/-! ## Transit (R401, R402) -/

theorem Inst.chan_setChan (i : Inst) (k : Nat) (c : Chan) : (i.setChan k c).chan k = c := by
  simp [Inst.chan, Inst.setChan, tget_tset_self]

theorem Inst.chan_arrive (i : Inst) (k : Nat) (r : Route) (c : Chan) (t : Token) : (i.arrive k r c t).chan k = c.arrive t := by
  refine Eq.trans ?_ (i.chan_setChan k (c.arrive t))
  simp only [Inst.arrive]
  split <;> rfl

/-- The oldest token in transit is checked, and passed on or not (R401). -/
theorem exec_tokenTransit {s : State} {n k : Nat} {i : Inst} {r : Route} {t : Token} {ts : List Token} (h : tget s.insts n = some i)
    (hruns : s.runs i = true) (hroute : i.routeAt k = some r) (htransit : (i.chan k).transit = t :: ts)
    (hlive : i.live r.su = true ∨ i.live r.du = true) : exec (.tokenTransit n k) s = .next ((t.error r.rid).elim
      ((s.modInst n fun _ => i.arrive k r { i.chan k with transit := ts } t).baseEvent i.stack 2)
      fun cause => s.withReplay n i (i.replayAll r.du cause)) := by
  have hacts : ¬ (!i.live r.su && !i.live r.du) = true := by rcases hlive with h | h <;> simp [h]
  refine congrArg Host.Outcome.next ((State.onInst_of_runs h hruns _).trans ?_)
  simp only [hroute, htransit, if_neg hacts]
  cases t.error r.rid <;> rfl

theorem tokensArrive : TokensArrive := by
  refine ⟨fun s n k i r t ts h hruns hroute htransit hlive => ?_, fun c t j hj => ⟨Chan.intake_arrive t hj, ?_, ?_⟩⟩
  · have hexec := exec_tokenTransit h hruns hroute htransit hlive
    refine ⟨fun hgood => ?_, fun c hbad => ?_⟩
    · rw [hgood] at hexec
      exact ⟨_, _, hexec, State.tget_modInst h _, Inst.chan_arrive .., rfl⟩
    · rw [hbad] at hexec
      exact hexec
  · exact fun hkind => if_pos hkind
  · intro hkind
    simp [Chan.arrive, Chan.dealNext, hkind]

/-! ## Bank tiles (R279, R304) -/

/-- The words of an array's bank tiles lie in no register row. -/
theorem locReg_bankLoc (slot stack : Nat) {tile off k : Nat} (htile : tile < 64) (hoff : off + k < 0x20000) :
    locReg (bankLoc slot stack tile off + k) = none := by
  rw [bankLoc, onchip, Nat.add_assoc]
  exact locReg_onchip (kind := 3) (id := slot * 32 + stack) (by decide) (by decide) (by omega)

/-- A bank's turn, where its word has good check bits (R304). -/
theorem exec_bankAccess {s : State} {n bank u tile : Nat} {i : Inst} {q : BankReq} (h : tget s.insts n = some i)
    (hplaced : s.placed i = true) (hturn : i.bankTurn bank = some u) (hreq : ((i.bankQueue u).find? fun q => q.bank == bank) = some q)
    (hheld : (i.banksHeld.find? fun b => b.1 == bank) = some (bank, tile)) (hgood : s.bad = []) :
    let a := bankLoc i.slot.val i.stack tile (q.word * 4)
    let old := BitVec.ofNat 32 (s.load a 4)
    exec (.bankAccess n bank) s =
      .next ((if q.op = .read then s else s.store a (leBytes 4 (q.result old).toNat)).modInst n fun x => x.served u bank old) := by
  refine congrArg Host.Outcome.next ((State.onPlaced_of_placed h hplaced _).trans ?_)
  simp only [hturn, hreq, hheld, State.badIn_nil hgood, Bool.and_false, Bool.false_eq_true, if_false, beq_iff_eq]

/-- Where one unit asks a bank, it has the turn. -/
theorem Inst.bankTurn_one {i : Inst} {bank u : Nat} (h : i.asking bank = [u]) : i.bankTurn bank = some u := by
  have hnext (v : Nat) : nextAfter v [u] = u := by
    unfold nextAfter
    by_cases hv : v < u <;> simp [hv, leastOf]
  unfold Inst.bankTurn
  rw [h]
  cases tget i.bankLast bank with
  | none => rfl
  | some v => exact congrArg some (hnext v)

/-- Of two units that ask a bank, the one that it did not serve last has the turn (R279). -/
theorem Inst.bankTurn_two {i : Inst} {bank u v : Nat} (h : i.asking bank = [u, v]) (huv : u < v) :
    (tget i.bankLast bank = some u → i.bankTurn bank = some v) ∧ (tget i.bankLast bank = some v → i.bankTurn bank = some u) := by
  have hvu := huv.not_gt
  constructor <;> intro hlast
  · simp [Inst.bankTurn, h, hlast, nextAfter, huv, leastOf]
  · simp [Inst.bankTurn, h, hlast, nextAfter, hvu, leastOf, huv.le]

theorem banksServe : BanksServe := by
  refine ⟨fun s n bank u tile i q h hplaced hturn hreq hheld htile hword hclean => ?_,
    fun i bank u v => ⟨Inst.bankTurn_one, Inst.bankTurn_two⟩⟩
  intro a old
  have hreg : ∀ k, k < (leBytes 4 (q.result old).toNat).length → locReg (a + k) = none := fun k hk =>
    locReg_bankLoc _ _ htile (by rw [leBytes_length] at hk; omega)
  refine ⟨_, exec_bankAccess h hplaced hturn hreq hheld hclean.words, State.tget_modInst ?_ _, ?_⟩
  · rw [apply_ite State.insts, unwritten_insts (State.store_unwritten s hreg), ite_self, h]
  · rw [State.modInst_mem, apply_ite State.mem, (State.store_writes hreg (.inr hclean.words)).1]

end Sys2Proof.Machine
end

section
/-! SUPPORT. Stream ports: what a returned read becomes, what is sent of it, and what sending leaves of the ports (R268, R273, R290,
R403). -/

namespace Sys2Proof.Machine

/-! ## Sending leaves the ports and what the units select -/

/-- The ports of an `Inst`, and the context that a unit has selected. -/
def Inst.pending (i : Inst) (v : Nat) : Tab PortSt × Option Nat := (i.ports, (tget i.units v).bind (·.select))

theorem Inst.modUnit_pending (i : Inst) (u : Nat) {f : UnitSt → UnitSt} (hf : ∀ s, (f s).select = s.select) (v : Nat) :
    (i.modUnit u f).pending v = i.pending v := by
  refine congrArg (Prod.mk i.ports) ?_
  by_cases hv : v = u
  · subst hv
    rw [Inst.modUnit, tget_tmod_self, Option.bind_map]
    exact Option.bind_congr fun s _ => hf s
  · rw [Inst.modUnit, tget_tmod_other _ _ _ _ hv]

theorem Inst.foldl_put_pending (k v : Nat) (ts : List Token) (i : Inst) :
    (ts.foldl (fun (x : Inst) t => x.put k t) i).pending v = i.pending v :=
  foldl_keeps (f := fun (x : Inst) t => x.put k t) (Inst.pending · v) (fun _ _ => rfl) ts i

theorem Inst.collect_pending (k v f : Nat) : ∀ i : Inst, (i.collect k f).pending v = i.pending v := by
  induction f with
  | zero => exact fun _ => rfl
  | succ f ih =>
    intro i
    unfold Inst.collect
    dsimp only
    split
    · rfl
    · split
      · exact (ih _).trans (Inst.foldl_put_pending ..)
      · split
        · exact ih _
        · rfl

theorem Inst.sendList_pending (i : Inst) (u pin v : Nat) (ts : List Token) : (i.sendList u pin ts).pending v = i.pending v := by
  unfold Inst.sendList
  dsimp only
  generalize hj : (if ts.any Token.final then i.modUnit u fun s => { s with finalOut := addNew pin s.finalOut } else i) = j
  have hfinal : j.pending v = i.pending v := by
    rw [← hj]
    split
    · exact Inst.modUnit_pending (f := fun s => { s with finalOut := addNew pin s.finalOut }) i u (fun _ => rfl) v
    · rfl
  refine Eq.trans ?_ hfinal
  split
  · rfl
  · split
    · exact Inst.foldl_put_pending ..
    · split
      · rfl
      · exact Inst.collect_pending ..

theorem Inst.originate_pending (i : Inst) (u pin v : Nat) (t : Token) : (i.originate u pin t).pending v = i.pending v := by
  unfold Inst.originate
  dsimp only
  generalize ((tget i.units u).bind fun s => tget s.sent pin).getD 0 + 1 = n
  have hsent : ((i.send u pin t).modUnit u fun s => { s with sent := tset s.sent pin n }).pending v = i.pending v :=
    (Inst.modUnit_pending (f := fun s => { s with sent := tset s.sent pin n }) _ u (fun _ => rfl) v).trans (i.sendList_pending ..)
  split
  · exact (Inst.sendList_pending ..).trans hsent
  · exact hsent

theorem Port.emit_pending (x : Port) (i : Inst) (t : Token) (v : Nat) : (x.emit i t).pending v = i.pending v := by
  unfold Port.emit
  split
  · exact Inst.originate_pending ..
  · exact Inst.sendList_pending ..

/-- A unit with no context selected stays in its context (R291). -/
theorem Inst.trySwap_unselected {i : Inst} {u : Nat} (h : (i.pending u).2 = none) : i.trySwap u = i := by
  unfold Inst.trySwap
  split
  · rfl
  · next s hs =>
    have hsel : s.select = none := by simpa [Inst.pending, hs] using h
    rw [hsel]

/-- A port notes its progress, and its unit, with no context selected, stays in its context. -/
theorem Inst.trySwap_modPort {i : Inst} {u : Nat} {old : PortSt} (h : (i.pending u).2 = none) (hport : tget i.ports u = some old)
    (st : PortSt) : tget ((i.modPort u fun _ => st).trySwap u).ports u = some st := by
  rw [Inst.trySwap_unselected (i := i.modPort u fun _ => st) h]
  exact tget_tmod_of_some _ hport

/-! ## Reads that return (R273, R289) -/

theorem State.bytesAt_add (s : State) (m n : Nat) : ∀ a, s.bytesAt a (m + n) = s.bytesAt a m ++ s.bytesAt (a + m) n := by
  induction m with
  | zero => intro a; rw [Nat.zero_add]; rfl
  | succ m ih =>
    intro a
    rw [Nat.add_right_comm, State.bytesAt, State.bytesAt, ih, List.cons_append, Nat.add_right_comm a 1 m]
    rfl

/-- Every element of a read can be read where no word is bad and no block is poisoned. -/
theorem readEls_sound {s : State} (hbad : s.bad = []) (hpoison : s.poison = []) (size n : Nat) :
    ∀ a, readEls s a size n = (s.bytesAt a (n * size), true) := by
  induction n with
  | zero => intro a; rw [Nat.zero_mul]; rfl
  | succ n ih =>
    intro a
    rw [readEls, State.unreadable_nil hbad hpoison, if_neg Bool.false_ne_true, ih, Nat.succ_mul, Nat.add_comm (n * size), State.bytesAt_add]

/-- A port's one pending read returns the bytes of its elements. -/
theorem Port.perform_one {x : Port} {s : State} {a n size : Nat} (hitems : x.st.items = [.read a n size none]) (hsize : 0 < size)
    (hbad : s.bad = []) (hpoison : s.poison = []) :
    x.perform s = ({ s with choices := s.choices + 1 }, [.read a n size (some (s.bytesAt a (n * size)))]) := by
  have hbytes : ({ s with choices := s.choices + 1 } : State).bytesAt a (n * size) = s.bytesAt a (n * size) :=
    State.bytesAt_tallied s (s.choices + 1) s.counters s.merging _ a
  have hreturned : Port.returned { s with choices := s.choices + 1 } a n size
      = ({ s with choices := s.choices + 1 }, [.read a n size (some (s.bytesAt a (n * size)))]) := by
    simp only [Port.returned, readEls_sound (s := { s with choices := s.choices + 1 }) hbad hpoison, hbytes, State.bytesAt_length,
      Nat.mul_div_cancel n hsize, if_true]
  have hks : returnable [.read a n size none] [] 0 = [0] := rfl
  simp only [Port.perform, hitems, hks, List.length_singleton, Nat.mod_one, List.getElem?_cons_zero, hreturned]
  rfl

/-! ## What is sent of it (R268, R273) -/

theorem elCount_pos (w : Nat) : 0 < elCount w := Nat.mul_pos (by decide) (Nat.two_pow_pos w)

section
variable {x : Port} {i : Inst} {buf : List Nat}

/-- Elements that fill a token go out where the channel accepts. -/
theorem Port.drain_full (f : Nat) (items : List PItem) (hfull : elCount x.width ≤ buf.length) (hroom : i.accepts x.u [0] = true) :
    x.drain (f + 1) i buf items
      = x.drain f (x.emit i (dataToken x.width (buf.take (elCount x.width)))) (buf.drop (elCount x.width)) items :=
  (if_pos hfull).trans (if_pos hroom)

/-- Where no token is full, the elements of the next read join those in hand. -/
theorem Port.drain_read (f : Nat) {a n size : Nat} {bs : List Byte} {r : List PItem} (hshort : buf.length < elCount x.width) :
    x.drain (f + 1) i buf (.read a n size (some bs) :: r) = x.drain f i (buf ++ unpackN size n bs) r :=
  if_neg hshort.not_ge

/-- Elements that fill no token stay in hand. -/
theorem Port.drain_short (f : Nat) (hshort : buf.length < elCount x.width) : x.drain f i buf [] = (i, [], buf, []) := by
  cases f with
  | zero => rfl
  | succ f => exact if_neg hshort.not_ge

/-- Of elements for fewer than two tokens, those that fill one go out, and the rest stay in hand. -/
theorem Port.drain_rest (f : Nat) (hroom : i.accepts x.u [0] = true) (hlen : buf.length < 2 * elCount x.width) :
    ∃ j, x.drain (f + 1) i buf [] = (j, [], buf.drop (buf.length / elCount x.width * elCount x.width), [])
      ∧ ∀ v, j.pending v = i.pending v := by
  by_cases hfull : elCount x.width ≤ buf.length
  · have hone : buf.length / elCount x.width = 1 := Nat.div_eq_of_lt_le (by omega) (by omega)
    rw [hone, Nat.one_mul, Port.drain_full f [] hfull hroom, Port.drain_short f (by rw [List.length_drop]; omega)]
    exact ⟨_, rfl, x.emit_pending i _⟩
  · rw [Nat.div_eq_of_lt (by omega), Nat.zero_mul, Port.drain_short _ (by omega)]
    exact ⟨i, rfl, fun _ => rfl⟩

/-- A read that has returned joins the elements in hand; those that fill a token go out, and the rest stay in hand (R273). -/
theorem Port.drain_returned (f : Nat) {a n size : Nat} {bs : List Byte} (hroom : i.accepts x.u [0] = true)
    (hlen : (buf ++ unpackN size n bs).length < 2 * elCount x.width) :
    ∃ j, x.drain (f + 2) i buf [.read a n size (some bs)] = (j, [],
        (buf ++ unpackN size n bs).drop ((buf ++ unpackN size n bs).length / elCount x.width * elCount x.width), [])
      ∧ ∀ v, j.pending v = i.pending v := by
  by_cases hfull : elCount x.width ≤ buf.length
  · rw [List.length_append] at hlen
    have hrest : (buf.drop (elCount x.width)).length < elCount x.width := by rw [List.length_drop]; omega
    have hone : (buf ++ unpackN size n bs).length / elCount x.width = 1 := by
      rw [List.length_append]
      exact Nat.div_eq_of_lt_le (by omega) (by omega)
    rw [hone, Nat.one_mul, Port.drain_full _ _ hfull hroom, Port.drain_read f hrest, Port.drain_short f,
      List.drop_append_of_le_length hfull]
    · exact ⟨_, rfl, x.emit_pending i _⟩
    · rw [List.length_append, List.length_drop]
      omega
  · rw [Port.drain_read _ (by omega)]
    exact Port.drain_rest f hroom hlen

end

/-! ## Markers that pass -/

theorem State.giveBank_mem (s : State) (slot : Fin 8) (stack tile : Nat) (tag : BitVec 8) :
    (s.giveBank slot stack tile tag).mem = s.mem := by
  unfold State.giveBank
  split <;> rfl

theorem State.passed_mem (s : State) (n u : Nat) (before : Inst) (mark : Option (BitVec 4)) : (s.passed n u before mark).mem = s.mem := by
  unfold State.passed
  split
  · rfl
  · refine foldl_keeps State.mem (fun t e => ?_) _ _
    split
    · rfl
    · exact State.giveBank_mem ..

theorem Port.passed_mem (x : Port) (s : State) (marks : List (BitVec 4)) : (x.passed s marks).mem = s.mem :=
  foldl_keeps State.mem (fun _ _ => State.passed_mem ..) marks s

end Sys2Proof.Machine
end

section
/-! PROOF. O48, part 6: stream ports act (R272-R275, R278, R403). -/

namespace Sys2Proof.Machine

/-- A port whose progress is noted has it. -/
theorem Port.put_at {x : Port} {s : State} {i : Inst} {old : PortSt} (h : tget s.insts x.n = some i) (hst : tget i.ports x.u = some old)
    (st : PortSt) : ∃ j, tget (x.put s st).insts x.n = some j ∧ tget j.ports x.u = some st :=
  ⟨_, State.tget_modInst h _, tget_tmod_of_some _ hst⟩

/-- A request at an MSC of clean memory leaves the instances, the bytes, and memory clean. -/
theorem State.mscAccess_keeps {s : State} (hc : Clean s) (p : Place) :
    (s.mscAccess p).insts = s.insts ∧ (s.mscAccess p).mem = s.mem ∧ Clean (s.mscAccess p) := by
  obtain ⟨k, cs, m, h⟩ := State.mscAccess_clean hc p true
  exact h ▸ ⟨rfl, rfl, hc.tallied k cs m⟩

section
variable {x : Port} {s : State} {i : Inst} {old : PortSt} (h : tget s.insts x.n = some i) (hst : tget i.ports x.u = some old)
  (hc : Clean s) (p : Place) (st : PortSt)
include h hst hc

/-- A port notes the progress of a read that it has issued: memory is as it was. -/
theorem Port.put_requested : (x.put (s.mscAccess p) st).mem = s.mem
    ∧ ∃ j, tget (x.put (s.mscAccess p) st).insts x.n = some j ∧ tget j.ports x.u = some st := by
  obtain ⟨hinsts, hmem, _⟩ := State.mscAccess_keeps hc p
  exact ⟨hmem, Port.put_at (hinsts.symm ▸ h) hst st⟩

/-- A port notes the progress of its write to the tiers: memory holds the bytes. -/
theorem Port.put_written {bs : List Byte} (hin : p.loc + bs.length ≤ physTop) :
    (x.put ((s.mscAccess p).store p.loc bs) st).mem = s.mem.write p.loc bs
      ∧ ∃ j, tget (x.put ((s.mscAccess p).store p.loc bs) st).insts x.n = some j ∧ tget j.ports x.u = some st := by
  obtain ⟨hinsts, hmem, hclean⟩ := State.mscAccess_keeps hc p
  have hreg : ∀ k, k < bs.length → locReg (p.loc + k) = none := fun k hk => locReg_phys (by omega)
  have hstore := (State.store_writes hreg (.inr hclean.words)).1
  rw [hmem] at hstore
  refine ⟨hstore, Port.put_at ?_ hst st⟩
  rw [unwritten_insts (State.store_unwritten _ hreg), hinsts, h]

end

section
variable {s : State} {n port : Nat} {i : Inst} {a : Apr} {st : PortSt} (h : PortActs s n port i a st)
include h

/-- The turn of a port is an event of the port as it stands. -/
theorem PortActs.onPort (f : Port → State → State) : i.onPort s n port f = f ⟨n, 512 + port, i, a, st⟩ s := by
  simp only [Inst.onPort, h.live, h.sound, h.rounds, State.modInst_const h.here, h.apr, h.st, h.isOpen, Bool.not_true, Bool.not_false,
    Bool.false_eq_true, if_false, if_true]

theorem PortActs.onTurn (f : Port → State → State) : s.onPort n port f = f ⟨n, 512 + port, i, a, st⟩ s :=
  (State.onInst_of_runs h.here h.runs _).trans (h.onPort f)

/-- An affine read port issues its next run of elements (R273). -/
theorem PortActs.reads {s1 : State} {p : Place} (hmode : a.mode = 0) (hread : a.wr = false) (hopen : st.ended = false)
    (hleft : st.iter < iterations a.counts) (haligned : ((⟨n, 512 + port, i, a, st⟩ : Port).addrAt st.iter).toNat % a.size = 0)
    (hfree : i.generatorHeld (512 + port) = false)
    (hplace : s.portPlace i .r ((⟨n, 512 + port, i, a, st⟩ : Port).addrAt st.iter) = (s1, .ok p)) :
    let x : Port := ⟨n, 512 + port, i, a, st⟩
    let k := max 1 (x.runAt st.iter)
    exec (.streamPortAccess n port) s = .next (x.put (s1.mscAccess p) { st with
      items := st.items ++ .read p.loc k a.size none :: x.marksAt (st.iter + k), iter := st.iter + k }) := by
  have hgo : (st.ended || decide (iterations a.counts ≤ st.iter) || i.generatorHeld (512 + port)) = false := by
    simp only [hopen, hleft.not_ge, hfree, decide_false, Bool.or_self]
  refine congrArg Host.Outcome.next ((h.onTurn _).trans ?_)
  simp only [hmode, hread, Port.affineRead, hgo, haligned, hplace, bne_self_eq_false, Bool.false_eq_true, if_false]
  rfl

/-- An affine write port writes its next run of elements (R273). -/
theorem PortActs.writes {s1 : State} {p : Place} (hmode : a.mode = 0) (hwrite : a.wr = true) (hbuf : st.buf ≠ [])
    (hleft : st.iter < iterations a.counts) (hmarked : st.iter = 0 ∨ st.iter = st.marked ∨ levelsDone a.counts st.iter = 0)
    (haligned : ((⟨n, 512 + port, i, a, st⟩ : Port).addrAt st.iter).toNat % a.size = 0)
    (hplace : s.portPlace i .w ((⟨n, 512 + port, i, a, st⟩ : Port).addrAt st.iter) = (s1, .ok p)) (hmig : p.mig = false) :
    let x : Port := ⟨n, 512 + port, i, a, st⟩
    let k := min st.buf.length (max 1 (x.runAt st.iter))
    let t := x.put ((s1.mscAccess p).store p.loc ((st.buf.take k).flatMap (leBytes a.size)))
      { st with buf := st.buf.drop k, iter := st.iter + k }
    exec (.streamPortAccess n port) s =
      .next (if (st.buf.drop k).isEmpty then t.modInst n fun i => { i with tokens := i.tokens + 1 } else t) := by
  have hdue : (st.iter != 0 && st.iter != st.marked && levelsDone a.counts st.iter != 0) = false := by
    rcases hmarked with h | h | h <;> simp [h]
  refine congrArg Host.Outcome.next ((h.onTurn _).trans ?_)
  simp only [hmode, hwrite, Port.affineWrite, Port.writeRun, List.isEmpty_eq_false_iff.mpr hbuf, hleft.not_ge, hdue, haligned, hplace, hmig,
    bne_self_eq_false, decide_false, Bool.or_self, Bool.not_false, Bool.false_eq_true, if_false, if_true]

/-- An affine read port whose one pending read returns sends what fills a token (R268, R273). -/
theorem PortActs.returns {adr k z : Nat} (hmode : a.mode = 0) (hread : a.wr = false) (hitems : st.items = [.read adr k z none])
    (hz : 0 < z) (hbad : s.bad = []) (hpoison : s.poison = []) (hroom : i.accepts (512 + port) [0] = true)
    (hlen : (st.buf ++ unpackN z k (s.bytesAt adr (k * z))).length < 2 * elCount (⟨n, 512 + port, i, a, st⟩ : Port).width) :
    let x : Port := ⟨n, 512 + port, i, a, st⟩
    let els := st.buf ++ unpackN z k (s.bytesAt adr (k * z))
    ∃ j : Inst, exec (.streamDataReturn n port) s = .next (x.passed (({ s with choices := s.choices + 1 } : State).modInst n fun _ =>
        j.modPort (512 + port) fun _ => { st with items := [], buf := els.drop (els.length / elCount x.width * elCount x.width) }) [])
      ∧ ∀ v, j.pending v = i.pending v := by
  obtain ⟨j, hdrain, hkeeps⟩ := Port.drain_returned (x := ⟨n, 512 + port, i, a, st⟩) (st.buf.length + 1 + k) (a := adr) hroom hlen
  refine ⟨j, congrArg Host.Outcome.next ?_, hkeeps⟩
  have hperform := Port.perform_one (x := ⟨n, 512 + port, i, a, st⟩) hitems hz hbad hpoison
  have hfuel : [PItem.read adr k z (some (s.bytesAt adr (k * z)))].foldl (fun m y => m + y.weight) (st.buf.length + 1)
      = st.buf.length + 1 + k + 2 := rfl
  refine ((State.onPlaced_of_placed h.here (State.placed_of_runs h.runs) _).trans (h.onPort _)).trans ?_
  simp only [hperform, hmode, hread, h.here, Option.getD_some, hfuel, hdrain, Nat.reduceEqDiff, Bool.or_self, decide_false,
    Bool.false_eq_true, if_false]

/-- Both channels of a scatter-add hold an end marker: unlike ones fault, and like ones end the batch or pass on (R278). -/
theorem PortActs.scatters {t0 t1 : Token} (hmode : a.mode = 4) (h0 : i.head (512 + port) 0 = some t0) (h1 : i.head (512 + port) 1 = some t1)
    (hk0 : t0.kind = 1) (hk1 : t1.kind = 1) :
    let x : Port := ⟨n, 512 + port, i, a, st⟩
    exec (.scatterAddBatch n port) s = .next (if t0.lev != t1.lev then x.fail s 0x0B
      else if x.heldUp t0.lev then s
      else if t0.lev.getLsbD 0 then x.batch s t0.lev
      else x.passed (s.modInst n fun i => i.consumeAll (512 + port) [0, 1]) [t0.lev]) := by
  refine congrArg Host.Outcome.next ((h.onTurn _).trans ?_)
  simp only [hmode, h0, h1, hk0, hk1, bne_self_eq_false, Bool.or_self, Bool.false_eq_true, if_false]

end

theorem portsAct : PortsAct := by
  intro s n port i a st h x
  refine ⟨fun s1 p hmode hread hopen hleft haligned hfree hplace hclean => ?reads,
    fun s1 p hmode hwrite hbuf hleft hmarked haligned hplace hmig hin hclean => ?writes,
    fun us adr k z hmode hread hus hselect hitems hz hclean => ?returns,
    fun t0 t1 hmode h0 h1 hk0 hk1 => ⟨fun hne => ?unlike, fun heq hbatch hheld => ?batch, fun heq hinner hheld => ?inner⟩⟩
  case reads =>
    intro k
    have hhere : tget s1.insts n = some i := State.portPlace_insts hplace ▸ h.here
    obtain ⟨hmem, j, hj, hport⟩ := Port.put_requested (x := x) hhere h.st hclean p
      { st with items := st.items ++ .read p.loc k a.size none :: x.marksAt (st.iter + k), iter := st.iter + k }
    exact ⟨_, j, h.reads hmode hread hopen hleft haligned hfree hplace, hj, hmem, hport⟩
  case writes =>
    intro k hlen
    have hexec := h.writes hmode hwrite hbuf hleft hmarked haligned hplace hmig
    have hhere : tget s1.insts n = some i := State.portPlace_insts hplace ▸ h.here
    obtain ⟨hmem, j, hj, hport⟩ := Port.put_written (x := x) hhere h.st hclean p { st with buf := st.buf.drop k, iter := st.iter + k }
      (bs := (st.buf.take k).flatMap (leBytes a.size)) (by omega)
    by_cases hdone : (st.buf.drop k).isEmpty = true
    · exact ⟨_, _, hexec.trans (congrArg _ (if_pos hdone)), State.tget_modInst hj _, (State.modInst_mem ..).trans hmem, hport⟩
    · exact ⟨_, j, hexec.trans (congrArg _ (if_neg hdone)), hj, hmem, hport⟩
  case returns =>
    intro els hlen hroom
    obtain ⟨j, hexec, hkeeps⟩ := h.returns hmode hread hitems hz hclean.words hclean.blocks hroom hlen
    have hpending : j.pending (512 + port) = (i.ports, none) := (hkeeps _).trans (by simp [Inst.pending, hus, hselect])
    obtain ⟨hports, hnone⟩ := Prod.mk.inj hpending
    exact ⟨_, _, hexec, State.tget_modInst (State.tget_modInst h.here _) _, rfl, Inst.trySwap_modPort hnone (hports ▸ h.st) _⟩
  case unlike =>
    have hexec := (h.scatters hmode h0 h1 hk0 hk1).trans (congrArg _ (if_pos (bne_iff_ne.mpr hne)))
    exact ⟨_, _, hexec, State.tget_modInst h.here _, rfl⟩
  case batch =>
    refine ⟨s, h.here, rfl, (h.scatters hmode h0 h1 hk0 hk1).trans (congrArg _ ?_)⟩
    rw [heq, bne_self_eq_false, ← heq, hheld, hbatch]
    rfl
  case inner =>
    refine ⟨_, h.scatters hmode h0 h1 hk0 hk1, ?_⟩
    rw [heq, bne_self_eq_false, ← heq, hheld, hinner]
    exact Port.passed_mem ..

/-- Settles O48: each kind of event finds its `Inst`, and the requests on its way leave the table of instances as it is. -/
theorem arraysRun : Obligations.ArraysRun := ⟨instancesStart, instancesEnd, unitsFire, tokensArrive, banksServe, portsAct⟩

end Sys2Proof.Machine
end
